-- ==== Sys2Proof/Word.lean ====
section
/-!
DEFINITION. The word types of the HX4 and the sparse table every register file, memory and directory of the model
is held in (R2: little-endian, bit 0 least significant).
-/

namespace Sys2Proof

abbrev Byte := BitVec 8
abbrev Half := BitVec 16
abbrev W32 := BitVec 32
abbrev W64 := BitVec 64
/-- A slot of a fetch line (R63). -/
abbrev W96 := BitVec 96
/-- A lane mask: bit i is thread i of a group (R35). -/
abbrev Mask := BitVec 32

/-- A sparse table: key and value pairs with strictly rising keys. A key that is not listed holds the default that
the reader names. -/
abbrev Tbl (α : Type) := List (Nat × α)

/-- The entry of key `k`, if listed. -/
def Tbl.find {α : Type} (k : Nat) : Tbl α → Option α
  | [] => none
  | (j, v) :: t => if j = k then some v else Tbl.find k t

/-- The value at key `k`, `d` where none is listed. -/
def Tbl.get {α : Type} (d : α) (k : Nat) (t : Tbl α) : α := (Tbl.find k t).getD d

/-- The table with `v` at key `k`. -/
def Tbl.put {α : Type} (k : Nat) (v : α) : Tbl α → Tbl α
  | [] => [(k, v)]
  | (j, w) :: t =>
    if j = k then (k, v) :: t else if k < j then (k, v) :: (j, w) :: t else (j, w) :: Tbl.put k v t

/-- The table without key `k`. -/
def Tbl.del {α : Type} (k : Nat) (t : Tbl α) : Tbl α := t.filter fun e => e.1 != k

/-- The keys rise strictly. -/
def Tbl.sorted {α : Type} : Tbl α → Bool
  | [] => true
  | (_, _) :: [] => true
  | (j, _) :: (k, w) :: t => decide (j < k) && Tbl.sorted ((k, w) :: t)

/-- Element `i` of a list, `d` outside it. -/
def nth {α : Type} (d : α) : Nat → List α → α
  | _, [] => d
  | 0, x :: _ => x
  | i + 1, _ :: t => nth d i t

/-- The list with element `i` replaced (unchanged when there is no such element). -/
def setNth {α : Type} (v : α) : Nat → List α → List α
  | _, [] => []
  | 0, _ :: t => v :: t
  | i + 1, x :: t => x :: setNth v i t

/-- The list without element `i`. -/
def delNth {α : Type} : Nat → List α → List α
  | _, [] => []
  | 0, _ :: t => t
  | i + 1, x :: t => x :: delNth i t

/-- The numbers `a, a+1, …, a+n-1`. -/
def rangeFrom (a : Nat) : Nat → List Nat
  | 0 => []
  | n + 1 => a :: rangeFrom (a + 1) n

/-- The numbers 0 to n − 1. -/
def upTo (n : Nat) : List Nat := rangeFrom 0 n

/-- The 32 lanes of a group in ascending order (R34). -/
def lanes : List Nat := upTo 32

/-- The elements of a list that satisfy `p`, with their positions. -/
def findIdxFrom {α : Type} (p : α → Bool) : Nat → List α → Option Nat
  | _, [] => none
  | i, x :: t => if p x then some i else findIdxFrom p (i + 1) t

/-- The position of the first element that satisfies `p`. -/
def firstIdx {α : Type} (p : α → Bool) (l : List α) : Option Nat := findIdxFrom p 0 l

end Sys2Proof
end

