-- ==== Sys2Proof/Syntax.lean ====
section
/-!
DEFINITION. The steps of the HX4: every row of the opcode table is one constructor of `Instr` (R83 for the
instruction words, R375 for the operator records, R473 for the fabric commands; the remaining rows are events of the
part, which no word encodes and whose arguments say which unit acts and what the outside supplies).
-/

namespace Sys2Proof

/-- An operand field (R70, R71): register file and index, or a special. -/
inductive Opd where
  | v (n : BitVec 8) | s (n : BitVec 6) | a (n : BitVec 5)
  | zero | laneid | groupid | teamid | coreid
  | p (n : BitVec 3) | q (n : BitVec 2) | acc (n : BitVec 5)
  | imm | none
  deriving DecidableEq, Repr

/-- The guard field GD (R72). -/
structure Guard where
  neg : Bool
  idx : BitVec 3
  deriving DecidableEq, Repr

/-- The operand fields of a full word (R69). -/
structure Ops where
  g : Guard
  d : Opd
  a : Opd
  b : Opd
  c : Opd
  imm : W32
  deriving DecidableEq, Repr

/-- SAT of R99. -/
inductive Sat where | wrap | ss | us deriving DecidableEq, Repr
/-- COND of `icmp` (R110). -/
inductive ICond where | eq | ne | lt | le | gt | ge deriving DecidableEq, Repr
/-- COND of `fcmp` (R132). -/
inductive FCond where | eq | ne | lt | le | gt | ge | un deriving DecidableEq, Repr
/-- COMB of `icmp` and `fcmp` (R110). -/
inductive Comb where | none | and | or | xor deriving DecidableEq, Repr
/-- IDX of `lea` (R115). -/
inductive Idx where | full | i32 | u32 deriving DecidableEq, Repr
/-- The form of `promv` (R116). -/
inductive Prom where | lo | hi | w deriving DecidableEq, Repr
/-- A rounding mode (R19). -/
inductive Rm where | rne | rz | ru | rd | sr deriving DecidableEq, Repr
/-- KIND of `fcvt` (R134). -/
inductive Cvt where | fsi | fui | sif | uif | fsl | ful | slf | ulf deriving DecidableEq, Repr
/-- MODE of `vote` (R150). -/
inductive VMode where | or | and | same | mask | cnt | low deriving DecidableEq, Repr
/-- MODE of `shfl` (R152). -/
inductive SMode where | pick | slide | spin | flip | rev deriving DecidableEq, Repr
/-- SEGW of `shfl` (R152): the segment width W. -/
inductive Seg where | w32 | w2 | w4 | w8 | w16 deriving DecidableEq, Repr
/-- OPN of `redi` (R154). -/
inductive RedI where | add | min | max | and | or | xor deriving DecidableEq, Repr
/-- OPN of `redf` (R155). -/
inductive RedF where | add | min | max | minn | maxn deriving DecidableEq, Repr
/-- OPN of `setsr` (R159). -/
inductive SrOp where | write | or | andn deriving DecidableEq, Repr
/-- A scope (R172, R202). -/
inductive Scope where | thr | grp | team | clu | die | pkg | sys | fab deriving DecidableEq, Repr
/-- ORD (R172). -/
inductive MOrd where | plain | acq | rel | ar deriving DecidableEq, Repr
/-- CH, the cache hint (R173). -/
inductive Ch where | normal | nt | lu deriving DecidableEq, Repr
/-- SIZE (R171). -/
inductive Size where | b32 | b64 | b128 | b8 | s8 | b16 | s16 deriving DecidableEq, Repr
/-- A format code (R11, R12). -/
inductive Fmt where
  | fp32 | bf16 | fp16 | e4m3 | e5m2 | e3m2 | e2m3 | e2m1 | int8 | int4
  | mxe4m3 | mxe5m2 | mxe3m2 | mxe2m3 | mxe2m1 | mxint8
  deriving DecidableEq, Repr
/-- AOP (R178). -/
inductive AOp where
  | add | smin | smax | umin | umax | and | or | xor | xchg | cas | fadd | fminn | fmaxn
  deriving DecidableEq, Repr
/-- SEL of `accz` (R246). -/
inductive AccSel where | all | d | ml | fl deriving DecidableEq, Repr
/-- SIDE of `accld` and `accst` (R236). -/
inductive Side where | data | ml | fl deriving DecidableEq, Repr
/-- CNT of `rld` (R334). -/
inductive Cnt where | x1 | x2 | x4 deriving DecidableEq, Repr
/-- A catalogue operation that software names (R375 SIGEV, R391). -/
inductive EvOp where | add | arm | set deriving DecidableEq, Repr
/-- Every catalogue operation (R382). -/
inductive CatOp where | add | arm | set | fail deriving DecidableEq, Repr
/-- A privilege level (R9). -/
inductive Priv where | user | sup | fw deriving DecidableEq, Repr
/-- ROP of a collective (R473). -/
inductive ROp where | sum | max | min deriving DecidableEq, Repr

/-- The common header of an operator record (R375). -/
structure RecHdr where
  seq : Half
  prio : BitVec 6
  pov : Bool
  b : Bool
  deriving DecidableEq, Repr

/-- P3 of JOB and CJOB (R375). -/
structure JobP3 where
  event : W32
  evon : Bool
  evarm : Bool
  evtile : Bool
  anyteam : Bool
  team : BitVec 3
  place : Bool
  deriving DecidableEq, Repr

/-- The common fields of a fabric command (R473). -/
structure FabHdr where
  seq : Half
  evon : Bool
  b : Bool
  event : W32
  deriving DecidableEq, Repr

/-- What LOAD_WRITEBACK picks (R80, R82): the lanes whose next part performs, and the units that are written: bit 4·lane + k for register k
of a varying destination, bit k of a uniform one. -/
structure LoadPick where
  perf : Mask
  units : BitVec 128
  deriving DecidableEq, Repr
/-- What STORE_PERFORM picks (R80, R82): the lanes whose next part performs, and the source registers read now and not at issue: of data, bit
4·lane + k for register k of C; of the address, bit 4·lane for A or its low register, + 1 for its high one, + 2 for B. -/
structure StorePick where
  lanes : Mask
  data : BitVec 128
  addr : BitVec 128
  deriving DecidableEq, Repr
/-- What COPY_ACCEPT picks (R82, R267): the channel, and the command's source registers read now and not at issue. -/
structure CopyPick where
  chan : Nat
  late : BitVec 4
  deriving DecidableEq, Repr

/-- How the curator finishes a copy part (R289). -/
inductive Finish where | reroute | poison | unreachable deriving DecidableEq, Repr

/-- What Stage B finds on one die (R352, R362, R456): the cores that fail, as site 9·row + physical column and the block that fails (1–7); the
sites whose router fails; the sites of slices that fail, and whether redundant rows repair each; the HBM4E stacks that do not train. -/
structure DieTest where
  cores : List (Nat × Nat)
  routers : List Nat
  slices : List (Nat × Bool)
  untrained : List Nat
  deriving DecidableEq, Repr
def DieTest.failed (t : DieTest) : List Nat := t.cores.map (fun c => c.1)
def DieTest.routerFail (t : DieTest) : Bool := !t.routers.isEmpty
def DieTest.sliceFail (t : DieTest) : Bool := t.slices.any (fun x => !x.2)
def DieTest.trainFail (t : DieTest) : Bool := !t.untrained.isEmpty

/-- A flash image as the stage-0 loader reads it (R453): its header fields, its key and signature, its body. -/
structure Image where
  magic : W32
  version : Half
  kind : Byte
  keysel : Byte
  digest : BitVec 512
  pubkey : List Byte
  sig : List Byte
  body : List Byte
  deriving DecidableEq, Repr

/-- The kinds of section that the loader tells apart (R90, R448). -/
inductive SectKind where | text | linkage | data deriving DecidableEq, Repr

/-- A section of a code object at the global pointer where the loader places it (R448), with its sh_addralign (R90). -/
structure CodeSect where
  va : W64
  kind : SectKind
  align : Nat
  data : List Byte
  deriving DecidableEq, Repr

/-- A symbol of a code object (R90, R448): its name is a number, its value its placed address, `typ` its ELF type (STT_FUNC 2); `entry`
marks an entry point. -/
structure Sym where
  name : Nat
  typ : Nat
  glob : Bool
  weak : Bool
  defined : Bool
  value : W64
  entry : Bool
  deriving DecidableEq, Repr

/-- A relocation of a code object (R93): the global pointer of its field, its type, and its symbol by its place in the object's
list. -/
structure Reloc where
  va : W64
  kind : Nat
  sym : Nat
  addend : W64
  deriving DecidableEq, Repr

/-- The ELF fields that R89 speaks of: EI_CLASS, EI_DATA, EI_OSABI, e_type, e_machine, e_flags. -/
structure ElfHdr where
  cls : Byte
  data : Byte
  osabi : Byte
  typ : Half
  machine : Half
  flags : W32
  deriving DecidableEq, Repr

/-- A code object (R89–R93): its ELF fields, its placed sections, symbols and relocations. -/
structure CodeObj where
  id : Nat
  elf : ElfHdr
  sects : List CodeSect
  syms : List Sym
  relocs : List Reloc
  deriving DecidableEq, Repr

/-- What a peer's request asks of an export window (R474, R475). -/
inductive PeerOp where
  | read (len : Nat)
  | write (data : List Byte)
  | atomic (aop : AOp) (sz : Bool) (c cnew : W64)
  | step (slot : Nat) (op : CatOp) (n : W32)
  deriving DecidableEq, Repr

/-- What the host does over Watis (R458). -/
inductive HostOp where
  | load (pa : Nat) (len : Nat)
  | store (pa : Nat) (data : List Byte)
  | marker
  | mgmt (off : Nat) (size : Nat) (value : W64)
  deriving DecidableEq, Repr

/-- The steps of the HX4, one constructor per row of the opcode table. -/
inductive Instr where
  -- Integer, logic, affine and address instructions (R99)
  | iadd (o : Ops) (w : Bool) (sat : Sat)
  | isub (o : Ops) (w : Bool) (sat : Sat)
  | imul (o : Ops) (w : Bool) (sat : Sat)
  | imulh (o : Ops) (w u : Bool)
  | imad (o : Ops) (w : Bool)
  | iaddc (o : Ops) (w sub : Bool) (co : Option (BitVec 3))
  | imin (o : Ops) (w u : Bool)
  | imax (o : Ops) (w u : Bool)
  | iabs (o : Ops) (w sat : Bool)
  | ineg (o : Ops) (w sat : Bool)
  | and (o : Ops) (w : Bool)
  | or (o : Ops) (w : Bool)
  | xor (o : Ops) (w : Bool)
  | not (o : Ops) (w : Bool)
  | andn (o : Ops) (w : Bool)
  | shl (o : Ops) (w : Bool)
  | shr (o : Ops) (w : Bool)
  | sar (o : Ops) (w : Bool)
  | rot (o : Ops) (w : Bool)
  | popc (o : Ops) (w : Bool)
  | clz (o : Ops) (w : Bool)
  | ctz (o : Ops) (w : Bool)
  | brev (o : Ops) (w : Bool)
  | bfe (o : Ops) (w sx : Bool)
  | bfi (o : Ops) (w : Bool)
  | prmt (o : Ops)
  | icmp (o : Ops) (w : Bool) (cond : ICond) (u : Bool) (comb : Comb)
  | isel (o : Ops) (w : Bool)
  | mov (o : Ops) (w : Bool)
  | movi (o : Ops) (w z : Bool)
  | movh (o : Ops)
  | lea (o : Ops) (scale : BitVec 3) (idx : Idx)
  | promv (o : Ops) (form : Prom)
  | proma (o : Ops)
  | astr (o : Ops)
  | abase (o : Ops)
  -- Floating-point, special-function and random-number instructions (R124)
  | fadd (o : Ops) (rm : Rm)
  | fsub (o : Ops) (rm : Rm)
  | fmul (o : Ops) (rm : Rm)
  | ffma (o : Ops) (rm : Rm) (np nc : Bool)
  | fmin (o : Ops)
  | fmax (o : Ops)
  | fminn (o : Ops)
  | fmaxn (o : Ops)
  | fcmp (o : Ops) (cond : FCond) (comb : Comb)
  | fclass (o : Ops)
  | frnd (o : Ops) (rm : Rm)
  | fcvt (o : Ops) (rm : Rm) (kind : Cvt)
  | bfcvt (o : Ops) (rm : Rm) (sat : Bool)
  | bfext (o : Ops) (hi : Bool)
  | badd2 (o : Ops) (rm : Rm) (s : Bool)
  | bmul2 (o : Ops) (rm : Rm) (s : Bool)
  | bfma2 (o : Ops) (rm : Rm) (s : Bool)
  | fdot2 (o : Ops) (rm : Rm)
  | fexp2 (o : Ops)
  | flog2 (o : Ops)
  | frcp (o : Ops)
  | frsq (o : Ops)
  | fsqrt (o : Ops)
  | fsin (o : Ops)
  | fcos (o : Ops)
  | ftanh (o : Ops)
  | fscl (o : Ops) (rm : Rm)
  | rng (o : Ops) (f : Bool)
  -- Control flow, cross-lane and trap instructions (R141), and the register blocks (R52)
  | bra (o : Ops) (nq pop : Bool)
  | brx (o : Ops) (pop : Bool)
  | call (o : Ops)
  | callx (o : Ops)
  | ret (o : Ops)
  | loop (o : Ops) (len : BitVec 10)
  | conv (o : Ops)
  | exit (o : Ops)
  | wait (o : Ops)
  | yield (o : Ops)
  | nop (o : Ops)
  | trap (o : Ops)
  | trapEnd (o : Ops)
  | tret (o : Ops) (next : Bool)
  | brk (o : Ops)
  | vote (o : Ops) (mode : VMode)
  | elect (o : Ops)
  | shfl (o : Ops) (mode : SMode) (seg : Seg)
  | rdlane (o : Ops)
  | wrlane (o : Ops)
  | redi (o : Ops) (op : RedI) (u : Bool)
  | redf (o : Ops) (op : RedF)
  | redmaxi (o : Ops) (i : Bool)
  | matchLanes (o : Ops)
  | isect (o : Ops)
  | scnt (o : Ops) (inc : Bool)
  | getsr (o : Ops)
  | setsr (o : Ops) (op : SrOp)
  | regacq (o : Ops)
  | regrel (o : Ops)
  -- Memory access instructions (R170)
  | ld (o : Ops) (ch : Ch) (scope : Scope) (ord : MOrd) (size : Size)
  | ldConvert (o : Ops) (ch : Ch) (fmt : Fmt)
  | st (o : Ops) (ch : Ch) (scope : Scope) (ord : MOrd) (size : Size)
  | stConvert (o : Ops) (ch : Ch) (sat : Bool) (rm : Rm) (fmt : Fmt)
  | atom (o : Ops) (sz : Bool) (scope : Scope) (ord : MOrd) (aop : AOp)
  | red (o : Ops) (sz : Bool) (scope : Scope) (ord : MOrd) (aop : AOp)
  | fence (o : Ops) (scope : Scope)
  | fenceG (o : Ops) (scope : Scope)
  | fencex (o : Ops) (paths : BitVec 5) (scope : Scope)
  | pref (o : Ops) (l2 : Bool)
  | discard (o : Ops)
  | clean (o : Ops) (mem : Bool)
  | inval (o : Ops) (i : Bool)
  | copy (o : Ops)
  -- Matrix instructions (R236)
  | mma (o : Ops) (ru z : Bool)
  | mmaS (o : Ops) (z : Bool)
  | mmaP (o : Ops) (ru z : Bool)
  | accz (o : Ops) (sel : AccSel)
  | accld (o : Ops) (side : Side) (fmt : Fmt)
  | accst (o : Ops) (sat : Bool) (rm : Rm) (side : Side) (fmt : Fmt)
  | accscl (o : Ops) (row : Bool)
  | smx (o : Ops) (nv : BitVec 8)
  | smxf (o : Ops)
  | mred (o : Ops) (col : Bool)
  | mtrld (o : Ops) (b8 : Bool)
  -- Copy and barrier instructions (R262)
  | tset (o : Ops)
  | bseal (o : Ops)
  | bwait (o : Ops)
  | barinit (o : Ops)
  | barexp (o : Ops)
  | barwait (o : Ops) (paths : BitVec 5) (gn : Bool)
  | barpoll (o : Ops)
  -- Cluster instructions (R331, R334, R335)
  | clbar (o : Ops) (paths : BitVec 5)
  | clarr (o : Ops) (paths : BitVec 5)
  | rld (o : Ops) (cnt : Cnt)
  | msend (o : Ops) (blk : Bool)
  | mrecv (o : Ops)
  | mprobe (o : Ops) (st : Bool)
  | mcancel (o : Ops)
  -- Hamper, event, accession and debug instructions (R391, R430, R462)
  | hpop (o : Ops)
  | hpopJ (o : Ops)
  | hpush (o : Ops)
  | hstat (o : Ops)
  | evsig (o : Ops) (op : EvOp)
  | evwait (o : Ops)
  | jdone (o : Ops)
  | publish (o : Ops)
  | adopt (o : Ops)
  | tokrec (o : Ops)
  | snap (o : Ops)
  -- Events inside a core: g a group, c a core, t a team, all by package-wide number
  | waitRelease (g : Nat)
  | convRelease (g : Nat)
  | regacqGrant (c : Nat)
  | exitComplete (g : Nat) (lane : BitVec 5)
  | loadWriteback (g ix : Nat) (only : LoadPick)
  | storePerform (g ix : Nat) (early : StorePick)
  | ldpois (g : Nat) (lane : BitVec 5)
  | fenceRelease (g : Nat) (lane : BitVec 5)
  | matrixOpStart (c : Nat)
  | matrixOpRetire (c : Nat)
  | tsetInstall (g : Nat)
  | copyAccept (c : Nat) (ch : CopyPick)
  | copyArrival (c ix rx : Nat) (bytes : Nat)
  | copySourceFail (c ix : Nat)
  | curatorCopyFinish (c ix rx : Nat) (how : Finish)
  | barwaitRelease (g : Nat)
  | clbarRelease (g : Nat)
  | messageArrival (ix : Nat)
  | messageStallTimeout (t ix : Nat)
  | hpushPlace (c ix : Nat)
  | hamperRefill (c : Nat)
  | hpopTake (g : Nat)
  | evwaitRelease (g : Nat)
  | jdoneRelease (g : Nat)
  | jobLaunch (t : Nat)
  | jobCompletionReport (ix : Nat)
  | coreSleep (c : Nat)
  | coreWake (c : Nat) (errors : List (BitVec 2 × BitVec 12))
  | haltRequest (t : Nat)
  | checkpointSave (t : Nat) (lost : Bool)
  -- The Docent: d a die, q a queue of it
  | queueTailWake (d q : Nat)
  | nopRecord (h : RecHdr)
  | job (h : RecHdr) (tiles : BitVec 24) (entry arg : W64) (p : JobP3)
  | cjob (h : RecHdr) (clusters : BitVec 24) (entry arg : W64) (p : JobP3)
  | waitev (h : RecHdr) (event : W32)
  | sigev (h : RecHdr) (op : EvOp) (event n : W32)
  | loopRecord (h : RecHdr) (nbody : Half) (cond : W64) (maxiter : W32) (dmin dmax d0 : Byte) (mon : Bool)
  | loopend (h : RecHdr)
  | adoptRecord (h : RecHdr)
  | lease (h : RecHdr) (r w part : Bool) (base len : W64)
  | unlease (h : RecHdr) (base len : W64)
  | resume (h : RecHdr) (core : BitVec 6) (cv : Bool) (image table : W64) (event : W32) (evon : Bool)
  | partw (h : RecHdr) (pword : BitVec 24) (mask : W64) (clcfg : BitVec 18) (gslots : BitVec 48)
  | mark (h : RecHdr) (addr value : W64)
  | slice (h : RecHdr) (set : Byte) (t : W64)
  | endreq (h : RecHdr) (nreq : Half) (state bitmap : W64)
  | haltq (h : RecHdr) (queue : BitVec 6) (halt : Bool) (budget : W32)
  | leasePinComplete (d q n : Nat)
  | tilePlace (d : Nat)
  | drainEscalate (d q : Nat)
  | resumeListResume (d q : Nat)
  | evwaitBudgetExpire (g : Nat)
  | watchdogTick (d : Nat)
  | catalogueStep (d slot : Nat) (op : CatOp) (n : W32)
  | coreLost (c : Nat)
  | linkdown (d site dir : Nat)
  | queueStart (d q : Nat)
  | pcoreWrite (d p : Nat) (mask : W64)
  | vitbaseWrite (d n : Nat) (value : W64)
  | vitrinePin (d n : Nat)
  | vitrineRelease (d n : Nat)
  | vitrinePinDone (d n : Nat)
  | vitrineReleaseDone (d n : Nat)
  | xlinvPage (d p : Nat) (va : W64)
  | xlinvPartition (d p : Nat)
  | xlinvAll (d : Nat)
  | xlinvDone (d : Nat)
  | rootWrite (p : Nat) (value : W64)
  | pubaccWrite (value : W32)
  | debugDisarm (value : W64)
  | debugHoldQueue (value : W64)
  | debugStopJob (value : W64)
  | debugStopPartition (value : W64)
  | snapinTrigger
  | snapshotLatch
  | tsTick
  | registerWrite (priv : Priv) (off size : Nat) (value : W64)
  | powerGood (recover : Bool)
  | stageB (dies : List DieTest)
  | stageC
  | attestationRequest (nonce : BitVec 256)
  | ownerEnrol (image : Image) (copy : Option Bool) (writable : Bool)
  | watisPortDown (port : Bool)
  | ualinkPortDown (port : BitVec 4)
  | fabricRingStart (q : Nat)
  | fabricTailWake (q : Nat)
  | read (h : FabHdr) (peer : BitVec 10) (laddr raddr : W64) (len : W32)
  | write (h : FabHdr) (peer : BitVec 10) (laddr raddr : W64) (len : W32)
  | atomic (h : FabHdr) (peer : BitVec 10) (laddr raddr : W64) (aop : AOp) (sz : Bool)
  | allreduce (h : FabHdr) (rop : ROp) (cgid : BitVec 12) (laddr list : W64) (len nmem : W32)
  | broadcast (h : FabHdr) (cgid : BitVec 12) (root : BitVec 10) (laddr list : W64) (len nmem : W32)
  | fabricCmdComplete (q ix : Nat) (ok : Bool) (data : List Byte)
  | fabricRequestArrival (peer : Nat) (addr : W64) (op : PeerOp)
  | remoteEventAnswer (event count : W32) (fail : Bool)
  | fabricPeerTimeout (peer : Nat)
  | collectiveTimeout (cgid : Nat) (reuse : Bool)
  | peerDebugState (peer : Nat) (on : Bool)
  | sliceDrainStart
  | sliceEscalate
  | sliceSwitch
  | loaderLoad (part : Nat) (objs : List CodeObj)
  | tlockChange (locked : Bool)
  | eventWatchRegister (peer : Nat) (event : W32)
  | collectiveMemberData (cgid member : Nat) (same : Bool) (data : List Byte)
  | cgidFinishReport (cgid member : Nat)
  | hostAccess (op : HostOp)
  deriving DecidableEq, Repr

end Sys2Proof
end

