-- ==== Sys2Proof/WellFormed.lean ====
section
/-!
DEFINITION. Which instruction terms an encoding may carry: the checks of orders 3 and 4 of R79 on a decoded term.
`encFault` is ILLENC (reserved values and register shapes), `typeFault` is ILLTYPE (operand types, presence, guards).
A term that raises neither is well formed.
-/

namespace Sys2Proof

/-- What an operand counts as for the type rule (R45, R46, R71). -/
inductive Kind where | uni | aff | vary | pred | upred | acc | absent
  deriving DecidableEq, Repr

def Opd.kind : Opd → Kind
  | .v _ => .vary
  | .s _ | .zero | .groupid | .teamid | .coreid | .imm => .uni
  | .a _ | .laneid => .aff
  | .p _ => .pred
  | .q _ => .upred
  | .acc _ => .acc
  | .none => .absent

def Opd.isV : Opd → Bool | .v _ => true | _ => false
def Opd.isS : Opd → Bool | .s _ => true | _ => false
def Opd.isA : Opd → Bool | .a _ => true | _ => false
def Opd.isP : Opd → Bool | .p _ => true | _ => false
def Opd.isQ : Opd → Bool | .q _ => true | _ => false
def Opd.isAcc : Opd → Bool | .acc _ => true | _ => false
def Opd.isImm : Opd → Bool | .imm => true | _ => false
def Opd.isNone : Opd → Bool | .none => true | _ => false
def Opd.isZero : Opd → Bool | .zero => true | _ => false
/-- Uniform-kind: a uniform register, a uniform special or IMM. -/
def Opd.isUni (x : Opd) : Bool := x.kind = .uni
def Opd.isAff (x : Opd) : Bool := x.kind = .aff
/-- An integer or float source: varying, uniform-kind or affine. -/
def Opd.isVal (x : Opd) : Bool := x.isV || x.isUni || x.isAff
def Opd.isPq (x : Opd) : Bool := x.isP || x.isQ
/-- The data of a store or an atomic: varying or uniform; IMM is the address extension (R71, R97, R164, R171). -/
def Opd.isData (x : Opd) : Bool := x.isV || (x.isUni && !x.isImm)
/-- A varying register whose index is not a multiple of `n`. -/
def Opd.oddV (n : Nat) : Opd → Bool | .v k => k.toNat % n != 0 | _ => false
/-- A uniform register whose index is not a multiple of `n`. -/
def Opd.oddS (n : Nat) : Opd → Bool | .s k => k.toNat % n != 0 | _ => false

/-- The always-true guard (R72). -/
def Guard.always : Guard := ⟨false, 7#3⟩

/-- The result kind of an opcode under R46, without the affine rows: uniform when every source is uniform and the
opcode has a uniform form, else varying. -/
def resKind (hasU : Bool) (srcs : List Opd) : Kind :=
  if hasU && srcs.all (fun x => x.kind = .uni || x.kind = .upred) then .uni else .vary

/-- The result kind of an addition or subtraction under R46. -/
def addKind (x y : Opd) : Kind :=
  if x.isUni && y.isUni then .uni
  else if (x.isUni || x.isAff) && (y.isUni || y.isAff) then .aff else .vary

/-- The result kind of a multiplication under R46. -/
def mulKind (x y : Opd) : Kind :=
  if x.isUni && y.isUni then .uni
  else if (x.isUni && y.isAff) || (x.isAff && y.isUni) then .aff else .vary

/-- The destination is a register of exactly the kind `k` (R74). -/
def Opd.matches (d : Opd) (k : Kind) : Bool :=
  match k with
  | .uni => d.isS
  | .aff => d.isA
  | .vary => d.isV
  | _ => false

/-- R49: a group-scope form carries the always-true guard. -/
def guardBad (o : Ops) (groupScope : Bool) : Bool := groupScope && o.g != Guard.always

/-- Every operand field beyond the first `n` sources is absent (R73). -/
def absentFrom (n : Nat) (o : Ops) : Bool :=
  (n ≥ 1 || o.a.isNone) && (n ≥ 2 || o.b.isNone) && (n ≥ 3 || o.c.isNone)

/-- ILLTYPE of a plain integer or float form with `n` value sources (R46, R74, R95). -/
def aluBad (o : Ops) (n : Nat) (k : Kind) (w : Bool) : Bool :=
  !((n < 1 || o.a.isVal) && (n < 2 || o.b.isVal) && (n < 3 || o.c.isVal) && absentFrom n o && o.d.matches k)
  || guardBad o (k != .vary) || (w && k != .vary)

/-- The first `n` source fields. -/
def Ops.srcs (o : Ops) (n : Nat) : List Opd := [o.a, o.b, o.c].take n

/-- ILLTYPE of the opcodes of R104 with `n` sources: integer forms, and the predicate forms of R105. -/
def logicBad (o : Ops) (n : Nat) (w : Bool) : Bool :=
  if o.d.isPq then
    w || !absentFrom n o || !(o.srcs n).all Opd.isPq || (o.d.isQ && !(o.srcs n).all Opd.isQ) || guardBad o o.d.isQ
  else aluBad o n (resKind true (o.srcs n)) w

/-- ILLTYPE of `icmp` and `fcmp` (R110, R132). -/
def cmpBad (o : Ops) (comb : Comb) (w : Bool) : Bool :=
  let ks := if comb = .none then [o.a, o.b] else [o.a, o.b, o.c]
  let k := resKind true ks
  !(o.a.isVal && o.b.isVal) || (comb = .none && !o.c.isNone) || (comb ≠ .none && !o.c.isPq)
  || (k = .uni && !o.d.isQ) || (k = .vary && !o.d.isP) || guardBad o (k = .uni) || (w && k = .uni)

/-- The address operands of R164 are of the files it accepts. -/
def addrBad (o : Ops) : Bool :=
  !(o.a.isV || o.a.isS || o.a.isAff || o.a.isZero) || !(o.b.isV || o.b.isS || o.b.isAff || o.b.isZero || o.b.isNone)

/-- An address is uniform when neither A nor B is varying or affine (R164). -/
def Ops.uniAddr (o : Ops) : Bool := !(o.a.isV || o.a.isAff || o.b.isV || o.b.isAff)

/-- Bits of the address extension of R164. -/
def Ops.ux (o : Ops) : Bool := o.imm.getLsbD 27
def Ops.scl (o : Ops) : Nat := (o.imm.extractLsb' 24 3).toNat
def Ops.ofs (o : Ops) : BitVec 24 := o.imm.extractLsb' 0 24

/-- ILLENC of an address (R164). -/
def addrEnc (o : Ops) : Bool :=
  o.imm.extractLsb' 28 4 != 0#4 || o.scl > 4 || o.a.oddV 2 || (o.ux && !o.b.isV) || (o.b.isNone && (o.ux || o.scl != 0))

/-- The registers that a SIZE names, as a power-of-two count of varying registers and of uniform registers. -/
def Size.vregs : Size → Nat | .b64 => 2 | .b128 => 4 | _ => 1
def Size.sregs : Size → Nat | .b128 => 2 | _ => 1

/-- ORD of `ld` and `st` (R172): a plain access names scope 000. -/
def ordBad (scope : Scope) (ord : MOrd) (ok : MOrd) : Bool :=
  !(ord = .plain || ord = ok) || (ord = .plain && scope != .thr)

/-- The formats of R174 and R175. -/
def Fmt.perLane : Fmt → Bool | .bf16 | .fp16 | .e4m3 | .e5m2 | .int8 => true | _ => false
def Fmt.isMx : Fmt → Bool
  | .mxe4m3 | .mxe5m2 | .mxe3m2 | .mxe2m3 | .mxe2m1 | .mxint8 => true
  | _ => false
def Fmt.packed (f : Fmt) : Bool := f != .fp32 && !f.perLane

/-- The K class of a matrix operand format (R227): 0 for none. -/
def Fmt.kclass : Fmt → Nat
  | .fp32 => 0
  | .bf16 | .fp16 => 1
  | .e4m3 | .e5m2 | .int8 | .mxe4m3 | .mxe5m2 | .mxint8 => 2
  | .e3m2 | .e2m3 | .mxe3m2 | .mxe2m3 => 3
  | .int4 => 4
  | .e2m1 | .mxe2m1 => 5

/-- K of a class (R227). -/
def Fmt.k (f : Fmt) : Nat := match f.kclass with | 0 => 0 | 1 => 128 | 5 => 512 | _ => 256

/-- The format of a code (R11, R12). -/
def Fmt.ofCode (c : BitVec 4) : Fmt :=
  match c.toNat with
  | 0 => .fp32 | 1 => .bf16 | 2 => .fp16 | 3 => .e4m3 | 4 => .e5m2 | 5 => .e3m2 | 6 => .e2m3 | 7 => .e2m1
  | 8 => .int8 | 9 => .int4 | 10 => .mxe4m3 | 11 => .mxe5m2 | 12 => .mxe3m2 | 13 => .mxe2m3 | 14 => .mxe2m1
  | _ => .mxint8

/-- Fields of the IMM of a matrix multiply (R236). -/
def Ops.kn (o : Ops) : Nat := (o.imm.extractLsb' 8 10).toNat
def Ops.fmta (o : Ops) : Fmt := .ofCode (o.imm.extractLsb' 4 4)
def Ops.fmtb (o : Ops) : Fmt := .ofCode (o.imm.extractLsb' 0 4)

/-- ILLENC of a matrix multiply (R236, R237); `va` says whether A is varying. -/
def mmaEnc (o : Ops) (va : Bool) : Bool :=
  o.imm.extractLsb' 18 14 != 0#14 || o.fmta.kclass = 0 || o.fmtb.kclass = 0 || o.fmta.kclass != o.fmtb.kclass
  || (va && (o.fmta != .bf16 || o.a.oddV 32 || (match o.a with | .v n => n.toNat > 192 | _ => false)))
  || o.kn > o.fmtb.k || o.c.oddS 2

/-- ILLTYPE of a matrix multiply (R236, R237). -/
def mmaBad (o : Ops) (va sa : Bool) : Bool :=
  !o.d.isAcc || !((va && o.a.isV) || (sa && o.a.isS)) || !o.b.isS
  || (if o.fmta.isMx || o.fmtb.isMx then !o.c.isS else !o.c.isNone) || guardBad o true

/-- Register numbers of R158, with their widths. -/
def srWidth (n : Nat) : Option Nat :=
  match n with
  | 0x000 => some 32 | 0x001 => some 64 | 0x002 => some 32 | 0x003 => some 64 | 0x004 => some 64 | 0x005 => some 32
  | 0x008 => some 64 | 0x009 => some 32 | 0x00A => some 32 | 0x00B => some 32 | 0x010 => some 32 | 0x011 => some 32
  | 0x018 => some 64 | 0x019 => some 64
  | _ => none

/-- The thread-scope registers of R158. -/
def srThread (n : Nat) : Bool := n = 0 || n = 2 || n = 3 || n = 4 || n = 0x10 || n = 0x11

/-- The special register number of `getsr` and `setsr` (R158). -/
def Ops.srnum (o : Ops) : Nat := (o.imm.extractLsb' 0 12).toNat

/-- The operand words of a group-scope form with no varying operand: D, A, B, C checked by four predicates. -/
def shapeBad (o : Ops) (fd fa fb fc : Opd → Bool) (group : Bool) : Bool :=
  !(fd o.d && fa o.a && fb o.b && fc o.c) || guardBad o group

def Opd.sZero (x : Opd) : Bool := x.isS || x.isZero
def Opd.sImm (x : Opd) : Bool := x.isS || x.isImm
def Opd.sImmZero (x : Opd) : Bool := x.isS || x.isImm || x.isZero

/-- The `copy` form of R190: `st.b128` plain, uniform address, an even uniform pair as data. -/
def Ops.copyShape (o : Ops) : Bool := o.uniAddr && o.c.isS && !o.c.oddS 2

/-- IMM has no bits outside the low `n` (R73, R141). -/
def immFits (o : Ops) (n : Nat) : Bool := o.imm.toNat < 2 ^ n

/-- IMM is used only where one of the opcode's source fields `xs` that may name it does (R71, R73, R141). -/
def immOk (o : Ops) (xs : List Opd) : Bool := o.imm == 0#32 || xs.any Opd.isImm

/-- An odd register among the wide positions `ws` of a `.w` form (R95). -/
def wideEnc (w : Bool) (ws : List Opd) : Bool := w && ws.any (Opd.oddV 2)

/-- RM may not be SR (R124). -/
def Rm.bad (r : Rm) : Bool := r = .sr

/-- ILLENC: a reserved value or a register shape that the term's encoding breaks (R70–R73, R79 order 3). -/
def Instr.encFault : Instr → Bool
  | .iadd o w _ | .isub o w _ | .imul o w _ | .imulh o w _ | .imin o w _ | .imax o w _ | .and o w | .or o w
  | .xor o w | .andn o w => !immOk o (o.srcs 2) || wideEnc w [o.d, o.a, o.b]
  | .imad o w => !immOk o (o.srcs 3) || wideEnc w [o.d, o.a, o.b, o.c]
  | .iaddc o w _ co =>
    !immOk o (o.srcs 2) || wideEnc w [o.d, o.a, o.b]
    || (match co with
        | some k => resKind true [o.a, o.b, o.c] = .uni && k.toNat ≥ 4
        | none => false)
  | .iabs o w _ | .ineg o w _ | .not o w | .popc o w | .clz o w | .ctz o w | .brev o w =>
    !immOk o (o.srcs 1) || wideEnc w [o.d, o.a]
  | .shl o w | .shr o w | .sar o w | .rot o w | .bfe o w _ => !immOk o (o.srcs 2) || wideEnc w [o.d, o.a]
  | .bfi o w => !immOk o (o.srcs 3) || wideEnc w [o.d, o.a, o.c]
  | .prmt o => !immOk o (o.srcs 3)
  | .icmp o w _ _ _ => !immOk o (o.srcs 2) || wideEnc w [o.a, o.b]
  | .isel o w => !immOk o (o.srcs 2) || wideEnc w [o.d, o.a, o.b]
  | .mov o w => !immOk o (o.srcs 1) || wideEnc w [o.d, o.a]
  | .movi o w z => wideEnc w [o.d] || (z && !w)
  | .movh _ => false
  | .lea o _ idx => wideEnc true [o.d, o.a] || wideEnc (idx = .full) [o.b]
  | .promv o form => !immOk o (o.srcs 1) || wideEnc (form = .w) [o.d]
  | .proma o | .astr o | .abase o => !immOk o (o.srcs 2)
  | .fadd o rm | .fsub o rm | .fmul o rm | .fscl o rm | .badd2 o rm _ | .bmul2 o rm _ =>
    !immOk o (o.srcs 2) || rm.bad
  | .ffma o rm _ _ | .bfma2 o rm _ | .fdot2 o rm => !immOk o (o.srcs 3) || rm.bad
  | .frnd o rm => !immOk o (o.srcs 1) || rm.bad
  | .fmin o | .fmax o | .fminn o | .fmaxn o | .fcmp o _ _ => !immOk o (o.srcs 2)
  | .fclass o | .bfext o _ => !immOk o (o.srcs 1)
  | .fexp2 o | .flog2 o | .frcp o | .frsq o | .fsqrt o | .fsin o | .fcos o | .ftanh o => !immOk o (o.srcs 1)
  | .fcvt o rm k =>
    !immOk o (o.srcs 1) || rm.bad || ((k = .fsl || k = .ful) && o.d.oddV 2) || ((k = .slf || k = .ulf) && o.a.oddV 2)
  | .bfcvt o rm _ => if rm = .sr then o.c.oddS 2 else !immOk o (o.srcs 2)
  | .rng o _ => !immOk o (o.srcs 3) || o.d.oddV 4 || o.b.oddV 2 || o.c.oddV 2
  | .bra o nq _ => nq && !o.a.isQ
  | .brx o _ | .callx o => o.imm != 0#32 || o.a.oddV 2
  | .call _ => false
  | .ret o | .exit o | .yield o | .nop o | .tret o _ => o.imm != 0#32
  | .loop o _ => o.g != Guard.always || !immOk o (o.srcs 1)
  | .conv o => o.g != Guard.always || o.imm != 0#32
  | .wait o => !immFits o 22
  | .trap o | .brk o => !immFits o 12
  | .trapEnd o => !immOk o (o.srcs 1)
  | .vote o _ | .elect o | .redi o _ _ | .redf o _ | .matchLanes o | .isect o | .scnt o _ => o.imm != 0#32
  | .shfl o _ _ | .rdlane o => !immOk o [o.b]
  | .wrlane o => !immOk o (o.srcs 2)
  | .redmaxi o _ => o.imm != 0#32 || o.d.oddV 2
  | .getsr o => !immFits o 12 || (match srWidth o.srnum with
      | none => true | some w => w = 64 && o.d.oddV 2)
  | .setsr o _ => !immFits o 12 || (match srWidth o.srnum with
      | none => true | some w => w = 64 && o.a.oddV 2)
  | .regacq o => !immFits o 3 || o.imm == 0#32 || o.imm == 7#32
  | .regrel o => !immFits o 3 || o.imm == 7#32
  | .ld o _ scope ord size =>
    addrEnc o || ordBad scope ord .acq || o.d.oddV size.vregs || o.d.oddS size.sregs
  | .st o _ scope ord size =>
    addrEnc o || ordBad scope ord .rel || size = .s8 || size = .s16 || o.c.oddV size.vregs || o.c.oddS size.sregs
  | .ldConvert o _ fmt => addrEnc o || fmt = .fp32
  | .stConvert o _ _ rm fmt => addrEnc o || fmt = .fp32 || rm.bad
  | .atom o sz _ _ aop =>
    addrEnc o || (sz && (aop = .fadd || aop = .fminn || aop = .fmaxn))
    || (sz && o.d.oddV 2) || o.c.oddV (if aop = .cas then (if sz then 4 else 2) else (if sz then 2 else 1))
    || (aop = .cas && o.c.oddS 2)
  | .red o sz _ ord aop =>
    addrEnc o || ord = .acq || ord = .ar || aop = .xchg || aop = .cas
    || (sz && (aop = .fadd || aop = .fminn || aop = .fmaxn)) || o.c.oddV (if sz then 2 else 1)
  | .fence o _ | .fenceG o _ => o.imm != 0#32
  | .fencex o paths _ => o.imm != 0#32 || paths == 0#5
  | .pref o _ | .discard o | .clean o _ | .inval o _ => addrEnc o
  | .copy o => addrEnc o || o.c.oddS 2
  | .mma o _ _ | .mmaS o _ => mmaEnc o o.a.isV
  | .mmaP o ru _ => mmaEnc o o.a.isV || (ru && o.a.isS)
  | .accz o _ | .smxf o | .mred o _ => o.imm != 0#32
  | .accld o side fmt =>
    !immOk o [o.b] || side = .fl || !(fmt = .fp32 || fmt = .bf16 || fmt = .fp16)
    || (side != .data && (fmt != .fp32 || !o.b.isZero))
  | .accst o sat rm side fmt =>
    !immOk o [o.b] || !(fmt = .fp32 || fmt = .bf16 || fmt = .fp16 || fmt = .e4m3 || fmt = .e5m2) || rm.bad
    || (fmt = .fp32 && (rm != .rne || sat)) || (side != .data && (fmt != .fp32 || !o.b.isZero))
  | .accscl o row => !immOk o (if row then [] else [o.a])
  | .mtrld o _ => !immOk o [o.b]
  | .smx o _ => !immOk o [o.b] || (o.d.isAcc && o.d == o.a)
  | .tset o => !immOk o [o.b] || (o.b.isImm && o.imm.toNat > 31)
  | .bseal o => o.imm != 0#32
  | .bwait o => !immFits o 3
  | .barinit o | .barexp o => !immOk o [o.b]
  | .barwait o _ gn => !immOk o [o.b] || (!gn && o.b.isImm && o.imm.toNat > 1)
  | .barpoll o => o.imm != 0#32
  | .clbar o _ | .clarr o _ => !immFits o 2
  | .rld o cnt => addrEnc o || o.d.oddV (match cnt with | .x1 => 1 | .x2 => 2 | .x4 => 4)
  | .msend o blk => !immOk o (o.srcs 2) || (blk && o.c.oddS 2)
  | .mrecv o => o.imm != 0#32 || o.a.oddS 2
  | .mprobe o _ | .mcancel o => o.imm != 0#32
  | .hpop o => o.imm != 0#32 || o.d.oddS 4
  | .hpopJ o | .hstat o | .jdone o | .adopt o => o.imm != 0#32
  | .hpush o => !immOk o [o.a] || o.b.oddS 4
  | .evsig o _ => !immOk o (o.srcs 2)
  | .evwait o | .publish o => !immOk o [o.a]
  | .tokrec o => addrEnc o || o.c.oddS 2
  | .snap o => !immFits o 8
  | _ => false

/-- The opcode table marks these forms group-scope whatever their operands (R48), or they write a uniform, affine or
q register, or they store once for the group. -/
def Instr.groupScope : Instr → Bool
  | .iadd o _ _ | .isub o _ _ | .imul o _ _ | .imulh o _ _ | .imad o _ | .imin o _ _ | .imax o _ _
  | .iabs o _ _ | .ineg o _ _ | .and o _ | .or o _ | .xor o _ | .not o _ | .andn o _ | .shl o _ | .shr o _ | .sar o _
  | .rot o _ | .popc o _ | .clz o _ | .ctz o _ | .brev o _ | .bfe o _ _ | .bfi o _ | .prmt o | .icmp o _ _ _ _
  | .isel o _ | .mov o _ | .movi o _ _ | .movh o | .lea o _ _ | .promv o _ | .proma o | .astr o | .abase o
  | .fadd o _ | .fsub o _ | .fmul o _ | .ffma o _ _ _ | .fmin o | .fmax o | .fminn o | .fmaxn o | .fcmp o _ _
  | .fclass o | .frnd o _ | .fcvt o _ _ | .bfcvt o _ _ | .bfext o _ | .badd2 o _ _ | .bmul2 o _ _ | .bfma2 o _ _
  | .fdot2 o _ | .fexp2 o | .flog2 o | .frcp o | .frsq o | .fsqrt o | .fsin o | .fcos o | .ftanh o | .fscl o _
  | .rng o _ | .vote o _ | .elect o | .shfl o _ _ | .rdlane o | .wrlane o | .redi o _ _ | .redf o _ | .redmaxi o _
  | .matchLanes o | .isect o | .scnt o _ | .getsr o => o.d.isS || o.d.isA || o.d.isQ
  | .iaddc o _ _ _ => resKind true [o.a, o.b, o.c] = .uni
  | .setsr o _ => !srThread o.srnum
  | .ld o _ _ _ _ => o.d.isS
  | .ldConvert o _ fmt => o.d.isS || fmt.packed
  | .st o _ _ _ _ => o.uniAddr && o.c.isUni
  | .stConvert o _ _ _ fmt => fmt.packed || (o.uniAddr && o.c.isUni)
  | .atom o _ _ _ _ | .red o _ _ _ _ => o.uniAddr && o.c.isUni
  | .fence .. | .pref .. | .discard .. | .clean .. | .inval .. => false
  | .fenceG .. | .fencex .. | .copy .. | .mma .. | .mmaS .. | .mmaP .. | .accz .. | .accld .. | .accst ..
  | .accscl .. | .smx .. | .smxf .. | .mred .. | .mtrld .. | .tset .. | .bseal .. | .bwait .. | .barinit ..
  | .barexp .. | .barwait .. | .barpoll .. | .clbar .. | .clarr .. | .rld .. | .msend .. | .mrecv .. | .mprobe ..
  | .mcancel .. | .hpop .. | .hpopJ .. | .hpush .. | .hstat .. | .evsig .. | .evwait .. | .jdone .. | .publish ..
  | .adopt .. | .tokrec .. | .snap .. | .regacq .. | .regrel .. => true
  | _ => false

/-- ILLTYPE: an operand of the wrong file, present where it must be absent, or a guard against R49 (R79 order 4); SCL or UX beside a
uniform scale address too (log 124). -/
def Instr.typeFault : Instr → Bool
  | .iadd o w sat | .isub o w sat => aluBad o 2 (addKind o.a o.b) w || (addKind o.a o.b = .aff && sat != .wrap)
  | .imul o w sat => aluBad o 2 (mulKind o.a o.b) w || (mulKind o.a o.b = .aff && sat != .wrap)
  | .imulh o w _ | .imin o w _ | .imax o w _ | .shl o w | .shr o w | .sar o w | .rot o w | .bfe o w _ =>
    aluBad o 2 (resKind true [o.a, o.b]) w
  | .imad o w | .bfi o w => aluBad o 3 (resKind true [o.a, o.b, o.c]) w
  | .prmt o => aluBad o 3 (resKind true [o.a, o.b, o.c]) false
  | .iaddc o w _ _ =>
    let k := resKind true [o.a, o.b, o.c]
    !(o.a.isVal && o.b.isVal && (o.c.isPq || o.c.isZero) && (o.d.matches k || o.d.isZero))
    || guardBad o (k = .uni) || (w && k = .uni)
  | .iabs o w _ | .ineg o w _ | .popc o w | .clz o w | .ctz o w | .brev o w => aluBad o 1 (resKind true [o.a]) w
  | .and o w | .or o w | .xor o w | .andn o w => logicBad o 2 w
  | .not o w => logicBad o 1 w
  | .icmp o w _ _ comb => cmpBad o comb w
  | .isel o w =>
    let k := resKind true [o.a, o.b, o.c]
    !(o.a.isVal && o.b.isVal && o.c.isPq && o.d.matches k) || guardBad o (k = .uni) || (w && k = .uni)
  | .mov o w => aluBad o 1 (resKind true [o.a]) w || o.a.isAff
  | .movi o _ _ => !(o.d.isV && absentFrom 0 o)
  | .movh o => !(o.d.isS && absentFrom 0 o) || guardBad o true
  | .lea o _ idx =>
    aluBad o 2 (addKind o.a o.b) false || o.a.isImm || o.b.isImm || (o.b.isAff && idx != .full)
  | .promv o _ => !(o.d.isV && (o.a.isUni || o.a.isAff) && absentFrom 1 o)
  | .proma o => !(o.d.isA && o.a.isUni && o.b.isUni && absentFrom 2 o) || guardBad o true
  | .astr o | .abase o =>
    !(o.a.isAff && o.c.isNone && ((o.d.isS && o.b.isNone) || (o.d.isA && o.b.isUni))) || guardBad o true
  | .fadd o _ | .fsub o _ | .fmul o _ | .fmin o | .fmax o | .fminn o | .fmaxn o | .fscl o _ =>
    aluBad o 2 (resKind true [o.a, o.b]) false
  | .ffma o _ _ _ => aluBad o 3 (resKind true [o.a, o.b, o.c]) false
  | .fcmp o _ comb => cmpBad o comb false
  | .fclass o | .frnd o _ | .fcvt o _ _ => aluBad o 1 (resKind true [o.a]) false
  | .bfcvt o rm _ =>
    if rm = .sr then !(o.d.isV && o.a.isVal && o.b.isVal && o.c.isS) || o.a.isImm || o.b.isImm
    else aluBad o 2 .vary false
  | .bfext o _ | .fexp2 o | .flog2 o | .frcp o | .frsq o | .fsqrt o | .fsin o | .fcos o | .ftanh o =>
    aluBad o 1 .vary false
  | .badd2 o _ _ | .bmul2 o _ _ => aluBad o 2 .vary false
  | .bfma2 o _ _ | .fdot2 o _ => aluBad o 3 .vary false
  | .rng o _ =>
    let ctr (x : Opd) : Bool := x.isV || x.isS || x.isAff || x.isZero || x.isImm
    !(o.d.isV && (o.a.isS || o.a.isZero || o.a.isImm) && ctr o.b && ctr o.c)
    || ([o.a, o.b, o.c].filter Opd.isImm).length > 1
  | .bra o _ _ => !(o.d.isNone && (o.a.isQ || o.a.isNone) && o.b.isNone && o.c.isNone)
  | .brx o _ | .callx o => !(o.d.isNone && (o.a.isV || o.a.isS || o.a.isA) && o.b.isNone && o.c.isNone)
  | .call o | .ret o | .conv o | .exit o | .wait o | .yield o | .nop o | .trap o | .tret o _ | .brk o =>
    !(o.d.isNone && absentFrom 0 o)
  | .loop o _ => !(o.d.isNone && (o.a.isV || o.a.isS || o.a.isZero || o.a.isImm) && absentFrom 1 o)
  | .trapEnd o => !(o.d.isNone && (o.a.isV || o.a.isS || o.a.isImm) && absentFrom 1 o)
  | .vote o mode =>
    let bit : Bool := mode = .or || mode = .and || mode = .same
    !(o.a.isP && absentFrom 1 o && (if bit then o.d.isPq else o.d.isS || o.d.isV)) || guardBad o (o.d.isQ || o.d.isS)
  | .elect o => !((o.d.isP || o.d.isS) && absentFrom 0 o) || guardBad o o.d.isS
  | .shfl o mode _ =>
    !(o.d.isV && o.a.isV && o.b.isVal && o.c.isNone) || (mode = .rev && !o.b.isZero)
  | .rdlane o => !(o.d.isS && o.a.isV && o.b.sImmZero && o.c.isNone) || guardBad o true
  | .wrlane o => !(o.d.isV && o.a.sImmZero && o.b.sImmZero && o.c.isNone)
  | .redi o _ _ | .redf o _ => !((o.d.isS || o.d.isV) && o.a.isV && absentFrom 1 o) || guardBad o o.d.isS
  | .redmaxi o _ =>
    !((o.d.isS || o.d.isV) && o.a.isV && (o.b.isV || o.b.isAff || o.b.isS) && o.c.isNone) || guardBad o o.d.isS
  | .matchLanes o => !(o.d.isV && o.a.isV && absentFrom 1 o)
  | .isect o => !((o.d.isV || o.d.isP) && o.a.isV && o.b.isV && o.c.isNone)
  | .scnt o _ => !(o.d.isV && o.a.isP && absentFrom 1 o)
  | .getsr o => !((o.d.isV || (o.d.isS && !srThread o.srnum)) && absentFrom 0 o) || guardBad o o.d.isS
  | .setsr o _ =>
    !(o.d.isNone && (o.a.isUni || (o.a.isV && srThread o.srnum)) && absentFrom 1 o) || o.a.isImm
    || guardBad o (!srThread o.srnum)
  | .regacq o | .regrel o => !(o.d.isNone && absentFrom 0 o) || guardBad o true
  | .ld o _ _ _ _ => addrBad o || !o.c.isNone || !(if o.uniAddr then o.d.isS else o.d.isV) || guardBad o o.d.isS
  | .ldConvert o _ fmt =>
    if fmt.packed then
      !(o.d.isV && (o.a.isS || o.a.isZero) && o.c.isNone
        && (if fmt.isMx then o.b.isS || o.b.isZero else o.b.isNone)) || o.scl != 0 || o.ux || guardBad o true
    else addrBad o || !o.c.isNone || !(if o.uniAddr then o.d.isS else o.d.isV) || guardBad o o.d.isS
  | .st o ch _ ord size =>
    addrBad o || !o.d.isNone || !o.c.isData || guardBad o (o.uniAddr && o.c.isUni)
    || (size = .b128 && ord = .plain && ch = .normal && o.copyShape)
  | .stConvert o _ _ _ fmt =>
    if fmt.packed then
      !(o.d.isNone && (o.a.isS || o.a.isZero) && o.c.isData
        && (if fmt.isMx then o.b.isS || o.b.isZero else o.b.isNone)) || o.scl != 0 || o.ux || guardBad o true
    else addrBad o || !o.d.isNone || !o.c.isData || guardBad o (o.uniAddr && o.c.isUni)
  | .atom o _ _ _ _ =>
    let uni := o.uniAddr && o.c.isUni
    addrBad o || !o.c.isData || !(o.d.isZero || (if uni then o.d.isS else o.d.isV))
    || guardBad o uni
  | .red o _ _ _ _ =>
    addrBad o || !o.c.isData || !o.d.isNone || guardBad o (o.uniAddr && o.c.isUni)
  | .fence o _ => !((o.d.isV || o.d.isZero) && absentFrom 0 o)
  | .fenceG o _ | .fencex o _ _ => !(o.d.sZero && absentFrom 0 o) || guardBad o true
  | .pref o _ | .discard o | .clean o _ | .inval o _ => addrBad o || !o.d.isNone || !o.c.isNone
  | .copy o => addrBad o || !o.d.isNone || !o.copyShape || guardBad o true
  | .mma o _ _ => mmaBad o true false
  | .mmaS o _ => mmaBad o false true
  | .mmaP o _ _ => mmaBad o true true
  | .accz o _ | .smxf o => shapeBad o Opd.isAcc Opd.isNone Opd.isNone Opd.isNone true
  | .accld o _ _ => shapeBad o Opd.isAcc Opd.isS Opd.sImmZero Opd.isNone true
  | .accst o _ _ _ _ => shapeBad o Opd.isNone Opd.isS Opd.sImmZero Opd.isAcc true
  | .accscl o row => shapeBad o Opd.isAcc (if row then Opd.isS else Opd.sImm) Opd.isNone Opd.isNone true
  | .smx o _ => shapeBad o Opd.isAcc Opd.isAcc Opd.sImm Opd.isS true
  | .mred o _ => shapeBad o Opd.isNone Opd.isAcc Opd.isNone Opd.isS true
  | .mtrld o _ => shapeBad o Opd.isNone Opd.isS Opd.sImmZero Opd.isS true
  | .tset o => shapeBad o Opd.isNone Opd.isS Opd.sImm Opd.isNone true
  | .bseal o => shapeBad o Opd.sZero Opd.isNone Opd.isNone Opd.isNone true
  | .bwait o => shapeBad o Opd.isNone Opd.isNone Opd.isNone Opd.isNone true
  | .barinit o | .barexp o => shapeBad o Opd.isNone Opd.isS Opd.sImm Opd.isNone true
  | .barwait o _ _ => shapeBad o Opd.sZero Opd.isS Opd.sImm Opd.isNone true
  | .barpoll o => shapeBad o Opd.isS Opd.isS Opd.isNone Opd.isNone true
  | .clbar o _ => shapeBad o Opd.isNone Opd.isS Opd.isNone Opd.isNone true
  | .clarr o _ => shapeBad o Opd.sZero Opd.isNone Opd.isNone Opd.isNone true
  | .rld o _ => addrBad o || !o.uniAddr || !o.d.isV || !o.c.isNone || guardBad o true
  | .msend o blk => shapeBad o Opd.isNone Opd.sImm Opd.sImm (if blk then Opd.isS else Opd.isV) true
  | .mrecv o => shapeBad o Opd.sZero Opd.isS Opd.isS Opd.isS true
  | .mprobe o byStatus => shapeBad o Opd.isS Opd.isNone (if byStatus then Opd.isNone else Opd.isS) Opd.isNone true
  | .mcancel o => shapeBad o Opd.sZero Opd.isS Opd.isNone Opd.isNone true
  | .hpop o | .hstat o => shapeBad o Opd.isS Opd.isNone Opd.isNone Opd.isNone true
  | .hpopJ o | .jdone o => shapeBad o Opd.isNone Opd.isNone Opd.isNone Opd.isNone true
  | .hpush o => shapeBad o Opd.isNone Opd.sImm Opd.isS Opd.isNone true
  | .evsig o _ => shapeBad o Opd.isNone Opd.sImm Opd.sImmZero Opd.isNone true
  | .evwait o => shapeBad o Opd.sZero Opd.sImm Opd.isNone Opd.isNone true
  | .publish o => shapeBad o Opd.sZero Opd.sImm Opd.isNone Opd.isNone true
  | .adopt o | .snap o => shapeBad o Opd.sZero Opd.isNone Opd.isNone Opd.isNone true
  | .tokrec o => addrBad o || !o.uniAddr || !o.d.isNone || !o.c.isS || guardBad o true
  | _ => false

/-- The Cural instruction rows; the others are records, commands and events. -/
def Instr.isWord : Instr → Bool
  | .waitRelease .. | .convRelease .. | .regacqGrant .. | .exitComplete .. | .loadWriteback .. | .storePerform ..
  | .ldpois .. | .fenceRelease .. | .matrixOpStart .. | .matrixOpRetire .. | .tsetInstall .. | .copyAccept ..
  | .copyArrival .. | .copySourceFail .. | .curatorCopyFinish .. | .barwaitRelease .. | .clbarRelease ..
  | .messageArrival .. | .messageStallTimeout .. | .hpushPlace .. | .hamperRefill .. | .hpopTake ..
  | .evwaitRelease .. | .jdoneRelease .. | .jobLaunch .. | .jobCompletionReport .. | .coreSleep .. | .coreWake ..
  | .haltRequest .. | .checkpointSave .. | .queueTailWake .. | .nopRecord .. | .job .. | .cjob .. | .waitev ..
  | .sigev .. | .loopRecord .. | .loopend .. | .adoptRecord .. | .lease .. | .unlease .. | .resume .. | .partw ..
  | .mark .. | .slice .. | .endreq .. | .haltq .. | .tilePlace .. | .drainEscalate .. | .resumeListResume ..
  | .evwaitBudgetExpire .. | .watchdogTick .. | .catalogueStep .. | .coreLost .. | .linkdown .. | .queueStart ..
  | .pcoreWrite .. | .vitbaseWrite .. | .vitrinePin .. | .vitrineRelease .. | .vitrinePinDone ..
  | .vitrineReleaseDone .. | .xlinvPage .. | .xlinvPartition .. | .xlinvAll .. | .xlinvDone .. | .rootWrite ..
  | .pubaccWrite .. | .debugDisarm .. | .debugHoldQueue .. | .debugStopJob .. | .debugStopPartition ..
  | .snapinTrigger | .snapshotLatch | .tsTick | .registerWrite .. | .powerGood .. | .stageB .. | .stageC
  | .attestationRequest .. | .ownerEnrol .. | .watisPortDown .. | .ualinkPortDown .. | .fabricRingStart ..
  | .fabricTailWake .. | .read .. | .write .. | .atomic .. | .allreduce .. | .broadcast .. | .fabricCmdComplete ..
  | .fabricRequestArrival .. | .remoteEventAnswer .. | .fabricPeerTimeout .. | .collectiveTimeout ..
  | .peerDebugState .. | .sliceDrainStart | .sliceEscalate | .sliceSwitch | .loaderLoad .. | .leasePinComplete ..
  | .tlockChange .. | .eventWatchRegister .. | .collectiveMemberData .. | .cgidFinishReport .. | .hostAccess .. =>
    false
  | _ => true

/-- The operand fields of an instruction word. -/
def Instr.guardOf : Instr → Option Ops
  | .iadd o .. | .isub o .. | .imul o .. | .imulh o .. | .imad o .. | .iaddc o .. | .imin o .. | .imax o ..
  | .iabs o .. | .ineg o .. | .and o .. | .or o .. | .xor o .. | .not o .. | .andn o .. | .shl o .. | .shr o ..
  | .sar o .. | .rot o .. | .popc o .. | .clz o .. | .ctz o .. | .brev o .. | .bfe o .. | .bfi o .. | .prmt o
  | .icmp o .. | .isel o .. | .mov o .. | .movi o .. | .movh o | .lea o .. | .promv o .. | .proma o | .astr o
  | .abase o | .fadd o .. | .fsub o .. | .fmul o .. | .ffma o .. | .fmin o | .fmax o | .fminn o | .fmaxn o
  | .fcmp o .. | .fclass o | .frnd o .. | .fcvt o .. | .bfcvt o .. | .bfext o .. | .badd2 o .. | .bmul2 o ..
  | .bfma2 o .. | .fdot2 o .. | .fexp2 o | .flog2 o | .frcp o | .frsq o | .fsqrt o | .fsin o | .fcos o | .ftanh o
  | .fscl o .. | .rng o .. | .bra o .. | .brx o .. | .call o | .callx o | .ret o | .loop o .. | .conv o | .exit o
  | .wait o | .yield o | .nop o | .trap o | .trapEnd o | .tret o .. | .brk o | .vote o .. | .elect o | .shfl o ..
  | .rdlane o | .wrlane o | .redi o .. | .redf o .. | .redmaxi o .. | .matchLanes o | .isect o | .scnt o ..
  | .getsr o | .setsr o .. | .regacq o | .regrel o | .ld o .. | .ldConvert o .. | .st o .. | .stConvert o ..
  | .atom o .. | .red o .. | .fence o .. | .fenceG o .. | .fencex o .. | .pref o .. | .discard o | .clean o ..
  | .inval o .. | .copy o | .mma o .. | .mmaS o .. | .mmaP o .. | .accz o .. | .accld o .. | .accst o ..
  | .accscl o .. | .smx o .. | .smxf o | .mred o .. | .mtrld o .. | .tset o | .bseal o | .bwait o | .barinit o
  | .barexp o | .barwait o .. | .barpoll o | .clbar o .. | .clarr o .. | .rld o .. | .msend o .. | .mrecv o
  | .mprobe o .. | .mcancel o | .hpop o | .hpopJ o | .hpush o | .hstat o | .evsig o .. | .evwait o | .jdone o
  | .publish o | .adopt o | .tokrec o | .snap o => some o
  | _ => none

/-- GD = 1111 is reserved (R72). -/
def Guard.reserved (g : Guard) : Bool := g == ⟨true, 7#3⟩

/-- OPN of SIGEV, TILES, alignment and the other limits that R375 sets on a record's fields. -/
def Instr.recordBad : Instr → Bool
  | .job _ tiles .. => tiles == 0#24
  | .cjob _ n _ _ p => n == 0#24 || p.anyteam
  | .waitev _ ev | .sigev _ _ ev _ => ev.extractLsb' 16 4 != 0#4
  | .loopRecord _ nbody cond _ dmin dmax d0 _ =>
    nbody.toNat < 2 || cond.extractLsb' 0 2 != 0#2 || dmax.toNat > 31 || d0.toNat < dmin.toNat || dmax.toNat < d0.toNat
  | .lease _ _ _ _ base len => base.extractLsb' 0 7 != 0#7 || len.extractLsb' 0 7 != 0#7 || len == 0#64
  | .mark _ addr _ => addr.extractLsb' 0 4 != 0#4
  | .endreq _ nreq sa bm =>
    nreq.toNat = 0 || nreq.toNat > 4096 || sa.extractLsb' 0 3 != 0#3 || bm.extractLsb' 0 3 != 0#3
  | _ => false

/-- LEN, NMEM and AOP limits that R473 sets on a fabric command. -/
def lenBad (len : W32) : Bool := len.toNat % 128 != 0 || len == 0#32 || len.toNat > 2 ^ 24
def Instr.commandBad : Instr → Bool
  | .read _ _ _ ra len | .write _ _ _ ra len => lenBad len || ra.extractLsb' 62 2 != 0#2
  | .atomic _ _ _ ra aop _ => aop = .fadd || aop = .fminn || aop = .fmaxn || ra.extractLsb' 62 2 != 0#2
  | .allreduce _ _ _ _ _ len nmem | .broadcast _ _ _ _ _ len nmem => lenBad len || nmem.toNat < 2 || nmem.toNat > 1024
  | _ => false

/-- A well-formed term: one that some encoding carries without a decode fault, or an event. -/
def Instr.wellFormed (i : Instr) : Bool :=
  !i.encFault && !i.typeFault && !i.recordBad && !i.commandBad
  && (match i.guardOf with | some o => !o.g.reserved | none => true)

end Sys2Proof
end

