-- ==== Sys2Proof/Decode.lean ====
section
/-!
DEFINITION. The decoder and encoder: full words and paired half-operations of a fetch slot (R69–R79, R83), operator
records (R375) and fabric commands (R473). Decoding is total; what it rejects it names with the decode fault of R79.
-/

namespace Sys2Proof

/-- Why a slot does not decode (R79, orders 2 to 5). -/
inductive DecFault where
  | illop | illenc | illtype | badpair
  deriving DecidableEq, Repr

/-- The order of R79 at which a decode fault is found. -/
def DecFault.order : DecFault → Nat
  | .illop => 2
  | .illenc => 3
  | .illtype => 4
  | .badpair => 5

/-- The fields of a full word (R69). -/
structure Fields where
  op : BitVec 10
  gd : BitVec 4
  d : BitVec 10
  a : BitVec 10
  b : BitVec 10
  c : BitVec 10
  mod : BitVec 10
  imm : W32
  deriving DecidableEq, Repr

/-- R69: the fields of a 96-bit word. -/
def Fields.unpack (w : W96) : Fields :=
  { op := w.extractLsb' 86 10, gd := w.extractLsb' 82 4, d := w.extractLsb' 72 10, a := w.extractLsb' 62 10
    b := w.extractLsb' 52 10, c := w.extractLsb' 42 10, mod := w.extractLsb' 32 10, imm := w.extractLsb' 0 32 }

/-- R69: the 96-bit word of some fields. -/
def Fields.pack (f : Fields) : W96 :=
  f.op ++ (f.gd ++ (f.d ++ (f.a ++ (f.b ++ (f.c ++ (f.mod ++ f.imm))))))

/-- One MOD bit at position `i`. -/
def bit (x : Bool) (i : Nat) : BitVec 10 := if x then 1#10 <<< i else 0#10

/-- A MOD field at position `i`. -/
def at10 {n : Nat} (x : BitVec n) (i : Nat) : BitVec 10 := x.setWidth 10 <<< i

/-- R73: MOD bits that the opcode does not define must be zero. -/
def only (m mask : BitVec 10) (r : Option Instr) : Option Instr := if m &&& ~~~mask = 0#10 then r else none

/-- The code of a `Sat` field (R99). -/
def Sat.bits : Sat → BitVec 2
  | .wrap => 0#2 | .ss => 1#2 | .us => 2#2
def Sat.ofBits (x : BitVec 2) : Option Sat :=
  match x.toNat with
  | 0 => some .wrap | 1 => some .ss | 2 => some .us | _ => none

/-- The code of a `ICond` field (R110). -/
def ICond.bits : ICond → BitVec 3
  | .eq => 0#3 | .ne => 1#3 | .lt => 2#3 | .le => 3#3 | .gt => 4#3 | .ge => 5#3
def ICond.ofBits (x : BitVec 3) : Option ICond :=
  match x.toNat with
  | 0 => some .eq | 1 => some .ne | 2 => some .lt | 3 => some .le | 4 => some .gt | 5 => some .ge | _ => none

/-- The code of a `FCond` field (R132). -/
def FCond.bits : FCond → BitVec 3
  | .eq => 0#3 | .ne => 1#3 | .lt => 2#3 | .le => 3#3 | .gt => 4#3 | .ge => 5#3 | .un => 6#3
def FCond.ofBits (x : BitVec 3) : Option FCond :=
  match x.toNat with
  | 0 => some .eq | 1 => some .ne | 2 => some .lt | 3 => some .le | 4 => some .gt | 5 => some .ge | 6 => some .un | _ => none

/-- The code of a `Comb` field (R110). -/
def Comb.bits : Comb → BitVec 2
  | .none => 0#2 | .and => 1#2 | .or => 2#2 | .xor => 3#2
def Comb.ofBits (x : BitVec 2) : Option Comb :=
  match x.toNat with
  | 0 => some .none | 1 => some .and | 2 => some .or | 3 => some .xor | _ => Option.none

/-- The code of a `Idx` field (R115). -/
def Idx.bits : Idx → BitVec 2
  | .full => 0#2 | .i32 => 1#2 | .u32 => 2#2
def Idx.ofBits (x : BitVec 2) : Option Idx :=
  match x.toNat with
  | 0 => some .full | 1 => some .i32 | 2 => some .u32 | _ => none

/-- The code of a `Rm` field (R19). -/
def Rm.bits : Rm → BitVec 3
  | .rne => 0#3 | .rz => 1#3 | .ru => 2#3 | .rd => 3#3 | .sr => 4#3
def Rm.ofBits (x : BitVec 3) : Option Rm :=
  match x.toNat with
  | 0 => some .rne | 1 => some .rz | 2 => some .ru | 3 => some .rd | 4 => some .sr | _ => none

/-- The code of a `Cvt` field (R134). -/
def Cvt.bits : Cvt → BitVec 3
  | .fsi => 0#3 | .fui => 1#3 | .sif => 2#3 | .uif => 3#3 | .fsl => 4#3 | .ful => 5#3 | .slf => 6#3 | .ulf => 7#3
def Cvt.ofBits (x : BitVec 3) : Option Cvt :=
  match x.toNat with
  | 0 => some .fsi | 1 => some .fui | 2 => some .sif | 3 => some .uif | 4 => some .fsl | 5 => some .ful | 6 => some .slf | 7 => some .ulf | _ => none

/-- The code of a `VMode` field (R150). -/
def VMode.bits : VMode → BitVec 3
  | .or => 0#3 | .and => 1#3 | .same => 2#3 | .mask => 3#3 | .cnt => 4#3 | .low => 5#3
def VMode.ofBits (x : BitVec 3) : Option VMode :=
  match x.toNat with
  | 0 => some .or | 1 => some .and | 2 => some .same | 3 => some .mask | 4 => some .cnt | 5 => some .low | _ => none

/-- The code of a `SMode` field (R152). -/
def SMode.bits : SMode → BitVec 3
  | .pick => 0#3 | .slide => 1#3 | .spin => 2#3 | .flip => 3#3 | .rev => 4#3
def SMode.ofBits (x : BitVec 3) : Option SMode :=
  match x.toNat with
  | 0 => some .pick | 1 => some .slide | 2 => some .spin | 3 => some .flip | 4 => some .rev | _ => none

/-- The code of a `Seg` field (R152). -/
def Seg.bits : Seg → BitVec 3
  | .w32 => 0#3 | .w2 => 1#3 | .w4 => 2#3 | .w8 => 3#3 | .w16 => 4#3
def Seg.ofBits (x : BitVec 3) : Option Seg :=
  match x.toNat with
  | 0 => some .w32 | 1 => some .w2 | 2 => some .w4 | 3 => some .w8 | 4 => some .w16 | _ => none

/-- The code of a `RedI` field (R154). -/
def RedI.bits : RedI → BitVec 3
  | .add => 0#3 | .min => 1#3 | .max => 2#3 | .and => 3#3 | .or => 4#3 | .xor => 5#3
def RedI.ofBits (x : BitVec 3) : Option RedI :=
  match x.toNat with
  | 0 => some .add | 1 => some .min | 2 => some .max | 3 => some .and | 4 => some .or | 5 => some .xor | _ => none

/-- The code of a `RedF` field (R155). -/
def RedF.bits : RedF → BitVec 3
  | .add => 0#3 | .min => 1#3 | .max => 2#3 | .minn => 3#3 | .maxn => 4#3
def RedF.ofBits (x : BitVec 3) : Option RedF :=
  match x.toNat with
  | 0 => some .add | 1 => some .min | 2 => some .max | 3 => some .minn | 4 => some .maxn | _ => none

/-- The code of a `SrOp` field (R159). -/
def SrOp.bits : SrOp → BitVec 2
  | .write => 0#2 | .or => 1#2 | .andn => 2#2
def SrOp.ofBits (x : BitVec 2) : Option SrOp :=
  match x.toNat with
  | 0 => some .write | 1 => some .or | 2 => some .andn | _ => none

/-- The code of a `Scope` field (R172). -/
def Scope.bits : Scope → BitVec 3
  | .thr => 0#3 | .grp => 1#3 | .team => 2#3 | .clu => 3#3 | .die => 4#3 | .pkg => 5#3 | .sys => 6#3 | .fab => 7#3
def Scope.ofBits (x : BitVec 3) : Option Scope :=
  match x.toNat with
  | 0 => some .thr | 1 => some .grp | 2 => some .team | 3 => some .clu | 4 => some .die | 5 => some .pkg | 6 => some .sys | 7 => some .fab | _ => none

/-- The code of a `MOrd` field (R172). -/
def MOrd.bits : MOrd → BitVec 2
  | .plain => 0#2 | .acq => 1#2 | .rel => 2#2 | .ar => 3#2
def MOrd.ofBits (x : BitVec 2) : Option MOrd :=
  match x.toNat with
  | 0 => some .plain | 1 => some .acq | 2 => some .rel | 3 => some .ar | _ => none

/-- The code of a `Ch` field (R173). -/
def Ch.bits : Ch → BitVec 2
  | .normal => 0#2 | .nt => 1#2 | .lu => 2#2
def Ch.ofBits (x : BitVec 2) : Option Ch :=
  match x.toNat with
  | 0 => some .normal | 1 => some .nt | 2 => some .lu | _ => none

/-- The code of a `Size` field (R171). -/
def Size.bits : Size → BitVec 3
  | .b32 => 0#3 | .b64 => 1#3 | .b128 => 2#3 | .b8 => 3#3 | .s8 => 4#3 | .b16 => 5#3 | .s16 => 6#3
def Size.ofBits (x : BitVec 3) : Option Size :=
  match x.toNat with
  | 0 => some .b32 | 1 => some .b64 | 2 => some .b128 | 3 => some .b8 | 4 => some .s8 | 5 => some .b16 | 6 => some .s16 | _ => none

/-- The code of a `AOp` field (R178). -/
def AOp.bits : AOp → BitVec 4
  | .add => 0#4 | .smin => 1#4 | .smax => 2#4 | .umin => 3#4 | .umax => 4#4 | .and => 5#4 | .or => 6#4 | .xor => 7#4 | .xchg => 8#4 | .cas => 9#4 | .fadd => 10#4 | .fminn => 11#4 | .fmaxn => 12#4
def AOp.ofBits (x : BitVec 4) : Option AOp :=
  match x.toNat with
  | 0 => some .add | 1 => some .smin | 2 => some .smax | 3 => some .umin | 4 => some .umax | 5 => some .and | 6 => some .or | 7 => some .xor | 8 => some .xchg | 9 => some .cas | 10 => some .fadd | 11 => some .fminn | 12 => some .fmaxn | _ => none

/-- The code of a `AccSel` field (R246). -/
def AccSel.bits : AccSel → BitVec 2
  | .all => 0#2 | .d => 1#2 | .ml => 2#2 | .fl => 3#2
def AccSel.ofBits (x : BitVec 2) : Option AccSel :=
  match x.toNat with
  | 0 => some .all | 1 => some .d | 2 => some .ml | 3 => some .fl | _ => none

/-- The code of a `Side` field (R236). -/
def Side.bits : Side → BitVec 2
  | .data => 0#2 | .ml => 1#2 | .fl => 2#2
def Side.ofBits (x : BitVec 2) : Option Side :=
  match x.toNat with
  | 0 => some .data | 1 => some .ml | 2 => some .fl | _ => none

/-- The code of a `Cnt` field (R334). -/
def Cnt.bits : Cnt → BitVec 2
  | .x1 => 0#2 | .x2 => 1#2 | .x4 => 2#2
def Cnt.ofBits (x : BitVec 2) : Option Cnt :=
  match x.toNat with
  | 0 => some .x1 | 1 => some .x2 | 2 => some .x4 | _ => none

/-- The code of a `EvOp` field (R375). -/
def EvOp.bits : EvOp → BitVec 2
  | .add => 0#2 | .arm => 1#2 | .set => 2#2
def EvOp.ofBits (x : BitVec 2) : Option EvOp :=
  match x.toNat with
  | 0 => some .add | 1 => some .arm | 2 => some .set | _ => none

/-- The code of a `Fmt` field (R11, R12). -/
def Fmt.bits : Fmt → BitVec 4
  | .fp32 => 0#4 | .bf16 => 1#4 | .fp16 => 2#4 | .e4m3 => 3#4 | .e5m2 => 4#4 | .e3m2 => 5#4 | .e2m3 => 6#4 | .e2m1 => 7#4 | .int8 => 8#4 | .int4 => 9#4 | .mxe4m3 => 10#4 | .mxe5m2 => 11#4 | .mxe3m2 => 12#4 | .mxe2m3 => 13#4 | .mxe2m1 => 14#4 | .mxint8 => 15#4
def Fmt.ofBits (x : BitVec 4) : Option Fmt := some (.ofCode x)
/-- Carry-out of `iaddc` (R103): MOD[2:0] must be zero when MOD[3] = 0. -/
def coField (m : BitVec 10) : Option (Option (BitVec 3)) :=
  if m.getLsbD 3 then some (some (m.extractLsb' 0 3))
  else if m.extractLsb' 0 3 = 0#3 then some none else none

/-- The form of `promv` (R116): `.hi` together with `.w` is refused. -/
def promField (m : BitVec 10) : Option Prom :=
  match m.getLsbD 9, m.getLsbD 0 with
  | false, false => some .lo
  | false, true => some .hi
  | true, false => some .w
  | true, true => none

/-- The operand field codes of R70 and R71. -/
def Opd.bits : Opd → BitVec 10
  | .v n => 0#2 ++ n
  | .s n => 1#2 ++ (0#2 ++ n)
  | .a n => 2#2 ++ (0#3 ++ n)
  | .zero => 0x300#10
  | .laneid => 0x301#10
  | .groupid => 0x302#10
  | .teamid => 0x303#10
  | .coreid => 0x304#10
  | .p n => 0x310#10 ||| n.setWidth 10
  | .q n => 0x318#10 ||| n.setWidth 10
  | .acc n => 0x320#10 ||| n.setWidth 10
  | .imm => 0x3FE#10
  | .none => 0x3FF#10

/-- The operand of a field; none for an index out of range or a reserved special (ILLENC, R70, R71). -/
def Opd.ofBits (x : BitVec 10) : Option Opd :=
  let i := x.extractLsb' 0 8
  match (x.extractLsb' 8 2).toNat with
  | 0 => some (.v i)
  | 1 => if i.toNat < 64 then some (.s (i.extractLsb' 0 6)) else Option.none
  | 2 => if i.toNat < 32 then some (.a (i.extractLsb' 0 5)) else Option.none
  | _ =>
    match i.toNat with
    | 0 => some .zero
    | 1 => some .laneid
    | 2 => some .groupid
    | 3 => some .teamid
    | 4 => some .coreid
    | 0xFE => some .imm
    | 0xFF => some .none
    | n =>
      if 0x10 ≤ n ∧ n < 0x18 then some (.p (i.extractLsb' 0 3))
      else if 0x18 ≤ n ∧ n < 0x1C then some (.q (i.extractLsb' 0 2))
      else if 0x20 ≤ n ∧ n < 0x40 then some (.acc (i.extractLsb' 0 5))
      else Option.none

/-- The guard field (R72). -/
def Guard.bits (g : Guard) : BitVec 4 := BitVec.ofBool g.neg ++ g.idx
def Guard.ofBits (x : BitVec 4) : Guard := ⟨x.getLsbD 3, x.extractLsb' 0 3⟩

/-- The assigned OP values (R83). -/
def opcodes : List Nat :=
  [0x000, 0x001, 0x002, 0x003, 0x004, 0x005, 0x006, 0x007, 0x008, 0x009, 0x010, 0x011]
  ++ [0x012, 0x013, 0x014, 0x018, 0x019, 0x01A, 0x01B, 0x020, 0x021, 0x022, 0x023, 0x024]
  ++ [0x025, 0x026, 0x030, 0x031, 0x038, 0x039, 0x03A, 0x040, 0x041, 0x042, 0x043, 0x044]
  ++ [0x080, 0x081, 0x082, 0x083, 0x084, 0x085, 0x086, 0x087, 0x088, 0x089, 0x08A, 0x08B]
  ++ [0x090, 0x091, 0x092, 0x093, 0x094, 0x095, 0x0A0, 0x0A1, 0x0A2, 0x0A3, 0x0A4, 0x0A5]
  ++ [0x0A6, 0x0A7, 0x0A8, 0x0B0, 0x100, 0x101, 0x102, 0x103, 0x104, 0x105, 0x108, 0x109]
  ++ [0x10A, 0x10B, 0x10C, 0x110, 0x111, 0x112, 0x120, 0x121, 0x122, 0x123, 0x124, 0x128]
  ++ [0x129, 0x12A, 0x130, 0x131, 0x132, 0x178, 0x179, 0x17C, 0x17D, 0x180, 0x181, 0x182]
  ++ [0x183, 0x188, 0x189, 0x190, 0x191, 0x198, 0x199, 0x19A, 0x19B, 0x200, 0x201, 0x202]
  ++ [0x208, 0x209, 0x20A, 0x20B, 0x210, 0x211, 0x218, 0x220, 0x240, 0x248, 0x249, 0x250]
  ++ [0x251, 0x252, 0x253, 0x280, 0x281, 0x288, 0x290, 0x291, 0x292, 0x293, 0x2C0, 0x2C1]
  ++ [0x2C2, 0x2C8, 0x2C9, 0x2CA, 0x2D0, 0x2D1, 0x2D8, 0x2F0]

/-- The instruction of an OP and MOD over decoded operands (R83 and the encoding tables); none where a MOD bit is
undefined or a code is reserved. -/
def build (op : Nat) (m : BitVec 10) (o : Ops) : Option Instr :=
  match op with
  | 0x000 => only m 0x203#10 ((Sat.ofBits (m.extractLsb' 0 2)).bind fun sat => some (.iadd o (m.getLsbD 9) sat))
  | 0x001 => only m 0x203#10 ((Sat.ofBits (m.extractLsb' 0 2)).bind fun sat => some (.isub o (m.getLsbD 9) sat))
  | 0x002 => only m 0x203#10 ((Sat.ofBits (m.extractLsb' 0 2)).bind fun sat => some (.imul o (m.getLsbD 9) sat))
  | 0x003 => only m 0x201#10 (some (.imulh o (m.getLsbD 9) (m.getLsbD 0)))
  | 0x004 => only m 0x200#10 (some (.imad o (m.getLsbD 9)))
  | 0x005 => only m 0x21F#10 ((coField m).bind fun co => some (.iaddc o (m.getLsbD 9) (m.getLsbD 4) co))
  | 0x006 => only m 0x201#10 (some (.imin o (m.getLsbD 9) (m.getLsbD 0)))
  | 0x007 => only m 0x201#10 (some (.imax o (m.getLsbD 9) (m.getLsbD 0)))
  | 0x008 => only m 0x201#10 (some (.iabs o (m.getLsbD 9) (m.getLsbD 0)))
  | 0x009 => only m 0x201#10 (some (.ineg o (m.getLsbD 9) (m.getLsbD 0)))
  | 0x010 => only m 0x200#10 (some (.and o (m.getLsbD 9)))
  | 0x011 => only m 0x200#10 (some (.or o (m.getLsbD 9)))
  | 0x012 => only m 0x200#10 (some (.xor o (m.getLsbD 9)))
  | 0x013 => only m 0x200#10 (some (.not o (m.getLsbD 9)))
  | 0x014 => only m 0x200#10 (some (.andn o (m.getLsbD 9)))
  | 0x018 => only m 0x200#10 (some (.shl o (m.getLsbD 9)))
  | 0x019 => only m 0x200#10 (some (.shr o (m.getLsbD 9)))
  | 0x01A => only m 0x200#10 (some (.sar o (m.getLsbD 9)))
  | 0x01B => only m 0x200#10 (some (.rot o (m.getLsbD 9)))
  | 0x020 => only m 0x200#10 (some (.popc o (m.getLsbD 9)))
  | 0x021 => only m 0x200#10 (some (.clz o (m.getLsbD 9)))
  | 0x022 => only m 0x200#10 (some (.ctz o (m.getLsbD 9)))
  | 0x023 => only m 0x200#10 (some (.brev o (m.getLsbD 9)))
  | 0x024 => only m 0x201#10 (some (.bfe o (m.getLsbD 9) (m.getLsbD 0)))
  | 0x025 => only m 0x200#10 (some (.bfi o (m.getLsbD 9)))
  | 0x026 => only m 0x000#10 (some (.prmt o))
  | 0x030 => only m 0x23F#10 ((ICond.ofBits (m.extractLsb' 0 3)).bind fun cond => (Comb.ofBits (m.extractLsb' 4 2)).bind fun comb => some (.icmp o (m.getLsbD 9) cond (m.getLsbD 3) comb))
  | 0x031 => only m 0x200#10 (some (.isel o (m.getLsbD 9)))
  | 0x038 => only m 0x200#10 (some (.mov o (m.getLsbD 9)))
  | 0x039 => only m 0x201#10 (some (.movi o (m.getLsbD 9) (m.getLsbD 0)))
  | 0x03A => only m 0x000#10 (some (.movh o))
  | 0x040 => only m 0x01F#10 ((Idx.ofBits (m.extractLsb' 3 2)).bind fun idx => some (.lea o (m.extractLsb' 0 3) idx))
  | 0x041 => only m 0x201#10 ((promField m).bind fun form => some (.promv o form))
  | 0x042 => only m 0x000#10 (some (.proma o))
  | 0x043 => only m 0x000#10 (some (.astr o))
  | 0x044 => only m 0x000#10 (some (.abase o))
  | 0x080 => only m 0x007#10 ((Rm.ofBits (m.extractLsb' 0 3)).bind fun rm => some (.fadd o rm))
  | 0x081 => only m 0x007#10 ((Rm.ofBits (m.extractLsb' 0 3)).bind fun rm => some (.fsub o rm))
  | 0x082 => only m 0x007#10 ((Rm.ofBits (m.extractLsb' 0 3)).bind fun rm => some (.fmul o rm))
  | 0x083 => only m 0x01F#10 ((Rm.ofBits (m.extractLsb' 0 3)).bind fun rm => some (.ffma o rm (m.getLsbD 3) (m.getLsbD 4)))
  | 0x084 => only m 0x000#10 (some (.fmin o))
  | 0x085 => only m 0x000#10 (some (.fmax o))
  | 0x086 => only m 0x000#10 (some (.fminn o))
  | 0x087 => only m 0x000#10 (some (.fmaxn o))
  | 0x088 => only m 0x037#10 ((FCond.ofBits (m.extractLsb' 0 3)).bind fun cond => (Comb.ofBits (m.extractLsb' 4 2)).bind fun comb => some (.fcmp o cond comb))
  | 0x089 => only m 0x000#10 (some (.fclass o))
  | 0x08A => only m 0x007#10 ((Rm.ofBits (m.extractLsb' 0 3)).bind fun rm => some (.frnd o rm))
  | 0x08B => only m 0x077#10 ((Rm.ofBits (m.extractLsb' 0 3)).bind fun rm => (Cvt.ofBits (m.extractLsb' 4 3)).bind fun kind => some (.fcvt o rm kind))
  | 0x090 => only m 0x00F#10 ((Rm.ofBits (m.extractLsb' 0 3)).bind fun rm => some (.bfcvt o rm (m.getLsbD 3)))
  | 0x091 => only m 0x001#10 (some (.bfext o (m.getLsbD 0)))
  | 0x092 => only m 0x00F#10 ((Rm.ofBits (m.extractLsb' 0 3)).bind fun rm => some (.badd2 o rm (m.getLsbD 3)))
  | 0x093 => only m 0x00F#10 ((Rm.ofBits (m.extractLsb' 0 3)).bind fun rm => some (.bmul2 o rm (m.getLsbD 3)))
  | 0x094 => only m 0x00F#10 ((Rm.ofBits (m.extractLsb' 0 3)).bind fun rm => some (.bfma2 o rm (m.getLsbD 3)))
  | 0x095 => only m 0x007#10 ((Rm.ofBits (m.extractLsb' 0 3)).bind fun rm => some (.fdot2 o rm))
  | 0x0A0 => only m 0x000#10 (some (.fexp2 o))
  | 0x0A1 => only m 0x000#10 (some (.flog2 o))
  | 0x0A2 => only m 0x000#10 (some (.frcp o))
  | 0x0A3 => only m 0x000#10 (some (.frsq o))
  | 0x0A4 => only m 0x000#10 (some (.fsqrt o))
  | 0x0A5 => only m 0x000#10 (some (.fsin o))
  | 0x0A6 => only m 0x000#10 (some (.fcos o))
  | 0x0A7 => only m 0x000#10 (some (.ftanh o))
  | 0x0A8 => only m 0x007#10 ((Rm.ofBits (m.extractLsb' 0 3)).bind fun rm => some (.fscl o rm))
  | 0x0B0 => only m 0x001#10 (some (.rng o (m.getLsbD 0)))
  | 0x100 => only m 0x003#10 (some (.bra o (m.getLsbD 0) (m.getLsbD 1)))
  | 0x101 => only m 0x002#10 (some (.brx o (m.getLsbD 1)))
  | 0x102 => only m 0x000#10 (some (.call o))
  | 0x103 => only m 0x000#10 (some (.callx o))
  | 0x104 => only m 0x000#10 (some (.ret o))
  | 0x105 => only m 0x3FF#10 (some (.loop o (m.extractLsb' 0 10)))
  | 0x108 => only m 0x000#10 (some (.conv o))
  | 0x109 => only m 0x000#10 (some (.exit o))
  | 0x10A => only m 0x000#10 (some (.wait o))
  | 0x10B => only m 0x000#10 (some (.yield o))
  | 0x10C => only m 0x000#10 (some (.nop o))
  | 0x110 => only m 0x001#10 (if m.getLsbD 0 then some (.trapEnd o) else some (.trap o))
  | 0x111 => only m 0x001#10 (some (.tret o (m.getLsbD 0)))
  | 0x112 => only m 0x000#10 (some (.brk o))
  | 0x120 => only m 0x007#10 ((VMode.ofBits (m.extractLsb' 0 3)).bind fun mode => some (.vote o mode))
  | 0x121 => only m 0x000#10 (some (.elect o))
  | 0x122 => only m 0x03F#10 ((SMode.ofBits (m.extractLsb' 0 3)).bind fun mode => (Seg.ofBits (m.extractLsb' 3 3)).bind fun seg => some (.shfl o mode seg))
  | 0x123 => only m 0x000#10 (some (.rdlane o))
  | 0x124 => only m 0x000#10 (some (.wrlane o))
  | 0x128 => only m 0x00F#10 ((RedI.ofBits (m.extractLsb' 0 3)).bind fun op => some (.redi o op (m.getLsbD 3)))
  | 0x129 => only m 0x007#10 ((RedF.ofBits (m.extractLsb' 0 3)).bind fun op => some (.redf o op))
  | 0x12A => only m 0x001#10 (some (.redmaxi o (m.getLsbD 0)))
  | 0x130 => only m 0x000#10 (some (.matchLanes o))
  | 0x131 => only m 0x000#10 (some (.isect o))
  | 0x132 => only m 0x001#10 (some (.scnt o (m.getLsbD 0)))
  | 0x178 => only m 0x000#10 (some (.getsr o))
  | 0x179 => only m 0x003#10 ((SrOp.ofBits (m.extractLsb' 0 2)).bind fun op => some (.setsr o op))
  | 0x17C => only m 0x000#10 (some (.regacq o))
  | 0x17D => only m 0x000#10 (some (.regrel o))
  | 0x180 => only m 0x3FF#10 ((Ch.ofBits (m.extractLsb' 8 2)).bind fun ch => (Scope.ofBits (m.extractLsb' 5 3)).bind fun scope => (MOrd.ofBits (m.extractLsb' 3 2)).bind fun ord => (Size.ofBits (m.extractLsb' 0 3)).bind fun size => some (.ld o ch scope ord size))
  | 0x181 => only m 0x30F#10 ((Ch.ofBits (m.extractLsb' 8 2)).bind fun ch => (Fmt.ofBits (m.extractLsb' 0 4)).bind fun fmt => some (.ldConvert o ch fmt))
  | 0x182 => only m 0x3FF#10 ((Ch.ofBits (m.extractLsb' 8 2)).bind fun ch => (Scope.ofBits (m.extractLsb' 5 3)).bind fun scope => (MOrd.ofBits (m.extractLsb' 3 2)).bind fun ord => (Size.ofBits (m.extractLsb' 0 3)).bind fun size => some (if ch = .normal && scope = .thr && ord = .plain && size = .b128 && o.copyShape then .copy o else .st o ch scope ord size))
  | 0x183 => only m 0x3FF#10 ((Ch.ofBits (m.extractLsb' 8 2)).bind fun ch => (Rm.ofBits (m.extractLsb' 4 3)).bind fun rm => (Fmt.ofBits (m.extractLsb' 0 4)).bind fun fmt => some (.stConvert o ch (m.getLsbD 7) rm fmt))
  | 0x188 => only m 0x3FF#10 ((Scope.ofBits (m.extractLsb' 6 3)).bind fun scope => (MOrd.ofBits (m.extractLsb' 4 2)).bind fun ord => (AOp.ofBits (m.extractLsb' 0 4)).bind fun aop => some (.atom o (m.getLsbD 9) scope ord aop))
  | 0x189 => only m 0x3FF#10 ((Scope.ofBits (m.extractLsb' 6 3)).bind fun scope => (MOrd.ofBits (m.extractLsb' 4 2)).bind fun ord => (AOp.ofBits (m.extractLsb' 0 4)).bind fun aop => some (.red o (m.getLsbD 9) scope ord aop))
  | 0x190 => only m 0x00F#10 (if m.getLsbD 3 then (Scope.ofBits (m.extractLsb' 0 3)).bind fun scope => some (.fenceG o scope) else (Scope.ofBits (m.extractLsb' 0 3)).bind fun scope => some (.fence o scope))
  | 0x191 => only m 0x0FF#10 ((Scope.ofBits (m.extractLsb' 0 3)).bind fun scope => some (.fencex o (m.extractLsb' 3 5) scope))
  | 0x198 => only m 0x001#10 (some (.pref o (m.getLsbD 0)))
  | 0x199 => only m 0x000#10 (some (.discard o))
  | 0x19A => only m 0x001#10 (some (.clean o (m.getLsbD 0)))
  | 0x19B => only m 0x001#10 (some (.inval o (m.getLsbD 0)))
  | 0x200 => only m 0x300#10 (some (.mma o (m.getLsbD 9) (m.getLsbD 8)))
  | 0x201 => only m 0x100#10 (some (.mmaS o (m.getLsbD 8)))
  | 0x202 => only m 0x300#10 (some (.mmaP o (m.getLsbD 9) (m.getLsbD 8)))
  | 0x208 => only m 0x003#10 ((AccSel.ofBits (m.extractLsb' 0 2)).bind fun sel => some (.accz o sel))
  | 0x209 => only m 0x03F#10 ((Side.ofBits (m.extractLsb' 4 2)).bind fun side => (Fmt.ofBits (m.extractLsb' 0 4)).bind fun fmt => some (.accld o side fmt))
  | 0x20A => only m 0x3FF#10 ((Rm.ofBits (m.extractLsb' 6 3)).bind fun rm => (Side.ofBits (m.extractLsb' 4 2)).bind fun side => (Fmt.ofBits (m.extractLsb' 0 4)).bind fun fmt => some (.accst o (m.getLsbD 9) rm side fmt))
  | 0x20B => only m 0x001#10 (some (.accscl o (m.getLsbD 0)))
  | 0x210 => only m 0x0FF#10 (some (.smx o (m.extractLsb' 0 8)))
  | 0x211 => only m 0x000#10 (some (.smxf o))
  | 0x218 => only m 0x001#10 (some (.mred o (m.getLsbD 0)))
  | 0x220 => only m 0x001#10 (some (.mtrld o (m.getLsbD 0)))
  | 0x240 => only m 0x000#10 (some (.tset o))
  | 0x248 => only m 0x000#10 (some (.bseal o))
  | 0x249 => only m 0x000#10 (some (.bwait o))
  | 0x250 => only m 0x000#10 (some (.barinit o))
  | 0x251 => only m 0x000#10 (some (.barexp o))
  | 0x252 => only m 0x0F9#10 (some (.barwait o (m.extractLsb' 3 5) (m.getLsbD 0)))
  | 0x253 => only m 0x000#10 (some (.barpoll o))
  | 0x280 => only m 0x0F8#10 (some (.clbar o (m.extractLsb' 3 5)))
  | 0x281 => only m 0x0F8#10 (some (.clarr o (m.extractLsb' 3 5)))
  | 0x288 => only m 0x003#10 ((Cnt.ofBits (m.extractLsb' 0 2)).bind fun cnt => some (.rld o cnt))
  | 0x290 => only m 0x001#10 (some (.msend o (m.getLsbD 0)))
  | 0x291 => only m 0x000#10 (some (.mrecv o))
  | 0x292 => only m 0x001#10 (some (.mprobe o (m.getLsbD 0)))
  | 0x293 => only m 0x000#10 (some (.mcancel o))
  | 0x2C0 => only m 0x001#10 (if m.getLsbD 0 then some (.hpopJ o) else some (.hpop o))
  | 0x2C1 => only m 0x000#10 (some (.hpush o))
  | 0x2C2 => only m 0x000#10 (some (.hstat o))
  | 0x2C8 => only m 0x003#10 ((EvOp.ofBits (m.extractLsb' 0 2)).bind fun op => some (.evsig o op))
  | 0x2C9 => only m 0x000#10 (some (.evwait o))
  | 0x2CA => only m 0x000#10 (some (.jdone o))
  | 0x2D0 => only m 0x000#10 (some (.publish o))
  | 0x2D1 => only m 0x000#10 (some (.adopt o))
  | 0x2D8 => only m 0x000#10 (some (.tokrec o))
  | 0x2F0 => only m 0x000#10 (some (.snap o))
  | _ => none

/-- The OP of an instruction word (R83). -/
def Instr.op : Instr → BitVec 10
  | .iadd .. => 0x000#10
  | .isub .. => 0x001#10
  | .imul .. => 0x002#10
  | .imulh .. => 0x003#10
  | .imad .. => 0x004#10
  | .iaddc .. => 0x005#10
  | .imin .. => 0x006#10
  | .imax .. => 0x007#10
  | .iabs .. => 0x008#10
  | .ineg .. => 0x009#10
  | .and .. => 0x010#10
  | .or .. => 0x011#10
  | .xor .. => 0x012#10
  | .not .. => 0x013#10
  | .andn .. => 0x014#10
  | .shl .. => 0x018#10
  | .shr .. => 0x019#10
  | .sar .. => 0x01A#10
  | .rot .. => 0x01B#10
  | .popc .. => 0x020#10
  | .clz .. => 0x021#10
  | .ctz .. => 0x022#10
  | .brev .. => 0x023#10
  | .bfe .. => 0x024#10
  | .bfi .. => 0x025#10
  | .prmt .. => 0x026#10
  | .icmp .. => 0x030#10
  | .isel .. => 0x031#10
  | .mov .. => 0x038#10
  | .movi .. => 0x039#10
  | .movh .. => 0x03A#10
  | .lea .. => 0x040#10
  | .promv .. => 0x041#10
  | .proma .. => 0x042#10
  | .astr .. => 0x043#10
  | .abase .. => 0x044#10
  | .fadd .. => 0x080#10
  | .fsub .. => 0x081#10
  | .fmul .. => 0x082#10
  | .ffma .. => 0x083#10
  | .fmin .. => 0x084#10
  | .fmax .. => 0x085#10
  | .fminn .. => 0x086#10
  | .fmaxn .. => 0x087#10
  | .fcmp .. => 0x088#10
  | .fclass .. => 0x089#10
  | .frnd .. => 0x08A#10
  | .fcvt .. => 0x08B#10
  | .bfcvt .. => 0x090#10
  | .bfext .. => 0x091#10
  | .badd2 .. => 0x092#10
  | .bmul2 .. => 0x093#10
  | .bfma2 .. => 0x094#10
  | .fdot2 .. => 0x095#10
  | .fexp2 .. => 0x0A0#10
  | .flog2 .. => 0x0A1#10
  | .frcp .. => 0x0A2#10
  | .frsq .. => 0x0A3#10
  | .fsqrt .. => 0x0A4#10
  | .fsin .. => 0x0A5#10
  | .fcos .. => 0x0A6#10
  | .ftanh .. => 0x0A7#10
  | .fscl .. => 0x0A8#10
  | .rng .. => 0x0B0#10
  | .bra .. => 0x100#10
  | .brx .. => 0x101#10
  | .call .. => 0x102#10
  | .callx .. => 0x103#10
  | .ret .. => 0x104#10
  | .loop .. => 0x105#10
  | .conv .. => 0x108#10
  | .exit .. => 0x109#10
  | .wait .. => 0x10A#10
  | .yield .. => 0x10B#10
  | .nop .. => 0x10C#10
  | .trap .. => 0x110#10
  | .trapEnd .. => 0x110#10
  | .tret .. => 0x111#10
  | .brk .. => 0x112#10
  | .vote .. => 0x120#10
  | .elect .. => 0x121#10
  | .shfl .. => 0x122#10
  | .rdlane .. => 0x123#10
  | .wrlane .. => 0x124#10
  | .redi .. => 0x128#10
  | .redf .. => 0x129#10
  | .redmaxi .. => 0x12A#10
  | .matchLanes .. => 0x130#10
  | .isect .. => 0x131#10
  | .scnt .. => 0x132#10
  | .getsr .. => 0x178#10
  | .setsr .. => 0x179#10
  | .regacq .. => 0x17C#10
  | .regrel .. => 0x17D#10
  | .ld .. => 0x180#10
  | .ldConvert .. => 0x181#10
  | .st .. => 0x182#10
  | .stConvert .. => 0x183#10
  | .atom .. => 0x188#10
  | .red .. => 0x189#10
  | .fence .. => 0x190#10
  | .fenceG .. => 0x190#10
  | .fencex .. => 0x191#10
  | .pref .. => 0x198#10
  | .discard .. => 0x199#10
  | .clean .. => 0x19A#10
  | .inval .. => 0x19B#10
  | .mma .. => 0x200#10
  | .mmaS .. => 0x201#10
  | .mmaP .. => 0x202#10
  | .accz .. => 0x208#10
  | .accld .. => 0x209#10
  | .accst .. => 0x20A#10
  | .accscl .. => 0x20B#10
  | .smx .. => 0x210#10
  | .smxf .. => 0x211#10
  | .mred .. => 0x218#10
  | .mtrld .. => 0x220#10
  | .tset .. => 0x240#10
  | .bseal .. => 0x248#10
  | .bwait .. => 0x249#10
  | .barinit .. => 0x250#10
  | .barexp .. => 0x251#10
  | .barwait .. => 0x252#10
  | .barpoll .. => 0x253#10
  | .clbar .. => 0x280#10
  | .clarr .. => 0x281#10
  | .rld .. => 0x288#10
  | .msend .. => 0x290#10
  | .mrecv .. => 0x291#10
  | .mprobe .. => 0x292#10
  | .mcancel .. => 0x293#10
  | .hpop .. => 0x2C0#10
  | .hpopJ .. => 0x2C0#10
  | .hpush .. => 0x2C1#10
  | .hstat .. => 0x2C2#10
  | .evsig .. => 0x2C8#10
  | .evwait .. => 0x2C9#10
  | .jdone .. => 0x2CA#10
  | .publish .. => 0x2D0#10
  | .adopt .. => 0x2D1#10
  | .tokrec .. => 0x2D8#10
  | .snap .. => 0x2F0#10
  | .copy .. => 0x182#10
  | _ => 0x3FF#10

/-- The MOD field of an instruction word, from the encoding tables of each chapter. -/
def Instr.mod : Instr → BitVec 10
  | .iadd _ w sat => bit w 9 ||| at10 sat.bits 0
  | .isub _ w sat => bit w 9 ||| at10 sat.bits 0
  | .imul _ w sat => bit w 9 ||| at10 sat.bits 0
  | .imulh _ w u => bit w 9 ||| bit u 0
  | .imad _ w => bit w 9
  | .iaddc _ w sub co => bit w 9 ||| bit sub 4 ||| (match co with | some k => 8#10 ||| at10 k 0 | none => 0#10)
  | .imin _ w u => bit w 9 ||| bit u 0
  | .imax _ w u => bit w 9 ||| bit u 0
  | .iabs _ w sat => bit w 9 ||| bit sat 0
  | .ineg _ w sat => bit w 9 ||| bit sat 0
  | .and _ w => bit w 9
  | .or _ w => bit w 9
  | .xor _ w => bit w 9
  | .not _ w => bit w 9
  | .andn _ w => bit w 9
  | .shl _ w => bit w 9
  | .shr _ w => bit w 9
  | .sar _ w => bit w 9
  | .rot _ w => bit w 9
  | .popc _ w => bit w 9
  | .clz _ w => bit w 9
  | .ctz _ w => bit w 9
  | .brev _ w => bit w 9
  | .bfe _ w sx => bit w 9 ||| bit sx 0
  | .bfi _ w => bit w 9
  | .prmt _ => 0#10
  | .icmp _ w cond u comb => bit w 9 ||| at10 cond.bits 0 ||| bit u 3 ||| at10 comb.bits 4
  | .isel _ w => bit w 9
  | .mov _ w => bit w 9
  | .movi _ w z => bit w 9 ||| bit z 0
  | .movh _ => 0#10
  | .lea _ scale idx => at10 scale 0 ||| at10 idx.bits 3
  | .promv _ form => (match form with | .lo => 0#10 | .hi => 1#10 | .w => 0x200#10)
  | .proma _ => 0#10
  | .astr _ => 0#10
  | .abase _ => 0#10
  | .fadd _ rm => at10 rm.bits 0
  | .fsub _ rm => at10 rm.bits 0
  | .fmul _ rm => at10 rm.bits 0
  | .ffma _ rm np nc => at10 rm.bits 0 ||| bit np 3 ||| bit nc 4
  | .fmin _ => 0#10
  | .fmax _ => 0#10
  | .fminn _ => 0#10
  | .fmaxn _ => 0#10
  | .fcmp _ cond comb => at10 cond.bits 0 ||| at10 comb.bits 4
  | .fclass _ => 0#10
  | .frnd _ rm => at10 rm.bits 0
  | .fcvt _ rm kind => at10 rm.bits 0 ||| at10 kind.bits 4
  | .bfcvt _ rm sat => at10 rm.bits 0 ||| bit sat 3
  | .bfext _ hi => bit hi 0
  | .badd2 _ rm s => at10 rm.bits 0 ||| bit s 3
  | .bmul2 _ rm s => at10 rm.bits 0 ||| bit s 3
  | .bfma2 _ rm s => at10 rm.bits 0 ||| bit s 3
  | .fdot2 _ rm => at10 rm.bits 0
  | .fexp2 _ => 0#10
  | .flog2 _ => 0#10
  | .frcp _ => 0#10
  | .frsq _ => 0#10
  | .fsqrt _ => 0#10
  | .fsin _ => 0#10
  | .fcos _ => 0#10
  | .ftanh _ => 0#10
  | .fscl _ rm => at10 rm.bits 0
  | .rng _ f => bit f 0
  | .bra _ nq pop => bit nq 0 ||| bit pop 1
  | .brx _ pop => bit pop 1
  | .call _ => 0#10
  | .callx _ => 0#10
  | .ret _ => 0#10
  | .loop _ len => at10 len 0
  | .conv _ => 0#10
  | .exit _ => 0#10
  | .wait _ => 0#10
  | .yield _ => 0#10
  | .nop _ => 0#10
  | .trap _ => 0#10
  | .trapEnd _ => bit true 0
  | .tret _ next => bit next 0
  | .brk _ => 0#10
  | .vote _ mode => at10 mode.bits 0
  | .elect _ => 0#10
  | .shfl _ mode seg => at10 mode.bits 0 ||| at10 seg.bits 3
  | .rdlane _ => 0#10
  | .wrlane _ => 0#10
  | .redi _ op u => at10 op.bits 0 ||| bit u 3
  | .redf _ op => at10 op.bits 0
  | .redmaxi _ i => bit i 0
  | .matchLanes _ => 0#10
  | .isect _ => 0#10
  | .scnt _ inc => bit inc 0
  | .getsr _ => 0#10
  | .setsr _ op => at10 op.bits 0
  | .regacq _ => 0#10
  | .regrel _ => 0#10
  | .ld _ ch scope ord size => at10 ch.bits 8 ||| at10 scope.bits 5 ||| at10 ord.bits 3 ||| at10 size.bits 0
  | .ldConvert _ ch fmt => at10 ch.bits 8 ||| at10 fmt.bits 0
  | .st _ ch scope ord size => at10 ch.bits 8 ||| at10 scope.bits 5 ||| at10 ord.bits 3 ||| at10 size.bits 0
  | .stConvert _ ch sat rm fmt => at10 ch.bits 8 ||| bit sat 7 ||| at10 rm.bits 4 ||| at10 fmt.bits 0
  | .atom _ sz scope ord aop => bit sz 9 ||| at10 scope.bits 6 ||| at10 ord.bits 4 ||| at10 aop.bits 0
  | .red _ sz scope ord aop => bit sz 9 ||| at10 scope.bits 6 ||| at10 ord.bits 4 ||| at10 aop.bits 0
  | .fence _ scope => at10 scope.bits 0
  | .fenceG _ scope => at10 scope.bits 0 ||| bit true 3
  | .fencex _ paths scope => at10 paths 3 ||| at10 scope.bits 0
  | .pref _ l2 => bit l2 0
  | .discard _ => 0#10
  | .clean _ mem => bit mem 0
  | .inval _ i => bit i 0
  | .mma _ ru z => bit ru 9 ||| bit z 8
  | .mmaS _ z => bit z 8
  | .mmaP _ ru z => bit ru 9 ||| bit z 8
  | .accz _ sel => at10 sel.bits 0
  | .accld _ side fmt => at10 side.bits 4 ||| at10 fmt.bits 0
  | .accst _ sat rm side fmt => bit sat 9 ||| at10 rm.bits 6 ||| at10 side.bits 4 ||| at10 fmt.bits 0
  | .accscl _ row => bit row 0
  | .smx _ nv => at10 nv 0
  | .smxf _ => 0#10
  | .mred _ col => bit col 0
  | .mtrld _ b8 => bit b8 0
  | .tset _ => 0#10
  | .bseal _ => 0#10
  | .bwait _ => 0#10
  | .barinit _ => 0#10
  | .barexp _ => 0#10
  | .barwait _ paths gn => at10 paths 3 ||| bit gn 0
  | .barpoll _ => 0#10
  | .clbar _ paths => at10 paths 3
  | .clarr _ paths => at10 paths 3
  | .rld _ cnt => at10 cnt.bits 0
  | .msend _ blk => bit blk 0
  | .mrecv _ => 0#10
  | .mprobe _ byStatus => bit byStatus 0
  | .mcancel _ => 0#10
  | .hpop _ => 0#10
  | .hpopJ _ => bit true 0
  | .hpush _ => 0#10
  | .hstat _ => 0#10
  | .evsig _ op => at10 op.bits 0
  | .evwait _ => 0#10
  | .jdone _ => 0#10
  | .publish _ => 0#10
  | .adopt _ => 0#10
  | .tokrec _ => 0#10
  | .snap _ => 0#10
  | .copy _ => at10 Size.b128.bits 0
  | _ => 0#10

/-- The operand fields of a word, decoded (R70–R72). -/
def Fields.operands (f : Fields) : Option Ops :=
  if (Guard.ofBits f.gd).reserved then none
  else
    (Opd.ofBits f.d).bind fun d => (Opd.ofBits f.a).bind fun a => (Opd.ofBits f.b).bind fun b =>
      (Opd.ofBits f.c).bind fun c => some ⟨Guard.ofBits f.gd, d, a, b, c, f.imm⟩

/-- Orders 3 and 4 of R79 on a built term. -/
def Instr.checked (i : Instr) : Except DecFault Instr :=
  if i.encFault then .error .illenc else if i.typeFault then .error .illtype else .ok i

/-- The instruction of the fields of a full word, or the first failing check of orders 2 to 4 of R79. -/
def Fields.parse (f : Fields) : Except DecFault Instr :=
  if opcodes.contains f.op.toNat then
    match f.operands.bind (build f.op.toNat f.mod) with
    | some i => i.checked
    | none => .error .illenc
  else .error .illop

/-- The instruction of a full word (R69). -/
def decodeWord (w : W96) : Except DecFault Instr := (Fields.unpack w).parse

/-- The fields of an instruction word. -/
def Instr.fields (i : Instr) : Fields :=
  match i.guardOf with
  | some o => ⟨i.op, o.g.bits, o.d.bits, o.a.bits, o.b.bits, o.c.bits, i.mod, o.imm⟩
  | none => ⟨0x3FF#10, 0#4, 0#10, 0#10, 0#10, 0#10, 0#10, 0#32⟩

/-- The 96-bit word of an instruction (R69, R83). -/
def encodeWord (i : Instr) : W96 := i.fields.pack

/-! ### Paired half-operations (R75–R78) -/

/-- The fields of a half (R75). -/
structure HalfWord where
  op7 : BitVec 7
  gd : BitVec 4
  d : Byte
  a : Byte
  b : Byte
  c : Byte
  mod : BitVec 5
  deriving DecidableEq, Repr

def HalfWord.unpack (h : BitVec 48) : HalfWord :=
  { op7 := h.extractLsb' 41 7, gd := h.extractLsb' 37 4, d := h.extractLsb' 29 8, a := h.extractLsb' 21 8
    b := h.extractLsb' 13 8, c := h.extractLsb' 5 8, mod := h.extractLsb' 0 5 }

def HalfWord.pack (h : HalfWord) : BitVec 48 :=
  h.op7 ++ (h.gd ++ (h.d ++ (h.a ++ (h.b ++ (h.c ++ h.mod)))))

/-- The pairable opcodes (R76): the OP of the full word, the number of sources, and the multiply class. -/
def pairable (op7 : Nat) : Option (Nat × Nat × Bool) :=
  match op7 with
  | 0x00 => some (0x000, 2, false) | 0x01 => some (0x001, 2, false) | 0x02 => some (0x002, 2, true)
  | 0x03 => some (0x004, 3, true) | 0x04 => some (0x006, 2, false) | 0x05 => some (0x007, 2, false)
  | 0x06 => some (0x010, 2, false) | 0x07 => some (0x011, 2, false) | 0x08 => some (0x012, 2, false)
  | 0x09 => some (0x014, 2, false) | 0x0A => some (0x018, 2, false) | 0x0B => some (0x019, 2, false)
  | 0x0C => some (0x01A, 2, false) | 0x0D => some (0x038, 1, false) | 0x10 => some (0x080, 2, false)
  | 0x11 => some (0x081, 2, false) | 0x12 => some (0x082, 2, true) | 0x13 => some (0x083, 3, true)
  | 0x14 => some (0x084, 2, false) | 0x15 => some (0x085, 2, false) | 0x16 => some (0x092, 2, false)
  | 0x17 => some (0x094, 3, true)
  | _ => none

/-- A half is the full word of the same mnemonic with every operand varying, MOD[9:5] = 0 and IMM = 0 (R75). -/
def HalfWord.parse (h : HalfWord) : Except DecFault Instr :=
  match pairable h.op7.toNat with
  | none => .error .illop
  | some (op, n, _) =>
    if (Guard.ofBits h.gd).reserved || (n < 2 && h.b != 0#8) || (n < 3 && h.c != 0#8) then .error .illenc
    else
      match build op (h.mod.setWidth 10)
          ⟨Guard.ofBits h.gd, .v h.d, .v h.a, if n < 2 then .none else .v h.b, if n < 3 then .none else .v h.c, 0#32⟩ with
      | some i => i.checked
      | none => .error .illenc

/-- The source registers of a half that it uses. -/
def HalfWord.sources (h : HalfWord) : List Nat :=
  match pairable h.op7.toNat with
  | none => []
  | some (_, n, _) => ([h.a, h.b, h.c].take n).map BitVec.toNat

def HalfWord.multiply (h : HalfWord) : Bool :=
  match pairable h.op7.toNat with
  | none => false
  | some (_, _, m) => m

/-- R77: the pairing rules. -/
def pairOk (h0 h1 : HalfWord) : Bool :=
  let srcs := (h0.sources ++ h1.sources).eraseDups
  h0.d.toNat % 4 != h1.d.toNat % 4 && srcs.length ≤ 4
  && (upTo 4).all (fun k => (srcs.filter (fun n => n % 4 = k)).length ≤ 2)
  && !(h0.multiply && h1.multiply) && h0.gd == h1.gd

/-- What a slot holds (R69, R75). -/
inductive Slot where
  | full (i : Instr)
  | pair (i j : Instr)
  deriving DecidableEq, Repr

/-- A decode fault and the half it is reported for (R78). -/
structure SlotFault where
  fault : DecFault
  half : Nat
  deriving DecidableEq, Repr

/-- R78: the orders of R79 one at a time, half 0 before half 1 within each order. -/
def decodePair (w : W96) : Except SlotFault Slot :=
  let h0 := HalfWord.unpack (w.extractLsb' 48 48)
  let h1 := HalfWord.unpack (w.extractLsb' 0 48)
  match h0.parse, h1.parse with
  | .ok i, .ok j => if pairOk h0 h1 then .ok (.pair i j) else .error ⟨.badpair, 0⟩
  | .error e, .ok _ => .error ⟨e, 0⟩
  | .ok _, .error e => .error ⟨e, 1⟩
  | .error e, .error f => if e.order ≤ f.order then .error ⟨e, 0⟩ else .error ⟨f, 1⟩

/-- The content of a slot under its PAIR bit. -/
def decodeSlot (pair : Bool) (w : W96) : Except SlotFault Slot :=
  if pair then decodePair w
  else
    match decodeWord w with
    | .ok i => .ok (.full i)
    | .error e => .error ⟨e, 0⟩

/-! ### Operator records (R375) -/

/-- A word of a record or command. -/
def dword {n : Nat} (w : BitVec n) (i : Nat) : W64 := w.extractLsb' (64 * i) 64

def JobP3.bits (p : JobP3) : W64 :=
  (0#24 : BitVec 24) ++ (BitVec.ofBool p.place ++ (p.team ++ (BitVec.ofBool p.anyteam ++ (BitVec.ofBool p.evtile
    ++ (BitVec.ofBool p.evarm ++ (BitVec.ofBool p.evon ++ p.event))))))

def JobP3.ofBits (x : W64) : Option JobP3 :=
  if x.extractLsb' 40 24 = 0#24 then
    some ⟨x.extractLsb' 0 32, x.getLsbD 32, x.getLsbD 33, x.getLsbD 34, x.getLsbD 35, x.extractLsb' 36 3, x.getLsbD 39⟩
  else none

/-- The SIGEV and `evsig` operation codes that a record carries. -/
def haltMode (m : BitVec 2) : Option Bool :=
  match m.toNat with
  | 0 => some false
  | 1 => some true
  | _ => none

/-- The record of four words, before the limits of `Instr.recordBad`; none where a field is reserved or a zero field
is not zero. -/
def recordOf (hw p1 p2 p3 : W64) : Option Instr :=
  let h : RecHdr := ⟨hw.extractLsb' 16 16, hw.extractLsb' 6 6, hw.getLsbD 5, hw.getLsbD 4⟩
  let arg : W32 := hw.extractLsb' 32 32
  if hw.extractLsb' 12 4 != 0#4 then none
  else
    match (hw.extractLsb' 0 4).toNat with
    | 0x0 => if arg == 0#32 && p1 == 0#64 && p2 == 0#64 && p3 == 0#64 then some (.nopRecord h) else none
    | 0x1 =>
      if arg.extractLsb' 24 8 == 0#8 then (JobP3.ofBits p3).map (.job h (arg.extractLsb' 0 24) p1 p2) else none
    | 0x2 =>
      if arg.extractLsb' 24 8 == 0#8 then (JobP3.ofBits p3).map (.cjob h (arg.extractLsb' 0 24) p1 p2) else none
    | 0x3 =>
      if arg == 0#32 && p1.extractLsb' 32 32 == 0#32 && p2 == 0#64 && p3 == 0#64 then
        some (.waitev h (p1.extractLsb' 0 32)) else none
    | 0x4 =>
      if arg.extractLsb' 2 30 == 0#30 && p1.extractLsb' 32 32 == 0#32 && p2.extractLsb' 32 32 == 0#32 && p3 == 0#64 then
        (EvOp.ofBits (arg.extractLsb' 0 2)).map fun op => .sigev h op (p1.extractLsb' 0 32) (p2.extractLsb' 0 32)
      else none
    | 0x5 =>
      if arg.extractLsb' 16 16 == 0#16 && p2.extractLsb' 32 32 == 0#32 && p3.extractLsb' 25 39 == 0#39 then
        some (.loopRecord h (arg.extractLsb' 0 16) p1 (p2.extractLsb' 0 32) (p3.extractLsb' 0 8) (p3.extractLsb' 8 8)
          (p3.extractLsb' 16 8) (p3.getLsbD 24))
      else none
    | 0x6 => if arg == 0#32 && p1 == 0#64 && p2 == 0#64 && p3 == 0#64 then some (.loopend h) else none
    | 0x7 => if arg == 0#32 && p1 == 0#64 && p2 == 0#64 && p3 == 0#64 then some (.adoptRecord h) else none
    | 0x8 =>
      if arg.extractLsb' 3 29 == 0#29 && p3 == 0#64 then
        some (.lease h (arg.getLsbD 0) (arg.getLsbD 1) (arg.getLsbD 2) p1 p2) else none
    | 0x9 => if arg == 0#32 && p3 == 0#64 then some (.unlease h p1 p2) else none
    | 0xA =>
      if arg.extractLsb' 7 25 == 0#25 && p3.extractLsb' 33 31 == 0#31 then
        some (.resume h (arg.extractLsb' 0 6) (arg.getLsbD 6) p1 p2 (p3.extractLsb' 0 32) (p3.getLsbD 32)) else none
    | 0xB =>
      if arg.extractLsb' 24 8 == 0#8 && p2.extractLsb' 18 46 == 0#46 && p3.extractLsb' 48 16 == 0#16 then
        some (.partw h (arg.extractLsb' 0 24) p1 (p2.extractLsb' 0 18) (p3.extractLsb' 0 48)) else none
    | 0xC => if arg == 0#32 && p3 == 0#64 then some (.mark h p1 p2) else none
    | 0xD =>
      if arg.extractLsb' 8 24 == 0#24 && p2 == 0#64 && p3 == 0#64 then some (.slice h (arg.extractLsb' 0 8) p1) else none
    | 0xE => if arg.extractLsb' 16 16 == 0#16 && p3 == 0#64 then some (.endreq h (arg.extractLsb' 0 16) p1 p2) else none
    | _ =>
      if arg.extractLsb' 8 24 == 0#24 && p1.extractLsb' 32 32 == 0#32 && p2 == 0#64 && p3 == 0#64 then
        (haltMode (arg.extractLsb' 6 2)).map fun m => .haltq h (arg.extractLsb' 0 6) m (p1.extractLsb' 0 32)
      else none

/-- The kinds that R375 marks privileged, a LEASE with PART = 1 included. -/
def recordPriv (hw : W64) : Bool :=
  match (hw.extractLsb' 0 4).toNat with
  | 0x7 | 0xA | 0xB | 0xD | 0xF => true
  | 0x8 => hw.getLsbD 34
  | _ => false

/-- The record of 32 bytes, or none (OPBAD). -/
def decodeRecord (w : BitVec 256) : Option Instr :=
  match recordOf (dword w 0) (dword w 1) (dword w 2) (dword w 3) with
  | some i => if i.recordBad then none else some i
  | none => none

def RecHdr.bits (h : RecHdr) (kind : BitVec 4) (arg : W32) : W64 :=
  arg ++ (h.seq ++ (0#4 ++ (h.prio ++ (BitVec.ofBool h.pov ++ (BitVec.ofBool h.b ++ kind)))))

/-- The four words of a record, P3 first (R375). -/
def quad (hw p1 p2 p3 : W64) : BitVec 256 := p3 ++ (p2 ++ (p1 ++ hw))

def z64 (x : W32) : W64 := 0#32 ++ x

/-- The 256-bit record of a record term. -/
def encodeRecord : Instr → BitVec 256
  | .nopRecord h => quad (h.bits 0x0#4 0#32) 0#64 0#64 0#64
  | .job h n e a p => quad (h.bits 0x1#4 (0#8 ++ n)) e a p.bits
  | .cjob h n e a p => quad (h.bits 0x2#4 (0#8 ++ n)) e a p.bits
  | .waitev h ev => quad (h.bits 0x3#4 0#32) (z64 ev) 0#64 0#64
  | .sigev h op ev n => quad (h.bits 0x4#4 (0#30 ++ op.bits)) (z64 ev) (z64 n) 0#64
  | .loopRecord h n c mx dmin dmax d0 mon =>
    quad (h.bits 0x5#4 (0#16 ++ n)) c (z64 mx) ((0#39 : BitVec 39) ++ (BitVec.ofBool mon ++ (d0 ++ (dmax ++ dmin))))
  | .loopend h => quad (h.bits 0x6#4 0#32) 0#64 0#64 0#64
  | .adoptRecord h => quad (h.bits 0x7#4 0#32) 0#64 0#64 0#64
  | .lease h r w part base len =>
    quad (h.bits 0x8#4 ((0#29 : BitVec 29) ++ (BitVec.ofBool part ++ (BitVec.ofBool w ++ BitVec.ofBool r)))) base len 0#64
  | .unlease h base len => quad (h.bits 0x9#4 0#32) base len 0#64
  | .resume h core cv img tab ev evon =>
    quad (h.bits 0xA#4 ((0#25 : BitVec 25) ++ (BitVec.ofBool cv ++ core))) img tab
      ((0#31 : BitVec 31) ++ (BitVec.ofBool evon ++ ev))
  | .partw h pw mask cl gs => quad (h.bits 0xB#4 (0#8 ++ pw)) mask ((0#46 : BitVec 46) ++ cl) ((0#16 : BitVec 16) ++ gs)
  | .mark h addr v => quad (h.bits 0xC#4 0#32) addr v 0#64
  | .slice h set t => quad (h.bits 0xD#4 ((0#24 : BitVec 24) ++ set)) t 0#64 0#64
  | .endreq h n sa bm => quad (h.bits 0xE#4 ((0#16 : BitVec 16) ++ n)) sa bm 0#64
  | .haltq h q halt bud =>
    quad (h.bits 0xF#4 ((0#24 : BitVec 24) ++ ((if halt then 1#2 else 0#2) ++ q))) (z64 bud) 0#64 0#64
  | _ => 0#256

/-! ### Fabric commands (R473) -/

/-- The command of 64 bytes, before the limits of `Instr.commandBad`. The fields that an operation does not name must
be zero; LEN, CGID, ROP and NMEM are not named by ATOMIC, nor CGID, ROP and NMEM by READ and WRITE. -/
def commandOf (w : BitVec 512) : Option Instr :=
  let ctrl : W32 := w.extractLsb' 0 32
  let h : FabHdr := ⟨w.extractLsb' 32 16, ctrl.getLsbD 11, ctrl.getLsbD 12, w.extractLsb' 96 32⟩
  let peer : BitVec 10 := w.extractLsb' 64 10
  let la := dword w 2
  let ra := dword w 3
  let len : W32 := w.extractLsb' 256 32
  let nmem : W32 := w.extractLsb' 288 32
  let aopw : W32 := w.extractLsb' 320 32
  let rop : BitVec 3 := ctrl.extractLsb' 8 3
  let cgid : BitVec 12 := ctrl.extractLsb' 16 12
  if ctrl.extractLsb' 13 3 != 0#3 || ctrl.extractLsb' 28 4 != 0#4 || w.extractLsb' 48 16 != 0#16
      || w.extractLsb' 74 22 != 0#22 || w.extractLsb' 352 160 != 0#160 then none
  else
    match (ctrl.extractLsb' 0 8).toNat with
    | 1 =>
      if rop == 0#3 && cgid == 0#12 && nmem == 0#32 && aopw == 0#32 then some (.read h peer la ra len) else none
    | 2 =>
      if rop == 0#3 && cgid == 0#12 && nmem == 0#32 && aopw == 0#32 then some (.write h peer la ra len) else none
    | 3 =>
      if rop == 0#3 && cgid == 0#12 && nmem == 0#32 && len == 0#32 && aopw.extractLsb' 5 27 == 0#27 then
        (AOp.ofBits (aopw.extractLsb' 0 4)).map fun aop => .atomic h peer la ra aop (aopw.getLsbD 4)
      else none
    | 4 =>
      if peer == 0#10 && aopw == 0#32 then
        match rop.toNat with
        | 0 => some (.allreduce h .sum cgid la ra len nmem)
        | 1 => some (.allreduce h .max cgid la ra len nmem)
        | 2 => some (.allreduce h .min cgid la ra len nmem)
        | _ => none
      else none
    | 5 => if rop == 0#3 && aopw == 0#32 then some (.broadcast h cgid peer la ra len nmem) else none
    | _ => none

/-- The command of 64 bytes, or none (FABCMD). -/
def decodeCommand (w : BitVec 512) : Option Instr :=
  match commandOf w with
  | some i => if i.commandBad then none else some i
  | none => none

/-- The 512 bits of a command from its fields. -/
def FabHdr.bits (h : FabHdr) (opc : Byte) (rop : BitVec 3) (cgid : BitVec 12) (peer : BitVec 10) (la ra : W64)
    (len nmem aopw : W32) : BitVec 512 :=
  (0#160 : BitVec 160) ++ (aopw ++ (nmem ++ (len ++ (ra ++ (la ++ (h.event ++ ((0#22 : BitVec 22) ++ (peer
    ++ ((0#16 : BitVec 16) ++ (h.seq ++ ((0#4 : BitVec 4) ++ (cgid ++ ((0#3 : BitVec 3) ++ (BitVec.ofBool h.b
    ++ (BitVec.ofBool h.evon ++ (rop ++ opc))))))))))))))))

def ROp.bits : ROp → BitVec 3
  | .sum => 0#3
  | .max => 1#3
  | .min => 2#3

/-- The 512-bit command of a command term. -/
def encodeCommand : Instr → BitVec 512
  | .read h peer la ra len => h.bits 1#8 0#3 0#12 peer la ra len 0#32 0#32
  | .write h peer la ra len => h.bits 2#8 0#3 0#12 peer la ra len 0#32 0#32
  | .atomic h peer la ra aop sz => h.bits 3#8 0#3 0#12 peer la ra 0#32 0#32 ((0#27 : BitVec 27) ++ (BitVec.ofBool sz ++ aop.bits))
  | .allreduce h rop cgid la ra len nmem => h.bits 4#8 rop.bits cgid 0#10 la ra len nmem 0#32
  | .broadcast h cgid root la ra len nmem => h.bits 5#8 0#3 cgid root la ra len nmem 0#32
  | _ => 0#512

/-- What the decoder reads from `nbits` bits: a full word of 96 bits (R69), an operator record of 256 (R375), a fabric
command of 512 (R473). Bits above `nbits` are zero. -/
def decodeTableWord (nbits w : Nat) : Option Instr :=
  if nbits ≤ 96 then
    match decodeWord (BitVec.ofNat 96 w) with
    | .ok i => some i
    | .error _ => none
  else if nbits ≤ 256 then decodeRecord (BitVec.ofNat 256 w)
  else decodeCommand (BitVec.ofNat 512 w)

end Sys2Proof
end

