-- ==== Sys2Proof/Config.lean ====
section
/-!
DEFINITION. What an implementation of the HX4 fixes, and the free values: constants without a body, of which nothing
can be evaluated or proved. A statement that mentions one holds for every value of it.
-/

namespace Sys2Proof

/-- Free value number `n`. `State.fresh` numbers the places that use one (log 7). -/
opaque Config.free : Nat → W64

/-- The PC of Daxah's idle code of a partition (R296, R299; log 10). The spec names the code and gives no address. -/
opaque Config.idlePc : Nat → W64

/-- SHAKE256 of a message, truncated to a number of bytes (R453, R457; log 11). -/
opaque Config.shake256 : List Byte → Nat → List Byte

/-- Whether a signature over a message verifies under a public key (R453; log 11). -/
opaque Config.sigOk : List Byte → List Byte → List Byte → Bool

/-- The device's signature over an attestation report (R457; log 11). -/
opaque Config.attest : List Byte → List Byte

/-- The digest of the Lomfold root key in mask ROM, and the bytes of the mask ROM (R453, R457; log 11). -/
opaque Config.rootDigest : BitVec 512
opaque Config.rom : List Byte

/-- What the bodies of the owner slot and of the configuration block carry (R454, R455): the spec names the values and gives no
layout (log 15). -/
opaque Config.ownerDigest : List Byte → BitVec 512
opaque Config.ownerSerial : List Byte → W32
opaque Config.ownerVendoff : List Byte → Bool
opaque Config.cfgSites : List Byte → List Half
opaque Config.cfgDegok : List Byte → Bool

/-- The way a full L1 set gives up when a line is placed in it (R199; log 9): from the line numbers the set holds and a
fresh number, a position in that list. -/
opaque Config.victim : List Nat → Nat → Nat

end Sys2Proof
end

