-- ==== Sys2Proof/Machine/Fp.lean ====
section
/-!
DEFINITION. Number formats, rounding, conversions, the special functions, Philox and the matrix summation rule
(R11–R33, R125–R139), as functions of bit patterns.
-/

namespace Sys2Proof.Machine

/-! ### Flags -/

/-- The sticky flags in the order of TSR (R57). -/
abbrev Flags := BitVec 5
def flIV : Flags := 16#5
def flDZ : Flags := 8#5
def flOF : Flags := 4#5
def flUF : Flags := 2#5
def flNX : Flags := 1#5
def flIf (b : Bool) (f : Flags) : Flags := if b then f else 0#5

/-- A result pattern with the flags it raises. -/
structure FR where
  bits : Nat
  fl : Flags
  deriving DecidableEq, Repr

/-! ### Formats (R11, R17) -/

/-- A floating-point format: width, mantissa bits, bias, pattern of the largest finite magnitude, of infinity and of the
default NaN, and whether its NaNs can signal (R18). -/
structure FFmt where
  w : Nat
  mb : Nat
  bias : Int
  maxB : Nat
  inf : Option Nat
  nan : Option Nat
  sig : Bool
  deriving DecidableEq, Repr

def fmt32 : FFmt := ⟨32, 23, 127, 0x7F7FFFFF, some 0x7F800000, some 0x7FC00000, true⟩
def fmtBf : FFmt := ⟨16, 7, 127, 0x7F7F, some 0x7F80, some 0x7FC0, true⟩
def fmt16 : FFmt := ⟨16, 10, 15, 0x7BFF, some 0x7C00, some 0x7E00, true⟩
def fmtE4M3 : FFmt := ⟨8, 3, 7, 0x7E, none, some 0x7F, false⟩
def fmtE5M2 : FFmt := ⟨8, 2, 15, 0x7B, some 0x7C, some 0x7E, false⟩
def fmtE3M2 : FFmt := ⟨6, 2, 3, 0x1F, none, none, false⟩
def fmtE2M3 : FFmt := ⟨6, 3, 1, 0x1F, none, none, false⟩
def fmtE2M1 : FFmt := ⟨4, 1, 1, 0x7, none, none, false⟩

/-- The floating-point format of an element of a format code; none for the integer elements (R11, R12). -/
def elemFmt : Fmt → Option FFmt
  | .fp32 => some fmt32 | .bf16 => some fmtBf | .fp16 => some fmt16
  | .e4m3 | .mxe4m3 => some fmtE4M3 | .e5m2 | .mxe5m2 => some fmtE5M2
  | .e3m2 | .mxe3m2 => some fmtE3M2 | .e2m3 | .mxe2m3 => some fmtE2M3
  | .e2m1 | .mxe2m1 => some fmtE2M1
  | .int8 | .int4 | .mxint8 => none

/-- Bits of one element of a format code (R11, R12). -/
def elemBits : Fmt → Nat
  | .fp32 => 32 | .bf16 | .fp16 => 16
  | .e4m3 | .e5m2 | .int8 | .mxe4m3 | .mxe5m2 | .mxint8 => 8
  | .e3m2 | .e2m3 | .mxe3m2 | .mxe2m3 => 6
  | .e2m1 | .int4 | .mxe2m1 => 4

/-! ### Values -/

/-- What a pattern stands for: a NaN, an infinity, or the exact value (−1)^neg · m · 2^e. -/
inductive FVal where
  | nan (sig : Bool)
  | inf (neg : Bool)
  | fin (neg : Bool) (m : Nat) (e : Int)
  deriving DecidableEq, Repr

def FVal.isNan : FVal → Bool | .nan _ => true | _ => false
def FVal.isSig : FVal → Bool | .nan s => s | _ => false
def FVal.isInf : FVal → Bool | .inf _ => true | _ => false
def FVal.isZero : FVal → Bool | .fin _ 0 _ => true | _ => false
def FVal.sign : FVal → Bool | .nan _ => false | .inf n => n | .fin n _ _ => n
/-- The value with its sign flipped where `b`. -/
def FVal.flip (b : Bool) : FVal → FVal
  | .nan s => .nan s
  | .inf n => .inf (n != b)
  | .fin n m e => .fin (n != b) m e

/-- R11, R18: the value of a pattern. -/
def FFmt.decode (f : FFmt) (x : Nat) : FVal :=
  let top := 2 ^ (f.w - 1)
  let neg := x / top % 2 == 1
  let mag := x % top
  let isnan := match f.inf, f.nan with
    | some i, _ => decide (mag > i)
    | none, some n => mag == n
    | none, none => false
  if isnan then .nan (f.sig && mag / 2 ^ (f.mb - 1) % 2 == 0)
  else if f.inf == some mag then .inf neg
  else
    let ef := mag / 2 ^ f.mb
    let fr := mag % 2 ^ f.mb
    if ef = 0 then .fin neg fr (1 - f.bias - f.mb) else .fin neg (2 ^ f.mb + fr) (ef - f.bias - f.mb)

/-- floor(log2 n) for n > 0. -/
def lg (n : Nat) : Int := (Nat.log2 n : Nat)

/-! ### Rounding (R19–R23, R27) -/

/-- m · 2^e as a multiple of 2^q under a rounding mode, and whether it is inexact. `rb` is the random half-word of R21. -/
def quantise (rm : Rm) (rb : Nat) (neg : Bool) (m : Nat) (e q : Int) : Nat × Bool :=
  if q ≤ e then (m * 2 ^ (e - q).toNat, false)
  else
    let s := (q - e).toNat
    let n := m / 2 ^ s
    let rem := m % 2 ^ s
    let up : Bool := match rm with
      | .rne => decide (2 * rem > 2 ^ s) || (2 * rem == 2 ^ s && n % 2 == 1)
      | .rz => false
      | .ru => !neg && rem != 0
      | .rd => neg && rem != 0
      | .sr => decide (rem * 65536 / 2 ^ s + rb ≥ 65536)
    (if up then n + 1 else n, rem != 0)

/-- The pattern of a sign and a magnitude pattern. -/
def FFmt.signed (f : FFmt) (neg : Bool) (mag : Nat) : Nat := if neg then 2 ^ (f.w - 1) + mag else mag

/-- R23, the row of a magnitude above Max. -/
def FFmt.over (f : FFmt) (rm : Rm) (sat neg : Bool) : FR :=
  let toMax := sat || (match rm with | .rz => true | .ru => neg | .rd => !neg | _ => false)
  match f.inf with
  | some i => ⟨f.signed neg (if toMax then f.maxB else i), flOF ||| flNX⟩
  | none => ⟨f.signed neg f.maxB, flOF ||| flNX⟩

/-- R19–R23, R27: the exact nonzero value (−1)^neg · m · 2^e rounded once to a format. -/
def FFmt.round (f : FFmt) (rm : Rm) (rb : Nat) (sat neg : Bool) (m : Nat) (e : Int) : FR :=
  if m = 0 then ⟨f.signed neg 0, 0⟩
  else
    let emin := 1 - f.bias
    let top := lg m + e
    let q := max top emin - f.mb
    let (n, ix) := quantise rm rb neg m e q
    let mag := ((q + f.mb + f.bias - 1) * (2 : Int) ^ f.mb + n).toNat
    if mag > f.maxB then f.over rm sat neg
    else
      let nu := (quantise rm rb neg m e (top - f.mb)).1
      let tiny := decide (top < emin) && !(top == emin - 1 && decide (nu ≥ 2 ^ (f.mb + 1)))
      ⟨f.signed neg mag, flIf ix flNX ||| flIf (ix && tiny) flUF⟩

/-- The default NaN of a format (R17); a format without NaN takes +0 and IV (R23). -/
def FFmt.ofNan (f : FFmt) (sig : Bool) : FR :=
  match f.nan with
  | some n => ⟨n, flIf sig flIV⟩
  | none => ⟨0, flIV⟩

/-- R23, R24: a value converted to a format. -/
def FFmt.conv (f : FFmt) (rm : Rm) (rb : Nat) (sat : Bool) : FVal → FR
  | .nan s => f.ofNan s
  | .inf n => match f.inf with
    | some i => if sat then ⟨f.signed n f.maxB, flOF⟩ else ⟨f.signed n i, 0⟩
    | none => ⟨f.signed n f.maxB, flOF⟩
  | .fin n m e => f.round rm rb sat n m e

/-- A 32-bit two's-complement reading and other widths. -/
def sint (w x : Nat) : Int := if x % 2 ^ w ≥ 2 ^ (w - 1) then (x % 2 ^ w : Nat) - (2 : Int) ^ w else (x % 2 ^ w : Nat)
/-- An integer modulo 2^w. -/
def wrap (w : Nat) (x : Int) : Nat := (x % (2 : Int) ^ w).toNat

/-- R25: a value converted to an integer of `w` bits, saturating. -/
def toInt (w : Nat) (signed : Bool) (rm : Rm) : FVal → FR
  | .nan _ => ⟨0, flIV⟩
  | .inf n =>
    ⟨wrap w (if n then (if signed then -(2 : Int) ^ (w - 1) else 0)
      else (if signed then (2 : Int) ^ (w - 1) - 1 else (2 : Int) ^ w - 1)), flIV⟩
  | .fin n m e =>
    let lo : Int := if signed then -(2 : Int) ^ (w - 1) else 0
    let hi : Int := if signed then (2 : Int) ^ (w - 1) - 1 else (2 : Int) ^ w - 1
    let (k, ix) := quantise rm 0 n m e 0
    let v : Int := if n then -(k : Int) else k
    if v < lo then ⟨wrap w lo, flIV⟩ else if v > hi then ⟨wrap w hi, flIV⟩ else ⟨wrap w v, flIf ix flNX⟩

/-- The exact value of an integer. -/
def ofInt (x : Int) : FVal := .fin (decide (x < 0)) x.natAbs 0

/-! ### Exact sums and products (R125, R126) -/

/-- A product: invalid for 0 · ∞ (none); NaN factors are judged by the caller. A zero product of integers has the sign of its factors, as
any other (log 119). -/
def fmulVal : FVal → FVal → Option FVal
  | .nan s, _ | _, .nan s => some (.nan s)
  | .inf a, .inf b => some (.inf (a != b))
  | .inf a, .fin b m _ | .fin b m _, .inf a => if m = 0 then none else some (.inf (a != b))
  | .fin a m e, .fin b n k => some (.fin (a != b) (m * n) (e + k))

/-- The least exponent of some values. -/
def minExp : List FVal → Int → Int
  | [], d => d
  | .fin _ m e :: t, d => if m = 0 then minExp t d else minExp t (min e d)
  | _ :: t, d => minExp t d

/-- The exact sum of finite values in units of 2^e. -/
def sumAt (e : Int) : List FVal → Int
  | [] => 0
  | .fin n m k :: t =>
    let x : Int := (m : Int) * 2 ^ (k - e).toNat
    (if n then -x else x) + sumAt e t
  | _ :: t => sumAt e t

/-- An upper bound above every exponent in use. -/
def expTop : Int := 100000

/-- R125, R126: the sum of addends (none: an invalid product), rounded once; `srcs` are the sources read. -/
def fsumRound (f : FFmt) (rm : Rm) (srcs : List FVal) (adds : List (Option FVal)) : FR :=
  if srcs.any FVal.isNan then f.ofNan (srcs.any FVal.isSig)
  else
    let xs := adds.filterMap id
    if adds.any Option.isNone || (xs.any (· == .inf true) && xs.any (· == .inf false)) then
      ⟨(f.nan.getD 0), flIV⟩
    else if xs.any (· == .inf true) then f.conv rm 0 false (.inf true)
    else if xs.any (· == .inf false) then f.conv rm 0 false (.inf false)
    else if xs.all FVal.isZero then ⟨f.signed (xs.all FVal.sign) 0, 0⟩
    else
      let e := minExp xs expTop
      let s := sumAt e xs
      if s = 0 then ⟨f.signed (rm = .rd) 0, 0⟩ else f.round rm 0 false (decide (s < 0)) s.natAbs e

def fadd32 (rm : Rm) (x y : Nat) : FR :=
  fsumRound fmt32 rm [fmt32.decode x, fmt32.decode y] [some (fmt32.decode x), some (fmt32.decode y)]
def fsub32 (rm : Rm) (x y : Nat) : FR :=
  fsumRound fmt32 rm [fmt32.decode x, fmt32.decode y] [some (fmt32.decode x), some ((fmt32.decode y).flip true)]
def fmulAs (f : FFmt) (rm : Rm) (x y : FVal) : FR := fsumRound f rm [x, y] [fmulVal x y]
def ffmaAs (f : FFmt) (rm : Rm) (np nc : Bool) (x y z : FVal) : FR :=
  fsumRound f rm [x, y, z] [(fmulVal x y).map (FVal.flip np), some (z.flip nc)]

/-- R128: a0·b0 + a1·b1 + c with one rounding. -/
def fdot2As (rm : Rm) (a0 a1 b0 b1 c : FVal) : FR :=
  fsumRound fmt32 rm [a0, a1, b0, b1, c] [fmulVal a0 b0, fmulVal a1 b1, some c]

/-! ### Order (R131, R132) -/

/-- The key of the order of R131: patterns as sign and magnitude, −0 below +0. -/
def fkey (x : Nat) : Int := if x ≥ 2 ^ 31 then -((x % 2 ^ 31 : Nat) : Int) - 1 else x

/-- R131: the four minimum and maximum forms; `num` keeps the number against one NaN. -/
def fminmax (isMax num : Bool) (x y : Nat) : FR :=
  let a := fmt32.decode x
  let b := fmt32.decode y
  let fl := flIf (a.isSig || b.isSig) flIV
  if a.isNan && b.isNan then ⟨0x7FC00000, fl⟩
  else if a.isNan || b.isNan then ⟨if num then (if a.isNan then y else x) else 0x7FC00000, fl⟩
  else ⟨if isMax then (if fkey x ≥ fkey y then x else y) else (if fkey x ≤ fkey y then x else y), fl⟩

/-- The sign-aware value order for comparisons: −0 equals +0. -/
def fcmpKey (x : Nat) : Int := if x % 2 ^ 31 = 0 then 0 else fkey x

/-- R132. -/
def fcmpRes (c : FCond) (x y : Nat) : Bool × Flags :=
  let a := fmt32.decode x
  let b := fmt32.decode y
  let un := a.isNan || b.isNan
  let quiet : Bool := match c with | .lt | .le | .gt | .ge => un | _ => false
  let kx := fcmpKey x
  let ky := fcmpKey y
  let r : Bool := match c with
    | .eq => !un && kx == ky | .ne => un || kx != ky
    | .lt => !un && decide (kx < ky) | .le => !un && decide (kx ≤ ky)
    | .gt => !un && decide (kx > ky) | .ge => !un && decide (kx ≥ ky)
    | .un => un
  (r, flIf (a.isSig || b.isSig || quiet) flIV)

/-- R133. -/
def fclassBits (x : Nat) : Nat :=
  let mag := x % 2 ^ 31
  let neg := decide (x ≥ 2 ^ 31)
  if mag > 0x7F800000 then (if mag / 2 ^ 22 % 2 = 0 then 2 ^ 8 else 2 ^ 9)
  else if mag = 0x7F800000 then (if neg then 1 else 2 ^ 7)
  else if mag = 0 then (if neg then 2 ^ 3 else 2 ^ 4)
  else if mag < 2 ^ 23 then (if neg then 2 ^ 2 else 2 ^ 5)
  else (if neg then 2 else 2 ^ 6)

/-- R134: `frnd`. -/
def frndBits (rm : Rm) (x : Nat) : FR :=
  match fmt32.decode x with
  | .nan s => ⟨0x7FC00000, flIf s flIV⟩
  | .inf _ => ⟨x, 0⟩
  | .fin n m e =>
    let (k, ix) := quantise rm 0 n m e 0
    if ix then ⟨(fmt32.round .rne 0 false n k 0).bits, 0⟩ else ⟨x, 0⟩

/-- R135: `fscl`. -/
def fsclBits (rm : Rm) (x : Nat) (n : Int) : FR :=
  match fmt32.decode x with
  | .nan s => ⟨0x7FC00000, flIf s flIV⟩
  | .inf _ => ⟨x, 0⟩
  | .fin s m e => if m = 0 then ⟨x, 0⟩ else fmt32.round rm 0 false s m (e + n)

/-! ### Special functions (R30) -/

/-- floor(√n), by bits from `2^k` down. -/
def isqrtFrom : Nat → Nat → Nat → Nat
  | 0, _, r => r
  | k + 1, n, r => isqrtFrom k n (if (r + 2 ^ k) * (r + 2 ^ k) ≤ n then r + 2 ^ k else r)
/-- floor(√n). -/
def isqrt (n : Nat) : Nat := isqrtFrom (Nat.log2 n / 2 + 1) n 0

/-- A value between m and m + 1 units of 2^e, exactly m when `ex`, rounded to FP32 under RNE. -/
def roundSticky (neg : Bool) (m : Nat) (e : Int) (ex : Bool) : FR :=
  fmt32.round .rne 0 false neg (if ex then 4 * m else 4 * m + 1) (e - 2)

/-- Σ (x²)^k x / (2k+1) from k on, in fixed point of `p` bits: atanh x for x = 1/d. -/
def atanhInv (p d : Nat) : Nat → Nat → Nat → Nat
  | 0, _, _ => 0
  | n + 1, k, pw => pw / (2 * k + 1) + atanhInv p d n (k + 1) (pw / (d * d))
/-- Σ (−1)^k x^(2k+1) / (2k+1) for x = 1/d. -/
def atanInv (p d : Nat) : Nat → Nat → Nat → Int
  | 0, _, _ => 0
  | n + 1, k, pw => (if k % 2 = 0 then ((pw / (2 * k + 1) : Nat) : Int) else -((pw / (2 * k + 1) : Nat) : Int))
      + atanInv p d n (k + 1) (pw / (d * d))

/-- ln 2 = 2 atanh(1/3) in units of 2^−p. -/
def ln2Fix (p : Nat) : Nat := 2 * atanhInv p 3 (p / 3 + 4) 0 (2 ^ p / 3)
/-- π = 16 atan(1/5) − 4 atan(1/239) in units of 2^−p. -/
def piFix (p : Nat) : Nat :=
  (16 * atanInv p 5 (p / 4 + 4) 0 (2 ^ p / 5) - 4 * atanInv p 239 (p / 15 + 4) 0 (2 ^ p / 239)).toNat

/-- Σ t^k / k! from term `cur` = t^k / k! on, t in units of 2^−p: e^t for t ≥ 0. -/
def expSeries (p t : Nat) : Nat → Nat → Nat → Nat
  | 0, _, _ => 0
  | n + 1, k, cur => cur + expSeries p t n (k + 1) (cur * t / 2 ^ p / (k + 1))
def expFix (p t : Nat) : Nat := expSeries p t (p / 2 + 8) 0 (2 ^ p)

/-- Σ (−1)^j t^(k+2j) / (k+2j)! from term `cur` on: the sine (k = 1) and cosine (k = 0) series. -/
def trigSeries (p t : Nat) : Nat → Nat → Bool → Nat → Int
  | 0, _, _, _ => 0
  | n + 1, k, neg, cur =>
    (if neg then -(cur : Int) else cur) + trigSeries p t n (k + 2) (!neg) (cur * t / 2 ^ p * t / 2 ^ p / ((k + 1) * (k + 2)))
def sinFix (p t : Nat) : Int := trigSeries p t (p / 4 + 8) 1 false t
def cosFix (p t : Nat) : Int := trigSeries p t (p / 4 + 8) 0 false (2 ^ p)

/-- atanh of t in [0, 1/3] by its series, in units of 2^−p. -/
def atanhSeries (p t2 : Nat) : Nat → Nat → Nat → Nat
  | 0, _, _ => 0
  | n + 1, k, pw => pw / (2 * k + 1) + atanhSeries p t2 n (k + 1) (pw * t2 / 2 ^ p)
/-- ln y for y = n / d in [1, 2], in units of 2^−p. -/
def lnFix (p n d : Nat) : Nat :=
  let t := (n - d) * 2 ^ p / (n + d)
  2 * atanhSeries p (t * t / 2 ^ p) (p / 3 + 8) 0 t

/-- A bound on the accumulated error of the series above, in units of the last place. -/
def fixErr : Nat := 4096

/-- A positive real within `fixErr` units of m · 2^e, not a rounding boundary, rounded to FP32 under RNE: the pattern
when both ends of the interval round alike. -/
def roundNear (neg : Bool) (m : Nat) (e : Int) : Option FR :=
  let lo := roundSticky neg (m - fixErr) e false
  let hi := roundSticky neg (m + fixErr) e false
  if lo.bits = hi.bits then some lo else none

/-- The first precision at which the interval rounds to one pattern. -/
def atPrecision (f : Nat → Bool × Nat × Int) : List Nat → FR
  | [] => ⟨0x7FC00000, 0⟩
  | p :: t =>
    let (neg, m, e) := f p
    match roundNear neg m e with
    | some r => r
    | none => if t.isEmpty then roundSticky neg m e false else atPrecision f t

/-- The precisions tried, in bits after the point. -/
def precisions : List Nat := [400, 800, 1600]

/-- x = m · 2^e in units of 2^−p (e may be negative; p is large enough to make it exact). -/
def fixOf (p m : Nat) (e : Int) : Nat := if e + p ≥ 0 then m * 2 ^ (e + p).toNat else m / 2 ^ (-(e + p)).toNat

/-- 2^x for x = (−1)^neg · m · 2^e, not an integer: 2^n · e^(f ln 2) with n = floor x. -/
def exp2Fix (neg : Bool) (m : Nat) (e : Int) (p : Nat) : Bool × Nat × Int :=
  let x : Int := if neg then -(fixOf p m e : Int) else fixOf p m e
  let n := x.fdiv (2 ^ p)
  let f := (x - n * 2 ^ p).toNat
  (false, expFix p (f * ln2Fix p / 2 ^ p), n - p)

def fexp2Bits (x : Nat) : FR :=
  match fmt32.decode x with
  | .nan s => ⟨0x7FC00000, flIf s flIV⟩
  | .inf n => ⟨if n then 0 else 0x7F800000, 0⟩
  | .fin n m e =>
    if m = 0 then ⟨0x3F800000, 0⟩
    else if lg m + e ≥ 9 then fmt32.round .rne 0 false false 1 (if n then -512 else 512)
    else if quantise .rz 0 n m e 0 |>.2 then atPrecision (exp2Fix n m e) precisions
    else
      let k : Int := (quantise .rz 0 n m e 0).1
      fmt32.round .rne 0 false false 1 (if n then -k else k)

/-- log2 of m · 2^e: E + ln(y) / ln 2 with y in [1, 2). -/
def log2Fix (m : Nat) (e : Int) (p : Nat) : Bool × Nat × Int :=
  let k := Nat.log2 m
  let ip : Int := (e + k) * 2 ^ p
  let fp : Int := (lnFix p m (2 ^ k) * 2 ^ p / ln2Fix p : Nat)
  let v := ip + fp
  (decide (v < 0), v.natAbs, -(p : Int))

def flog2Bits (x : Nat) : FR :=
  match fmt32.decode x with
  | .nan s => ⟨0x7FC00000, flIf s flIV⟩
  | .inf n => if n then ⟨0x7FC00000, flIV⟩ else ⟨0x7F800000, 0⟩
  | .fin n m e =>
    if m = 0 then ⟨0xFF800000, flDZ⟩
    else if n then ⟨0x7FC00000, flIV⟩
    else if m = 2 ^ Nat.log2 m then
      let v := lg m + e
      fmt32.round .rne 0 false (decide (v < 0)) v.natAbs 0
    else atPrecision (log2Fix m e) precisions

def frcpBits (x : Nat) : FR :=
  match fmt32.decode x with
  | .nan s => ⟨0x7FC00000, flIf s flIV⟩
  | .inf n => ⟨fmt32.signed n 0, 0⟩
  | .fin n m e =>
    if m = 0 then ⟨fmt32.signed n 0x7F800000, flDZ⟩
    else roundSticky n (2 ^ 80 / m) (-80 - e) (2 ^ 80 % m = 0)

/-- m · 2^e with an even exponent. -/
def evenExp (m : Nat) (e : Int) : Nat × Int := if e % 2 = 0 then (m, e) else (2 * m, e - 1)

def frsqBits (x : Nat) : FR :=
  match fmt32.decode x with
  | .nan s => ⟨0x7FC00000, flIf s flIV⟩
  | .inf n => if n then ⟨0x7FC00000, flIV⟩ else ⟨0, 0⟩
  | .fin n m e =>
    if m = 0 then ⟨fmt32.signed n 0x7F800000, flDZ⟩
    else if n then ⟨0x7FC00000, flIV⟩
    else
      let (k, f) := evenExp m e
      let r := isqrt (2 ^ 160 / k)
      roundSticky false r (-80 - f / 2) (r * r * k = 2 ^ 160)

def fsqrtBits (x : Nat) : FR :=
  match fmt32.decode x with
  | .nan s => ⟨0x7FC00000, flIf s flIV⟩
  | .inf n => if n then ⟨0x7FC00000, flIV⟩ else ⟨0x7F800000, 0⟩
  | .fin n m e =>
    if m = 0 then ⟨x, 0⟩
    else if n then ⟨0x7FC00000, flIV⟩
    else
      let (k, f) := evenExp m e
      let r := isqrt (k * 2 ^ 80)
      roundSticky false r (f / 2 - 40) (r * r = k * 2 ^ 80)

/-- x = q · π/2 + r with |r| ≤ π/4: q mod 4, the sign of r, and |r| in units of 2^−p. -/
def reduce (m : Nat) (e : Int) (p : Nat) : Nat × Bool × Nat :=
  let g := p + 160
  let h := piFix g                      -- π in units of 2^−g; π/2 in units of 2^−(g+1)
  let x := fixOf (g + 1) m e            -- x in units of 2^−(g+1)
  let q := (x + h / 2) / h
  let r : Int := (x : Int) - q * h
  (q % 4, decide (r < 0), r.natAbs / 2 ^ 161)

/-- sin (`shift` 0) or cos (`shift` 1) of (−1)^neg · m · 2^e, in units of 2^−p. -/
def trigFix (shift : Nat) (neg : Bool) (m : Nat) (e : Int) (p : Nat) : Bool × Nat × Int :=
  let (q, rn, r) := reduce m e p
  let k := (q + shift) % 4
  let v : Int := match k with
    | 0 => if rn then -(sinFix p r) else sinFix p r
    | 1 => cosFix p r
    | 2 => if rn then sinFix p r else -(sinFix p r)
    | _ => -(cosFix p r)
  let v := if neg && shift = 0 then -v else v
  (decide (v < 0), v.natAbs, -(p : Int))

def fsinBits (x : Nat) : FR :=
  match fmt32.decode x with
  | .nan s => ⟨0x7FC00000, flIf s flIV⟩
  | .inf _ => ⟨0x7FC00000, flIV⟩
  | .fin n m e => if m = 0 then ⟨x, 0⟩ else atPrecision (trigFix 0 n m e) precisions

def fcosBits (x : Nat) : FR :=
  match fmt32.decode x with
  | .nan s => ⟨0x7FC00000, flIf s flIV⟩
  | .inf _ => ⟨0x7FC00000, flIV⟩
  | .fin n m e => if m = 0 then ⟨0x3F800000, 0⟩ else atPrecision (trigFix 1 n m e) precisions

/-- tanh: (E − 1) / (E + 1) with E = e^(2|x|), |x| < 32. -/
def tanhFix (neg : Bool) (m : Nat) (e : Int) (p : Nat) : Bool × Nat × Int :=
  let t := fixOf p m (e + 1)
  let l := ln2Fix p
  let n := t / l
  let ex := expFix p (t % l) * 2 ^ n
  (neg, (ex - 2 ^ p) * 2 ^ p / (ex + 2 ^ p), -(p : Int))

def ftanhBits (x : Nat) : FR :=
  match fmt32.decode x with
  | .nan s => ⟨0x7FC00000, flIf s flIV⟩
  | .inf n => ⟨fmt32.signed n 0x3F800000, 0⟩
  | .fin n m e =>
    if m = 0 then ⟨x, 0⟩
    else if lg m + e ≥ 5 then ⟨fmt32.signed n 0x3F800000, flNX⟩
    else atPrecision (tanhFix n m e) precisions

/-! ### Philox (R138, R139, R22) -/

/-- One round of Philox-4×32. -/
def philoxRound (k0 k1 : W32) (x : W32 × W32 × W32 × W32) : W32 × W32 × W32 × W32 :=
  let (x0, x1, x2, x3) := x
  let p0 : W64 := 0xD2511F53#64 * x0.setWidth 64
  let p1 : W64 := 0xCD9E8D57#64 * x2.setWidth 64
  (p1.extractLsb' 32 32 ^^^ x1 ^^^ k0, p1.extractLsb' 0 32, p0.extractLsb' 32 32 ^^^ x3 ^^^ k1, p0.extractLsb' 0 32)

def philoxFrom : Nat → W32 → W32 → W32 × W32 × W32 × W32 → W32 × W32 × W32 × W32
  | 0, _, _, x => x
  | n + 1, k0, k1, x => philoxFrom n (k0 + 0x9E3779B9#32) (k1 + 0xBB67AE85#32) (philoxRound k0 k1 x)

/-- R138: the four output words for a key and a counter C:B. -/
def philox (key : W64) (ctr : BitVec 128) : W32 × W32 × W32 × W32 :=
  philoxFrom 10 (key.extractLsb' 0 32) (key.extractLsb' 32 32)
    (ctr.extractLsb' 0 32, ctr.extractLsb' 32 32, ctr.extractLsb' 64 32, ctr.extractLsb' 96 32)

/-- The 128-bit output, word 0 lowest (R22). -/
def philox128 (key : W64) (ctr : BitVec 128) : BitVec 128 :=
  let (x0, x1, x2, x3) := philox key ctr
  x3 ++ (x2 ++ (x1 ++ x0))

/-- R22: the random half-word of element e under a key and a counter. -/
def srBits (key : W64) (ctr : BitVec 128) (e : Nat) : Nat :=
  ((philox128 key (ctr + BitVec.ofNat 128 (e / 8))).extractLsb' (16 * (e % 8)) 16).toNat

/-- R139. -/
def rngFloat (w : W32) : W32 :=
  BitVec.ofNat 32 (fmt32.round .rne 0 false false (2 * (w.toNat / 2 ^ 9) + 1) (-24)).bits

/-! ### MX blocks (R13, R26) -/

/-- The value of an element pattern of a format code (R11–R13), MXINT8 as element · 2^−6. -/
def elemVal (f : Fmt) (x : Nat) : FVal :=
  match elemFmt f with
  | some g => g.decode x
  | none => match f with
    | .int4 => ofInt (sint 4 x)
    | .mxint8 => match ofInt (sint 8 x) with
      | .fin n m e => .fin n m (e - 6)
      | v => v
    | _ => ofInt (sint 8 x)

/-- R13: an element times its block's scale; the scale byte 0xFF makes every element a quiet NaN. -/
def mxVal (f : Fmt) (scale : Byte) (x : Nat) : FVal :=
  if scale = 0xFF#8 then .nan false
  else match elemVal f x with
    | .fin n m e => .fin n m (e + scale.toNat - 127)
    | v => v

/-- emax of R26. -/
def mxEmax : Fmt → Int
  | .mxe4m3 => 8 | .mxe5m2 => 15 | .mxe3m2 => 4 | .mxe2m3 | .mxe2m1 => 2 | _ => 0

/-- R26, R22: the elements, the scale byte and each element's flags, of 32 values; `rb` gives each element's random
half-word. A block with a NaN or an infinity raises IV for the block. An MXINT8 element that saturates raises OF and NX, none raises
UF (log 120). -/
def mxBlock (f : Fmt) (rm : Rm) (rb : Nat → Nat) (xs : List FVal) : List FR × Byte × Flags :=
  if xs.any (fun x => x.isNan || x.isInf) then (xs.map (fun _ => ⟨0, 0⟩), 0xFF#8, flIV)
  else if xs.all FVal.isZero then (xs.map (fun _ => ⟨0, 0⟩), 0#8, 0)
  else
    let m := xs.foldl (fun a x => match x with
      | .fin _ n e => if n = 0 then a else max a (lg n + e)
      | _ => a) (-expTop)
    let ex := max (-127) (min 127 (m - mxEmax f))
    let el (i : Nat) (x : FVal) : FR :=
      let y := match x with | .fin n k e => .fin n k (e - ex) | v => v
      match elemFmt f with
      | some g => if y.isZero then g.conv .rne 0 true y else g.conv rm (rb i) true y
      | none => match y with
        | .fin n k e =>
          let r := toInt 8 true rm (.fin n k (e + 6))
          ⟨r.bits, if r.fl &&& flIV = 0#5 then r.fl else flOF ||| flNX⟩
        | _ => ⟨0, 0⟩
    ((List.range xs.length).zipWith (fun i x => el i x) xs, BitVec.ofNat 8 (ex + 127).toNat, 0)

/-! ### The matrix summation rule (R32) -/

/-- Whether a value has nonzero bits below 2^t. -/
def belowWindow (t : Int) : FVal → Bool
  | .fin _ m e => decide (e < t) && m % 2 ^ (t - e).toNat != 0
  | _ => false

/-- A value truncated toward zero to a multiple of 2^t, in units of 2^t. -/
def truncAt (t : Int) : FVal → Int
  | .fin n m e =>
    let k : Nat := if e < t then m / 2 ^ (t - e).toNat else m * 2 ^ (e - t).toNat
    if n then -(k : Int) else k
  | _ => 0

/-- R32: `adds` are the products (none: 0 · ∞) and c; `anyNan` and `anySig` say whether an operand is a NaN, a signalling
NaN. -/
def matSum (anyNan anySig : Bool) (adds : List (Option FVal)) : FR :=
  let xs := adds.filterMap id
  if adds.any Option.isNone || xs.any FVal.isNan || (xs.any (· == .inf true) && xs.any (· == .inf false)) then
    ⟨0x7FC00000, flIf (anySig || !anyNan) flIV⟩
  else if xs.any (· == .inf true) then ⟨0xFF800000, 0⟩
  else if xs.any (· == .inf false) then ⟨0x7F800000, 0⟩
  else if xs.all FVal.isZero then ⟨fmt32.signed (xs.all FVal.sign) 0, 0⟩
  else
    let emax := xs.foldl (fun a x => match x with
      | .fin _ n e => if n = 0 then a else max a (lg n + e)
      | _ => a) (-expTop)
    let t := emax - 47
    let lost := xs.any (belowWindow t)
    let s : Int := xs.foldl (fun a x => a + truncAt t x) 0
    if s = 0 then ⟨0, flIf lost flNX⟩
    else
      let r := fmt32.round .rne 0 false (decide (s < 0)) s.natAbs t
      let tiny : Bool := Nat.blt (r.bits % 2 ^ 31) (2 ^ 23)
      ⟨r.bits, r.fl ||| flIf lost flNX ||| flIf (lost && tiny) flUF⟩

/-! ### CRC-32C (R311) -/

/-- Eight steps of the reflected polynomial. -/
def crcStep : Nat → W32 → W32
  | 0, c => c
  | n + 1, c => crcStep n (if c.getLsbD 0 then (c >>> 1) ^^^ 0x82F63B78#32 else c >>> 1)

def crcFrom (c : W32) : List Byte → W32
  | [] => c
  | b :: t => crcFrom (crcStep 8 (c ^^^ b.setWidth 32)) t

/-- CRC-32C: reflected polynomial 0x1EDC_6F41, initial value and final XOR all ones. -/
def crc32c (l : List Byte) : W32 := crcFrom 0xFFFFFFFF#32 l ^^^ 0xFFFFFFFF#32

end Sys2Proof.Machine
end

