-- ==== Sys2Proof/Machine/State.lean ====
section
/-!
DEFINITION. The state of an HX4 package as plain data: threads, groups, teams, cores, clusters, dies, memory, the
accession unit, the hub and the fabric station (INVENTORY.md lists every field with the rule that names it), and
`State.reset`. The last four fields of `State` are the model's own: who acts, who acts next, and the number of the next
free value (log 3, log 7).
-/

namespace Sys2Proof.Machine

/-! ### Threads and groups (02, 06) -/

/-- An entry of the loop stack (R144). -/
structure LoopEnt where
  start : W64
  stop : W64
  count : W32
  deriving DecidableEq, Repr

/-- What a fence reports of a thread's stores since its last fence (R182): the first failing unit, the count, the POISON and DEADLINK
bits, and of dropped messages their number and whether the first came before every other failure: only a fence at cluster scope or wider
reports those (R339). -/
structure FailRec where
  unit : Half
  count : Nat
  pois : Bool
  dead : Bool
  drops : Nat
  dropFirst : Bool
  deriving DecidableEq, Repr

def FailRec.none : FailRec := ⟨0, 0, false, false, 0, false⟩

/-- A thread (R36, R57, R144, R158). -/
structure Thread where
  pc : W64
  cdepth : Nat
  rstack : List W64
  loops : List LoopEnt
  ppriv : Priv
  priv : Priv
  flags : BitVec 5
  preds : BitVec 7
  tcause : W32
  tpc : W64
  taddr : W64
  wait : Option Instr
  yielded : Bool
  age : Nat
  pend : Option W64
  fail : FailRec
  deriving DecidableEq, Repr

def Thread.zero : Thread :=
  { pc := 0, cdepth := 0, rstack := [], loops := [], ppriv := .user, priv := .user, flags := 0, preds := 0
    tcause := 0, tpc := 0, taddr := 0, wait := none, yielded := false, age := 0, pend := none, fail := .none }

/-- A word that an outstanding load will write to a lane of a varying register. -/
structure VWrite where
  lane : Nat
  reg : Nat
  val : W32
  deriving DecidableEq, Repr

/-- A translated part of an access: physical address, bytes, page kind (0 SO, 1 RC, 2 UO) and SO scope. -/
structure Xl where
  pa : Nat
  len : Nat
  kind : Nat
  scope : Nat
  deriving DecidableEq, Repr

/-- Where an access goes (R165): translated parts of global memory, a byte of a core's scratchpad, a byte of a thread's stack (its
key, and the place in memory that backs it where its page is mapped: R309), a device register. -/
inductive Target where
  | glob (xs : List Xl)
  | sp (cid ofs : Nat)
  | stack (key : Nat) (x : Option Xl)
  | dev (ofs : Nat)
  deriving DecidableEq, Repr

/-- An access of an outstanding instruction, or a part of one inside a line: its lane (32: once for the group), its address and the
two words it was formed from, its target, the source registers' bytes as they stood at issue, where its part lies in the lane's
bytes, and the lanes that were not exited. -/
structure Access where
  lane : Nat
  addr : W64
  base : W64
  idx : W64
  tgt : Target
  data : List Byte
  ofs : Nat
  len : Nat
  mask : Mask
  deriving DecidableEq, Repr

/-- A byte and whether it is marked poisoned. -/
abbrev MByte := Byte × Bool

/-- An outstanding load (R80): its place in program order, the accesses still to perform and those performed with their bytes, and
of the lanes whose data has arrived what is still to be written, the flags it brings and the addresses of poisoned data. -/
structure LoadRec where
  seq : Nat
  ins : Instr
  todo : List Access
  got : List (Access × List MByte)
  vw : List VWrite
  sw : List (Nat × W64)
  fl : List (Nat × BitVec 5)
  pois : List (Nat × W64)
  deriving DecidableEq, Repr

/-- An outstanding store, or another store-counted operation (R80): its place in program order, its accesses still to perform, and
whether it has been accepted, its registers read. -/
structure StoreRec where
  seq : Nat
  ins : Instr
  accs : List Access
  taken : Bool
  deriving DecidableEq, Repr

/-- A copy command that has issued and no channel has accepted (R267): channel, word and basket, its place in the core's issue
order, the cores of the issuing team's cluster, its operands and the two words its address was formed from. -/
structure CopyCmd where
  chan : Nat
  word : BitVec 128
  basket : Nat
  seq : Nat
  mem : List Nat
  ops : Ops
  base : W64
  idx : W64
  deriving DecidableEq, Repr

/-- A resident group (R34, R41, R58, R285). `v` is keyed 32·register + lane, `u`, `ab` and `as` by register, `threads` by lane; `since` is the cycle
at which its `evwait` began to wait (R395). -/
structure Group where
  live : Bool
  fmask : Mask
  xblk : Nat
  aft : Bool
  aov : Bool
  tlanes : Mask
  v : Tbl W32
  u : Tbl W64
  ab : Tbl W64
  as : Tbl W32
  q : BitVec 4
  lds : List LoadRec
  sts : List StoreRec
  cps : List CopyCmd
  bcount : W32
  since : W64
  threads : Tbl Thread
  deriving DecidableEq, Repr

def Group.zero : Group :=
  { live := false, fmask := 0, xblk := 0, aft := false, aov := false, tlanes := 0, v := [], u := [], ab := [], as := []
    q := 0, lds := [], sts := [], cps := [], bcount := 0, since := 0, threads := [] }

/-! ### Teams (11, 13, 16) -/

/-- The kernel header of an entry (R91). -/
structure KHdr where
  xbase : Nat
  xmax : Nat
  ucount : Nat
  acount : Nat
  acct : Nat
  role : Nat
  scratch : Nat
  aft : Bool
  pwreq : BitVec 24
  handler : W64
  pairreq : Bool
  cluster : Bool
  deriving DecidableEq, Repr

/-- A lease of a partition's address space (R387). -/
structure Lease where
  base : W64
  len : W64
  r : Bool
  w : Bool
  deriving DecidableEq, Repr

/-- A hamper record of a job (R386), with what the Docent keeps of the record that placed it: the record's event fields,
its queue's die, its lease set, and for a cluster job the cluster key and the member's index. -/
structure JobRec where
  entry : W64
  arg : W64
  tile : W32
  event : W32
  evon : Bool
  evtile : Bool
  jacc : Half
  sdepth : Byte
  team : Nat
  anyteam : Bool
  queue : Nat
  seq : Half
  die : Nat
  recn : W32
  leases : List Lease
  member : Option (Nat × Nat)
  resumed : Option (Nat × Nat × W32)
  deriving DecidableEq, Repr

/-- A running job: its record, its header, the backing of its stacks (R309). -/
structure Job where
  r : JobRec
  hdr : KHdr
  stackb : W64
  deriving DecidableEq, Repr

/-- Team states (R297). -/
inductive TeamSt where | idle | run | halted | saving | restoring deriving DecidableEq, Repr

/-- A posted receive (R336, R338). -/
structure Posted where
  buf : W64
  cap : Nat
  word : Nat
  spec : W64
  handle : W32
  deriving DecidableEq, Repr

/-- A message: its envelope and payload (R336). -/
structure Msg where
  tag : W32
  src : Nat
  pos : Nat
  blk : Bool
  data : List Byte
  deriving DecidableEq, Repr

/-- A team of a core (R296, R297, R338). `stalled` holds each stalled message with its sending group and the cycle of its
stall; `stopWhy` is the cause of a halt asked of it (0 none, 1 drain, 2 debug stop, 3 budget of an `evwait` on `stopEv`), `haltNo` the number of
its halt among the package's (R401). -/
structure Team where
  st : TeamSt
  job : Option Job
  lbase : W64
  posted : List Posted
  ovf : List Msg
  stalled : List (Nat × Nat × Msg)
  drops : Nat
  serial : Nat
  launching : Option Job
  stopWhy : Nat
  stopEv : W32
  haltNo : Nat
  deriving DecidableEq, Repr

def Team.zero : Team :=
  { st := .idle, job := none, lbase := 0, posted := [], ovf := [], stalled := [], drops := 0, serial := 0
    launching := none, stopWhy := 0, stopEv := 0, haltNo := 0 }

/-! ### Cores (08, 09, 10, 16) -/

/-- A line of the L1 data cache (R199, R361): data, dirty bytes, page kind, first-for-replacement mark, poison, the slots of the
groups that stored into it since it was last written back, and whether an acquire has invalidated it (R200). -/
structure L1Line where
  data : List Byte
  dirty : BitVec 128
  uo : Bool
  lu : Bool
  pois : Bool
  wm : Mask
  gone : Bool
  deriving DecidableEq, Repr

/-- An entry of the matrix sequencer (R254, R310): the instruction, its group, its next row, whether the engine has begun it,
whether its job has since ended (1 normally, 2 abnormally), the translated rows of a global operand, its captured
operands; `ser` tells the entries of a queue apart, `areg` holds what has been read of a varying A (R256), keyed 64·lane + register − A. -/
structure SeqEnt where
  ser : Nat
  areg : Tbl W32
  ins : Instr
  gid : Nat
  row : Nat
  started : Bool
  old : Nat
  xl : List (List Xl)
  a : W64
  b : W64
  c : W64
  c1 : W64
  deriving DecidableEq, Repr

/-- A receiver's share of a copy still to land (R275, R280): core, team, whether it has begun and so read its LBASE, landing address and word as
scratchpad bytes, and how many of its bytes have landed, in landing order. -/
structure Share where
  cid : Nat
  team : Nat
  begun : Bool
  base : Nat
  word : Nat
  pos : Nat
  deriving DecidableEq, Repr

/-- A command in a copy channel (R267): its issuer while its job runs (`live`), basket and channel, template and word as
captured, its job and accession, its cluster's cores; once it has begun the shares still to land, the translated rows of its source
(none for a row that does not exist), the chunks read of them, keyed 2^12 · row + chunk, and the fault that the rest of its source meets
(R484); whether the curator finishes it (R289). -/
structure Copy where
  gid : Nat
  live : Bool
  tid : Nat
  basket : Nat
  chan : Nat
  tmpl : BitVec 512
  word : BitVec 128
  job : Option JobRec
  acc : Half
  mem : List Nat
  shares : Option (List Share)
  rows : List (Option (List Xl))
  got : Tbl (List MByte)
  bad : Option W32
  cur : Bool
  deriving DecidableEq, Repr

/-- What an access path does not yet see of a scratchpad (R217): the path that reads the older bytes, the path that wrote the newer
ones (0 load/store, 1 copy, 2 matrix operand, 3 gather), 1 + the synchronisation word they are counted in (0: none), where, the older
bytes, and whether an arrival at a cluster barrier has published the newer ones (R332). -/
structure Stale where
  view : Nat
  prod : Nat
  word : Nat
  ofs : Nat
  old : List MByte
  pub : Bool
  deriving DecidableEq, Repr

/-- A record of a task hamper (R392): the team it is tagged with and its four words; while its push still has registers to read, the
pushing core and the push's number there (R80). -/
structure TaskRec where
  team : Nat
  w : BitVec 256
  src : Option (Nat × Nat)
  deriving DecidableEq, Repr

/-- A worker core. `latch` is the A latch (R241), keyed 256·group + register; `aval` and `amask` the varying A of the
operation under way and the threads it came from; `tileP` marks tile elements that carry an uncorrectable error (R260), keyed as
`tiles`, and 2^32 + 2·(32·tile + row), + 1, for M and L; `stale` is what the paths do not see yet of the scratchpad; `l1` is keyed
2·line + 1 for a UO line, 2·line for an RC one; `cseq` counts
issued copies, `tset`s and pushes, `tsq` holds the waiting `tset`s (R274), `sched` the slot that each scheduler chose last (R293) (R193–R199, R229–R231, R254, R267, R269, R392). -/
structure Core where
  pword : W32
  gslots : BitVec 48
  clcfg : W32
  sp : Tbl Byte
  spPois : Tbl Unit
  stale : List Stale
  tiles : Tbl W32
  tileM : Tbl W32
  tileL : Tbl W32
  tileF : Tbl (BitVec 32)
  tileP : Tbl Unit
  tmpl : Tbl (BitVec 512)
  mseq : List SeqEnt
  latch : Option (Nat × List W32)
  aval : List W32
  amask : Mask
  copies : List Copy
  cseq : Nat
  tsq : List (Nat × Nat)
  blockq : List (Nat × Nat)
  l1 : Tbl L1Line
  ic : Tbl (List Byte)
  task : List TaskRec
  jobs : List JobRec
  pushq : List (Nat × Nat × BitVec 256)
  hrbase : W64
  hrlog : Nat
  hrput : W32
  hrtake : W32
  lastAcc : Half
  asleep : Bool
  dead : Bool
  lost : Bool
  paths : BitVec 70
  ctr : Tbl W32
  sched : Tbl Nat
  deriving DecidableEq, Repr

def Core.zero : Core :=
  { pword := 0, gslots := 0, clcfg := 0, sp := [], spPois := [], stale := [], tiles := [], tileM := [], tileL := [], tileF := [], tileP := []
    tmpl := [], mseq := [], latch := none, aval := [], amask := 0, copies := [], cseq := 0, tsq := [], blockq := [], l1 := [], ic := [], task := [], jobs := []
    pushq := [], hrbase := 0, hrlog := 0, hrput := 0, hrtake := 0, lastAcc := 0, asleep := false, dead := false
    lost := false, paths := 0, ctr := [], sched := [] }

/-! ### Clusters (13) -/

/-- A cluster barrier (R330). `arrived` has bit 32·member + position. -/
structure ClBar where
  gen : W32
  count : Nat
  target : Nat
  arrived : BitVec 384
  deriving DecidableEq, Repr

def ClBar.zero : ClBar := ⟨0, 0, 0, 0⟩

/-- A running cluster job (R324, R330): member cores in index order, team number, shape, barriers, and the messages in
transit with their sender group and destination member (R337). -/
structure Cluster where
  members : List Nat
  team : Nat
  cw : Nat
  ch : Nat
  launched : Bool
  bars : List ClBar
  transit : List (Nat × Nat × Msg)
  deriving DecidableEq, Repr

/-! ### Memory (15) -/

/-- Physical memory: the bytes HBM4E and host memory hold, the bytes an L2 slice holds newer than memory, and the poisoned
lines (R362, R364, R368). Both byte lists rise strictly in address; `hbm` lists no zero byte, `l2` no byte equal to what `hbm` holds there. -/
structure Memory where
  hbm : List Host.Cell
  l2 : List Host.Cell
  pois : List Nat
  deriving DecidableEq, Repr

def Memory.empty : Memory := ⟨[], [], []⟩

/-! ### Dies (15, 16, 18) -/

/-- A slot of the catalogue (R379). -/
structure Slot16 where
  count : W32
  target : W32
  fail : Bool
  deriving DecidableEq, Repr

def Slot16.zero : Slot16 := ⟨0, 0, false⟩

/-- A launched record of a queue (R376): its number, the record, whether it has completed and how; of a JOB or CJOB the lowest
tile never placed, the withdrawn tiles, the tiles not yet completed, and what R384 captured at launch. -/
structure OpRec where
  n : W32
  ins : Instr
  done : Bool
  status : W32
  failed : Bool
  next : Nat
  back : List Nat
  left : Nat
  acc : Half
  leases : List Lease
  depth : Byte
  hdr : Option KHdr
  deriving DecidableEq, Repr

/-- A checkpoint image that the Docent holds (R395, R402, R403, R459): the save slots and addresses of its members' images, their
jobs, cores, group counts, partition word, the number of its halt, the save's cause (1 drain, 2 debug stop, 3 the budget of `evwait` on
`event`). -/
structure Held where
  slots : List Nat
  addrs : List W64
  jobs : List Job
  cores : List Nat
  groups : Nat
  team : Nat
  why : Nat
  event : W32
  hit : Bool
  part : Nat
  pword : W32
  ord : Nat
  deriving DecidableEq, Repr

/-- An active LOOP (R397). -/
structure LoopSt where
  recn : W32
  body : Nat
  cond : W64
  maxiter : W32
  dmin : Byte
  dmax : Byte
  mon : Bool
  iter : W32
  depth : Byte
  deriving DecidableEq, Repr

/-- Why a queue drains (R401). -/
inductive DrainWhy where | halt (d q : Nat) | partw (d q : Nat) | slice deriving DecidableEq, Repr
/-- A drain in progress: why, its deadline on the timebase, whether it has escalated. -/
structure Drain where
  why : DrainWhy
  deadline : Nat
  escalated : Bool
  deriving DecidableEq, Repr

/-- A Docent queue (R372, R373). `head` and `done` are the words the Docent wrote last, `tail` what it read last, `next` the
record it launches next; `able` says whether a tile of it is placeable and `since` from which cycle R385 counts its wait, `hold` the record a debug stop holds it before,
`await` the event of a WAITEV at its head and, once released, the FAIL bit it was released with. -/
structure Queue where
  base : W64
  ctl : W32
  fault : W32
  fseq : W32
  stopped : Bool
  head : W32
  done : W32
  tail : W32
  next : W32
  recs : List OpRec
  leases : List Lease
  resume : List Held
  loop : Option LoopSt
  drain : Option Drain
  able : Bool
  since : Nat
  hold : Option Half
  await : Option (W32 × Option Bool)
  deriving DecidableEq, Repr

def Queue.zero : Queue :=
  { base := 0, ctl := 0, fault := 0, fseq := 0, stopped := false, head := 0, done := 0, tail := 0, next := 0, recs := []
    leases := [], resume := [], loop := none, drain := none, able := false, since := 0, hold := none, await := none }

/-- A vitrine entry (R365). -/
structure Vit where
  base : W64
  en : Bool
  st : Nat
  res : Nat
  deriving DecidableEq, Repr

def Vit.zero : Vit := ⟨0, false, 0, 0⟩

/-- A pinned leaf of the die's walker (R388, R423): partition, page, size, kind and words. -/
structure Pin where
  part : Nat
  page : Nat
  big : Bool
  paired : Bool
  lo : W64
  hi : W64
  deriving DecidableEq, Repr

/-- A leaf as the walk finds it: its page's frame and size, or a paired leaf's two words (R416, R417). -/
inductive Leaf where
  | plain (e : W64) (frame bits : Nat)
  | paired (lo hi : W64)
  deriving DecidableEq, Repr

/-- What a die's TLBs, pointer caches and bounds caches hold (R423, R424): an entry of level 0 or 1 that points on, by VA[55:42] or VA[55:29]; a
leaf, by the bits of its page; a region's bounds. -/
inductive Cached where
  | ptr (level index : Nat) (e : W64)
  | leaf (bits page : Nat) (l : Leaf)
  | bounds (region : Nat) (lo hi : W64)
  deriving DecidableEq, Repr

/-- One of them: its partition, and whether the accesses that now begin use it. -/
structure TlbEnt where
  part : Nat
  what : Cached
  on : Bool
  deriving DecidableEq, Repr

/-- A job completion still to be reported (R299): the core, team and job that ended, its status, and the group records
whose accesses are outstanding. -/
structure Report where
  cid : Nat
  team : Nat
  job : JobRec
  status : W32
  failed : Bool
  sts : List (Nat × StoreRec)
  cps : List (Nat × CopyCmd)
  deriving DecidableEq, Repr

/-- A compute die (R353, R357, R365, R372, R379, R423, R424). `stuck` holds the events on a cycle at the last watchdog interval
(R406). -/
structure Die where
  dctl : W32
  dlog : Tbl W32
  pcore : Tbl W64
  queues : Tbl Queue
  cat : Tbl Slot16
  pleases : Tbl (List Lease)
  pins : List Pin
  tlb : List TlbEnt
  held : List Held
  reports : List Report
  lastq : Tbl Nat
  rowmap : Tbl W32
  rowinfo : Tbl W32
  vit : Tbl Vit
  xlinv : W64
  xlbusy : Bool
  xllost : Bool
  errlog : List (W32 × Half × W64)
  stuck : List W32
  links : List (Nat × Nat)
  ctr : Tbl W32
  fenced : Bool
  deriving DecidableEq, Repr

def Die.zero : Die :=
  { dctl := 0x3E0, dlog := [], pcore := [], queues := [], cat := [], pleases := [], pins := [], tlb := [], held := []
    reports := [], lastq := [], rowmap := [], rowinfo := [], vit := [], xlinv := 0, xlbusy := false, xllost := false
    errlog := [], stuck := [], links := [], ctr := [], fenced := false }

/-! ### Package (18, 20, 21) -/

/-- A partition's registers in the accession block (R420, R422). -/
structure Part where
  root : W64
  bnd : W64
  lead : Bool
  aacc : Half
  defhnd : W64
  savebase : W64
  savesz : W32
  saven : Half
  stkbase : W64
  saves : List Nat
  deriving DecidableEq, Repr

def Part.zero : Part :=
  { root := 0, bnd := 0, lead := false, aacc := 0, defhnd := 0, savebase := 0, savesz := 0, saven := 0, stkbase := 0
    saves := [] }

/-- The accession unit (R421): PUBACC and the partitions. -/
structure Acc where
  pubacc : Half
  parts : Tbl Part
  deriving DecidableEq, Repr

/-- What the loader reported of a code object (R92, R448): its partition, the object, its fault word (0 loaded, else BADHDR) and
the name the report gives: an entry, or the symbol defined again. -/
structure Loaded where
  part : Nat
  obj : CodeObj
  fault : W32
  named : Nat
  deriving DecidableEq, Repr

/-- The hub (R451–R465): the service controller's registers, flash (key 2·KIND + copy; the owner slot is key 8), the images
accepted at this boot, what the last enrolment answered, the BIST log, the attestation report last returned, the snapshot awaiting its instant Ts with its
tag, the sequence numbers of snapshots and of the series, and the Watis ports that have link. -/
structure Hub where
  recover : Bool
  enrol : W32
  pkgstat : W32
  booterr : W32
  snapctl : W32
  snapbase : W64
  tsctl : W32
  tsbase : W64
  tsput : W32
  tstake : W32
  tsstat : W32
  dbgctl : W64
  dbgstat : W32
  dbgimg : W64
  flash : Tbl Image
  fw : Option Image
  cfg : Option Image
  bist : List W64
  report : List Byte
  snap : Option (W64 × Byte)
  snapseq : W32
  tsseq : W32
  watis : BitVec 2
  deriving DecidableEq, Repr

def Hub.zero : Hub :=
  { recover := false, enrol := 0, pkgstat := 0, booterr := 0, snapctl := 0, snapbase := 0, tsctl := 0, tsbase := 0, tsput := 0
    tstake := 0, tsstat := 0, dbgctl := 0, dbgstat := 0, dbgimg := 0, flash := [], fw := none, cfg := none, bist := []
    report := [], snap := none, snapseq := 0, tsseq := 0, watis := 0 }

/-! ### Fabric (22) -/

/-- A started command of a ring (R473): its number, the command, whether it has completed. -/
structure CmdRec where
  n : W32
  ins : Instr
  done : Bool
  deriving DecidableEq, Repr

/-- A command ring of the fabric station (R472). -/
structure Ring where
  base : W64
  ctl : W32
  fault : W32
  fseq : W32
  stopped : Bool
  head : W32
  tail : W32
  next : W32
  cmds : List CmdRec
  deriving DecidableEq, Repr

def Ring.zero : Ring := ⟨0, 0, 0, 0, false, 0, 0, 0, []⟩

/-- A collective that holds its CGID (R477, R478): ring and number of its command, the members, the data received from members,
the members that have finished with it. -/
structure Coll where
  cgid : Nat
  ring : Nat
  n : W32
  members : List Nat
  got : Tbl (List Byte)
  finished : List Nat
  deriving DecidableEq, Repr

/-- What the station has sent to peers: a catalogue step (R470), a watch of a peer's event until it is answered (R471), the answer
to a peer's watch, the request of a point command (R475), the reply to a peer's request or its refusal (R474), this member's
data and finish report of a collective (R477, R478). -/
inductive Sent where
  | step (event : W32) (op : CatOp) (n : W32)
  | watch (event : W32)
  | answer (peer : Nat) (event : W32) (count : W32) (fail : Bool)
  | request (peer : Nat) (addr : W64) (op : PeerOp)
  | reply (peer : Nat) (ok : Bool) (data : List Byte)
  | member (cgid : Nat) (data : List Byte)
  | finish (cgid : Nat)
  deriving DecidableEq, Repr

/-- The fabric station (R468–R481). `watches` are peers' watches of events here (peer, event); `answers` the answers received
for watches of peers' events; `peers` the members whose debug-halt state stands. -/
structure Fabric where
  fabcfg : W64
  ports : BitVec 16
  tlock : Bool
  rings : Tbl Ring
  exps : Tbl W64
  sltbase : W64
  colls : List Coll
  sent : List Sent
  watches : List (Nat × W32)
  answers : Tbl (W32 × Bool)
  peers : List Nat
  deriving DecidableEq, Repr

def Fabric.zero : Fabric :=
  { fabcfg := 0, ports := 0, tlock := false, rings := [], exps := [], sltbase := 0, colls := [], sent := [], watches := []
    answers := [], peers := [] }

/-- A gang time-slice switch in progress (R481). -/
structure SliceSt where
  set : Nat
  t : Nat
  die : Nat
  queue : Nat
  recn : W32
  started : List (Nat × Nat)
  escalated : Bool
  deriving DecidableEq, Repr

/-! ### Who acts (the model's own) -/

/-- A failure of data (R369): of a line of memory at a segment (0: an uncorrectable error), of a line in an L1, of the answer to an access of
an outstanding load, of a chunk that a copy has read, of a byte of scratchpad, of an element of a tile. -/
inductive Flaw where
  | mem (seg line : Nat)
  | l1 (cid key seg : Nat)
  | load (gid ix k seg : Nat)
  | copy (cid ix key seg : Nat)
  | sp (cid ofs : Nat)
  | tile (cid key : Nat)
  deriving DecidableEq, Repr

/-- An action of one agent: a group issues its picked set, the Docent takes a queue's next record, the fabric station a ring's next
command, an event of the part happens, time passes. What no rule gives a moment of its own happens as an action too: a line leaves an L1
(R199) or an L2 slice (R362), a path sees newer scratchpad bytes (R217), an operand register of a matrix operation is read (R256), a chunk of
a copy's source is read (R287), a die caches an entry of the tables, or accesses begin or cease to use it (R424), data fails (R369). -/
inductive Act where
  | issue (gid : Nat)
  | docent (die queue : Nat)
  | fabric (ring : Nat)
  | event (i : Instr)
  | tick (n : Nat)
  | l1Out (cid key : Nat)
  | l2Out (line : Nat)
  | show_ (cid ix : Nat)
  | readA (cid ser key : Nat)
  | readCopy (cid ix row k : Nat)
  | tlbFill (d part level va : Nat)
  | tlbTurn (d ix : Nat)
  | flaw (f : Flaw)
  deriving DecidableEq, Repr

/-- The issuer of the instruction being executed: group and active set; for a record its die and queue; for a command its
ring; `recn` numbers the record or command. -/
structure Cur where
  gid : Nat
  mask : Mask
  die : Nat
  queue : Nat
  recn : W32
  deriving DecidableEq, Repr

/-- The whole package. Keys: group (64·die + core)·32 + slot, team (64·die + core)·8 + team, core 64·die + 8·row + column,
cluster: its origin core · 8 + team + 2048 · instance. `stk` holds the stack bytes whose backing page no table maps, keyed 2^64 · partition +
pointer (log 6). -/
structure State where
  groups : Tbl Group
  teams : Tbl Team
  cores : Tbl Core
  clusters : Tbl Cluster
  dies : Tbl Die
  mem : Memory
  stk : Tbl Byte
  acc : Acc
  objs : List Loaded
  hub : Hub
  fab : Fabric
  slice : Option SliceSt
  time : W64
  cycle : W64
  cur : Cur
  agenda : List Act
  rr : Nat
  fresh : Nat
  deriving DecidableEq, Repr

/-- The package right after reset: before power-good, with nothing loaded and no core holding a group (R194, R452). -/
def State.reset : State :=
  { groups := [], teams := [], cores := [], clusters := [], dies := [], mem := .empty, stk := [], acc := ⟨0, []⟩, objs := []
    hub := .zero, fab := .zero, slice := none, time := 0, cycle := 0, cur := ⟨0, 0, 0, 0, 0⟩, agenda := [], rr := 0
    fresh := 0 }

/-- Reasons the machine stops with a fault. The spec gives every fault of the HX4 an effect (a trap, the end of a job, the
stop of a queue, a status), so no step of the model raises one: safe. -/
inductive Fault where
  /-- Raised by no step: every fault of the HX4 has an effect of its own. Safe. -/
  | none_
  deriving DecidableEq, Repr

/-- Reasons a step has no meaning. -/
inductive Refusal where
  /-- The instruction has no meaning in the model yet: safe, the run stops there. -/
  | notModelled (mnemonic : String)
  deriving DecidableEq, Repr

end Sys2Proof.Machine
end

