-- ==== Sys2Proof/Machine/Mem.lean ====
section
/-!
DEFINITION. Physical memory with its L2 slices, address translation and the checks of a global access (08, 15, 18), and the
fault words they raise.
-/

namespace Sys2Proof.Machine

/-! ### Fault words (R192, R440, R408, R94) -/

def fwMISALIGN : W32 := 0x01740001#32
def fwRGNBND : W32 := 0x01740002#32
def fwRGNPERM : W32 := 0x01740003#32
def fwAPERR : W32 := 0x01740004#32
def fwSPBND : W32 := 0x01740005#32
def fwSTKBND : W32 := 0x01740006#32
def fwLDPOIS : W32 := 0x01741001#32
def fwPGNV : W32 := 0x01742001#32
def fwPGBAD : W32 := 0x01742002#32
def fwPGPERM : W32 := 0x01742003#32
def fwACCSTALE : W32 := 0xA2102001#32
def fwLEASEOUT : W32 := 0x80505008#32
def fwPRIV : W32 := 0x01421001#32

/-! ### Bytes and words (R2) -/

/-- A little-endian value as `n` bytes. -/
def bytesOf : Nat → Nat → List Byte
  | 0, _ => []
  | n + 1, x => BitVec.ofNat 8 x :: bytesOf n (x / 256)

/-- The little-endian value of some bytes. -/
def natOf : List Byte → Nat
  | [] => 0
  | b :: t => b.toNat + 256 * natOf t

/-! ### Physical memory (R362, R364) -/

/-- The byte HBM4E or host memory holds. -/
def Memory.hbmByte (m : Memory) (pa : Nat) : Byte := Tbl.get 0#8 pa m.hbm

/-- The byte at the coherence point: the L2 slice's where it holds a newer one (R364). -/
def Memory.peek (m : Memory) (pa : Nat) : Byte := (Tbl.find pa m.l2).getD (m.hbmByte pa)

/-- A byte written at the coherence point. -/
def Memory.poke (m : Memory) (pa : Nat) (b : Byte) : Memory :=
  { m with l2 := if m.hbmByte pa = b then Tbl.del pa m.l2 else Tbl.put pa b m.l2 }

/-- A byte of memory proper: zero bytes are not listed. -/
def putHbm (pa : Nat) (b : Byte) (h : List Host.Cell) : List Host.Cell := if b = 0#8 then Tbl.del pa h else Tbl.put pa b h

/-- The L2 copy of one byte written to memory (`clean.mem`, R187). -/
def Memory.cleanByte (m : Memory) (pa : Nat) : Memory :=
  match Tbl.find pa m.l2 with
  | none => m
  | some b => { m with hbm := putHbm pa b m.hbm, l2 := Tbl.del pa m.l2 }

/-- The L2 copy of one byte dropped (`discard`, R186). -/
def Memory.dropByte (m : Memory) (pa : Nat) : Memory := { m with l2 := Tbl.del pa m.l2 }

/-- Apply an operation to `n` consecutive bytes. -/
def Memory.each (f : Memory → Nat → Memory) (m : Memory) (pa : Nat) : Nat → Memory
  | 0 => m
  | n + 1 => Memory.each f (f m pa) (pa + 1) n

def Memory.cleanLine (m : Memory) (line : Nat) : Memory := Memory.each Memory.cleanByte m (128 * line) 128
def Memory.dropLine (m : Memory) (line : Nat) : Memory := Memory.each Memory.dropByte m (128 * line) 128

/-- `n` bytes from `pa`. -/
def Memory.peeks (m : Memory) (pa : Nat) : Nat → List Byte
  | 0 => []
  | n + 1 => m.peek pa :: m.peeks (pa + 1) n

/-- Home die of a physical address (R362). -/
def homeDie (pa : Nat) : Nat := if pa / 2 ^ 51 % 2 = 1 then pa / 2 ^ 13 % 4 else pa / 2 ^ 37 % 4
/-- Home slice of a physical address within its home die (R362). -/
def homeSlice (pa : Nat) : Nat := (pa / 2 ^ 7 % 64) ^^^ (pa / 2 ^ 13 % 64) ^^^ (pa / 2 ^ 19 % 64)
/-- The set of an address within its home slice: colour and PA[20:13] (R362). -/
def homeSet (pa : Nat) : Nat := pa / 2 ^ 21 % 16 * 256 + pa / 2 ^ 13 % 256
/-- The die, slice and set that hold an address, as one number. -/
def homeWay (pa : Nat) : Nat := (homeDie pa * 64 + homeSlice pa) * 4096 + homeSet pa

/-- The lines of some cells in address order, each once. -/
def cellLines : List Host.Cell → List Nat
  | [] => []
  | c :: t => match cellLines t with
    | [] => [c.1 / 128]
    | l :: r => if l = c.1 / 128 then l :: r else c.1 / 128 :: l :: r
/-- R362: a set of a slice holds 16 lines; with a seventeenth dirty one it evicts one of them to memory, which one `Config` says
(log 112). -/
def Memory.bound (m : Memory) (pa : Nat) : Memory :=
  let ways := cellLines (m.l2.filter (fun c => homeWay c.1 = homeWay pa))
  if ways.length ≤ 16 then m else m.cleanLine (nth 0 (Config.victim ways pa % ways.length) ways)

/-- Consecutive bytes written at the coherence point, each line's set kept to its ways. -/
def Memory.pokes (m : Memory) (pa : Nat) : List Byte → Memory
  | [] => m
  | b :: t => (if t.isEmpty || (pa + 1) % 128 = 0 then (m.poke pa b).bound pa else m.poke pa b).pokes (pa + 1) t

def Memory.word64 (m : Memory) (pa : Nat) : W64 := BitVec.ofNat 64 (natOf (m.peeks pa 8))

/-- Poison marks of lines (R369). -/
def Memory.isPois (m : Memory) (line : Nat) : Bool := m.pois.contains line
/-- A number placed in an ascending list. -/
def insNat (n : Nat) : List Nat → List Nat
  | [] => [n]
  | x :: t => if n < x then n :: x :: t else if n = x then x :: t else x :: insNat n t
def ascending : List Nat → Bool
  | x :: y :: t => decide (x < y) && ascending (y :: t)
  | _ => true
def Memory.markPois (m : Memory) (line : Nat) : Memory := { m with pois := insNat line m.pois }

/-- The canonical form: strictly rising addresses and lines, no zero byte in `hbm`, no byte of `l2` equal to memory's own. -/
def Memory.wf (m : Memory) : Bool :=
  Tbl.sorted m.hbm && Tbl.sorted m.l2 && m.hbm.all (fun c => c.2 != 0#8)
  && m.l2.all (fun c => m.hbmByte c.1 != c.2) && ascending m.pois

/-! ### Reading and changing parts of the state -/

def State.core (s : State) (cid : Nat) : Core := Tbl.get Core.zero cid s.cores
def State.setCore (s : State) (cid : Nat) (c : Core) : State := { s with cores := Tbl.put cid c s.cores }
def State.die (s : State) (d : Nat) : Die := Tbl.get Die.zero d s.dies
def State.setDie (s : State) (d : Nat) (x : Die) : State := { s with dies := Tbl.put d x s.dies }
def State.team (s : State) (tid : Nat) : Team := Tbl.get Team.zero tid s.teams
def State.setTeam (s : State) (tid : Nat) (t : Team) : State := { s with teams := Tbl.put tid t s.teams }
def State.group (s : State) (gid : Nat) : Group := Tbl.get Group.zero gid s.groups
def State.setGroup (s : State) (gid : Nat) (g : Group) : State := { s with groups := Tbl.put gid g s.groups }
def State.part (s : State) (p : Nat) : Part := Tbl.get Part.zero p s.acc.parts
def State.setPart (s : State) (p : Nat) (x : Part) : State :=
  { s with acc := { s.acc with parts := Tbl.put p x s.acc.parts } }

/-- Core, die and slot of a group; core of a team. -/
def cidOf (gid : Nat) : Nat := gid / 32
def dieOf (cid : Nat) : Nat := cid / 64
def coreBit (cid : Nat) : Nat := cid % 64

/-- The partition that a core belongs to: the PCORE register of its die that holds its bit (R372, R420). -/
def Die.partOf (d : Die) (bit : Nat) : Option Nat :=
  (d.pcore.find? (fun e => e.2.getLsbD bit)).map (fun e => e.1)
def State.partOf (s : State) (cid : Nat) : Option Nat := (s.die (dieOf cid)).partOf (coreBit cid)

/-! ### Translation (R414–R419, R428) -/

/-- What an access does, and so what it needs (R166). -/
inductive Use where | load | store | atomic | clean | fetch deriving DecidableEq, Repr
def Use.r : Use → Bool | .load | .atomic | .clean => true | _ => false
def Use.w : Use → Bool | .store | .atomic => true | _ => false
def Use.x : Use → Bool | .fetch => true | _ => false

/-- The context an access is made in: partition, accession, lease set inside a job, user level. -/
structure Ctx where
  part : Nat
  die : Nat
  acc : Half
  leases : Option (List Lease)
  user : Bool
  deriving DecidableEq, Repr

/-- R414: a leaf frame lies in HBM4E or in host memory. -/
def frameOk (pa : Nat) : Bool := pa / 2 ^ 39 % 2 ^ 13 = 0 || pa / 2 ^ 51 % 2 = 1

/-- Bits of an 8-byte entry (R416). -/
def eV (e : W64) : Bool := e.getLsbD 0
def eT (e : W64) : Bool := e.getLsbD 1
def eP (e : W64) : Bool := e.getLsbD 2
def eKind (e : W64) : Nat := (e.extractLsb' 3 2).toNat
def eScope (e : W64) : Nat := (e.extractLsb' 5 3).toNat
def eAddr (e : W64) : Nat := (e.extractLsb' 16 36).toNat * 65536

/-- R416: what makes an 8-byte entry malformed. -/
def entryBad (e : W64) : Bool := e.extractLsb' 52 12 != 0#12 || e.extractLsb' 12 4 != 0#4
def pointerBad (e : W64) (level : Nat) : Bool :=
  entryBad e || e.extractLsb' 3 9 != 0#9 || (eP e && level != 1) || (eP e && e.getLsbD 16)
def leafBad (e : W64) (level : Nat) : Bool :=
  entryBad e || eP e || eKind e = 3 || (eKind e = 0 && eScope e < 2) || (eKind e != 0 && eScope e != 0)
  || (level = 1 && e.extractLsb' 16 13 != 0#13) || !frameOk (eAddr e)

/-- The entries of level 0 and 1 that the walk reads, where no pointer cache holds them. -/
def entry0 (m : Memory) (root : W64) (va : Nat) : W64 := m.word64 ((root.extractLsb' 17 35).toNat * 131072 + 8 * (va / 2 ^ 42 % 16384))
def entry1 (m : Memory) (e0 : W64) (va : Nat) : W64 := m.word64 (eAddr e0 + 8 * (va / 2 ^ 29 % 8192))
/-- R415: the walk from ROOT, past the pointers that `held` gives; a fault word where an entry is invalid or malformed. -/
def walkPast (held : Nat → Option W64) (m : Memory) (root : W64) (va : Nat) : Except W32 Leaf :=
  if !root.getLsbD 0 then .error fwPGNV
  else
    let e0 := (held 0).getD (entry0 m root va)
    if !eV e0 then .error fwPGNV
    else if !eT e0 || pointerBad e0 0 then .error fwPGBAD
    else
      let e1 := (held 1).getD (entry1 m e0 va)
      if !eV e1 then .error fwPGNV
      else if !eT e1 then
        if leafBad e1 1 then .error fwPGBAD else .ok (.plain e1 (eAddr e1) 29)
      else if pointerBad e1 1 then .error fwPGBAD
      else if eP e1 then
        let at16 := eAddr e1 + 16 * (va / 2 ^ 16 % 8192)
        .ok (.paired (m.word64 at16) (m.word64 (at16 + 8)))
      else
        let e2 := m.word64 (eAddr e1 + 8 * (va / 2 ^ 16 % 8192))
        if !eV e2 then .error fwPGNV
        else if eT e2 || leafBad e2 2 then .error fwPGBAD else .ok (.plain e2 (eAddr e2) 16)

/-- The walk of the tables as memory holds them. -/
def walk (m : Memory) (root : W64) (va : Nat) : Except W32 Leaf := walkPast (fun _ => none) m root va

/-- R417: the fields of a half of a paired leaf. -/
def hV (h : W64) : Bool := h.getLsbD 52
def hR (h : W64) : Bool := h.getLsbD 54
def hW (h : W64) : Bool := h.getLsbD 55
def hAcc (h : W64) : Half := h.extractLsb' 0 16
def hFrame (h : W64) : Nat := (h.extractLsb' 16 36).toNat * 65536
def halfBad (h : W64) : Bool := h.extractLsb' 56 8 != 0#8 || h.getLsbD 53 || !frameOk (hFrame h)

/-- R436: an accession that stands 2^15 or more behind the published one. -/
def accGone (pub a : Half) : Bool := decide ((pub - a).toNat ≥ 2 ^ 15) && pub - a != 0xFFFF#16

/-- R417, R428: the frame under accession `n`, or the fault. -/
def halfOf (pub n : Half) (u : Use) (lo hi : W64) : Except W32 Nat :=
  let h := if n.getLsbD 0 then hi else lo
  if !hV h then .error fwPGNV
  else if halfBad h then .error fwPGBAD
  else if (u.r && !hR h) || (u.w && !hW h) || u.x then .error fwPGPERM
  else if hAcc h != n || accGone pub n then .error fwACCSTALE
  else .ok (hFrame h)

/-- R418 steps 4 and 5 on a leaf: the physical address and kind of a virtual address. -/
def leafUse (pub : Half) (c : Ctx) (u : Use) (va len : Nat) : Leaf → Except W32 Xl
  | .plain e frame bits =>
    if (u.r && !e.getLsbD 8) || (u.w && !e.getLsbD 9) || (u.x && !e.getLsbD 10) || (e.getLsbD 11 && c.user) then
      .error fwPGPERM
    else .ok ⟨frame + va % 2 ^ bits, len, eKind e, eScope e⟩
  | .paired lo hi =>
    match halfOf pub c.acc u lo hi with
    | .ok frame => .ok ⟨frame + va % 65536, len, 2, 0⟩
    | .error f => .error f

/-- The pinned leaf of a page, if a lease pins it (R388, R425). -/
def pinOf (d : Die) (part va : Nat) : Option Leaf :=
  match d.pins.find? (fun p => p.part = part && p.page = (if p.big then va / 2 ^ 29 else va / 65536)) with
  | some p => some (if p.paired then .paired p.lo p.hi else .plain p.lo (eAddr p.lo) (if p.big then 29 else 16))
  | none => none

/-- What a die's caches hold that accesses now use (R424). -/
def Die.cached {α : Type} (d : Die) (part : Nat) (f : Cached → Option α) : Option α :=
  (d.tlb.filter (fun e => e.on && e.part = part)).findSome? (fun e => f e.what)
def Die.pointer (d : Die) (part va level : Nat) : Option W64 :=
  d.cached part (fun c => match c with
    | .ptr l i e => if l = level && i = va / (if level = 0 then 2 ^ 42 else 2 ^ 29) then some e else none
    | _ => none)
def Die.leaf (d : Die) (part va : Nat) : Option Leaf :=
  match pinOf d part va with
  | some l => some l
  | none => d.cached part (fun c => match c with | .leaf b p l => if p = va / 2 ^ b then some l else none | _ => none)
/-- R428: the half of a held paired leaf that an accession selects has another accession. -/
def Leaf.strange (n : Half) : Leaf → Bool
  | .paired lo hi => hAcc (if n.getLsbD 0 then hi else lo) != n
  | .plain .. => false

/-- R418 steps 2 to 5: one part of an access, wholly inside one page: by the leaf that a pin or a cache holds, unless its half's accession is
another (R428); else by a walk. -/
def translatePart (s : State) (c : Ctx) (u : Use) (va len : Nat) : Except W32 Xl :=
  let d := s.die c.die
  let found : Except W32 Leaf := match d.leaf c.part va with
    | some l => if l.strange c.acc then walkPast (d.pointer c.part va) s.mem (s.part c.part).root va else .ok l
    | none => walkPast (d.pointer c.part va) s.mem (s.part c.part).root va
  match found with
  | .ok l => leafUse s.acc.pubacc c u va len l
  | .error f => .error f

/-- R428: a page whose held leaf has another accession in the half that an access selects is read again, and the held copies replaced. -/
def reread (s : State) (c : Ctx) (va : Nat) : State :=
  let d := s.die c.die
  if d.pins.isEmpty && d.tlb.isEmpty then s
  else match d.leaf c.part va with
    | some l =>
      if l.strange c.acc then
        match walkPast (d.pointer c.part va) s.mem (s.part c.part).root va with
        | .ok (.paired lo hi) => s.setDie c.die { d with
            pins := d.pins.map (fun p => if p.paired && p.part = c.part && p.page = va / 65536 then { p with lo := lo, hi := hi } else p)
            tlb := d.tlb.map (fun e => match e.what with
              | .leaf 16 p (.paired _ _) => if e.part = c.part && p = va / 65536 then { e with what := .leaf 16 p (.paired lo hi) } else e
              | _ => e) }
        | _ => s
      else s
    | none => s
/-- The pages of an access of `len` bytes, which span two at most. -/
def rereads (s : State) (c : Ctx) (a : W64) (len : Nat) : State :=
  let va := (a.extractLsb' 0 56).toNat
  if a.toNat / 2 ^ 56 ≥ 0xFB then s
  else if (va + len - 1) / 65536 = va / 65536 then reread s c va else reread (reread s c va) c (va + len - 1)

/-- R423: a die caches what a walk of the tables finds: the pointer of level 0 or 1, the leaf (2) or the bounds (3) of an address. -/
def tlbFind (s : State) (part level va : Nat) : Option Cached :=
  let root := (s.part part).root
  if level ≥ 3 then
    let at16 := ((s.part part).bnd.extractLsb' 12 40).toNat * 4096 + 16 * (va % 256)
    some (.bounds (va % 256) (s.mem.word64 at16) (s.mem.word64 (at16 + 8)))
  else match walk s.mem root va with
    | .error _ => none
    | .ok l =>
      let e0 := entry0 s.mem root va
      let e1 := entry1 s.mem e0 va
      if level = 0 then some (.ptr 0 (va / 2 ^ 42) e0)
      else if level = 1 then (if eT e1 then some (.ptr 1 (va / 2 ^ 29) e1) else none)
      else match l with
        | .plain _ _ b => some (.leaf b (va / 2 ^ b) l)
        | .paired _ _ => some (.leaf 16 (va / 2 ^ 16) l)
/-- Whether two of them cache one thing. -/
def Cached.same : Cached → Cached → Bool
  | .ptr l i _, .ptr m j _ => l = m && i = j
  | .leaf b p _, .leaf c q _ => b = c && p = q
  | .bounds r _ _, .bounds q _ _ => r = q
  | _, _ => false
def tlbFill (s : State) (d part level va : Nat) : State :=
  match tlbFind s part level va with
  | some c => s.setDie d { s.die d with tlb := (s.die d).tlb.filter (fun e => !(e.part = part && e.what.same c)) ++ [⟨part, c, true⟩] }
  | none => s
/-- Accesses that begin now use a cached entry, or another core's caches, which do not hold it. -/
def tlbTurn (s : State) (d ix : Nat) : State :=
  match (s.die d).tlb[ix]? with
  | some e => s.setDie d { s.die d with tlb := setNth { e with on := !e.on } ix (s.die d).tlb }
  | none => s
/-- R424: whether an invalidation names a cached entry: a page of a partition and the pointers on the way to it, all of a partition, all. -/
def TlbEnt.named (e : TlbEnt) (x : W64) : Bool :=
  let mode := (x.extractLsb' 62 2).toNat
  let va := (x.extractLsb' 16 40).toNat * 65536
  mode = 2 || (e.part = (x.extractLsb' 56 4).toNat && (mode = 1 || (match e.what with
    | .ptr l i _ => i = va / (if l = 0 then 2 ^ 42 else 2 ^ 29)
    | .leaf b p _ => p = va / 2 ^ b
    | .bounds .. => false)))
/-- R424: an invalidation is done: the entries it names are dropped, pinned leaves kept. -/
def xlinvDone (s : State) (d : Nat) : State :=
  let x := s.die d
  s.setDie d { x with xlbusy := false, tlb := if x.xlbusy then x.tlb.filter (fun e => !e.named x.xlinv) else x.tlb }

/-- The parts of an access over at most `n` pages: one per 64 KiB page it touches (R214). -/
def translateFrom (s : State) (c : Ctx) (u : Use) : Nat → Nat → Nat → Except W32 (List Xl)
  | 0, _, _ => .ok []
  | n + 1, va, len =>
    let first := min len (65536 - va % 65536)
    match translatePart s c u va first with
    | .error f => .error f
    | .ok x =>
      if first = len then .ok [x]
      else match translateFrom s c u n (va + first) (len - first) with
        | .error f => .error f
        | .ok t => .ok (x :: t)
/-- The parts of an access. -/
def translate (s : State) (c : Ctx) (u : Use) (va len : Nat) : Except W32 (List Xl) :=
  translateFrom s c u (len / 65536 + 2) va len

/-- R419, R166: the bounds-table check of `len` bytes at a global pointer. -/
def boundsFault (s : State) (c : Ctx) (u : Use) (addr : W64) (len : Nat) : Option W32 :=
  let bnd := (s.part c.part).bnd
  let at16 := (bnd.extractLsb' 12 40).toNat * 4096 + 16 * (addr.extractLsb' 56 8).toNat
  let held := (s.die c.die).cached c.part (fun e => match e with
    | .bounds r lo hi => if r = (addr.extractLsb' 56 8).toNat then some (lo, hi) else none
    | _ => none)
  let (lo, hi) := held.getD (s.mem.word64 at16, s.mem.word64 (at16 + 8))
  let va := (addr.extractLsb' 0 56).toNat
  if lo.extractLsb' 60 4 != 0#4 || hi.extractLsb' 56 8 != 0#8 then some fwPGBAD
  else if !lo.getLsbD 56 || va < (lo.extractLsb' 0 56).toNat || va + len - 1 > (hi.extractLsb' 0 56).toNat then
    some fwRGNBND
  else if (u.r && !lo.getLsbD 57) || (u.w && !lo.getLsbD 58) || (u.x && !lo.getLsbD 59) then some fwRGNPERM
  else none

/-- R389: the access lies wholly inside one lease with the permission it needs; a lease is a range of the partition's 56-bit
address space, of which the region byte is no part (R166, R387, R419). -/
def leaseOk (ls : List Lease) (u : Use) (addr : W64) (len : Nat) : Bool :=
  let va := addr.toNat % 2 ^ 56
  ls.any fun l => l.base.toNat % 2 ^ 56 ≤ va && va + len ≤ l.base.toNat % 2 ^ 56 + l.len.toNat
    && (!u.w || l.w) && (!(u.r || u.x) || l.r)

/-- The checks of a global access after alignment: bounds and permission (R166), lease (R389), translation (R418). -/
def globalAccess (s : State) (c : Ctx) (u : Use) (addr : W64) (len : Nat) : Except W32 (List Xl) :=
  match boundsFault s c u addr len with
  | some f => .error f
  | none =>
    if (match c.leases with | some ls => !leaseOk ls u addr len | none => false) then .error fwLEASEOUT
    else translate s c u (addr.extractLsb' 0 56).toNat len

end Sys2Proof.Machine
end

