-- ==== Sys2Proof/Machine/Net.lean ====
section
/-!
DEFINITION. The network (15: R351–R363): routes between cores, slices and dies, the links that a route crosses and whether all of
them are alive, what a core's path bitmap records, and how a failed packet is charged.
-/

namespace Sys2Proof.Machine

/-- Physical column of a core (R352, R353). -/
def physCol (s : State) (cid : Nat) : Nat :=
  ((Tbl.get 0x76543210#32 (cid / 8 % 8) (s.die (dieOf cid)).rowmap).extractLsb' (4 * (cid % 8)) 4).toNat

/-- The row ring's order of physical columns, and a column's place in it (R351). -/
def rowRing : List Nat := [0, 1, 2, 3, 8, 4, 5, 6, 7]
def ringPlace (col : Nat) : Nat := (rowRing.findIdx? (fun x => x = col)).getD 0

/-- A place on the network: die, row, physical column. -/
structure Site where
  die : Nat
  row : Nat
  col : Nat
  deriving DecidableEq, Repr

def coreAt (s : State) (cid : Nat) : Site := ⟨dieOf cid, cid / 8 % 8, physCol s cid⟩
/-- The slice that is home to an address (R351, R362). -/
def sliceAt (pa : Nat) : Site := ⟨homeDie pa, homeSlice pa / 8, homeSlice pa % 8⟩

/-- A link of a die: the site it leaves and its direction: 0 along the row ring, 1 to the next row; of the gateway, site 72: 2 to the
hub, 3 to die d − 1, 4 to die d + 1 (R351, R363, R370). -/
structure Link where
  die : Nat
  site : Nat
  dir : Nat
  deriving DecidableEq, Repr

/-- R355: the links of a ring of `n` between two places, ascending or descending. -/
def ringUp (n a b : Nat) : List Nat := (upTo ((b + n - a) % n)).map (fun i => (a + i) % n)
/-- R355: the links of a ring between two places by the shorter direction, ascending where both are equal; `turn` takes the
opposite direction (R357). -/
def ringLinks (n a b : Nat) (turn : Bool) : List Nat :=
  if decide (2 * ((b + n - a) % n) ≤ n) != turn then ringUp n a b else ringUp n b a

/-- The links of a row's ring between two columns, and of a column's ring between two rows. -/
def rowLinks (d r c c' : Nat) (turn : Bool) : List Link :=
  if c = c' then [] else (ringLinks 9 (ringPlace c) (ringPlace c') turn).map (fun i => ⟨d, 9 * r + nth 0 i rowRing, 0⟩)
def colLinks (d c r r' : Nat) (turn : Bool) : List Link :=
  if r = r' then [] else (ringLinks 8 r r' turn).map (fun i => ⟨d, 9 * i + c, 1⟩)
/-- R363: the links between the gateways of two dies. -/
def gateLinks (d d' : Nat) : List Link :=
  if d = d' then []
  else if d' = (d + 1) % 4 then [⟨d, 72, 4⟩, ⟨d', 72, 3⟩]
  else if d = (d' + 1) % 4 then [⟨d, 72, 3⟩, ⟨d', 72, 4⟩]
  else [⟨d, 72, 2⟩, ⟨d', 72, 2⟩]

/-- R355, R363: the links that a packet crosses: the source's row ring, then the destination's column ring; to another die the row
ring to column 8, the gateways, and from column 8 of the same row on (log 113). -/
def route (a b : Site) : List Link :=
  if a.die = b.die then rowLinks a.die a.row a.col b.col false ++ colLinks a.die b.col a.row b.row false
  else rowLinks a.die a.row a.col 8 false ++ gateLinks a.die b.die
    ++ rowLinks b.die a.row 8 b.col false ++ colLinks b.die b.col a.row b.row false
/-- R357: the routes that a curator reroute may take: the opposite direction on each ring, or the column-8 ring in place of the
column's. -/
def reroutes (a b : Site) : List (List Link) :=
  let c := if a.die = b.die then a.col else 8
  let head := if a.die = b.die then [] else rowLinks a.die a.row a.col 8 true ++ gateLinks a.die b.die
  [head ++ rowLinks b.die a.row c b.col true ++ colLinks b.die b.col a.row b.row true,
   head ++ rowLinks b.die a.row c 8 true ++ colLinks b.die 8 a.row b.row true ++ rowLinks b.die b.row 8 b.col true]
/-- R355: a control packet between column 8 of a row and a site of the same die: the column-8 ring and the site's row ring. -/
def ctlRoute (a : Site) (row : Nat) (turn : Bool) : List Link := rowLinks a.die a.row a.col 8 turn ++ colLinks a.die 8 a.row row turn

def Link.dead (s : State) (l : Link) : Bool := (s.die l.die).links.contains (l.site, l.dir)
def routeAlive (s : State) (r : List Link) : Bool := s.dies.all (fun d => d.2.links.isEmpty) || r.all (fun l => !l.dead s)

/-- The further link of an address in host memory, from its home die to the hub (R362, R363). -/
def homeLinks (pa : Nat) : List Link := if pa / 2 ^ 51 % 2 = 1 then [⟨homeDie pa, 72, 2⟩] else []
/-- R357, R458: whether packets pass from a core to the home of an address: no dead link on the way and, for host memory, a Watis
port with link. -/
def routeUp (s : State) (cid pa : Nat) : Bool :=
  (pa / 2 ^ 51 % 2 = 0 || s.hub.watis != 0#2) && routeAlive s (route (coreAt s cid) (sliceAt pa) ++ homeLinks pa)
/-- Whether the answer of the home of an address passes back to a core. -/
def backUp (s : State) (cid pa : Nat) : Bool := routeAlive s (route (sliceAt pa) (coreAt s cid))

/-- R355, R357: whether packets pass from a core to another core. -/
def peerUp (s : State) (cid rx : Nat) : Bool := cid = rx || routeAlive s (route (coreAt s cid) (coreAt s rx))
/-- Whether a core reaches another and is answered. -/
def peerBack (s : State) (cid rx : Nat) : Bool := peerUp s cid rx && peerUp s rx cid

/-- R352, R353: the row of a die's curator. -/
def curRow (s : State) (d : Nat) : Nat :=
  (((s.die d).rowinfo.find? (fun e => e.2.extractLsb' 4 4 = 2#4)).map (fun e => e.1)).getD 0
/-- R357, R405: whether control packets reach a core from the curator's row, by the plain route or rerouted. -/
def ctlReaches (s : State) (cid : Nat) : Bool :=
  let a := coreAt s cid
  let r := curRow s a.die
  routeAlive s (ctlRoute a r false) || routeAlive s (ctlRoute a r true)

/-- R359: the bits of the path bitmap that a write to an address sets. -/
def pathBits (cid pa : Nat) : BitVec 70 :=
  (if homeDie pa = dieOf cid then 1#70 <<< homeSlice pa else 1#70 <<< (64 + homeDie pa))
  ||| (if pa / 2 ^ 51 % 2 = 1 then 1#70 <<< 68 else 0#70)
def State.notePath (s : State) (cid pa : Nat) : State :=
  let c := s.core cid
  s.setCore cid { c with paths := c.paths ||| pathBits cid pa }

/-! ### Unit codes (R370) -/

/-- The code of a unit of a die: site 9·row + column, or 72 for a unit of the whole die, and its block. -/
def siteOf (d site block : Nat) : Half :=
  if site ≥ 72 then BitVec.ofNat 16 (2 ^ 15 + d * 2 ^ 12 + 15 * 2 ^ 8 + block)
  else BitVec.ofNat 16 (2 ^ 15 + d * 2 ^ 12 + site % 9 * 2 ^ 8 + site / 9 * 2 ^ 5 + block)
/-- The code of a link end. -/
def Link.code (l : Link) : Half := siteOf l.die l.site (if l.dir < 2 then 9 + l.dir else 11 + l.dir)
/-- The code of the hub. -/
def hubSite : Half := siteOf 4 72 0
/-- The code of a core's logic, and of the slice that is home to an address. -/
def coreSite (s : State) (cid : Nat) : Half := siteOf (dieOf cid) (9 * (cid / 8 % 8) + physCol s cid) 1
def sliceSite (pa : Nat) : Half := siteOf (homeDie pa) (9 * (homeSlice pa / 8) + homeSlice pa % 8) 8

/-- The code that names the first dead link of a route, or the hub's. -/
def deadCode (s : State) (r : List Link) : Half :=
  match r.find? (fun l => l.dead s) with
  | some l => l.code
  | none => hubSite
/-- The code that names the first dead link between a core and the home of an address. -/
def deadSite (s : State) (cid pa : Nat) : Half :=
  deadCode s (route (coreAt s cid) (sliceAt pa) ++ homeLinks pa ++ route (sliceAt pa) (coreAt s cid))

/-! ### Failed packets (R360, R361) -/

/-- R360: a failed packet charged to a thread. -/
def FailRec.charge (f : FailRec) (unit : Half) (pois dead : Bool) : FailRec :=
  { f with unit := if f.count = 0 then unit else f.unit, count := min 255 (f.count + 1), pois := f.pois || pois, dead := f.dead || dead }
/-- R339: a dropped message charged to a thread. -/
def FailRec.drop (f : FailRec) : FailRec := { f with drops := f.drops + 1, dropFirst := f.dropFirst || f.count = 0 }
/-- What a fence reports of a record: the dropped messages only at cluster scope or wider, FUNIT 0x001 for them (R337). -/
def FailRec.seen (f : FailRec) (wide : Bool) : FailRec :=
  if wide then { f with unit := if f.dropFirst then 1#16 else f.unit, count := min 255 (f.count + f.drops) } else { f with drops := 0 }
/-- What a fence leaves of a record. -/
def FailRec.after (f : FailRec) (wide : Bool) : FailRec :=
  if wide then FailRec.none else { FailRec.none with drops := f.drops, dropFirst := f.drops != 0 }

/-- The failure records of the threads of a set of a group that have not exited, changed (R361). -/
def failIn (s : State) (gid : Nat) (m : Mask) (f : FailRec → FailRec) : State :=
  let g := s.group gid
  let upd (ts : Tbl Thread) (l : Nat) : Tbl Thread :=
    let t := Tbl.get Thread.zero l ts
    Tbl.put l { t with fail := f t.fail } ts
  s.setGroup gid { g with threads := lanes.foldl (fun ts l => if m.getLsbD l && g.fmask.getLsbD l then upd ts l else ts) g.threads }
/-- A failed packet charged to them. -/
def chargeGroup (s : State) (gid : Nat) (m : Mask) (unit : Half) (pois dead : Bool) : State :=
  failIn s gid m (fun f => f.charge unit pois dead)

/-- Who answers for a write: the slots of a core's groups, and the threads of each. -/
structure Payer where
  slots : Mask
  lanes : Mask
  deriving DecidableEq, Repr
/-- A failed packet of a core charged. -/
def chargeSlots (s : State) (cid : Nat) (p : Payer) (unit : Half) (pois dead : Bool) : State :=
  (upTo 32).foldl (fun s i => if p.slots.getLsbD i then chargeGroup s (32 * cid + i) p.lanes unit pois dead else s) s

/-- R357, R359, R361, R369: a write packet of a core to the home of an address: the bitmap bit; where the way is dead nothing is
written, where only the answer's is, the write performs; both are charged with DEADLINK. A write to a poisoned line is charged with POISON (log 114). -/
def sendWrite (s : State) (cid pa : Nat) (p : Payer) (w : Memory → Memory) : State :=
  let s := s.notePath cid pa
  if !routeUp s cid pa then chargeSlots s cid p (deadSite s cid pa) false true
  else
    let po := s.mem.isPois (pa / 128)
    let s : State := { s with mem := w s.mem }
    let dead := !backUp s cid pa
    if po || dead then chargeSlots s cid p (if dead then deadSite s cid pa else sliceSite pa) po dead else s

end Sys2Proof.Machine
end

