-- ==== Sys2Proof/Machine/Cache.lean ====
section
/-!
DEFINITION. The L1 data cache (08: R199, R200, R207) and the instruction cache, and the fetch of an instruction line (R63–R68,
R483).
-/

namespace Sys2Proof.Machine

/-! ### The L1 data cache (R199, R200) -/

/-- The dirty bytes of a line written to its home slice. -/
def writeBackFrom (m : Memory) (pa : Nat) (dirty : BitVec 128) : Nat → List Byte → Memory
  | _, [] => m
  | i, b :: t => writeBackFrom (if dirty.getLsbD i then m.poke (pa + i) b else m) pa dirty (i + 1) t
def L1Line.writeBack (m : Memory) (line : Nat) (l : L1Line) : Memory :=
  if l.dirty = 0#128 then m
  else
    let m := (writeBackFrom m (128 * line) l.dirty 0 l.data).bound (128 * line)
    if l.pois then m.markPois line else m

/-- The key of a line in the L1: a frame mapped with two kinds may stand in it once for each (R215). -/
def l1Key (line : Nat) (uo : Bool) : Nat := 2 * line + (if uo then 1 else 0)

/-- A dirty line sent to its home, charged to every thread of the groups that stored into it where it fails (R357, R361). -/
def sendLine (s : State) (cid key : Nat) (l : L1Line) : State :=
  if l.dirty = 0#128 then s
  else sendWrite s cid (128 * (key / 2)) ⟨l.wm, 0xFFFFFFFF#32⟩ (fun m => l.writeBack m (key / 2))
/-- A line after it has been written back. -/
def L1Line.clean (l : L1Line) : L1Line := { l with dirty := 0#128, wm := 0#32 }

/-- A line as a fill reads it from its home slice; over a dead path zeros marked poisoned (R357). -/
def fillLine (s : State) (cid line : Nat) (uo : Bool) : L1Line :=
  if routeUp s cid (128 * line) && backUp s cid (128 * line) then
    ⟨s.mem.peeks (128 * line) 128, 0#128, uo, false, s.mem.isPois line, 0#32, false⟩
  else ⟨List.replicate 128 0#8, 0#128, uo, false, true, 0#32, false⟩

/-- The lines of a core's L1 that share a line's set: 256 sets, by the low bits of the line's number (R199; log 9). -/
def setOf (l1 : Tbl L1Line) (key : Nat) : List (Nat × L1Line) := l1.filter (fun e => e.1 / 2 % 256 = key / 2 % 256)

/-- R199: a line placed in the L1; a full set first gives up a line, one marked `.lu` before any other. -/
def placeLine (s : State) (cid key : Nat) (l : L1Line) : State :=
  let c := s.core cid
  let ways := setOf c.l1 key
  if ways.length < 16 || (Tbl.find key c.l1).isSome then s.setCore cid { c with l1 := Tbl.put key l c.l1 }
  else
    let pref := ways.filter (fun e => e.2.lu)
    let cand := if pref.isEmpty then ways else pref
    let ix := Config.victim (cand.map (fun e => e.1)) s.fresh % cand.length
    let (vk, v) := nth (0, l) ix cand
    sendLine { (s.setCore cid { c with l1 := Tbl.put key l (Tbl.del vk c.l1) }) with fresh := s.fresh + 1 } cid vk v

/-- The bytes of an access that an L1 line holds. -/
def takeBytes (l : L1Line) (ofs len : Nat) : List Byte := (l.data.drop ofs).take len

/-- Replace bytes of a line, marking them dirty. -/
def patch : List Byte → Nat → List Byte → List Byte
  | d, _, [] => d
  | d, i, b :: t => patch (setNth b i d) (i + 1) t
def maskBits (ofs len : Nat) : BitVec 128 := BitVec.ofNat 128 ((2 ^ len - 1) * 2 ^ ofs)

/-- A line leaves the L1, its dirty bytes written back. -/
def l1Evict (s : State) (cid key : Nat) : State :=
  let c := s.core cid
  match Tbl.find key c.l1 with
  | none => s
  | some l => sendLine (s.setCore cid { c with l1 := Tbl.del key c.l1 }) cid key l
/-- A line that an acquire has invalidated leaves before it is used again (log 115). -/
def l1Touch (s : State) (cid key : Nat) : State :=
  match Tbl.find key (s.core cid).l1 with
  | some l => if l.gone then l1Evict s cid key else s
  | none => s

/-- Read bytes inside one line through the L1: the bytes, whether the line is poisoned, the state. -/
def l1Load (s : State) (cid : Nat) (uo nt lu : Bool) (pa len : Nat) : List Byte × Bool × State :=
  let key := l1Key (pa / 128) uo
  let s := l1Touch s cid key
  match Tbl.find key (s.core cid).l1 with
  | some l =>
    (takeBytes l (pa % 128) len, l.pois,
      if lu && !l.lu then s.setCore cid { (s.core cid) with l1 := Tbl.put key { l with lu := true } (s.core cid).l1 } else s)
  | none =>
    let l := fillLine s cid (pa / 128) uo
    (takeBytes l (pa % 128) len, l.pois, if nt then s else placeLine s cid key { l with lu := lu })

/-- Write bytes inside one line through the L1; `slot` is the storing group's, recorded for R361. A miss under `.nt` writes through
(R199). -/
def l1Store (s : State) (cid : Nat) (uo nt lu : Bool) (slot : Nat) (m : Mask) (pa : Nat) (bs : List Byte) : State :=
  let key := l1Key (pa / 128) uo
  let s := l1Touch s cid key
  let upd (l : L1Line) : L1Line :=
    { l with data := patch l.data (pa % 128) bs, dirty := l.dirty ||| maskBits (pa % 128) bs.length, lu := l.lu || lu
             wm := l.wm ||| (1#32 <<< slot) }
  match Tbl.find key (s.core cid).l1 with
  | some l => s.setCore cid { (s.core cid) with l1 := Tbl.put key (upd l) (s.core cid).l1 }
  | none =>
    if nt then sendWrite s cid pa ⟨1#32 <<< slot, m⟩ (fun x => x.pokes pa bs)
    else placeLine s cid key (upd (fillLine s cid (pa / 128) uo))

/-- The pieces of a physical range, one per 128-byte line (R168). -/
def linePieces : Nat → Nat → Nat → List (Nat × Nat)
  | 0, _, _ => []
  | n + 1, pa, len =>
    if len = 0 then []
    else
      let k := min len (128 - pa % 128)
      (pa, k) :: linePieces n (pa + k) (len - k)

/-- A load of a physical range inside one line on the load/store path of a core (R199, R202): its kind 0 SO, 1 RC, 2 UO. -/
def loadXl (s : State) (cid : Nat) (nt lu : Bool) (x : Xl) : List Byte × Bool × State :=
  if x.kind = 0 then
    if routeUp s cid x.pa && backUp s cid x.pa then (s.mem.peeks x.pa x.len, s.mem.isPois (x.pa / 128), s)
    else (List.replicate x.len 0#8, true, s)
  else l1Load s cid (x.kind = 2) nt lu x.pa x.len

/-- A store of a physical range inside one line on the load/store path of a core, for threads `m` of a group. -/
def storeXl (s : State) (gid : Nat) (m : Mask) (nt lu : Bool) (x : Xl) (bs : List Byte) : State :=
  let cid := gid / 32
  if x.kind = 0 then sendWrite s cid x.pa ⟨1#32 <<< (gid % 32), m⟩ (fun y => y.pokes x.pa bs)
  else l1Store s cid (x.kind = 2) nt lu (gid % 32) m x.pa bs

/-- Lines of the kinds chosen. -/
def L1Line.among (rc uo : Bool) (l : L1Line) : Bool := if l.uo then uo else rc
/-- R200 "write back": every dirty byte of the lines of the kinds chosen; a line already invalidated leaves. -/
def l1WriteBack (s : State) (cid : Nat) (rc uo : Bool) : State :=
  let c := s.core cid
  c.l1.foldl (fun s e => if e.2.among rc uo then sendLine s cid e.1 e.2 else s)
    (s.setCore cid { c with
      l1 := (c.l1.filter (fun e => !(e.2.among rc uo && e.2.gone))).map (fun e => if e.2.among rc uo then (e.1, e.2.clean) else e) })

/-- R200 "invalidate": write back, then drop the lines of the kinds chosen. -/
def l1Invalidate (s : State) (cid : Nat) (rc uo : Bool) : State :=
  let s := l1WriteBack s cid rc uo
  let c := s.core cid
  s.setCore cid { c with l1 := c.l1.filter (fun e => !e.2.among rc uo) }
/-- R200, R221: the invalidation of RC lines by an acquire: a clean line goes at once, a dirty one is written back and dropped before it is used
again (log 115). -/
def l1Acquire (s : State) (cid : Nat) : State :=
  let c := s.core cid
  s.setCore cid { c with
    l1 := (c.l1.filter (fun e => e.2.uo || e.2.dirty != 0#128)).map (fun e => if e.2.uo then e else (e.1, { e.2 with gone := true })) }

/-- One L1 line written back; `drop` also removes it (R187). -/
def l1CleanLine (s : State) (cid key : Nat) (drop : Bool) : State :=
  let c := s.core cid
  match Tbl.find key c.l1 with
  | none => s
  | some l =>
    if drop || l.gone then l1Evict s cid key
    else sendLine (s.setCore cid { c with l1 := Tbl.put key l.clean c.l1 }) cid key l

/-- R186: the line dropped from the L1 without write-back. -/
def l1Drop (s : State) (cid line : Nat) : State :=
  let c := s.core cid
  s.setCore cid { c with l1 := Tbl.del (l1Key line true) (Tbl.del (l1Key line false) c.l1) }

/-- Whether a line lies in a vitrine that is not idle: its slice keeps its data under `discard` (R366). -/
def Vit.holds (v : Vit) (pa : Nat) : Bool :=
  let base := (v.base.extractLsb' 21 31).toNat * 2 ^ 21
  v.st != 0 && base ≤ pa && pa < base + (v.base.extractLsb' 0 8).toNat * 2 ^ 21
def pinnedLine (s : State) (line : Nat) : Bool :=
  (s.die (homeDie (128 * line))).vit.any (fun e => e.2.holds (128 * line))

/-! ### Instruction fetch (R63–R68, R483) -/

def fwIFPAR : W32 := 0x01522001#32
def fwBADLINE : W32 := 0x01522002#32
def fwBADTGT : W32 := 0x01523001#32
def fwBADPC : W32 := 0x01523002#32

/-- R66: a legal PC. -/
def pcLegal (pc : W64) : Bool :=
  let l := (pc.extractLsb' 0 6).toNat
  l % 12 = 0 && l ≤ 48 && (pc.extractLsb' 56 8).toNat ≤ 0xFA

/-- Slot number of a legal PC. -/
def slotIx (pc : W64) : Nat := (pc.extractLsb' 0 6).toNat / 12
def lineAddr (pc : W64) : W64 := pc - (pc.extractLsb' 0 6).setWidth 64

/-- R66: the PC reached by falling through. -/
def nextPc (pc : W64) : W64 := if slotIx pc ≥ 4 then lineAddr pc + 64#64 else pc + 12#64

/-- The 96-bit word of slot i and the line word of a 64-byte line (R63, R64). -/
def slotWord (l : List Byte) (i : Nat) : W96 := BitVec.ofNat 96 (natOf ((l.drop (12 * i)).take 12))
def lineWord (l : List Byte) : W32 := BitVec.ofNat 32 (natOf ((l.drop 60).take 4))

/-- The parity of a number's bits (its low `n`). -/
def parity : Nat → Nat → Bool
  | 0, _ => false
  | n + 1, x => (x % 2 == 1) != parity n (x / 2)

def lineTgt (l : List Byte) (i : Nat) : Bool := (lineWord l).getLsbD i
def linePair (l : List Byte) (i : Nat) : Bool := (lineWord l).getLsbD (5 + i)
/-- R65. -/
def lparBad (l : List Byte) : Bool := parity 32 (lineWord l).toNat
def sparBad (l : List Byte) (i : Nat) : Bool := parity 96 (slotWord l i).toNat != (lineWord l).getLsbD (16 + i)
/-- R64: reserved bits of the line word. -/
def lineRes (l : List Byte) : Bool := (lineWord l).extractLsb' 22 10 != 0#10 || (lineWord l).extractLsb' 10 6 != 0#6

/-- A line placed in a core's instruction cache, of 128 KiB (R1): one of 2,048 lines makes room, which one `Config` says (log 112). -/
def icPut (s : State) (cid k : Nat) (l : List Byte) : State :=
  let c := s.core cid
  if c.ic.length < 2048 || (Tbl.find k c.ic).isSome then s.setCore cid { c with ic := Tbl.put k l c.ic }
  else
    let ks := c.ic.map (fun e => e.1)
    { (s.setCore cid { c with ic := Tbl.put k l (Tbl.del (nth 0 (Config.victim ks s.fresh % ks.length) ks) c.ic) }) with
      fresh := s.fresh + 1 }

/-- R68: a line as the core's instruction cache returns it: the cached line, and where it differs from memory's either of
the two; a line not held is fetched from the coherence point. -/
def fetchLine (s : State) (cid pa : Nat) : List Byte × State :=
  let now := s.mem.peeks pa 64
  let c := s.core cid
  match Tbl.find (pa / 64) c.ic with
  | none => (now, icPut s cid (pa / 64) now)
  | some old =>
    if old = now then (now, s)
    else if (Config.free s.fresh).getLsbD 0 then
      (now, { (icPut s cid (pa / 64) now) with fresh := s.fresh + 1 })
    else (old, { s with fresh := s.fresh + 1 })

/-- R67: the line discarded and fetched again after a parity mismatch. -/
def refetch (s : State) (cid pa : Nat) : List Byte × State :=
  let now := s.mem.peeks pa 64
  (now, icPut s cid (pa / 64) now)

/-- R483 steps 1 to 4 for a PC: the physical address of its line, or the fault. -/
def fetchAddr (s : State) (c : Ctx) (pc : W64) : Except W32 Nat :=
  if !pcLegal pc then .error fwBADPC
  else match globalAccess s c .fetch (lineAddr pc) 64 with
    | .ok (x :: _) => .ok x.pa
    | .ok [] => .error fwPGNV
    | .error f => .error f

/-- R67, R483 step 5, with the refetch: the line, or IFPAR or BADLINE with the offset TADDR names. `slot` none checks the
line word only (R66 step 3). -/
def checkedLine (s : State) (cid pa : Nat) (slot : Option Nat) : Except (W32 × Nat) (List Byte) × State :=
  let bad (l : List Byte) : Bool := lparBad l || (match slot with | some i => sparBad l i | none => false)
  let (l, s) := fetchLine s cid pa
  let (l, s) := if bad l then refetch s cid pa else (l, s)
  if lparBad l then (.error (fwIFPAR, 60), s)
  else match slot with
    | some i =>
      if sparBad l i then (.error (fwIFPAR, 12 * i), s)
      else if lineRes l then (.error (fwBADLINE, 60), s) else (.ok l, s)
    | none => if lineRes l then (.error (fwBADLINE, 60), s) else (.ok l, s)

/-- R66: the check of a transfer's target: none, or the fault with its TADDR. -/
def targetFault (s : State) (c : Ctx) (cid : Nat) (pc : W64) : Option (W32 × W64) × State :=
  match fetchAddr s c pc with
  | .error f => (some (f, pc), s)
  | .ok pa =>
    match checkedLine s cid pa none with
    | (.error (f, o), s) => (some (f, lineAddr pc + BitVec.ofNat 64 o), s)
    | (.ok l, s) => (if lineTgt l (slotIx pc) then none else some (fwBADTGT, pc), s)

end Sys2Proof.Machine
end

