-- ==== Sys2Proof/Machine/Operands.lean ====
section
/-!
DEFINITION. Operand forms: reading and writing the register files of a group (R41–R45, R70–R74, R95, R96, R121), the
special operands, and which registers an instruction names (R51, R91).
-/

namespace Sys2Proof.Machine

/-- What the special operands of a group read: its position in its team, its team, its core word (R71, R322). -/
structure Env where
  pos : Nat
  team : Nat
  core : W64
  deriving DecidableEq, Repr

/-- A varying register of a lane. -/
def Group.vreg (g : Group) (lane n : Nat) : W32 := Tbl.get 0#32 (32 * n + lane) g.v
def Group.setV (g : Group) (lane n : Nat) (x : W32) : Group := { g with v := Tbl.put (32 * n + lane) x g.v }
/-- A pair of varying registers (R95). -/
def Group.vpair (g : Group) (lane n : Nat) : W64 := g.vreg lane (n + 1) ++ g.vreg lane n
def Group.setV2 (g : Group) (lane n : Nat) (x : W64) : Group :=
  (g.setV lane n (x.extractLsb' 0 32)).setV lane (n + 1) (x.extractLsb' 32 32)
/-- A uniform register. -/
def Group.ureg (g : Group) (n : Nat) : W64 := Tbl.get 0#64 n g.u
def Group.setU (g : Group) (n : Nat) (x : W64) : Group := { g with u := Tbl.put n x g.u }
/-- An affine register's base and stride. -/
def Group.abase (g : Group) (n : Nat) : W64 := Tbl.get 0#64 n g.ab
def Group.astride (g : Group) (n : Nat) : W32 := Tbl.get 0#32 n g.as
def Group.setA (g : Group) (n : Nat) (b : W64) (t : W32) : Group :=
  { g with ab := Tbl.put n b g.ab, as := Tbl.put n t g.as }

/-- A thread of a group. -/
def Group.thread (g : Group) (lane : Nat) : Thread := Tbl.get Thread.zero lane g.threads
def Group.setThread (g : Group) (lane : Nat) (t : Thread) : Group := { g with threads := Tbl.put lane t g.threads }
def Group.modThread (g : Group) (lane : Nat) (f : Thread → Thread) : Group := g.setThread lane (f (g.thread lane))

/-- A change of every thread of a set. -/
def Group.modThreads (g : Group) (m : Mask) (f : Thread → Thread) : Group :=
  lanes.foldl (fun g l => if m.getLsbD l then g.modThread l f else g) g

/-- A predicate: p7 reads 1 (R43). -/
def Group.preg (g : Group) (lane : Nat) (n : BitVec 3) : Bool := n = 7#3 || (g.thread lane).preds.getLsbD n.toNat
def setBit {w : Nat} (x : BitVec w) (i : Nat) (b : Bool) : BitVec w :=
  if b then x ||| (1#w <<< i) else x &&& ~~~(1#w <<< i)
/-- A write to p7 is discarded (R43). -/
def Group.setP (g : Group) (lane : Nat) (n : BitVec 3) (b : Bool) : Group :=
  if n = 7#3 then g else g.modThread lane (fun t => { t with preds := setBit t.preds n.toNat b })
def Group.setQ (g : Group) (n : BitVec 2) (b : Bool) : Group := { g with q := setBit g.q n.toNat b }

/-- Flags ORed into a thread's TSR (R27). -/
def Group.orFlags (g : Group) (lane : Nat) (f : BitVec 5) : Group :=
  if f = 0#5 then g else g.modThread lane (fun t => { t with flags := t.flags ||| f })

/-- R42: the value of an affine pair in a lane. -/
def laneVal (base : W64) (stride : W32) (lane : Nat) : W64 := base + stride.signExtend 64 * BitVec.ofNat 64 lane

/-- Base and stride of an affine or uniform operand; a uniform operand acts with stride 0 (R45, R47). -/
def affOf (g : Group) (e : Env) (imm : W32) : Opd → W64 × Int
  | .a n => (g.abase n.toNat, (g.astride n.toNat).toInt)
  | .laneid => (0#64, 1)
  | .s n => (g.ureg n.toNat, 0)
  | .groupid => (BitVec.ofNat 64 e.pos, 0)
  | .teamid => (BitVec.ofNat 64 e.team, 0)
  | .coreid => (e.core, 0)
  | .imm => (imm.signExtend 64, 0)
  | _ => (0#64, 0)

/-- The 64-bit value of an operand in a lane: a varying operand is the pair (R95 under `.w`). -/
def rd64 (g : Group) (e : Env) (imm : W32) (lane : Nat) : Opd → W64
  | .v n => g.vpair lane n.toNat
  | .s n => g.ureg n.toNat
  | .a n => laneVal (g.abase n.toNat) (g.astride n.toNat) lane
  | .laneid => BitVec.ofNat 64 lane
  | .groupid => BitVec.ofNat 64 e.pos
  | .teamid => BitVec.ofNat 64 e.team
  | .coreid => e.core
  | .imm => imm.signExtend 64
  | _ => 0#64

/-- The 32-bit value of an operand in a lane (R95 at w = 32, R96, R121). -/
def rd32 (g : Group) (e : Env) (imm : W32) (lane : Nat) : Opd → W32
  | .v n => g.vreg lane n.toNat
  | .imm => imm
  | x => (rd64 g e imm lane x).extractLsb' 0 32

/-- An operand at width 32 or 64, as an unsigned number. -/
def rdw (w : Bool) (g : Group) (e : Env) (imm : W32) (lane : Nat) (x : Opd) : Nat :=
  if w then (rd64 g e imm lane x).toNat else (rd32 g e imm lane x).toNat

/-- A predicate operand in a lane; `zero` reads 0 (R97, R103). -/
def rdP (g : Group) (lane : Nat) : Opd → Bool
  | .p n => g.preg lane n
  | .q n => g.q.getLsbD n.toNat
  | _ => false

/-- The guard of a thread (R72). -/
def guardTrue (gd : Guard) (g : Group) (lane : Nat) : Bool := g.preg lane gd.idx != gd.neg

/-- The lanes of a set that satisfy a test. -/
def maskWhere (m : Mask) (f : Nat → Bool) : Mask :=
  lanes.foldl (fun a l => if m.getLsbD l && f l then setBit a l true else a) 0#32
/-- The lanes of a set, ascending. -/
def lanesOf (m : Mask) : List Nat := lanes.filter (fun l => m.getLsbD l)

/-! ### The registers an instruction names (R51, R91) -/

/-- Registers named by an operand that takes `n` varying or `k` uniform registers: the highest index of each file. -/
structure Named where
  v : List Nat
  s : List Nat
  a : List Nat
  deriving DecidableEq, Repr

def named (x : Opd) (n k : Nat) : Named :=
  match x with
  | .v i => ⟨[i.toNat + n - 1], [], []⟩
  | .s i => ⟨[], [i.toNat + k - 1], []⟩
  | .a i => ⟨[], [], [i.toNat]⟩
  | _ => ⟨[], [], []⟩

def Named.join (x y : Named) : Named := ⟨x.v ++ y.v, x.s ++ y.s, x.a ++ y.a⟩
def namedAll (l : List Named) : Named := l.foldl Named.join ⟨[], [], []⟩

/-- How many varying and uniform registers D, A, B and C of an instruction take. -/
def instrSpans : Instr → (Nat × Nat) × (Nat × Nat) × (Nat × Nat) × (Nat × Nat)
  | .iadd _ w _ | .isub _ w _ | .imul _ w _ | .imulh _ w _ | .imad _ w | .iaddc _ w _ _ | .imin _ w _ | .imax _ w _
  | .and _ w | .or _ w | .xor _ w | .andn _ w =>
    let k := if w then 2 else 1
    ((k, 1), (k, 1), (k, 1), (k, 1))
  | .iabs _ w _ | .ineg _ w _ | .not _ w | .shl _ w | .shr _ w | .sar _ w | .rot _ w | .popc _ w | .clz _ w | .ctz _ w
  | .brev _ w | .bfe _ w _ | .mov _ w | .movi _ w _ =>
    let k := if w then 2 else 1
    ((k, 1), (k, 1), (1, 1), (1, 1))
  | .bfi _ w => let k := if w then 2 else 1
    ((k, 1), (k, 1), (1, 1), (k, 1))
  | .icmp _ w _ _ _ => let k := if w then 2 else 1
    ((1, 1), (k, 1), (k, 1), (1, 1))
  | .isel _ w => let k := if w then 2 else 1
    ((k, 1), (k, 1), (k, 1), (1, 1))
  | .lea _ _ idx => ((2, 1), (2, 1), (if idx = .full then 2 else 1, 1), (1, 1))
  | .promv _ f => ((if f = .w then 2 else 1, 1), (1, 1), (1, 1), (1, 1))
  | .fcvt _ _ k =>
    ((if k = .fsl || k = .ful then 2 else 1, 1), (if k = .slf || k = .ulf then 2 else 1, 1), (1, 1), (1, 1))
  | .bfcvt _ rm _ => ((1, 1), (1, 1), (1, 1), (1, if rm = .sr then 2 else 1))
  | .rng _ _ => ((4, 1), (1, 1), (2, 1), (2, 1))
  | .brx _ _ | .callx _ => ((1, 1), (2, 1), (1, 1), (1, 1))
  | .redmaxi _ _ => ((2, 1), (1, 1), (1, 1), (1, 1))
  | .getsr o => ((if srWidth o.srnum = some 64 then 2 else 1, 1), (1, 1), (1, 1), (1, 1))
  | .setsr o _ => ((1, 1), (if srWidth o.srnum = some 64 then 2 else 1, 1), (1, 1), (1, 1))
  | .ld _ _ _ _ sz => ((sz.vregs, sz.sregs), (2, 1), (1, 1), (1, 1))
  | .st _ _ _ _ sz => ((1, 1), (2, 1), (1, 1), (sz.vregs, sz.sregs))
  | .ldConvert _ _ _ | .stConvert _ _ _ _ _ | .pref _ _ | .discard _ | .clean _ _ | .inval _ _ =>
    ((1, 1), (2, 1), (1, 1), (1, 1))
  | .copy _ => ((1, 1), (2, 1), (1, 1), (1, 2))
  | .atom _ sz _ _ aop | .red _ sz _ _ aop =>
    let k := if sz then 2 else 1
    ((k, 1), (2, 1), (1, 1), (if aop = .cas then 2 * k else k, if aop = .cas then 2 else 1))
  | .mma _ _ _ => ((1, 1), (64, 1), (1, 1), (1, 2))
  | .mmaS _ _ => ((1, 1), (1, 1), (1, 1), (1, 2))
  | .mmaP o _ _ => ((1, 1), (if o.a.isV then 64 else 1, 1), (1, 1), (1, 2))
  | .rld _ c => ((match c with | .x1 => 1 | .x2 => 2 | .x4 => 4, 1), (2, 1), (1, 1), (1, 1))
  | .msend _ blk => ((1, 1), (1, 1), (1, 1), (1, if blk then 2 else 1))
  | .mrecv _ => ((1, 1), (1, 2), (1, 1), (1, 1))
  | .hpop _ => ((1, 4), (1, 1), (1, 1), (1, 1))
  | .hpush _ => ((1, 1), (1, 1), (1, 4), (1, 1))
  | .tokrec _ => ((1, 1), (1, 1), (1, 1), (1, 2))
  | _ => ((1, 1), (1, 1), (1, 1), (1, 1))

/-- Every register an instruction names, as the highest index of each operand's block. -/
def instrNamed (i : Instr) : Named :=
  match i.guardOf with
  | none => ⟨[], [], []⟩
  | some o =>
    let (d, a, b, c) := instrSpans i
    let lo (x : Opd) (k : Nat × Nat) : Named := (named x 1 1).join (named x k.1 k.2)
    namedAll [lo o.d d, lo o.a a, lo o.b b, lo o.c c]

/-- R50, R51, R91: every named varying register is held and every named uniform and affine register counted. -/
def regsOk (i : Instr) (xblk ucount acount : Nat) : Bool :=
  let n := instrNamed i
  n.v.all (fun k => decide (k < 64 + 32 * xblk)) && n.s.all (fun k => decide (k < ucount))
  && n.a.all (fun k => decide (k < acount))

end Sys2Proof.Machine
end

