-- ==== Sys2Proof/Machine/Teams.lean ====
section
/-!
DEFINITION. The context of a group: its team, its job, its core's partition and cluster, what its accesses translate under, and the
changes of one group, core, team or die.
-/

namespace Sys2Proof.Machine

/-! ### Teams of a core (R196, R296) -/

/-- Group slots of team t (R296, R375). -/
def teamSlots (gs : BitVec 48) (t : Nat) : Nat := (gs.extractLsb' (6 * t) 6).toNat
/-- First group slot of team t. -/
def firstSlot (gs : BitVec 48) : Nat → Nat
  | 0 => 0
  | t + 1 => firstSlot gs t + teamSlots gs t
/-- The team of a group slot and its position in it, none for a slot that no team has. -/
def slotTeam (gs : BitVec 48) (slot : Nat) : Option (Nat × Nat) :=
  ((upTo 8).find? (fun t => firstSlot gs t ≤ slot && slot < firstSlot gs t + teamSlots gs t)).map
    (fun t => (t, slot - firstSlot gs t))

/-- Fields of the partition word (R194). -/
def pwTeams (w : W32) : Nat := (w.extractLsb' 21 3).toNat
def pwAcu (w : W32) : Nat := (w.extractLsb' 14 7).toNat
def pwSpu (w : W32) : Nat := (w.extractLsb' 7 7).toNat
def pwRfu (w : W32) : Nat := (w.extractLsb' 0 7).toNat
/-- A team's share of scratchpad bytes and of tiles (R196). -/
def spShare (w : W32) : Nat := pwSpu w * 16384 / (pwTeams w + 1) / 128 * 128
def tileShare (w : W32) : Nat := pwAcu w / (pwTeams w + 1)

def State.posOf (s : State) (gid : Nat) : Nat × Nat := (slotTeam (s.core (cidOf gid)).gslots (gid % 32)).getD (0, 0)
/-- The team of a group. -/
def State.tidOf (s : State) (gid : Nat) : Nat := 8 * cidOf gid + (s.posOf gid).1
/-- The groups of a team, in slot order. -/
def State.groupsOf (s : State) (tid : Nat) : List Nat :=
  let gs := (s.core (tid / 8)).gslots
  rangeFrom (32 * (tid / 8) + firstSlot gs (tid % 8)) (teamSlots gs (tid % 8))

/-- The running job of a group's team. -/
def State.jobOf (s : State) (gid : Nat) : Option Job := (s.team (s.tidOf gid)).job

/-- The cluster of a team's job, with this member's index. -/
def State.clusterOf (s : State) (tid : Nat) : Option (Nat × Cluster × Nat) :=
  match (s.team tid).job with
  | some j => match j.r.member with
    | some (key, ix) => (Tbl.find key s.clusters).map (fun c => (key, c, ix))
    | none => none
  | none => none

/-- Fields of the cluster configuration (R321). -/
def clOcol (c : W32) : Nat := (c.extractLsb' 0 3).toNat
def clOrow (c : W32) : Nat := (c.extractLsb' 3 3).toNat
def clCw (c : W32) : Nat := (c.extractLsb' 6 4).toNat
def clCh (c : W32) : Nat := (c.extractLsb' 10 4).toNat
def clMsgto (c : W32) : Nat := (c.extractLsb' 14 4).toNat

/-- R322: the word `coreid` reads: of a cluster job its cluster, in a tile job zeros, in idle code the core's cluster configuration. -/
def coreWord (s : State) (cid tid : Nat) : W64 :=
  let word (ix cw ch ocol orow : Nat) : W64 :=
    BitVec.ofNat 64 (cid % 64 + 64 * (dieOf cid) + 2 ^ 8 * ix + 2 ^ 12 * cw + 2 ^ 16 * ch + 2 ^ 20 * ocol + 2 ^ 23 * orow)
  match s.clusterOf tid with
  | some (key, c, ix) => word ix c.cw c.ch (key / 8 % 8) (key / 64 % 8)
  | none =>
    if (s.team tid).job.isSome then word 0 0 0 0 0
    else
      let w := (s.core cid).clcfg
      word (if clCw w = 0 then 0 else (cid / 8 % 8 - clOrow w) * clCw w + (cid % 8 - clOcol w)) (clCw w) (clCh w) (clOcol w) (clOrow w)

def State.env (s : State) (gid : Nat) : Env :=
  let (t, pos) := s.posOf gid
  ⟨pos, t, coreWord s (cidOf gid) (s.tidOf gid)⟩

/-- The partition of a core; 0 where none names it. -/
def State.pnum (s : State) (cid : Nat) : Nat := (s.partOf cid).getD 0

/-- The accession a group's accesses translate under (R427). -/
def State.accOf (s : State) (gid : Nat) : Half :=
  match s.jobOf gid with
  | some j => j.r.jacc
  | none => (s.part (s.pnum (cidOf gid))).aacc

/-- The context of a thread's global accesses (R418). -/
def State.ctx (s : State) (gid : Nat) (p : Priv) : Ctx :=
  ⟨s.pnum (cidOf gid), dieOf (cidOf gid), s.accOf gid, (s.jobOf gid).map (fun j => j.r.leases), p = .user⟩

/-- The register counts of a group: extension blocks it may ask for, uniform and affine counts (R91); outside a job all of
them (log 13). -/
def State.counts (s : State) (gid : Nat) : Nat × Nat × Nat :=
  match s.jobOf gid with
  | some j => (j.hdr.xmax, j.hdr.ucount, j.hdr.acount)
  | none => (6, 64, 32)

/-- Change of one group. -/
def State.modGroup (s : State) (gid : Nat) (f : Group → Group) : State := s.setGroup gid (f (s.group gid))
def State.modCore (s : State) (cid : Nat) (f : Core → Core) : State := s.setCore cid (f (s.core cid))
def State.modTeam (s : State) (tid : Nat) (f : Team → Team) : State := s.setTeam tid (f (s.team tid))
def State.modDie (s : State) (d : Nat) (f : Die → Die) : State := s.setDie d (f (s.die d))

/-- A free value, and the counter advanced. -/
def State.freeVal (s : State) : W64 × State := (Config.free s.fresh, { s with fresh := s.fresh + 1 })

/-- Assigned group slots of a core (R296). -/
def residents (gs : BitVec 48) : Nat := firstSlot gs 8
/-- R196: a group becomes resident only while the capacity does not fall below the blocks held: the pool holds the base blocks of the first
2 · RFU slots (log 131). -/
def fitsPool (w : W32) (slot : Nat) : Bool := decide (slot < 2 * pwRfu w)
/-- R50: capacity and free count of a core's extension blocks. -/
def State.capacity (s : State) (cid : Nat) : Int :=
  4 * (pwRfu (s.core cid).pword : Int) - 2 * (min (residents (s.core cid).gslots) (2 * pwRfu (s.core cid).pword) : Nat)
def State.heldBlocks (s : State) (cid : Nat) : Nat :=
  (rangeFrom (32 * cid) 32).foldl (fun a g => a + (if (s.group g).live then (s.group g).xblk else 0)) 0
def State.freeBlocks (s : State) (cid : Nat) : Int := s.capacity cid - s.heldBlocks cid

/-- GSR.STC: a group's outstanding stores that have not been accepted (R58, R80). -/
def Group.stc (g : Group) : Nat := (g.sts.filter (fun r => !r.taken)).length
/-- GSR.TLC: the tile operations of a group that stand in the sequencer (R58, R254). -/
def State.tlc (s : State) (gid : Nat) : Nat := ((s.core (cidOf gid)).mseq.filter (fun e => e.gid = gid && e.old = 0)).length

/-- An entry in a die's error log. -/
def State.logErr (s : State) (d : Nat) (fw : W32) (unit : Half) (addr : W64) : State :=
  s.modDie d (fun x => { x with errlog := x.errlog ++ [(fw, unit, addr)] })

end Sys2Proof.Machine
end

