-- ==== Sys2Proof/Machine/Scratch.lean ====
section
/-!
DEFINITION. Scratchpad bytes as each access path sees them (08: R196–R198, R216–R218), the synchronisation words in them (10:
R278–R281), and the delivery of a cluster's messages into them (13: R336–R339).
-/

namespace Sys2Proof.Machine

/-- The bytes of scratchpad that lie in a team's allocation (R196). -/
def State.spLimit (s : State) (cid : Nat) : Nat := spShare (s.core cid).pword

/-! ### Scratchpad and stack bytes (R197, R198, R217) -/

def tblBytes (t : Tbl Byte) (k : Nat) : Nat → List Byte
  | 0 => []
  | n + 1 => Tbl.get 0#8 k t :: tblBytes t (k + 1) n
def putBytes (t : Tbl Byte) (k : Nat) : List Byte → Tbl Byte
  | [] => t
  | b :: r => putBytes (Tbl.put k b t) (k + 1) r

/-- The newest bytes of a scratchpad. -/
def State.spBytes (s : State) (cid ofs n : Nat) : List Byte := tblBytes (s.core cid).sp ofs n
def State.spPoisoned (s : State) (cid ofs n : Nat) : Bool :=
  (s.core cid).spPois.any (fun e => ofs ≤ e.1 && e.1 < ofs + n)

/-- Bytes `new` that stand from `at_` on laid over bytes that stand from `ofs` on. -/
def overlay {α : Type} (ofs : Nat) (old : List α) (at_ : Nat) (new : List α) : List α :=
  old.zipIdx.map (fun e => if at_ ≤ ofs + e.2 then (new[ofs + e.2 - at_]?).getD e.1 else e.1)
def Stale.meets (e : Stale) (ofs n : Nat) : Bool := decide (ofs < e.ofs + e.old.length) && decide (e.ofs < ofs + n)

/-- R217: the bytes that a path reads of a scratchpad, with their poison marks: where it does not see the newest yet, the older
ones. -/
def State.spSee (s : State) (cid view ofs n : Nat) : List MByte :=
  let c := s.core cid
  let new := (s.spBytes cid ofs n).zipIdx.map (fun e => (e.1, !c.spPois.isEmpty && (Tbl.find (ofs + e.2) c.spPois).isSome))
  (c.stale.filter (fun e => e.view = view && e.meets ofs n)).foldl (fun l e => overlay ofs l e.ofs e.old) new

/-- Scratchpad bytes written and seen by every path; a written byte is no longer poisoned. -/
def State.setSp (s : State) (cid ofs : Nat) (bs : List Byte) : State :=
  s.modCore cid (fun c => { c with
    sp := putBytes c.sp ofs bs
    spPois := if c.spPois.isEmpty then [] else c.spPois.filter (fun e => e.1 < ofs || ofs + bs.length ≤ e.1)
    stale := c.stale.map (fun e => if e.meets ofs bs.length then
      { e with old := overlay e.ofs e.old ofs (bs.map (fun b => (b, false))) } else e) })

/-- The paths that read a scratchpad (R216): load/store, copy, matrix operand, gather. -/
def spViews : List Nat := [0, 1, 2, 3]
/-- R217: scratchpad bytes written by one path: the load/store and matrix paths see their own in their own order; another path, and the
other commands of a copy or gather path, see them after a cross-path fence at the latest. `word` is 1 + the synchronisation word that counts them. -/
def State.putMarks (s : State) (cid prod word ofs : Nat) (bs : List MByte) : State :=
  let old := (spViews.filter (fun v => v != prod || v % 2 = 1)).map (fun v => (⟨v, prod, word, ofs, s.spSee cid v ofs bs.length, false⟩ : Stale))
  s.modCore cid (fun c => { c with
    sp := putBytes c.sp ofs (bs.map (fun b => b.1))
    spPois := bs.zipIdx.foldl (fun t b => if b.1.2 then Tbl.put (ofs + b.2) () t else t)
      (c.spPois.filter (fun e => e.1 < ofs || ofs + bs.length ≤ e.1))
    stale := (c.stale.filter (fun e => e.pub || !(old.any (fun o => o.view = e.view && o.prod = e.prod && o.word = e.word && o.ofs = e.ofs
        && o.old.length = e.old.length)))).map (fun e =>
          if e.view = prod && prod % 2 = 0 && e.meets ofs bs.length then
            { e with old := overlay e.ofs e.old ofs bs }
          else e) ++ old })
/-- The same for bytes without marks. -/
def State.putSp (s : State) (cid prod word ofs : Nat) (bs : List Byte) : State :=
  s.putMarks cid prod word ofs (bs.map (fun b => (b, false)))
def State.poisonSp (s : State) (cid ofs n : Nat) : State :=
  s.modCore cid (fun c => { c with spPois := (rangeFrom ofs n).foldl (fun t k => Tbl.put k () t) c.spPois })

/-- Some of what a path does not see yet becomes visible to it, and what overlaps it. -/
def Core.show (c : Core) (p : Stale → Bool) : Core :=
  let go := c.stale.filter p
  { c with stale := c.stale.filter (fun e => !(p e || go.any (fun x => x.view = e.view && e.meets x.ofs x.old.length))) }
/-- R217, R218: data written by the paths `prods` becomes visible to the paths `cons` in a core's scratchpad; `word` is 0, or the only
synchronisation word, + 1, whose bytes do. -/
def State.showSp (s : State) (cid : Nat) (prods cons : BitVec 5) (word : Nat) : State :=
  if (s.core cid).stale.isEmpty then s
  else s.modCore cid (fun c => c.show (fun e => prods.getLsbD e.prod && cons.getLsbD e.view && (word = 0 || e.word = word)))
/-- R332: what the paths `prods` have written in a core's scratchpad is published by a `clarr`. -/
def State.pubSp (s : State) (cid : Nat) (prods : BitVec 5) : State :=
  s.modCore cid (fun c => { c with stale := c.stale.map (fun e => if prods.getLsbD e.prod then { e with pub := true } else e) })
/-- R333: what has been published becomes visible to the paths `cons`. -/
def State.showPub (s : State) (cid : Nat) (cons : BitVec 5) : State :=
  s.modCore cid (fun c => c.show (fun e => e.pub && cons.getLsbD e.view))

/-! ### Synchronisation words (R278–R281) -/

/-- R280: COUNT brought below TARGET, GEN counting. -/
def wrapWord (count gen target : Nat) : Nat × Nat :=
  if target = 0 then (count, gen) else (count % target, (gen + count / target) % 2 ^ 32)
def spWord (s : State) (cid at_ i : Nat) : Nat := natOf (s.spBytes cid (at_ + 4 * i) 4)
def wordBytes (target count gen err : Nat) : List Byte := bytesOf 4 target ++ bytesOf 4 count ++ bytesOf 4 gen ++ bytesOf 4 err
/-- A word as a barrier instruction leaves it, seen by every path. -/
def setWord (s : State) (cid at_ target count gen err : Nat) : State := s.setSp cid at_ (wordBytes target count gen err)
/-- R216, R280: an arrival of `n` bytes with error bits, an update of a command's own path. -/
def arrive (s : State) (path cid at_ n err : Nat) : State :=
  let target := spWord s cid at_ 0
  let count := (spWord s cid at_ 1 + n) % 2 ^ 32
  let (c, g) := wrapWord count (spWord s cid at_ 2) target
  s.putSp cid path (at_ + 1) at_ (wordBytes target c g (spWord s cid at_ 3 ||| err ||| (if target = 0 then 32 else 0)))

/-! ### Messages (R336–R339) -/

/-- R336: a message fits a receive. -/
def fitsSpec (v : W64) (m : Msg) : Bool :=
  (v.getLsbD 36 || (v.extractLsb' 32 4).toNat = m.src) && (v.getLsbD 37 || v.extractLsb' 0 32 = m.tag)
def fits (r : Posted) (m : Msg) : Bool := fitsSpec r.spec m && decide (m.data.length ≤ r.cap)
/-- R336: the envelope of a message. -/
def envelope (m : Msg) : List Byte :=
  bytesOf 4 m.tag.toNat ++ bytesOf 4 m.data.length
    ++ [BitVec.ofNat 8 m.src, BitVec.ofNat 8 m.pos, if m.blk then 1#8 else 0#8, 0#8, 0#8, 0#8, 0#8, 0#8]
/-- Overflow entries of a message, and those held (R338). -/
def msgEntries (m : Msg) : Nat := (m.data.length + 127) / 128
def ovfHeld (t : Team) : Nat := t.ovf.foldl (fun a m => a + msgEntries m) 0
/-- A team's share of the posted-receive list and of the overflow queue (R338). -/
def postShare (s : State) (tid : Nat) : Nat := 64 / (pwTeams (s.core (tid / 8)).pword + 1)
def ovfShare (s : State) (tid : Nat) : Nat := 256 / (pwTeams (s.core (tid / 8)).pword + 1)

/-- R338: a message delivered into a receive, by the copy path. -/
def deliverMsg (s : State) (tid : Nat) (r : Posted) (m : Msg) : State :=
  let cid := tid / 8
  let base := tid % 8 * s.spLimit cid
  let s := s.putSp cid 1 (base + r.word + 1) (base + (r.buf.extractLsb' 0 56).toNat) (envelope m ++ m.data)
  arrive s 1 cid (base + r.word) (16 + m.data.length) 0

/-- R338: a message meets the posted receives of its destination, then the overflow queue; none when it must stall. -/
def placeMsg (s : State) (tid : Nat) (m : Msg) : Option State :=
  let t := s.team tid
  match t.posted.find? (fun r => fits r m) with
  | some r => some (deliverMsg (s.modTeam tid (fun t => { t with posted := t.posted.filter (fun q => q.handle != r.handle) })) tid r m)
  | none =>
    if ovfHeld t + msgEntries m ≤ ovfShare s tid then some (s.modTeam tid (fun t => { t with ovf := t.ovf ++ [m] })) else none

/-- R337, R339: a message of a group reaches its destination: it is placed, or stalls there. -/
def reachMsg (s : State) (tid gid : Nat) (m : Msg) : State :=
  match placeMsg s tid m with
  | some s' => s'
  | none => s.modTeam tid (fun t => { t with stalled := t.stalled ++ [(gid, s.cycle.toNat, m)] })
/-- Whether a message of a sender waits at its destination behind a stalled one of the same sender (R339). -/
def behindStall (s : State) (tid : Nat) (m : Msg) : Bool := (s.team tid).stalled.any (fun e => e.2.2.src = m.src)

/-- R339: stalled messages that can now be placed are, in the order of their stalls. -/
def stallTurn (s : State) (tid : Nat) : Nat → State
  | 0 => s
  | n + 1 =>
    match firstIdx (fun (e : Nat × Nat × Msg) => (placeMsg s tid e.2.2).isSome) (s.team tid).stalled with
    | none => s
    | some ix =>
      match (s.team tid).stalled[ix]? with
      | none => s
      | some e =>
        match placeMsg s tid e.2.2 with
        | some s' => stallTurn (s'.modTeam tid (fun t => { t with stalled := delNth ix t.stalled })) tid n
        | none => s

end Sys2Proof.Machine
end

