-- ==== Sys2Proof/Machine/Ops.lean ====
section
/-!
DEFINITION. The operations that every meaning shares: jobs and their end, taking an exception and
returning from one, the end step of hardware loops, and issue: the checks of orders 6 to 8 of R79 around an instruction's
own effect, and the passing of its slot.
-/

namespace Sys2Proof.Machine

/-! ### The end of a job (R299, R325) -/

/-- R44: a group at its start; TCAUSE, TPC and TADDR stay those of the last trap entry (R158, log 109). -/
def startGroup (old : Group) (pc : W64) (p : Priv) (xblk : Nat) (aft : Bool) : Group :=
  { Group.zero with live := true, fmask := 0xFFFFFFFF#32, xblk := xblk, aft := aft, bcount := old.bcount
                    threads := lanes.map (fun l =>
                      let t := old.thread l
                      (l, { Thread.zero with pc := pc, priv := p, tcause := t.tcause, tpc := t.tpc, taddr := t.taddr })) }

/-- R296, R299: every group of a team restarted in Daxah's idle code at supervisor level; outside a job XBLK is 0 and AFT clear, no kernel
header applying (log 121). -/
def restartIdle (s : State) (tid : Nat) : State :=
  ((s.groupsOf tid).filter (fun g => fitsPool (s.core (tid / 8)).pword (g % 32))).foldl (fun s g =>
    s.setGroup g (startGroup (s.group g) (Config.idlePc (s.pnum (tid / 8))) .sup 0 false)) s

/-- A core's latch after the groups of a list end or trap (R241). -/
def dropLatch (gs : List Nat) (c : Core) : Core :=
  { c with latch := match c.latch with | some (k, x) => if gs.contains (k / 256) then none else some (k, x) | none => none }

/-- A core's queues after the groups of a team have ended: block requests and waiting pushes go; sequencer entries stand apart
from the groups' counters, to complete after a normal end (R256) and to be discarded after an abnormal one (R299). -/
def clearQueues (s : State) (tid : Nat) (failed : Bool) : State :=
  let gs := s.groupsOf tid
  let s : State := { s with cores := s.cores.map (fun e => (e.1, { e.2 with pushq := e.2.pushq.filter (fun x => !gs.contains x.1) })) }
  s.modCore (tid / 8) (fun c => { dropLatch gs c with
    mseq := c.mseq.map (fun e => if gs.contains e.gid || (cidOf e.gid != tid / 8 && (s.posOf e.gid).1 = tid % 8) then
      { e with old := max e.old (if failed then 2 else 1) } else e)
    tsq := c.tsq.filter (fun e => !gs.contains e.1)
    copies := c.copies.map (fun x => if gs.contains x.gid then { x with live := false } else x)
    blockq := c.blockq.filter (fun e => !gs.contains e.1) })

/-- Whether a team runs, or is about to run, its part of a cluster job (R324). -/
def State.inInstance (s : State) (tid key : Nat) : Bool :=
  let of_ (j : Option Job) : Bool := match j with | some x => x.r.member.map (fun m => m.1) = some key | none => false
  of_ (s.team tid).job || of_ (s.team tid).launching
/-- The teams a job runs on: the one team, or every member of its cluster that has taken its record. -/
def jobTeams (s : State) (tid : Nat) : List Nat :=
  match s.clusterOf tid with
  | none => [tid]
  | some (key, c, _) => (c.members.map (fun m => 8 * m + c.team)).filter (fun t => s.inInstance t key)

/-- The threads of a team stop, and what stood outstanding is no longer theirs (R299); registers keep their values until the groups
restart, with the report of the job's end (R349). -/
def stopThreads (s : State) (tid : Nat) : State :=
  (s.groupsOf tid).foldl (fun s g => s.modGroup g (fun x => { (x.modThreads x.fmask (fun t => { t with wait := none })) with
    fmask := 0#32, tlanes := 0#32, xblk := 0, lds := [], sts := [], cps := [] })) s
/-- R299: the groups of a team whose job has ended restart in idle code, unless it has taken another. -/
def restartEnded (s : State) (tid : Nat) : State :=
  if (s.team tid).job.isNone && (s.team tid).launching.isNone && (s.groupsOf tid).all (fun g => (s.group g).live && (s.group g).fmask = 0#32)
  then restartIdle s tid else s

/-- A group's outstanding stores, and its atomics that have not performed, as they stand for the report of its job (R299). -/
def standing (s : State) (gid : Nat) : List (Nat × StoreRec) :=
  let g := s.group gid
  g.sts.map (fun r => (gid, r))
  ++ (g.lds.filter (fun r => (match r.ins with | .atom .. | .red .. => true | _ => false) && !r.todo.isEmpty)).map
    (fun r => (gid, ⟨r.seq, r.ins, r.todo, true⟩))

/-- One team leaves its job: its accesses pass to the report, its threads stop, it becomes Idle (R299); one that has not begun its job drops
it, and idle code starts again. -/
def leaveJob (s : State) (tid : Nat) (status : W32) (failed : Bool) : State :=
  let idle (t : Team) : Team := { t with
    st := .idle, job := none, posted := [], ovf := [], stalled := [], drops := 0, launching := none, stopWhy := 0, stopEv := 0, haltNo := 0 }
  match (s.team tid).job with
  | none =>
    let old := (s.groupsOf tid).map (fun g => (g, s.group g))
    old.foldl (fun s e => s.modGroup e.1 (fun x => { x with sts := e.2.sts, cps := e.2.cps }))
      (restartIdle ((clearQueues s tid true).modTeam tid idle) tid)
  | some j =>
    let gs := s.groupsOf tid
    let cps := gs.flatMap (fun g => (s.group g).cps.map (fun r => (g, r)))
    let s := s.modDie (dieOf (tid / 8)) (fun d => { d with
      reports := d.reports ++ [⟨tid / 8, tid % 8, j.r, status, failed, gs.flatMap (standing s), cps⟩] })
    stopThreads ((clearQueues s tid failed).modTeam tid idle) tid

/-- R324, R342: the messages of a cluster job still on their way perform before it ends: each is placed, or stalls and is dropped with
the rest. -/
def flushTransit (s : State) (key : Nat) (c : Cluster) : State :=
  c.transit.foldl (fun s e =>
    let tid := 8 * nth 0 e.2.1 c.members + c.team
    if behindStall s tid e.2.2 then s else reachMsg s tid e.1 e.2.2)
    { s with clusters := Tbl.put key { c with transit := [] } s.clusters }

/-- R299, R325: the job of a team ends, on every member of a cluster job; records of it that no team has taken go. Its barriers stand until
its end is reported (R349). -/
def endJob (s : State) (tid : Nat) (status : W32) (failed : Bool) : State :=
  match s.clusterOf tid with
  | none => leaveJob s tid status failed
  | some (key, c, _) =>
    let s := (jobTeams s tid).foldl (fun s t => leaveJob s t status failed) (flushTransit s key c)
    { s with cores := s.cores.map (fun e =>
        (e.1, { e.2 with jobs := e.2.jobs.filter (fun r => r.member.map (fun m => m.1) != some key) })) }

/-! ### Taking an exception (R160, R162, R300) -/

def fwDBLFLT : W32 := 0x21004001#32
def fwUWPM : W32 := 0x21001001#32
def fwRBNH : W32 := 0x21202001#32
def fwTRETNH : W32 := 0x01630003#32

/-- A trap raised in one thread: lane, fault word, TADDR. -/
structure Trap where
  lane : Nat
  word : W32
  addr : W64
  deriving DecidableEq, Repr

/-- R300: where a trapped thread goes: the entry's HANDLER, or the partition's default handler. -/
def handlerPc (s : State) (gid : Nat) : W64 :=
  let def_ := (s.part (s.pnum (cidOf gid))).defhnd
  match s.jobOf gid with
  | some j => if j.hdr.handler = 0#64 then def_ else j.hdr.handler
  | none => def_

/-- R160: one thread enters its handler. -/
def trapThread (pc : W64) (t : Trap) (x : Thread) : Thread :=
  { x with tcause := t.word, tpc := x.pc, taddr := t.addr, ppriv := x.priv, priv := .sup, pc := pc, wait := none }

/-- R160: trap entry of a set of threads of a group none of which is in a handler; the A reuse latch is discarded. -/
def trapEntry (s : State) (gid : Nat) (ts : List Trap) : State :=
  let pc := handlerPc s gid
  let s := s.modGroup gid (fun g => ts.foldl (fun g t =>
    { (g.modThread t.lane (trapThread pc t)) with tlanes := setBit g.tlanes t.lane true }) g)
  let s : State := { s with cores := s.cores.map (fun e => (e.1, { e.2 with pushq := e.2.pushq.filter (fun x => x.1 != gid) })) }
  s.modCore (cidOf gid) (fun c => { dropLatch [gid] c with blockq := c.blockq.filter (fun e => e.1 != gid) })

/-- Whether a fault word ends the job instead of trapping (R389, R418, R440). -/
def endsJob (s : State) (gid : Nat) (w : W32) : Bool :=
  w = fwLEASEOUT || (w = fwACCSTALE && (s.jobOf gid).isSome)

/-- R162: a fault of a thread in a handler ends the job with DBLFLT; TCAUSE of the thread holds the second fault. -/
def doubleFault (s : State) (gid : Nat) (ts : List Trap) : State :=
  let s := s.modGroup gid (fun g => ts.foldl (fun g t =>
    if g.tlanes.getLsbD t.lane then g.modThread t.lane (fun x => { x with tcause := t.word }) else g) g)
  endJob s (s.tidOf gid) fwDBLFLT true

/-- Delivery of the faults of one issue: the end of the job, DBLFLT where a thread is already in a handler (R162), else trap
entry. -/
def deliver (s : State) (gid : Nat) (ts : List Trap) : State :=
  match ts.find? (fun t => endsJob s gid t.word) with
  | some t => endJob s (s.tidOf gid) t.word true
  | none =>
    if ts.isEmpty then s
    else if ts.any (fun t => (s.group gid).tlanes.getLsbD t.lane) then doubleFault s gid ts
    else trapEntry s gid ts

/-- The same fault in every thread of a set, with one address. -/
def trapAll (m : Mask) (w : W32) (addr : W64) : List Trap := (lanesOf m).map (fun l => ⟨l, w, addr⟩)

/-! ### Passing a slot (R66, R145) -/

/-- R145: the end step of a thread that has passed the slot at `pc`: its loops and its PC; `none` for no back-edge. -/
def endStep (pc : W64) : List LoopEnt → W64 → List LoopEnt × W64 × Bool
  | [], next => ([], next, false)
  | e :: t, next =>
    if e.stop = pc then
      if e.count - 1#32 != 0#32 then ({ e with count := e.count - 1#32 } :: t, e.start, true)
      else endStep pc t (nextPc e.stop)
    else (e :: t, next, false)

/-- A thread passes the slot it stands at, or under `tret.next` the slot at `pc`. -/
def passThread (pc : W64) (t : Thread) : Thread :=
  let (ls, n, _) := endStep pc t.loops (nextPc pc)
  { t with loops := ls, pc := n, wait := none }
/-- Whether passing `pc` takes a back-edge. -/
def takesBackEdge (pc : W64) (t : Thread) : Bool := (endStep pc t.loops (nextPc pc)).2.2

/-- Threads pass the slots they stand at; a back-edge is checked as a transfer to START, and a fault is raised there
(R145). -/
def passSet (s : State) (gid : Nat) (m : Mask) : State × List Trap :=
  (lanesOf m).foldl (fun a l =>
    let (s, ts) := a
    let t := (s.group gid).thread l
    let s := s.modGroup gid (fun g => g.modThread l (passThread t.pc))
    if takesBackEdge t.pc t then
      let goes_ := ((s.group gid).thread l).pc
      match targetFault s (s.ctx gid t.priv) (cidOf gid) goes_ with
      | (some (w, _), s) => (s, ts ++ [⟨l, w, goes_⟩])
      | (none, s) => (s, ts)
    else (s, ts)) (s, [])

/-- Threads pass their slots, and faults found at a back-edge are delivered. -/
def passDeliver (s : State) (gid : Nat) (m : Mask) : State :=
  let (s, ts) := passSet s gid m
  deliver s gid ts

/-! ### Issue (R48, R79 orders 6 to 8) -/

/-- What an instruction's own effect leaves: the state, the faults it raised, and the threads that do not pass the slot
(they wait in it, or the instruction has set their PC). -/
structure Out where
  s : State
  traps : List Trap
  stay : Mask
  ended : Bool

def Out.done (s : State) : Out := ⟨s, [], 0#32, false⟩
def Out.fail (s : State) (m : Mask) (w : W32) (addr : W64) : Out := ⟨s, trapAll m w addr, 0#32, false⟩
def Out.hold (s : State) (m : Mask) : Out := ⟨s, [], m, false⟩
/-- The instruction has ended the job: nothing of the set is left to pass or trap. -/
def Out.over (s : State) : Out := ⟨s, [], 0#32, true⟩

/-- What an instruction's effect is given: its group, active set, contributing set (guard true), operands' environment. -/
structure At where
  gid : Nat
  act : Mask
  eff : Mask
  env : Env

def trapsMask (ts : List Trap) : Mask := ts.foldl (fun a t => setBit a t.lane true) 0#32

/-- The instruction's faults are delivered and the other threads of the set pass its slot. -/
def finish (gid : Nat) (act : Mask) (o : Out) : State :=
  if o.ended then o.s
  else
  let (s, back) := passSet o.s gid (act &&& ~~~(trapsMask o.traps ||| o.stay))
  deliver s gid (o.traps ++ back)

/-- Opcodes that need supervisor level in every issuing thread (R83, R161). -/
def needsSup : Instr → Bool
  | .tret _ _ | .publish _ | .adopt _ | .snap _ | .trapEnd _ => true
  | _ => false

def fwACCNH : W32 := 0x21805001#32
/-- R229: the tiles an instruction names lie below the ACCT of its entry's header; outside a job, below the team's share
(log 13). -/
def tilesOk (s : State) (gid : Nat) (i : Instr) : Bool :=
  let top := match s.jobOf gid with
    | some j => j.hdr.acct
    | none => tileShare (s.core (cidOf gid)).pword
  match i.guardOf with
  | some o => [o.d, o.a, o.b, o.c].all (fun x => match x with | .acc n => decide (n.toNat < top) | _ => true)
  | none => true

/-- The threads of a set below supervisor level. -/
def userMask (g : Group) (m : Mask) : Mask := maskWhere m (fun l => (g.thread l).priv = .user)

/-- R48, R301: whether a set may issue a group-scope instruction: it is the full mask, and of a handler's threads TLANES is. -/
def fullMask (g : Group) (act : Mask) : Bool := act = g.fmask && (g.tlanes &&& act = 0#32 || g.tlanes = g.fmask)

/-- Issue of instruction `i` by the current group and active set, the threads `low` of which lack the level it needs: PRIV (R10), RBNH
(R51, R91), ACCNH (R229) and UWPM (R48), in the order of R79; then the effect on the threads left, with their guards (R72); then the faults and
the passing of the slot. -/
def issueAt (i : Instr) (low : Mask) (s : State) (body : At → State → Out) : State :=
  let gid := s.cur.gid
  let act := s.cur.mask
  let g := s.group gid
  let (_, uc, ac) := s.counts gid
  let lowTraps := if i.groupScope && low != 0#32 then trapAll act fwPRIV 0#64 else trapAll low fwPRIV 0#64
  let rest := act &&& ~~~(trapsMask lowTraps)
  if rest = 0#32 then finish gid act ⟨s, lowTraps, 0#32, false⟩
  else if !regsOk i g.xblk uc ac then finish gid act ⟨s, lowTraps ++ trapAll rest fwRBNH 0#64, 0#32, false⟩
  else if !tilesOk s gid i then finish gid act ⟨s, trapAll act fwACCNH 0#64, 0#32, false⟩
  else if i.groupScope && !fullMask g act then finish gid act ⟨s, trapAll act fwUWPM 0#64, 0#32, false⟩
  else
    let eff := match i.guardOf with
      | some o => maskWhere rest (fun l => guardTrue o.g g l)
      | none => rest
    let o := body ⟨gid, rest, eff, s.env gid⟩ s
    finish gid act ⟨o.s, lowTraps ++ o.traps, o.stay, o.ended⟩

/-- Issue of an instruction whose level is the same whatever it writes. -/
def issue (i : Instr) (s : State) (body : At → State → Out) : State :=
  issueAt i (if needsSup i then userMask (s.group s.cur.gid) s.cur.mask else 0#32) s body

/-- The result of a step that always has a next state. -/
def next (s : State) : Host.Outcome State Fault Refusal := .next s

/-- Threads wait in an instruction (R38). -/
def waitIn (s : State) (gid : Nat) (m : Mask) (i : Instr) : State :=
  s.modGroup gid (fun g => g.modThreads m (fun t => { t with wait := some i }))

/-- The threads of a group that wait in an instruction satisfying a test. -/
def waiters (g : Group) (p : Instr → Bool) : Mask :=
  maskWhere g.fmask (fun l => match (g.thread l).wait with | some i => p i | none => false)

/-- The instruction a set waits in. -/
def waitInstr (g : Group) (m : Mask) : Option Instr :=
  match lanesOf m with
  | l :: _ => (g.thread l).wait
  | [] => none

end Sys2Proof.Machine
end

