-- ==== Sys2Proof/Machine/Flags.lean ====
section
/-!
DEFINITION. How the results of register instructions are written and which flags they set (R28, R46, R47, R57, R122): one
operation for a varying result, one for a uniform result, one for an affine result, one for a predicate.
-/

namespace Sys2Proof.Machine

/-- A result of a lane: its value and the flags it raises. -/
abbrev Val := Nat × Flags

/-- Write a value of width 32 or 64 to a varying destination of one lane; `zero` discards it (R95, R103). -/
def wrLane (w : Bool) (g : Group) (lane : Nat) (d : Opd) (x : Nat) : Group :=
  match d with
  | .v n => if w then g.setV2 lane n.toNat (BitVec.ofNat 64 x) else g.setV lane n.toNat (BitVec.ofNat 32 x)
  | .p n => g.setP lane n (x % 2 == 1)
  | _ => g

/-- Write a group-scope result: a uniform register takes 64 bits, a q register one. -/
def wrUni (g : Group) (d : Opd) (x : Nat) : Group :=
  match d with
  | .s n => g.setU n.toNat (BitVec.ofNat 64 x)
  | .q n => g.setQ n (x % 2 == 1)
  | _ => g

/-- A result computed in each contributing lane from the state before any write (R152), and its flags (R28). -/
def varyRes (w : Bool) (g : Group) (eff : Mask) (d : Opd) (f : Nat → Val) : Group :=
  (lanesOf eff).foldl (fun h l => (wrLane w h l d (f l).1).orFlags l (f l).2) g

/-- A result computed once; its flags enter every thread of the active set (R122). -/
def uniRes (g : Group) (act : Mask) (d : Opd) (r : Val) : Group :=
  let h := wrUni g d r.1
  if r.2 = 0#5 then h else (lanesOf act).foldl (fun h l => h.orFlags l r.2) h

/-- A register result: uniform where the destination is a uniform or q register, else varying. -/
def regRes (w : Bool) (x : At) (s : State) (d : Opd) (f : Bool → Nat → Val) : Out :=
  .done (s.modGroup x.gid (fun g =>
    if d.isS || d.isQ then uniRes g x.act d (f true 0) else varyRes w g x.eff d (f false)))

/-- R47: an affine result: the stride checked for signed overflow. AFOV leaves the register and AOV as they were. -/
def fwAFOV : W32 := 0x21101002#32
def affRes (x : At) (s : State) (d : Opd) (base : W64) (t : Int) : Out :=
  let g := s.group x.gid
  let ovf := decide (t < -(2 : Int) ^ 31) || decide (t > (2 : Int) ^ 31 - 1)
  if ovf && g.aft then .fail s x.act fwAFOV 0#64
  else
    .done (s.modGroup x.gid (fun g =>
      let g := if ovf then { g with aov := true } else g
      match d with
      | .a n => g.setA n.toNat base (BitVec.ofInt 32 t)
      | _ => g))

/-! ### Status registers as words (R57, R58) -/

def Priv.code : Priv → Nat | .user => 0 | .sup => 1 | .fw => 2
def privOf (n : Nat) : Priv := if n = 0 then .user else if n = 1 then .sup else .fw

/-- TSR of a thread (R57). -/
def Thread.tsr (t : Thread) : W32 :=
  BitVec.ofNat 32 (t.cdepth * 2 ^ 16 + Priv.code t.ppriv * 2 ^ 11 + t.loops.length * 2 ^ 8 + Priv.code t.priv * 2 ^ 5
    + t.flags.toNat)

/-- A write to TSR changes the five flags only (R57). -/
def Thread.setTsr (t : Thread) (x : W32) : Thread := { t with flags := x.extractLsb' 0 5 }

/-- GSR of a group (R58). -/
def State.gsr (s : State) (gid : Nat) : W64 :=
  let g := s.group gid
  BitVec.ofNat 64 (g.fmask.toNat * 2 ^ 32 + g.lds.length * 2 ^ 26 + g.stc * 2 ^ 20 + g.cps.length * 2 ^ 14
    + s.tlc gid * 2 ^ 10 + g.xblk * 2 ^ 7 + (if g.aft then 2 else 0) + (if g.aov then 1 else 0))

/-- A write to GSR changes AFT and AOV only (R58). -/
def Group.setGsr (g : Group) (x : W64) : Group := { g with aft := x.getLsbD 1, aov := x.getLsbD 0 }

end Sys2Proof.Machine
end

