-- ==== Sys2Proof/Machine/Int.lean ====
section
/-!
DEFINITION. The integer, logic, affine and address instructions (04: R95–R120).
-/

namespace Sys2Proof.Machine

/-- Operation width: 64 for a uniform result or under `.w` (R95). -/
def opw (w uni : Bool) : Nat := if w || uni then 64 else 32

/-- A register instruction of three sources: the operation gets the width in bits and the values of A, B and C at that
width; `nb` and `nc` mark B and C narrow (R96), read as 32 bits. -/
def intOp (i : Instr) (o : Ops) (w nb nc : Bool) (f : Nat → Nat → Nat → Nat → Nat) (s : State) : State :=
  issue i s fun x s =>
    let g := s.group x.gid
    regRes w x s o.d fun uni l =>
      let k := w || uni
      (f (opw w uni) (rdw k g x.env o.imm l o.a) (rdw (k && !nb) g x.env o.imm l o.b)
        (rdw (k && !nc) g x.env o.imm l o.c), 0#5)

/-- A sum, difference or product that has an affine form (R47, R101). -/
def affOp (i : Instr) (o : Ops) (w : Bool) (f : Nat → Nat → Nat → Nat → Nat)
    (aff : W64 × Int → W64 × Int → W64 × Int) (s : State) : State :=
  if o.d.isA then
    issue i s fun x s =>
      let g := s.group x.gid
      let r := aff (affOf g x.env o.imm o.a) (affOf g x.env o.imm o.b)
      affRes x s o.d r.1 r.2
  else intOp i o w false false f s

/-- R101: an exact result under SAT. -/
def satTo (sat : Sat) (w : Nat) (e : Int) : Nat :=
  match sat with
  | .wrap => wrap w e
  | .ss => wrap w (min (max e (-(2 : Int) ^ (w - 1))) ((2 : Int) ^ (w - 1) - 1))
  | .us => (min (max e 0) ((2 : Int) ^ w - 1)).toNat

/-- An operand as SAT reads it (R101). -/
def readAs (sat : Sat) (w x : Nat) : Int := match sat with | .us => x | _ => sint w x

def addVal (sat : Sat) (w x y _z : Nat) : Nat := satTo sat w (readAs sat w x + readAs sat w y)
def subVal (sat : Sat) (w x y _z : Nat) : Nat := satTo sat w (readAs sat w x - readAs sat w y)
def mulVal (sat : Sat) (w x y _z : Nat) : Nat := satTo sat w (readAs sat w x * readAs sat w y)
def mulhVal (u : Bool) (w x y _z : Nat) : Nat :=
  if u then x * y / 2 ^ w % 2 ^ w else wrap w ((sint w x * sint w y).fdiv ((2 : Int) ^ w))
def madVal (w x y z : Nat) : Nat := (x * y + z) % 2 ^ w

/-- R47 for two affine or uniform operands. -/
def affAdd (x y : W64 × Int) : W64 × Int := (x.1 + y.1, x.2 + y.2)
def affSub (x y : W64 × Int) : W64 × Int := (x.1 - y.1, x.2 - y.2)
/-- The affine operand times the uniform one, which counts as a signed 64-bit value. -/
def affMul (aff1 : Bool) (x y : W64 × Int) : W64 × Int :=
  if aff1 then (x.1 * y.1, x.2 * y.1.toInt) else (x.1 * y.1, y.2 * x.1.toInt)

def execIadd (o : Ops) (w : Bool) (sat : Sat) (s : State) : Host.Outcome State Fault Refusal :=
  next (affOp (.iadd o w sat) o w (addVal sat) affAdd s)
def execIsub (o : Ops) (w : Bool) (sat : Sat) (s : State) : Host.Outcome State Fault Refusal :=
  next (affOp (.isub o w sat) o w (subVal sat) affSub s)
def execImul (o : Ops) (w : Bool) (sat : Sat) (s : State) : Host.Outcome State Fault Refusal :=
  next (affOp (.imul o w sat) o w (mulVal sat) (affMul o.a.isAff) s)
def execImulh (o : Ops) (w u : Bool) (s : State) : Host.Outcome State Fault Refusal :=
  next (intOp (.imulh o w u) o w false false (mulhVal u) s)
def execImad (o : Ops) (w : Bool) (s : State) : Host.Outcome State Fault Refusal :=
  next (intOp (.imad o w) o w false false madVal s)

/-- R103: the sum or difference with carry, and the carry-out. -/
def addcVal (w : Nat) (sub : Bool) (x y : Nat) (c : Bool) : Nat × Bool :=
  let ci : Nat := if c then 1 else 0
  if sub then
    let e : Int := (x : Int) - y - ci
    (wrap w e, decide (e < 0))
  else ((x + y + ci) % 2 ^ w, decide (x + y + ci ≥ 2 ^ w))

/-- R103: `iaddc`, with its optional carry-out predicate. -/
def execIaddc (o : Ops) (w sub : Bool) (co : Option (BitVec 3)) (s : State) : Host.Outcome State Fault Refusal :=
  next (issue (.iaddc o w sub co) s fun x s =>
    let g := s.group x.gid
    let uni := decide (resKind true [o.a, o.b, o.c] = .uni)
    let at_ (l : Nat) : Nat × Bool :=
      addcVal (opw w uni) sub (rdw (w || uni) g x.env o.imm l o.a) (rdw (w || uni) g x.env o.imm l o.b) (rdP g l o.c)
    .done (s.modGroup x.gid fun g =>
      if uni then
        let r := at_ 0
        let h := wrUni g o.d r.1
        match co with
        | some k => h.setQ (k.setWidth 2) r.2
        | none => h
      else
        (lanesOf x.eff).foldl (fun h l =>
          let r := at_ l
          let h := wrLane w h l o.d r.1
          match co with
          | some k => h.setP l k r.2
          | none => h) g))

def minVal (u : Bool) (w x y _z : Nat) : Nat :=
  if u then min x y else if sint w x ≤ sint w y then x else y
def maxVal (u : Bool) (w x y _z : Nat) : Nat :=
  if u then max x y else if sint w x ≥ sint w y then x else y
/-- R102: a negated or absolute value under `.sat`. -/
def satNeg (sat : Bool) (w : Nat) (e : Int) : Nat :=
  if sat && e = (2 : Int) ^ (w - 1) then 2 ^ (w - 1) - 1 else wrap w e
def absVal (sat : Bool) (w x _y _z : Nat) : Nat := satNeg sat w (sint w x).natAbs
def negVal (sat : Bool) (w x _y _z : Nat) : Nat := satNeg sat w (-(sint w x))

def execImin (o : Ops) (w u : Bool) (s : State) : Host.Outcome State Fault Refusal :=
  next (intOp (.imin o w u) o w false false (minVal u) s)
def execImax (o : Ops) (w u : Bool) (s : State) : Host.Outcome State Fault Refusal :=
  next (intOp (.imax o w u) o w false false (maxVal u) s)
def execIabs (o : Ops) (w sat : Bool) (s : State) : Host.Outcome State Fault Refusal :=
  next (intOp (.iabs o w sat) o w false false (absVal sat) s)
def execIneg (o : Ops) (w sat : Bool) (s : State) : Host.Outcome State Fault Refusal :=
  next (intOp (.ineg o w sat) o w false false (negVal sat) s)

/-- R104, R105: a logic operation on words, or on predicates where D is a predicate. -/
def logicOp (i : Instr) (o : Ops) (w : Bool) (f : Nat → Nat → Nat → Nat) (p : Bool → Bool → Bool) (s : State) : State :=
  if o.d.isPq then
    issue i s fun x s =>
      let g := s.group x.gid
      regRes false x s o.d fun _ l => (if p (rdP g l o.a) (rdP g l o.b) then 1 else 0, 0#5)
  else intOp i o w false false (fun n a b _ => f n a b) s

def notNat (n x : Nat) : Nat := 2 ^ n - 1 - x % 2 ^ n

def execAnd (o : Ops) (w : Bool) (s : State) : Host.Outcome State Fault Refusal :=
  next (logicOp (.and o w) o w (fun _ a b => a &&& b) (fun a b => a && b) s)
def execOr (o : Ops) (w : Bool) (s : State) : Host.Outcome State Fault Refusal :=
  next (logicOp (.or o w) o w (fun _ a b => a ||| b) (fun a b => a || b) s)
def execXor (o : Ops) (w : Bool) (s : State) : Host.Outcome State Fault Refusal :=
  next (logicOp (.xor o w) o w (fun _ a b => a ^^^ b) (fun a b => a != b) s)
def execNot (o : Ops) (w : Bool) (s : State) : Host.Outcome State Fault Refusal :=
  next (logicOp (.not o w) o w (fun n a _ => notNat n a) (fun a _ => !a) s)
def execAndn (o : Ops) (w : Bool) (s : State) : Host.Outcome State Fault Refusal :=
  next (logicOp (.andn o w) o w (fun n a b => a &&& notNat n b) (fun a b => a && !b) s)

/-- R106. -/
def shlVal (w x a _z : Nat) : Nat := if a ≥ w then 0 else x * 2 ^ a % 2 ^ w
def shrVal (w x a _z : Nat) : Nat := if a ≥ w then 0 else x / 2 ^ a
def sarVal (w x a _z : Nat) : Nat := wrap w ((sint w x).fdiv ((2 : Int) ^ min a (w - 1)))
def rotVal (w x a _z : Nat) : Nat :=
  let k := a % w
  (x * 2 ^ k + x / 2 ^ (w - k)) % 2 ^ w

def execShl (o : Ops) (w : Bool) (s : State) : Host.Outcome State Fault Refusal :=
  next (intOp (.shl o w) o w true false shlVal s)
def execShr (o : Ops) (w : Bool) (s : State) : Host.Outcome State Fault Refusal :=
  next (intOp (.shr o w) o w true false shrVal s)
def execSar (o : Ops) (w : Bool) (s : State) : Host.Outcome State Fault Refusal :=
  next (intOp (.sar o w) o w true false sarVal s)
def execRot (o : Ops) (w : Bool) (s : State) : Host.Outcome State Fault Refusal :=
  next (intOp (.rot o w) o w true false rotVal s)

/-- R107: counts and reversal of the low `w` bits. -/
def popcNat : Nat → Nat → Nat
  | 0, _ => 0
  | n + 1, x => x % 2 + popcNat n (x / 2)
def ctzNat : Nat → Nat → Nat
  | 0, _ => 0
  | n + 1, x => if x % 2 = 1 then 0 else 1 + ctzNat n (x / 2)
def brevNat : Nat → Nat → Nat
  | 0, _ => 0
  | n + 1, x => x % 2 * 2 ^ n + brevNat n (x / 2)
def clzNat (w x : Nat) : Nat := if x = 0 then w else w - 1 - Nat.log2 x

def execPopc (o : Ops) (w : Bool) (s : State) : Host.Outcome State Fault Refusal :=
  next (intOp (.popc o w) o w false false (fun n x _ _ => popcNat n x) s)
def execClz (o : Ops) (w : Bool) (s : State) : Host.Outcome State Fault Refusal :=
  next (intOp (.clz o w) o w false false (fun n x _ _ => clzNat n x) s)
def execCtz (o : Ops) (w : Bool) (s : State) : Host.Outcome State Fault Refusal :=
  next (intOp (.ctz o w) o w false false (fun n x _ _ => ctzNat n x) s)
def execBrev (o : Ops) (w : Bool) (s : State) : Host.Outcome State Fault Refusal :=
  next (intOp (.brev o w) o w false false (fun n x _ _ => brevNat n x) s)

/-- R108: extract `len` bits from `pos`; bits above the word are zero, or copies of its sign under `.sx`. -/
def bfeVal (sx : Bool) (w x ctl _z : Nat) : Nat :=
  let pos := ctl % 256
  let n := min (ctl / 256 % 256) w
  if n = 0 then 0
  else
    let ext : Int := if sx then sint w x else x
    let f := ext.fdiv ((2 : Int) ^ pos) % (2 : Int) ^ n
    if sx then wrap w (sint n f.toNat) else f.toNat
/-- R108: insert the low `len` bits of A into C at `pos`. -/
def bfiVal (w x ctl z : Nat) : Nat :=
  let pos := ctl % 256
  let n := min (ctl / 256 % 256) w
  let hi := min (pos + n) w
  if pos ≥ hi then z
  else z / 2 ^ hi * 2 ^ hi + x % 2 ^ (hi - pos) * 2 ^ pos + z % 2 ^ pos

def execBfe (o : Ops) (w sx : Bool) (s : State) : Host.Outcome State Fault Refusal :=
  next (intOp (.bfe o w sx) o w true false (bfeVal sx) s)
def execBfi (o : Ops) (w : Bool) (s : State) : Host.Outcome State Fault Refusal :=
  next (intOp (.bfi o w) o w true false bfiVal s)

/-- R109: one result byte. -/
def prmtByte (x y sel : Nat) : Nat :=
  let k := sel % 8
  let b := (if k < 4 then x / 2 ^ (8 * k) else y / 2 ^ (8 * (k - 4))) % 256
  let b := match sel / 8 % 4 with
    | 1 => 0
    | 2 => if b / 128 = 1 then 255 else 0
    | 3 => if b % 2 = 1 then 255 else 0
    | _ => b
  if sel / 32 % 2 = 1 then brevNat 8 b else b
def prmtVal (_w x y c : Nat) : Nat :=
  prmtByte x y (c % 256) + 256 * prmtByte x y (c / 256 % 256) + 65536 * prmtByte x y (c / 65536 % 256)
  + 16777216 * prmtByte x y (c / 16777216 % 256)
/-- R109: 32 bits in every form. -/
def execPrmt (o : Ops) (s : State) : Host.Outcome State Fault Refusal :=
  next (issue (.prmt o) s fun x s =>
    let g := s.group x.gid
    regRes false x s o.d fun _ l =>
      (prmtVal 32 (rdw false g x.env o.imm l o.a) (rdw false g x.env o.imm l o.b) (rdw false g x.env o.imm l o.c), 0#5))

/-- R110. -/
def icmpVal (c : ICond) (u : Bool) (w x y : Nat) : Bool :=
  let a : Int := if u then x else sint w x
  let b : Int := if u then y else sint w y
  match c with
  | .eq => x == y | .ne => x != y
  | .lt => decide (a < b) | .le => decide (a ≤ b) | .gt => decide (a > b) | .ge => decide (a ≥ b)
def combine (c : Comb) (x y : Bool) : Bool :=
  match c with
  | .none => x | .and => x && y | .or => x || y | .xor => x != y
def boolNat (b : Bool) : Nat := if b then 1 else 0
def execIcmp (o : Ops) (w : Bool) (cond : ICond) (u : Bool) (comb : Comb) (s : State) :
    Host.Outcome State Fault Refusal :=
  next (issue (.icmp o w cond u comb) s fun x s =>
    let g := s.group x.gid
    regRes false x s o.d fun uni l =>
      let c := icmpVal cond u (opw w uni) (rdw (w || uni) g x.env o.imm l o.a) (rdw (w || uni) g x.env o.imm l o.b)
      (boolNat (combine comb c (rdP g l o.c)), 0#5))

/-- R111. -/
def execIsel (o : Ops) (w : Bool) (s : State) : Host.Outcome State Fault Refusal :=
  next (issue (.isel o w) s fun x s =>
    let g := s.group x.gid
    regRes w x s o.d fun uni l => (rdw (w || uni) g x.env o.imm l (if rdP g l o.c then o.a else o.b), 0#5))

/-- R112. -/
def execMov (o : Ops) (w : Bool) (s : State) : Host.Outcome State Fault Refusal :=
  next (intOp (.mov o w) o w false false (fun _ x _ _ => x) s)
/-- R113. -/
def execMovi (o : Ops) (w z : Bool) (s : State) : Host.Outcome State Fault Refusal :=
  next (issue (.movi o w z) s fun x s =>
    regRes w x s o.d fun _ _ => (if w && !z then (o.imm.signExtend 64).toNat else o.imm.toNat, 0#5))
/-- R114. -/
def execMovh (o : Ops) (s : State) : Host.Outcome State Fault Refusal :=
  next (issue (.movh o) s fun x s =>
    let g := s.group x.gid
    regRes false x s o.d fun _ l => ((o.imm ++ (rd64 g x.env o.imm l o.d).extractLsb' 0 32).toNat, 0#5))

/-- The index of `lea` as IDX reads it (R115). -/
def leaIdx (idx : Idx) (g : Group) (e : Env) (l : Nat) (b : Opd) : W64 :=
  match idx with
  | .full => rd64 g e 0#32 l b
  | .i32 => (rd32 g e 0#32 l b).signExtend 64
  | .u32 => (rd32 g e 0#32 l b).setWidth 64
/-- R115. A varying result is a pair. -/
def execLea (o : Ops) (scale : BitVec 3) (idx : Idx) (s : State) : Host.Outcome State Fault Refusal :=
  next (issue (.lea o scale idx) s fun x s =>
    let g := s.group x.gid
    if o.d.isA then
      let a := affOf g x.env 0#32 o.a
      let b := affOf g x.env 0#32 o.b
      let y := if o.b.isAff then b.1 else leaIdx idx g x.env 0 o.b
      affRes x s o.d (a.1 + (y <<< scale.toNat) + o.imm.signExtend 64) (a.2 + b.2 * (2 : Int) ^ scale.toNat)
    else
      regRes true x s o.d fun _ l =>
        ((rd64 g x.env 0#32 l o.a + (leaIdx idx g x.env l o.b <<< scale.toNat) + o.imm.signExtend 64).toNat, 0#5))

/-- R116. -/
def execPromv (o : Ops) (form : Prom) (s : State) : Host.Outcome State Fault Refusal :=
  next (issue (.promv o form) s fun x s =>
    let g := s.group x.gid
    regRes (form = .w) x s o.d fun _ l =>
      let v := (rd64 g x.env o.imm l o.a).toNat
      (match form with | .lo => v % 2 ^ 32 | .hi => v / 2 ^ 32 | .w => v, 0#5))

/-- R117. -/
def execProma (o : Ops) (s : State) : Host.Outcome State Fault Refusal :=
  next (issue (.proma o) s fun x s =>
    let g := s.group x.gid
    affRes x s o.d (rd64 g x.env o.imm 0 o.a) (rd64 g x.env o.imm 0 o.b).toInt)
/-- R118: read or write an affine stride. -/
def execAstr (o : Ops) (s : State) : Host.Outcome State Fault Refusal :=
  next (issue (.astr o) s fun x s =>
    let g := s.group x.gid
    let a := affOf g x.env o.imm o.a
    if o.d.isA then affRes x s o.d a.1 (rd64 g x.env o.imm 0 o.b).toInt
    else regRes false x s o.d fun _ _ => (wrap 64 a.2, 0#5))
/-- R118: read or write an affine base. -/
def execAbase (o : Ops) (s : State) : Host.Outcome State Fault Refusal :=
  next (issue (.abase o) s fun x s =>
    let g := s.group x.gid
    let a := affOf g x.env o.imm o.a
    if o.d.isA then affRes x s o.d (rd64 g x.env o.imm 0 o.b) a.2
    else regRes false x s o.d fun _ _ => (a.1.toNat, 0#5))

end Sys2Proof.Machine
end

