-- ==== Sys2Proof/Machine/Float.lean ====
section
/-!
DEFINITION. The floating-point, special-function and random-number instructions (05: R121–R140).
-/

namespace Sys2Proof.Machine

/-- A floating-point instruction of up to three 32-bit sources: value and flags from the three patterns. -/
def fpOp (i : Instr) (o : Ops) (f : Nat → Nat → Nat → FR) (s : State) : State :=
  issue i s fun x s =>
    let g := s.group x.gid
    regRes false x s o.d fun _ l =>
      let r := f (rdw false g x.env o.imm l o.a) (rdw false g x.env o.imm l o.b) (rdw false g x.env o.imm l o.c)
      (r.bits, r.fl)

def execFadd (o : Ops) (rm : Rm) (s : State) : Host.Outcome State Fault Refusal :=
  next (fpOp (.fadd o rm) o (fun x y _ => fadd32 rm x y) s)
def execFsub (o : Ops) (rm : Rm) (s : State) : Host.Outcome State Fault Refusal :=
  next (fpOp (.fsub o rm) o (fun x y _ => fsub32 rm x y) s)
def execFmul (o : Ops) (rm : Rm) (s : State) : Host.Outcome State Fault Refusal :=
  next (fpOp (.fmul o rm) o (fun x y _ => fmulAs fmt32 rm (fmt32.decode x) (fmt32.decode y)) s)
def execFfma (o : Ops) (rm : Rm) (np nc : Bool) (s : State) : Host.Outcome State Fault Refusal :=
  next (fpOp (.ffma o rm np nc) o
    (fun x y z => ffmaAs fmt32 rm np nc (fmt32.decode x) (fmt32.decode y) (fmt32.decode z)) s)
def execFmin (o : Ops) (s : State) : Host.Outcome State Fault Refusal :=
  next (fpOp (.fmin o) o (fun x y _ => fminmax false false x y) s)
def execFmax (o : Ops) (s : State) : Host.Outcome State Fault Refusal :=
  next (fpOp (.fmax o) o (fun x y _ => fminmax true false x y) s)
def execFminn (o : Ops) (s : State) : Host.Outcome State Fault Refusal :=
  next (fpOp (.fminn o) o (fun x y _ => fminmax false true x y) s)
def execFmaxn (o : Ops) (s : State) : Host.Outcome State Fault Refusal :=
  next (fpOp (.fmaxn o) o (fun x y _ => fminmax true true x y) s)

/-- R132. -/
def execFcmp (o : Ops) (cond : FCond) (comb : Comb) (s : State) : Host.Outcome State Fault Refusal :=
  next (issue (.fcmp o cond comb) s fun x s =>
    let g := s.group x.gid
    regRes false x s o.d fun _ l =>
      let r := fcmpRes cond (rdw false g x.env o.imm l o.a) (rdw false g x.env o.imm l o.b)
      (boolNat (combine comb r.1 (rdP g l o.c)), r.2))
/-- R133. -/
def execFclass (o : Ops) (s : State) : Host.Outcome State Fault Refusal :=
  next (fpOp (.fclass o) o (fun x _ _ => ⟨fclassBits x, 0#5⟩) s)
/-- R134. -/
def execFrnd (o : Ops) (rm : Rm) (s : State) : Host.Outcome State Fault Refusal :=
  next (fpOp (.frnd o rm) o (fun x _ _ => frndBits rm x) s)

/-- The result of a conversion kind from the 32-bit and the 64-bit reading of A (R134); a uniform `.fsi` result is
sign-extended. -/
def fcvtVal (rm : Rm) (k : Cvt) (uni : Bool) (x32 x64 : Nat) : FR :=
  let v := fmt32.decode x32
  match k with
  | .fsi =>
    let r := toInt 32 true rm v
    if uni then ⟨wrap 64 (sint 32 r.bits), r.fl⟩ else r
  | .fui => toInt 32 false rm v
  | .sif => fmt32.conv rm 0 false (ofInt (sint 32 x32))
  | .uif => fmt32.conv rm 0 false (ofInt x32)
  | .fsl => toInt 64 true rm v
  | .ful => toInt 64 false rm v
  | .slf => fmt32.conv rm 0 false (ofInt (sint 64 x64))
  | .ulf => fmt32.conv rm 0 false (ofInt x64)
/-- R134. -/
def execFcvt (o : Ops) (rm : Rm) (kind : Cvt) (s : State) : Host.Outcome State Fault Refusal :=
  next (issue (.fcvt o rm kind) s fun x s =>
    let g := s.group x.gid
    regRes (kind = .fsl || kind = .ful) x s o.d fun uni l =>
      let r := fcvtVal rm kind uni (rdw false g x.env o.imm l o.a) (rdw true g x.env o.imm l o.a)
      (r.bits, r.fl))

/-- Two BF16 results in one register. -/
def pack2 (a b : FR) : FR := ⟨a.bits + 65536 * b.bits, a.fl ||| b.fl⟩
/-- The two elements of a BF16×2 pattern (R15). -/
def bfLo (x : Nat) : FVal := fmtBf.decode (x % 65536)
def bfHi (x : Nat) : FVal := fmtBf.decode (x / 65536 % 65536)

/-- R129: `bfcvt`; under `.sr` the key is sK, the counter sK+1, IMM and the lane. -/
def execBfcvt (o : Ops) (rm : Rm) (sat : Bool) (s : State) : Host.Outcome State Fault Refusal :=
  next (issue (.bfcvt o rm sat) s fun x s =>
    let g := s.group x.gid
    regRes false x s o.d fun _ l =>
      let k := match o.c with | .s n => n.toNat | _ => 0
      let ctr : BitVec 128 := g.ureg (k + 1) ++ (o.imm ++ BitVec.ofNat 32 l)
      let rb (e : Nat) : Nat := if rm = .sr then srBits (g.ureg k) ctr e else 0
      let cv (e : Nat) (p : Nat) : FR := fmtBf.conv rm (rb e) sat (fmt32.decode p)
      let r := pack2 (cv 0 (rdw false g x.env o.imm l o.a)) (cv 1 (rdw false g x.env o.imm l o.b))
      (r.bits, r.fl))
/-- R130. -/
def execBfext (o : Ops) (hi : Bool) (s : State) : Host.Outcome State Fault Refusal :=
  next (fpOp (.bfext o hi) o (fun x _ _ => fmt32.conv .rne 0 false (if hi then bfHi x else bfLo x)) s)

/-- R127: element by element; `.s` computes element 0 only. -/
def bf2 (s2 : Bool) (f : (Nat → FVal) → FR) : FR := if s2 then f bfLo else pack2 (f bfLo) (f bfHi)
def execBadd2 (o : Ops) (rm : Rm) (s2 : Bool) (s : State) : Host.Outcome State Fault Refusal :=
  next (fpOp (.badd2 o rm s2) o
    (fun x y _ => bf2 s2 fun e => fsumRound fmtBf rm [e x, e y] [some (e x), some (e y)]) s)
def execBmul2 (o : Ops) (rm : Rm) (s2 : Bool) (s : State) : Host.Outcome State Fault Refusal :=
  next (fpOp (.bmul2 o rm s2) o (fun x y _ => bf2 s2 fun e => fmulAs fmtBf rm (e x) (e y)) s)
def execBfma2 (o : Ops) (rm : Rm) (s2 : Bool) (s : State) : Host.Outcome State Fault Refusal :=
  next (fpOp (.bfma2 o rm s2) o (fun x y z => bf2 s2 fun e => ffmaAs fmtBf rm false false (e x) (e y) (e z)) s)
/-- R128. -/
def execFdot2 (o : Ops) (rm : Rm) (s : State) : Host.Outcome State Fault Refusal :=
  next (fpOp (.fdot2 o rm) o (fun x y z => fdot2As rm (bfLo x) (bfHi x) (bfLo y) (bfHi y) (fmt32.decode z)) s)

def execFexp2 (o : Ops) (s : State) : Host.Outcome State Fault Refusal :=
  next (fpOp (.fexp2 o) o (fun x _ _ => fexp2Bits x) s)
def execFlog2 (o : Ops) (s : State) : Host.Outcome State Fault Refusal :=
  next (fpOp (.flog2 o) o (fun x _ _ => flog2Bits x) s)
def execFrcp (o : Ops) (s : State) : Host.Outcome State Fault Refusal :=
  next (fpOp (.frcp o) o (fun x _ _ => frcpBits x) s)
def execFrsq (o : Ops) (s : State) : Host.Outcome State Fault Refusal :=
  next (fpOp (.frsq o) o (fun x _ _ => frsqBits x) s)
def execFsqrt (o : Ops) (s : State) : Host.Outcome State Fault Refusal :=
  next (fpOp (.fsqrt o) o (fun x _ _ => fsqrtBits x) s)
def execFsin (o : Ops) (s : State) : Host.Outcome State Fault Refusal :=
  next (fpOp (.fsin o) o (fun x _ _ => fsinBits x) s)
def execFcos (o : Ops) (s : State) : Host.Outcome State Fault Refusal :=
  next (fpOp (.fcos o) o (fun x _ _ => fcosBits x) s)
def execFtanh (o : Ops) (s : State) : Host.Outcome State Fault Refusal :=
  next (fpOp (.ftanh o) o (fun x _ _ => ftanhBits x) s)
/-- R135: n is B read as a signed 32-bit integer. -/
def execFscl (o : Ops) (rm : Rm) (s : State) : Host.Outcome State Fault Refusal :=
  next (fpOp (.fscl o rm) o (fun x y _ => fsclBits rm x (sint 32 y)) s)

/-- Four words to four consecutive varying registers of a lane. -/
def wrQuad (g : Group) (l n : Nat) (w : W32 × W32 × W32 × W32) : Group :=
  (((g.setV l n w.1).setV l (n + 1) w.2.1).setV l (n + 2) w.2.2.1).setV l (n + 3) w.2.2.2
/-- R137–R139. -/
def execRng (o : Ops) (f : Bool) (s : State) : Host.Outcome State Fault Refusal :=
  next (issue (.rng o f) s fun x s =>
    let g := s.group x.gid
    let n := match o.d with | .v k => k.toNat | _ => 0
    .done (s.modGroup x.gid fun h => (lanesOf x.eff).foldl (fun h l =>
      let w := philox (rd64 g x.env o.imm l o.a) (rd64 g x.env o.imm l o.c ++ rd64 g x.env o.imm l o.b)
      wrQuad h l n (if f then (rngFloat w.1, rngFloat w.2.1, rngFloat w.2.2.1, rngFloat w.2.2.2) else w)) h))

end Sys2Proof.Machine
end

