-- ==== Sys2Proof/Machine/Access.lean ====
section
/-!
DEFINITION. The load/store path (07, 08): forming an address, the checks of R165–R168, the accesses that stand outstanding and
the order in which they perform (R204–R209), and what one access does when it performs.
-/

namespace Sys2Proof.Machine

/-- The index of R164 before its scale. -/
def indexOf (g : Group) (e : Env) (o : Ops) (lane : Nat) : W64 :=
  match o.b with
  | .v n => if o.ux then (g.vreg lane n.toNat).setWidth 64 else (g.vreg lane n.toNat).signExtend 64
  | .none => 0#64
  | x => rd64 g e 0#32 lane x
/-- R164: an address from its base and index. -/
def formAddr (o : Ops) (base idx : W64) : W64 := base + (idx <<< o.scl) + o.ofs.signExtend 64
/-- R164: the base and index of a lane, and its address. -/
def addrOf (g : Group) (e : Env) (o : Ops) (lane : Nat) : W64 :=
  formAddr o (rd64 g e 0#32 lane o.a) (indexOf g e o lane)

/-- What R165 to R168 need to know of an access: what it does, its bytes, its alignment, whether it is a `ld` or `st` of 4 or 8
bytes (the only ones of region 0xFB), a cache operation, a form performed once for the group. -/
structure Form where
  use : Use
  len : Nat
  align : Nat
  plain : Bool
  cache : Bool
  once : Bool
  deriving DecidableEq, Repr

def sizeBytes : Size → Nat
  | .b32 => 4 | .b64 => 8 | .b128 => 16 | .b8 | .s8 => 1 | .b16 | .s16 => 2

/-- The form of an instruction's access (R168, R171, R174, R175, R178, R186); of a packed form that of its run. -/
def formOf (i : Instr) : Form :=
  match i with
  | .ld o _ _ _ size => let n := sizeBytes size; ⟨.load, n, 1, n = 4 || n = 8, false, o.d.isS⟩
  | .st o _ _ _ size => let n := sizeBytes size; ⟨.store, n, 1, n = 4 || n = 8, false, o.uniAddr && o.c.isUni⟩
  | .ldConvert o _ fmt =>
    if fmt.packed then ⟨.load, 4 * elemBits fmt, if elemBits fmt = 4 then 16 else 32, false, false, true⟩
    else ⟨.load, elemBits fmt / 8, elemBits fmt / 8, false, false, o.d.isS⟩
  | .stConvert o _ _ _ fmt =>
    if fmt.packed then ⟨.store, 4 * elemBits fmt, if elemBits fmt = 4 then 16 else 32, false, false, true⟩
    else ⟨.store, elemBits fmt / 8, elemBits fmt / 8, false, false, o.uniAddr && o.c.isUni⟩
  | .atom o sz _ _ _ | .red o sz _ _ _ =>
    let n := if sz then 8 else 4
    ⟨.atomic, n, n, false, false, o.uniAddr && o.c.isUni⟩
  | .tokrec _ | .hpush _ => ⟨.store, 32, 32, false, false, true⟩
  | .discard _ => ⟨.store, 1, 1, false, true, false⟩
  | _ => ⟨.clean, 1, 1, false, true, false⟩

def region (a : W64) : Nat := (a.extractLsb' 56 8).toNat

/-- R309, R422: the backing of a thread's stack aperture, within its partition. -/
def stackKey (s : State) (gid lane : Nat) : Nat :=
  let cid := cidOf gid
  let (t, pos) := s.posOf gid
  let b : W64 := match s.jobOf gid with
    | some j => j.stackb
    | none => (s.part (s.pnum cid)).stkbase + BitVec.ofNat 64 (2 ^ 21 * (32 * cid + firstSlot (s.core cid).gslots t))
  s.pnum cid * 2 ^ 64 + (b + BitVec.ofNat 64 (65536 * (32 * pos + lane))).toNat
/-- R309: bytes of a thread's stack aperture: memory at their backing address where its page translates, else bytes of their own
(log 6). -/
def stackTgt (s : State) (gid lane : Nat) (u : Use) (ofs len : Nat) : Target :=
  let key := stackKey s gid lane + ofs
  let c : Ctx := { s.ctx gid .sup with leases := none }
  .stack key (match translate s c u (key % 2 ^ 56) len with
    | .ok [x] => some { x with kind := 0 }
    | _ => none)

/-- The scratchpad byte that an offset of a member of the issuer's cluster names (R165, R196). -/
def peerOf (s : State) (gid ix : Nat) : Option (Nat × Nat) :=
  match s.clusterOf (s.tidOf gid) with
  | none => none
  | some (_, c, _) => if ix < c.members.length then some (nth 0 ix c.members, c.team) else none

/-- R165–R168, R418 in their order: the target of an access by a thread at level `p`, or its fault. A store with an ordering to the
copy aperture is no copy: APERR (log 125). -/
def checkAccess (s : State) (gid lane : Nat) (p : Priv) (f : Form) (a : W64) : Except W32 Target :=
  let r := region a
  let low := (a.extractLsb' 0 56).toNat
  if r = 0xFC || (r ≥ 0xFB && f.cache) || (r = 0xFD && f.once) || (r = 0xFB && !f.plain) then .error fwAPERR
  else if r = 0xFB && p = .user then .error fwPRIV
  else if low % (if r = 0xFB then f.len else f.align) != 0 then .error fwMISALIGN
  else if r = 0xFF then
    if low + f.len ≤ s.spLimit (cidOf gid) then
      .ok (.sp (cidOf gid) ((s.posOf gid).1 * s.spLimit (cidOf gid) + low))
    else .error fwSPBND
  else if r = 0xFE then
    match peerOf s gid (low / 2 ^ 52) with
    | none => .error fwSPBND
    | some (cid, t) =>
      if low % 2 ^ 52 + f.len ≤ s.spLimit cid then .ok (.sp cid (t * s.spLimit cid + low % 2 ^ 52)) else .error fwSPBND
  else if r = 0xFD then
    if low + f.len ≤ 65536 then .ok (stackTgt s gid lane f.use low f.len) else .error fwSTKBND
  else if r = 0xFB then .ok (.dev low)
  else match globalAccess s (s.ctx gid p) f.use a f.len with
    | .ok xs => .ok (.glob xs)
    | .error e => .error e

/-! ### Reading and writing a target (R168, R199) -/

def marked (bs : List Byte) (po : Bool) : List MByte := bs.map (fun b => (b, po))

/-- The bytes a target holds as the load/store path of a core reads them. `nt` and `lu` are the cache hints (R173). -/
def seeTarget (s : State) (cid : Nat) (nt lu : Bool) (len : Nat) : Target → List MByte × State
  | .glob xs => xs.foldl (fun a x =>
      let (bs, po, s') := loadXl a.2 cid nt lu x
      (a.1 ++ marked bs po, s')) ([], s)
  | .sp c o =>
    if (s.core c).lost || !peerBack s cid c then (marked (List.replicate len 0#8) true, s) else (s.spSee c 0 o len, s)
  | .stack _ (some x) =>
    let (bs, po, s') := loadXl s cid nt lu x
    (marked bs po, s')
  | .stack k none => (marked (tblBytes s.stk k len) false, s)
  | .dev _ => (marked (List.replicate len 0#8) false, s)
/-- The same, with one mark for all bytes. -/
def readTarget (s : State) (cid : Nat) (nt lu : Bool) (len : Nat) (t : Target) : List Byte × Bool × State :=
  let (bs, s) := seeTarget s cid nt lu len t
  (bs.map (fun b => b.1), bs.any (fun b => b.2), s)

/-- The threads that answer for an access of a lane. -/
def payers (lane : Nat) : Mask := if lane < 32 then 1#32 <<< lane else 0xFFFFFFFF#32

def writeParts (s : State) (gid : Nat) (m : Mask) (nt lu : Bool) : List Xl → List Byte → State
  | [], _ => s
  | x :: t, bs => writeParts (storeXl s gid m nt lu x (bs.take x.len)) gid m nt lu t (bs.drop x.len)

/-- The bytes of a target written by threads `m` of a group; a failure is charged to them (R357, R361). -/
def writeTarget (s : State) (gid : Nat) (m : Mask) (nt lu : Bool) (bs : List Byte) : Target → State
  | .glob xs => writeParts s gid m nt lu xs bs
  | .sp c o =>
    if !(s.core c).lost && peerUp s (cidOf gid) c then
      let s := s.putSp c 0 0 o bs
      if peerUp s c (cidOf gid) then s else chargeGroup s gid m (deadCode s (route (coreAt s c) (coreAt s (cidOf gid)))) false true
    else chargeGroup s gid m (if (s.core c).lost then coreSite s c else deadCode s (route (coreAt s (cidOf gid)) (coreAt s c))) false true
  | .stack _ (some x) => storeXl s gid m nt lu x bs
  | .stack k none => { s with stk := putBytes s.stk k bs }
  | .dev _ => s

/-! ### Atomics (R178, R180) -/

/-- R180: the scopes at which a global atomic performs at its home slice. -/
def wideScope : Scope → Bool | .thr | .grp | .team => false | _ => true
/-- R180: where a global atomic performs: at the home slice, after the issuing core's L1 copy of the line has been written
back and dropped, unless its scope is team or narrower on an RC or UO page. -/
def atomPrepare (s : State) (cid : Nat) (scope : Scope) (t : Target) : Target × State :=
  match t with
  | .glob [x] =>
    if x.kind != 0 && wideScope scope then
      (.glob [{ x with kind := 0 }], l1CleanLine s cid (l1Key (x.pa / 128) (x.kind = 2)) true)
    else (t, s)
  | _ => (t, s)

/-- The new value of an atomic (R178). -/
def atomVal (aop : AOp) (w : Nat) (old c cnew : Nat) : Nat :=
  match aop with
  | .add => (old + c) % 2 ^ w
  | .smin => if sint w old ≤ sint w c then old else c
  | .smax => if sint w old ≥ sint w c then old else c
  | .umin => min old c
  | .umax => max old c
  | .and => old &&& c
  | .or => old ||| c
  | .xor => old ^^^ c
  | .xchg => c
  | .cas => if old = c then cnew else old
  | .fadd => (fadd32 .rne old c).bits
  | .fminn => (fminmax false true old c).bits
  | .fmaxn => (fminmax true true old c).bits

/-- R357: whether an atomic reaches the place where it performs. -/
def atomUp (s : State) (cid : Nat) : Target → Bool
  | .glob [x] => x.kind != 0 || routeUp s cid x.pa
  | .sp c _ => !(s.core c).lost && peerUp s cid c
  | _ => true

/-- One atomic performed: the value before it with its marks, and the state. `data` holds c, and c_new after it for `.cas`. Where it cannot
reach its place it changes nothing and its failure is charged; what it returns then, or over a dead way back, the spec does not
say: a free value (log 7). -/
def atomic (s : State) (gid lane : Nat) (aop : AOp) (sz : Bool) (scope : Scope) (t : Target) (data : List Byte) :
    List MByte × State :=
  let n := if sz then 8 else 4
  let (t, s) := atomPrepare s (cidOf gid) scope t
  let up := atomUp s (cidOf gid) t
  let (bs, s) := if up then seeTarget s (cidOf gid) false false n t else (marked (List.replicate n 0#8) false, s)
  let old := natOf (bs.map (fun b => b.1))
  let new := atomVal aop (8 * n) old (natOf (data.take n)) (natOf (data.drop n))
  let s' := writeTarget s gid (payers lane) false false (bytesOf n new) t
  let back := match t with
    | .glob [x] => x.kind != 0 || backUp s (cidOf gid) x.pa
    | .sp c _ => peerUp s c (cidOf gid)
    | _ => true
  if up && back then (bs, s')
  else
    let (v, s') := s'.freeVal
    (marked (bytesOf n v.toNat) false, s')

/-- R14: 32 elements of `b` bits as bytes, and back. -/
def packElems (b : Nat) (es : List Nat) : List Byte :=
  bytesOf (4 * b) (es.foldr (fun e a => e % 2 ^ b + 2 ^ b * a) 0)
def unpackFrom (b : Nat) : Nat → Nat → List Nat
  | 0, _ => []
  | n + 1, x => x % 2 ^ b :: unpackFrom b n (x / 2 ^ b)
def unpackElems (b n : Nat) (bs : List Byte) : List Nat := unpackFrom b n (natOf bs)

/-- Bytes of a packed run with the elements of the lanes outside `m` kept from memory (R175). -/
def mergeRun (b : Nat) (m : Mask) (new old : List Byte) : List Byte :=
  packElems b (((upTo 32).zip ((unpackElems b 32 new).zip (unpackElems b 32 old))).map
    (fun e => if m.getLsbD e.1 then e.2.1 else e.2.2))

/-- `n` bytes of the registers that C names (R171); a register list read low register first. -/
def regBytes (g : Group) (lane : Nat) (c : Opd) (n : Nat) : List Byte :=
  match c with
  | .v k =>
    (bytesOf 4 (g.vreg lane k.toNat).toNat ++ bytesOf 4 (g.vreg lane (k.toNat + 1)).toNat
      ++ bytesOf 4 (g.vreg lane (k.toNat + 2)).toNat ++ bytesOf 4 (g.vreg lane (k.toNat + 3)).toNat).take n
  | .s k => (bytesOf 8 (g.ureg k.toNat).toNat ++ bytesOf 8 (g.ureg (k.toNat + 1)).toNat).take n
  | _ => List.replicate n 0#8

/-- Whether a data operand is a uniform special with a value of its own (R71). -/
def specialData : Opd → Bool
  | .groupid | .teamid | .coreid => true
  | _ => false

/-- The data of a store: `n` bytes of C (R171); a special is zero-extended (log 8). -/
def dataBytes (g : Group) (e : Env) (lane : Nat) (c : Opd) (n : Nat) : List Byte :=
  if specialData c then bytesOf n (rd64 g e 0#32 lane c).toNat else regBytes g lane c n

/-- c, and c_new for `.cas`, of registers (R178). -/
def atomRegs (g : Group) (lane : Nat) (c : Opd) (aop : AOp) (sz : Bool) : List Byte :=
  let n := if sz then 8 else 4
  match c with
  | .s k => bytesOf n (g.ureg k.toNat).toNat ++ (if aop = .cas then bytesOf n (g.ureg (k.toNat + 1)).toNat else [])
  | _ => regBytes g lane c (if aop = .cas then 2 * n else n)

/-- c, and c_new for `.cas`, of an atomic (R178): a special gives its value and 0 (log 8). -/
def atomData (g : Group) (e : Env) (lane : Nat) (c : Opd) (aop : AOp) (sz : Bool) : List Byte :=
  let n := if sz then 8 else 4
  if specialData c then
    bytesOf n (rd64 g e 0#32 lane c).toNat ++ (if aop = .cas then List.replicate n 0#8 else [])
  else atomRegs g lane c aop sz


/-- One element converted for a store: its pattern and flags (R23, R25, R177). -/
def convElem (fmt : Fmt) (sat : Bool) (rm : Rm) (x : Nat) : FR :=
  let v := fmt32.decode x
  match elemFmt fmt with
  | some f => f.conv rm 0 sat v
  | none => toInt (elemBits fmt) true rm v

/-- The 32 words of a packed store's data, those of the lanes outside `m` read as +0 (R175). -/
def runWords (m : Mask) (data : List Byte) : List Nat :=
  lanes.map (fun l => if m.getLsbD l then natOf ((data.drop (4 * l)).take 4) else 0)
/-- R26, R176: an MX block of a store: elements, scale byte, flags of the whole block. -/
def storeBlock (fmt : Fmt) (rm : Rm) (m : Mask) (data : List Byte) : List FR × Byte × Flags :=
  mxBlock fmt rm (fun _ => 0) ((runWords m data).map fmt32.decode)

/-- R437: the 32 bytes of a token record. -/
def tokBytes (a b : W64) (jacc : Half) : List Byte :=
  bytesOf 8 a.toNat ++ bytesOf 8 b.toNat ++ bytesOf 2 jacc.toNat
    ++ bytesOf 2 (if a.extractLsb' 0 32 = 0xFFFFFFFF#32 then 1 else 0) ++ List.replicate 12 0#8
/-- The bytes a store writes for a lane, from the bytes of its source registers: as they are, converted, or for a packed form the run and
after it the scale byte (R171, R174–R177). -/
def storeVal (i : Instr) (m : Mask) (data : List Byte) : List Byte :=
  match i with
  | .stConvert _ _ sat rm fmt =>
    if fmt.isMx then
      let (es, sc, _) := storeBlock fmt rm m data
      packElems (elemBits fmt) (es.map FR.bits) ++ [sc]
    else if fmt.packed then packElems (elemBits fmt) ((runWords m data).map (fun x => (convElem fmt sat rm x).bits))
    else bytesOf (elemBits fmt / 8) (convElem fmt sat rm (natOf (data.take 4))).bits
  | .tokrec _ => tokBytes (BitVec.ofNat 64 (natOf (data.take 8))) (BitVec.ofNat 64 (natOf ((data.drop 8).take 8)))
      (BitVec.ofNat 16 (natOf (data.drop 16)))
  | _ => data
/-- The bytes that one part of a store writes. -/
def Access.bytes (i : Instr) (a : Access) : List Byte := ((storeVal i a.mask a.data).drop a.ofs).take a.len

/-- The 32 bytes of four uniform registers. -/
def quadOf (g : Group) (o : Opd) : BitVec 256 :=
  match o with
  | .s n => g.ureg (n.toNat + 3) ++ g.ureg (n.toNat + 2) ++ g.ureg (n.toNat + 1) ++ g.ureg n.toNat
  | _ => 0#256

/-- The data registers of a store, an atomic or a push as they stand; none where it names no register. -/
def srcBytes (i : Instr) (g : Group) (lane : Nat) : Option (List Byte) :=
  match i with
  | .st o _ _ _ size => if specialData o.c then none else some (regBytes g lane o.c (sizeBytes size))
  | .stConvert o _ _ _ fmt =>
    if specialData o.c then none
    else if fmt.packed then some (lanes.flatMap (fun l => regBytes g l o.c 4)) else some (regBytes g lane o.c 4)
  | .atom o sz _ _ aop | .red o sz _ _ aop => if specialData o.c then none else some (atomRegs g lane o.c aop sz)
  | .tokrec o => some (regBytes g lane o.c 16)
  | .hpush o => some (bytesOf 32 (quadOf g o.b).toNat)
  | _ => none

/-- R80, R82: a placed push has read its registers: its record, while the hamper or the ring still holds it, is what they held. -/
def finishPush (s : State) (gid : Nat) (a : Access) : State :=
  let cid := a.idx.toNat
  let c := s.core cid
  let src := some (cidOf gid, a.base.toNat)
  if a.ofs = 0 then s.modCore cid (fun c => { c with task := c.task.map (fun r =>
    if r.src = src then { r with w := BitVec.ofNat 256 (natOf a.data), src := none } else r) })
  else if (BitVec.ofNat 32 (a.ofs - 1) - c.hrtake).toNat < (c.hrput - c.hrtake).toNat then
    match globalAccess s ⟨s.pnum cid, dieOf cid, (s.part (s.pnum cid)).aacc, none, false⟩ .store a.addr 32 with
    | .ok xs => xs.foldl (fun s x => { s with mem := s.mem.pokes x.pa (a.data.take x.len) }) s
    | .error _ => s
  else s

/-- The cache hints of an access. -/
def hints : Instr → Bool × Bool
  | .ld _ ch _ _ _ | .ldConvert _ ch _ | .st _ ch _ _ _ | .stConvert _ ch _ _ _ => (ch = .nt, ch = .lu)
  | _ => (false, false)

/-- R186, R187: one cache operation on a line. -/
def cacheOp (s : State) (cid : Nat) (i : Instr) (line : Nat) : State :=
  let clean (s : State) (drop : Bool) : State := l1CleanLine (l1CleanLine s cid (l1Key line false) drop) cid (l1Key line true) drop
  match i with
  | .discard _ =>
    let s := l1Drop s cid line
    if pinnedLine s line then s else { s with mem := s.mem.dropLine line }
  | .clean _ mem =>
    let s := clean s false
    if mem then { s with mem := s.mem.cleanLine line } else s
  | .inval _ icache =>
    if icache then
      s.modCore cid (fun c => { c with ic := (Tbl.del (2 * line + 1) (Tbl.del (2 * line) c.ic)) })
    else clean s true
  | _ => s

/-! ### Ordering (R204–R209, R212, R214) -/

def relOrd : MOrd → Bool | .rel | .ar => true | _ => false
def acqOrd : MOrd → Bool | .acq | .ar => true | _ => false
/-- ORD and SCOPE of an instruction (R172). -/
def ordOf : Instr → MOrd × Scope
  | .ld _ _ sc ord _ | .st _ _ sc ord _ => (ord, sc)
  | .atom _ _ sc ord _ | .red _ _ sc ord _ => (ord, sc)
  | _ => (.plain, .thr)
def isRel (i : Instr) : Bool := relOrd (ordOf i).1
def isAcq (i : Instr) : Bool := acqOrd (ordOf i).1

/-- The page kind of an access: 0 SO, 1 RC, 2 UO; 3 for scratchpad, stack and devices. -/
def Access.kind (a : Access) : Nat :=
  match a.tgt with
  | .glob (x :: _) => x.kind
  | _ => 3
/-- R200, R208, R209, R214: the modifier of an access acts where its part is not on a UO page. -/
def Access.acts (a : Access) : Bool := a.kind != 2

/-- What an access holds in order while it stands: whether of a load, its place in program order, its instruction. -/
structure Pend where
  ld : Bool
  seq : Nat
  ins : Instr
  a : Access
  deriving DecidableEq, Repr

def isAtomic : Instr → Bool | .atom .. | .red .. => true | _ => false
def isRld : Instr → Bool | .rld .. => true | _ => false
def isCacheOp : Instr → Bool | .discard _ | .clean _ _ | .inval _ _ => true | _ => false
/-- Two accesses name a common byte (R204), by mappings of one kind (R215); a cache operation acts on every byte of its line. -/
def Pend.meets (e l : Pend) : Bool :=
  let cross (x n y m : Nat) : Bool := decide (x < y + m) && decide (y < x + n)
  match e.a.tgt, l.a.tgt with
  | .glob (x :: _), .glob (y :: _) =>
    (x.kind = y.kind || isCacheOp e.ins || isCacheOp l.ins) && cross x.pa x.len y.pa y.len
  | .sp c o, .sp d q => c = d && cross o e.a.len q l.a.len
  | .stack j _, .stack k _ => cross j e.a.len k l.a.len
  | _, _ => false
/-- The two accesses belong to one thread; one made once for the group belongs to every thread (R212). -/
def Pend.sameThread (e l : Pend) : Bool := e.a.lane = l.a.lane || e.a.lane ≥ 32 || l.a.lane ≥ 32
/-- Both stand in the issuer's own scratchpad, or both in its stack (R165, R198); an `rld` is never so ordered (R334). -/
def Pend.bothOwn (e l : Pend) : Bool :=
  !isRld e.ins && !isRld l.ins && region e.a.addr = region l.a.addr && (region e.a.addr = 0xFF || region e.a.addr = 0xFD)

/-- The outstanding access `e`, earlier in program order, must perform before `l`: one location (R204, R169), SO pages (R206), own scratchpad and
stack (R198), an earlier acquire (R209), a later release (R208). -/
def mustPrecede (e l : Pend) : Bool :=
  if e.seq = l.seq then (!e.ld || isAtomic e.ins) && e.meets l
  else e.sameThread l && (e.meets l || (e.a.kind = 0 && l.a.kind = 0) || e.bothOwn l
    || (isAcq e.ins && e.a.acts && l.a.acts) || (isRel l.ins && l.a.acts && e.a.acts))

/-- A group's outstanding instructions in program order: whether a load, the instruction, the accesses to perform. -/
def insRec (x : Bool × Nat × Instr × List Access) : List (Bool × Nat × Instr × List Access) → List (Bool × Nat × Instr × List Access)
  | [] => [x]
  | y :: t => if x.2.1 < y.2.1 then x :: y :: t else y :: insRec x t
def Group.pends (g : Group) : List Pend :=
  (g.sts.foldl (fun l r => insRec (false, r.seq, r.ins, r.accs) l) (g.lds.map (fun r => (true, r.seq, r.ins, r.todo)))).flatMap
    (fun r => r.2.2.2.map (fun a => ⟨r.1, r.2.1, r.2.2.1, a⟩))
/-- The number of a group's next outstanding instruction. -/
def Group.nextSeq (g : Group) : Nat := 1 + (g.lds.map (fun r => r.seq) ++ g.sts.map (fun r => r.seq)).foldl max 0

/-- Of accesses in reverse program order, those that must perform before the ones in `need`, which they join, in program order. -/
def needed : List Pend → List Pend → List Pend
  | [], need => need
  | e :: t, need => needed t (if need.any (fun l => mustPrecede e l) then e :: need else need)
/-- The outstanding accesses that must perform before an access of a group. -/
def Group.before (g : Group) (p : Pend) : List Pend :=
  (needed (g.pends.takeWhile (fun e => decide (e.seq ≤ p.seq) && e != p)).reverse [p]).filter (fun e => e != p)

/-- Whether a load still writes registers of a thread, uniform results and accesses made for the group counting for every thread
(R181, R212). -/
def loadsStand (g : Group) (lane : Nat) : Bool :=
  g.lds.any (fun r => r.todo.any (fun a => a.lane = lane || a.lane ≥ 32) || r.vw.any (fun w => w.lane = lane) || !r.sw.isEmpty)

/-! ### Performing (R82, R168, R180, R200) -/

/-- One access performs: what its modifier asks of the L1 before and after, the read, the write, the atomic or the cache
operation; the bytes read with their marks. -/
def access (s : State) (gid : Nat) (i : Instr) (a : Access) : List MByte × State :=
  let cid := cidOf gid
  let (nt, lu) := hints i
  let wide := wideScope (ordOf i).2 && a.acts
  let s := if isRel i && wide then l1WriteBack s cid true false else s
  let r : List MByte × State := match i with
    | .atom _ sz scope _ aop | .red _ sz scope _ aop => atomic s gid a.lane aop sz scope a.tgt a.data
    | .st .. | .tokrec _ => ([], writeTarget s gid (payers a.lane) nt lu (a.bytes i) a.tgt)
    | .stConvert _ _ _ _ fmt =>
      if fmt.packed && !fmt.isMx && a.mask != 0xFFFFFFFF#32 then
        let (old, _, s) := readTarget s cid nt lu a.len a.tgt
        ([], writeTarget s gid (payers a.lane) nt lu (mergeRun (elemBits fmt) a.mask (a.bytes i) old) a.tgt)
      else ([], writeTarget s gid (payers a.lane) nt lu (a.bytes i) a.tgt)
    | .hpush _ => ([], finishPush s gid a)
    | .discard _ | .clean _ _ | .inval _ _ =>
      match a.tgt with
      | .glob (x :: _) => ([], cacheOp s cid i (x.pa / 128))
      | _ => ([], s)
    | _ => seeTarget s cid nt lu a.len a.tgt
  let s := match a.tgt with
    | .glob (x :: _) => if isRel i && wide && x.kind = 1 then l1CleanLine r.2 cid (l1Key (x.pa / 128) false) false else r.2
    | _ => r.2
  (r.1, if isAcq i && wide then l1Acquire s cid else s)

/-- R200, R209: what an acquire does after its load returns. -/
def acquireAt (s : State) (gid : Nat) (scope : Scope) : State := if wideScope scope then l1Acquire s (cidOf gid) else s

end Sys2Proof.Machine
end

