-- ==== Sys2Proof/Machine/Perform.lean ====
section
/-!
DEFINITION. How an outstanding access performs (08: R204–R212): what its data leaves to be written, the accesses that perform before
it, and what a release, an acquire and a fence ask of a group's outstanding accesses.
-/

namespace Sys2Proof.Machine

/-! ### What a load leaves to be written (R171, R174–R176, R189) -/

/-- The words a plain load writes to its lane's registers, low register first (R171). -/
def loadWords (size : Size) (bs : List Byte) : List W32 :=
  let n := natOf bs
  match size with
  | .b8 | .b16 | .b32 => [BitVec.ofNat 32 n]
  | .s8 => [(BitVec.ofNat 8 n).signExtend 32]
  | .s16 => [(BitVec.ofNat 16 n).signExtend 32]
  | .b64 => [BitVec.ofNat 32 n, BitVec.ofNat 32 (n / 2 ^ 32)]
  | .b128 => [BitVec.ofNat 32 n, BitVec.ofNat 32 (n / 2 ^ 32), BitVec.ofNat 32 (n / 2 ^ 64), BitVec.ofNat 32 (n / 2 ^ 96)]

/-- The words a plain load writes to uniform registers. -/
def loadUni (size : Size) (bs : List Byte) : List W64 :=
  let n := natOf bs
  match size with
  | .s8 => [(BitVec.ofNat 8 n).signExtend 64]
  | .s16 => [(BitVec.ofNat 16 n).signExtend 64]
  | .b128 => [BitVec.ofNat 64 n, BitVec.ofNat 64 (n / 2 ^ 64)]
  | _ => [BitVec.ofNat 64 n]

def vwrites (lane reg : Nat) : List W32 → List VWrite
  | [] => []
  | w :: t => ⟨lane, reg, w⟩ :: vwrites lane (reg + 1) t
def swrites (reg : Nat) : List W64 → List (Nat × W64)
  | [] => []
  | w :: t => (reg, w) :: swrites (reg + 1) t


/-- The FP32 value of an element for a load, with its flags (R24, R174, R176). -/
def loadElem (fmt : Fmt) (scale : Option Byte) (x : Nat) : FR :=
  match fmt.isMx, scale with
  | true, some sc =>
    let v := mxVal fmt sc x
    if v.isNan then ⟨0x7FC00000, 0#5⟩ else fmt32.conv .rne 0 false v
  | _, _ =>
    let v := elemVal fmt x
    if fmt.packed && v.isNan then ⟨0x7FC00000, 0#5⟩ else fmt32.conv .rne 0 false v


/-- A load's result: the words still to be written, flags, and poisoned addresses. -/
structure Res where
  vw : List VWrite
  sw : List (Nat × W64)
  fl : List (Nat × BitVec 5)
  pois : List (Nat × W64)

/-- Units of `n` bytes of some data, each zero where a byte of it is poisoned (R189). -/
def zeroPois (n : Nat) : Nat → List MByte → List MByte
  | 0, _ => []
  | k + 1, bs =>
    let u := bs.take n
    (if u.any (fun b => b.2) then u.map (fun _ => (0#8, true)) else u) ++ zeroPois n k (bs.drop n)
def valueOf (bs : List MByte) : List Byte := bs.map (fun b => b.1)

/-- The lanes whose registers an access fills: its own, or every thread of the active set. -/
def accMask (a : Access) : List Nat := if a.lane < 32 then [a.lane] else lanesOf a.mask

/-- What the bytes `bs` of an access, or of all parts of it, leave to be written: a unit that poisoned data would fill is zero, and its lanes
have LDPOIS (R189). -/
def resultOf (i : Instr) (a : Access) (bs : List MByte) : Res :=
  let po := bs.any (fun b => b.2)
  let pois := if po then (accMask a).map (fun l => (l, a.addr)) else []
  let put (d : Opd) (v : List W32) (u : List W64) (fl : List (Nat × BitVec 5)) : Res :=
    match d with
    | .v n => ⟨vwrites a.lane n.toNat v, [], fl, pois⟩
    | .s n => ⟨[], swrites n.toNat u, fl, pois⟩
    | _ => ⟨[], [], [], pois⟩
  match i with
  | .ld o _ _ _ size =>
    let ok := valueOf (zeroPois (if o.d.isS then 8 else 4) 4 bs)
    put o.d (loadWords size ok) (loadUni size ok) []
  | .atom o sz _ _ _ =>
    let ok := valueOf (zeroPois (if o.d.isS then 8 else 4) 4 bs)
    put o.d (loadWords (if sz then .b64 else .b32) ok) (loadUni .b64 ok) []
  | .ldConvert o _ fmt =>
    if fmt.packed then
      let reg := match o.d with | .v n => n.toNat | _ => 0
      let b := elemBits fmt
      let run := bs.take (4 * b)
      let sc := bs[4 * b]?
      let badAt (l : Nat) : Bool := (match sc with | some y => y.2 | none => false)
        || ((run.drop (b * l / 8)).take ((b * l + b + 7) / 8 - b * l / 8)).any (fun y => y.2)
      let es := ((lanes.zip (unpackElems b 32 (valueOf run))).filter (fun e => a.mask.getLsbD e.1)).map (fun e =>
        (e.1, badAt e.1, loadElem fmt (sc.map (fun y => y.1)) e.2))
      ⟨es.map (fun e => ⟨e.1, reg, if e.2.1 then 0#32 else BitVec.ofNat 32 e.2.2.bits⟩), [],
        (es.filter (fun e => !e.2.1)).map (fun e => (e.1, e.2.2.fl)), (es.filter (fun e => e.2.1)).map (fun e => (e.1, a.addr))⟩
    else
      let r := if po then ⟨0, 0#5⟩ else loadElem fmt none (natOf (valueOf bs))
      put o.d [BitVec.ofNat 32 r.bits] [BitVec.ofNat 64 r.bits] ((accMask a).map (fun l => (l, r.fl)))
  | .rld o _ =>
    let reg := match o.d with | .v n => n.toNat | _ => 0
    let l := a.ofs / 4 % 32
    if a.mask.getLsbD l then
      ⟨[⟨l, reg + a.ofs / 128, if po then 0#32 else BitVec.ofNat 32 (natOf (valueOf bs))⟩], [], [], if po then [(l, a.addr)] else []⟩
    else ⟨[], [], [], []⟩
  | _ => ⟨[], [], [], []⟩

/-- Two accesses of a load give one result: parts of one lane's access, the run and its scale byte; each word of an `rld` is its own. -/
def sameUnit (i : Instr) (a b : Access) : Bool := if isRld i then a.ofs = b.ofs else a.lane = b.lane
def insPart (x : Access × List MByte) : List (Access × List MByte) → List (Access × List MByte)
  | [] => [x]
  | y :: t => if x.1.ofs < y.1.ofs then x :: y :: t else y :: insPart x t

/-- An access of a load has performed and read `bs`; with the last part of its unit the result stands to be written. -/
def LoadRec.arrive (r : LoadRec) (a : Access) (bs : List MByte) : LoadRec :=
  let todo := r.todo.erase a
  if todo.any (sameUnit r.ins a) then { r with todo := todo, got := r.got ++ [(a, bs)] }
  else
    let parts := (r.got.filter (fun e => sameUnit r.ins a e.1)).foldl (fun l e => insPart e l) [(a, bs)]
    let first := match parts with | e :: _ => e.1 | [] => a
    let x := resultOf r.ins first (parts.flatMap (fun e => e.2))
    { r with todo := todo, got := r.got.filter (fun e => !sameUnit r.ins a e.1)
             vw := r.vw ++ x.vw, sw := r.sw ++ x.sw, fl := r.fl ++ x.fl, pois := r.pois ++ x.pois }
/-- Nothing is left to perform or to write. -/
def LoadRec.spent (r : LoadRec) : Bool := r.todo.isEmpty && r.vw.isEmpty && r.sw.isEmpty

/-! ### Performing an outstanding access -/

/-- An outstanding access performs. -/
def performPend (s : State) (gid : Nat) (p : Pend) : State :=
  if p.ld then
    match (s.group gid).lds.find? (fun r => r.seq = p.seq) with
    | some r =>
      if r.todo.contains p.a then
        let (bs, s) := access s gid p.ins p.a
        s.modGroup gid (fun g => { g with lds := g.lds.map (fun r => if r.seq = p.seq then r.arrive p.a bs else r) })
      else s
    | none => s
  else
    match (s.group gid).sts.find? (fun r => r.seq = p.seq) with
    | some r =>
      if r.accs.contains p.a then
        let s := s.modGroup gid (fun g => { g with
          sts := (g.sts.map (fun r => if r.seq = p.seq then { r with accs := r.accs.erase p.a } else r)).filter (fun r => !r.accs.isEmpty) })
        (access s gid p.ins p.a).2
      else s
    | none => s

/-- The outstanding accesses that R204 to R209 put before an access perform, in program order. -/
def settleFor (s : State) (gid : Nat) (p : Pend) : State := ((s.group gid).before p).foldl (fun s e => performPend s gid e) s
/-- An outstanding access performs after those that must precede it. -/
def performAfter (s : State) (gid : Nat) (p : Pend) : State := performPend (settleFor s gid p) gid p
/-- Every outstanding access of a group that satisfies a test performs, in program order. -/
def settle (s : State) (gid : Nat) (f : Pend → Bool) : State :=
  ((s.group gid).pends.filter f).foldl (fun s p => performAfter s gid p) s
/-- Every outstanding store of a group performs. -/
def settleAll (s : State) (gid : Nat) : State := settle s gid (fun p => !p.ld)

/-- R200, R208, R212: what a group-scope release does before it performs: the group's earlier accesses but those to UO pages, then at
cluster scope or wider the dirty RC bytes of the L1. -/
def releaseAt (s : State) (gid : Nat) (scope : Scope) : State :=
  let s := settle s gid (fun p => p.a.acts)
  if wideScope scope then l1WriteBack s (cidOf gid) true false else s
/-- R200, R211: a fence of some threads of a group on the load/store path. -/
def fenceAt (s : State) (gid : Nat) (m : Mask) (scope : Scope) : State :=
  let s := settle s gid (fun p => !p.ld && (p.a.lane ≥ 32 || m.getLsbD p.a.lane))
  if wideScope scope then l1Invalidate s (cidOf gid) true true else s

end Sys2Proof.Machine
end

