-- ==== Sys2Proof/Machine/Jobs.lean ====
section
/-!
DEFINITION. The life of a job on its core: the kernel header (R91), the launch (R59, R298, R324), the block queue (R53, R54),
the end of a group and the normal end of a job (R56, R299, R330).
-/

namespace Sys2Proof.Machine

/-- Bytes of the partition's global space read at the coherence point, with the checks of R166, R389 and R418. -/
def globalBytes (s : State) (c : Ctx) (u : Use) (a : W64) (len : Nat) : Except W32 (List Byte) :=
  match globalAccess s c u a len with
  | .error f => .error f
  | .ok xs => .ok (xs.flatMap (fun x => s.mem.peeks x.pa x.len))

/-- Bytes stored in the partition's global space at the coherence point. -/
def globalPut (s : State) (c : Ctx) (a : W64) (bs : List Byte) : Except W32 State :=
  match globalAccess s c .store a bs.length with
  | .error f => .error f
  | .ok xs => .ok ((xs.foldl (fun (p : State × List Byte) x =>
      ({ p.1 with mem := p.1.mem.pokes x.pa (p.2.take x.len) }, p.2.drop x.len)) (s, bs)).1)

/-- The context in which a Docent and the loader act for a partition: no lease set, supervisor level, its own accession. -/
def partCtx (s : State) (die part : Nat) : Ctx := ⟨part, die, (s.part part).aacc, none, false⟩

/-- A little-endian field of a byte list. -/
def field (bs : List Byte) (ofs n : Nat) : Nat := natOf ((bs.drop ofs).take n)

/-- R91: the kernel header in the 64 bytes before an entry, none where a field lies outside its legal values. -/
def parseHeader (bs : List Byte) : Option KHdr :=
  let h : KHdr := ⟨field bs 6 1, field bs 7 1, field bs 8 1, field bs 9 1, field bs 10 1, field bs 11 1, field bs 12 4,
    field bs 16 4 = 1, BitVec.ofNat 24 (field bs 0x14 4), BitVec.ofNat 64 (field bs 0x18 8), field bs 0x20 4 % 2 = 1,
    field bs 0x20 4 / 2 % 2 = 1⟩
  if field bs 0 4 = 0x484B5848 && field bs 4 2 = 1 && h.xbase ≤ h.xmax && h.xmax ≤ 6 && h.ucount ≤ 64 && h.acount ≤ 32
      && h.acct ≤ 32 && h.role ≤ 3 && h.scratch % 128 = 0 && h.scratch ≤ 2097152 && field bs 16 4 ≤ 1
      && field bs 0x14 4 < 2 ^ 24 && field bs 0x20 4 ≤ 3 && field bs 0x24 28 = 0 then some h
  else none

/-- The header of an entry as a partition reads it. -/
def readHeader (s : State) (die part : Nat) (entry : W64) : Option KHdr :=
  match globalBytes s (partCtx s die part) .load (entry - 64#64) 64 with
  | .ok bs => parseHeader bs
  | .error _ => none

/-! ### Launch (R298, R59, R324) -/

def fwRBDEAD : W32 := 0x21202004#32
def fwRBNEVER : W32 := 0x21202003#32
def fwRBLIM : W32 := 0x21202002#32

/-- R298: the groups of a team restarted at the job's entry, its registers from the record (R386). -/
def enterJob (s : State) (tid : Nat) (j : Job) : State :=
  let cid := tid / 8
  let s := if j.r.jacc != (s.core cid).lastAcc then l1Invalidate s cid true true else s
  let s := (s.groupsOf tid).foldl (fun s g =>
    let x := startGroup (s.group g) j.r.entry .user j.hdr.xbase j.hdr.aft
    let x := if j.hdr.ucount ≥ 1 then x.setU 0 j.r.arg else x
    let x := if j.hdr.ucount ≥ 2 then x.setU 1 (j.r.tile.setWidth 64) else x
    s.setGroup g x) s
  let s := s.modCore cid (fun c => { c with lastAcc := j.r.jacc })
  let s := s.modTeam tid (fun t => { t with st := .run, job := some j, launching := none, posted := [], ovf := []
                                            stalled := [], drops := 0, serial := 0 })
  match j.r.member with
  | none => s
  | some (key, _) =>
    match Tbl.find key s.clusters with
    | none => s
    | some c =>
      let ready := c.members.all (fun m => s.inInstance (8 * m + c.team) key && (s.team (8 * m + c.team)).st = .run
        && (s.team (8 * m + c.team)).launching.isNone)
      let groups := c.members.foldl (fun a m => a + (s.groupsOf (8 * m + c.team)).length) 0
      let c' := if ready then
        { c with launched := true, bars := List.replicate 4 { ClBar.zero with target := groups } } else c
      { s with clusters := Tbl.put key c' s.clusters }

/-- Whether a team has a launch request in its core's block queue. -/
def launchWaits (s : State) (tid : Nat) : Bool :=
  (s.core (tid / 8)).blockq.any (fun e => (s.groupsOf tid).contains e.1)

/-- R53: the head request granted when enough blocks are free; the group's new blocks read zero (R52). -/
def grantHead (s : State) (cid : Nat) : State :=
  match (s.core cid).blockq with
  | [] => s
  | (gid, n) :: rest =>
    if (n : Int) ≤ s.freeBlocks cid then
      let s := s.modCore cid (fun c => { c with blockq := rest })
      let tid := s.tidOf gid
      let s := s.modGroup gid (fun g => { g with
        v := g.v.filter (fun e => e.1 < 32 * (64 + 32 * g.xblk)), xblk := g.xblk + n })
      match (s.team tid).launching with
      | some j => if launchWaits s tid then s else enterJob s tid j
      | none => passDeliver s gid (waiters (s.group gid) (fun i => match i with | .regacq _ => true | _ => false))
    else s

/-- R54, R59: whether the head request can never be granted: every group of the core that holds an extension block waits in
the queue. -/
def headDead (s : State) (cid : Nat) : Bool :=
  match (s.core cid).blockq with
  | [] => false
  | (_, n) :: _ =>
    decide ((n : Int) > s.freeBlocks cid)
    && (rangeFrom (32 * cid) 32).all (fun g =>
      !(s.group g).live || (s.group g).xblk = 0 || (s.core cid).blockq.any (fun e => e.1 = g))

/-- R54, R59: RBDEAD in the head request's group, or the end of the launching job. -/
def deadHead (s : State) (cid : Nat) : State :=
  match (s.core cid).blockq with
  | [] => s
  | (gid, _) :: rest =>
    let tid := s.tidOf gid
    match (s.team tid).launching with
    | some j => endJob (s.modTeam tid (fun t => { t with job := some j })) tid fwRBDEAD true
    | none =>
      let s := s.modCore cid (fun c => { c with blockq := rest })
      deliver s gid (trapAll (waiters (s.group gid) (fun i => match i with | .regacq _ => true | _ => false)) fwRBDEAD 0#64)

/-- Requests granted from the head while they can be (R53), at most `n`. -/
def grantAll (s : State) (cid : Nat) : Nat → State
  | 0 => s
  | n + 1 =>
    let s' := grantHead s cid
    if (s'.core cid).blockq.length < (s.core cid).blockq.length then grantAll s' cid n else s

/-- One turn of the block queue: grants, then the dead head. -/
def blockTurn (s : State) (cid : Nat) : State :=
  let s := grantAll s cid 64
  if headDead s cid then deadHead s cid else s

/-- R59, R298: a team takes a job record: RBNEVER where its base blocks exceed the capacity, else a block request for each
group, and the job begins once they are granted. A job that asks for no block begins at once, whatever requests stand (log 122). -/
def launchJob (s : State) (tid : Nat) (j : Job) : State :=
  let cid := tid / 8
  let gs := s.groupsOf tid
  if (j.hdr.xbase * gs.length : Nat) > s.capacity cid then
    endJob (s.modTeam tid (fun t => { t with job := some j })) tid fwRBNEVER true
  else if j.hdr.xbase = 0 then enterJob s tid j
  else
    let s := gs.foldl (fun s g => s.modGroup g (fun x => { x with xblk := 0 })) s
    let s := s.modTeam tid (fun t => { t with launching := some j })
    blockTurn (s.modCore cid (fun c => { c with blockq := c.blockq ++ gs.map (fun g => (g, j.hdr.xbase)) })) cid

/-! ### Cluster barriers and the end of a group (R330, R324) -/

/-- R330: the barrier completes when COUNT reaches TARGET with at least one arrival. -/
def ClBar.turn (b : ClBar) : ClBar :=
  if b.count ≥ 1 && b.count = b.target then { b with gen := b.gen + 1#32, count := 0, arrived := 0#384 } else b
/-- R330: an arrival. -/
def ClBar.arrive (b : ClBar) (bit : Nat) : ClBar :=
  ClBar.turn { b with count := b.count + 1, arrived := setBit b.arrived bit true }
/-- R330: a group that ends. -/
def ClBar.leave (b : ClBar) (bit : Nat) : ClBar :=
  let had := b.arrived.getLsbD bit
  ClBar.turn { b with target := b.target - 1, count := if had then b.count - 1 else b.count, arrived := setBit b.arrived bit false }

/-- Whether every group of a team has ended. -/
def teamEmpty (s : State) (tid : Nat) : Bool := (s.groupsOf tid).all (fun g => (s.group g).fmask = 0#32)

/-- R56, R330, R299: a group whose full mask has become empty: its blocks return, the A latch it owns becomes invalid (R241), its cluster's barriers lose it, and the job ends
normally when no group of it is left. -/
def groupEnd (s : State) (gid : Nat) : State :=
  let tid := s.tidOf gid
  let s := (s.modGroup gid (fun g => { g with xblk := 0 })).modCore (cidOf gid) (dropLatch [gid])
  let s := match s.clusterOf tid with
    | some (key, c, ix) =>
      { s with clusters := Tbl.put key { c with bars := c.bars.map (fun b => b.leave (32 * ix + (s.posOf gid).2)) } s.clusters }
    | none => s
  if (s.team tid).job.isSome && (jobTeams s tid).all (teamEmpty s) then endJob s tid 0#32 false else s

/-- R56: the waiting load or register read of a thread: an outstanding load that writes its registers, or a matrix
instruction that has not latched its varying A. -/
def readsStand (s : State) (gid lane : Nat) : Bool :=
  loadsStand (s.group gid) lane
  || (s.core (cidOf gid)).mseq.any (fun e => e.gid = gid && !e.started && (match e.ins with
    | .mma _ _ _ => true
    | .mmaP o _ _ => o.a.isV
    | _ => false))

/-- R56: threads leave the full mask. -/
def leaveMask (s : State) (gid : Nat) (m : Mask) : State :=
  if m = 0#32 then s
  else
    let s := s.modGroup gid (fun g => { (g.modThreads m (fun t => { t with wait := none })) with
      fmask := g.fmask &&& ~~~m, tlanes := g.tlanes &&& ~~~m })
    if (s.group gid).fmask = 0#32 then groupEnd s gid else s

/-- The threads waiting in `exit` that can complete it (R56). -/
def exitReady (s : State) (gid : Nat) (m : Mask) : Mask := maskWhere m (fun l => !readsStand s gid l)

end Sys2Proof.Machine
end

