-- ==== Sys2Proof/Machine/Control.lean ====
section
/-!
DEFINITION. Control flow, cross-lane, trap and special-register instructions, the register blocks, and the releases of the
waits among them (06: R141–R163; 02: R36–R40, R52–R56).
-/

namespace Sys2Proof.Machine

def fwCSOVF : W32 := 0x01310001#32
def fwCSUNF : W32 := 0x01310002#32
def fwILLOOP : W32 := 0x01630001#32
def fwLOOPDEEP : W32 := 0x01630002#32
def fwCONVMIS : W32 := 0x21003001#32

/-! ### The return stack (R36, R37) -/

/-- R165: a thread's outstanding accesses to its stack perform before a spill or a refill. -/
def settleStack (s : State) (gid lane : Nat) : State :=
  settle s gid (fun p => p.a.lane = lane && (match p.a.tgt with | .stack _ _ => true | _ => false))
/-- R37: a return address pushed; at depth 16 or more the oldest held entry spills. -/
def pushRet (s : State) (gid lane : Nat) (ra : W64) : State :=
  let t := (s.group gid).thread lane
  let s := if t.cdepth ≥ 16 then
      let s := settleStack s gid lane
      writeTarget s gid (payers lane) false false (bytesOf 8 (nth 0#64 15 t.rstack).toNat)
        (stackTgt s gid lane .store (8 * (t.cdepth - 16)) 8)
    else s
  s.modGroup gid (fun g => g.modThread lane (fun t => { t with
    cdepth := t.cdepth + 1, rstack := ra :: t.rstack.take 15 }))

/-- R37: a return address popped; fewer than 16 held entries refill from the spill area. -/
def popRet (s : State) (gid lane : Nat) : State :=
  let t := (s.group gid).thread lane
  let (refill, s) : List W64 × State := if t.cdepth ≥ 17 then
      let s := settleStack s gid lane
      let (bs, _, s) := readTarget s (cidOf gid) false false 8 (stackTgt s gid lane .load (8 * (t.cdepth - 17)) 8)
      ([BitVec.ofNat 64 (natOf bs)], s)
    else ([], s)
  s.modGroup gid (fun g => g.modThread lane (fun t => { t with
    cdepth := t.cdepth - 1, rstack := t.rstack.drop 1 ++ refill }))

/-! ### Transfers (R142, R143) -/

/-- The transfer of some lanes: for each, a check before the target's, the check of the target (R66), a check after it, then
the transfer's own effect and the PC. A lane that faults takes none of it. -/
def transfer (x : At) (take : Mask) (tgt : Nat → W64) (pre post : Nat → Option W32) (eff : State → Nat → State)
    (s : State) : Out :=
  let (s, ts) := (lanesOf take).foldl (fun (a : State × List Trap) l =>
    let (s, ts) := a
    match pre l with
    | some w => (s, ts ++ [⟨l, w, 0#64⟩])
    | none =>
      match targetFault s (s.ctx x.gid ((s.group x.gid).thread l).priv) (cidOf x.gid) (tgt l) with
      | (some (w, ad), s) => (s, ts ++ [⟨l, w, ad⟩])
      | (none, s) =>
        match post l with
        | some w => (s, ts ++ [⟨l, w, 0#64⟩])
        | none => ((eff s l).modGroup x.gid (fun g => g.modThread l (fun t => { t with pc := tgt l })), ts)) (s, [])
  ⟨s, ts, take, false⟩

def noCheck (_ : Nat) : Option W32 := none
def popLoop (gid : Nat) (pop : Bool) (s : State) (l : Nat) : State :=
  if pop then s.modGroup gid (fun g => g.modThread l (fun t => { t with loops := t.loops.drop 1 })) else s

/-- The PC of the active set. -/
def curPc (s : State) (x : At) : W64 :=
  match lanesOf x.act with
  | l :: _ => ((s.group x.gid).thread l).pc
  | [] => 0#64

/-- P + sext(IMM) (R142). -/
def relTarget (s : State) (x : At) (o : Ops) : W64 := curPc s x + o.imm.signExtend 64

def execBra (o : Ops) (nq pop : Bool) (s : State) : Host.Outcome State Fault Refusal :=
  next (issue (.bra o nq pop) s fun x s =>
    let take := if o.a.isQ then (if rdP (s.group x.gid) 0 o.a != nq then x.eff else 0#32) else x.eff
    let t := relTarget s x o
    transfer x take (fun _ => t) noCheck noCheck (popLoop x.gid pop) s)
def execBrx (o : Ops) (pop : Bool) (s : State) : Host.Outcome State Fault Refusal :=
  next (issue (.brx o pop) s fun x s =>
    let g := s.group x.gid
    transfer x x.eff (fun l => rd64 g x.env 0#32 l o.a) noCheck noCheck (popLoop x.gid pop) s)

/-- R37, R142: a call at depth 528 raises CSOVF after the checks of its target. -/
def callDeep (g : Group) (l : Nat) : Option W32 := if (g.thread l).cdepth ≥ 528 then some fwCSOVF else none
def execCall (o : Ops) (s : State) : Host.Outcome State Fault Refusal :=
  next (issue (.call o) s fun x s =>
    let t := relTarget s x o
    let ra := nextPc (curPc s x)
    transfer x x.eff (fun _ => t) noCheck (callDeep (s.group x.gid)) (fun s l => pushRet s x.gid l ra) s)
def execCallx (o : Ops) (s : State) : Host.Outcome State Fault Refusal :=
  next (issue (.callx o) s fun x s =>
    let g := s.group x.gid
    let ra := nextPc (curPc s x)
    transfer x x.eff (fun l => rd64 g x.env 0#32 l o.a) noCheck (callDeep g) (fun s l => pushRet s x.gid l ra) s)
def execRet (o : Ops) (s : State) : Host.Outcome State Fault Refusal :=
  next (issue (.ret o) s fun x s =>
    let g := s.group x.gid
    transfer x x.eff (fun l => nth 0#64 0 (g.thread l).rstack)
      (fun l => if (g.thread l).cdepth = 0 then some fwCSUNF else none) noCheck (fun s l => popRet s x.gid l) s)

/-- R144: the slot `n` fall-through steps from a PC. -/
def fallThrough : Nat → W64 → W64
  | 0, p => p
  | n + 1, p => fallThrough n (nextPc p)

/-- R144: the OP values that may not stand at a loop's END. -/
def isTransferOp (op : Nat) : Bool := op ≤ 0x105 && op ≥ 0x100 || op = 0x111

/-- R144: what a thread of `loop` meets, before its effect: a fault, or none. -/
def loopFault (s : State) (x : At) (l : Nat) (p stop : W64) (n : W32) : Option (W32 × W64) × State :=
  let t := (s.group x.gid).thread l
  let c := s.ctx x.gid t.priv
  match fetchAddr s c stop with
  | .error f => (some (f, stop), s)
  | .ok pa =>
    match checkedLine s (cidOf x.gid) pa (some (slotIx stop)) with
    | (.error (f, _), s) => (some (f, stop), s)
    | (.ok line, s) =>
      if !linePair line (slotIx stop) && isTransferOp ((slotWord line (slotIx stop)).extractLsb' 86 10).toNat then
        (some (fwILLOOP, 0#64), s)
      else if n = 0#32 then (none, s)
      else if t.loops.length ≥ 2 then (some (fwLOOPDEEP, 0#64), s)
      else match targetFault s c (cidOf x.gid) (nextPc p) with
        | (some (w, _), s) => (some (w, nextPc p), s)
        | (none, s) => (none, s)

/-- R144. A count of zero passes the END slot, with its end step (R145). -/
def execLoop (o : Ops) (len : BitVec 10) (s : State) : Host.Outcome State Fault Refusal :=
  next (issue (.loop o len) s fun x s =>
    let g := s.group x.gid
    let p := curPc s x
    let stop := fallThrough (len.toNat + 1) p
    let (s, ts, stay) := (lanesOf x.eff).foldl (fun (a : State × List Trap × Mask) l =>
      let (s, ts, stay) := a
      let n : W32 := rd32 g x.env o.imm l o.a
      match loopFault s x l p stop n with
      | (some (w, ad), s) => (s, ts ++ [⟨l, w, ad⟩], stay)
      | (none, s) =>
        if n = 0#32 then (s.modGroup x.gid (fun g => g.modThread l (fun t => { t with pc := stop })), ts, stay)
        else
          (s.modGroup x.gid (fun g => g.modThread l (fun t => { t with
            loops := ⟨nextPc p, stop, n⟩ :: t.loops, pc := nextPc p })), ts, setBit stay l true)) (s, [], 0#32)
    ⟨s, ts, stay, false⟩)

/-! ### Waiting, leaving, yielding (R40, R56, R146, R147) -/

/-- R40: the release of `conv`, or CONVMIS, when the whole full mask waits. -/
def tryConv (s : State) (gid : Nat) : State :=
  let g := s.group gid
  let w := waiters g (fun i => match i with | .conv _ => true | _ => false)
  if w = 0#32 || w != g.fmask then s
  else
    let p := (g.thread ((lanesOf w).headD 0)).pc
    if (lanesOf w).all (fun l => (g.thread l).pc = p) then passDeliver s gid w
    else deliver s gid (trapAll w fwCONVMIS 0#64)

/-- An instruction whose threads wait, followed by an attempt to release them. -/
def waitThen (i : Instr) (try_ : State → Nat → State) (s : State) : State :=
  let gid := s.cur.gid
  let tr0 := (s.group gid).tlanes
  let job0 := (s.jobOf gid).isSome
  let s' := issue i s fun x s => .hold (waitIn s x.gid x.eff i) x.eff
  if (s'.group gid).tlanes = tr0 && (s'.jobOf gid).isSome = job0 then try_ s' gid else s'

def execConv (o : Ops) (s : State) : Host.Outcome State Fault Refusal := next (waitThen (.conv o) tryConv s)
def execConvRelease (g : Nat) (s : State) : Host.Outcome State Fault Refusal := next (tryConv s g)

/-- R146: the limits of a `wait` hold. -/
def waitOk (s : State) (gid : Nat) (o : Ops) : Bool :=
  let g := s.group gid
  let lim (ofs n : Nat) : Nat := (o.imm.extractLsb' ofs n).toNat
  g.lds.length ≤ lim 0 6 && g.stc ≤ lim 6 6 && g.cps.length ≤ lim 12 6 && s.tlc gid ≤ lim 18 4

/-- R146: the threads of `wait` whose limits hold pass it. -/
def tryWait (s : State) (gid : Nat) : State :=
  passDeliver s gid (waiters (s.group gid) (fun i => match i with | .wait o => waitOk s gid o | _ => false))
def execWait (o : Ops) (s : State) : Host.Outcome State Fault Refusal := next (waitThen (.wait o) tryWait s)
def execWaitRelease (g : Nat) (s : State) : Host.Outcome State Fault Refusal := next (tryWait s g)

/-- R56: the threads waiting in `exit` that can leave do. -/
def tryExit (s : State) (gid : Nat) : State :=
  leaveMask s gid (exitReady s gid (waiters (s.group gid) (fun i => match i with | .exit _ => true | _ => false)))
def execExit (o : Ops) (s : State) : Host.Outcome State Fault Refusal := next (waitThen (.exit o) tryExit s)
/-- R56, for one thread. -/
def execExitComplete (g : Nat) (lane : BitVec 5) (s : State) : Host.Outcome State Fault Refusal :=
  next (leaveMask s g (exitReady s g (waiters (s.group g) (fun i => match i with | .exit _ => true | _ => false)
    &&& (1#32 <<< lane.toNat))))

/-- R147: not ready at the group's next issue opportunity. -/
def execYield (o : Ops) (s : State) : Host.Outcome State Fault Refusal :=
  next (issue (.yield o) s fun x s =>
    .done (s.modGroup x.gid (fun g => g.modThreads x.eff (fun t => { t with yielded := true }))))
def execNop (o : Ops) (s : State) : Host.Outcome State Fault Refusal := next (issue (.nop o) s fun _ s => .done s)

/-! ### Traps (R161, R162) -/

def execTrap (o : Ops) (s : State) : Host.Outcome State Fault Refusal :=
  next (issue (.trap o) s fun x s => .fail s x.eff (0x01631000#32 + (o.imm &&& 0xFFF#32)) 0#64)
def execBrk (o : Ops) (s : State) : Host.Outcome State Fault Refusal :=
  next (issue (.brk o) s fun x s => .fail s x.eff (0x01632000#32 + (o.imm &&& 0xFFF#32)) 0#64)
/-- R161: the status of the lowest-numbered contributing thread ends the job. -/
def execTrapEnd (o : Ops) (s : State) : Host.Outcome State Fault Refusal :=
  next (issue (.trapEnd o) s fun x s =>
    match lanesOf x.eff with
    | [] => .done s
    | l :: _ => .over (endJob s (s.tidOf x.gid) (rd32 (s.group x.gid) x.env o.imm l o.a) true))

/-- R162: a thread's return; `.next` passes the slot at TPC (from no legal slot, to the next line: log 123). -/
def execTret (o : Ops) (nx : Bool) (s : State) : Host.Outcome State Fault Refusal :=
  next (issue (.tret o nx) s fun x s =>
    let g := s.group x.gid
    let out := maskWhere x.eff (fun l => !g.tlanes.getLsbD l)
    let goes_ (l : Nat) : W64 := let t := (g.thread l).tpc
      if nx then nextPc t else t
    let bad := maskWhere (x.eff &&& ~~~out) (fun l => !pcLegal (goes_ l))
    let go := x.eff &&& ~~~(out ||| bad)
    let s := s.modGroup x.gid (fun g =>
      { (g.modThreads go (fun t => { t with priv := t.ppriv, pc := t.tpc })) with tlanes := g.tlanes &&& ~~~go })
    ⟨s, trapAll out fwTRETNH 0#64 ++ (lanesOf bad).map (fun l => ⟨l, fwBADPC, goes_ l⟩), if nx then 0#32 else go, false⟩)

/-! ### Across the lanes (R149–R157) -/

/-- The lanes of a set whose predicate is 1. -/
def predMask (g : Group) (m : Mask) (p : Opd) : Mask := maskWhere m (fun l => rdP g l p)
def popMask (m : Mask) : Nat := popcNat 32 m.toNat
def lowMask (m : Mask) : Nat := (lanesOf m).headD 32

/-- R150. -/
def voteVal (mode : VMode) (m ones : Mask) : Nat :=
  match mode with
  | .or => boolNat (ones != 0#32)
  | .and => boolNat (ones == m)
  | .same => boolNat (ones == m || ones == 0#32)
  | .mask => ones.toNat
  | .cnt => popMask ones
  | .low => lowMask ones
def execVote (o : Ops) (mode : VMode) (s : State) : Host.Outcome State Fault Refusal :=
  next (issue (.vote o mode) s fun x s =>
    let v := voteVal mode x.eff (predMask (s.group x.gid) x.eff o.a)
    regRes false x s o.d fun _ _ => (v, 0#5))
/-- R151. -/
def execElect (o : Ops) (s : State) : Host.Outcome State Fault Refusal :=
  next (issue (.elect o) s fun x s =>
    regRes false x s o.d fun uni l => (if uni then lowMask x.eff else boolNat (l == lowMask x.eff), 0#5))

def Seg.width : Seg → Nat | .w32 => 32 | .w2 => 2 | .w4 => 4 | .w8 => 8 | .w16 => 16
/-- R152: the source lane, none where it is not valid. -/
def shflSrc (mode : SMode) (w i : Nat) (b : W32) : Option Nat :=
  let base := i / w * w
  let r := i % w
  match mode with
  | .pick => some (base + b.toNat % w)
  | .slide =>
    let j : Int := (i : Int) - b.toInt
    if (base : Int) ≤ j ∧ j < base + w then some j.toNat else none
  | .spin => some (base + (r + b.toNat) % w)
  | .flip => some (base + (r ^^^ b.toNat % w))
  | .rev => some (base + w - 1 - r)
def execShfl (o : Ops) (mode : SMode) (seg : Seg) (s : State) : Host.Outcome State Fault Refusal :=
  next (issue (.shfl o mode seg) s fun x s =>
    let g := s.group x.gid
    regRes false x s o.d fun _ i =>
      let src := match shflSrc mode (Seg.width seg) i (rd32 g x.env o.imm i o.b) with
        | some j => if x.act.getLsbD j then j else i
        | none => i
      ((rd32 g x.env o.imm src o.a).toNat, 0#5))
/-- R153. -/
def execRdlane (o : Ops) (s : State) : Host.Outcome State Fault Refusal :=
  next (issue (.rdlane o) s fun x s =>
    let g := s.group x.gid
    let l := (rd32 g x.env o.imm 0 o.b).toNat % 32
    regRes false x s o.d fun _ _ => ((rd32 g x.env o.imm l o.a).toNat, 0#5))
def execWrlane (o : Ops) (s : State) : Host.Outcome State Fault Refusal :=
  next (issue (.wrlane o) s fun x s =>
    let g := s.group x.gid
    let l := (rd32 g x.env o.imm 0 o.b).toNat % 32
    let v := (rd32 g x.env o.imm 0 o.a).toNat
    .done (s.modGroup x.gid (fun g => if x.eff.getLsbD l then wrLane false g l o.d v else g)))

/-- R154: the fold of the contributing values, each extended as it is read. -/
def rediVal (op : RedI) (u : Bool) (vs : List Nat) : Int :=
  let ext (v : Nat) : Int := if u then v else sint 32 v
  match vs with
  | [] => 0
  | v :: t => match op with
    | .add => (v :: t).foldl (fun a x => a + ext x) 0
    | .min => t.foldl (fun a x => min a (ext x)) (ext v)
    | .max => t.foldl (fun a x => max a (ext x)) (ext v)
    | .and => ((t.foldl (fun a x => a &&& x) v : Nat) : Int)
    | .or => ((t.foldl (fun a x => a ||| x) v : Nat) : Int)
    | .xor => ((t.foldl (fun a x => a ^^^ x) v : Nat) : Int)
/-- The values of A in the contributing threads. -/
def laneVals (s : State) (x : At) (o : Ops) : List Nat :=
  (lanesOf x.eff).map (fun l => (rd32 (s.group x.gid) x.env o.imm l o.a).toNat)
def execRedi (o : Ops) (op : RedI) (u : Bool) (s : State) : Host.Outcome State Fault Refusal :=
  next (issue (.redi o op u) s fun x s =>
    let v := wrap 64 (rediVal op u (laneVals s x o))
    regRes false x s o.d fun _ _ => (v, 0#5))
/-- R155. -/
def redfVal (op : RedF) (vs : List Nat) : FR :=
  match op with
  | .add =>
    let fs := vs.map fmt32.decode
    matSum (fs.any FVal.isNan) (fs.any FVal.isSig) (fs.map some ++ [some (.fin true 0 0)])
  | _ =>
    let f := match op with
      | .min => fminmax false false | .max => fminmax true false | .minn => fminmax false true | _ => fminmax true true
    match vs with
    | [] => ⟨0, 0#5⟩
    | v :: t => t.foldl (fun a x => let r := f a.bits x
        ⟨r.bits, a.fl ||| r.fl⟩) ⟨(f v v).bits, (f v v).fl⟩
def execRedf (o : Ops) (op : RedF) (s : State) : Host.Outcome State Fault Refusal :=
  next (issue (.redf o op) s fun x s =>
    let r := redfVal op (laneVals s x o)
    regRes false x s o.d fun _ _ => (r.bits, r.fl))
/-- R156: value and index of the greatest candidate; the flag of a signalling NaN. -/
def redmaxVal (int : Bool) (vs : List (Nat × Nat)) : Nat × Nat × Flags :=
  let key (v : Nat) : Int := if int then sint 32 v else fkey v
  let nan (v : Nat) : Bool := !int && (fmt32.decode v).isNan
  let fl := flIf (!int && vs.any (fun e => (fmt32.decode e.1).isSig)) flIV
  match vs.filter (fun e => !nan e.1) with
  | [] => (0x7FC00000, 0xFFFFFFFF, fl)
  | e :: t =>
    let b := t.foldl (fun a x => if key x.1 > key a.1 || (key x.1 = key a.1 && x.2 < a.2) then x else a) e
    (b.1, b.2, fl)
def execRedmaxi (o : Ops) (i : Bool) (s : State) : Host.Outcome State Fault Refusal :=
  next (issue (.redmaxi o i) s fun x s =>
    let g := s.group x.gid
    let r := redmaxVal i ((lanesOf x.eff).map (fun l =>
      ((rd32 g x.env o.imm l o.a).toNat, (rd32 g x.env o.imm l o.b).toNat)))
    regRes true x s o.d fun _ _ => (r.1 + 2 ^ 32 * r.2.1, r.2.2))
/-- R157. -/
def execMatchLanes (o : Ops) (s : State) : Host.Outcome State Fault Refusal :=
  next (issue (.matchLanes o) s fun x s =>
    let g := s.group x.gid
    regRes false x s o.d fun _ i =>
      ((maskWhere x.eff (fun j => rd32 g x.env o.imm j o.a = rd32 g x.env o.imm i o.a)).toNat, 0#5))
def execIsect (o : Ops) (s : State) : Host.Outcome State Fault Refusal :=
  next (issue (.isect o) s fun x s =>
    let g := s.group x.gid
    regRes false x s o.d fun _ i =>
      let hit := (lanesOf x.eff).find? (fun j => rd32 g x.env o.imm j o.b = rd32 g x.env o.imm i o.a)
      (if o.d.isP then boolNat hit.isSome else hit.getD 0xFFFFFFFF, 0#5))
def execScnt (o : Ops) (inc : Bool) (s : State) : Host.Outcome State Fault Refusal :=
  next (issue (.scnt o inc) s fun x s =>
    let ones := predMask (s.group x.gid) x.eff o.a
    regRes false x s o.d fun _ i => (popMask (ones &&& BitVec.ofNat 32 (2 ^ (if inc then i + 1 else i) - 1)), 0#5))

/-! ### Special registers (R158, R159) -/

/-- The value of a special register in a lane. -/
def srRead (s : State) (gid lane n : Nat) : Nat :=
  let g := s.group gid
  let t := g.thread lane
  match n with
  | 0x000 => (Thread.tsr t).toNat
  | 0x001 => (s.gsr gid).toNat
  | 0x002 => t.tcause.toNat
  | 0x003 => t.tpc.toNat
  | 0x004 => t.taddr.toNat
  | 0x005 => g.tlanes.toNat
  | 0x008 => (s.team (s.tidOf gid)).lbase.toNat
  | 0x009 => match s.jobOf gid with | some j => j.r.jacc.toNat | none => 0
  | 0x00A => match s.jobOf gid with | some j => j.r.sdepth.toNat | none => 0
  | 0x00B => (s.core (cidOf gid)).pword.toNat
  | 0x010 => match t.loops with | [e] => e.count.toNat | [_, e] => e.count.toNat | _ => 0
  | 0x011 => match t.loops with | [e, _] => e.count.toNat | _ => 0
  | 0x018 => s.time.toNat
  | _ => s.cycle.toNat
def execGetsr (o : Ops) (s : State) : Host.Outcome State Fault Refusal :=
  next (issue (.getsr o) s fun x s =>
    regRes (srWidth o.srnum = some 64) x s o.d fun _ l => (srRead s x.gid l o.srnum, 0#5))

/-- R159: the operation of `setsr`. -/
def srNew (op : SrOp) (old a : W64) : W64 :=
  match op with
  | .write => a
  | .or => old ||| a
  | .andn => old &&& ~~~a

/-- R158: registers writable at supervisor level only. -/
def srSup (n : Nat) : Bool := n = 2 || n = 3 || n = 4 || n = 8

/-- A thread-scope write (R159). -/
def setThreadSr (n : Nat) (v : W64) (t : Thread) : Thread :=
  match n with
  | 0 => t.setTsr (v.extractLsb' 0 32)
  | 2 => { t with tcause := v.extractLsb' 0 32 }
  | 3 => { t with tpc := v }
  | 4 => { t with taddr := v }
  | _ => t
/-- R159: the value that `setsr` writes to a lane's register. -/
def srWrites (s : State) (gid : Nat) (o : Ops) (op : SrOp) (l : Nat) : W64 :=
  let g := s.group gid
  let e := s.env gid
  let a := if srWidth o.srnum = some 64 then rd64 g e o.imm l o.a else (rd32 g e o.imm l o.a).setWidth 64
  srNew op (BitVec.ofNat 64 (srRead s gid l o.srnum)) a
/-- R159, R10: the threads at user level whose `setsr` would change an RW-S register; a thread whose guard is false writes nothing (log
132). -/
def srLow (s : State) (gid : Nat) (m : Mask) (o : Ops) (op : SrOp) : Mask :=
  let g := s.group gid
  maskWhere m (fun l => srSup o.srnum && (g.thread l).priv = .user && guardTrue o.g g l
    && srWrites s gid o op l != BitVec.ofNat 64 (srRead s gid l o.srnum))
/-- R159: PRIV is judged in its place among the checks (R79); a write of a wider scope goes by lane 0. -/
def execSetsr (o : Ops) (op : SrOp) (s : State) : Host.Outcome State Fault Refusal :=
  next (issueAt (.setsr o op) (srLow s s.cur.gid s.cur.mask o op) s fun x s =>
    let n := o.srnum
    let new := srWrites s x.gid o op
    if srThread n then .done (s.modGroup x.gid (fun g => (lanesOf x.eff).foldl (fun g l => g.modThread l (setThreadSr n (new l))) g))
    else if n = 1 then .done (s.modGroup x.gid (fun g => g.setGsr (new 0)))
    else if n = 8 then .done (s.modTeam (s.tidOf x.gid) (fun t => { t with lbase := new 0 }))
    else .done s)

/-! ### Register blocks (R52–R54) -/

/-- R52: a request that cannot be met, one already met, or a place at the tail of the block queue. -/
def regacqBody (i : Instr) (o : Ops) (x : At) (s : State) : Out :=
  let n := o.imm.toNat
  let g := s.group x.gid
  if n > (s.counts x.gid).1 then .fail s x.act fwRBLIM 0#64
  else if (n : Int) > s.capacity (cidOf x.gid) then .fail s x.act fwRBNEVER 0#64
  else if n ≤ g.xblk then .done s
  else
    .hold ((waitIn s x.gid x.act i).modCore (cidOf x.gid) (fun c => { c with
      blockq := c.blockq ++ [(x.gid, n - g.xblk)] })) x.act
def execRegacq (o : Ops) (s : State) : Host.Outcome State Fault Refusal :=
  next (blockTurn (issue (.regacq o) s (regacqBody (.regacq o) o)) (cidOf s.cur.gid))
def execRegacqGrant (c : Nat) (s : State) : Host.Outcome State Fault Refusal := next (blockTurn s c)

/-- R52: the blocks above N given up once no load is outstanding; they are offered to the queue's head at once. -/
def tryRegrel (s : State) (gid : Nat) : State :=
  let g := s.group gid
  let w := waiters g (fun i => match i with | .regrel _ => true | _ => false)
  match waitInstr g w with
  | some (.regrel o) =>
    if g.lds.isEmpty then
      let n := o.imm.toNat
      let s := s.modGroup gid (fun g => { g with
        v := g.v.filter (fun e => e.1 < 32 * (64 + 32 * n)), xblk := min n g.xblk })
      blockTurn (passDeliver s gid w) (cidOf gid)
    else s
  | _ => s
def execRegrel (o : Ops) (s : State) : Host.Outcome State Fault Refusal :=
  next (if o.imm.toNat ≥ (s.group s.cur.gid).xblk then issue (.regrel o) s fun _ s => .done s
    else waitThen (.regrel o) tryRegrel s)

end Sys2Proof.Machine
end

