-- ==== Sys2Proof/Machine/Docent.lean ====
section
/-!
DEFINITION. What the Docent of a die does outside its records (16): queues and their words in memory, completion and stop, the
catalogue and its waiters, leases and pins, requests to halt, drains, and the end of a partition-word change.
-/

namespace Sys2Proof.Machine

def fwOPBAD : W32 := 0x80505001#32
def fwOPSEQ : W32 := 0x80505002#32
def fwQOVF : W32 := 0x80505003#32
def fwOPPRIV : W32 := 0x80505004#32
def fwJOBHDR : W32 := 0x80505005#32
def fwLEASEFAIL : W32 := 0x80505006#32
def fwLEASEFULL : W32 := 0x80505007#32
def fwEVFAIL : W32 := 0x80505009#32
def fwDEADLOCK : W32 := 0x8050500A#32
def fwCORELOST : W32 := 0x8050500B#32
def fwPOOLCFG : W32 := 0x40101001#32
def fwCLCFGBAD : W32 := 0x60101004#32
def fwSAVELOST : W32 := 0x40505001#32
def fwFABDOWN : W32 := 0xC0101001#32

/-! ### Registers of a die (R372) -/

def dctlEn (d : Die) : Bool := d.dctl.getLsbD 15
def dctlWd (d : Die) : Nat := (d.dctl.extractLsb' 10 5).toNat
def dctlEvb (d : Die) : Nat := (d.dctl.extractLsb' 5 5).toNat
def dctlAge (d : Die) : Nat := (d.dctl.extractLsb' 0 5).toNat

def Die.queue (d : Die) (q : Nat) : Queue := Tbl.get Queue.zero q d.queues
def State.queue (s : State) (d q : Nat) : Queue := (s.die d).queue q
def State.modQueue (s : State) (d q : Nat) (f : Queue → Queue) : State :=
  s.modDie d (fun x => { x with queues := Tbl.put q (f (x.queue q)) x.queues })

def qRun (q : Queue) : Bool := q.ctl.getLsbD 31
def qPriv (q : Queue) : Bool := q.ctl.getLsbD 30
def qPrio (q : Queue) : Nat := (q.ctl.extractLsb' 24 6).toNat
def qSize (q : Queue) : Nat := 2 ^ ((q.ctl.extractLsb' 20 4).toNat + 4)
def qPart (q : Queue) : Nat := (q.ctl.extractLsb' 16 4).toNat
def qBud (q : Queue) : Nat := (q.ctl.extractLsb' 0 16).toNat

/-- R372: QSTAT as it reads. -/
def Queue.stat (q : Queue) : W64 :=
  let (it, dp) : Nat × Nat := match q.loop with
    | some l => (l.iter.toNat % 65536, l.depth.toNat)
    | none => (0, 0)
  BitVec.ofNat 64 (q.fault.toNat * 2 ^ 32 + it * 2 ^ 16 + dp * 2 ^ 8 + (if q.drain.isSome then 4 else 0)
    + (if q.loop.isSome then 2 else 0) + (if q.stopped then 1 else 0))

/-- The cores of a partition on a die, ascending (R420). -/
def partCores (s : State) (d p : Nat) : List Nat :=
  ((upTo 64).filter (fun b => (Tbl.get 0#64 p (s.die d).pcore).getLsbD b)).map (fun b => 64 * d + b)

/-! ### Words in memory, stop, completion (R373, R376, R378) -/

/-- R373: HEAD, DONE, FAULT and FSEQ written together; a queue whose base cannot be written keeps them in the Docent only. -/
def writeWords (s : State) (d q : Nat) : State :=
  let x := s.queue d q
  let bs := bytesOf 4 x.head.toNat ++ bytesOf 4 x.done.toNat ++ bytesOf 4 x.fault.toNat ++ bytesOf 4 x.fseq.toNat
  match globalPut s (partCtx s d (qPart x)) (x.base + 0x80#64) bs with
  | .ok s => s
  | .error _ => s

/-- R378: a queue stops. -/
def stopQueue (s : State) (d q : Nat) (fault : W32) (fseq : W32) : State :=
  writeWords (s.modQueue d q (fun x => { x with
    stopped := true, ctl := setBit x.ctl 31 false, fault := fault, fseq := fseq &&& 0xFFFF#32, await := none })) d q

/-- Completed records at the front leave the list and DONE passes them. -/
def passDone : List OpRec → W32 → List OpRec × W32
  | [], n => ([], n)
  | r :: t, n => if r.done && r.n = n then passDone t (n + 1#32) else (r :: t, n)

/-- A change of the standing record number `n`. -/
def modRec (n : W32) (f : OpRec → OpRec) (l : List OpRec) : List OpRec := l.map (fun r => if r.n = n then f r else r)
def State.recOf (s : State) (d q : Nat) (n : W32) : Option OpRec := (s.queue d q).recs.find? (fun r => r.n = n && !r.done)

/-- R376, R378: a record completes; HEAD and DONE advance over the completed records, and a failure stops the queue. -/
def completeRec (s : State) (d q : Nat) (n status : W32) (failed : Bool) : State :=
  let s := s.modQueue d q (fun x =>
    let (rs, dn) := passDone (modRec n (fun r => { r with done := true, status := status, failed := failed }) x.recs) x.done
    { x with recs := rs, done := dn, head := dn })
  if failed then stopQueue s d q status n else writeWords s d q

/-! ### The catalogue (R379–R383) -/

def evAcc (e : W32) : Nat := (e.extractLsb' 22 10).toNat
def evDie (e : W32) : Nat := (e.extractLsb' 20 2).toNat
def evSlot (e : W32) : Nat := (e.extractLsb' 0 16).toNat
/-- This package's number and whether a number lies in its group (R469). -/
def State.ownAcc (s : State) : Nat := (s.fab.fabcfg.extractLsb' 0 10).toNat
def State.inGroup (s : State) (a : Nat) : Bool :=
  if s.fab.fabcfg.getLsbD 31 then decide (a < (s.fab.fabcfg.extractLsb' 10 11).toNat) else a = s.ownAcc
/-- R381. -/
def evBad (s : State) (e : W32) : Bool := e.extractLsb' 16 4 != 0#4 || !s.inGroup (evAcc e)
/-- R383: the per-tile slot of an event. -/
def evTileName (e : W32) (tile : Nat) : W32 :=
  BitVec.ofNat 32 (e.toNat / 65536 * 65536 + (evSlot e + tile) % 65536)
/-- R395: the scope of an event, as an instruction's release or acquire takes it. -/
def evScope (s : State) (d : Nat) (e : W32) : Scope :=
  if evAcc e != s.ownAcc then .fab else if evDie e = d then .die else .pkg

/-- R382. -/
def Slot16.apply (x : Slot16) (op : CatOp) (n : W32) : Slot16 :=
  match op with
  | .add => { x with count := x.count + n }
  | .arm => ⟨0, n, false⟩
  | .set => { x with count := n }
  | .fail => { x with fail := true, count := x.count + 1#32 }
/-- R379. -/
def Slot16.reached (x : Slot16) : Bool := decide (x.count.toNat ≥ x.target.toNat)
def State.slot (s : State) (d n : Nat) : Slot16 := Tbl.get .zero n (s.die d).cat
def State.evSlotOf (s : State) (e : W32) : Slot16 := s.slot (evDie e) (evSlot e)

/-- The event that an `evwait` names. -/
def evwaitName (s : State) (gid : Nat) (o : Ops) : W32 :=
  match o.a with
  | .imm => o.imm
  | x => (rd64 (s.group gid) (s.env gid) o.imm 0 x).extractLsb' 0 32

/-- R395: the threads of a group that wait for an event leave the `evwait`. -/
def evwaitLeave (s : State) (gid : Nat) (e count : W32) (fail : Bool) : State :=
  let w := waiters (s.group gid) (fun i => match i with | .evwait o => evwaitName s gid o = e | _ => false)
  match waitInstr (s.group gid) w with
  | some (.evwait o) =>
    let v := count.toNat + (if fail then 2 ^ 32 else 0)
    let s := s.modGroup gid (fun g => wrUni g o.d v)
    passDeliver (acquireAt s gid (evScope s (dieOf (cidOf gid)) e)) gid w
  | _ => s

/-- R382, R395, R403: the waiters of an event released at a step: groups, the WAITEV at the head of a queue, held images. -/
def releaseWaiters (s : State) (e count : W32) (fail : Bool) : State :=
  let s := s.groups.foldl (fun s x => if x.2.live then evwaitLeave s x.1 e count fail else s) s
  { s with dies := s.dies.map (fun x => (x.1, { x.2 with
      queues := x.2.queues.map (fun q => (q.1, match q.2.await with
        | some (ev, none) => if ev = e then { q.2 with await := some (ev, some fail) } else q.2
        | _ => q.2))
      held := x.2.held.map (fun h => if h.why = 3 && h.event = e then { h with hit := true } else h) })) }

/-- A step on a slot of this package, with the release of its waiters and of peers' watches (R382, R471). -/
def slotStep (s : State) (e : W32) (op : CatOp) (n : W32) : State :=
  let x := (s.evSlotOf e).apply op n
  let s := s.modDie (evDie e) (fun d => { d with cat := Tbl.put (evSlot e) x d.cat })
  if x.reached then
    let s := releaseWaiters s e x.count x.fail
    let (hit, rest) := s.fab.watches.partition (fun w => w.2 = e)
    { s with fab := { s.fab with
      watches := rest, sent := s.fab.sent ++ hit.map (fun w => Sent.answer w.1 e x.count x.fail) } }
  else s

/-- R380, R470: a step on a named event: here, or sent to its owner, where it may be lost (a free value says whether it is;
with no port it always is). Answers whether it was lost. -/
def catTry (s : State) (e : W32) (op : CatOp) (n : W32) : Bool × State :=
  if evAcc e = s.ownAcc then (false, slotStep s e op n)
  else
    let (v, s) := s.freeVal
    if v.getLsbD 0 || s.fab.ports = 0#16 then (true, s)
    else (false, { s with fab := { s.fab with sent := s.fab.sent ++ [.step e op n] } })
def catStep (s : State) (e : W32) (op : CatOp) (n : W32) : State := (catTry s e op n).2

/-! ### Leases (R387–R390) -/

/-- A lease set: the partition leases of the die and a queue's own (R389). -/
def leaseSet (s : State) (d q : Nat) : List Lease :=
  Tbl.get [] (qPart (s.queue d q)) (s.die d).pleases ++ (s.queue d q).leases

/-- Every lease that a die's Docent holds or that a job launched by it holds, with its partition. -/
def standingLeases (s : State) (d : Nat) : List (Nat × Lease) :=
  let dd := s.die d
  let own := dd.queues.flatMap (fun q => (q.2.leases.map (fun l => (qPart q.2, l)))
    ++ q.2.recs.flatMap (fun r => r.leases.map (fun l => (qPart q.2, l)))
    ++ q.2.resume.flatMap (fun h => h.jobs.flatMap (fun j => j.r.leases.map (fun l => (h.part, l)))))
  let parts := dd.pleases.flatMap (fun p => p.2.map (fun l => (p.1, l)))
  let held := dd.held.flatMap (fun h => h.jobs.flatMap (fun j => j.r.leases.map (fun l => (h.part, l))))
  let reps := dd.reports.flatMap (fun r => r.job.leases.map (fun l => (s.pnum r.cid, l)))
  let runs := s.teams.flatMap (fun t => match t.2.job with
    | some j => if j.r.die = d then j.r.leases.map (fun l => (s.pnum (t.1 / 8), l)) else []
    | none => [])
  let hamp := s.cores.flatMap (fun c => c.2.jobs.flatMap (fun r =>
    if r.die = d then r.leases.map (fun l => (s.pnum c.1, l)) else []))
  own ++ parts ++ held ++ reps ++ runs ++ hamp

/-- The address range of a pinned leaf. -/
def pinSpan (p : Pin) : Nat × Nat := let n := if p.big then 2 ^ 29 else 65536
  (p.page * n, p.page * n + n)
def leaseTouches (l : Lease) (p : Pin) : Bool :=
  let b := l.base.toNat % 2 ^ 56
  let (x, y) := pinSpan p
  decide (b < y) && decide (x < b + l.len.toNat)

/-- R390: pins that no standing lease holds are released. -/
def prunePins (s : State) (d : Nat) : State :=
  let ls := standingLeases s d
  s.modDie d (fun x => { x with pins := x.pins.filter (fun p => ls.any (fun l => l.1 = p.part && leaseTouches l.2 p)) })

/-! ### Requests to halt (R303, R395, R401, R459) -/

/-- A halt requested of a running job: every member of its cluster. Cause 1 drain, 2 debug stop, 3 budget of `evwait`; a debug
stop takes precedence (R461). -/
def requestHalt (s : State) (tid why : Nat) : State :=
  (jobTeams s tid).foldl (fun s t => s.modTeam t (fun x =>
    if ((x.st = .run || x.st = .restoring) && x.job.isSome) || x.launching.isSome then { x with stopWhy := if x.stopWhy = 2 then 2 else why } else x)) s

/-- The teams that hold or begin a job of a queue. -/
def queueTeams (s : State) (d q : Nat) : List Nat :=
  let of (j : Option Job) : Bool := match j with | some j => j.r.die = d && j.r.queue = q | none => false
  (s.teams.filter (fun t => of t.2.job || of t.2.launching)).map (fun t => t.1)

/-- Whether a job of a queue is still running, launching or to be reported (R401). A job that a debug stop has halted does not
count (R461). -/
def queueBusy (s : State) (d q : Nat) : Bool :=
  (queueTeams s d q).any (fun t => (s.team t).stopWhy != 2)
  || s.teams.any (fun t => match t.2.launching with | some j => j.r.die = d && j.r.queue = q | none => false)
  || (s.die d).reports.any (fun r => r.job.die = d && r.job.queue = q)
  || s.cores.any (fun c => c.2.jobs.any (fun r => r.die = d && r.queue = q && r.member.isSome))

/-! ### Drains (R401) -/

/-- R401: whether a job record in a hamper may be withdrawn: no member of its cluster instance has taken its own. -/
def mayWithdraw (s : State) (r : JobRec) : Bool :=
  match r.member with
  | none => true
  | some (key, _) => !(s.teams.any (fun t =>
      (match t.2.job with | some j => j.r.member.map (fun m => m.1) = some key | none => false)
      || (match t.2.launching with | some j => j.r.member.map (fun m => m.1) = some key | none => false)))

/-- R401: the job records of a queue not yet taken become unplaced tiles. -/
def withdraw (s : State) (d q : Nat) : State :=
  s.cores.foldl (fun s c =>
    c.2.jobs.foldl (fun s r =>
      if r.die = d && r.queue = q && mayWithdraw s r then
        let s := s.modCore c.1 (fun x => { x with jobs := x.jobs.filter (fun y => y != r) })
        let s := match r.member with
          | some (key, _) => { s with clusters := Tbl.del key s.clusters }
          | none => s
        s.modQueue d q (fun x => { x with recs := modRec r.recn (fun y => { y with back := insNat r.tile.toNat y.back }) x.recs })
      else s) s) s

/-- R241, R401: a drain begins, and the A latches of the queue's jobs become invalid; budget 0 escalates at once. A HALTQ that meets a drain makes it its own. -/
def startDrain (s : State) (d q : Nat) (why : DrainWhy) (budget : Nat) : State :=
  if (match (s.queue d q).drain, why with | some _, .halt _ _ => false | some _, _ => true | none, _ => false) then s
  else
    let s := s.modQueue d q (fun x => { x with
      drain := some ⟨why, s.time.toNat + 1000 * budget, budget = 0⟩ })
    let s := withdraw s d q
    let s := (queueTeams s d q).foldl (fun s t => s.modCore (t / 8) (dropLatch (s.groupsOf t))) s
    if budget = 0 then (queueTeams s d q).foldl (fun s t => requestHalt s t 1) s else s

/-- R401: escalation of a drain. -/
def escalate (s : State) (d q : Nat) : State :=
  match (s.queue d q).drain with
  | none => s
  | some dr =>
    let s := s.modQueue d q (fun x => { x with drain := some { dr with escalated := true } })
    (queueTeams s d q).foldl (fun s t => requestHalt s t 1) s

/-- Whether a record is a HALTQ that waits for a queue. -/
def haltsQueue (q : Nat) (r : OpRec) : Bool := !r.done && (match r.ins with | .haltq _ t _ _ => t.toNat = q | _ => false)

/-- R401: a complete drain that a HALTQ began: the queue stops and every HALTQ of the die that waits for it completes. -/
def drainTurn (s : State) (d q : Nat) : State :=
  match (s.queue d q).drain with
  | some ⟨.halt _ _, _, _⟩ =>
    if queueBusy s d q then s
    else
      let s := stopQueue (s.modQueue d q (fun x => { x with drain := none })) d q 0#32 (s.queue d q).done
      (upTo 64).foldl (fun s q' => ((s.queue d q').recs.filter (haltsQueue q)).foldl (fun s r => completeRec s d q' r.n 0#32 false) s) s
  | _ => s

/-! ### PARTW (R404, R195, R321) -/

/-- R195: the partition word and group slots. -/
def poolOk (w : W32) (gs : BitVec 48) : Bool :=
  let teams := pwTeams w + 1
  w.extractLsb' 24 8 = 0#8 && pwAcu w + pwSpu w + pwRfu w ≤ 128 && 1 ≤ pwRfu w && pwAcu w ≤ 32
  && (upTo 8).all (fun t => if t < teams then decide (1 ≤ teamSlots gs t) else teamSlots gs t = 0)
  && decide (residents gs ≤ 32)

/-- R320. -/
def shapeOk (cw ch : Nat) : Bool :=
  (cw ≥ 1 && cw ≤ 3 && ch ≥ 1 && ch ≤ 4) || (cw = 4 && ch ≥ 1 && ch ≤ 3) || (cw = 2 && ch = 6) || (cw = 6 && ch = 2)
/-- R321: whether a core takes a configuration. -/
def clusterOk (c : W32) (cid : Nat) : Bool :=
  if clCw c = 0 && clCh c = 0 then true
  else
    let col := cid % 8
    let row := cid / 8 % 8
    shapeOk (clCw c) (clCh c) && clOcol c + clCw c ≤ 8 && clOrow c + clCh c ≤ 8
    && clOcol c ≤ col && col < clOcol c + clCw c && clOrow c ≤ row && row < clOrow c + clCh c

/-- R404, R197, R269, R296: a core takes a new partition word: its pool reads zero, its templates go, each assigned slot holds a
resident group of its team in Daxah's idle code. -/
def installCore (s : State) (cid : Nat) (w : W32) (gs : BitVec 48) (cl : W32) : State :=
  let s := s.modCore cid (fun c => { c with
    pword := w, gslots := gs, clcfg := cl, sp := [], spPois := [], stale := [], tiles := [], tileM := [], tileL := [], tileF := [], tileP := []
    tmpl := [], mseq := [], latch := none, aval := [], amask := 0, copies := [], tsq := [], blockq := [] })
  let s := { s with groups := s.groups.filter (fun g => cidOf g.1 != cid) }
  (upTo 8).foldl (fun s t => (restartIdle s (8 * cid + t)).modTeam (8 * cid + t) (fun _ => Team.zero)) s

/-- The logical cores that a PARTW of a queue names. -/
def partwCores (d : Nat) (mask : W64) : List Nat := ((upTo 64).filter (fun b => mask.getLsbD b)).map (fun b => 64 * d + b)

/-- R197: whether something of a job that has ended is still to reach a core's scratchpad: an outstanding store or copy. -/
def landsOn (s : State) (cid : Nat) : Bool :=
  s.dies.any (fun d => d.2.reports.any (fun r => r.cid = cid || r.sts.any (fun e => e.2.accs.any (fun a =>
      match a.tgt with | .sp c _ => c = cid | _ => false))
    || r.cps.any (fun e => e.2.mem.contains cid)))
  || s.cores.any (fun c => c.2.copies.any (fun x => c.1 = cid || x.mem.contains cid))
/-- R404: whether every team of a core is Idle and its job hamper is empty, with nothing of its jobs outstanding (R197); a sleeping core wakes
first (R302). -/
def coreIdle (s : State) (cid : Nat) : Bool :=
  (s.core cid).jobs.isEmpty && (s.core cid).mseq.isEmpty && !(s.core cid).asleep && !landsOn s cid
  && (upTo 8).all (fun t => let x := s.team (8 * cid + t)
      x.st = .idle && x.job.isNone && x.launching.isNone)

/-- A PARTW that stands takes effect when it can (R404), and the drains it began end (R401). -/
def partwTurn (s : State) (d q : Nat) : State :=
  match (s.queue d q).recs.find? (fun r => !r.done && (match r.ins with | .partw .. => true | _ => false)) with
  | some r =>
    match r.ins with
    | .partw _ pw mask cl gs =>
      let cs := partwCores d mask
      if cs.all (coreIdle s) then
        let w : W32 := pw.setWidth 32
        let c : W32 := cl.setWidth 32
        let bad := if !poolOk w gs then some fwPOOLCFG
          else if !(cs.all (clusterOk c)) then some fwCLCFGBAD else none
        let s := match bad with
          | some _ => s
          | none => cs.foldl (fun s x => installCore s x w gs c) s
        let s := completeRec s d q r.n (bad.getD 0#32) bad.isSome
        s.modDie d (fun x => { x with queues := x.queues.map (fun e => (e.1, match e.2.drain with
          | some ⟨.partw d' q', _, _⟩ => if d' = d && q' = q then { e.2 with drain := none } else e.2
          | _ => e.2)) })
      else s
    | _ => s
  | none => s

/-- One turn of a Docent: complete drains and partition-word changes take effect. -/
def docentTurn (s : State) (d : Nat) : State :=
  (upTo 64).foldl (fun s q => partwTurn (drainTurn s d q) d q) s

end Sys2Proof.Machine
end

