-- ==== Sys2Proof/Machine/Regs.lean ====
section
/-!
DEFINITION. The device registers of region 0xFB (R465): where each stands, how it reads, its access rules (R4, R10) and what a
write of it does, among them the rows QUEUE_START, PCORE_WRITE, ROOT_WRITE, PUBACC_WRITE, the vitrine, XLINV, debug and ring
rows.
-/

namespace Sys2Proof.Machine

/-- A register that stands in region 0xFB. -/
inductive DReg where
  | pkgstat | booterr | snapctl | snapbase | tsctl | tsbase | tsptr | tsstat | dbgctl | dbgstat | dbgimg
  | bist (n : Nat)
  | fabcfg | fabstat | frbase (q : Nat) | frctl (q : Nat) | sltbase | exp (n : Nat) (hi : Bool)
  | pubacc | oldacc | root (p : Nat) | bnd (p : Nat) | accst (p : Nat)
  | defhnd (p : Nat) | savebase (p : Nat) | savesz (p : Nat) | saven (p : Nat) | stkbase (p : Nat) | reserved
  | rowmap (d r : Nat) | rowinfo (d r : Nat) | vitbase (d n : Nat) | vitctl (d n : Nat)
  | dctl (d : Nat) | dlog (d i : Nat) | pcore (d p : Nat) | qbase (d q : Nat) | qctl (d q : Nat) | qstat (d q : Nat)
  | xlinv (d : Nat) | xlstat (d : Nat)
  | clcfg (c : Nat) | hrbase (c : Nat) | hrctl (c : Nat) | hrptr (c : Nat) | gslots (c : Nat)
  deriving DecidableEq, Repr

/-- Registers of 64 bits. -/
def DReg.wide : DReg → Bool
  | .snapbase | .tsbase | .tsptr | .dbgctl | .dbgimg | .bist _ | .fabcfg | .frbase _ | .sltbase | .exp _ _ | .root _ | .bnd _
  | .defhnd _ | .savebase _ | .stkbase _ | .vitbase _ _ | .pcore _ _ | .qbase _ _ | .qstat _ _ | .xlinv _ | .hrbase _
  | .hrptr _ | .gslots _ => true
  | _ => false

/-- A bank of registers: `n` of `k` bytes from `base`; the index of the one an offset lies in. -/
def inBank (ofs base k n : Nat) : Option Nat :=
  if base ≤ ofs && ofs < base + k * n then some ((ofs - base) / k) else none

def orElseReg (a b : Option DReg) : Option DReg := match a with | some x => some x | none => b
def firstReg (l : List (Option DReg)) : Option DReg := l.foldr orElseReg none
def pick (ofs base k n : Nat) (f : Nat → DReg) : Option DReg := (inBank ofs base k n).map f

/-- The register at an offset of the hub block. -/
def hubReg (o : Nat) : Option DReg :=
  firstReg [pick o 0x000 4 1 fun _ => .pkgstat, pick o 0x004 4 1 fun _ => .booterr, pick o 0x100 4 1 fun _ => .snapctl,
    pick o 0x108 8 1 fun _ => .snapbase, pick o 0x200 4 1 fun _ => .tsctl, pick o 0x208 8 1 fun _ => .tsbase,
    pick o 0x210 8 1 fun _ => .tsptr, pick o 0x218 4 1 fun _ => .tsstat, pick o 0x300 8 1 fun _ => .dbgctl,
    pick o 0x308 4 1 fun _ => .dbgstat, pick o 0x310 8 1 fun _ => .dbgimg, pick o 0x1000 8 256 fun n => .bist n,
    pick o 0x2000 8 1 fun _ => .fabcfg, pick o 0x2008 4 1 fun _ => .fabstat, pick o 0x2100 8 16 fun q => .frbase q,
    pick o 0x2200 4 16 fun q => .frctl q, pick o 0x2300 8 1 fun _ => .sltbase,
    pick o 0x2400 8 128 fun n => .exp (n / 2) (n % 2 = 1)]

/-- The register at an offset of the accession block (R420–R422). -/
def accReg (o : Nat) : Option DReg :=
  if o < 4 then some .pubacc
  else if o < 8 then some .oldacc
  else if 0x100 ≤ o && o < 0x300 then
    let p := (o - 0x100) / 0x20
    let i := (o - 0x100) % 0x20
    if i < 8 then some (.root p) else if i < 0x10 then some (.bnd p) else if i < 0x14 then some (.accst p) else none
  else if 0x400 ≤ o && o < 0x800 then
    let p := (o - 0x400) / 0x40
    let i := (o - 0x400) % 0x40
    if i < 8 then some (.defhnd p) else if i < 0x10 then some (.savebase p) else if i < 0x14 then some (.savesz p)
    else if i < 0x18 then some (.saven p) else if i < 0x20 then some (.stkbase p) else some .reserved
  else none

/-- The register at an offset of a die's block. -/
def dieReg (d o : Nat) : Option DReg :=
  firstReg [pick o 0x000 4 8 fun r => .rowmap d r, pick o 0x020 4 8 fun r => .rowinfo d r, pick o 0x100 8 16 fun n => .vitbase d n,
    pick o 0x180 4 16 fun n => .vitctl d n, pick o 0x1000 4 1 fun _ => .dctl d, pick o 0x1040 4 8 fun i => .dlog d i,
    pick o 0x1100 8 16 fun p => .pcore d p, pick o 0x2000 8 64 fun q => .qbase d q, pick o 0x2200 4 64 fun q => .qctl d q,
    pick o 0x2400 8 64 fun q => .qstat d q, pick o 0x3000 8 1 fun _ => .xlinv d, pick o 0x3008 4 1 fun _ => .xlstat d]

/-- The register at an offset of a core's block. -/
def coreReg (c o : Nat) : Option DReg :=
  firstReg [pick o 0x000 4 1 fun _ => .clcfg c, pick o 0x040 8 1 fun _ => .hrbase c, pick o 0x048 4 1 fun _ => .hrctl c,
    pick o 0x050 8 1 fun _ => .hrptr c, pick o 0x058 8 1 fun _ => .gslots c]

/-- R465: the register that stands at an offset of region 0xFB. -/
def regAt (o : Nat) : Option DReg :=
  if o < 0x10000 then hubReg o
  else if o < 0x20000 then accReg (o - 0x10000)
  else if 0x1000000 ≤ o && o < 0x1400000 then dieReg ((o - 0x1000000) / 0x100000) (o % 0x100000)
  else if 0x2000000 ≤ o && o < 0x2400000 then
    let d := (o - 0x2000000) / 0x100000
    let i := o % 0x100000
    if i < 0x40000 then coreReg (64 * d + i / 0x1000) (i % 0x1000) else none
  else none

/-! ### Reading (R4, R434) -/

/-- The accessions of a die's launched, placed, running, halted, held and unreported jobs (R434). -/
def dieAccs (d : Die) : List Half :=
  d.queues.flatMap (fun q => (q.2.recs.filter (fun r => !r.done && r.left != 0)).map (fun r => r.acc)
    ++ q.2.resume.flatMap (fun h => h.jobs.map (fun j => j.r.jacc)))
  ++ d.held.flatMap (fun h => h.jobs.map (fun j => j.r.jacc)) ++ d.reports.map (fun r => r.job.jacc)

/-- Every accession held (R434). -/
def heldAccs (s : State) : List Half :=
  s.acc.parts.flatMap (fun p => if p.2.root.getLsbD 0 && !p.2.lead then [p.2.aacc] else [])
  ++ s.dies.flatMap (fun d => dieAccs d.2)
  ++ s.teams.flatMap (fun t => (match t.2.job with | some j => [j.r.jacc] | none => [])
      ++ (match t.2.launching with | some j => [j.r.jacc] | none => []))
  ++ s.cores.flatMap (fun c => c.2.jobs.map (fun r => r.jacc))

/-- R426: a is at least b. -/
def accGe (a b : Half) : Bool := decide ((a - b).toNat < 32768)

/-- R434, R436: the oldest of PUBACC and the held accessions that still count. -/
def oldAcc (s : State) : Half :=
  (heldAccs s).foldl (fun o a => if accGone s.acc.pubacc a then o else if accGe a o then o else a) s.acc.pubacc

/-- R469: FABSTAT. -/
def dbgStopped (s : State) : Bool :=
  s.hub.dbgstat = 2#32 && (s.hub.dbgctl.extractLsb' 0 3 = 2#3 || s.hub.dbgctl.extractLsb' 0 3 = 3#3)
def fabStat (s : State) : W32 :=
  BitVec.ofNat 32 (s.fab.ports.toNat * 65536 + (if dbgStopped s then 2 ^ 15 else 0)
    + (if s.fab.peers.isEmpty then 0 else 2 ^ 14) + (if s.fab.tlock then 2 ^ 13 else 0))

def Vit.ctl (v : Vit) : W32 := BitVec.ofNat 32 (v.res * 16 + v.st * 4 + (if v.en then 1 else 0))
def State.vit (s : State) (d n : Nat) : Vit := Tbl.get .zero n (s.die d).vit
def State.ring (s : State) (q : Nat) : Ring := Tbl.get .zero q s.fab.rings

/-- R353: an unrepaired row. -/
def rowmap0 : W32 := 0x76543210#32
def rowinfo0 : W32 := 0x0000000F#32

/-- The value a register reads. -/
def regRead (s : State) : DReg → W64
  | .pkgstat => s.hub.pkgstat.setWidth 64
  | .booterr => s.hub.booterr.setWidth 64
  | .snapctl => s.hub.snapctl.setWidth 64
  | .snapbase => s.hub.snapbase
  | .tsctl => s.hub.tsctl.setWidth 64
  | .tsbase => s.hub.tsbase
  | .tsptr => s.hub.tsput ++ s.hub.tstake
  | .tsstat => s.hub.tsstat.setWidth 64
  | .dbgctl => s.hub.dbgctl
  | .dbgstat => s.hub.dbgstat.setWidth 64
  | .dbgimg => s.hub.dbgimg
  | .bist n => nth 0#64 n s.hub.bist
  | .fabcfg => s.fab.fabcfg
  | .fabstat => (fabStat s).setWidth 64
  | .frbase q => (s.ring q).base
  | .frctl q => (s.ring q).ctl.setWidth 64
  | .sltbase => s.fab.sltbase
  | .exp n hi => Tbl.get 0#64 (2 * n + (if hi then 1 else 0)) s.fab.exps
  | .pubacc => s.acc.pubacc.setWidth 64
  | .oldacc => (oldAcc s).setWidth 64
  | .root p => (s.part p).root
  | .bnd p => (s.part p).bnd
  | .accst p => BitVec.ofNat 64 ((if (s.part p).lead then 2 ^ 17 else 0) + (s.part p).aacc.toNat)
  | .defhnd p => (s.part p).defhnd
  | .savebase p => (s.part p).savebase
  | .savesz p => (s.part p).savesz.setWidth 64
  | .saven p => (s.part p).saven.setWidth 64
  | .stkbase p => (s.part p).stkbase
  | .reserved => 0#64
  | .rowmap d r => (Tbl.get rowmap0 r (s.die d).rowmap).setWidth 64
  | .rowinfo d r => (Tbl.get rowinfo0 r (s.die d).rowinfo).setWidth 64
  | .vitbase d n => (s.vit d n).base
  | .vitctl d n => (s.vit d n).ctl.setWidth 64
  | .dctl d => (s.die d).dctl.setWidth 64
  | .dlog d i => (Tbl.get 0#32 i (s.die d).dlog).setWidth 64
  | .pcore d p => Tbl.get 0#64 p (s.die d).pcore
  | .qbase d q => (s.queue d q).base
  | .qctl d q => (s.queue d q).ctl.setWidth 64
  | .qstat d q => (s.queue d q).stat
  | .xlinv d => (s.die d).xlinv
  | .xlstat d => BitVec.ofNat 64 ((if (s.die d).xllost then 2 else 0) + (if (s.die d).xlbusy then 1 else 0))
  | .clcfg c => (s.core c).clcfg.setWidth 64
  | .hrbase c => (s.core c).hrbase
  | .hrctl c => BitVec.ofNat 64 (s.core c).hrlog
  | .hrptr c => (s.core c).hrput ++ (s.core c).hrtake
  | .gslots c => (s.core c).gslots.setWidth 64

/-! ### Access (R4): bits writable at supervisor level, and at firmware level only -/

def bitsUp (lo n : Nat) : W64 := BitVec.ofNat 64 ((2 ^ n - 1) * 2 ^ lo)
def DReg.sup : DReg → W64
  | .snapctl => 1#64
  | .snapbase => BitVec.allOnes 64
  | .tsctl => bitsUp 31 1 ||| bitsUp 8 5 ||| bitsUp 0 5
  | .tsbase => bitsUp 7 45
  | .tsptr => bitsUp 0 32
  | .dbgctl => bitsUp 20 28 ||| bitsUp 0 3
  | .frbase _ => bitsUp 8 56
  | .frctl _ => bitsUp 31 1 ||| bitsUp 16 4 ||| bitsUp 0 4
  | .vitbase _ _ => bitsUp 21 31 ||| bitsUp 0 8
  | .vitctl _ _ => 1#64
  | .dctl _ => bitsUp 0 15
  | .qbase _ _ => bitsUp 8 56
  | .qctl _ _ => bitsUp 31 1 ||| bitsUp 0 30
  | .xlinv _ => bitsUp 62 2 ||| bitsUp 16 44
  | .hrbase _ => bitsUp 7 57
  | .hrctl _ => bitsUp 0 5
  | _ => 0#64
def DReg.fw : DReg → W64
  | .fabcfg => bitsUp 31 13 ||| bitsUp 0 21
  | .sltbase => bitsUp 6 46
  | .exp _ hi => if hi then bitsUp 0 56 else BitVec.allOnes 64
  | .pubacc => bitsUp 0 16
  | .root _ => bitsUp 17 35 ||| 1#64
  | .bnd _ => bitsUp 12 40
  | .accst _ => bitsUp 17 1
  | .defhnd _ | .savebase _ | .stkbase _ => BitVec.allOnes 64
  | .savesz _ => bitsUp 0 32
  | .saven _ => bitsUp 0 16
  | .dctl _ => bitsUp 15 1
  | .pcore _ _ => BitVec.allOnes 64
  | .qctl _ _ => bitsUp 30 1
  | _ => 0#64

/-! ### What a write does -/

/-- R420, R422: whether a partition has a core on any die. -/
def partInUse (s : State) (p : Nat) : Bool := (upTo 4).any (fun d => Tbl.get 0#64 p (s.die d).pcore != 0#64)

/-- R388: the partition leases of a partition that ends, and the pins that nothing else holds, go. It ends when it has no core on any die, or its
context becomes invalid (log 130). -/
def endPartition (s : State) (p : Nat) : State :=
  s.dies.foldl (fun s d => prunePins (s.modDie d.1 (fun x => { x with pleases := Tbl.del p x.pleases })) d.1) s

/-- R372: PCORE_WRITE. -/
def pcoreWrite (s : State) (d p : Nat) (m : W64) : State :=
  if (s.die d).pcore.any (fun e => e.1 != p && e.2 &&& m != 0#64) then s
  else
    let was := partInUse s p
    let s := s.modDie d (fun x => { x with pcore := if m = 0#64 then Tbl.del p x.pcore else Tbl.put p m x.pcore })
    if was && !partInUse s p then endPartition s p else s

/-- R420–R422: ROOT_WRITE; V rising sets AACC. -/
def rootWrite (s : State) (p : Nat) (v : W64) : State :=
  let x := s.part p
  if partInUse s p || (v.getLsbD 0 && !x.root.getLsbD 0 && (x.defhnd = 0#64 || x.savesz = 0#32 || x.saven = 0#16)) then s
  else
    let up := v.getLsbD 0 && !x.root.getLsbD 0
    let s := s.setPart p { x with root := v, aacc := if up then (if x.lead then s.acc.pubacc + 1#16 else s.acc.pubacc) else x.aacc }
    if x.root.getLsbD 0 && !v.getLsbD 0 then endPartition s p else s

/-- R421: PUBACC_WRITE. -/
def pubaccWrite (s : State) (v : Half) : State :=
  if s.acc.parts.any (fun p => p.2.root.getLsbD 0) then s else { s with acc := { s.acc with pubacc := v } }

/-- R420, R429: a write of LEAD; a partition that leads holds the accession under construction. -/
def leadWrite (s : State) (p : Nat) (b : Bool) : State :=
  if partInUse s p || (b && s.acc.parts.any (fun e => e.1 != p && e.2.lead)) then s
  else
    let x := s.part p
    s.setPart p { x with lead := b, aacc := if b && !x.lead && x.root.getLsbD 0 then s.acc.pubacc + 1#16 else x.aacc }

/-- A partition register that R420 and R422 let firmware write while the partition has no core. -/
def partWrite (s : State) (p : Nat) (f : Part → Part) : State :=
  if partInUse s p then s else s.setPart p (f (s.part p))

/-- R353, R366, R371: a refused request sets RES and enters its fault in the die's error log, with the code of the die's L2 (log 135). -/
def vitRefuse (s : State) (d n r : Nat) : State :=
  (s.modDie d (fun e => { e with vit := Tbl.put n { s.vit d n with res := r } e.vit })).logErr d (0x80202000#32 + BitVec.ofNat 32 r)
    (siteOf d 72 8) 0#64
/-- R366: VITBASE_WRITE. -/
def vitbaseWrite (s : State) (d n : Nat) (v : W64) : State :=
  let x := s.vit d n
  if x.st = 0 then s.modDie d (fun e => { e with vit := Tbl.put n { x with base := v } e.vit }) else vitRefuse s d n 4
def Vit.chunks (v : Vit) : Nat := (v.base.extractLsb' 0 8).toNat
def Vit.first (v : Vit) : Nat := (v.base.extractLsb' 21 31).toNat
/-- The 2 MiB chunks of an entry. -/
def Vit.list (v : Vit) : List Nat := rangeFrom v.first v.chunks
/-- R366, R367: the check of a pin: 0, or RES. -/
def vitCheck (s : State) (d n : Nat) : Nat :=
  let x := s.vit d n
  let others := ((s.die d).vit.filter (fun e => e.1 != n && e.2.st != 0)).map (fun e => e.2)
  let all := (x :: others).flatMap Vit.list
  if x.chunks < 1 || x.chunks > 224 then 2
  else if !(x.list.all (fun c => decide (c / 2 ^ 16 = d))) then 3
  else if others.any (fun o => o.first < x.first + x.chunks && x.first < o.first + o.chunks) then 2
  else if (upTo 16).any (fun col => decide ((all.filter (fun c => c % 16 = col)).length > 14)) then 1
  else 0
/-- R366: VITRINE_PIN: a write of EN = 1. -/
def vitrinePin (s : State) (d n : Nat) : State :=
  let x := s.vit d n
  if x.st = 0 then
    let r := vitCheck s d n
    if r = 0 then s.modDie d (fun e => { e with vit := Tbl.put n { x with en := true, st := 1, res := 0 } e.vit }) else vitRefuse s d n r
  else if x.st = 3 then vitRefuse s d n 4 else s
/-- R366: VITRINE_RELEASE: a write of EN = 0. -/
def vitrineRelease (s : State) (d n : Nat) : State :=
  let x := s.vit d n
  let y := if x.st = 1 || x.st = 2 then { x with en := false, st := 3 } else x
  s.modDie d (fun e => { e with vit := Tbl.put n y e.vit })

/-- R424: a write of XLINV. -/
def xlinvWrite (s : State) (d : Nat) (v : W64) : State :=
  if (s.die d).xlbusy then s.modDie d (fun x => { x with xllost := true })
  else if v.extractLsb' 62 2 = 3#2 then s
  else s.modDie d (fun x => { x with xlinv := v, xlbusy := true })

/-- R378: QUEUE_START: RUN changes from 0 to 1. DONE is read from memory and the queue begins there; records launched from
DONE on stand, but a LOOP in which the queue stood begins again; TAIL is read next (QUEUE_TAIL_WAKE). A queue whose memory cannot be read stops with that fault. -/
def queueStart (s : State) (d q : Nat) : State :=
  let x := s.queue d q
  let x := { x with ctl := setBit x.ctl 31 true, stopped := false, fault := 0#32, since := s.cycle.toNat }
  let s := s.modQueue d q (fun _ => x)
  match globalBytes s (partCtx s d (qPart x)) .load (x.base + 0x84#64) 4 with
  | .error f => stopQueue s d q f 0#32
  | .ok bs =>
    let dn := BitVec.ofNat 32 (natOf bs)
    let keep := if dn = x.done then
      (match x.loop with
        | some l => x.recs.filter (fun r => decide ((r.n - dn).toNat < (l.recn - dn).toNat))
        | none => x.recs) else []
    s.modQueue d q (fun y => { y with
      head := dn, done := dn, recs := keep, loop := none
      next := dn + BitVec.ofNat 32 keep.length, tail := dn + BitVec.ofNat 32 keep.length })

/-- R472: FABRIC_RING_START. The ring begins at the DONE word of its memory, as a queue does (R378). -/
def ringStart (s : State) (q : Nat) : State :=
  let x := s.ring q
  let x := { x with ctl := setBit x.ctl 31 true, stopped := false, fault := 0#32 }
  let put (s : State) (x : Ring) : State := { s with fab := { s.fab with rings := Tbl.put q x s.fab.rings } }
  match globalBytes s (partCtx s 0 (x.ctl.extractLsb' 16 4).toNat) .load (x.base + 0x84#64) 4 with
  | .error f => put s { x with ctl := setBit x.ctl 31 false, stopped := true, fault := f }
  | .ok bs =>
    let dn := BitVec.ofNat 32 (natOf bs)
    let keep := if dn = x.head then x.cmds else []
    put s { x with head := dn, cmds := keep, next := dn + BitVec.ofNat 32 keep.length, tail := dn + BitVec.ofNat 32 keep.length }

/-- R372: a write of QCTL: QSZ, PART and the base stand while RUN is 1; a reserved QSZ keeps the field. -/
def qctlWrite (s : State) (d q : Nat) (v : W32) : State :=
  let old := (s.queue d q).ctl
  let keep : W32 := if old.getLsbD 31 then 0x00FF0000#32
    else if (v.extractLsb' 20 4).toNat ≥ 13 then 0x00F00000#32 else 0#32
  let new := (v &&& ~~~keep) ||| (old &&& keep)
  let up := new.getLsbD 31 && !old.getLsbD 31
  let s := s.modQueue d q (fun x => { x with ctl := if up then setBit new 31 false else new })
  if up then queueStart s d q else s

/-- R472: a write of FRCTL. -/
def frctlWrite (s : State) (q : Nat) (v : W32) : State :=
  let old := (s.ring q).ctl
  let keep : W32 := if (v.extractLsb' 0 4).toNat ≥ 9 then 0xF#32 else 0#32
  let new := (v &&& ~~~keep) ||| (old &&& keep)
  let up := new.getLsbD 31 && !old.getLsbD 31
  let s := { s with fab := { s.fab with rings := Tbl.put q { s.ring q with ctl := if up then setBit new 31 false else new } s.fab.rings } }
  if up then ringStart s q else s

/-! ### Debug stops (R459–R461) -/

def dbgMode (v : W64) : Nat := (v.extractLsb' 0 3).toNat
def dbgPart (v : W64) : Nat := (v.extractLsb' 20 4).toNat
def dbgQueue (v : W64) : Nat := (v.extractLsb' 24 6).toNat
def dbgDie (v : W64) : Nat := (v.extractLsb' 30 2).toNat
def dbgSeq (v : W64) : Half := v.extractLsb' 32 16

/-- MODE 000: a held queue is released and STATE returns to idle. -/
def debugDisarm (s : State) (v : W64) : State :=
  let s := { s with hub := { s.hub with dbgctl := v, dbgstat := 0#32 } }
  { s with dies := s.dies.map (fun d => (d.1, { d.2 with
      queues := d.2.queues.map (fun q => (q.1, { q.2 with hold := none })) })) }
/-- MODE 001. -/
def debugHold (s : State) (v : W64) : State :=
  let s := { s with hub := { s.hub with dbgctl := v, dbgstat := 1#32 } }
  s.modQueue (dbgDie v) (dbgQueue v) (fun q => { q with hold := some (dbgSeq v) })
/-- The teams that run a job a debug stop names. -/
def dbgTeams (s : State) (v : W64) : List Nat :=
  (s.teams.filter (fun t => match t.2.job with
    | some j => t.2.st = .run && (if dbgMode v = 2 then j.r.die = dbgDie v && j.r.queue = dbgQueue v && j.r.seq = dbgSeq v
        else s.pnum (t.1 / 8) = dbgPart v)
    | none => false)).map (fun t => t.1)
/-- Whether the record that MODE 010 names still stands, so that its job may yet run. -/
def dbgStands (s : State) (v : W64) : Bool :=
  (s.queue (dbgDie v) (dbgQueue v)).recs.any (fun r => !r.done && r.n.setWidth 16 = dbgSeq v)
/-- MODE 010 and 011: the named jobs are halted (R303); with no such job the stop is armed while the record stands, else
missed. -/
def debugStop (s : State) (v : W64) : State :=
  let ts := dbgTeams s v
  let st : W32 := if !ts.isEmpty then 1#32 else if dbgMode v = 3 then 2#32 else if dbgStands s v then 1#32 else 3#32
  let s := { s with hub := { s.hub with dbgctl := v, dbgstat := st, dbgimg := 0#64 } }
  ts.foldl (fun s t => requestHalt s t 2) s
/-- R459: a write of DBGCTL. A reserved MODE is ignored; while armed or stopped only MODE 000 is taken. -/
def dbgWrite (s : State) (v : W64) : State :=
  if dbgMode v ≥ 4 then s
  else if dbgMode v = 0 then debugDisarm s v
  else if s.hub.dbgstat = 1#32 || s.hub.dbgstat = 2#32 then s
  else if dbgMode v = 1 then debugHold s v else debugStop s v

/-- R463: a write of TSCTL. -/
def tsctlWrite (s : State) (v : W32) : State :=
  let old := s.hub.tsctl
  let log := (v.extractLsb' 8 5).toNat
  let k := (v.extractLsb' 0 5).toNat
  if log < 1 || log > 16 || k < 10 || k > 24 then s
  else if old.getLsbD 31 && (v &&& 0x1FFF#32) != (old &&& 0x1FFF#32) then s
  else { s with hub := { s.hub with tsctl := v } }

/-- R469: a write of FABCFG. -/
def fabcfgWrite (s : State) (v : W64) : State :=
  let gs := (v.extractLsb' 10 11).toNat
  let bad := (v.extractLsb' 38 6).toNat > 20 || (v.extractLsb' 32 6).toNat > 20 || gs < 1 || gs > 1024
    || (v.extractLsb' 0 10).toNat ≥ gs
  if s.fab.fabcfg.getLsbD 31 || (v.getLsbD 31 && bad) then s else { s with fab := { s.fab with fabcfg := v } }

/-- The effect of writing `v` (its writable bits; the others as they stand) to a register; `raw` is the value as written. -/
def regEffect (s : State) (r : DReg) (v raw : W64) : State :=
  let w : W32 := v.extractLsb' 0 32
  match r with
  | .snapctl => { s with hub := { s.hub with snapctl := w } }
  | .snapbase => { s with hub := { s.hub with snapbase := v } }
  | .tsctl => tsctlWrite s w
  | .tsbase => { s with hub := { s.hub with tsbase := v } }
  | .tsptr => { s with hub := { s.hub with tstake := w } }
  | .tsstat => { s with hub := { s.hub with tsstat := s.hub.tsstat &&& ~~~(raw.extractLsb' 0 32) } }
  | .dbgctl => dbgWrite s v
  | .fabcfg => fabcfgWrite s v
  | .frbase q => { s with fab := { s.fab with rings := Tbl.put q { s.ring q with base := v } s.fab.rings } }
  | .frctl q => frctlWrite s q w
  | .sltbase => { s with fab := { s.fab with sltbase := v } }
  | .exp n hi => { s with fab := { s.fab with exps := Tbl.put (2 * n + (if hi then 1 else 0)) v s.fab.exps } }
  | .pubacc => pubaccWrite s (v.extractLsb' 0 16)
  | .root p => rootWrite s p v
  | .bnd p => partWrite s p (fun x => { x with bnd := v })
  | .accst p => leadWrite s p (v.getLsbD 17)
  | .defhnd p => partWrite s p (fun x => { x with defhnd := v })
  | .savebase p => partWrite s p (fun x => { x with savebase := v })
  | .savesz p => partWrite s p (fun x => { x with savesz := w })
  | .saven p => partWrite s p (fun x => { x with saven := v.extractLsb' 0 16 })
  | .stkbase p => partWrite s p (fun x => { x with stkbase := v })
  | .vitbase d n => vitbaseWrite s d n v
  | .vitctl d n => if v.getLsbD 0 then vitrinePin s d n else vitrineRelease s d n
  | .dctl d => s.modDie d (fun x => { x with dctl := w })
  | .pcore d p => pcoreWrite s d p v
  | .qbase d q => if qRun (s.queue d q) then s else s.modQueue d q (fun x => { x with base := v })
  | .qctl d q => qctlWrite s d q w
  | .xlinv d => xlinvWrite s d v
  | .xlstat d => if raw.getLsbD 1 then s.modDie d (fun x => { x with xllost := false }) else s
  | .hrbase c => s.modCore c (fun x => if x.hrput != x.hrtake then x else { x with hrbase := v })
  | .hrctl c => s.modCore c (fun x =>
      if x.hrput != x.hrtake || (v.extractLsb' 0 5).toNat ≥ 17 then x else { x with hrlog := (v.extractLsb' 0 5).toNat })
  | _ => s

/-- R4, R10: a write of a register at a level: PRIV, or the state after it. -/
def regWrite (s : State) (p : Priv) (r : DReg) (raw : W64) : Except W32 State :=
  let old := regRead s r
  let forbidden : W64 := match p with
    | .user => r.sup ||| r.fw
    | .sup => r.fw &&& ~~~r.sup
    | .fw => 0#64
  if (old ^^^ raw) &&& forbidden != 0#64 then .error fwPRIV
  else
    let m := (r.sup ||| r.fw) &&& ~~~forbidden
    .ok (regEffect s r ((old &&& ~~~m) ||| (raw &&& m)) raw)

/-- The 32-bit unit of region 0xFB at an offset that is a multiple of 4. -/
def unitHigh (o : Nat) (r : DReg) : Bool := r.wide && o % 8 = 4

/-- A load of `n` bytes (4 or 8) of region 0xFB: the registers that stand there. -/
def devLoad (s : State) (o n : Nat) : Except W32 Nat :=
  let one (o : Nat) : Option Nat := (regAt o).map (fun r =>
    if unitHigh o r then (regRead s r).toNat / 2 ^ 32 else (regRead s r).toNat % 2 ^ 32)
  if n = 4 then (match one o with | some x => .ok x | none => .error fwAPERR)
  else match one o, one (o + 4) with
    | some x, some y => .ok (x + 2 ^ 32 * y)
    | _, _ => .error fwAPERR

/-- A store of 4 bytes: to a 32-bit register, or to one half of a wide one. -/
def devStore32 (s : State) (p : Priv) (o : Nat) (v : W32) : Except W32 State :=
  match regAt o with
  | none => .error fwAPERR
  | some r =>
    if r.wide then
      let old := regRead s r
      regWrite s p r (if unitHigh o r then v ++ old.extractLsb' 0 32 else old.extractLsb' 32 32 ++ v)
    else regWrite s p r (v.setWidth 64)

/-- A store of `n` bytes of region 0xFB (R10: one that raises PRIV changes nothing). -/
def devStore (s : State) (p : Priv) (o n : Nat) (v : W64) : Except W32 State :=
  if n = 4 then devStore32 s p o (v.extractLsb' 0 32)
  else match regAt o with
    | none => .error fwAPERR
    | some r =>
      if r.wide then regWrite s p r v
      else match regAt (o + 4) with
        | none => .error fwAPERR
        | some _ => match devStore32 s p o (v.extractLsb' 0 32) with
          | .error f => .error f
          | .ok t => devStore32 t p (o + 4) (v.extractLsb' 32 32)

end Sys2Proof.Machine
end

