-- ==== Sys2Proof/Machine/LoadStore.lean ====
section
/-!
DEFINITION. The memory access instructions (07: R164–R191) and the events of the load/store path: LOAD_WRITEBACK,
STORE_PERFORM, LDPOIS, FENCE_RELEASE. An access stands outstanding from its issue and performs at its event, in any order that
R204 to R209 leave (log 8).
-/

namespace Sys2Proof.Machine

/-! ### The accesses of an instruction, checked -/

/-- The lanes for which an instruction makes an access: the contributing ones, or one for the group. -/
def accLanes (x : At) (once : Bool) : List Nat := if once then (lanesOf x.act).take 1 else lanesOf x.eff

/-- The level of an access: the thread's own; once for the group, the lowest of the set's threads (R10). -/
def accPriv (g : Group) (x : At) (once : Bool) (lane : Nat) : Priv :=
  if once then
    if userMask g x.act != 0#32 then .user
    else if maskWhere x.act (fun l => (g.thread l).priv = .sup) != 0#32 then .sup else .fw
  else (g.thread lane).priv

/-- The traps of a failed access (R167): of its lane, or of the whole active set. -/
def accTraps (x : At) (once : Bool) (lane : Nat) (w : W32) (a : W64) : List Trap :=
  if once then trapAll x.act w a else [⟨lane, w, a⟩]

/-- Where an access is made: the words its address is formed from, and the address. -/
structure Addr where
  base : W64
  idx : W64
  addr : W64
/-- R164. -/
def laneAddr (g : Group) (e : Env) (o : Ops) (lane : Nat) : Addr :=
  ⟨rd64 g e 0#32 lane o.a, indexOf g e o lane, addrOf g e o lane⟩
/-- The run of a packed form, and its scale byte (R175). -/
def runAddr (g : Group) (e : Env) (o : Ops) : Addr :=
  let b := rd64 g e 0#32 0 o.a
  ⟨b, 0#64, b + o.ofs.signExtend 64⟩
/-- The scale byte of a packed form's one block: the byte at B, block number 0, whatever OFS is (R13 does not say which number it has: log
116). -/
def scaleAddr (g : Group) (e : Env) (o : Ops) : Addr :=
  let b := rd64 g e 0#32 0 o.b
  ⟨b, 0#64, b⟩

/-- The checked accesses of an instruction, and the faults of the lanes that fail. -/
def checkAll (x : At) (once : Bool) (f : Form) (addr : Nat → Addr) (s : State) : List Access × List Trap :=
  (accLanes x once).foldl (fun (a : List Access × List Trap) l =>
    let g := s.group x.gid
    let w := addr l
    match checkAccess s x.gid l (accPriv g x once l) f w.addr with
    | .error e => (a.1, a.2 ++ accTraps x once l e w.addr)
    | .ok t => (a.1 ++ [⟨if once then 32 else l, w.addr, w.base, w.idx, t, [], 0, f.len, x.act⟩], a.2)) ([], [])

/-- R428: the held leaves of the pages that an instruction's accesses name, read again where their accession asks it. -/
def rereadAll (x : At) (once : Bool) (f : Form) (addr : Nat → Addr) (s : State) : State :=
  (accLanes x once).foldl (fun s l => rereads s (s.ctx x.gid (accPriv (s.group x.gid) x once l)) (addr l).addr f.len) s

/-- The parts of an access, one per page and 128-byte line (R168, R214); a cache operation acts on the line of its first byte. -/
def pieces (i : Instr) : Target → List (Target × Nat)
  | .glob xs =>
    if isCacheOp i then (xs.take 1).map (fun x => (.glob [{ x with pa := x.pa - x.pa % 128, len := 128 }], 128))
    else xs.flatMap (fun x => (linePieces 10 x.pa x.len).map (fun p => (.glob [{ x with pa := p.1, len := p.2 }], p.2)))
  | _ => []
def splitFrom (a : Access) : Nat → List (Target × Nat) → List Access
  | _, [] => []
  | o, (t, n) :: r => { a with tgt := t, ofs := o, len := n } :: splitFrom a (o + n) r
def Access.split (i : Instr) (a : Access) : List Access :=
  match a.tgt with
  | .glob _ => splitFrom a a.ofs (pieces i a.tgt)
  | _ => [a]

/-- The checked accesses of a packed form: the run, and for MX the scale byte after it; the first that fails decides. -/
def packedAccs (u : Use) (o : Ops) (fmt : Fmt) (f : Form) (x : At) (s : State) : List Access × List Trap :=
  let g := s.group x.gid
  match checkAll x true f (fun _ => runAddr g x.env o) s with
  | (run, []) =>
    if fmt.isMx then
      match checkAll x true ⟨u, 1, 1, false, false, true⟩ (fun _ => scaleAddr g x.env o) s with
      | (sc, []) => (run ++ sc.map (fun a => { a with ofs := f.len }), [])
      | (_, ts) => ([], ts)
    else (run, [])
  | (_, ts) => ([], ts)

/-- R428 for the accesses of a packed form. -/
def rereadPacked (o : Ops) (fmt : Fmt) (f : Form) (x : At) (s : State) : State :=
  let g := s.group x.gid
  let s := rereadAll x true f (fun _ => runAddr g x.env o) s
  if fmt.isMx then rereadAll x true ⟨f.use, 1, 1, false, false, true⟩ (fun _ => scaleAddr g x.env o) s else s

/-! ### Issue of loads, stores and atomics -/

/-- An outstanding load joins its group's. -/
def addLoad (s : State) (gid : Nat) (r : LoadRec) : State :=
  if r.spent then s else s.modGroup gid (fun g => { g with lds := g.lds ++ [{ r with seq := g.nextSeq }] })
def addStore (s : State) (gid : Nat) (i : Instr) (accs : List Access) : State :=
  if accs.isEmpty then s else s.modGroup gid (fun g => { g with sts := g.sts ++ [⟨g.nextSeq, i, accs, false⟩] })

/-- A device register's access performs at its issue, after what must precede it (log 8). -/
def toDevice (a : Access) : Bool := match a.tgt with | .dev _ => true | _ => false
def devSettle (s : State) (gid : Nat) (ld : Bool) (i : Instr) (a : Access) : State :=
  settleFor s gid ⟨ld, (s.group gid).nextSeq, i, a⟩
/-- A load of a device register: its value for the record, or its fault. -/
def devRead (x : At) (once : Bool) (i : Instr) (r : State × LoadRec × List Trap) (a : Access) : State × LoadRec × List Trap :=
  let s := devSettle r.1 x.gid true i a
  match a.tgt with
  | .dev o => match devLoad s o a.len with
    | .ok v =>
      (if isAcq i then acquireAt s x.gid (ordOf i).2 else s, r.2.1.arrive a (marked (bytesOf a.len v) false), r.2.2)
    | .error f => (s, r.2.1, r.2.2 ++ accTraps x once (a.lane % 32) f a.addr)
  | _ => (s, r.2)

/-- The accesses of a load, those of device registers read now, the others left to perform. -/
def loadAll (x : At) (once : Bool) (i : Instr) (accs : List Access) (s : State) : State × List Trap :=
  let (dev, mem) := accs.partition toDevice
  let r := dev.foldl (devRead x once i) (s, ⟨0, i, mem.flatMap (Access.split i), [], [], [], [], []⟩, [])
  (addLoad r.1 x.gid r.2.1, r.2.2)

/-- A load: checks, and the record counted in LDC. -/
def loadBody (i : Instr) (o : Ops) (x : At) (s : State) : Out :=
  let f := formOf i
  let s := rereadAll x f.once f (laneAddr (s.group x.gid) x.env o) s
  let (accs, ts) := checkAll x f.once f (laneAddr (s.group x.gid) x.env o) s
  let (s, ts') := loadAll x f.once i accs s
  ⟨s, ts ++ ts', 0#32, false⟩
def execLd (o : Ops) (ch : Ch) (scope : Scope) (ord : MOrd) (size : Size) (s : State) : Host.Outcome State Fault Refusal :=
  next (issue (.ld o ch scope ord size) s (loadBody (.ld o ch scope ord size) o))

/-- R175, R176: a run of 32 elements, lane i taking element i. -/
def loadPacked (i : Instr) (o : Ops) (fmt : Fmt) (x : At) (s : State) : Out :=
  let s := rereadPacked o fmt (formOf i) x s
  let (accs, ts) := packedAccs .load o fmt (formOf i) x s
  ⟨(loadAll x true i accs s).1, ts, 0#32, false⟩
def execLdConvert (o : Ops) (ch : Ch) (fmt : Fmt) (s : State) : Host.Outcome State Fault Refusal :=
  let i : Instr := .ldConvert o ch fmt
  next (issue i s fun x s => if fmt.packed then loadPacked i o fmt x s else loadBody i o x s)

/-- One access of a store to a device register. -/
def devWrite (x : At) (once : Bool) (i : Instr) (r : State × List Trap) (a : Access) : State × List Trap :=
  let s := devSettle r.1 x.gid false i a
  let s := if isRel i && wideScope (ordOf i).2 then l1WriteBack s (cidOf x.gid) true false else s
  match a.tgt with
  | .dev o => match devStore s (accPriv (s.group x.gid) x once (a.lane % 32)) o a.len (BitVec.ofNat 64 (natOf a.data)) with
    | .ok s => (s, r.2)
    | .error f => (s, r.2 ++ accTraps x once (a.lane % 32) f a.addr)
  | _ => (s, r.2)
/-- The accesses of a store: device registers are written now, the others stand in STC. -/
def storeAll (x : At) (i : Instr) (once : Bool) (accs : List Access) (s : State) : State × List Trap :=
  let (dev, mem) := accs.partition toDevice
  let r := dev.foldl (devWrite x once i) (s, [])
  (addStore r.1 x.gid i (mem.flatMap (Access.split i)), r.2)

/-- A store or an atomic, the bytes of whose source registers `data` gives. -/
def storeWith (i : Instr) (o : Ops) (data : Nat → List Byte) (x : At) (s : State) : Out :=
  let f := formOf i
  let s := rereadAll x f.once f (laneAddr (s.group x.gid) x.env o) s
  let (accs, ts) := checkAll x f.once f (laneAddr (s.group x.gid) x.env o) s
  let (s, ts') := storeAll x i f.once (accs.map (fun a => { a with data := data (a.lane % 32) })) s
  ⟨s, ts ++ ts', 0#32, false⟩
/-- R171: a store of registers. -/
def storeBody (i : Instr) (o : Ops) (size : Size) (x : At) (s : State) : Out :=
  storeWith i o (fun l => dataBytes (s.group x.gid) x.env l o.c (sizeBytes size)) x s

/-- R174, R177: a converting store; its flags enter TSR at issue in the lanes that access. -/
def storeConv (i : Instr) (o : Ops) (sat : Bool) (rm : Rm) (fmt : Fmt) (x : At) (s : State) : Out :=
  let f := formOf i
  let g := s.group x.gid
  let word (l : Nat) : W32 := rd32 g x.env 0#32 l o.c
  let s := rereadAll x f.once f (laneAddr g x.env o) s
  let (accs, ts) := checkAll x f.once f (laneAddr g x.env o) s
  let s := s.modGroup x.gid (fun g => accs.foldl (fun g a =>
    (accMask a).foldl (fun g l => g.orFlags l (convElem fmt sat rm (word (a.lane % 32)).toNat).fl) g) g)
  let (s, ts') := storeAll x i f.once (accs.map (fun a => { a with data := bytesOf 4 (word (a.lane % 32)).toNat })) s
  ⟨s, ts ++ ts', 0#32, false⟩

/-- R175–R177: a run of 32 elements, an MX store with its scale byte after it. -/
def storePacked (i : Instr) (o : Ops) (sat : Bool) (rm : Rm) (fmt : Fmt) (x : At) (s : State) : Out :=
  let s := rereadPacked o fmt (formOf i) x s
  let (accs, ts) := packedAccs .store o fmt (formOf i) x s
  if accs.isEmpty then ⟨s, ts, 0#32, false⟩
  else
    let g := s.group x.gid
    let data := lanes.flatMap (fun l => bytesOf 4 (rd32 g x.env 0#32 l o.c).toNat)
    let fls : List Flags :=
      if fmt.isMx then let (es, _, fl) := storeBlock fmt rm x.act data
        es.map (fun e => e.fl ||| fl)
      else (runWords x.act data).map (fun w => (convElem fmt sat rm w).fl)
    let s := s.modGroup x.gid (fun g => (lanes.zip fls).foldl (fun g e => if x.act.getLsbD e.1 then g.orFlags e.1 e.2 else g) g)
    let (s, ts') := storeAll x i true (accs.map (fun a => { a with data := data })) s
    ⟨s, ts ++ ts', 0#32, false⟩
def execStConvert (o : Ops) (ch : Ch) (sat : Bool) (rm : Rm) (fmt : Fmt) (s : State) : Host.Outcome State Fault Refusal :=
  let i : Instr := .stConvert o ch sat rm fmt
  next (issue i s fun x s => if fmt.packed then storePacked i o sat rm fmt x s else storeConv i o sat rm fmt x s)

/-- R178: the atomics of the contributing lanes: with a destination a load that modifies, without one a store. -/
def atomBody (i : Instr) (o : Ops) (sz : Bool) (aop : AOp) (x : At) (s : State) : Out :=
  let data (l : Nat) : List Byte := atomData (s.group x.gid) x.env l o.c aop sz
  if o.d.isV || o.d.isS then
    let f := formOf i
    let s := rereadAll x f.once f (laneAddr (s.group x.gid) x.env o) s
    let (accs, ts) := checkAll x f.once f (laneAddr (s.group x.gid) x.env o) s
    let (s, ts') := loadAll x f.once i (accs.map (fun a => { a with data := data (a.lane % 32) })) s
    ⟨s, ts ++ ts', 0#32, false⟩
  else storeWith i o data x s
def execAtom (o : Ops) (sz : Bool) (scope : Scope) (ord : MOrd) (aop : AOp) (s : State) : Host.Outcome State Fault Refusal :=
  next (issue (.atom o sz scope ord aop) s (atomBody (.atom o sz scope ord aop) o sz aop))
/-- R179: `atom` with D `zero`. -/
def execRed (o : Ops) (sz : Bool) (scope : Scope) (ord : MOrd) (aop : AOp) (s : State) : Host.Outcome State Fault Refusal :=
  next (issue (.red o sz scope ord aop) s (atomBody (.red o sz scope ord aop) { o with d := .zero } sz aop))

/-! ### Fences (R181–R184, R359–R361) -/

def Scope.code : Scope → Nat
  | .thr => 0 | .grp => 1 | .team => 2 | .clu => 3 | .die => 4 | .pkg => 5 | .sys => 6 | .fab => 7

/-- R182, R360: the status word of a failure record at a scope. -/
def fenceWord (scope : Scope) (f : FailRec) : W32 :=
  BitVec.ofNat 32 (f.unit.toNat * 2 ^ 16 + f.count * 2 ^ 8 + (if f.count = 0 then Scope.code scope * 2 ^ 4 else 0)
    + (if f.pois then 8 else 0) + (if f.dead then 4 else 0) + (if f.drops != 0 then 2 else 0) + (if f.count = 0 then 1 else 0))

/-- R183: the records of several threads combined, in lane order. -/
def combineFail (fs : List FailRec) : FailRec :=
  fs.foldl (fun a f => if f.count = 0 then a else
    ⟨if a.count = 0 then f.unit else a.unit, min 255 (a.count + f.count), a.pois || f.pois, a.dead || f.dead, a.drops + f.drops, a.dropFirst || f.dropFirst⟩)
    FailRec.none

/-- R359: the first dead link on the way of a marker to the destination that a bit of the path bitmap stands for, and back. -/
def markerRoute (s : State) (cid bit : Nat) : List Link :=
  let a := coreAt s cid
  if bit < 64 then let b : Site := ⟨a.die, bit / 8, bit % 8⟩
    route a b ++ route b a
  else if bit < 68 then rowLinks a.die a.row a.col 8 false ++ gateLinks a.die (bit - 64) ++ rowLinks a.die a.row 8 a.col false
  else rowLinks a.die a.row a.col 8 false ++ [⟨a.die, 72, 2⟩] ++ rowLinks a.die a.row 8 a.col false
/-- The destination that a bit of the path bitmap stands for is out of reach (R359, R458). -/
def markerDead (s : State) (cid bit : Nat) : Bool :=
  !routeAlive s (markerRoute s cid bit) || (bit = 68 && s.hub.watis = 0#2)

/-- R359, R360: the markers of a fence at cluster scope or wider: one that fails is charged to the fence's threads, and its bit stays set; the
others' bits clear. -/
def sendMarkers (s : State) (gid : Nat) (m : Mask) (scope : Scope) : State :=
  if wideScope scope then
    let cid := cidOf gid
    let bad := (upTo 70).filter (fun b => (s.core cid).paths.getLsbD b && markerDead s cid b)
    let s := bad.foldl (fun s b => chargeGroup s gid m (deadCode s (markerRoute s cid b)) false true) s
    s.modCore cid (fun c => { c with paths := bad.foldl (fun p b => setBit p b true) 0#70 })
  else s

/-- The failure records of some threads start again after a fence (R182, R339). -/
def clearFail (s : State) (gid : Nat) (m : Mask) (scope : Scope) : State :=
  s.modGroup gid (fun g => g.modThreads m (fun t => { t with fail := t.fail.after (wideScope scope) }))
/-- What a fence of some threads reports of them together (R183). -/
def failOf (s : State) (gid : Nat) (m : Mask) (scope : Scope) : FailRec :=
  combineFail ((lanesOf m).map (fun l => ((s.group gid).thread l).fail.seen (wideScope scope)))

/-- Whether a fence at a scope waits for messages that a group has sent and no receiver has placed: they perform at cluster scope
(R337). -/
def msgsStand (s : State) (gid : Nat) (scope : Scope) : Bool :=
  wideScope scope && (
  s.clusters.any (fun c => c.2.transit.any (fun m => m.1 = gid))
  || s.teams.any (fun t => t.2.stalled.any (fun m => m.1 = gid)))

/-- R181: threads waiting in a `fence` whose earlier loads have been written leave it, with their status words; fences of one scope that leave
together send their markers together. -/
def releaseFence (s : State) (gid : Nat) (m : Mask) : State :=
  let g := s.group gid
  let scopeAt (l : Nat) : Option (Ops × Scope) := match (g.thread l).wait with | some (.fence o sc) => some (o, sc) | _ => none
  let go := maskWhere m (fun l => !loadsStand g l && !(match scopeAt l with | some (_, sc) => msgsStand s gid sc | none => false))
  if go = 0#32 then s
  else
    let s := [Scope.thr, .grp, .team, .clu, .die, .pkg, .sys, .fab].foldl (fun s sc =>
      let mine := maskWhere go (fun l => (scopeAt l).map (fun e => e.2) = some sc)
      if mine = 0#32 then s else sendMarkers (fenceAt s gid mine sc) gid mine sc) s
    (lanesOf go).foldl (fun s l =>
      match scopeAt l with
      | some (o, scope) =>
        let one : Mask := 1#32 <<< l
        let f := failOf s gid one scope
        let s := (clearFail s gid one scope).modGroup gid (fun g => wrLane false g l o.d (fenceWord scope f).toNat)
        passDeliver s gid one
      | none => s) s
def tryFence (s : State) (gid : Nat) : State :=
  releaseFence s gid (waiters (s.group gid) (fun i => match i with | .fence _ _ => true | _ => false))

/-- R183: `fence.g`: the group's earlier accesses as a whole. -/
def tryFenceG (s : State) (gid : Nat) : State :=
  let g := s.group gid
  let w := waiters g (fun i => match i with | .fenceG _ _ => true | _ => false)
  match waitInstr g w with
  | some (.fenceG o scope) =>
    if g.lds.isEmpty && !msgsStand s gid scope then
      let s := sendMarkers (fenceAt s gid 0xFFFFFFFF#32 scope) gid 0xFFFFFFFF#32 scope
      let f := failOf s gid w scope
      let s := (clearFail s gid w scope).modGroup gid (fun g => wrUni g o.d (fenceWord scope f).toNat)
      passDeliver s gid w
    else s
  | _ => s

/-- Bits of a path set (R184). -/
def pLs (p : BitVec 5) : Bool := p.getLsbD 0
def pCp (p : BitVec 5) : Bool := p.getLsbD 1
def pMo (p : BitVec 5) : Bool := p.getLsbD 2
def pGa (p : BitVec 5) : Bool := p.getLsbD 3

/-- Whether a copy command is a gather (R216, R271). -/
def isGather (c : Copy) : Bool := c.tmpl.extractLsb' 0 4 = 2#4

/-- Whether a command's template, as it stands, makes it a gather: its kind is fixed when a channel accepts it (R267, R271). -/
def cmdGather (s : State) (cid : Nat) (k : CopyCmd) : Bool :=
  (Tbl.get 0#512 (k.word.extractLsb' 0 5).toNat (s.core cid).tmpl).extractLsb' 0 4 = 2#4

/-- Whether every access of a group on the paths of a set has performed, the load/store path's stores apart (R184): loads
written, messages placed where the scope asks it, copies finished at every receiver, tile operations retired. -/
def pathsDone (s : State) (gid : Nat) (p : BitVec 5) (scope : Scope) : Bool :=
  let g := s.group gid
  let c := s.core (cidOf gid)
  (!pLs p || (g.lds.isEmpty && !msgsStand s gid scope))
  && g.cps.all (fun k => !(if cmdGather s (cidOf gid) k then pGa p else pCp p))
  && c.copies.all (fun x => x.gid != gid || !(if isGather x then pGa p else pCp p))
  && (!pMo p || s.tlc gid = 0)

/-- The cores whose scratchpads a group's accesses may have written: its own, and in a cluster job the members'. -/
def reach (s : State) (gid : Nat) : List Nat :=
  match s.clusterOf (s.tidOf gid) with
  | some (_, c, _) => cidOf gid :: c.members
  | none => [cidOf gid]
/-- R200, R211: what a cross-path fence between the paths of a set does to global data: where `.ls` is named with another path, the group's
stores perform and the L1 is written back and invalidated. -/
def crossL1 (s : State) (gid : Nat) (p : BitVec 5) : State :=
  if pLs p && p &&& 0x1E#5 != 0#5 then l1Invalidate (settleAll s gid) (cidOf gid) true true else s
/-- R217, R218: a cross-path fence: data written by the paths `prods` becomes visible to the paths `cons`. -/
def crossFence (s : State) (gid : Nat) (prods cons : BitVec 5) : State :=
  (reach s gid).foldl (fun s c => s.showSp c prods cons 0) (crossL1 s gid (prods ||| cons))

/-- R184. -/
def tryFencex (s : State) (gid : Nat) : State :=
  let g := s.group gid
  let w := waiters g (fun i => match i with | .fencex _ _ _ => true | _ => false)
  match waitInstr g w with
  | some (.fencex o p scope) =>
    if pathsDone s gid p scope then
      let s := if pLs p then sendMarkers (fenceAt s gid 0xFFFFFFFF#32 scope) gid 0xFFFFFFFF#32 scope else s
      let s := crossFence s gid p p
      let f := failOf s gid w scope
      let s := (clearFail s gid w scope).modGroup gid (fun g => wrUni g o.d (fenceWord scope f).toNat)
      passDeliver s gid w
    else s
  | _ => s

def execFence (o : Ops) (scope : Scope) (s : State) : Host.Outcome State Fault Refusal :=
  next (waitThen (.fence o scope) tryFence s)
def execFenceG (o : Ops) (scope : Scope) (s : State) : Host.Outcome State Fault Refusal :=
  next (waitThen (.fenceG o scope) tryFenceG s)
def execFencex (o : Ops) (paths : BitVec 5) (scope : Scope) (s : State) : Host.Outcome State Fault Refusal :=
  next (waitThen (.fencex o paths scope) tryFencex s)
/-- R359: a waiting fence of a thread, or of its group, returns. -/
def execFenceRelease (g : Nat) (lane : BitVec 5) (s : State) : Host.Outcome State Fault Refusal :=
  next (tryFencex (tryFenceG (releaseFence s g
    (waiters (s.group g) (fun i => match i with | .fence _ _ => true | _ => false) &&& (1#32 <<< lane.toNat))) g) g)

/-! ### Cache maintenance and prefetch (R185–R187) -/

/-- R185: a line placed in the L1 (or, under `.l2`, left where it is) for each lane whose access would not fault. -/
def execPref (o : Ops) (l2 : Bool) (s : State) : Host.Outcome State Fault Refusal :=
  next (issue (.pref o l2) s fun x s =>
    let g := s.group x.gid
    .done ((lanesOf x.eff).foldl (fun s l =>
      let a := addrOf g x.env o l
      if region a ≥ 0xFB || l2 then s
      else match globalAccess s (s.ctx x.gid (g.thread l).priv) .load a 1 with
        | .ok (y :: _) => if y.kind = 0 then s else (loadXl s (cidOf x.gid) false false y).2.2
        | _ => s) s))

/-- A cache operation stands as a store-counted operation with the line of each contributing lane (R186, R187). -/
def cacheBody (i : Instr) (o : Ops) (x : At) (s : State) : Out :=
  let s := rereadAll x false (formOf i) (laneAddr (s.group x.gid) x.env o) s
  let (accs, ts) := checkAll x false (formOf i) (laneAddr (s.group x.gid) x.env o) s
  ⟨addStore s x.gid i (accs.flatMap (Access.split i)), ts, 0#32, false⟩
def execDiscard (o : Ops) (s : State) : Host.Outcome State Fault Refusal :=
  next (issue (.discard o) s (cacheBody (.discard o) o))
def execClean (o : Ops) (mem : Bool) (s : State) : Host.Outcome State Fault Refusal :=
  next (issue (.clean o mem) s (cacheBody (.clean o mem) o))
def execInval (o : Ops) (i : Bool) (s : State) : Host.Outcome State Fault Refusal :=
  next (issue (.inval o i) s (cacheBody (.inval o i) o))

/-! ### Events of the load/store path -/

/-- Of the accesses still to perform, those that an event picks: the next part of each lane of a set; of accesses made for the group, the ones at
the set's places. -/
def pickParts (m : Mask) (l : List Access) : List Access :=
  (lanesOf m).flatMap (fun k => (l.filter (fun a => a.lane = k)).take 1)
  ++ (((l.filter (fun a => a.lane ≥ 32)).zipIdx).filter (fun e => m.getLsbD e.2 && decide (e.2 < 32))).map (fun e => e.1)

/-- The unit of R82 that a write of a load is: bit 4·lane + register − D of a varying destination, register − D of a uniform one. -/
def destReg (i : Instr) : Nat :=
  match i.guardOf with
  | some o => (match o.d with | .v n => n.toNat | .s n => n.toNat | _ => 0)
  | none => 0
def unitOfV (i : Instr) (w : VWrite) : Nat := 4 * w.lane + (w.reg - destReg i)
def unitOfS (i : Instr) (w : Nat × W64) : Nat := w.1 - destReg i
/-- Whether an access of a load brings data of the chosen units. -/
def brings (i : Instr) (only : BitVec 128) (a : Access) : Bool :=
  if isRld i then only.getLsbD (4 * (a.ofs / 4 % 32) + a.ofs / 128)
  else if a.lane < 32 then only.extractLsb' (4 * a.lane) 4 != 0#4 else only != 0#128

/-- R29, R80, R189: chosen units of a load written. The flags of a thread and its LDPOIS follow the last of its data; LDC falls when nothing is left to
write. -/
def writeUnits (s : State) (gid ix : Nat) (only : BitVec 128) : State :=
  match (s.group gid).lds[ix]? with
  | none => s
  | some r =>
    let rest := { r with vw := r.vw.filter (fun w => !only.getLsbD (unitOfV r.ins w)), sw := r.sw.filter (fun w => !only.getLsbD (unitOfS r.ins w)) }
    let stands (l : Nat) : Bool := rest.todo.any (fun a => a.lane = l || a.lane ≥ 32) || rest.vw.any (fun w => w.lane = l) || !rest.sw.isEmpty
    s.modGroup gid (fun g =>
      let g := (r.vw.filter (fun w => only.getLsbD (unitOfV r.ins w))).foldl (fun g w => g.setV w.lane w.reg w.val) g
      let g := (r.sw.filter (fun w => only.getLsbD (unitOfS r.ins w))).foldl (fun g w => g.setU w.1 w.2) g
      let g := (r.fl.filter (fun e => !stands e.1)).foldl (fun g e => g.orFlags e.1 e.2) g
      let g := (r.pois.filter (fun e => !stands e.1)).foldl (fun g e => g.modThread e.1 (fun t => { t with pend := some e.2 })) g
      let rest := { rest with fl := r.fl.filter (fun e => stands e.1), pois := r.pois.filter (fun e => stands e.1) }
      { g with lds := if rest.spent then delNth ix g.lds else setNth rest ix g.lds })
/-- An outstanding load: the picked accesses and those that bring data of the chosen units perform, and the chosen units are written. -/
def writeback (s : State) (gid ix : Nat) (perf : Mask) (only : BitVec 128) : State :=
  match (s.group gid).lds[ix]? with
  | none => s
  | some r =>
    let s := (pickParts perf r.todo ++ r.todo.filter (brings r.ins only)).foldl (fun s a => performAfter s gid ⟨true, r.seq, r.ins, a⟩) s
    writeUnits s gid ix only
def execLoadWriteback (g ix : Nat) (only : LoadPick) (s : State) : Host.Outcome State Fault Refusal :=
  next (writeback s g ix only.perf only.units)

/-- A packed form, and its scale byte among its accesses. -/
def isPacked : Instr → Bool | .stConvert _ _ _ _ fmt => fmt.packed | _ => false
def isScale (i : Instr) (a : Access) : Bool := isPacked i && a.len = 1
/-- The form of one access of an instruction. -/
def accForm (i : Instr) (a : Access) : Form := if isScale i a then ⟨.store, 1, 1, false, false, true⟩ else formOf i

/-- Units of `n` bytes, each old or new as a choice says; bytes that no register gives stay. -/
def mergeUnits (n : Nat) (pick : Nat → Bool) (old new : List Byte) : List Byte :=
  (old.zip new).zipIdx.map (fun e => if pick (e.2 / n) then e.1.2 else e.1.1) ++ old.drop new.length
/-- R82: the source bytes of an access with the chosen registers read again: bit 4·lane + k for register C + k. -/
def lateData (i : Instr) (g : Group) (late : BitVec 128) (a : Access) : List Byte :=
  match i.guardOf, srcBytes i g (a.lane % 32) with
  | some o, some new =>
    let b := 4 * (a.lane % 32)
    match i with
    | .stConvert _ _ _ _ fmt =>
      if fmt.packed then mergeUnits 4 (fun k => late.getLsbD (if o.c.isV then 4 * k else 0)) a.data new
      else mergeUnits 4 (fun _ => late.getLsbD b) a.data new
    | .atom _ sz _ _ _ | .red _ sz _ _ _ => mergeUnits (if o.c.isV then 4 else if sz then 8 else 4) (fun k => late.getLsbD (b + k)) a.data new
    | .hpush _ => mergeUnits 8 (fun k => late.getLsbD k) a.data new
    | _ => mergeUnits (if o.c.isV then 4 else 8) (fun k => late.getLsbD (b + k)) a.data new
  | _, _ => a.data
/-- R82, R120: the address of an access with the chosen registers read again: bit 4·lane for A or its low register, + 1 for its high one, + 2 for
B. -/
def lateAddr (i : Instr) (g : Group) (e : Env) (late : BitVec 128) (a : Access) : Addr :=
  match i.guardOf with
  | none => ⟨a.base, a.idx, a.addr⟩
  | some o =>
    let l := a.lane % 32
    let bit (k : Nat) : Bool := late.getLsbD (4 * l + k)
    if (match i with | .hpush _ => true | _ => false) then ⟨a.base, a.idx, a.addr⟩
    else if isScale i a then (if bit 2 then scaleAddr g e o else ⟨a.base, a.idx, a.addr⟩)
    else
      let now := rd64 g e 0#32 l o.a
      let base := if o.a.isV then
          (if bit 1 then now.extractLsb' 32 32 else a.base.extractLsb' 32 32) ++ (if bit 0 then now.extractLsb' 0 32 else a.base.extractLsb' 0 32)
        else if bit 0 then now else a.base
      let idx := if bit 2 && !isPacked i then indexOf g e o l else a.idx
      ⟨base, idx, formAddr o base idx⟩
/-- The accesses of one lane, none of which has performed, with late data and address: an address whose check fails keeps the old
one (log 8). -/
def lateLane (s : State) (gid : Nat) (i : Instr) (data addr : BitVec 128) (as_ : List Access) : List Access :=
  match as_ with
  | [] => []
  | a :: _ =>
    let g := s.group gid
    let old := as_.map (fun b => { b with data := lateData i g data b })
    let w := lateAddr i g (s.env gid) addr a
    if w.addr = a.addr then old
    else
      let x : At := ⟨gid, a.mask, a.mask, s.env gid⟩
      match checkAccess s gid (a.lane % 32) (accPriv g x (a.lane ≥ 32) (a.lane % 32)) (accForm i a) w.addr with
      | .ok t =>
        if toDevice { a with tgt := t } then old
        else Access.split i { a with base := w.base, idx := w.idx, addr := w.addr, tgt := t, data := lateData i g data a }
      | .error _ => old
/-- The accesses of a store with the chosen registers of the lanes of a set read again; a lane of which a part has performed has
read them. -/
def lateRead (s : State) (gid : Nat) (i : Instr) (m : Mask) (data addr : BitVec 128) (as_ : List Access) : List Access :=
  let whole (l : List Access) : Bool := isCacheOp i || (l.map (fun a => a.len)).sum = (match l with | a :: _ => (accForm i a).len | [] => 0)
  let lane (l : List Access) : List Access := if whole l then lateLane s gid i data addr l else l
  (upTo 32).flatMap (fun k =>
    let l := as_.filter (fun a => a.lane = k)
    if m = 0#32 || m.getLsbD k then lane l else l)
  ++ lane (as_.filter (fun a => a.lane ≥ 32 && !isScale i a)) ++ lane (as_.filter (fun a => a.lane ≥ 32 && isScale i a))

/-- R80, R82: an outstanding store is accepted: its registers are read, each as at its issue or as they stand (`data`, `addr`). Its accesses of a set of
lanes then perform, each after what must precede it; with an empty set they stand, no longer counted in STC. -/
def storeEvent (s : State) (gid ix : Nat) (m : Mask) (data addr : BitVec 128) : State :=
  match (s.group gid).sts[ix]? with
  | none => s
  | some r =>
    let r' : StoreRec := if r.taken then r else
      { r with accs := lateRead s gid r.ins m data addr r.accs, taken := m = 0#32 }
    let s := s.modGroup gid (fun g => { g with sts := setNth r' ix g.sts })
    (pickParts m r'.accs).foldl (fun s a => performAfter s gid ⟨false, r.seq, r.ins, a⟩) s
def execStorePerform (g ix : Nat) (early : StorePick) (s : State) : Host.Outcome State Fault Refusal :=
  next (storeEvent s g ix early.lanes early.data early.addr)

/-- R189: LDPOIS in a thread at its next issue. -/
def execLdpois (g : Nat) (lane : BitVec 5) (s : State) : Host.Outcome State Fault Refusal :=
  let t := (s.group g).thread lane.toNat
  match t.pend with
  | some a =>
    if (s.group g).fmask.getLsbD lane.toNat && t.wait.isNone then
      next (deliver (s.modGroup g (fun x => x.modThread lane.toNat (fun t => { t with pend := none }))) g
        [⟨lane.toNat, fwLDPOIS, a⟩])
    else next s
  | none => next s

end Sys2Proof.Machine
end

