-- ==== Sys2Proof/Machine/Matrix.lean ====
section
/-!
DEFINITION. The matrix engine (09: R227–R261): the matrix instructions, which enter a core's sequencer at issue, and the events
MATRIX_OP_START and MATRIX_OP_RETIRE, which take a varying A and perform an operation's rows.
-/

namespace Sys2Proof.Machine

def fwMOPND : W32 := 0x21805002#32
def fwMPAIR : W32 := 0x21805003#32

/-! ### Tiles and operands (R229–R235) -/

/-- The team of an entry, its tile n as numbered in the core, the scratchpad byte of a region 0xFF pointer. -/
def entTeam (s : State) (e : SeqEnt) : Nat := (s.posOf e.gid).1
def entTile (s : State) (cid : Nat) (e : SeqEnt) : Opd → Nat
  | .acc n => entTeam s e * tileShare (s.core cid).pword + n.toNat
  | _ => 0
def entSp (s : State) (cid : Nat) (e : SeqEnt) (ptr : W64) (ofs : Nat) : Nat :=
  entTeam s e * s.spLimit cid + (ptr.extractLsb' 0 56).toNat + ofs

/-- A result with its flags, and whether it was formed from data that carries an uncorrectable error (R260). -/
structure MRes where
  bits : Nat
  fl : Flags
  ps : Bool
  deriving DecidableEq, Repr

def MRes.of (r : FR) : MRes := ⟨r.bits, r.fl, false⟩
/-- The result of an FP32 computation, the default NaN where it was formed from poisoned data. -/
def MRes.guard (po : Bool) (r : MRes) : MRes := if po then ⟨0x7FC00000, 0#5, true⟩ else r
/-- The flags word of some results. -/
def flagWord (rs : List MRes) : W32 :=
  rs.foldl (fun a r => a ||| r.fl.setWidth 32 ||| (if r.ps then 0x20#32 else 0#32)) 0#32

/-- Whether an element of a tile, or a side register, carries an uncorrectable error; the keys of M and L. -/
def tileBad (c : Core) (key : Nat) : Bool := !c.tileP.isEmpty && (Tbl.find key c.tileP).isSome
def keyM (k r : Nat) : Nat := 2 ^ 32 + 2 * (32 * k + r)
def keyL (k r : Nat) : Nat := keyM k r + 1
def setBad (c : Core) (key : Nat) (po : Bool) : Core :=
  if po then { c with tileP := Tbl.put key () c.tileP }
  else if c.tileP.isEmpty then c else { c with tileP := Tbl.del key c.tileP }

/-- A row of a tile: its elements, each with whether it carries an error; its side registers. -/
def tileElems (c : Core) (k r : Nat) : List (Nat × Bool) :=
  (upTo 128).map (fun n => ((Tbl.get 0#32 (4096 * k + 128 * r + n) c.tiles).toNat, tileBad c (4096 * k + 128 * r + n)))
def tileRow (c : Core) (k r : Nat) : List Nat := (tileElems c k r).map (fun e => e.1)
def setTileFrom (c : Core) (key : Nat) : List MRes → Core
  | [] => c
  | x :: t => setTileFrom (setBad { c with tiles := Tbl.put key (BitVec.ofNat 32 x.bits) c.tiles } key x.ps) (key + 1) t
/-- A row of a tile written. An element formed from poisoned data carries the error on (log 127). -/
def setTileRow (c : Core) (k r : Nat) (xs : List MRes) : Core := setTileFrom c (4096 * k + 128 * r) xs
def tileMax (c : Core) (k r : Nat) : Nat := (Tbl.get 0#32 (32 * k + r) c.tileM).toNat
def tileSum (c : Core) (k r : Nat) : Nat := (Tbl.get 0#32 (32 * k + r) c.tileL).toNat
def setSide (c : Core) (k r : Nat) (m l : MRes) : Core :=
  setBad (setBad { c with tileM := Tbl.put (32 * k + r) (BitVec.ofNat 32 m.bits) c.tileM
                          tileL := Tbl.put (32 * k + r) (BitVec.ofNat 32 l.bits) c.tileL } (keyM k r) m.ps) (keyL k r) l.ps
/-- Flags ORed into a tile's flags word (R231, R232). -/
def orTile (c : Core) (k : Nat) (f : W32) : Core :=
  { c with tileF := Tbl.put k ((Tbl.get 0#32 k c.tileF) ||| f) c.tileF }
/-- A row of results in a tile, with its flags. -/
def putRow (s : State) (cid k r : Nat) (rs : List MRes) : State :=
  s.modCore cid (fun c => orTile (setTileRow c k r rs) k (flagWord rs))

/-- K, row bytes and the products summed (R227, R239). -/
def rowBytes (f : Fmt) : Nat := f.k * elemBits f / 8
def mmaNk (o : Ops) : Nat := if o.kn = 0 then o.fmta.k else o.kn

/-- The element values of a row: its elements packed under R14, with the block scales of an MX format (R235). -/
def rowVals (f : Fmt) (nk : Nat) (bs scales : List Byte) : List FVal :=
  ((upTo nk).zip (unpackElems (elemBits f) nk bs)).map (fun e =>
    if f.isMx then mxVal f (nth 0#8 (e.1 / 32) scales) e.2 else elemVal f e.2)
/-- The bytes of the elements that an operation reads of a row. -/
def usedBytes (f : Fmt) (nk : Nat) : Nat := (nk * elemBits f + 7) / 8

/-- Scratchpad bytes as the matrix-operand path sees them, and whether any is poisoned (R217, R260). -/
def moBytes (s : State) (cid ofs n : Nat) : List Byte × Bool :=
  let bs := s.spSee cid 2 ofs n
  (bs.map (fun b => b.1), bs.any (fun b => b.2))

/-- A row of a scratchpad operand with its block scales: values, and whether data read is poisoned. -/
def spRow (s : State) (cid : Nat) (e : SeqEnt) (f : Fmt) (nk : Nat) (ptr scale : W64) (r : Nat) : List FVal × Bool :=
  let (bs, po) := moBytes s cid (entSp s cid e ptr (r * rowBytes f)) (usedBytes f nk)
  if f.isMx then
    let (sc, ps) := moBytes s cid (entSp s cid e scale (r * (f.k / 32))) ((nk + 31) / 32)
    (rowVals f nk bs sc, po || ps)
  else (rowVals f nk bs [], po)

/-- Row r of a varying A as the engine has taken it (R240). -/
def vRow (c : Core) (nk r : Nat) : List FVal :=
  rowVals .bf16 nk (((upTo 64).map (fun j => nth 0#32 (64 * r + j) c.aval)).flatMap (fun w => bytesOf 4 w.toNat)) []

/-- R239 for one element, under R32. -/
def mmaElem (a b : List FVal) (c : Option FVal) : FR :=
  let ops := a ++ b ++ c.toList
  matSum (ops.any FVal.isNan) (ops.any FVal.isSig) (a.zipWith fmulVal b ++ c.toList.map some)

/-- R239: row r of an `mma`, `mma.s` or `mma.p` on one core. -/
def mmaRow (cid : Nat) (e : SeqEnt) (o : Ops) (z : Bool) (r : Nat) (s : State) : State :=
  let nk := mmaNk o
  let lead := cidOf e.gid
  let (a, pa) := if o.a.isV then (vRow (s.core lead) nk r, false) else spRow s lead e o.fmta nk e.a e.c r
  let k := entTile s cid e o.d
  let rs := ((upTo 128).zip (tileElems (s.core cid) k r)).map (fun (x : Nat × Nat × Bool) =>
    let (b, pb) := spRow s cid e o.fmtb nk e.b e.c1 x.1
    MRes.guard (pa || pb || (!z && x.2.2)) (.of (mmaElem a b (if z then none else some (fmt32.decode x.2.1)))))
  let quiet := o.a.isV && !(s.core lead).amask.getLsbD r
  s.modCore cid (fun c => orTile (setTileRow c k r rs) k (if quiet then 0#32 else flagWord rs))

/-! ### Memory of the matrix-operand path (R233, R247, R248, R250) -/

/-- Bytes of row r of a global or scratchpad operand, each marked where it is poisoned or out of reach. -/
def matRead (s : State) (cid : Nat) (e : SeqEnt) (ptr : W64) (stride r len : Nat) : List MByte :=
  match e.xl[r]? with
  | some xs => xs.flatMap (fun x => (linePieces 10 x.pa x.len).flatMap (fun p =>
      if routeUp s cid p.1 && backUp s cid p.1 then marked (s.mem.peeks p.1 p.2) (s.mem.isPois (p.1 / 128))
      else marked (List.replicate p.2 0#8) true))
  | none => s.spSee cid 2 (entSp s cid e ptr (r * stride)) len

/-- Scratchpad bytes written by the matrix-operand path, with their marks. -/
def moPut (s : State) (cid ofs : Nat) (bs : List MByte) : State :=
  s.putMarks cid 2 0 ofs bs

/-- The parts of a row written to global memory, a part with a marked byte leaving its line poisoned; a failure is charged to the issuing
group (R361), unless its job has ended since. -/
def matSend (s : State) (cid : Nat) (e : SeqEnt) : List (Nat × Nat) → List MByte → State
  | [], _ => s
  | p :: t, bs =>
    let now := bs.take p.2
    let w (m : Memory) : Memory :=
      let m := m.pokes p.1 (valueOf now)
      if now.any (fun b => b.2) then m.markPois (p.1 / 128) else m
    matSend (sendWrite s cid p.1 ⟨if e.old = 0 then 1#32 <<< (e.gid % 32) else 0#32, 0xFFFFFFFF#32⟩ w) cid e t (bs.drop p.2)
/-- Bytes of row r of an operand written. -/
def matWrite (s : State) (cid : Nat) (e : SeqEnt) (ptr : W64) (stride r : Nat) (bs : List MByte) : State :=
  match e.xl[r]? with
  | some xs => matSend s cid e (xs.flatMap (fun x => linePieces 10 x.pa x.len)) bs
  | none => moPut s cid (entSp s cid e ptr (r * stride)) bs

/-- The scratchpad bytes written at a region 0xFF pointer. -/
def matSp (s : State) (cid : Nat) (e : SeqEnt) (ptr : W64) (ofs : Nat) (bs : List Byte) : State :=
  s.putSp cid 2 0 (entSp s cid e ptr ofs) bs

/-- The format of the elements of a run of bytes (little-endian, R2). -/
def elemsOf (n : Nat) (bs : List Byte) : List Nat := unpackElems (8 * n) (bs.length / n) bs

/-- The row stride in bytes: 0 means packed (R237). -/
def strideOf (packed : Nat) (x : W64) : Nat := if x = 0#64 then packed else x.toNat

/-- Marked bytes cut into elements of `n` bytes, each with whether a byte of it is marked. -/
def markedElems (n : Nat) (bs : List MByte) : List (Nat × Bool) :=
  (upTo (bs.length / n)).map (fun i =>
    let u := (bs.drop (i * n)).take n
    (natOf (valueOf u), u.any (fun b => b.2)))

/-- R247: row r of `accld` of data. -/
def accldRow (cid : Nat) (e : SeqEnt) (o : Ops) (fmt : Fmt) (r : Nat) (s : State) : State :=
  let n := elemBits fmt / 8
  let rs := (markedElems n (matRead s cid e e.a (strideOf (128 * n) e.b) r (128 * n))).map (fun x =>
    MRes.guard x.2 (match elemFmt fmt with
      | some f => if n = 4 then ⟨x.1, 0#5, false⟩ else .of (fmt32.conv .rne 0 false (f.decode x.1))
      | none => ⟨x.1, 0#5, false⟩))
  putRow s cid (entTile s cid e o.d) r rs
/-- R247: `accld.ml`. -/
def accldMl (cid : Nat) (e : SeqEnt) (o : Ops) (s : State) : State :=
  let k := entTile s cid e o.d
  (upTo 32).foldl (fun s r =>
    match (markedElems 4 (matRead s cid e (e.a + BitVec.ofNat 64 (8 * r)) 0 r 8)).map (fun x => MRes.guard x.2 ⟨x.1, 0#5, false⟩) with
    | [m, l] => s.modCore cid (fun c => orTile (setSide c k r m l) k (flagWord [m, l]))
    | _ => s) s

/-- R248, R260: row r of `accst` of data: an element that carries an error is written as the default NaN, marked poisoned. -/
def accstRow (cid : Nat) (e : SeqEnt) (o : Ops) (sat : Bool) (rm : Rm) (fmt : Fmt) (r : Nat) (s : State) : State :=
  let n := elemBits fmt / 8
  let k := entTile s cid e o.c
  let nan : Nat := match elemFmt fmt with | some f => (f.ofNan false).bits | none => 0
  let rs := (tileElems (s.core cid) k r).map (fun x =>
    if x.2 then (⟨nan, 0#5, true⟩ : MRes) else if n = 4 then ⟨x.1, 0#5, false⟩ else .of (convElem fmt sat rm x.1))
  (matWrite s cid e e.a (strideOf (128 * n) e.b) r (rs.flatMap (fun x => marked (bytesOf n x.bits) x.ps))).modCore cid
    (fun c => orTile c k (flagWord rs))
/-- R248: `accst.ml` and `accst.fl`. -/
def accstMl (cid : Nat) (e : SeqEnt) (o : Ops) (s : State) : State :=
  let k := entTile s cid e o.c
  (upTo 32).foldl (fun s r =>
    let c := s.core cid
    let m := MRes.guard (tileBad c (keyM k r)) ⟨tileMax c k r, 0#5, false⟩
    let l := MRes.guard (tileBad c (keyL k r)) ⟨tileSum c k r, 0#5, false⟩
    (matWrite s cid e (e.a + BitVec.ofNat 64 (8 * r)) 0 r (marked (bytesOf 4 m.bits) m.ps ++ marked (bytesOf 4 l.bits) l.ps)).modCore cid
      (fun c => orTile c k (flagWord [m, l]))) s
def accstFl (cid : Nat) (e : SeqEnt) (o : Ops) (s : State) : State :=
  let k := entTile s cid e o.c
  matWrite s cid e e.a 0 0 (marked (bytesOf 4 (Tbl.get 0#32 k (s.core cid).tileF).toNat) false)

/-- R246. -/
def acczTile (cid : Nat) (e : SeqEnt) (o : Ops) (sel : AccSel) (s : State) : State :=
  let k := entTile s cid e o.d
  s.modCore cid (fun c =>
    let c := if sel = .all || sel = .d then
      { c with tiles := c.tiles.filter (fun x => x.1 / 4096 != k), tileP := c.tileP.filter (fun x => x.1 / 4096 != k) } else c
    let c := if sel = .all || sel = .ml then
      (upTo 32).foldl (fun c r => setSide c k r ⟨0xFF800000, 0#5, false⟩ ⟨0, 0#5, false⟩) c else c
    if sel = .all || sel = .fl then { c with tileF := Tbl.put k 0#32 c.tileF } else c)

/-- R249: row r. -/
def accsclRow (cid : Nat) (e : SeqEnt) (o : Ops) (row : Bool) (r : Nat) (s : State) : State :=
  let (bs, po) := if row then moBytes s cid (entSp s cid e e.a (4 * r)) 4 else (bytesOf 4 e.a.toNat, false)
  let k := entTile s cid e o.d
  putRow s cid k r ((tileElems (s.core cid) k r).map (fun x =>
    MRes.guard (po || x.2) (.of (fmulAs fmt32 .rne (fmt32.decode x.1) (fmt32.decode (natOf bs))))))

/-! ### Online softmax (R251, R252) -/

/-- A value within `fixErr` units of m · 2^e rounded to a format under RNE, when both ends round alike. -/
def roundNearAs (f : FFmt) (m : Nat) (e : Int) : Option FR :=
  let lo := f.round .rne 0 false false (4 * (m - fixErr) + 1) (e - 2)
  let hi := f.round .rne 0 false false (4 * (m + fixErr) + 1) (e - 2)
  if lo.bits = hi.bits then some lo else none
def exp2At (f : FFmt) (n : Bool) (m : Nat) (e : Int) : List Nat → FR
  | [] => f.round .rne 0 false false 1 0
  | p :: t =>
    let (_, k, g) := exp2Fix n m e p
    match roundNearAs f k g with
    | some r => r
    | none => if t.isEmpty then f.round .rne 0 false false (4 * k + 1) (g - 2) else exp2At f n m e t
/-- 2^v rounded once to a format under RNE, for an exact argument. -/
def exp2As (f : FFmt) : FVal → FR
  | .nan s => f.ofNan s
  | .inf n => if n then ⟨0, 0#5⟩ else f.conv .rne 0 false (.inf false)
  | .fin n m e =>
    if m = 0 then f.round .rne 0 false false 1 0
    else if lg m + e ≥ 9 then f.round .rne 0 false false 1 (if n then -512 else 512)
    else if (quantise .rz 0 n m e 0).2 then exp2At f n m e precisions
    else
      let k : Int := (quantise .rz 0 n m e 0).1
      f.round .rne 0 false false 1 (if n then -k else k)

/-- The exact difference of two values, neither NaN, not the same infinity. -/
def fdiff (x y : FVal) : FVal :=
  match x, y with
  | .nan s, _ => .nan s
  | _, .nan s => .nan s
  | .inf n, _ => .inf n
  | _, .inf n => .inf (!n)
  | .fin a m e, .fin b n k =>
    let lo := min e k
    let v : Int := (if a then -1 else 1) * ((m * 2 ^ (e - lo).toNat : Nat) : Int)
      - (if b then -1 else 1) * ((n * 2 ^ (k - lo).toNat : Nat) : Int)
    .fin (decide (v < 0)) v.natAbs lo

/-- Numeric equality of two patterns (R251): false where one is a NaN. -/
def feq (x y : Nat) : Bool := (fcmpRes .eq x y).1

/-- What a row of `smx` leaves: O, P, M and L with the flags raised. -/
structure SmxRow where
  o : List Nat
  p : List Nat
  m : Nat
  l : Nat
  fl : Flags
  deriving DecidableEq, Repr

def flOr (rs : List FR) : Flags := rs.foldl (fun a r => a ||| r.fl) 0#5
/-- R251 on one row: `nv` valid columns of scores `sc`, the row `o` of O, its M and L. -/
def smxRow (scale nv : Nat) (sc o : List Nat) (m l : Nat) : SmxRow :=
  let ss := (sc.take nv).map (fun x => fmulAs fmt32 .rne (fmt32.decode scale) (fmt32.decode x))
  let mx := ss.foldl (fun (a : FR) x => let r := fminmax true false a.bits x.bits
    ⟨r.bits, a.fl ||| r.fl⟩) ⟨m, 0#5⟩
  if m = 0xFF800000 && ss.all (fun x => x.bits = 0xFF800000) then
    ⟨o, List.replicate 128 0, m, l, flOr ss⟩
  else
    let mv := fmt32.decode mx.bits
    let a : FR := if feq m mx.bits then ⟨0x3F800000, 0#5⟩ else exp2As fmt32 (fdiff (fmt32.decode m) mv)
    let ps := ss.map (fun x =>
      if x.bits = 0xFF800000 then (⟨0, 0#5⟩ : FR)
      else if feq x.bits mx.bits then ⟨0x3F80, 0#5⟩
      else exp2As fmtBf (fdiff (fmt32.decode x.bits) mv)) ++ List.replicate (128 - nv) ⟨0, 0#5⟩
    let pv := ps.map (fun x => fmtBf.decode x.bits)
    let lv := fmt32.decode l
    let av := fmt32.decode a.bits
    let ops := lv :: av :: pv
    let ln := matSum (ops.any FVal.isNan) (ops.any FVal.isSig) (fmulVal lv av :: pv.map some)
    let on := o.map (fun x => fmulAs fmt32 .rne (fmt32.decode x) av)
    ⟨on.map FR.bits, ps.map FR.bits, mx.bits, ln.bits, flOr ss ||| mx.fl ||| a.fl ||| flOr ps ||| ln.fl ||| flOr on⟩

/-- One row of `smx` on tiles: an uncorrectable error in a score, in M, in L or in an element of O reaches what is computed from it (R260). -/
def smxStep (cid : Nat) (e : SeqEnt) (o : Ops) (nv : BitVec 8) (r : Nat) (s : State) : State :=
  let c := s.core cid
  let kd := entTile s cid e o.d
  let n := if nv = 0#8 then 128 else nv.toNat
  let sc := tileElems c (entTile s cid e o.a) r
  let old := tileElems c kd r
  let x := smxRow (e.b.toNat % 2 ^ 32) n (sc.map (fun y => y.1)) (old.map (fun y => y.1)) (tileMax c kd r) (tileSum c kd r)
  let bad := (sc.take n).any (fun y => y.2) || tileBad c (keyM kd r)
  let all : List MRes := [MRes.guard bad ⟨x.m, 0#5, false⟩, MRes.guard (bad || tileBad c (keyL kd r)) ⟨x.l, 0#5, false⟩]
    ++ (x.o.zip old).map (fun y => MRes.guard (bad || y.2.2) ⟨y.1, 0#5, false⟩)
  (matSp s cid e e.c (256 * r) ((x.p.map (fun y => if bad then 0x7FC0 else y)).flatMap (bytesOf 2))).modCore cid (fun c =>
    orTile (setSide (setTileRow c kd r (all.drop 2)) kd r (nth ⟨0, 0#5, false⟩ 0 all) (nth ⟨0, 0#5, false⟩ 1 all)) kd
      (flagWord all ||| (if bad then 0#32 else x.fl.setWidth 32)))

/-- R252: a quotient under RNE. -/
def fdiv32 (x y : Nat) : FR :=
  match fmt32.decode x, fmt32.decode y with
  | .nan a, v => ⟨0x7FC00000, flIf (a || v.isSig) flIV⟩
  | v, .nan a => ⟨0x7FC00000, flIf (a || v.isSig) flIV⟩
  | .inf _, .inf _ => ⟨0x7FC00000, flIV⟩
  | .inf a, .fin b _ _ => ⟨fmt32.signed (a != b) 0x7F800000, 0#5⟩
  | .fin a _ _, .inf b => ⟨fmt32.signed (a != b) 0, 0#5⟩
  | .fin a m e, .fin b n k =>
    if n = 0 then (if m = 0 then ⟨0x7FC00000, flIV⟩ else ⟨fmt32.signed (a != b) 0x7F800000, flDZ⟩)
    else if m = 0 then ⟨fmt32.signed (a != b) 0, 0#5⟩
    else roundSticky (a != b) (m * 2 ^ 80 / n) (e - k - 80) (m * 2 ^ 80 % n = 0)
def smxfRow (cid : Nat) (e : SeqEnt) (o : Ops) (r : Nat) (s : State) : State :=
  let c := s.core cid
  let k := entTile s cid e o.d
  putRow s cid k r ((tileElems c k r).map (fun x =>
    MRes.guard (x.2 || tileBad c (keyL k r)) (.of (fdiv32 x.1 (tileSum c k r)))))

/-! ### Reductions and transposition (R253, R250) -/

/-- The sum of some elements under R32 with c = −0. -/
def onesSum (xs : List (Nat × Bool)) : MRes :=
  let vs := xs.map (fun x => fmt32.decode x.1)
  MRes.guard (xs.any (fun x => x.2))
    (.of (matSum (vs.any FVal.isNan) (vs.any FVal.isSig) (vs.map some ++ [some (.fin true 0 0)])))
def mredRow (cid : Nat) (e : SeqEnt) (o : Ops) (r : Nat) (s : State) : State :=
  let k := entTile s cid e o.a
  let x := onesSum (tileElems (s.core cid) k r)
  (matSp s cid e e.c (4 * r) (bytesOf 4 x.bits)).modCore cid (fun c => orTile c k (flagWord [x]))
def mredCol (cid : Nat) (e : SeqEnt) (o : Ops) (s : State) : State :=
  let k := entTile s cid e o.a
  let rows := (upTo 32).map (tileElems (s.core cid) k)
  let xs := (upTo 128).map (fun n => onesSum (rows.map (fun r => nth (0, false) n r)))
  (matSp s cid e e.c 0 (xs.flatMap (fun x => bytesOf 4 x.bits))).modCore cid (fun c => orTile c k (flagWord xs))

/-- R250: source row i, its bytes moved as they are; poisoned ones stay poisoned (log 45). -/
def mtrldRow (cid : Nat) (e : SeqEnt) (b8 : Bool) (i : Nat) (s : State) : State :=
  let n := if b8 then 1 else 2
  let bs := matRead s cid e e.a (strideOf (128 * n) e.b) i (128 * n)
  (upTo 128).foldl (fun s x => moPut s cid (entSp s cid e e.c (x * 256 + i * n)) ((bs.drop (x * n)).take n)) s

/-! ### The engine (R255–R259) -/

/-- The row steps of an operation: 0 where it has its one interrupt point at its end (R258). -/
def matRows : Instr → Nat
  | .accz _ _ | .accld _ .ml _ | .accst _ _ _ .ml _ | .accst _ _ _ .fl _ | .mred _ true => 0
  | .mtrld _ b8 => if b8 then 256 else 128
  | _ => 32

/-- One row step of an operation on a core. -/
def matRow (cid : Nat) (e : SeqEnt) (r : Nat) (s : State) : State :=
  match e.ins with
  | .mma o _ z | .mmaS o z | .mmaP o _ z => mmaRow cid e o z r s
  | .accld o _ fmt => accldRow cid e o fmt r s
  | .accst o sat rm _ fmt => accstRow cid e o sat rm fmt r s
  | .accscl o row => accsclRow cid e o row r s
  | .smx o nv => smxStep cid e o nv r s
  | .smxf o => smxfRow cid e o r s
  | .mred o _ => mredRow cid e o r s
  | .mtrld _ b8 => mtrldRow cid e b8 r s
  | _ => s
/-- An operation without row steps. -/
def matWhole (cid : Nat) (e : SeqEnt) (s : State) : State :=
  match e.ins with
  | .accz o sel => acczTile cid e o sel s
  | .accld o _ _ => accldMl cid e o s
  | .accst o _ _ side _ => if side = .ml then accstMl cid e o s else accstFl cid e o s
  | .mred o _ => mredCol cid e o s
  | _ => s
/-- Rows from the entry's next one to `stop` performed on one core. -/
def matRun (cid : Nat) (e : SeqEnt) (stop : Nat) (s : State) : State :=
  if matRows e.ins = 0 then matWhole cid e s
  else (rangeFrom e.row (stop - e.row)).foldl (fun s r => matRow cid e r s) s

/-- The cores whose engines run an entry: the issuing core, and for `mma.p` the core to its right (R243). -/
def matCores (e : SeqEnt) : List Nat :=
  match e.ins with
  | .mmaP _ _ _ => [cidOf e.gid, cidOf e.gid + 1]
  | _ => [cidOf e.gid]

/-- A varying A taken as its registers stand, but the words that were read before (R240, R256); an exited thread's row is +0. -/
def regsA (g : Group) (areg : Tbl W32) (n : Nat) : List W32 :=
  lanes.flatMap (fun l => (upTo 64).map (fun j =>
    match Tbl.find (64 * l + j) areg with
    | some w => w
    | none => if g.fmask.getLsbD l then g.vreg l (n + j) else 0#32))
/-- R241: A of an operation of a group, from the latch or from the registers, and the latch as the operation leaves it. A latched row is used
whole though its thread has exited since (R240 and R241 differ there: log 117); it then sets no flag. -/
def takeA (g : Group) (areg : Tbl W32) (latch : Option (Nat × List W32)) (gid n : Nat) (ru : Bool) : List W32 × Option (Nat × List W32) :=
  let own : Bool := match latch with | some (k, _) => k / 256 == gid | none => false
  let av := match latch with
    | some (k, ws) => if k = 256 * gid + n then ws else regsA g areg n
    | none => regsA g areg n
  (av, if ru && (latch.isNone || own) then some (256 * gid + n, av) else if own then none else latch)
/-- The varying A of an operation: its first register and RU. -/
def varyingA : Instr → Option (Nat × Bool)
  | .mma o ru _ | .mmaP o ru _ => match o.a with
    | .v n => some (n.toNat, ru)
    | _ => none
  | _ => none

/-- The same entry, in the queue of either core that runs it. -/
def SeqEnt.same (e x : SeqEnt) : Bool := x.ser = e.ser && x.gid = e.gid
/-- Whether an entry stands at the head of every engine that needs it. -/
def matHead (s : State) (e : SeqEnt) : Bool :=
  (matCores e).all (fun c => match (s.core c).mseq with | x :: _ => e.same x | [] => false)
/-- An entry changed wherever it stands. -/
def putEnt (s : State) (e e' : SeqEnt) : State :=
  (matCores e).foldl (fun s c => s.modCore c (fun y => { y with mseq := y.mseq.map (fun x => if e.same x then e' else x) })) s
def popEnt (s : State) (e : SeqEnt) : State :=
  (matCores e).foldl (fun s c => s.modCore c (fun y => { y with mseq := y.mseq.filter (fun x => !e.same x) })) s

/-- R256, R82: one register of one thread of a varying A is read before its operation begins. -/
def readA (s : State) (cid ser key : Nat) : State :=
  match (s.core cid).mseq.find? (fun e => e.ser = ser && cidOf e.gid = cid) with
  | none => s
  | some e => match varyingA e.ins with
    | none => s
    | some (n, _) =>
      let g := s.group e.gid
      if e.started || e.old != 0 || key ≥ 2048 || (Tbl.find key e.areg).isSome || !g.fmask.getLsbD (key / 64) then s
      else putEnt s e { e with areg := Tbl.put key (g.vreg (key / 64) (n + key % 64)) e.areg }

/-- Whether the team of an entry is stopped: its operations wait for the save (R303, R304). -/
def entHalted (s : State) (e : SeqEnt) : Bool :=
  e.old = 0 && ((s.team (s.tidOf e.gid)).st = .halted || (s.team (s.tidOf e.gid)).st = .saving)

/-- R255, R256: the engine begins the operation at the head of its queue; a discarded one leaves it (R299). -/
def matStart (s : State) (cid : Nat) : State :=
  match (s.core cid).mseq with
  | e :: _ =>
    if e.started || !matHead s e || entHalted s e then s
    else if e.old = 2 then popEnt s e
    else
      let lead := cidOf e.gid
      let s := putEnt s e { e with started := true }
      match varyingA e.ins with
      | some (n, ru) =>
        let g := s.group e.gid
        let (av, latch) := takeA g e.areg (s.core lead).latch e.gid n ru
        s.modCore lead (fun c => { c with aval := av, amask := g.fmask, latch := latch })
      | none => s.modCore lead (dropLatch [e.gid])
  | [] => s
def execMatrixOpStart (c : Nat) (s : State) : Host.Outcome State Fault Refusal := next (matStart s c)

/-- The rows of an operation up to `stop` performed on every core that runs it. -/
def matRunAll (e : SeqEnt) (stop : Nat) (s : State) : State :=
  (matCores e).foldl (fun s c => matRun c e (min stop (matRows e.ins)) s) s

/-- The interrupt points of an operation that lie ahead of a row, its end last (R258). -/
def stops (e : SeqEnt) : List Nat :=
  let n := matRows e.ins
  if n = 0 then [0] else (upTo ((n - e.row) / 16)).map (fun i => e.row + 16 * (i + 1))
/-- R258: the interrupt point at which a stop takes effect: any of those ahead, as far as the operation has come. -/
def stopAt (s : State) (e : SeqEnt) : Nat :=
  let l := stops e
  nth (matRows e.ins) ((Config.free s.fresh).toNat % l.length) l

/-- R259, R313, R324: a restoring team enters Run once its saved entries have retired, with every member of its cluster. -/
def releaseRestored (s : State) (tid : Nat) : State :=
  let ts := jobTeams s tid
  if ts.all (fun t => (s.team t).st = .restoring
      && (s.core (t / 8)).mseq.all (fun e => e.old != 0 || s.tidOf e.gid != t)) then
    ts.foldl (fun s t => s.modTeam t (fun x => { x with st := .run })) s
  else s

/-- R254: the running operation of a core performs its remaining rows and retires; one that its job's abnormal end discards
stops at an interrupt point (R258, R299). -/
def matRetire (s : State) (cid : Nat) : State :=
  match (s.core cid).mseq with
  | e :: _ =>
    if !e.started || !matHead s e then s
    else if e.old = 2 then popEnt (matRunAll e (stopAt s e) { s with fresh := s.fresh + 1 }) e
    else releaseRestored (popEnt (matRunAll e (matRows e.ins) s) e) (s.tidOf e.gid)
  | [] => s
def execMatrixOpRetire (c : Nat) (s : State) : Host.Outcome State Fault Refusal := next (matRetire s c)

/-- R258, R259: a stop of a team finds its running operation: it retires, or stops at an interrupt point before its end with its next row
kept in its entry. -/
def matHalt (s : State) (tid : Nat) : State :=
  match (s.core (tid / 8)).mseq with
  | e :: _ =>
    if e.started && matHead s e && s.tidOf e.gid = tid then
      let r := stopAt s e
      let s : State := { s with fresh := s.fresh + 1 }
      if r < matRows e.ins then putEnt (matRunAll e r s) e { e with started := false, row := r }
      else matRetire s (tid / 8)
    else s
  | [] => s

/-! ### Issue (R233, R236, R237) -/

/-- A uniform operand as captured at issue; one that is not uniform is captured as zero (R254, R310). -/
def capt (s : State) (x : At) (o : Ops) (opd : Opd) : W64 :=
  match opd with
  | .v _ => 0#64
  | _ => rd64 (s.group x.gid) x.env o.imm 0 opd
/-- The second register of a pair of uniform registers. -/
def capt1 (s : State) (x : At) : Opd → W64
  | .s n => (s.group x.gid).ureg (n.toNat + 1)
  | _ => 0#64

/-- R166, R167, R389, R418: rows of a global operand checked as one access: bounds, permission, lease, translation, each for the whole before
the next; a row whose address carries out of the region fails its bounds (log 126). -/
def globalRows (s : State) (c : Ctx) (u : Use) (reg : Nat) (rows : List W64) (len : Nat) : Except W32 (List (List Xl)) :=
  let bad := rows.map (fun a => if region a != reg then some fwRGNBND else boundsFault s c u a len)
  match bad.find? (fun f => f = some fwPGBAD || f = some fwRGNBND), bad.find? (fun f => f.isSome) with
  | some (some f), _ | _, some (some f) => .error f
  | _, _ =>
    if (match c.leases with | some ls => rows.any (fun a => !leaseOk ls u a len) | none => false) then .error fwLEASEOUT
    else rows.foldl (fun r a =>
      match r with
      | .error f => .error f
      | .ok xs => match translate s c u (a.extractLsb' 0 56).toNat len with
        | .ok y => .ok (xs ++ [y])
        | .error f => .error f) (.ok [])

/-- R233: the check of one operand's footprint: `n` rows of `len` bytes, `stride` apart; its translated rows where it is
global. -/
def footprint (s : State) (x : At) (u : Use) (glob : Bool) (align : Nat) (ptr : W64) (n stride len : Nat) :
    Except (W32 × W64) (List (List Xl)) :=
  let r := region ptr
  if r != 0xFF && (!glob || r ≥ 0xFB) then .error (fwAPERR, ptr)
  else if r = 0xFF then
    match checkAccess s x.gid 0 .sup ⟨u, (n - 1) * stride + len, align, false, false, true⟩ ptr with
    | .ok _ => .ok []
    | .error f => .error (f, ptr)
  else if ptr.toNat % align != 0 then .error (fwMISALIGN, ptr)
  else
    match globalRows s (s.ctx x.gid (accPriv (s.group x.gid) x true 0)) u r
        ((upTo n).map (fun i => ptr + BitVec.ofNat 64 (i * stride))) len with
    | .ok xs => .ok xs
    | .error f => .error (f, ptr)

/-- The first failing check of a list. -/
def firstFail : List (Except (W32 × W64) (List (List Xl))) → Except (W32 × W64) (List (List Xl))
  | [] => .ok []
  | .error f :: _ => .error f
  | .ok [] :: t => firstFail t
  | .ok xs :: t => match firstFail t with
    | .error f => .error f
    | .ok _ => .ok xs

/-- The number of the next entry of the queues of some cores. -/
def nextSer (s : State) (cs : List Nat) : Nat := 1 + (cs.flatMap (fun c => (s.core c).mseq.map (fun e => e.ser))).foldl max 0
/-- An entry joins the queues of the cores that run it, `mma.p` that of its follower too (R244, R254). -/
def queueEnt (s : State) (e : SeqEnt) : State :=
  let e := { e with ser := nextSer s (matCores e) }
  (matCores e).foldl (fun s c => s.modCore c (fun y => { y with mseq := y.mseq ++ [e] })) s
/-- A matrix instruction is accepted once its checks pass. -/
def matAccept (x : At) (i : Instr) (a b c c1 : W64) (chk : Except (W32 × W64) (List (List Xl))) (s : State) : Out :=
  match chk with
  | .error f => .fail s x.act f.1 f.2
  | .ok xl => .done (queueEnt s ⟨0, [], i, x.gid, 0, false, 0, xl, a, b, c, c1⟩)

/-- The checks of the operands of `mma`, `mma.s` and `mma.p` in operand order. -/
def mmaChecks (s : State) (x : At) (o : Ops) (a b c c1 : W64) : Except (W32 × W64) (List (List Xl)) :=
  let sp (align : Nat) (p : W64) (len : Nat) := footprint s x .load false align p 1 0 len
  firstFail ((if o.a.isV then [] else [sp 128 a (32 * rowBytes o.fmta)]) ++ [sp 128 b (128 * rowBytes o.fmtb)]
    ++ (if o.fmta.isMx then [sp 16 c (o.fmta.k)] else []) ++ (if o.fmtb.isMx then [sp 16 c1 (4 * o.fmtb.k)] else []))
def mmaBody (i : Instr) (o : Ops) (x : At) (s : State) : Out :=
  let a := capt s x o o.a
  let b := capt s x o o.b
  let c := capt s x o o.c
  let c1 := capt1 s x o.c
  matAccept x i a b c c1 (mmaChecks s x o a b c c1) s

def execMma (o : Ops) (ru z : Bool) (s : State) : Host.Outcome State Fault Refusal :=
  next (issue (.mma o ru z) s (mmaBody (.mma o ru z) o))
def execMmaS (o : Ops) (z : Bool) (s : State) : Host.Outcome State Fault Refusal :=
  next (issue (.mmaS o z) s (mmaBody (.mmaS o z) o))

/-- R243: the conditions of `mma.p`. -/
def pairOkAt (s : State) (gid : Nat) : Bool :=
  let cid := cidOf gid
  cid % 2 = 0
  && (match s.clusterOf (s.tidOf gid) with
    | some (_, c, _) => c.members.contains (cid + 1)
    | none => false)
  && (match s.jobOf gid with | some j => j.hdr.pairreq | none => false)
def execMmaP (o : Ops) (ru z : Bool) (s : State) : Host.Outcome State Fault Refusal :=
  next (issue (.mmaP o ru z) s fun x s =>
    if pairOkAt s x.gid then mmaBody (.mmaP o ru z) o x s else .fail s x.act fwMPAIR 0#64)

def execAccz (o : Ops) (sel : AccSel) (s : State) : Host.Outcome State Fault Refusal :=
  next (issue (.accz o sel) s fun x s => matAccept x (.accz o sel) 0#64 0#64 0#64 0#64 (.ok []) s)

/-- R428: the held leaves of the pages of an operand's rows, read again where their accession asks it. -/
def rereadRows (s : State) (x : At) (ptr : W64) (n stride len : Nat) : State :=
  (upTo n).foldl (fun s r => rereads s (s.ctx x.gid .sup) (ptr + BitVec.ofNat 64 (r * stride)) len) s

/-- R237: a stride out of its limits. -/
def strideBad (row : Nat) (x : W64) : Bool :=
  x != 0#64 && (decide (x.toNat < row) || decide (x.toNat > 2 ^ 24) || x.toNat % 16 != 0)

/-- `accld` and `accst`: the stride, then the footprint. -/
def accMemBody (i : Instr) (o : Ops) (u : Use) (side : Side) (fmt : Fmt) (x : At) (s : State) : Out :=
  let a := capt s x o o.a
  let b := capt s x o o.b
  let row := 128 * (elemBits fmt / 8)
  match side with
  | .data =>
    if strideBad row b then .fail s x.act fwMOPND 0#64
    else
      let s := rereadRows s x a 32 (strideOf row b) row
      matAccept x i a b 0#64 0#64 (footprint s x u true 16 a 32 (strideOf row b) row) s
  | .ml =>
    let s := rereadRows s x a 32 8 8
    matAccept x i a 0#64 0#64 0#64 (footprint s x u true 16 a 32 8 8) s
  | .fl => matAccept x i a 0#64 0#64 0#64 (footprint s x u true 16 a 1 4 4) s
def execAccld (o : Ops) (side : Side) (fmt : Fmt) (s : State) : Host.Outcome State Fault Refusal :=
  next (issue (.accld o side fmt) s (accMemBody (.accld o side fmt) o .load side fmt))
def execAccst (o : Ops) (sat : Bool) (rm : Rm) (side : Side) (fmt : Fmt) (s : State) : Host.Outcome State Fault Refusal :=
  next (issue (.accst o sat rm side fmt) s (accMemBody (.accst o sat rm side fmt) o .store side fmt))

def execAccscl (o : Ops) (row : Bool) (s : State) : Host.Outcome State Fault Refusal :=
  next (issue (.accscl o row) s fun x s =>
    let a := capt s x o o.a
    matAccept x (.accscl o row) a 0#64 0#64 0#64 (if row then footprint s x .load false 128 a 1 0 128 else .ok []) s)
def execSmx (o : Ops) (nv : BitVec 8) (s : State) : Host.Outcome State Fault Refusal :=
  next (issue (.smx o nv) s fun x s =>
    let c := capt s x o o.c
    matAccept x (.smx o nv) 0#64 (capt s x o o.b) c 0#64 (footprint s x .store false 128 c 1 0 8192) s)
def execSmxf (o : Ops) (s : State) : Host.Outcome State Fault Refusal :=
  next (issue (.smxf o) s fun x s => matAccept x (.smxf o) 0#64 0#64 0#64 0#64 (.ok []) s)
def execMred (o : Ops) (col : Bool) (s : State) : Host.Outcome State Fault Refusal :=
  next (issue (.mred o col) s fun x s =>
    let c := capt s x o o.c
    matAccept x (.mred o col) 0#64 0#64 c 0#64 (footprint s x .store false 128 c 1 0 (if col then 512 else 128)) s)

/-- R250: stride, source, destination, overlap. The overlap is that of the source's rows, not of the gaps between them (log 118). -/
def mtrldBody (o : Ops) (b8 : Bool) (x : At) (s : State) : Out :=
  let n := if b8 then 1 else 2
  let a := capt s x o o.a
  let b := capt s x o o.b
  let c := capt s x o o.c
  let rows := 256 / n
  let st := strideOf (128 * n) b
  let s := rereadRows s x a rows st (128 * n)
  if strideBad (128 * n) b then .fail s x.act fwMOPND 0#64
  else match footprint s x .load true 16 a rows st (128 * n) with
    | .error f => .fail s x.act f.1 f.2
    | .ok xl => match footprint s x .store false 128 c 1 0 32768 with
      | .error f => .fail s x.act f.1 f.2
      | .ok _ =>
        let lo := (c.extractLsb' 0 56).toNat
        let src := (a.extractLsb' 0 56).toNat
        if region a = 0xFF && (upTo rows).any (fun r =>
            decide (src + r * st < lo + 32768) && decide (lo < src + r * st + 128 * n)) then .fail s x.act fwMOPND 0#64
        else matAccept x (.mtrld o b8) a b c 0#64 (.ok xl) s
def execMtrld (o : Ops) (b8 : Bool) (s : State) : Host.Outcome State Fault Refusal :=
  next (issue (.mtrld o b8) s (mtrldBody o b8))

end Sys2Proof.Machine
end

