-- ==== Sys2Proof/Machine/Copies.lean ====
section
/-!
DEFINITION. Copies, templates, baskets and synchronisation words (10: R262–R292, R484).
-/

namespace Sys2Proof.Machine

def fwCPTMPL : W32 := 0x21906001#32
def fwCPWORD : W32 := 0x21906002#32
def fwCPMC : W32 := 0x21906003#32
def fwCPOVL : W32 := 0x21906004#32
def fwCPRXBND : W32 := 0x40303001#32
def fwCPLOST : W32 := 0x40303002#32

/-! ### Templates (R270–R274) -/

/-- The fields of a template (R270). -/
structure Tmpl where
  ctrl : W32
  bofs : W32
  src : W64
  tw : Nat
  th : Nat
  td : Nat
  lpitch : Nat
  dim0 : Nat
  dim1 : Nat
  dim2 : Nat
  expect : Nat
  str1 : W64
  str2 : W64
  srkey : W64
  deriving DecidableEq, Repr

def parseTmpl (t : BitVec 512) : Tmpl :=
  let w (i n : Nat) : Nat := (t.extractLsb' (8 * i) (8 * n)).toNat
  ⟨t.extractLsb' 0 32, t.extractLsb' 32 32, t.extractLsb' 64 64, w 0x10 2, w 0x12 2, w 0x14 2, w 0x16 2, w 0x18 4, w 0x1C 4, w 0x20 4,
    w 0x24 4, t.extractLsb' 0x140 64, t.extractLsb' 0x180 64, t.extractLsb' 0x1C0 64⟩

def Tmpl.kind (t : Tmpl) : Nat := (t.ctrl.extractLsb' 0 4).toNat
def Tmpl.sfmt (t : Tmpl) : Fmt := .ofCode (t.ctrl.extractLsb' 4 4)
def Tmpl.dfmt (t : Tmpl) : Fmt := .ofCode (t.ctrl.extractLsb' 8 4)
def Tmpl.rmBits (t : Tmpl) : BitVec 3 := t.ctrl.extractLsb' 12 3
def Tmpl.rm (t : Tmpl) : Rm :=
  match t.rmBits.toNat with
  | 1 => .rz
  | 2 => .ru
  | 3 => .rd
  | 4 => .sr
  | _ => .rne
def Tmpl.sat (t : Tmpl) : Bool := t.ctrl.getLsbD 15
def Tmpl.mcast (t : Tmpl) : BitVec 12 := t.ctrl.extractLsb' 16 12
def Tmpl.rowBytes (t : Tmpl) : Nat := t.tw * elemBits t.dfmt / 8
def Tmpl.pitch (t : Tmpl) : Nat := if t.lpitch = 0 then t.rowBytes else 16 * t.lpitch
/-- R273: bytes landed at each receiver, and the bytes from the first landed to the last. -/
def Tmpl.bytes (t : Tmpl) : Nat := t.td * t.th * t.rowBytes
def Tmpl.extent (t : Tmpl) : Nat := (t.td * t.th - 1) * t.pitch + t.rowBytes

/-- R19: where SR may convert. -/
def srOk (a b : Fmt) : Bool :=
  a != b && (elemFmt a).isSome && (elemFmt b).isSome && elemBits b ≤ 16 && elemBits a ≥ elemBits b
/-- Bytes of an element that must be aligned (R274). -/
def elemAlign (f : Fmt) : Nat := if elemBits f = 32 then 4 else if elemBits f = 16 then 2 else 1
def globalRegion (a : W64) : Bool := decide (region a ≤ 0xFA)

/-- R274: whether the core accepts a template image. -/
def Tmpl.ok (t : Tmpl) : Bool :=
  let k := t.kind
  let flat : Bool := t.td = 1 && t.dim2 = 1
  let z (x : W64) : Bool := x = 0#64
  k ≤ 4 && t.ctrl.extractLsb' 28 4 = 0#4 && t.bofs.extractLsb' 17 15 = 0#15 && t.str1.extractLsb' 48 16 = 0#16
  && 1 ≤ t.tw && t.tw ≤ 4096 && 1 ≤ t.th && t.th ≤ 4096 && 1 ≤ t.td && t.td ≤ 4096
  && (match k with
    | 0 | 4 => flat && z t.str2
    | 2 => flat
    | 3 => z t.src && t.dim0 = 0 && t.dim1 = 0 && t.dim2 = 0 && z t.str1 && z t.str2 && t.sfmt = t.dfmt
    | _ => true)
  && t.rmBits.toNat ≤ 4 && (t.rm != .sr || srOk t.sfmt t.dfmt)
  && (k = 3 || globalRegion t.src)
  && (k != 2 || ((region t.str2 = 0xFF || globalRegion t.str2) && t.str2.toNat % 4 = 0))
  && (!(t.sfmt.isMx || t.dfmt.isMx) || (t.sfmt = t.dfmt && t.tw % 32 = 0))
  && t.tw * elemBits t.dfmt % 128 = 0 && t.tw * elemBits t.sfmt % 8 = 0
  && t.src.toNat % elemAlign t.sfmt = 0 && t.str1.toNat % elemAlign t.sfmt = 0 && t.str2.toNat % elemAlign t.sfmt = 0
  && (t.lpitch = 0 || t.lpitch ≥ t.rowBytes / 16) && t.expect = t.bytes && t.extent ≤ 2 ^ 21

/-- R269: the key of a slot of a team among its core's templates. -/
def tmplKey (tid slot : Nat) : Nat := 32 * (tid % 8) + slot
def State.tmplOf (s : State) (tid slot : Nat) : Option (BitVec 512) := Tbl.find (tmplKey tid slot) (s.core (tid / 8)).tmpl

/-! ### The copy word (R265) -/

def cwSlot (w : BitVec 128) : Nat := (w.extractLsb' 0 5).toNat
def cwCx (w : BitVec 128) : Nat := (w.extractLsb' 8 24).toNat
def cwCy (w : BitVec 128) : Nat := (w.extractLsb' 32 24).toNat
def cwCz (w : BitVec 128) : Nat := (w.extractLsb' 64 24).toNat
def cwLofs (w : BitVec 128) : Nat := (w.extractLsb' 88 17).toNat
def cwBdel (w : BitVec 128) : Nat := (w.extractLsb' 105 17).toNat
def cwRes (w : BitVec 128) : Bool := w.extractLsb' 122 6 != 0#6 || w.extractLsb' 56 8 != 0#8 || w.extractLsb' 5 3 != 0#3

/-- R275: landing address and synchronisation word of a team, as offsets in its allocation. -/
def landAt (s : State) (tid : Nat) (w : BitVec 128) : Nat :=
  ((s.team tid).lbase.extractLsb' 4 17).toNat * 16 + cwLofs w * 16
def wordAt (s : State) (tid : Nat) (t : Tmpl) (w : BitVec 128) : Nat :=
  (((s.team tid).lbase.extractLsb' 4 17).toNat * 16 + ((t.bofs.extractLsb' 0 17).toNat + cwBdel w) * 16) % 2 ^ 21
/-- Whether a landing extent and a word overlap. -/
def landMeets (l n w : Nat) : Bool := decide (w < l + n) && decide (l < w + 16)

/-- R275: the receiving cores of a command. -/
def receivers (t : Tmpl) (mem : List Nat) (cid : Nat) : List Nat :=
  if t.mcast = 0#12 then [cid]
  else ((mem.zip (upTo mem.length)).filter (fun e => t.mcast.getLsbD e.2)).map (fun e => e.1)

/-- The member cores of a team's cluster job; none outside one. -/
def memberCores (s : State) (tid : Nat) : List Nat :=
  match s.clusterOf tid with
  | some (_, c, _) => c.members
  | none => []

/-! ### Issue of a copy (R264–R267) -/

/-- R266: the first failing check of a command, with the template's slot as it stands. -/
def copyFault (s : State) (gid : Nat) (w : BitVec 128) : Option W32 :=
  let tid := s.tidOf gid
  let cid := cidOf gid
  match s.tmplOf tid (cwSlot w) with
  | none => some fwCPWORD
  | some tb =>
    let t := parseTmpl tb
    let mem := memberCores s tid
    if cwRes w || (cwCz w != 0 && (t.kind = 0 || t.kind = 2 || t.kind = 4)) then some fwCPWORD
    else if t.mcast != 0#12 && (mem.isEmpty || decide (t.mcast.toNat ≥ 2 ^ mem.length)) then some fwCPMC
    else if (receivers t mem cid).contains cid then
      let l := landAt s tid w
      let v := wordAt s tid t w
      if l + t.extent > s.spLimit cid || v + 16 > s.spLimit cid then some fwSPBND
      else if landMeets l t.extent v then some fwCPOVL
      else none
    else none

/-- R264: the check of an aperture address. -/
def apertureFault (a : W64) : Option W32 :=
  if a.extractLsb' 10 46 != 0#46 || a.extractLsb' 4 3 != 0#3 then some fwAPERR
  else if a.extractLsb' 0 4 != 0#4 then some fwMISALIGN
  else none

/-- The copy word that the data registers hold. -/
def copyWord (g : Group) (e : Env) (o : Ops) : BitVec 128 := BitVec.ofNat 128 (natOf (dataBytes g e 0 o.c 16))
/-- The channel that an aperture address names. -/
def chanOf (a : W64) : Nat := (a.extractLsb' 7 3).toNat

/-- A copy command: it raises CPC and waits for its channel (R267). -/
def copyBody (o : Ops) (x : At) (s : State) : Out :=
  let g := s.group x.gid
  let a := addrOf g x.env o 0
  match apertureFault a with
  | some f => .fail s x.act f a
  | none =>
    let w := copyWord g x.env o
    match copyFault s x.gid w with
    | some f => .fail s x.act f 0#64
    | none =>
      let q := (s.core (cidOf x.gid)).cseq
      let cmd : CopyCmd := ⟨chanOf a, w, g.bcount.toNat, q, memberCores s (s.tidOf x.gid), o, rd64 g x.env 0#32 0 o.a, indexOf g x.env o 0⟩
      .done ((s.modGroup x.gid (fun g => { g with cps := g.cps ++ [cmd] })).modCore (cidOf x.gid)
        (fun c => { c with cseq := q + 1 }))
/-- R190: a store of that shape is a copy command in region 0xFC, whatever its cache hint (R173); elsewhere it is a store. -/
def copyOrStore (i : Instr) (o : Ops) (x : At) (s : State) : Out :=
  if region (addrOf (s.group x.gid) x.env o 0) = 0xFC then copyBody o x s else storeBody i o .b128 x s
def execCopy (o : Ops) (s : State) : Host.Outcome State Fault Refusal :=
  next (issue (.copy o) s (copyOrStore (.st o .normal .thr .plain .b128) o))

/-- The operands of an instruction with the shape of a copy command. -/
def copyOps : Instr → Option Ops
  | .copy o => some o
  | .st o _ _ ord size => if size = .b128 && ord = .plain && o.copyShape then some o else none
  | _ => none
def execSt (o : Ops) (ch : Ch) (scope : Scope) (ord : MOrd) (size : Size) (s : State) : Host.Outcome State Fault Refusal :=
  let i : Instr := .st o ch scope ord size
  next (issue i s (if (copyOps i).isSome then copyOrStore i o else storeBody i o size))

/-! ### Acceptance (R267, R268) -/

/-- The rows that a command reads of its source: address and bytes of each row with a valid element, and its number in landing
order; for a gather the rows of its indices. `idx` gives the index entries. -/
structure SrcRow where
  row : Nat
  addr : W64
  first : Nat
  cols : Nat
  deriving DecidableEq, Repr

def Tmpl.gather (t : Tmpl) : Bool := t.kind = 2
/-- First column of the tile, and the columns of it that exist (R271). -/
def Tmpl.col0 (t : Tmpl) (w : BitVec 128) : Nat := (if t.gather then cwCy w else cwCx w) * t.tw
def Tmpl.cols (t : Tmpl) (w : BitVec 128) : Nat := min t.tw (t.dim0 - t.col0 w)
/-- Source bytes of a row's existing columns. -/
def Tmpl.segBytes (t : Tmpl) (w : BitVec 128) : Nat := (t.cols w * elemBits t.sfmt + 7) / 8
/-- The address of a source row (R271), none for a tail row. -/
def Tmpl.rowAddr (t : Tmpl) (w : BitVec 128) (idx : Nat → Nat) (n : Nat) : Option W64 :=
  let i := n % t.th
  let k := n / t.th
  let (row, plane) := if t.gather then (idx i, 0) else (cwCy w * t.th + i, if t.kind = 1 then cwCz w * t.td + k else 0)
  if t.kind = 3 || row ≥ t.dim1 || plane ≥ t.dim2 || t.cols w = 0 then none
  else some (t.src + BitVec.ofNat 64 (if t.gather then 0 else plane * t.str2.toNat) + BitVec.ofNat 64 (row * t.str1.toNat)
    + BitVec.ofNat 64 (t.col0 w * elemBits t.sfmt / 8))
/-- The rows of a command in landing order (R273): plane, then row. -/
def Tmpl.rows (t : Tmpl) : List Nat := upTo (t.td * t.th)

/-- R268: the source footprint of a command that is known at acceptance lies in the job's leases. -/
def footprintLeased (ls : List Lease) (t : Tmpl) (w : BitVec 128) : Bool :=
  if t.gather then
    region t.str2 = 0xFF || leaseOk ls .load (t.str2 + BitVec.ofNat 64 (4 * cwCx w)) (4 * t.th)
  else t.rows.all (fun n => match t.rowAddr w (fun _ => 0) n with
    | some a => leaseOk ls .load a (t.segBytes w)
    | none => true)

/-- The commands of a core that wait for a channel: group, whether it still counts the command, the job, the command. -/
structure Waiting where
  gid : Nat
  live : Bool
  job : Option JobRec
  cmd : CopyCmd
  deriving DecidableEq, Repr

def waitingCmds (s : State) (cid : Nat) : List Waiting :=
  (rangeFrom (32 * cid) 32).flatMap (fun g => (s.group g).cps.map (fun k => ⟨g, true, (s.jobOf g).map (fun j => j.r), k⟩))
  ++ (s.die (dieOf cid)).reports.flatMap (fun r => if r.cid = cid then r.cps.map (fun e => ⟨e.1, false, some r.job, e.2⟩) else [])
/-- The oldest waiting command of a channel. -/
def oldestCmd (l : List Waiting) : Option Waiting :=
  match l with
  | [] => none
  | x :: t => some (t.foldl (fun a b => if b.cmd.seq < a.cmd.seq then b else a) x)

/-- A command leaves where it waited. -/
def dropWaiting (s : State) (cid : Nat) (x : Waiting) : State :=
  if x.live then s.modGroup x.gid (fun g => { g with cps := g.cps.filter (fun k => k.seq != x.cmd.seq) })
  else s.modDie (dieOf cid) (fun d => { d with reports := d.reports.map (fun r =>
    if r.cid = cid then { r with cps := r.cps.filter (fun e => !(e.1 = x.gid && e.2.seq = x.cmd.seq)) } else r) })

/-- R82, R267: a waiting command with chosen source registers read again: bits 0 and 1 of `late` for the data pair, 2 for A, 3 for B. A word that
R266 or an address that R264 would refuse is not taken (log 8); nor is one of a group whose job has ended. -/
def lateCmd (s : State) (x : Waiting) (late : BitVec 4) : CopyCmd :=
  let k := x.cmd
  if !x.live || late = 0#4 then k
  else
    let g := s.group x.gid
    let e := s.env x.gid
    let now := copyWord g e k.ops
    let w : BitVec 128 := (if late.getLsbD 1 then now.extractLsb' 64 64 else k.word.extractLsb' 64 64)
      ++ (if late.getLsbD 0 then now.extractLsb' 0 64 else k.word.extractLsb' 0 64)
    let a := formAddr k.ops (if late.getLsbD 2 then rd64 g e 0#32 0 k.ops.a else k.base)
      (if late.getLsbD 3 then indexOf g e k.ops 0 else k.idx)
    { k with word := if (copyFault s x.gid w).isNone then w else k.word
             chan := if region a = 0xFC && (apertureFault a).isNone then chanOf a else k.chan }

/-- R267, R268: a channel with room takes its oldest waiting command, unless an earlier `tset` of its team still waits. -/
def copyAccept (s : State) (cid ch : Nat) (late : BitVec 4) : State :=
  match oldestCmd ((waitingCmds s cid).filter (fun x => x.cmd.chan = ch)) with
  | none => s
  | some x =>
    let tid := s.tidOf x.gid
    let c := s.core cid
    let k := lateCmd s x late
    if (c.copies.filter (fun y => y.chan = k.chan)).length ≥ 16
        || c.tsq.any (fun e => s.tidOf e.1 = tid && decide (e.2 < k.seq)) then s
    else
      let s := dropWaiting s cid x
      match s.tmplOf tid (cwSlot k.word) with
      | none => s
      | some tb =>
        if (match x.job with | some j => !footprintLeased j.leases (parseTmpl tb) k.word | none => false) then
          (if x.live then endJob s tid fwLEASEOUT true else s)
        else
          let acc := match x.job with | some j => j.jacc | none => (s.part (s.pnum cid)).aacc
          s.modCore cid (fun c => { c with copies := c.copies ++
            [⟨x.gid, x.live, tid, k.basket, k.chan, tb, k.word, x.job, acc, k.mem, none, [], [], none, false⟩] })
def execCopyAccept (c : Nat) (ch : CopyPick) (s : State) : Host.Outcome State Fault Refusal := next (copyAccept s c ch.chan ch.late)

/-! ### Source reads and conversion (R271, R272, R484) -/

/-- The context of a command's source reads. -/
def copyCtx (s : State) (cid : Nat) (x : Copy) : Ctx :=
  ⟨s.pnum cid, dieOf cid, x.acc, x.job.map (fun j => j.leases), x.job.isSome⟩

/-- R271: the index entries of a gather, or the fault of reading them. -/
def indexList (s : State) (cid : Nat) (x : Copy) (t : Tmpl) : Except W32 (List Nat) :=
  let a := t.str2 + BitVec.ofNat 64 (4 * cwCx x.word)
  if region a != region t.str2 then .error (if region t.str2 = 0xFF then fwSPBND else fwRGNBND)
  else if region a = 0xFF then
    let low := (a.extractLsb' 0 56).toNat
    if low + 4 * t.th ≤ s.spLimit cid then
      .ok (unpackElems 32 t.th (valueOf (s.spSee cid 3 (x.tid % 8 * s.spLimit cid + low) (4 * t.th))))
    else .error fwSPBND
  else match globalBytes s (copyCtx s cid x) .load a (4 * t.th) with
    | .ok bs => .ok (unpackElems 32 t.th bs)
    | .error f => .error f

/-- R272: one element converted; a widening takes no saturation (R24). -/
def convCopy (a b : Fmt) (rm : Rm) (sat : Bool) (rb : Nat) (x : Nat) : Nat :=
  if a = b then x
  else match elemFmt b with
    | some f => (f.conv rm rb (sat && elemBits b ≤ elemBits a) (elemVal a x)).bits
    | none => match elemFmt a with
      | some _ => (toInt (elemBits b) true rm (elemVal a x)).bits
      | none => if elemBits b = 8 then wrap 8 (sint 4 x) else wrap 4 (max (-8) (min 7 (sint 8 x)))

/-- The translated parts of a command's rows in landing order, up to the first whose checks fail, and that row's fault. -/
def sourceRows (s : State) (cid : Nat) (x : Copy) (t : Tmpl) : List (Option (List Xl)) × Option W32 :=
  let idx : Except W32 (List Nat) := if t.gather then indexList s cid x t else .ok []
  match idx with
  | .error f => ([], some f)
  | .ok ix =>
    t.rows.foldl (fun a n =>
      match a with
      | (l, some f) => (l, some f)
      | (l, none) => match t.rowAddr x.word (fun i => nth 0 i ix) n with
        | none => (l ++ [none], none)
        | some ad =>
          if region ad != region t.src then (l, some fwRGNBND)
          else match globalAccess s (copyCtx s cid x) .load ad (t.segBytes x.word) with
          | .ok xs => (l ++ [some xs], none)
          | .error f => (l, some f)) ([], none)

/-- The naturally aligned chunks of 16 bytes of a source row: place in the row, physical address, bytes. -/
structure Chunk where
  ofs : Nat
  pa : Nat
  len : Nat
  deriving DecidableEq, Repr
def chunksOf : Nat → Nat → Nat → Nat → List Chunk
  | 0, _, _, _ => []
  | n + 1, ofs, pa, len =>
    if len = 0 then []
    else
      let k := min len (16 - pa % 16)
      ⟨ofs, pa, k⟩ :: chunksOf n (ofs + k) (pa + k) (len - k)
/-- The chunks of a row's parts. -/
def rowChunks (ofs : Nat) : List Xl → List Chunk
  | [] => []
  | x :: t => chunksOf (x.len / 16 + 2) ofs x.pa x.len ++ rowChunks (ofs + x.len) t

/-- A row as it lands, of its existing source bytes: each element converted, zeros past the source's width; an element of a poisoned byte is
poisoned (R272, R273, R289). -/
def landRow (x : Copy) (t : Tmpl) (n : Nat) (src : Option (List MByte)) : List MByte :=
  match src with
  | none => List.replicate t.rowBytes (0#8, false)
  | some bs =>
    let cols := t.cols x.word
    let sb := elemBits t.sfmt
    let es := unpackElems sb cols (valueOf bs)
    let out := ((upTo t.tw).zip (es ++ List.replicate (t.tw - cols) 0)).map (fun e =>
      if e.1 < cols then convCopy t.sfmt t.dfmt t.rm t.sat (srBits t.srkey x.word (n * t.tw + e.1)) e.2 else 0)
    let from_ (e : Nat) : Bool :=
      decide (e < cols) && ((bs.drop (sb * e / 8)).take ((sb * e + sb + 7) / 8 - sb * e / 8)).any (fun b => b.2)
    let bad (i : Nat) : Bool :=
      let e := 8 * i / elemBits t.dfmt
      (rangeFrom e ((8 * i + 7) / elemBits t.dfmt + 1 - e)).any from_
    let some_ := bs.any (fun b => b.2)
    (bytesOf t.rowBytes (out.foldr (fun e a => e % 2 ^ elemBits t.dfmt + 2 ^ elemBits t.dfmt * a) 0)).zipIdx.map (fun e =>
      (e.1, some_ && bad e.2))

/-- R275: a receiver's share of a command, not begun. -/
def newShare (x : Copy) (rx : Nat) : Share := ⟨rx, x.tid % 8, false, 0, 0, 0⟩
/-- R275: a share begins: its landing address and word by its team's LBASE. -/
def startShare (s : State) (x : Copy) (h : Share) : Share :=
  let tid := 8 * h.cid + h.team
  let lo := h.team * s.spLimit h.cid
  { h with begun := true, base := lo + landAt s tid x.word, word := lo + wordAt s tid (parseTmpl x.tmpl) x.word }

/-! ### Landing (R276, R280, R289) -/

/-- The end of the job of a receiving team. -/
def endReceiver (s : State) (cid team : Nat) (w : W32) : State :=
  if (s.team (8 * cid + team)).job.isSome then endJob s (8 * cid + team) w true else s

/-- The path of a command (R216): 1 copy, 3 gather. -/
def Copy.path (x : Copy) : Nat := if isGather x then 3 else 1

/-- R276: a share whose extent or word does not lie as it must: RXBND in its word, or the end of the receiver's job. -/
def refuseShare (s : State) (path : Nat) (h : Share) (expect extent : Nat) : Option State :=
  let lo := h.team * s.spLimit h.cid
  let hi := lo + s.spLimit h.cid
  let wordIn : Bool := decide (lo ≤ h.word) && decide (h.word + 16 ≤ hi)
  let meets := landMeets h.base extent h.word
  if h.base + extent ≤ hi && wordIn && !meets then none
  else if wordIn && !meets then some (arrive s path h.cid h.word expect 16)
  else some (endReceiver s h.cid h.team fwCPRXBND)

/-- Replace the copy at a position of a core. -/
def setCopy (s : State) (cid ix : Nat) (x : Copy) : State :=
  s.modCore cid (fun c => { c with copies := setNth x ix c.copies })
/-- A copy with nothing left to land has ended, unless a part of its source is still to fail. -/
def endCopy (s : State) (cid ix : Nat) (x : Copy) (shares : List Share) : State :=
  if shares.isEmpty && x.bad.isNone then s.modCore cid (fun c => { c with copies := delNth ix c.copies })
  else setCopy s cid ix { x with shares := some shares }

/-- Whether a command may begin: no earlier command of its channel has yet to (R267). -/
def mayBegin (s : State) (cid ix : Nat) (x : Copy) : Bool :=
  ((s.core cid).copies.take ix).all (fun y => y.chan != x.chan || y.shares.isSome)

/-- A command begins, with the rows of its source that can be read (R275, R484); one whose first row fails does not. -/
def copyBegin (s : State) (cid ix : Nat) (x : Copy) : Option Copy :=
  match x.shares with
  | some _ => some x
  | none =>
    let t := parseTmpl x.tmpl
    let r := sourceRows s cid x t
    if mayBegin s cid ix x && !(r.1.isEmpty && r.2.isSome) then
      some { x with rows := r.1, bad := r.2, shares := some ((receivers t x.mem cid).map (newShare x)) }
    else none

/-- The bytes of a part that lands together: at most 128, and no element of the landing format is split. -/
def partLen (f : Fmt) (bytes : Nat) : Nat :=
  let k := if elemBits f = 6 then 48 else 16
  min (128 / k * k) (max k (bytes / k * k))

/-- A part of a share: its row, its place in the row, its bytes, the row's chunks that it draws from. -/
structure Piece where
  row : Nat
  ofs : Nat
  len : Nat
  src : Option (List Chunk)
  deriving DecidableEq, Repr
/-- The next part of a share, of at most `n` bytes within one row. -/
def nextPart (x : Copy) (t : Tmpl) (h : Share) (n : Nat) : Piece :=
  let row := h.pos / t.rowBytes
  let ofs := h.pos % t.rowBytes
  let len := min n (t.rowBytes - ofs)
  let e0 := 8 * ofs / elemBits t.dfmt
  let e1 := min (8 * (ofs + len) / elemBits t.dfmt) (t.cols x.word)
  let lo := e0 * elemBits t.sfmt / 8
  let hi := (e1 * elemBits t.sfmt + 7) / 8
  ⟨row, ofs, len, (nth none row x.rows).map (fun xs => (rowChunks 0 xs).filter (fun c => decide (c.ofs < hi) && decide (lo < c.ofs + c.len)))⟩

/-- The way of a part that a command draws from one chunk to a receiver: from the issuing core to the home slice and on (R287, R355, R358). -/
def pieceLinks (s : State) (cid rx : Nat) (c : Chunk) : List Link :=
  route (coreAt s cid) (sliceAt c.pa) ++ homeLinks c.pa ++ route (sliceAt c.pa) (coreAt s rx)
/-- Whether a part meets a dead path (R289, R357); one without a source comes from the issuing core. -/
def partDead (s : State) (cid rx : Nat) (p : Piece) : Bool :=
  match p.src with
  | some (c :: cs) => (c :: cs).any (fun c => (c.pa / 2 ^ 51 % 2 = 1 && s.hub.watis = 0#2) || !routeAlive s (pieceLinks s cid rx c))
  | _ => !peerUp s cid rx
/-- R357: whether a reroute takes a packet from one site to another. -/
def rerouteUp (s : State) (a b : Site) : Bool := routeAlive s (route a b) || (reroutes a b).any (routeAlive s)
/-- Whether a part reaches its receiver by the plain ways or by reroutes. -/
def partReroutes (s : State) (cid rx : Nat) (p : Piece) : Bool :=
  match p.src with
  | some (c :: cs) => (c :: cs).all (fun c => rerouteUp s (coreAt s cid) (sliceAt c.pa) && rerouteUp s (sliceAt c.pa) (coreAt s rx)
      && routeAlive s (homeLinks c.pa) && (c.pa / 2 ^ 51 % 2 = 0 || s.hub.watis != 0#2))
  | _ => rerouteUp s (coreAt s cid) (coreAt s rx)
/-- Whether the curator of a core's die reaches a receiver at all (R289). -/
def curatorReaches (s : State) (cid rx : Nat) : Bool :=
  !(s.core rx).lost && rerouteUp s ⟨dieOf cid, curRow s (dieOf cid), 8⟩ (coreAt s rx)

/-- The key of a chunk of a row among those read, and the chunk read at its home if it has not been (R287). -/
def chunkKey (row : Nat) (c : Chunk) : Nat := 2 ^ 12 * row + (c.ofs + 15) / 16
def readChunk (s : State) (row : Nat) (x : Copy) (c : Chunk) : Copy :=
  if (Tbl.find (chunkKey row c) x.got).isSome then x
  else { x with got := Tbl.put (chunkKey row c) (marked (s.mem.peeks c.pa c.len) (s.mem.isPois (c.pa / 128))) x.got }
/-- The chunks of a part read. -/
def readPart (s : State) (x : Copy) (p : Piece) : Copy :=
  match p.src with
  | some cs => cs.foldl (readChunk s p.row) x
  | none => x
/-- A row's source bytes as far as they have been read, zeros elsewhere. -/
def rowBytesOf (x : Copy) (row : Nat) : Option (List MByte) :=
  (nth none row x.rows).map (fun xs => (rowChunks 0 xs).flatMap (fun c =>
    (Tbl.find (chunkKey row c) x.got).getD (List.replicate c.len (0#8, false))))
/-- A part's bytes as they land. -/
def partBytes (x : Copy) (t : Tmpl) (p : Piece) : List MByte :=
  ((landRow x t p.row (rowBytesOf x p.row)).drop p.ofs).take p.len

/-- A part's bytes written to the receiver's scratchpad by the command's path and counted in its word; `mark` marks them all poisoned (R280,
R289). -/
def landBytes (s : State) (path : Nat) (h : Share) (ofs : Nat) (bs : List MByte) (mark : Bool) (err : Nat) : State :=
  arrive (s.putMarks h.cid path (h.word + 1) (h.base + ofs) (bs.map (fun b => (b.1, mark)))) path h.cid h.word bs.length err

/-- Bytes of a share in landing order: those of the rows that can be read. -/
def shareEnd (x : Copy) (t : Tmpl) : Nat := x.rows.length * t.rowBytes
/-- Chunks of rows that every share has passed are not kept. -/
def trimGot (x : Copy) (t : Tmpl) (hs : List Share) : Copy :=
  { x with got := x.got.filter (fun e => hs.any (fun h => decide (h.pos / t.rowBytes ≤ e.1 / 2 ^ 12))) }
/-- A part of share `rx` lands, and the share ends with its last. -/
def landPart (s : State) (cid ix rx : Nat) (x : Copy) (hs : List Share) (h : Share) (p : Piece) (mark : Bool) (err : Nat) : State :=
  let t := parseTmpl x.tmpl
  let s := landBytes s x.path h (p.row * t.pitch + p.ofs) (partBytes x t p) mark err
  let h' := { h with pos := h.pos + p.len }
  let hs' := if h'.pos < shareEnd x t then setNth h' rx hs else delNth rx hs
  endCopy s cid ix (trimGot x t hs') hs'

/-- Share `rx` of a command that has begun, begun itself; a refused one is settled (R275, R276). -/
def beginShare (s : State) (cid ix rx : Nat) (x : Copy) : Option (List Share × Share) × State :=
  match x.shares with
  | none => (none, s)
  | some hs =>
    match hs[rx]? with
    | none => (none, setCopy s cid ix x)
    | some h =>
      if h.begun then (some (hs, h), s)
      else
        let t := parseTmpl x.tmpl
        let h := startShare s x h
        match refuseShare s x.path h t.expect t.extent with
        | some s' => (none, endCopy s' cid ix x (delNth rx hs))
        | none => (some (setNth h rx hs, h), s)

/-- R428: the held leaves of the pages that a command's source names, read again where their accession asks it. -/
def rereadCopy (s : State) (cid ix : Nat) : State :=
  match (s.core cid).copies[ix]? with
  | some x =>
    let t := parseTmpl x.tmpl
    if x.shares.isSome || ((s.die (dieOf cid)).pins.isEmpty && (s.die (dieOf cid)).tlb.isEmpty) then s
    else
      let idx := match if t.gather then indexList s cid x t else .ok [] with | .ok l => l | .error _ => []
      t.rows.foldl (fun s n => match t.rowAddr x.word (fun i => nth 0 i idx) n with
        | some a => rereads s (copyCtx s cid x) a (t.segBytes x.word)
        | none => s) s
  | none => s

/-- R280, R289: a part lands if its source is read well and over live paths; else the command becomes the curator's. -/
def copyArrival (s : State) (cid ix rx bytes : Nat) : State :=
  let s := rereadCopy s cid ix
  match ((s.core cid).copies[ix]?).bind (copyBegin s cid ix) with
  | none => s
  | some x =>
    let t := parseTmpl x.tmpl
    match beginShare s cid ix rx x with
    | (none, s) => s
    | (some (hs, h), s) =>
      let x := { x with shares := some hs }
      let p := nextPart x t h (partLen t.dfmt bytes)
      if x.cur then setCopy s cid ix x
      else if partDead s cid h.cid p then setCopy s cid ix { x with cur := true }
      else
        let x := readPart s x p
        if (partBytes x t p).any (fun b => b.2) then setCopy s cid ix { x with cur := true }
        else landPart s cid ix rx x hs h p false 0
def execCopyArrival (c ix rx bytes : Nat) (s : State) : Host.Outcome State Fault Refusal := next (copyArrival s c ix rx bytes)

/-- R287: one chunk of the source of a begun command is read before it lands. -/
def copyRead (s : State) (cid ix row k : Nat) : State :=
  match (s.core cid).copies[ix]? with
  | none => s
  | some x => match nth none row x.rows with
    | none => s
    | some xs => match (rowChunks 0 xs)[k]? with
      | some c => if x.shares.isSome && routeUp s cid c.pa then setCopy s cid ix (readChunk s row x c) else s
      | none => s

/-- The fault of a command's source: met when it began, or met now by one that may begin (R484). -/
def sourceFault (s : State) (cid ix : Nat) (x : Copy) : Option W32 :=
  match x.bad with
  | some f => some f
  | none => if x.shares.isSome || !mayBegin s cid ix x then none else (sourceRows s cid x (parseTmpl x.tmpl)).2

/-- R268, R484: a failing source read ends the issuing team's job, or is logged where the team runs none; the command lands and
signals nothing more. -/
def copySourceFail (s : State) (cid ix : Nat) : State :=
  match (s.core cid).copies[ix]? with
  | none => s
  | some x =>
    match sourceFault s cid ix x with
      | none => s
      | some f =>
        let s := s.modCore cid (fun c => { c with copies := delNth ix c.copies })
        match x.job with
        | some _ =>
          if x.live then endJob s x.tid f true
          else if (s.team x.tid).job.isNone then s.logErr (dieOf cid) f (coreSite s cid) 0#64 else s
        | none => s.logErr (dieOf cid) f (coreSite s cid) 0#64
def execCopySourceFail (c ix : Nat) (s : State) : Host.Outcome State Fault Refusal := next (copySourceFail s c ix)

/-- R289: the curator finishes the next part of a share of a command handed to it: rerouted around what is dead, landed poisoned, or its
receiver out of reach. Every part it lands has CUR; one over a dead path has DEADLINK, one that lands marked has POISON. -/
def curatorFinish (s : State) (cid ix rx : Nat) (how : Finish) : State :=
  match (s.core cid).copies[ix]? with
  | none => s
  | some x =>
    if !x.cur then s
    else
      let t := parseTmpl x.tmpl
      match beginShare s cid ix rx x with
      | (none, s) => s
      | (some (hs, h), s) =>
        let p := nextPart x t h (partLen t.dfmt 128)
        let dead := partDead s cid h.cid p
        let x' := readPart s { x with shares := some hs } p
        let po := (partBytes x' t p).any (fun b => b.2)
        let land (mark : Bool) : State := landPart s cid ix rx x' hs h p mark (1 + (if dead then 2 else 0) + (if mark then 4 else 0))
        match how with
        | .reroute => if curatorReaches s cid h.cid && (if dead then partReroutes s cid h.cid p else !po) then land po else s
        | .poison => if curatorReaches s cid h.cid && (dead || po) then land true else s
        | .unreachable =>
          if curatorReaches s cid h.cid then s else endReceiver (endCopy s cid ix x (delNth rx hs)) h.cid h.team fwCPLOST
def execCuratorCopyFinish (c ix rx : Nat) (how : Finish) (s : State) : Host.Outcome State Fault Refusal :=
  next (curatorFinish s c ix rx how)

/-! ### `tset` (R274) -/

/-- The read of a template image, checked (R263). -/
def tmplAccess (s : State) (gid : Nat) (a : W64) : Except W32 Access :=
  let g := s.group gid
  let r := region a
  if r = 0xFE || r = 0xFD || r = 0xFB then .error fwAPERR
  else match checkAccess s gid 0 (accPriv g ⟨gid, g.fmask, g.fmask, s.env gid⟩ true 0) ⟨.load, 64, 64, false, false, true⟩ a with
    | .error f => .error f
    | .ok t => .ok ⟨32, a, a, 0#64, t, [], 0, 64, g.fmask⟩
/-- The 64 bytes of a template image, by the load/store path after what must precede the read; poisoned data reads as zeros (log 35). -/
def tmplImage (s : State) (gid : Nat) (o : Ops) (a : W64) : Except W32 (BitVec 512) × State :=
  match tmplAccess s gid a with
  | .error f => (.error f, s)
  | .ok acc =>
    let i : Instr := .tset o
    let s := settleFor s gid ⟨true, (s.group gid).nextSeq, i, acc⟩
    let (bs, s) := access s gid i acc
    (.ok (if bs.any (fun b => b.2) then 0#512 else BitVec.ofNat 512 (natOf (valueOf bs))), s)

/-- The waiting `tset` of a group installs its image once every copy command issued before it on the core, by its team, has been
accepted; a refused image raises CPTMPL. -/
def tryTset (s : State) (gid : Nat) : State :=
  let g := s.group gid
  let w := waiters g (fun i => match i with | .tset _ => true | _ => false)
  match waitInstr g w, (s.core (cidOf gid)).tsq.find? (fun e => e.1 = gid) with
  | some (.tset o), some (_, q) =>
    let tid := s.tidOf gid
    if (waitingCmds s (cidOf gid)).any (fun x => s.tidOf x.gid = tid && decide (x.cmd.seq < q)) then s
    else
      let s := s.modCore (cidOf gid) (fun c => { c with tsq := c.tsq.filter (fun e => e.1 != gid) })
      let slot := (rd64 g (s.env gid) o.imm 0 o.b).toNat
      let a := rd64 g (s.env gid) o.imm 0 o.a
      match tmplImage s gid o a with
      | (.error f, s) => deliver s gid (trapAll w f a)
      | (.ok t, s) =>
        if slot > 31 || !(parseTmpl t).ok then deliver s gid (trapAll w fwCPTMPL 0#64)
        else passDeliver (s.modCore (cidOf gid) (fun c => { c with tmpl := Tbl.put (tmplKey tid slot) t c.tmpl })) gid w
  | _, _ => s

/-- R263: the check of the image pointer at issue, then the wait for the install. -/
def execTset (o : Ops) (s : State) : Host.Outcome State Fault Refusal :=
  let gid := s.cur.gid
  let s := issue (.tset o) s fun x s =>
    let a := capt s x o o.a
    match tmplAccess s x.gid a with
    | .error f => .fail s x.act f a
    | .ok _ =>
      let q := (s.core (cidOf x.gid)).cseq
      .hold ((waitIn s x.gid x.act (.tset o)).modCore (cidOf x.gid)
        (fun c => { c with cseq := q + 1, tsq := c.tsq ++ [(x.gid, q)] })) x.act
  next (tryTset s gid)
def execTsetInstall (g : Nat) (s : State) : Host.Outcome State Fault Refusal := next (tryTset s g)

/-! ### Barriers (R263, R281–R283) -/

/-- R263: the scratchpad byte of a word pointer, or its fault. -/
def wordPtr (s : State) (gid : Nat) (a : W64) : Except W32 Nat :=
  let low := (a.extractLsb' 0 56).toNat
  if region a != 0xFF then .error fwAPERR
  else if low % 16 != 0 then .error fwMISALIGN
  else if low + 16 > s.spLimit (cidOf gid) then .error fwSPBND
  else .ok ((s.posOf gid).1 * s.spLimit (cidOf gid) + low)

/-- A barrier instruction on its word. -/
def onWord (o : Ops) (x : At) (s : State) (f : Nat → State → Out) : Out :=
  let a := capt s x o o.a
  match wordPtr s x.gid a with
  | .error w => .fail s x.act w a
  | .ok k => f k s

def execBarinit (o : Ops) (s : State) : Host.Outcome State Fault Refusal :=
  next (issue (.barinit o) s fun x s => onWord o x s fun k s =>
    .done (setWord s (cidOf x.gid) k ((capt s x o o.b).toNat % 2 ^ 32) 0 0 0))
def execBarexp (o : Ops) (s : State) : Host.Outcome State Fault Refusal :=
  next (issue (.barexp o) s fun x s => onWord o x s fun k s =>
    let cid := cidOf x.gid
    let t := (capt s x o o.b).toNat % 2 ^ 32
    let (c, g) := wrapWord (spWord s cid k 1) (spWord s cid k 2) t
    .done (setWord s cid k t c g (spWord s cid k 3)))
def execBarpoll (o : Ops) (s : State) : Host.Outcome State Fault Refusal :=
  next (issue (.barpoll o) s fun x s => onWord o x s fun k s =>
    let v := spWord s (cidOf x.gid) k 2 + 2 ^ 32 * spWord s (cidOf x.gid) k 3
    .done (s.modGroup x.gid (fun g => wrUni g o.d v)))

/-- R282: a waiting `barwait` whose word has reached its condition is released, with GEN and ERR in D. -/
def tryBarwait (s : State) (gid : Nat) : State :=
  let g := s.group gid
  let w := waiters g (fun i => match i with | .barwait _ _ _ => true | _ => false)
  match waitInstr g w with
  | some (.barwait o p gn) =>
    match wordPtr s gid (rd64 g (s.env gid) o.imm 0 o.a) with
    | .error _ => s
    | .ok k =>
      let cid := cidOf gid
      let gen := spWord s cid k 2
      let v := (rd64 g (s.env gid) o.imm 0 o.b).toNat
      if (if gn then gen != v % 2 ^ 32 else gen % 2 != v % 2) then
        let r := gen + 2 ^ 32 * spWord s cid k 3
        let s := (crossL1 s gid (p ||| 0x0A#5)).showSp cid 0x0A#5 p (k + 1)
        passDeliver (s.modGroup gid (fun g => wrUni g o.d r)) gid w
      else s
  | _ => s
def execBarwait (o : Ops) (paths : BitVec 5) (gn : Bool) (s : State) : Host.Outcome State Fault Refusal :=
  let gid := s.cur.gid
  next (tryBarwait (issue (.barwait o paths gn) s fun x s => onWord o x s fun _ s =>
    .hold (waitIn s x.gid x.act (.barwait o paths gn)) x.act) gid)

/-! ### Baskets (R285, R286) -/

/-- The baskets of a group's unfinished commands, those of its ended jobs that still land among them. -/
def busyBaskets (s : State) (gid : Nat) : List Nat :=
  (s.group gid).cps.map (fun k => k.basket)
  ++ (s.die (dieOf (cidOf gid))).reports.flatMap (fun r => if r.cid = cidOf gid then
      (r.cps.filter (fun e => e.1 = gid)).map (fun e => e.2.basket) else [])
  ++ ((s.core (cidOf gid)).copies.filter (fun x => x.gid = gid)).map (fun x => x.basket)
/-- The sealed baskets of a group that have a command unfinished. -/
def unfinished (s : State) (gid : Nat) : Nat :=
  (((busyBaskets s gid).eraseDups).filter (fun b => b != (s.group gid).bcount.toNat)).length
/-- Whether the open basket has an unfinished command. -/
def openBusy (s : State) (gid : Nat) : Bool := (busyBaskets s gid).contains (s.group gid).bcount.toNat

/-- R285. -/
def tryBseal (s : State) (gid : Nat) : State :=
  let g := s.group gid
  let w := waiters g (fun i => match i with | .bseal _ => true | _ => false)
  match waitInstr g w with
  | some (.bseal o) =>
    if openBusy s gid && unfinished s gid ≥ 8 then s
    else passDeliver (s.modGroup gid (fun g => { wrUni g o.d g.bcount.toNat with bcount := g.bcount + 1#32 })) gid w
  | _ => s
def execBseal (o : Ops) (s : State) : Host.Outcome State Fault Refusal := next (waitThen (.bseal o) tryBseal s)
/-- R286. -/
def tryBwait (s : State) (gid : Nat) : State :=
  passDeliver s gid (waiters (s.group gid) (fun i => match i with
    | .bwait o => decide (unfinished s gid ≤ o.imm.toNat)
    | _ => false))
def execBwait (o : Ops) (s : State) : Host.Outcome State Fault Refusal := next (waitThen (.bwait o) tryBwait s)
/-- A group's `barwait`, `bwait` or `bseal` released. -/
def execBarwaitRelease (g : Nat) (s : State) : Host.Outcome State Fault Refusal :=
  next (tryBseal (tryBwait (tryBarwait s g) g) g)

end Sys2Proof.Machine
end

