-- ==== Sys2Proof/Machine/ClusterOps.lean ====
section
/-!
DEFINITION. Cluster instructions (13: R330–R342): barriers, `rld`, messages, and the events of a message's journey.
-/

namespace Sys2Proof.Machine

def fwCLNOJOB : W32 := 0x21A07001#32
def fwCLBAR2 : W32 := 0x21A07002#32
def fwMRFULL : W32 := 0x21A07003#32
def fwMSGBAD : W32 := 0x21A07004#32
def fwMSGOVF : W32 := 0x60101001#32
def fwCLLOST : W32 := 0x60101002#32

/-! ### Barriers (R330–R333) -/

/-- An instruction that only a cluster job may issue, given its cluster's key, the cluster and the member's index. -/
def inCluster (x : At) (s : State) (f : Nat → Cluster → Nat → State → Out) : Out :=
  match s.clusterOf (s.tidOf x.gid) with
  | none => .fail s x.act fwCLNOJOB 0#64
  | some (k, c, ix) => f k c ix s

def setCluster (s : State) (key : Nat) (c : Cluster) : State := { s with clusters := Tbl.put key c s.clusters }
def barNo (o : Ops) : Nat := (o.imm.extractLsb' 0 2).toNat

/-- R332: the arrival of a waiting `clarr` once the group's accesses on its paths have performed: CLBAR2, or GEN for D as an outstanding load
and the arrival. -/
def tryClarr (s : State) (gid : Nat) : State :=
  let g := s.group gid
  let w := waiters g (fun i => match i with | .clarr _ _ => true | _ => false)
  match waitInstr g w, s.clusterOf (s.tidOf gid) with
  | some (.clarr o p), some (key, c, ix) =>
    if !pathsDone s gid p .clu then s
    else
      let s := if pLs p then fenceAt s gid 0xFFFFFFFF#32 .clu else s
      let b := nth ClBar.zero (barNo o) c.bars
      let bit := 32 * ix + (s.posOf gid).2
      if b.arrived.getLsbD bit then deliver s gid (trapAll w fwCLBAR2 0#64)
      else
        let sw := match o.d with | .s n => [(n.toNat, b.gen.setWidth 64)] | _ => []
        let s := addLoad s gid ⟨0, .clarr o p, [], [], [], sw, [], []⟩
        let s := (reach s gid).foldl (fun s m => s.pubSp m p) s
        passDeliver (setCluster s key { c with bars := setNth (b.arrive bit) (barNo o) c.bars }) gid w
  | _, _ => s
def execClarr (o : Ops) (paths : BitVec 5) (s : State) : Host.Outcome State Fault Refusal :=
  let gid := s.cur.gid
  next (tryClarr (issue (.clarr o paths) s fun x s => inCluster x s fun _ _ _ s =>
    .hold (waitIn s x.gid x.act (.clarr o paths)) x.act) gid)

/-- R333: a waiting `clbar` whose barrier has gone on is released: on the load/store path with the L1 action of a fence, and what the
arrivals have published becomes visible to its paths. -/
def tryClbar (s : State) (gid : Nat) : State :=
  let g := s.group gid
  let w := waiters g (fun i => match i with | .clbar _ _ => true | _ => false)
  match waitInstr g w, s.clusterOf (s.tidOf gid) with
  | some (.clbar o p), some (_, c, _) =>
    if (nth ClBar.zero (barNo o) c.bars).gen = (rd64 g (s.env gid) o.imm 0 o.a).extractLsb' 0 32 then s
    else
      let s := if pLs p then l1Invalidate s (cidOf gid) true true else s
      passDeliver ((reach s gid).foldl (fun s m => s.showPub m p) s) gid w
  | _, _ => s
def execClbar (o : Ops) (paths : BitVec 5) (s : State) : Host.Outcome State Fault Refusal :=
  let gid := s.cur.gid
  next (tryClbar (issue (.clbar o paths) s fun x s => inCluster x s fun _ _ _ s =>
    .hold (waitIn s x.gid x.act (.clbar o paths)) x.act) gid)
/-- A group's `clbar` or `clarr` leaves its wait. -/
def execClbarRelease (g : Nat) (s : State) : Host.Outcome State Fault Refusal := next (tryClarr (tryClbar s g) g)

/-! ### `rld` (R334) -/

def cntRegs : Cnt → Nat | .x1 => 1 | .x2 => 2 | .x4 => 4
/-- R334: one access of 4 bytes for each thread and register, outstanding as a load of the group. -/
def rldBody (o : Ops) (cnt : Cnt) (x : At) (s : State) : Out :=
  let w := laneAddr (s.group x.gid) x.env o 0
  let n := 128 * cntRegs cnt
  if region w.addr != 0xFE && region w.addr != 0xFF then .fail s x.act fwAPERR w.addr
  else match checkAccess s x.gid 0 .sup ⟨.load, n, n, false, false, true⟩ w.addr with
    | .error f => .fail s x.act f w.addr
    | .ok (.sp cid b) =>
      .done (addLoad s x.gid ⟨0, .rld o cnt, (upTo (cntRegs cnt)).flatMap (fun k => (lanesOf x.act).map (fun l =>
        ⟨32, w.addr, w.base, w.idx, .sp cid (b + 128 * k + 4 * l), [], 128 * k + 4 * l, 4, x.act⟩)), [], [], [], [], []⟩)
    | .ok _ => .done s
def execRld (o : Ops) (cnt : Cnt) (s : State) : Host.Outcome State Fault Refusal :=
  next (issue (.rld o cnt) s (rldBody o cnt))

/-! ### Messages (R335–R342) -/

/-- Fields of a match spec (R336). -/
def specBad (v : W64) : Bool := v.extractLsb' 38 26 != 0#26
/-- R335: why a register's value is refused by `msend`. -/
def sendBad (s : State) (x : At) (o : Ops) (blk : Bool) (c : Cluster) : Bool :=
  let dst := capt s x o o.a
  let ptr := capt s x o o.c
  let len := (capt1 s x o.c).toNat
  (dst.extractLsb' 0 4).toNat ≥ c.members.length || (o.a.isS && dst.extractLsb' 4 60 != 0#60)
  || (blk && (region ptr != 0xFF || (ptr.extractLsb' 0 56).toNat % 16 != 0 || len % 16 != 0 || len < 16 || len > 4096
    || (ptr.extractLsb' 0 56).toNat + len > s.spLimit (cidOf x.gid)))
/-- R337: the payload, read at issue. -/
def payload (s : State) (x : At) (o : Ops) (blk : Bool) : List Byte :=
  if blk then s.spBytes (cidOf x.gid) ((s.posOf x.gid).1 * s.spLimit (cidOf x.gid) + ((capt s x o o.c).extractLsb' 0 56).toNat)
    (capt1 s x o.c).toNat
  else lanes.flatMap (fun l => bytesOf 4 (if x.act.getLsbD l then (rd32 (s.group x.gid) x.env 0#32 l o.c).toNat else 0))
def execMsend (o : Ops) (blk : Bool) (s : State) : Host.Outcome State Fault Refusal :=
  next (issue (.msend o blk) s fun x s => inCluster x s fun key c ix s =>
    if sendBad s x o blk c then .fail s x.act fwMSGBAD 0#64
    else
      let m : Msg := ⟨(capt s x o o.b).extractLsb' 0 32, ix, (s.posOf x.gid).2, blk, payload s x o blk⟩
      .done (setCluster s key { c with transit := c.transit ++ [(x.gid, ((capt s x o o.a).extractLsb' 0 4).toNat, m)] }))

/-- R335: why a register's value is refused by `mrecv`. -/
def recvBad (s : State) (x : At) (o : Ops) : Bool :=
  let buf := capt s x o o.a
  let cap := (capt1 s x o.a).toNat
  let word := capt s x o o.c
  let lo := (buf.extractLsb' 0 56).toNat
  region buf != 0xFF || lo % 16 != 0 || cap % 16 != 0 || cap > 4096 || lo + 16 + cap > s.spLimit (cidOf x.gid)
  || (match wordPtr s x.gid word with | .ok _ => false | .error _ => true)
  || landMeets lo (16 + cap) (word.extractLsb' 0 56).toNat || specBad (capt s x o o.b)
/-- The lowest free entry of a team's posted list. -/
def freeEntry (t : Team) : Nat :=
  ((upTo 64).find? (fun i => t.posted.all (fun r => (r.handle.extractLsb' 0 6).toNat != i))).getD 0
def mrecvBody (o : Ops) (x : At) (s : State) : Out :=
  inCluster x s fun _ _ _ s =>
    if recvBad s x o then .fail s x.act fwMSGBAD 0#64
    else
      let tid := s.tidOf x.gid
      let t := s.team tid
      let h : W32 := BitVec.ofNat 32 (t.serial % 2 ^ 26 * 64 + freeEntry t)
      let r : Posted := ⟨capt s x o o.a, (capt1 s x o.a).toNat, ((capt s x o o.c).extractLsb' 0 56).toNat, capt s x o o.b, h⟩
      let done (s : State) : Out :=
        .done (stallTurn ((s.modTeam tid (fun t => { t with serial := t.serial + 1 })).modGroup x.gid
          (fun g => wrUni g o.d h.toNat)) tid 64)
      match firstIdx (fits r) t.ovf with
      | some i =>
        match t.ovf[i]? with
        | some m => done (deliverMsg (s.modTeam tid (fun t => { t with ovf := delNth i t.ovf })) tid r m)
        | none => .done s
      | none =>
        if t.posted.length ≥ postShare s tid then .fail s x.act fwMRFULL 0#64
        else done (s.modTeam tid (fun t => { t with posted := t.posted ++ [r] }))
def execMrecv (o : Ops) (s : State) : Host.Outcome State Fault Refusal := next (issue (.mrecv o) s (mrecvBody o))

/-- R340. -/
def probeVal (t : Team) (spec : W64) : Nat :=
  match t.ovf.find? (fitsSpec spec) with
  | some m => 2 ^ 63 + m.src * 2 ^ 48 + m.data.length * 2 ^ 32 + m.tag.toNat
  | none => 0
def probeStat (t : Team) : Nat := min 0xFFFF t.drops * 2 ^ 16 + ovfHeld t % 256 * 2 ^ 8 + t.posted.length
def execMprobe (o : Ops) (st : Bool) (s : State) : Host.Outcome State Fault Refusal :=
  next (issue (.mprobe o st) s fun x s => inCluster x s fun _ _ _ s =>
    let t := s.team (s.tidOf x.gid)
    if st then .done (s.modGroup x.gid (fun g => wrUni g o.d (probeStat t)))
    else if specBad (capt s x o o.b) then .fail s x.act fwMSGBAD 0#64
    else .done (s.modGroup x.gid (fun g => wrUni g o.d (probeVal t (capt s x o o.b)))))
/-- R341. -/
def execMcancel (o : Ops) (s : State) : Host.Outcome State Fault Refusal :=
  next (issue (.mcancel o) s fun x s => inCluster x s fun _ _ _ s =>
    let tid := s.tidOf x.gid
    let h : W32 := (capt s x o o.a).extractLsb' 0 32
    let hit := (s.team tid).posted.any (fun r => r.handle = h)
    .done ((s.modTeam tid (fun t => { t with posted := t.posted.filter (fun r => r.handle != h) })).modGroup x.gid
      (fun g => wrUni g o.d (if hit then 1 else 0))))

/-- R337–R339: the message at a position of a cluster's transit reaches its destination, unless an earlier one of its sender
to that destination is still on its way or stalled. The running cluster's key is ix modulo 2048, the position ix / 2048. -/
def messageArrival (s : State) (ix : Nat) : State :=
  let n := ix / 2048
  match s.clusters.find? (fun e => e.1 % 2048 = ix % 2048 && e.2.launched) with
  | none => s
  | some (key, c) =>
    match c.transit[n]? with
    | none => s
    | some (gid, dst, m) =>
      let tid := 8 * nth 0 dst c.members + c.team
      if (c.transit.take n).any (fun e => e.2.1 = dst && e.2.2.src = m.src)
          || behindStall s tid m then s
      else reachMsg (setCluster s key { c with transit := delNth n c.transit }) tid gid m
def execMessageArrival (ix : Nat) (s : State) : Host.Outcome State Fault Refusal := next (messageArrival s ix)

/-- R339: a message stalled past the limit is dropped: MSGOVF in the error log, one drop, REFUSED for its sender. -/
def stallTimeout (s : State) (tid ix : Nat) : State :=
  match (s.team tid).stalled[ix]? with
  | none => s
  | some (gid, since, _) =>
    if s.cycle.toNat < since + 256 * 2 ^ clMsgto (s.core (tid / 8)).clcfg then s
    else
      let s := s.modTeam tid (fun t => { t with stalled := delNth ix t.stalled, drops := t.drops + 1 })
      let s := s.logErr (dieOf (tid / 8)) fwMSGOVF (coreSite s (tid / 8)) 0#64
      failIn s gid 0xFFFFFFFF#32 FailRec.drop
def execMessageStallTimeout (t ix : Nat) (s : State) : Host.Outcome State Fault Refusal := next (stallTimeout s t ix)

end Sys2Proof.Machine
end

