-- ==== Sys2Proof/Machine/Hamper.lean ====
section
/-!
DEFINITION. Hamper, event, accession and snapshot instructions (16: R391–R396; 17: R410, R411; 18: R430–R437; 21: R462), and
the events of the hampers: HPUSH_PLACE, HAMPER_REFILL, HPOP_TAKE, EVWAIT_RELEASE, JDONE_RELEASE, JOB_LAUNCH.
-/

namespace Sys2Proof.Machine

def fwHPDEST : W32 := 0x21B08001#32
def fwHPSTATE : W32 := 0x21B08002#32
def fwEVBAD : W32 := 0x21B08003#32

/-- An operand that names an event, a destination or an accession: an immediate is zero-extended (R391, R430). -/
def captU (s : State) (x : At) (o : Ops) (opd : Opd) : W64 :=
  match opd with
  | .imm => o.imm.setWidth 64
  | y => capt s x o y

/-! ### The task hamper (R392–R394, R410, R411) -/

/-- Bytes of the ring's slot for record `k`, and of its tag (R392). -/
def ringSlot (c : Core) (k : W32) : W64 := c.hrbase + BitVec.ofNat 64 (32 * (k.toNat % 2 ^ c.hrlog))
def ringTag (c : Core) (k : W32) : W64 := c.hrbase + BitVec.ofNat 64 (32 * 2 ^ c.hrlog + k.toNat % 2 ^ c.hrlog)

/-- R393: a push placed in the hamper or in the ring; none while neither has room, or while the ring cannot be written. -/
def placePush (s : State) (cid team : Nat) (w : BitVec 256) : Option State :=
  let c := s.core cid
  if c.hrput = c.hrtake && c.task.length < 32 then
    some (s.modCore cid (fun c => { c with task := c.task ++ [⟨team, w, none⟩] }))
  else if c.hrlog > 0 && (c.hrput - c.hrtake).toNat < 2 ^ c.hrlog then
    let x := partCtx s (dieOf cid) (s.pnum cid)
    match globalPut s x (ringSlot c c.hrput) (bytesOf 32 w.toNat) with
    | .error _ => none
    | .ok s => match globalPut s x (ringTag c c.hrput) [BitVec.ofNat 8 team] with
      | .error _ => none
      | .ok s => some (s.modCore cid (fun c => { c with hrput := c.hrput + 1#32 }))
  else none

/-- R393, R411: ring record TAKE moves to the tail of the hamper. -/
def refill (s : State) (cid : Nat) : State :=
  let c := s.core cid
  if c.task.length < 32 && c.hrput != c.hrtake then
    let x := partCtx s (dieOf cid) (s.pnum cid)
    match globalBytes s x .load (ringSlot c c.hrtake) 32, globalBytes s x .load (ringTag c c.hrtake) 1 with
    | .ok bs, .ok tag => s.modCore cid (fun c => { c with
        task := c.task ++ [⟨natOf tag, BitVec.ofNat 256 (natOf bs), none⟩], hrtake := c.hrtake + 1#32 })
    | _, _ => s
  else s
def execHamperRefill (c : Nat) (s : State) : Host.Outcome State Fault Refusal := next (refill s c)

/-- R393: the destination core and team of an `hpush`, none for HPDEST. -/
def pushDest (s : State) (gid : Nat) (v : W64) : Option (Nat × Nat) :=
  let d := dieOf (cidOf gid)
  let cid := 64 * d + 8 * (v.extractLsb' 3 3).toNat + (v.extractLsb' 0 3).toNat
  let t := (v.extractLsb' 6 3).toNat
  if v.extractLsb' 9 55 != 0#55 || s.partOf cid != s.partOf (cidOf gid) || t > pwTeams (s.core cid).pword then none
  else some (cid, t)

/-- R80, R410: a push that has been placed, `s` before and `t` after, stands outstanding until its registers are read. -/
def standPush (s t : State) (gid : Nat) (i : Instr) (cid : Nat) (w : BitVec 256) : State :=
  let c := s.core cid
  let num := (t.core (cidOf gid)).cseq
  let t := t.modCore (cidOf gid) (fun c => { c with cseq := num + 1 })
  let a : Access := ⟨32, ringSlot c c.hrput, BitVec.ofNat 64 num, BitVec.ofNat 64 cid, .glob [], bytesOf 32 w.toNat, 0, 32, (t.group gid).fmask⟩
  if c.hrput = c.hrtake && c.task.length < 32 then
    addStore (t.modCore cid (fun c => { c with task := c.task.zipIdx.map (fun e =>
      if e.2 + 1 = c.task.length then { e.1 with src := some (cidOf gid, num) } else e.1) })) gid i [a]
  else addStore t gid i [{ a with ofs := c.hrput.toNat + 1 }]

/-- R393, R410: the push is placed at once where there is room, else its group waits. -/
def execHpush (o : Ops) (s : State) : Host.Outcome State Fault Refusal :=
  next (issue (.hpush o) s fun x s =>
    match pushDest s x.gid (captU s x o o.a) with
    | none => .fail s x.act fwHPDEST 0#64
    | some (cid, t) =>
      let w := quadOf (s.group x.gid) o.b
      let s := releaseAt s x.gid .die
      match placePush s cid t w with
      | some u => .done (standPush s u x.gid (.hpush o) cid w)
      | none => .hold ((waitIn s x.gid x.act (.hpush o)).modCore cid (fun c => { c with pushq := c.pushq ++ [(x.gid, t, w)] })) x.act)

/-- R393: the waiting push at a position of a core's list is placed, and its group passes the `hpush`; pushes of one group keep
their order, since it waits in each. -/
def pushTurn (s : State) (cid ix : Nat) : State :=
  match (s.core cid).pushq[ix]? with
  | none => s
  | some (gid, t, w) =>
    match placePush s cid t w with
    | none => s
    | some u =>
      let m := waiters (u.group gid) (fun i => match i with | .hpush _ => true | _ => false)
      let u := u.modCore cid (fun c => { c with pushq := delNth ix c.pushq })
      passDeliver (match waitInstr (u.group gid) m with | some i => standPush s u gid i cid w | none => u) gid m
def execHpushPlace (c ix : Nat) (s : State) : Host.Outcome State Fault Refusal := next (pushTurn s c ix)

/-- R394: a waiting `hpop` takes the oldest record tagged with its team. -/
def tryHpop (s : State) (gid : Nat) : State :=
  let g := s.group gid
  let w := waiters g (fun i => match i with | .hpop _ => true | _ => false)
  let cid := cidOf gid
  if (s.core cid).asleep then s
  else match waitInstr g w, firstIdx (fun (r : TaskRec) => r.team = (s.posOf gid).1) (s.core cid).task with
  | some (.hpop o), some ix =>
    match (s.core cid).task[ix]?, o.d with
    | some r, .s n =>
      let s := s.modCore cid (fun c => { c with task := delNth ix c.task, ctr := Tbl.put 6 (Tbl.get 0#32 6 c.ctr + 1#32) c.ctr })
      let s := s.modGroup gid (fun g => (((g.setU n.toNat (r.w.extractLsb' 0 64)).setU (n.toNat + 1) (r.w.extractLsb' 64 64)).setU
        (n.toNat + 2) (r.w.extractLsb' 128 64)).setU (n.toNat + 3) (r.w.extractLsb' 192 64))
      passDeliver (acquireAt s gid .die) gid w
    | _, _ => s
  | _, _ => s
def execHpop (o : Ops) (s : State) : Host.Outcome State Fault Refusal := next (waitThen (.hpop o) tryHpop s)
def execHpopTake (g : Nat) (s : State) : Host.Outcome State Fault Refusal := next (tryHpop s g)

/-- R394: legal at supervisor level in an Idle team; the group waits. -/
def execHpopJ (o : Ops) (s : State) : Host.Outcome State Fault Refusal :=
  next (issue (.hpopJ o) s fun x s =>
    if userMask (s.group x.gid) x.act != 0#32 || (s.team (s.tidOf x.gid)).st != .idle then .fail s x.act fwHPSTATE 0#64
    else .hold (waitIn s x.gid x.act (.hpopJ o)) x.act)

/-- R394: the counts `hstat` writes. -/
def hstatVal (c : Core) (team : Nat) : Nat :=
  c.task.length + (c.hrput - c.hrtake).toNat % 2 ^ 17 * 2 ^ 6 + (c.task.filter (fun r => r.team = team)).length * 2 ^ 23
    + c.jobs.length * 2 ^ 29
def execHstat (o : Ops) (s : State) : Host.Outcome State Fault Refusal :=
  next (issue (.hstat o) s fun x s =>
    .done (s.modGroup x.gid (fun g => wrUni g o.d (hstatVal (s.core (cidOf x.gid)) (s.posOf x.gid).1))))

/-! ### Launch of a job (R298, R394) -/

/-- Whether every group of an Idle team waits in `hpop.j`. -/
def teamWaits (s : State) (tid : Nat) : Bool :=
  let t := s.team tid
  t.st = .idle && t.job.isNone && t.launching.isNone && !(s.groupsOf tid).isEmpty
  && (s.groupsOf tid).all (fun gid => let g := s.group gid
      g.live && waiters g (fun i => match i with | .hpopJ _ => true | _ => false) = g.fmask && g.fmask != 0#32)

/-- The oldest record of a job hamper that a team may take. -/
def takeable (s : State) (tid : Nat) : Option Nat :=
  firstIdx (fun (r : JobRec) => r.anyteam || r.team = tid % 8) (s.core (tid / 8)).jobs

/-- R299, R394: a job record that a team takes: its position in the hamper. -/
def takesRec (s : State) (tid : Nat) : Option Nat :=
  if !teamWaits s tid || (s.core (tid / 8)).asleep || (s.core (tid / 8)).lost then none
  else match takeable s tid with
    | none => none
    | some ix =>
      let any : Bool := match (s.core (tid / 8)).jobs[ix]? with | some r => r.anyteam | none => false
      if any && (upTo (tid % 8)).any (fun t => teamWaits s (8 * (tid / 8) + t) && takeable s (8 * (tid / 8) + t) = some ix) then none
      else some ix

/-- R422: the backing of the stacks of a team's job. -/
def stackbOf (s : State) (tid : Nat) : W64 :=
  (s.part (s.pnum (tid / 8))).stkbase + BitVec.ofNat 64 (2 ^ 21 * (32 * (tid / 8) + firstSlot (s.core (tid / 8)).gslots (tid % 8)))

/-- R459: whether an armed debug stop names a job. -/
def dbgNames (s : State) (tid : Nat) (r : JobRec) : Bool :=
  let v := s.hub.dbgctl
  s.hub.dbgstat = 1#32
  && ((dbgMode v = 2 && r.die = dbgDie v && r.queue = dbgQueue v && r.seq = dbgSeq v)
    || (dbgMode v = 3 && s.pnum (tid / 8) = dbgPart v))

/-- The header of a job: as its record captured it (R384), else as memory holds it. -/
def jobHeader (s : State) (cid : Nat) (r : JobRec) : Option KHdr :=
  match (s.recOf r.die r.queue r.recn).bind (fun q => q.hdr) with
  | some h => some h
  | none => readHeader s (dieOf cid) (s.pnum cid) r.entry

/-- R326: a member that takes its record after a halt of its cluster job was asked is halted with it. -/
def joinHalt (s : State) (tid : Nat) : State :=
  match (jobTeams s tid).find? (fun t => (s.team t).stopWhy != 0) with
  | some t => s.modTeam tid (fun x => { x with stopWhy := if x.stopWhy = 2 then 2 else (s.team t).stopWhy })
  | none => s

/-- JOB_LAUNCH: an Idle team that waits takes its record and begins the job. -/
def jobLaunch (s : State) (tid : Nat) : State :=
  let cid := tid / 8
  match takesRec s tid with
  | none => s
  | some ix =>
    match (s.core cid).jobs[ix]? with
    | none => s
    | some r =>
      let s := s.modCore cid (fun c => { c with jobs := delNth ix c.jobs })
      match jobHeader s cid r with
      | none => endJob (s.modTeam tid (fun t => { t with
          job := some ⟨r, ⟨0, 0, 0, 0, 0, 0, 0, false, 0#24, 0#64, false, false⟩, stackbOf s tid⟩ })) tid fwJOBHDR true
      | some h =>
        let s := joinHalt (launchJob s tid ⟨r, h, stackbOf s tid⟩) tid
        if dbgNames s tid r then requestHalt s tid 2 else s
def execJobLaunch (t : Nat) (s : State) : Host.Outcome State Fault Refusal := next (jobLaunch s t)

/-! ### Events (R395, R396) -/

def EvOp.cat : EvOp → CatOp | .add => .add | .arm => .arm | .set => .set

/-- R395, R470: a release at the event's scope, then the step; a lost one is charged to the group. -/
def execEvsig (o : Ops) (op : EvOp) (s : State) : Host.Outcome State Fault Refusal :=
  next (issue (.evsig o op) s fun x s =>
    let e := (captU s x o o.a).extractLsb' 0 32
    let n : W32 := (capt s x o o.b).extractLsb' 0 32
    if evBad s e then .fail s x.act fwEVBAD 0#64
    else
      let (lost, s) := catTry (releaseAt s x.gid (evScope s (dieOf (cidOf x.gid)) e)) e (EvOp.cat op) n
      .done (if lost then chargeGroup s x.gid x.act hubSite false true else s))

/-- R395: an `evwait` whose event is reached leaves. -/
def tryEvwait (s : State) (gid : Nat) : State :=
  let g := s.group gid
  match waitInstr g (waiters g (fun i => match i with | .evwait _ => true | _ => false)) with
  | some (.evwait o) =>
    let e := evwaitName s gid o
    if evAcc e = s.ownAcc then
      let x := s.evSlotOf e
      if x.reached then evwaitLeave s gid e x.count x.fail else s
    else match Tbl.find e.toNat s.fab.answers with
      | some (c, f) => evwaitLeave s gid e c f
      | none => s
  | _ => s
def isWatch (e : W32) : Sent → Bool | .watch x => x = e | _ => false
/-- R471: a watch of a peer's event, sent once while it stands. -/
def sendWatch (s : State) (e : W32) : State :=
  if evAcc e = s.ownAcc || s.fab.sent.any (isWatch e) then s
  else { s with fab := { s.fab with sent := s.fab.sent ++ [.watch e], answers := Tbl.del e.toNat s.fab.answers } }
def execEvwait (o : Ops) (s : State) : Host.Outcome State Fault Refusal :=
  let gid := s.cur.gid
  next (tryEvwait (issue (.evwait o) s fun x s =>
    let e := (captU s x o o.a).extractLsb' 0 32
    if evBad s e then .fail s x.act fwEVBAD 0#64
    else .hold (sendWatch (waitIn (s.modGroup x.gid (fun g => { g with since := s.cycle })) x.gid x.act (.evwait o)) e) x.act) gid)
def execEvwaitRelease (g : Nat) (s : State) : Host.Outcome State Fault Refusal := next (tryEvwait s g)

/-- The scope of a job's event; the die outside a job or where it has none (R395). -/
def jobEvScope (s : State) (gid : Nat) : Scope :=
  match s.jobOf gid with
  | some j => if j.r.evon then evScope s j.r.die j.r.event else .die
  | none => .die
/-- R218, R395: `jdone` ends its group once every earlier access has performed, a fence of all paths between all paths. -/
def tryJdone (s : State) (gid : Nat) : State :=
  let w := waiters (s.group gid) (fun i => match i with | .jdone _ => true | _ => false)
  if w = 0#32 || !pathsDone s gid 0x1F#5 (jobEvScope s gid) then s
  else leaveMask (crossFence (fenceAt s gid 0xFFFFFFFF#32 (jobEvScope s gid)) gid 0x1F#5 0x1F#5) gid w
def execJdone (o : Ops) (s : State) : Host.Outcome State Fault Refusal := next (waitThen (.jdone o) tryJdone s)
def execJdoneRelease (g : Nat) (s : State) : Host.Outcome State Fault Refusal := next (tryJdone s g)

/-! ### Accessions (R431, R432, R437) -/

/-- R431: one step at the accession unit: D's value and the state. -/
def publishStep (s : State) (v : W64) : Nat × State :=
  let old := s.acc.pubacc
  let word (p : Half) (code lag : Nat) : Nat := p.toNat + code * 2 ^ 16 + lag * 2 ^ 20
  if v.extractLsb' 16 48 != 0#48 || v.extractLsb' 0 16 != old + 1#16 then (word old 1 0, s)
  else match s.acc.parts.find? (fun e => e.2.root.getLsbD 0 && !e.2.lead && !accGe e.2.aacc old) with
    | some (q, _) => (word old 2 q, s)
    | none =>
      let new : Half := v.extractLsb' 0 16
      (word new 0 0, { s with acc := ⟨new, s.acc.parts.map (fun e => (e.1, if e.2.lead then { e.2 with aacc := new + 1#16 } else e.2))⟩ })
def execPublish (o : Ops) (s : State) : Host.Outcome State Fault Refusal :=
  next (issue (.publish o) s fun x s =>
    let v := captU s x o o.a
    let (d, s) := publishStep (releaseAt s x.gid .sys) v
    .done (s.modGroup x.gid (fun g => wrUni g o.d d)))

/-- R432: the step of `adopt` and ADOPT on a partition. -/
def adoptStep (s : State) (p : Nat) : State :=
  let x := s.part p
  if x.lead then s else s.setPart p { x with aacc := s.acc.pubacc }
def execAdopt (o : Ops) (s : State) : Host.Outcome State Fault Refusal :=
  next (issue (.adopt o) s fun x s =>
    let p := s.pnum (cidOf x.gid)
    let s := acquireAt (adoptStep s p) x.gid .sys
    .done (s.modGroup x.gid (fun g => wrUni g o.d (s.part p).aacc.toNat)))

def tokrecBody (i : Instr) (o : Ops) (x : At) (s : State) : Out :=
  let g := s.group x.gid
  let a := laneAddr g x.env o 0
  if region a.addr != 0xFF && region a.addr ≥ 0xFB then .fail s x.act fwAPERR a.addr
  else
    let s := rereadAll x true (formOf i) (fun _ => a) s
    let (accs, ts) := checkAll x true (formOf i) (fun _ => a) s
    let jacc : Half := match s.jobOf x.gid with | some j => j.r.jacc | none => 0#16
    let bs := bytesOf 8 (capt s x o o.c).toNat ++ bytesOf 8 (capt1 s x o.c).toNat ++ bytesOf 2 jacc.toNat
    let (s, ts') := storeAll x i true (accs.map (fun y => { y with data := bs })) s
    ⟨s, ts ++ ts', 0#32, false⟩
def execTokrec (o : Ops) (s : State) : Host.Outcome State Fault Refusal :=
  next (issue (.tokrec o) s (tokrecBody (.tokrec o) o))

/-! ### Snapshots (R462) -/

/-- R462: a trigger received: SEQ, ACCEPTED and the state; a first trigger fixes Ts. -/
def snapTrigger (s : State) (tag : Byte) : W32 × Bool × State :=
  match s.hub.snap with
  | some (ts, _) => (s.hub.snapseq, decide (s.time.toNat < ts.toNat), s)
  | none =>
    let ts := BitVec.ofNat 64 ((s.time.toNat + 2048 + 1023) / 1024 * 1024)
    (s.hub.snapseq, true, { s with hub := { s.hub with snap := some (ts, tag) } })
def execSnap (o : Ops) (s : State) : Host.Outcome State Fault Refusal :=
  next (issue (.snap o) s fun x s =>
    let (n, ok, s) := snapTrigger s (o.imm.extractLsb' 0 8)
    .done (s.modGroup x.gid (fun g => wrUni g o.d (n.toNat + (if ok then 2 ^ 32 else 0)))))

end Sys2Proof.Machine
end

