-- ==== Sys2Proof/Machine/Checkpoint.lean ====
section
/-!
DEFINITION. The end of jobs as the Docent sees it (R299, R383), sleep and wake (R60, R61, R302), halts, checkpoint images and
their loading (R303–R313, R326, R327, R402, R403, R459, R460), lost cores and links (R357, R405).
-/

namespace Sys2Proof.Machine

def fwRFPAR : W32 := 0x40404001#32
def fwRSTSTR : W32 := 0x40505002#32
def fwRSTCRC : W32 := 0x40505003#32
def fwRSTRSV : W32 := 0x40505004#32
def fwRSTSHP : W32 := 0x40505005#32
def fwRSTBLK : W32 := 0x40505006#32
def fwRSTPC : W32 := 0x40505007#32
def fwCLRST : W32 := 0x60101003#32
def fwDBGEDIT : W32 := 0xA2305001#32
def fwLINKDOWN : W32 := 0x80101001#32
def fwMPAIRLOST : W32 := 0x40202001#32

/-! ### Completion of a job (R299, R376, R378, R383, R403) -/

/-- A tile of a record completes: the record keeps the status of the first failure and completes with its last tile. -/
def tileDone (s : State) (d q : Nat) (n status : W32) (failed : Bool) : State :=
  match s.recOf d q n with
  | none => s
  | some r =>
    let r' := { r with left := r.left - 1, failed := r.failed || failed, status := if failed && !r.failed then status else r.status }
    let s := s.modQueue d q (fun x => { x with recs := modRec n (fun _ => r') x.recs })
    if r'.left = 0 then completeRec s d q n r'.status r'.failed else s

/-- R383, R403: the job's event, its record, and the RESUME record that brought it back. -/
def settleJob (s : State) (r : JobRec) (status : W32) (failed : Bool) : State :=
  let op : CatOp := if failed then .fail else .add
  let (lost, s) : Bool × State := if r.evon then
      catTry s (if r.evtile then evTileName r.event r.tile.toNat else r.event) op 1#32 else (false, s)
  let s := tileDone s r.die r.queue r.recn (if lost && !failed then fwFABDOWN else status) (failed || lost)
  match r.resumed with
  | none => s
  | some (d, q, n) =>
    match s.recOf d q n with
    | none => s
    | some rr =>
      let (lost, s) : Bool × State := match rr.ins with
        | .resume _ _ _ _ _ event true => catTry s event op 1#32
        | _ => (false, s)
      completeRec s d q n (if lost && !failed then fwFABDOWN else status) (failed || lost)

/-- R459, R461: STATE of a debug stop of MODE 010 or 011 once no named job is left to save. -/
def dbgTurn (s : State) : State :=
  let m := dbgMode s.hub.dbgctl
  if s.hub.dbgstat != 1#32 || m < 2 || s.teams.any (fun t => t.2.stopWhy = 2) then s
  else
    let st : W32 := if m = 3 || s.hub.dbgimg != 0#64 then 2#32 else if dbgStands s s.hub.dbgctl then 1#32 else 3#32
    { s with hub := { s.hub with dbgstat := st } }

/-- Whether the accesses of an ended job have all performed, its outstanding stores apart (R299). -/
def reportQuiet (s : State) (r : Report) : Bool :=
  r.cps.isEmpty
  && s.cores.all (fun c => c.2.copies.all (fun x => x.job != some r.job))
  && s.cores.all (fun c => c.2.mseq.all (fun e => e.old = 0 || cidOf e.gid != r.cid || (s.posOf e.gid).1 != r.team))

/-- The reports of one job: its own, or those of every member of its cluster. -/
def sameJob (a b : Report) : Bool :=
  match a.job.member, b.job.member with
  | some (k, _), some (l, _) => k = l
  | _, _ => a = b
/-- Whether a member of a cluster instance still runs or is about to. -/
def instanceRuns (s : State) (key : Nat) : Bool :=
  let of (j : Option Job) : Bool := match j with | some j => j.r.member.map (fun m => m.1) = some key | none => false
  s.teams.any (fun t => of t.2.job || of t.2.launching)

/-- The outstanding stores of an ended job perform, each with the registers of its issue unless it had read them; a failure has no thread
left to be charged to. The report is the cross-path fence of R218 at the die or wider, so the dirty bytes of the core's L1 go to their
homes (R383). -/
def finishStores (s : State) (r : Report) : State :=
  let t := r.sts.foldl (fun s e => e.2.accs.foldl (fun s a => (access s e.1 e.2.ins a).2) s) s
  let t := (l1WriteBack t r.cid true true).showSp r.cid 0x1F#5 0x1F#5 0
  { t with groups := s.groups }

/-- JOB_COMPLETION_REPORT: once every access of the job has performed, its groups restart, its event steps and its record counts it. The die is
`ix mod 4`, the report's position `ix / 4`. -/
def completionReport (s : State) (ix : Nat) : State :=
  let d := ix % 4
  match (s.die d).reports[ix / 4]? with
  | none => s
  | some r =>
    let rs := (s.die d).reports.filter (sameJob r)
    let runs : Bool := match r.job.member with | some (k, _) => instanceRuns s k | none => false
    if runs || !rs.all (reportQuiet s) then s
    else
      let s := rs.foldl (fun s r => restartEnded s (8 * r.cid + r.team)) (rs.foldl finishStores s)
      let s : State := match r.job.member with | some (k, _) => { s with clusters := Tbl.del k s.clusters } | none => s
      let s := s.modDie d (fun x => { x with reports := x.reports.filter (fun y => !sameJob r y) })
      dbgTurn (docentTurn (prunePins (settleJob s r.job r.status r.failed) d) d)
def execJobCompletionReport (ix : Nat) (s : State) : Host.Outcome State Fault Refusal := next (completionReport s ix)

/-! ### Waking (R60, R61) -/

/-- The records of a cluster instance leave the job hampers, and the instance ends. -/
def dropInstance (s : State) (key : Nat) : State :=
  { s with
    clusters := Tbl.del key s.clusters
    cores := s.cores.map (fun (c : Nat × Core) =>
      (c.1, { c.2 with jobs := c.2.jobs.filter (fun y => y.member.map (fun m => m.1) != some key) })) }
/-- The job records of a core that no team has taken become unplaced again (R401, R405). -/
def withdrawCore (s : State) (cid : Nat) : State :=
  (s.core cid).jobs.foldl (fun s r =>
    if mayWithdraw s r then
      let s := match r.member with
        | some (key, _) =>
          dropInstance s key
        | none => s.modCore cid (fun c => { c with jobs := c.jobs.filter (fun y => y != r) })
      s.modQueue r.die r.queue (fun x => { x with
        recs := modRec r.recn (fun y => { y with back := insNat r.tile.toNat y.back }) x.recs })
    else s) s

/-- R60, R61: the sweep of a waking core, with the parity errors it finds (bank and row of each). -/
def coreWake (s : State) (cid : Nat) (errors : List (BitVec 2 × BitVec 12)) : State :=
  if !(s.core cid).asleep then s
  else
    let s := s.modCore cid (fun c => { c with asleep := false })
    match errors with
    | [] => s
    | (bank, row) :: more =>
      let at_ := BitVec.ofNat 64 (bank.toNat + row.toNat * 4 + min 0xFFFF more.length * 65536)
      let s := s.modCore cid (fun c => { c with dead := true })
      let s := (upTo 8).foldl (fun s t => if (s.team (8 * cid + t)).st = .idle then restartIdle s (8 * cid + t) else s) s
      (withdrawCore s cid).logErr (dieOf cid) fwRFPAR (coreSite s cid) at_
def execCoreWake (c : Nat) (errors : List (BitVec 2 × BitVec 12)) (s : State) : Host.Outcome State Fault Refusal :=
  next (coreWake s c errors)

/-! ### Halt (R303, R395) -/

/-- R303: a team of which a halt has been asked stops, and its halt is numbered; a waiting thread keeps its instruction as its PC. -/
def haltTeam (s : State) (tid : Nat) : State :=
  let t := s.team tid
  if t.st != .run || t.stopWhy = 0 || t.job.isNone then s
  else
    let s := matHalt s tid
    let gs := s.groupsOf tid
    let s := gs.foldl (fun s g => s.modGroup g (fun x => { x with threads := x.threads.map (fun y => (y.1, { y.2 with wait := none })) })) s
    let s : State := { s with cores := s.cores.map (fun e => (e.1, { e.2 with pushq := e.2.pushq.filter (fun x => !gs.contains x.1) })) }
    let s := s.modCore (tid / 8) (fun c => { dropLatch gs c with
      tsq := c.tsq.filter (fun e => !gs.contains e.1), blockq := c.blockq.filter (fun e => !gs.contains e.1) })
    { (s.modTeam tid (fun t => { t with st := .halted, haltNo := s.fresh })) with fresh := s.fresh + 1 }
def execHaltRequest (t : Nat) (s : State) : Host.Outcome State Fault Refusal := next (haltTeam s t)

/-- The teams of a partition. -/
def partTeams (s : State) (p : Nat) : Nat :=
  (upTo 4).foldl (fun a d => (partCores s d p).foldl (fun a c => a + pwTeams (s.core c).pword + 1) a) 0
def freeSlots (s : State) (p : Nat) : List Nat :=
  let x := s.part p
  (upTo x.saven.toNat).filter (fun k => !x.saves.contains k)

/-- R395: an `evwait` of a job that has waited longer than DCTL.EVB allows halts its team or cluster. -/
def budgetExpire (s : State) (gid : Nat) : State :=
  let g := s.group gid
  let d := dieOf (cidOf gid)
  let p := s.pnum (cidOf gid)
  let evb := dctlEvb (s.die d)
  match waitInstr g (waiters g (fun i => match i with | .evwait _ => true | _ => false)) with
  | some (.evwait o) =>
    if (s.jobOf gid).isNone || (s.team (s.tidOf gid)).stopWhy != 0 || evb = 0x1F
        || s.cycle.toNat < g.since.toNat + 2 ^ (evb + 10) || (freeSlots s p).length ≤ partTeams s p then s
    else
      let e := evwaitName s gid o
      let ts := jobTeams s (s.tidOf gid)
      requestHalt (ts.foldl (fun s t => s.modTeam t (fun x => { x with stopEv := e })) s) (s.tidOf gid) 3
  | _ => s
def execEvwaitBudgetExpire (g : Nat) (s : State) : Host.Outcome State Fault Refusal := next (budgetExpire s g)

/-! ### Images (R306–R311) -/

def zeros (n : Nat) : List Byte := List.replicate n 0#8
def padTo (n : Nat) (bs : List Byte) : List Byte := bs ++ zeros (n - bs.length)
def up128 (n : Nat) : Nat := (n + 127) / 128 * 128

def loopBytes (e : LoopEnt) : List Byte := bytesOf 8 e.start.toNat ++ bytesOf 8 e.stop.toNat ++ bytesOf 4 e.count.toNat ++ zeros 4
/-- R309. -/
def threadBytes (g : Group) (lane : Nat) : List Byte :=
  let t := g.thread lane
  if !g.fmask.getLsbD lane then zeros 256
  else
    bytesOf 8 t.pc.toNat ++ bytesOf 4 (Thread.tsr t).toNat ++ bytesOf 1 t.preds.toNat ++ bytesOf 1 (min t.cdepth 16)
    ++ bytesOf 1 (if t.pend.isSome then 1 else 0) ++ zeros 1 ++ bytesOf 4 t.tcause.toNat ++ zeros 4 ++ bytesOf 8 t.tpc.toNat
    ++ bytesOf 8 t.taddr.toNat ++ padTo 48 (t.loops.reverse.flatMap loopBytes) ++ bytesOf 8 t.pc.toNat
    ++ padTo 128 ((t.rstack.take (min t.cdepth 16)).reverse.flatMap (fun a => bytesOf 8 a.toNat))
    ++ bytesOf 8 (t.pend.getD 0#64).toNat ++ zeros 24
/-- R308. -/
def groupBytes (g : Group) : List Byte :=
  bytesOf 8 (g.fmask.toNat * 2 ^ 32 + g.xblk * 2 ^ 7 + (if g.aft then 2 else 0) + (if g.aov then 1 else 0))
  ++ bytesOf 4 g.tlanes.toNat ++ bytesOf 4 g.bcount.toNat ++ bytesOf 4 g.q.toNat ++ zeros 12
  ++ (upTo 64).flatMap (fun i => bytesOf 8 (g.ureg i).toNat)
  ++ (upTo 32).flatMap (fun i => bytesOf 8 (g.abase i).toNat ++ bytesOf 4 (g.astride i).toNat) ++ zeros 96
  ++ lanes.flatMap (threadBytes g)
  ++ (upTo (64 + 32 * g.xblk)).flatMap (fun n => lanes.flatMap (fun l => bytesOf 4 (g.vreg l n).toNat))
/-- R310. -/
def seqBytes (s : State) (e : SeqEnt) : List Byte :=
  bytesOf 12 (encodeWord e.ins).toNat ++ bytesOf 1 (s.posOf e.gid).2 ++ bytesOf 1 e.row ++ zeros 2
  ++ bytesOf 8 e.a.toNat ++ bytesOf 8 e.b.toNat ++ bytesOf 8 e.c.toNat ++ bytesOf 8 e.c1.toNat ++ zeros 16
/-- R306: a tile's section. -/
def tileBytes (c : Core) (k : Nat) : List Byte :=
  lanes.flatMap (fun r => (tileRow c k r).flatMap (fun x => bytesOf 4 x))
  ++ lanes.flatMap (fun r => bytesOf 4 (tileMax c k r) ++ bytesOf 4 (tileSum c k r))
  ++ padTo 128 (bytesOf 4 (Tbl.get 0#32 k c.tileF).toNat)

/-- The queue entries of a team's image: its own, the follower's copy of an `mma.p` apart (R259). -/
def teamEntries (s : State) (tid : Nat) : List SeqEnt :=
  (s.core (tid / 8)).mseq.filter (fun e => e.old = 0 && s.tidOf e.gid = tid)

/-- R306: section offsets and size for groups holding some blocks. -/
def imageOfs (xblks : List Nat) (qlen acct scratch : Nat) : List Nat × Nat :=
  let grp := 0x100
  let seq := grp + xblks.foldl (fun a x => a + 9216 + 128 * (64 + 32 * x)) 0
  let tm := seq + up128 (64 * qlen)
  let ac := tm + 2048
  let sp := ac + acct * 16768
  ([grp, seq, tm, ac, sp], sp + up128 scratch)

/-- R307: QSEQ of a job record (R386). -/
def qseqOf (r : JobRec) : Nat := r.queue * 2 ^ 16 + r.seq.toNat

/-- R306, R307: a team's image; `flags` holds DEBUG and POISONED. -/
def imageBytes (s : State) (tid : Nat) (j : Job) (flags : Nat) : List Byte :=
  let cid := tid / 8
  let c := s.core cid
  let gs := s.groupsOf tid
  let es := teamEntries s tid
  let (ofs, size) := imageOfs (gs.map (fun g => (s.group g).xblk)) es.length j.hdr.acct j.hdr.scratch
  let slots := (upTo 32).map (fun k => Tbl.find (tmplKey tid k) c.tmpl)
  let tmask := (upTo 32).foldl (fun a k => if (Tbl.find (tmplKey tid k) c.tmpl).isSome then a + 2 ^ k else a) 0
  let head (crc : Nat) : List Byte := padTo 256 ([0x48#8, 0x58#8, 0x43#8, 0x50#8] ++ bytesOf 2 1 ++ bytesOf 2 0x100 ++ bytesOf 4 size
    ++ bytesOf 4 crc ++ bytesOf 8 j.r.entry.toNat ++ bytesOf 4 c.pword.toNat ++ bytesOf 1 (tid % 8) ++ bytesOf 1 gs.length
    ++ bytesOf 1 j.hdr.acct ++ bytesOf 1 (flags + (if j.hdr.cluster then 1 else 0)) ++ bytesOf 4 j.hdr.scratch ++ bytesOf 4 j.r.jacc.toNat
    ++ bytesOf 8 (s.team tid).lbase.toNat ++ bytesOf 4 j.r.sdepth.toNat ++ bytesOf 4 tmask ++ bytesOf 4 (qseqOf j.r) ++ zeros 4
    ++ bytesOf 8 j.stackb.toNat ++ bytesOf 1 es.length ++ zeros 7 ++ ofs.flatMap (fun o => bytesOf 4 o))
  let body := gs.flatMap (fun g => groupBytes (s.group g)) ++ padTo (up128 (64 * es.length)) (es.flatMap (seqBytes s))
    ++ slots.flatMap (fun t => bytesOf 64 (t.getD 0#512).toNat)
    ++ (upTo j.hdr.acct).flatMap (fun k => tileBytes c (tid % 8 * tileShare c.pword + k))
    ++ padTo (up128 j.hdr.scratch) (s.spBytes cid (tid % 8 * s.spLimit cid) j.hdr.scratch)
  head (crc32c (head 0 ++ body)).toNat ++ body

/-- R327: the entries of a message in the overflow section. -/
def ovfBytes (m : Msg) : List Byte :=
  (upTo (msgEntries m)).flatMap (fun k =>
    (if k = 0 then envelope m else zeros 10 ++ [2#8] ++ zeros 5) ++ padTo 128 ((m.data.drop (128 * k)).take 128))
def postBytes (r : Posted) : List Byte :=
  bytesOf 8 r.buf.toNat ++ bytesOf 4 r.cap ++ bytesOf 4 r.word ++ bytesOf 8 r.spec.toNat ++ bytesOf 4 r.handle.toNat ++ bytesOf 1 1 ++ zeros 3
/-- R327: the cluster record. -/
def clusterBytes (s : State) (c : Cluster) : List Byte :=
  let size := 0x120 + c.cw * c.ch * 0x9800
  let head (crc : Nat) : List Byte := [0x48#8, 0x58#8, 0x43#8, 0x4C#8] ++ bytesOf 2 1 ++ bytesOf 1 c.cw ++ bytesOf 1 c.ch
    ++ bytesOf 4 size ++ bytesOf 4 crc ++ zeros 16
  let bars := padTo 256 (c.bars.flatMap (fun b => bytesOf 4 b.gen.toNat ++ bytesOf 2 b.count ++ bytesOf 2 b.target
    ++ bytesOf 48 b.arrived.toNat ++ zeros 8))
  let body := bars ++ c.members.flatMap (fun m =>
    let t := s.team (8 * m + c.team)
    padTo 2048 (t.posted.flatMap postBytes) ++ padTo 36864 (t.ovf.flatMap ovfBytes))
  head (crc32c (head 0 ++ body)).toNat ++ body

/-! ### Saving (R304, R305, R326, R402) -/

/-- R197, R290: whether a copy command that a team has issued, of this job or an earlier one, or that lands in its scratchpad, has not
finished. -/
def copiesStand (s : State) (tid : Nat) : Bool :=
  let hits (cid : Nat) (from_ : Nat) (tmpl : BitVec 512) (mem : List Nat) : Bool :=
    from_ = tid || (from_ % 8 = tid % 8 && (receivers (parseTmpl tmpl) mem cid).contains (tid / 8))
  s.cores.any (fun c => c.2.copies.any (fun x => hits c.1 x.tid x.tmpl x.mem)
    || (waitingCmds s c.1).any (fun x => hits c.1 (s.tidOf x.gid) ((s.tmplOf (s.tidOf x.gid) (cwSlot x.cmd.word)).getD 0#512) x.cmd.mem))
/-- R304, R290, R326: whether every access of a team that is saving has finished. -/
def saveReady (s : State) (tid : Nat) : Bool :=
  let gs := s.groupsOf tid
  (s.team tid).st = .saving && (s.team tid).stalled.isEmpty
  && gs.all (fun g => (s.group g).lds.isEmpty && (s.group g).sts.isEmpty && (s.group g).cps.isEmpty)
  && !copiesStand s tid
  && (s.core (tid / 8)).mseq.all (fun e => s.tidOf e.gid != tid || (e.old = 0 && !e.started))
  && (match s.clusterOf tid with | some (_, c, _) => c.transit.isEmpty | none => true)

/-- A team whose image is sealed returns to Idle, with nothing of its job left on the core. -/
def leaveSaved (s : State) (tid : Nat) : State :=
  let gs := s.groupsOf tid
  let ofTeam (e : SeqEnt) : Bool := e.old = 0 && (gs.contains e.gid
    || (match e.ins with | .mmaP _ _ _ => cidOf e.gid + 1 = tid / 8 && (s.posOf e.gid).1 = tid % 8 | _ => false))
  let s := s.modCore (tid / 8) (fun c => { dropLatch gs c with mseq := c.mseq.filter (fun e => !ofTeam e) })
  restartIdle ((s.showSp (tid / 8) 0x1F#5 0x1F#5 0).modTeam tid (fun t => { t with
    st := .idle, job := none, posted := [], ovf := [], stalled := [], drops := 0, stopWhy := 0, stopEv := 0, haltNo := 0 })) tid

/-- R305: the images of some teams written, and after the first member's the cluster record; none where a write fails. -/
def writeImages (s : State) (p : Nat) (flags : Nat) (l : List (Nat × W64)) (extra : List Byte) : Option State :=
  (l.foldl (fun (a : Option State × List Byte) e =>
    match a.1, (s.team e.1).job with
    | some s, some j =>
      match globalPut s (partCtx s (dieOf (e.1 / 8)) p) e.2 (imageBytes s e.1 j flags ++ a.2) with
      | .ok s => (some s, [])
      | .error _ => (none, [])
    | _, _ => (none, [])) (some s, extra)).1

/-- An image joins a resume list, whose images are in halt order (R401). -/
def insHeld (h : Held) : List Held → List Held
  | [] => [h]
  | x :: t => if h.ord < x.ord then h :: x :: t else x :: insHeld h t
/-- R395, R401, R459: where the Docent keeps an image it has saved. -/
def holdImage (s : State) (h : Held) (r : JobRec) : State :=
  match h.why with
  | 1 => s.modQueue r.die r.queue (fun q => { q with resume := insHeld h q.resume })
  | 2 =>
    let a := h.addrs.headD 0#64
    let s := s.modDie r.die (fun d => { d with held := d.held ++ [h] })
    { s with hub := { s.hub with dbgimg := if s.hub.dbgimg = 0#64 then a else s.hub.dbgimg } }
  | _ => s.modDie r.die (fun d => { d with held := d.held ++ [h] })

/-- R260, R305: whether what a team's image would hold carries an uncorrectable error. -/
def imagePois (s : State) (tid : Nat) (h : KHdr) : Bool :=
  let c := s.core (tid / 8)
  let t0 := tid % 8 * tileShare c.pword
  s.spPoisoned (tid / 8) (tid % 8 * s.spLimit (tid / 8)) h.scratch
  || c.tileP.any (fun e =>
    let k := if e.1 < 2 ^ 32 then e.1 / 4096 else (e.1 - 2 ^ 32) / 64
    decide (t0 ≤ k) && decide (k < t0 + h.acct))

/-- CHECKPOINT_SAVE: the save of a halted team, and of every member of its cluster, begins once the partition has image slots (R297, R402);
once their accesses have finished the images are written; `lost` says that the save meets an uncorrectable error (R305). -/
def save (s : State) (tid : Nat) (lost : Bool) : State :=
  match (s.team tid).job with
  | none => s
  | some j =>
    let ts := jobTeams s tid
    let p := s.pnum (tid / 8)
    let x := s.part p
    let slots := (freeSlots s p).take ts.length
    if slots.length < ts.length then s
    else if ts.all (fun t => (s.team t).st = .halted) then ts.foldl (fun s t => s.modTeam t (fun x => { x with st := .saving })) s
    else if !ts.all (saveReady s) then s
    else
      let addr (k : Nat) : W64 := x.savebase + BitVec.ofNat 64 (x.savesz.toNat * k)
      let bad := lost || ts.any (fun t => imagePois s t j.hdr)
      let why := (s.team tid).stopWhy
      let flags := (if why = 2 then 2 else 0) + (if bad then 4 else 0)
      let extra : List Byte := match s.clusterOf tid with | some (_, c, _) => clusterBytes s c | none => []
      let s := ts.foldl (fun s t => l1WriteBack s (t / 8) true true) s
      match writeImages s p flags (ts.zip (slots.map addr)) extra with
      | none => dbgTurn (endJob s tid fwSAVELOST true)
      | some s =>
        if bad then dbgTurn (endJob s tid fwSAVELOST true)
        else
          let ev := (s.team tid).stopEv
          let hit : Bool := why = 3 && (if evAcc ev = s.ownAcc then (s.evSlotOf ev).reached else (Tbl.find ev.toNat s.fab.answers).isSome)
          let h : Held := ⟨slots, slots.map addr, ts.filterMap (fun t => (s.team t).job), ts.map (fun t => t / 8),
            (s.groupsOf tid).length, tid % 8, why, ev, hit, p, (s.core (tid / 8)).pword, ts.foldl (fun a t => max a (s.team t).haltNo) 0⟩
          let s := ts.foldl leaveSaved s
          let s : State := match j.r.member with | some (key, _) => { s with clusters := Tbl.del key s.clusters } | none => s
          let s := s.setPart p { s.part p with saves := slots ++ (s.part p).saves }
          let s := dbgTurn (holdImage s h j.r)
          docentTurn s j.r.die
def execCheckpointSave (t : Nat) (lost : Bool) (s : State) : Host.Outcome State Fault Refusal := next (save s t lost)

/-! ### Loading (R312, R313) -/

/-- An image as RESUME reads it: its bytes and the offsets of its group records with their XBLK. -/
structure Img where
  bs : List Byte
  grps : List (Nat × Nat)
  deriving DecidableEq, Repr

def Img.f (m : Img) (ofs n : Nat) : Nat := field m.bs ofs n
def Img.entry (m : Img) : W64 := BitVec.ofNat 64 (m.f 0x10 8)
def Img.team (m : Img) : Nat := m.f 0x1C 1
def Img.ngrp (m : Img) : Nat := m.f 0x1D 1
def Img.acct (m : Img) : Nat := m.f 0x1E 1
def Img.flags (m : Img) : Nat := m.f 0x1F 1
def Img.scratch (m : Img) : Nat := m.f 0x20 4
def Img.jacc (m : Img) : Half := BitVec.ofNat 16 (m.f 0x24 4)
def Img.qseq (m : Img) : Nat := m.f 0x38 4
def Img.stackb (m : Img) : W64 := BitVec.ofNat 64 (m.f 0x40 8)
def Img.qlen (m : Img) : Nat := m.f 0x48 1
def Img.sec (m : Img) (k : Nat) : Nat := m.f (0x50 + 4 * k) 4
def allZero (m : Img) (ofs n : Nat) : Bool := ((m.bs.drop ofs).take n).all (fun b => b = 0#8)

/-- The group records from an offset on: offset and XBLK of each. -/
def readGrps (s : State) (c : Ctx) (a : W64) : Nat → Nat → Except W32 (List (Nat × Nat))
  | 0, _ => .ok []
  | n + 1, ofs =>
    match globalBytes s c .load (a + BitVec.ofNat 64 ofs) 8 with
    | .error f => .error f
    | .ok b =>
      let x := natOf b / 128 % 8
      match readGrps s c a n (ofs + 9216 + 128 * (64 + 32 * x)) with
      | .error f => .error f
      | .ok t => .ok ((ofs, x) :: t)

/-- R312 order 1 on the header: magic, version, header size, QLEN. -/
def headOk (h : List Byte) : Bool :=
  field h 0 4 = 0x50435848 && field h 4 2 = 1 && field h 6 2 = 0x100 && field h 0x48 1 ≤ 16

/-- Whether any line of a range is poisoned. -/
def rangePois (s : State) (c : Ctx) (a : W64) (n : Nat) : Bool :=
  match globalAccess s c .load a n with
  | .ok xs => xs.any (fun x => (linePieces (x.len / 128 + 2) x.pa x.len).any (fun p => s.mem.isPois (p.1 / 128)))
  | .error _ => false

/-- The image at an address, through orders 1 and 2. -/
def readImg (s : State) (c : Ctx) (a : W64) : Except W32 Img :=
  match globalBytes s c .load a 256 with
  | .error f => .error f
  | .ok h =>
    if !headOk h then .error fwRSTSTR
    else match readGrps s c a (field h 0x1D 1) 0x100 with
      | .error f => .error f
      | .ok gs =>
        let (ofs, size) := imageOfs (gs.map (fun g => g.2)) (field h 0x48 1) (field h 0x1E 1) (field h 0x20 4)
        if field h 8 4 != size || (upTo 5).any (fun k => field h (0x50 + 4 * k) 4 != nth 0 k ofs) then .error fwRSTSTR
        else match globalBytes s c .load a size with
          | .error f => .error f
          | .ok bs =>
            if field h 0x1F 1 / 4 % 2 = 1 || rangePois s c a size
                || (crc32c (bs.take 12 ++ zeros 4 ++ bs.drop 16)).toNat != field h 12 4 then .error fwRSTCRC
            else .ok ⟨bs, gs⟩

/-- The threads of a group record that have not exited: their record offsets. -/
def Img.threads (m : Img) (o : Nat) : List (Nat × Nat) :=
  ((lanes.filter (fun l => m.f (o + 4) 4 / 2 ^ l % 2 = 1)).map (fun l => (l, o + 1024 + 256 * l)))
def Img.tsr (m : Img) (r : Nat) : Nat := m.f (r + 8) 4
def Img.depth (m : Img) (r : Nat) : Nat := m.tsr r / 2 ^ 8 % 4
def Img.calls (m : Img) (r : Nat) : Nat := m.tsr r / 2 ^ 16 % 1024

/-- R312 order 3 on a thread record; a privilege field of 11 is a reserved value (R9). -/
def threadRsv (m : Img) (r : Nat) : Bool :=
  let ld := min 2 (m.depth r)
  (m.tsr r) &&& 0xFC00E480 != 0 || m.tsr r / 2 ^ 5 % 4 = 3 || m.tsr r / 2 ^ 11 % 4 = 3 || m.f (r + 12) 1 / 128 = 1 || m.f (r + 14) 1 / 2 != 0 || m.f (r + 15) 1 != 0 || !allZero m (r + 0x14) 4
  || !allZero m (r + 0x28 + 24 * ld) (48 - 24 * ld) || !allZero m (r + 0x3C) 4 || !allZero m (r + 0x54) 4 || !allZero m (r + 0xE8) 24
/-- R312 order 3 on a group record, for the counts of the entry's header. -/
def groupRsv (m : Img) (uc ac o : Nat) : Bool :=
  m.f o 8 / 4 % 32 != 0 || m.f (o + 0x10) 4 / 16 != 0 || !allZero m (o + 0x14) 12 || !allZero m (o + 0x20 + 8 * uc) (512 - 8 * uc)
  || !allZero m (o + 0x220 + 12 * ac) (384 - 12 * ac) || !allZero m (o + 0x3A0) 96
  || lanes.any (fun l => if m.f (o + 4) 4 / 2 ^ l % 2 = 1 then threadRsv m (o + 1024 + 256 * l) else !allZero m (o + 1024 + 256 * l) 256)
/-- R312 order 3. -/
def imgRsv (m : Img) (h : Option KHdr) : Bool :=
  let (uc, ac) : Nat × Nat := match h with | some k => (k.ucount, k.acount) | none => (64, 32)
  m.flags / 8 != 0 || m.qseq / 2 ^ 22 != 0 || m.f 0x24 4 / 65536 != 0 || m.f 0x30 4 / 256 != 0 || !allZero m 0x3C 4 || !allZero m 0x49 7 || !allZero m 0x64 156
  || m.grps.any (fun g => groupRsv m uc ac g.1)
  || (upTo m.qlen).any (fun k => let e := m.sec 1 + 64 * k
      !allZero m (e + 14) 2 || !allZero m (e + 48) 16)
  || !allZero m (m.sec 1 + 64 * m.qlen) (m.sec 2 - (m.sec 1 + 64 * m.qlen))
  || (upTo 32).any (fun k => m.f 0x34 4 / 2 ^ k % 2 = 0 && !allZero m (m.sec 2 + 64 * k) 64)
  || (upTo m.acct).any (fun k => let e := m.sec 3 + 16768 * k + 16640
      m.f e 4 / 64 != 0 || !allZero m (e + 4) 124)
  || !allZero m (m.sec 4 + m.scratch) (m.bs.length - (m.sec 4 + m.scratch))

/-- R312 order 4. -/
def imgShape (s : State) (m : Img) (tid : Nat) (h : Option KHdr) : Bool :=
  let c := s.core (tid / 8)
  match h with
  | none => false
  | some k => m.f 0x18 4 = c.pword.toNat && m.team ≤ pwTeams c.pword && m.ngrp = (s.groupsOf tid).length && m.acct = k.acct
    && m.scratch = k.scratch && (m.flags % 2 = 1) = k.cluster && m.acct ≤ tileShare c.pword && m.scratch ≤ spShare c.pword
/-- R460: the fields that a debugger may not edit. -/
def imgEdited (m : Img) (j : Option Job) (team groups : Nat) : Bool :=
  m.flags / 2 % 2 = 1
  && (match j with
    | none => true
    | some j => m.entry != j.r.entry || m.team != team || m.ngrp != groups || m.acct != j.hdr.acct || m.scratch != j.hdr.scratch
      || m.jacc != j.r.jacc || m.stackb != j.stackb || m.qseq != qseqOf j.r)

/-- A saved sequencer entry: its instruction, group position and next row; none where R312 order 5 refuses it. -/
def seqEntry (m : Img) (k : Nat) : Option (Instr × Nat × Nat) :=
  let e := m.sec 1 + 64 * k
  let row := m.f (e + 13) 1
  match decodeWord (BitVec.ofNat 96 (m.f e 12)) with
  | .error _ => none
  | .ok i =>
    let ok (lim : Nat) : Bool := m.f (e + 12) 1 < m.ngrp && row % 16 = 0 && row < lim
    match i with
    | .mtrld _ b8 => if ok (if b8 then 256 else 128) then some (i, m.f (e + 12) 1, row) else none
    | .mma .. | .mmaS .. | .mmaP .. | .accz .. | .accld .. | .accst .. | .accscl .. | .smx .. | .smxf .. | .mred .. =>
      if ok 17 then some (i, m.f (e + 12) 1, row) else none
    | _ => none

/-- R312 order 5 on a thread record. -/
def threadBad (m : Img) (tlanes lane r : Nat) : Bool :=
  let pv := m.tsr r / 2 ^ 5 % 4
  m.calls r > 528 || m.depth r > 2 || m.f (r + 13) 1 != min (m.calls r) 16 || pv > 1 || (pv = 1 && tlanes / 2 ^ lane % 2 = 0)
  || (upTo (min 2 (m.depth r))).any (fun k => allZero m (r + 0x28 + 24 * k) 24)
  || (m.f (r + 14) 1 % 2 = 0 && m.f (r + 0xE0) 8 != 0)
/-- R312 order 5. -/
def imgBlk (s : State) (m : Img) (tid : Nat) (h : KHdr) : Bool :=
  m.grps.all (fun g => h.xbase ≤ g.2 && g.2 ≤ h.xmax && m.f g.1 8 / 2 ^ 10 % 2 ^ 22 = 0 && m.f (g.1 + 4) 4 != 0
    && (m.threads g.1).all (fun t => !threadBad m (m.f (g.1 + 8) 4) t.1 t.2))
  && decide (((m.grps.foldl (fun a g => a + g.2) 0 : Nat) : Int) ≤ s.capacity (tid / 8))
  && (upTo m.qlen).all (fun k => (seqEntry m k).isSome)

/-- R312 order 6: whether a fetch of a PC meets no fault of R483 and finds a slot with TGT. -/
def slotTgt (s : State) (c : Ctx) (cid : Nat) (pc : W64) : Bool :=
  match fetchAddr s c pc with
  | .error _ => false
  | .ok pa => match (checkedLine s cid pa (some (slotIx pc))).1 with
    | .error _ => false
    | .ok l => lineTgt l (slotIx pc)
def imgPcs (s : State) (m : Img) (c : Ctx) (cid : Nat) : Bool :=
  m.grps.all (fun g => (m.threads g.1).all (fun t =>
    let r := t.2
    let w (o : Nat) : W64 := BitVec.ofNat 64 (m.f (r + o) 8)
    let cx := { c with user := m.tsr r / 2 ^ 5 % 4 = 0 }
    pcLegal (w 0) && (w 0 = w 0x58 || slotTgt s cx cid (w 0))
    && (upTo (m.depth r)).all (fun k => slotTgt s cx cid (w (0x28 + 24 * k)) && pcLegal (w (0x30 + 24 * k)))))

/-- R312: orders 3 to 6 of an image for a team; the fault, or the entry's header. `c` is the context of the record's queue, `j`
the job as the Docent holds it. -/
def imgChecks (s : State) (m : Img) (c : Ctx) (tid : Nat) (j : Option Job) (leases : List Lease) : Except W32 KHdr :=
  let h := match globalBytes s c .load (m.entry - 64#64) 64 with
    | .ok bs => parseHeader bs
    | .error _ => none
  let fc : Ctx := { c with acc := m.jacc, leases := some leases }
  if imgRsv m h then .error fwRSTRSV
  else match h with
    | none => .error fwRSTSHP
    | some k =>
      if !imgShape s m tid h then .error fwRSTSHP
      else if imgEdited m j (tid % 8) (s.groupsOf tid).length then .error fwDBGEDIT
      else if !imgBlk s m tid k then .error fwRSTBLK
      else if !imgPcs s m fc (tid / 8) then .error fwRSTPC
      else .ok k

/-- R309: a thread from its record. -/
def loadThread (m : Img) (r : Nat) : Thread :=
  let w (o : Nat) : W64 := BitVec.ofNat 64 (m.f (r + o) 8)
  let t := m.tsr r
  { Thread.zero with
    pc := w 0, cdepth := m.calls r, flags := BitVec.ofNat 5 t, priv := privOf (t / 2 ^ 5 % 4), ppriv := privOf (t / 2 ^ 11 % 4)
    preds := BitVec.ofNat 7 (m.f (r + 12) 1), tcause := BitVec.ofNat 32 (m.f (r + 16) 4), tpc := w 0x18, taddr := w 0x20
    loops := ((upTo (m.depth r)).map (fun k => (⟨w (0x28 + 24 * k), w (0x30 + 24 * k), BitVec.ofNat 32 (m.f (r + 0x38 + 24 * k) 4)⟩ : LoopEnt))).reverse
    rstack := ((upTo (min 16 (m.calls r))).map (fun k => w (0x60 + 8 * k))).reverse
    pend := if m.f (r + 14) 1 % 2 = 1 then some (w 0xE0) else none }
/-- R308: a group from its record. -/
def loadGroup (m : Img) (o x : Nat) : Group :=
  let fmask : Mask := BitVec.ofNat 32 (m.f (o + 4) 4)
  let g : Group := { Group.zero with
    live := true, fmask := fmask, xblk := x, aft := m.f o 8 / 2 % 2 = 1, aov := m.f o 8 % 2 = 1
    tlanes := BitVec.ofNat 32 (m.f (o + 8) 4), bcount := BitVec.ofNat 32 (m.f (o + 12) 4), q := BitVec.ofNat 4 (m.f (o + 16) 4)
    threads := lanes.map (fun l => (l, if fmask.getLsbD l then loadThread m (o + 1024 + 256 * l) else Thread.zero)) }
  let g := (upTo 64).foldl (fun g i => g.setU i (BitVec.ofNat 64 (m.f (o + 0x20 + 8 * i) 8))) g
  let g := (upTo 32).foldl (fun g i => g.setA i (BitVec.ofNat 64 (m.f (o + 0x220 + 12 * i) 8)) (BitVec.ofNat 32 (m.f (o + 0x228 + 12 * i) 4))) g
  { g with v := ((upTo (64 + 32 * x)).flatMap (fun n => lanes.map (fun l =>
      (32 * n + l, (BitVec.ofNat 32 (m.f (o + 9216 + 128 * n + 4 * l) 4) : W32))))).filter (fun e => e.2 != 0#32) }

/-- R306: a tile from its section. -/
def loadTile (m : Img) (o k : Nat) (c : Core) : Core :=
  let c := lanes.foldl (fun c r => setTileRow c k r ((upTo 128).map (fun n => ⟨m.f (o + 512 * r + 4 * n) 4, 0#5, false⟩))) c
  let c := lanes.foldl (fun c r => setSide c k r ⟨m.f (o + 16384 + 8 * r) 4, 0#5, false⟩ ⟨m.f (o + 16388 + 8 * r) 4, 0#5, false⟩) c
  { c with tileF := Tbl.put k (BitVec.ofNat 32 (m.f (o + 16640) 4)) c.tileF }

/-- The translated rows of a saved entry whose operand is global (R233, R259). -/
def entryRows (s : State) (x : At) (i : Instr) (a b : W64) : List (List Xl) :=
  let get (r : Except (W32 × W64) (List (List Xl))) : List (List Xl) := match r with | .ok l => l | .error _ => []
  match i with
  | .accld _ side fmt | .accst _ _ _ side fmt =>
    let u : Use := match i with | .accld .. => .load | _ => .store
    let row := 128 * (elemBits fmt / 8)
    (match side with
    | .data => get (footprint s x u true 16 a 32 (strideOf row b) row)
    | .ml => get (footprint s x u true 16 a 32 8 8)
    | .fl => get (footprint s x u true 16 a 1 4 4))
  | .mtrld _ b8 =>
    let n := if b8 then 1 else 2
    get (footprint s x .load true 16 a (256 / n) (strideOf (128 * n) b) (128 * n))
  | _ => []

/-- R259, R313: a saved entry returns to the queue with its next row. -/
def queueSaved (s : State) (gid : Nat) (m : Img) (k : Nat) : State :=
  match seqEntry m k with
  | none => s
  | some (i, pos, row) =>
    let o := m.sec 1 + 64 * k + 16
    let w (n : Nat) : W64 := BitVec.ofNat 64 (m.f (o + 8 * n) 8)
    let g := gid + pos
    let x : At := ⟨g, (s.group g).fmask, (s.group g).fmask, s.env g⟩
    queueEnt s ⟨0, [], i, g, row, false, 0, entryRows s x i (w 0) (w 1), w 0, w 1, w 2, w 3⟩

/-- R313: a team loads an image; it stays in Restoring until its saved entries have run (`queueSaved`, `releaseRestored`). -/
def loadImg (s : State) (m : Img) (tid : Nat) (j : Job) : State :=
  let cid := tid / 8
  let gs := s.groupsOf tid
  let s := s.setSp cid (tid % 8 * s.spLimit cid) ((m.bs.drop (m.sec 4)).take m.scratch)
  let s := s.modCore cid (fun c => (upTo m.acct).foldl (fun c k =>
    loadTile m (m.sec 3 + 16768 * k) (tid % 8 * tileShare c.pword + k) c) c)
  let s := s.modCore cid (fun c => (upTo 32).foldl (fun c k => { c with
    tmpl := if m.f 0x34 4 / 2 ^ k % 2 = 1 then Tbl.put (tmplKey tid k) (BitVec.ofNat 512 (m.f (m.sec 2 + 64 * k) 64)) c.tmpl
      else Tbl.del (tmplKey tid k) c.tmpl }) c)
  let s := if j.r.jacc != (s.core cid).lastAcc then l1Invalidate s cid true true else s
  let s := s.modCore cid (fun c => { dropLatch gs c with lastAcc := j.r.jacc })
  let s := (gs.zip m.grps).foldl (fun s e => s.setGroup e.1 (loadGroup m e.2.1 e.2.2)) s
  s.modTeam tid (fun t => { t with
    st := .restoring, job := some j, lbase := BitVec.ofNat 64 (m.f 0x28 8), posted := [], ovf := [], stalled := [], drops := 0
    serial := 0, stopWhy := 0, stopEv := 0, haltNo := 0 })

/-- R312: what refuses an image that no team of the target fits: orders 1 to 3 go before RSTSHP. -/
def shapeFault (s : State) (c : Ctx) (a : W64) : W32 :=
  match readImg s c a with
  | .error f => f
  | .ok m =>
    let h := match globalBytes s c .load (m.entry - 64#64) 64 with
      | .ok bs => parseHeader bs
      | .error _ => none
    if imgRsv m h then fwRSTRSV else fwRSTSHP

/-- R312, R313: one image into one Idle team: the fault, or the state with the team in Restoring. `c` reads the image. -/
def restoreOne (s : State) (c : Ctx) (a : W64) (tid : Nat) (held : Option Job) (mk : Img → KHdr → Job) (leases : List Lease) :
    Except W32 (Img × State) :=
  match readImg s c a with
  | .error f => .error f
  | .ok m =>
    match imgChecks s m c tid held leases with
    | .error f => .error f
    | .ok h => .ok (m, loadImg s m tid (mk m h))

/-- The saved entries of an image, in order. -/
def queueAll (s : State) (tid : Nat) (m : Img) : State :=
  (upTo m.qlen).foldl (fun s k => queueSaved s ((s.groupsOf tid).headD 0) m k) s

/-! ### The cluster record on RESUME (R327) -/

/-- R327, R336: the zero fields of an overflow entry: of an empty one every byte, of a message its envelope's last bytes, of a continued payload
all of its envelope but FORM. -/
def ovfEntOk (m : Img) (o : Nat) (cont : Bool) : Bool :=
  if cont then m.f (o + 10) 1 = 2 && allZero m o 10 && allZero m (o + 11) 5
  else if m.f (o + 4) 4 = 0 then allZero m o 144
  else m.f (o + 10) 1 ≤ 1 && allZero m (o + 11) 5
/-- The overflow section of a member: messages in order, each with the entries that continue it, then empty entries; `left` entries continue
the message before, `ended` says that an empty entry has been met. -/
def ovfSecOk (m : Img) (o left : Nat) (ended : Bool) : Nat → Bool
  | 0 => left = 0
  | n + 1 =>
    if left > 0 then ovfEntOk m o true && ovfSecOk m (o + 144) (left - 1) ended n
    else
      let len := m.f (o + 4) 4
      ovfEntOk m o false && (len = 0 || (!ended && len ≤ 4096)) && ovfSecOk m (o + 144) ((len + 127) / 128 - 1) (ended || len = 0) n
/-- The posted receives of a member: VALID and zero fields, empty entries last. -/
def postSecOk (m : Img) (o : Nat) (ended : Bool) : Nat → Bool
  | 0 => true
  | n + 1 =>
    let v := m.f (o + 28) 1
    allZero m (o + 29) 3 && v ≤ 1 && (if v = 1 then !ended else allZero m o 32) && postSecOk m (o + 32) (ended || v = 0) n

/-- R327: a cluster record, checked for a cluster of a shape. -/
def readCluster (s : State) (c : Ctx) (a : W64) (cw ch : Nat) : Except W32 (List Byte) :=
  let size := 0x120 + cw * ch * 0x9800
  match globalBytes s c .load a 16 with
  | .error f => .error f
  | .ok h =>
    if field h 0 4 != 0x4C435848 || field h 4 2 != 1 || field h 6 1 != cw || field h 7 1 != ch || field h 8 4 != size then .error fwCLRST
    else match globalBytes s c .load a size with
      | .error f => .error f
      | .ok bs =>
        let m : Img := ⟨bs, []⟩
        if rangePois s c a size || (crc32c (bs.take 12 ++ zeros 4 ++ bs.drop 16)).toNat != field bs 12 4 || !allZero m 0x10 16
            || (upTo 4).any (fun b => !allZero m (0x20 + 64 * b + 56) 8)
            || (upTo (cw * ch)).any (fun k => !postSecOk m (0x120 + 0x9800 * k) false 64
              || !ovfSecOk m (0x120 + 0x9800 * k + 2048) 0 false 256) then .error fwCLRST
        else .ok bs

/-- The overflow messages of a member block, from its entries (R327). -/
def readOvf (bs : List Byte) (o : Nat) : Nat → List Msg
  | 0 => []
  | n + 1 =>
    let len := field bs (o + 4) 4
    if field bs (o + 10) 1 = 2 || len = 0 then readOvf bs (o + 144) n
    else
      let data := (upTo ((len + 127) / 128)).flatMap (fun k => (bs.drop (o + 144 * k + 16)).take 128)
      ⟨BitVec.ofNat 32 (field bs o 4), field bs (o + 8) 1, field bs (o + 9) 1, field bs (o + 10) 1 = 1, data.take len⟩
        :: readOvf bs (o + 144) n
def readPosted (bs : List Byte) (o : Nat) : List Posted :=
  ((upTo 64).filter (fun k => field bs (o + 32 * k + 28) 1 = 1)).map (fun k =>
    let p := o + 32 * k
    ⟨BitVec.ofNat 64 (field bs p 8), field bs (p + 8) 4, field bs (p + 12) 4, BitVec.ofNat 64 (field bs (p + 16) 8),
      BitVec.ofNat 32 (field bs (p + 24) 4)⟩)
def readBar (bs : List Byte) (o : Nat) : ClBar :=
  ⟨BitVec.ofNat 32 (field bs o 4), field bs (o + 4) 2, field bs (o + 6) 2, BitVec.ofNat 384 (field bs (o + 8) 48)⟩

/-! ### Clusters of a partition (R320, R321) -/

/-- Origin and member cores, in index order, of the cluster that a core is configured into. -/
def gridOf (s : State) (cid : Nat) : Option (Nat × List Nat) :=
  let c := (s.core cid).clcfg
  if clCw c = 0 then none
  else
    let o := 64 * dieOf cid + 8 * clOrow c + clOcol c
    let ms := (upTo (clCh c)).flatMap (fun r => (upTo (clCw c)).map (fun k => o + 8 * r + k))
    if ms.all (fun m => (s.core m).clcfg.extractLsb' 0 14 = c.extractLsb' 0 14 && s.partOf m = s.partOf cid) then some (o, ms) else none
/-- The clusters of a partition on a die, by ascending origin. -/
def gridsOf (s : State) (d p : Nat) : List (Nat × List Nat) :=
  (partCores s d p).filterMap (fun c => match gridOf s c with
    | some (o, ms) => if o = c then some (o, ms) else none
    | none => none)

/-- R403: whether a team of a core may take an image: Idle, on a core that still takes jobs. -/
def canTake (s : State) (tid : Nat) : Bool :=
  let c := s.core (tid / 8)
  let t := s.team tid
  !c.dead && !c.lost && !c.asleep && t.st = .idle && t.job.isNone && t.launching.isNone && !(s.groupsOf tid).isEmpty

/-- The extension blocks that an image needs are free on a core (R50). -/
def blocksFree (s : State) (c : Ctx) (a : W64) (tid : Nat) : Bool :=
  let own := (s.groupsOf tid).foldl (fun n g => n + (s.group g).xblk) 0
  match globalBytes s c .load a 256 with
  | .error _ => true
  | .ok h => match readGrps s c a (min 32 (field h 0x1D 1)) 0x100 with
    | .error _ => true
    | .ok gs => decide (((gs.foldl (fun n g => n + g.2) 0 : Nat) : Int) ≤ s.freeBlocks (tid / 8) + own
        ∨ s.capacity (tid / 8) < ((gs.foldl (fun n g => n + g.2) 0 : Nat) : Int))

/-- Images loaded into teams, one each, and then their saved entries queued; the first fault loads nothing. -/
def restoreAll (s : State) (c : Ctx) (l : List (Nat × W64 × Option Job)) (mk : Nat → Option Job → Img → KHdr → Job) (leases : List Lease) :
    Except W32 State :=
  let r := l.foldl (fun (a : Except W32 (State × List (Nat × Img))) e =>
    match a with
    | .error f => .error f
    | .ok (s, ms) => match restoreOne s c e.2.1 e.1 e.2.2 (mk e.1 e.2.2) leases with
      | .error f => .error f
      | .ok (m, s) => .ok (s, ms ++ [(e.1, m)])) (.ok (s, []))
  match r with
  | .error f => .error f
  | .ok (s, ms) => .ok (ms.foldl (fun s e => queueAll s e.1 e.2) s)

/-- The key of a new cluster instance: its origin and team, and a number above them that tells waiting instances apart. -/
def freeKey (s : State) (k : Nat) : Nat :=
  k + 2048 * ((upTo 64).find? (fun m => (Tbl.find (k + 2048 * m) s.clusters).isNone)).getD 64
/-- R326, R327: the members of a resumed cluster joined, their messages and barriers restored. -/
def joinCluster (s : State) (o : Nat) (ms : List Nat) (team cw ch : Nat) (bs : List Byte) : State :=
  let key := freeKey s (8 * o + team)
  let s := ((ms.zip (upTo ms.length)).foldl (fun s e =>
    s.modTeam (8 * e.1 + team) (fun t =>
      let ps := readPosted bs (0x120 + 0x9800 * e.2)
      { t with posted := ps, ovf := readOvf bs (0x120 + 0x9800 * e.2 + 2048) 256
               serial := ps.foldl (fun a r => max a (r.handle.toNat / 64 + 1)) 0
               job := t.job.map (fun j => { j with r := { j.r with member := some (key, e.2) } }) })) s)
  releaseRestored { s with clusters := Tbl.put key ⟨ms, team, cw, ch, true, (upTo 4).map (fun b => readBar bs (0x20 + 64 * b)), []⟩ s.clusters }
    (8 * o + team)

/-- The end of the Docent's hold on an image: its slots are free again (R402, R403). -/
def dropHeld (s : State) (d q : Nat) (h : Held) : State :=
  let s := s.modQueue d q (fun x => { x with resume := x.resume.filter (fun y => y != h) })
  let s := s.modDie d (fun x => { x with held := x.held.filter (fun y => y != h) })
  s.setPart h.part { s.part h.part with saves := (s.part h.part).saves.filter (fun k => !h.slots.contains k) }

/-- R326: the clusters of a partition on a die of one shape, those whose cores all hold a partition word first. -/
def gridsFit (s : State) (d p cw ch : Nat) (pw : W32) : List (Nat × List Nat) :=
  let gs := (gridsOf s d p).filter (fun g => clCw (s.core g.1).clcfg = cw && clCh (s.core g.1).clcfg = ch)
  let same := gs.filter (fun g => g.2.all (fun m => (s.core m).pword = pw))
  if same.isEmpty then gs else same
/-- R403: the teams that may take a held image, first choice first: none where none is free. -/
def heldTarget (s : State) (d : Nat) (h : Held) : Option (Nat × List Nat) :=
  match h.jobs with
  | [] => none
  | j :: _ =>
    if j.r.member.isSome then
      let cw := match h.cores with
        | a :: t => ((a :: t).filter (fun c => c / 8 = a / 8)).length
        | [] => 0
      ((gridsFit s d h.part cw (h.cores.length / cw) h.pword).find? (fun g => g.2.all (fun m => canTake s (8 * m + h.team)))).map
        (fun g => (g.1, g.2.map (fun m => 8 * m + h.team)))
    else
      let cand := (partCores s d h.part).flatMap (fun c => if j.r.anyteam then
          ((upTo 8).map (fun t => 8 * c + t)).filter (fun t => (s.groupsOf t).length = h.groups) else [8 * c + h.team])
      (cand.find? (canTake s)).map (fun t => (t / 8, [t]))

/-- R313, R403: the job of a held image as it goes on: with the JACC and SDEPTH of the image. -/
def heldJob (j : Job) (team : Nat) (m : Img) (k : KHdr) (re : Option (Nat × Nat × W32)) : Job :=
  { j with hdr := k, r := { j.r with jacc := m.jacc, sdepth := BitVec.ofNat 8 (m.f 0x30 4), team := team, resumed := re } }
/-- A held image restored to some teams; `re` the RESUME record that asked for it. -/
def restoreHeld (s : State) (c : Ctx) (h : Held) (o : Nat) (ts : List Nat) (re : Option (Nat × Nat × W32)) : Except W32 State :=
  let ls : List Lease := (h.jobs.head?.map (fun j => j.r.leases)).getD []
  let mk (t : Nat) (j : Option Job) (m : Img) (k : KHdr) : Job :=
    match j with
    | some j => heldJob j (t % 8) m k re
    | none => ⟨⟨m.entry, 0#64, 0#32, 0#32, false, false, m.jacc, BitVec.ofNat 8 (m.f 0x30 4), t % 8, false, 0, 0#16, 0, 0#32, ls, none, re⟩, k, m.stackb⟩
  let l := (ts.zip (h.addrs.zip h.jobs)).map (fun e => (e.1, e.2.1, some e.2.2))
  match h.jobs with
  | j :: _ =>
    if j.r.member.isSome then
      let cw := clCw (s.core o).clcfg
      let ch := clCh (s.core o).clcfg
      let size := match readImg s c (h.addrs.headD 0#64) with | .ok m => m.bs.length | .error _ => 0
      match readCluster s c (h.addrs.headD 0#64 + BitVec.ofNat 64 size) cw ch with
      | .error f => .error f
      | .ok bs => match restoreAll s c l mk ls with
        | .error f => .error f
        | .ok s => .ok (joinCluster s o (ts.map (fun t => t / 8)) h.team cw ch bs)
    else (restoreAll s c l mk ls).map (fun s => ts.foldl releaseRestored s)
  | [] => .error fwRSTSTR

/-- R403: an image that fails its checks leaves the list: its job has ended abnormally. -/
def failHeld (s : State) (h : Held) (f : W32) : State :=
  match h.jobs with
  | j :: _ => prunePins (settleJob (dropHeld s j.r.die j.r.queue h) j.r f true) j.r.die
  | [] => s

/-- R395, R403: the next image that a queue's Docent would resume. -/
def nextHeld (s : State) (d q : Nat) : Option Held :=
  let x := s.queue d q
  if x.drain.isSome || !dctlEn (s.die d) then none
  else match x.resume, qRun x with
    | h :: _, true => some h
    | _, _ => (s.die d).held.find? (fun h => h.why = 3 && h.hit && (match h.jobs with | j :: _ => j.r.queue = q | [] => false))

/-- RESUME_LIST_RESUME: the next image of a queue, resumed where a team is free (R403). -/
def resumeNext (s : State) (d q : Nat) : State :=
  match nextHeld s d q with
  | none => s
  | some h =>
    let c := partCtx s d h.part
    match heldTarget s d h with
    | none => s
    | some (o, ts) =>
      if !(ts.zip h.addrs).all (fun e => blocksFree s c e.2 e.1) then s
      else match restoreHeld s c h o ts (h.jobs.head?.bind (fun j => j.r.resumed)) with
        | .ok s => docentTurn (dropHeld s d q h) d
        | .error f => docentTurn (failHeld s h f) d
def execResumeListResume (d q : Nat) (s : State) : Host.Outcome State Fault Refusal := next (resumeNext s d q)

/-! ### Lost links and cores (R357, R405) -/

/-- R357, R363: a link of the network or of a gateway dies: it stays dead until the next boot. -/
def linkdown (s : State) (d site dir : Nat) : State :=
  if !((site < 72 && dir < 2) || (site = 72 && 2 ≤ dir && dir ≤ 4)) || (s.die d).links.contains (site, dir) then s
  else (s.modDie d (fun x => { x with links := x.links ++ [(site, dir)] })).logErr d fwLINKDOWN (Link.code ⟨d, site, dir⟩) 0#64
def execLinkdown (d site dir : Nat) (s : State) : Host.Outcome State Fault Refusal := next (linkdown s d site dir)

/-- The `mma.p` entries that a core follows (R243). -/
def followed (s : State) (cid : Nat) : List SeqEnt :=
  (s.core cid).mseq.filter (fun e => (match e.ins with | .mmaP _ _ _ => true | _ => false) && cidOf e.gid + 1 = cid)
/-- The status of a job that a team runs when the loss of a core ends it (R245, R325, R343, R405): MPAIRLOST where the core follows a
standing `mma.p` of the job. -/
def lostStatus (s : State) (cid tid : Nat) : W32 :=
  if (s.team tid).stopWhy != 0 then fwSAVELOST
  else match s.clusterOf tid with
    | some _ => if (followed s cid).any (fun e => e.old = 0 && (jobTeams s tid).contains (s.tidOf e.gid)) then fwMPAIRLOST else fwCLLOST
    | none => fwCORELOST
/-- R245: an `mma.p` whose follower is lost: each half of the leader's tile that the operation has not passed holds its value before it or
after it, as a free value says, and the entry leaves the queues. -/
def settlePair (s : State) (e : SeqEnt) : State :=
  let lead := cidOf e.gid
  let half (s : State) (h : Nat) : State :=
    if !e.started || h < e.row then s
    else
      let (v, s) := s.freeVal
      if v.getLsbD 0 then matRun lead { e with row := h } (h + 16) s else s
  popEnt ([0, 16].foldl half s) e

/-- CORE_LOST: a core that no control packet reaches (R405). -/
def coreLost (s : State) (cid : Nat) : State :=
  if (s.core cid).lost || ctlReaches s cid then s
  else
    let s := withdrawCore s cid
    let keys := (s.core cid).jobs.filterMap (fun r => r.member.map (fun m => m.1))
    let ofKey (t : Nat × Team) : Bool := (match t.2.job with
      | some j => (match j.r.member with | some (k, _) => keys.contains k | none => false) | none => false)
    let ts := (upTo 8).map (fun t => 8 * cid + t) ++ (s.teams.filter ofKey).map (fun t => t.1)
    let pairs := followed s cid
    let s : State := ts.foldl (fun s t =>
      if (s.team t).launching.isSome && (s.team t).job.isNone then
        endJob (s.modTeam t (fun x => { x with job := x.launching })) t (lostStatus s cid t) true
      else if (s.team t).job.isSome then endJob s t (lostStatus s cid t) true else s) s
    let s := pairs.foldl settlePair s
    let s : State := { s with cores := s.cores.map (fun c => (c.1, { c.2 with
      jobs := c.2.jobs.filter (fun r => match r.member with | some (k, _) => !keys.contains k | none => true)
      copies := (c.2.copies.map (fun x => { x with shares := x.shares.map (fun hs => hs.filter (fun h => h.cid != cid)) })).filter
        (fun x => x.shares != some [] || x.bad.isSome)
      mseq := c.2.mseq.filter (fun e => cidOf e.gid != cid)
      pushq := c.2.pushq.filter (fun e => cidOf e.1 != cid) })) }
    let s := s.modCore cid (fun c => { c with lost := true, mseq := [], copies := [], jobs := [], blockq := [], tsq := [], l1 := [] })
    let s := s.modDie (dieOf cid) (fun d => { d with
      reports := d.reports.map (fun r => if r.cid = cid then { r with sts := [], cps := [] } else r) })
    s.logErr (dieOf cid) fwCORELOST (coreSite s cid) 0#64
def execCoreLost (c : Nat) (s : State) : Host.Outcome State Fault Refusal := next (coreLost s c)

end Sys2Proof.Machine
end

