-- ==== Sys2Proof/Machine/Records.lean ====
section
/-!
DEFINITION. The operator records (16: R373–R404) and what the Docent does between them: reading TAIL, placing tiles, pinning
leases, escalating drains, the watchdog (R406).
-/

namespace Sys2Proof.Machine

def fwSLLATE : W32 := 0xC0303001#32
def fwSLSYNC : W32 := 0xC0303002#32

/-! ### Memory as the Docent reaches it (R376) -/

/-- Bytes of the partition's global space; a pointer outside the global regions lies outside its region's bounds. -/
def docGet (s : State) (d p : Nat) (a : W64) (n : Nat) : Except W32 (List Byte) :=
  if globalRegion a then globalBytes s (partCtx s d p) .load a n else .error fwRGNBND
def docPut (s : State) (d p : Nat) (a : W64) (bs : List Byte) : Except W32 State :=
  if globalRegion a then globalPut s (partCtx s d p) a bs else .error fwRGNBND

/-! ### Reading the queue (R373, R374) -/

/-- QUEUE_TAIL_WAKE: TAIL read, and QOVF where it runs ahead of HEAD by more than the ring. -/
def tailWake (s : State) (d q : Nat) : State :=
  let x := s.queue d q
  if !qRun x || !dctlEn (s.die d) then s
  else match docGet s d (qPart x) x.base 4 with
    | .error f => stopQueue s d q f x.next
    | .ok bs =>
      let t : W32 := BitVec.ofNat 32 (natOf bs)
      if (t - x.head).toNat > qSize x then stopQueue (s.modQueue d q (fun y => { y with tail := t })) d q fwQOVF t
      else s.modQueue d q (fun y => { y with tail := t })
def execQueueTailWake (d q : Nat) (s : State) : Host.Outcome State Fault Refusal := next (tailWake s d q)

/-- Address of a queue's record n, and its bytes as memory holds them (R373). -/
def recAddr (x : Queue) (n : W32) : W64 := x.base + BitVec.ofNat 64 (0x100 + 32 * (n.toNat % qSize x))
def readRec (s : State) (d q : Nat) (n : W32) : Except W32 (BitVec 256) :=
  let x := s.queue d q
  match docGet s d (qPart x) (recAddr x n) 32 with
  | .ok bs => .ok (BitVec.ofNat 256 (natOf bs))
  | .error f => .error f

/-! ### Launch (R375–R378, R459) -/

/-- Whether the record a step names is the one its queue launches next, and the queue launches at all. -/
def launchable (s : State) : Bool :=
  let x := s.queue s.cur.die s.cur.queue
  qRun x && dctlEn (s.die s.cur.die) && x.drain.isNone && x.next = s.cur.recn && x.next != x.tail
  && (match x.hold with | some h => h != x.next.setWidth 16 | none => true)

/-- R375: the kinds that only a queue with PRIVQ carries. -/
def privKind : Instr → Bool
  | .adoptRecord _ | .resume .. | .partw .. | .slice .. | .haltq .. => true
  | .lease _ _ _ part _ _ => part
  | _ => false

/-- Every launched record has completed, an active LOOP around the record apart (R376, R377). -/
def allDone (x : Queue) : Bool :=
  x.recs.all (fun r => r.done || (match r.ins with | .loopRecord .. => x.loop.isSome | _ => false))

/-- R397: the record of a body, by its place in it: only its last is a LOOPEND, and none is a LOOP. -/
def bodyBad (s : State) (d q : Nat) (n : W32) (k : Nat) : Bool :=
  (upTo k).any (fun i => match readRec s d q (n + BitVec.ofNat 32 (i + 1)) with
    | .error _ => true
    | .ok w =>
      let kind := (w.extractLsb' 0 4).toNat
      kind = 5 || (kind = 6) != (i + 1 = k))

/-- What R375, R381 and R397 refuse of a record, its sequence number and privilege apart. -/
def recordFault (s : State) (i : Instr) : Bool :=
  let q := s.cur.queue
  i.recordBad
  || (match i with
    | .job _ _ _ _ p | .cjob _ _ _ _ p => (p.evon || p.evarm) && evBad s p.event
    | .waitev _ e | .sigev _ _ e _ => evBad s e
    | .resume _ _ _ _ _ e on => on && evBad s e
    | .haltq _ t _ _ => t.toNat = q
    | .loopRecord _ n _ _ _ _ _ _ => n.toNat ≥ qSize (s.queue s.cur.die q) || (s.queue s.cur.die q).loop.isSome
    | .loopend _ => (match (s.queue s.cur.die q).loop with
      | some l => l.recn + BitVec.ofNat 32 l.body != s.cur.recn
      | none => true)
    | _ => false)

/-- A record at the front of its queue: the checks of R375 in their order, then R377's barrier, then `body`, which answers the
state unchanged while the kind's own launch conditions do not hold. -/
def launch (i : Instr) (h : RecHdr) (s : State) (body : Nat → Nat → W32 → State → State) : State :=
  let d := s.cur.die
  let q := s.cur.queue
  let n := s.cur.recn
  if !launchable s then s
  else if h.seq != n.setWidth 16 then stopQueue s d q fwOPSEQ n
  else if privKind i && !qPriv (s.queue d q) then stopQueue s d q fwOPPRIV n
  else if recordFault s i then stopQueue s d q fwOPBAD n
  else if h.b && !allDone (s.queue d q) then s
  else body d q n s

/-- The record stands among the launched ones. -/
def standRec (s : State) (d q : Nat) (n : W32) (i : Instr) : State :=
  s.modQueue d q (fun x => { x with next := n + 1#32, await := none, recs := x.recs ++ [⟨n, i, false, 0#32, false, 0, [], 0, 0#16, [], 0#8, none⟩] })
/-- The record launches and completes in one step. -/
def doneRec (s : State) (d q : Nat) (n : W32) (i : Instr) (status : W32) (failed : Bool) : State :=
  completeRec (standRec s d q n i) d q n status failed
/-- A record whose effect answers a state or a fault word. -/
def doneWith (d q : Nat) (n : W32) (i : Instr) (s : State) (r : Except W32 State) : State :=
  match r with
  | .ok t => doneRec t d q n i 0#32 false
  | .error f => doneRec s d q n i f true
/-- A kind that waits for every earlier record of its queue. -/
def whenDone (body : Nat → Nat → W32 → State → State) (d q : Nat) (n : W32) (s : State) : State :=
  if allDone (s.queue d q) then body d q n s else s

def execNopRecord (h : RecHdr) (s : State) : Host.Outcome State Fault Refusal :=
  next (launch (.nopRecord h) h s fun d q n s => doneRec s d q n (.nopRecord h) 0#32 false)

def execSigev (h : RecHdr) (op : EvOp) (event n : W32) (s : State) : Host.Outcome State Fault Refusal :=
  next (launch (.sigev h op event n) h s fun d q k s =>
    let (lost, s) := catTry s event (EvOp.cat op) n
    doneRec s d q k (.sigev h op event n) (if lost then fwFABDOWN else 0#32) lost)

/-- R376: P2 and the timebase in one store of 16 bytes. -/
def execMark (h : RecHdr) (addr value : W64) (s : State) : Host.Outcome State Fault Refusal :=
  next (launch (.mark h addr value) h s fun d q n s =>
    doneWith d q n (.mark h addr value) s
      (docPut s d (qPart (s.queue d q)) addr (bytesOf 8 value.toNat ++ bytesOf 8 s.time.toNat)))

/-- R376, R382: the WAITEV at a queue's head is a waiter of its event until it is reached; a FAIL bit fails it. -/
def waitevBody (h : RecHdr) (e : W32) (d q : Nat) (n : W32) (s : State) : State :=
  let out (fail : Bool) : State := doneRec s d q n (.waitev h e) (if fail then fwEVFAIL else 0#32) fail
  match (s.queue d q).await with
  | some (_, some fail) => out fail
  | _ =>
    if evAcc e = s.ownAcc then
      if (s.evSlotOf e).reached then out (s.evSlotOf e).fail
      else s.modQueue d q (fun x => { x with await := some (e, none) })
    else if (s.queue d q).await.isSome then s
    else (sendWatch s e).modQueue d q (fun x => { x with await := some (e, none) })
def execWaitev (h : RecHdr) (event : W32) (s : State) : Host.Outcome State Fault Refusal :=
  next (launch (.waitev h event) h s (waitevBody h event))

/-- R398, R432. -/
def execAdoptRecord (h : RecHdr) (s : State) : Host.Outcome State Fault Refusal :=
  next (launch (.adoptRecord h) h s (whenDone fun d q n s =>
    doneRec (adoptStep s (qPart (s.queue d q))) d q n (.adoptRecord h) 0#32 false))

/-! ### Leases (R387–R390) -/

/-- R387: the lease joins its set at launch; it completes when its pages are pinned. -/
def execLease (h : RecHdr) (r w part : Bool) (base len : W64) (s : State) : Host.Outcome State Fault Refusal :=
  next (launch (.lease h r w part base len) h s fun d q n s =>
    let i : Instr := .lease h r w part base len
    let p := qPart (s.queue d q)
    let l : Lease := ⟨base, len, r, w⟩
    if part then
      if (Tbl.get [] p (s.die d).pleases).length ≥ 64 then doneRec s d q n i fwLEASEFULL true
      else (standRec s d q n i).modDie d (fun x => { x with pleases := Tbl.put p (Tbl.get [] p x.pleases ++ [l]) x.pleases })
    else if (s.queue d q).leases.length ≥ 32 then doneRec s d q n i fwLEASEFULL true
    else (standRec s d q n i).modQueue d q (fun x => { x with leases := x.leases ++ [l] }))

/-- Whether a leaf serves a lease: its page's pin, or LEASEFAIL (R388). -/
def pinLeaf (p : Nat) (r w : Bool) (va : Nat) : Leaf → Option Pin
  | .plain e _ bits =>
    if (r && !e.getLsbD 8) || (w && !e.getLsbD 9) then none
    else some ⟨p, va / 2 ^ bits, bits = 29, false, e, 0#64⟩
  | .paired lo hi =>
    let good (f : W64 → Bool) : Bool := (hV lo && f lo) || (hV hi && f hi)
    if (hV lo && halfBad lo) || (hV hi && halfBad hi) || !(hV lo || hV hi) || (r && !good hR) || (w && !good hW) then none
    else some ⟨p, va / 65536, false, true, lo, hi⟩
/-- The pins of the pages from one address to another, at most `n` of them; none where a page fails, LEASEFULL when there
are more. -/
def pinPages (s : State) (p : Nat) (r w : Bool) (stop : Nat) : Nat → Nat → Except W32 (List Pin)
  | 0, va => if va ≥ stop then .ok [] else .error fwLEASEFULL
  | n + 1, va =>
    if va ≥ stop then .ok []
    else if va ≥ 2 ^ 56 then .error fwLEASEFAIL
    else match walk s.mem (s.part p).root va with
      | .error _ => .error fwLEASEFAIL
      | .ok l => match pinLeaf p r w va l with
        | none => .error fwLEASEFAIL
        | some x => match pinPages s p r w stop n ((pinSpan x).2) with
          | .error f => .error f
          | .ok t => .ok (x :: t)
def samePage (a b : Pin) : Bool := a.part = b.part && a.page = b.page && a.big = b.big

/-- LEASE_PIN_COMPLETE: the pages of a standing LEASE are pinned, or it fails and the lease goes (R388, R423). -/
def leasePin (s : State) (d q n : Nat) : State :=
  match s.recOf d q (BitVec.ofNat 32 n) with
  | some ⟨k, .lease _ r w part base len, _, _, _, _, _, _, _, _, _, _⟩ =>
    let p := qPart (s.queue d q)
    let l : Lease := ⟨base, len, r, w⟩
    let va := (base.extractLsb' 0 56).toNat
    let s' := match pinPages s p r w (va + len.toNat) 8192 va with
      | .error f => (none, f)
      | .ok ps =>
        let fresh := ps.filter (fun x => !(s.die d).pins.any (samePage x))
        if (s.die d).pins.length + fresh.length > 8192 then (none, fwLEASEFULL)
        else (some (s.modDie d (fun y => { y with pins := y.pins ++ fresh })), 0#32)
    (match s' with
    | (some s, _) => docentTurn (prunePins (completeRec s d q k 0#32 false) d) d
    | (none, f) =>
      let s := if part then s.modDie d (fun x => { x with pleases := Tbl.put p ((Tbl.get [] p x.pleases).erase l) x.pleases })
        else s.modQueue d q (fun x => { x with leases := x.leases.erase l })
      completeRec s d q k f true)
  | _ => s
def execLeasePinComplete (d q n : Nat) (s : State) : Host.Outcome State Fault Refusal := next (leasePin s d q n)

/-- R390: the oldest ordinary lease of that range leaves the queue's set; its pins go with the last job that holds it. -/
def execUnlease (h : RecHdr) (base len : W64) (s : State) : Host.Outcome State Fault Refusal :=
  next (launch (.unlease h base len) h s fun d q n s =>
    match firstIdx (fun (l : Lease) => l.base = base && l.len = len) (s.queue d q).leases with
    | none => stopQueue s d q fwOPBAD n
    | some ix => prunePins (doneRec (s.modQueue d q (fun x => { x with leases := delNth ix x.leases })) d q n (.unlease h base len) 0#32 false) d)

/-! ### Jobs (R383–R386) -/

/-- R383: the arm of a record's event, or of each tile's slot. -/
def armEvent (s : State) (p : JobP3) (tiles : Nat) : State :=
  if !p.evarm then s
  else if p.evtile then
    (upTo (min tiles 65536)).foldl (fun s k =>
      catStep s (evTileName p.event k) .arm (BitVec.ofNat 32 ((tiles - k + 65535) / 65536))) s
  else catStep s p.event .arm (BitVec.ofNat 32 tiles)
/-- R383: one "fail" for each tile of a record that places none. -/
def failEvent (p : JobP3) : Nat → Nat → State → State
  | _, 0, s => s
  | k, n + 1, s => failEvent p (k + 1) n (catStep s (if p.evtile then evTileName p.event k else p.event) .fail 1#32)

/-- R422: the largest image of a job of a team with so many groups, with its cluster record. -/
def largestImage (h : KHdr) (groups members : Nat) : Nat :=
  (imageOfs (List.replicate groups h.xmax) 16 h.acct h.scratch).2 + (if members = 0 then 0 else 0x120 + members * 0x9800)

/-- R384, R422: whether a record's entry is refused. -/
def headerBad (s : State) (d p : Nat) (cl : Bool) (p3 : JobP3) (h : Option KHdr) : Bool :=
  match h, partCores s d p with
  | some h, c :: cs =>
    let w := (s.core c).pword
    let gs := (s.core c).gslots
    let groups := if p3.anyteam then (upTo 8).foldl (fun a t => max a (teamSlots gs t)) 0 else teamSlots gs p3.team.toNat
    let members := if cl then (c :: cs).foldl (fun a x => max a (clCw (s.core x).clcfg * clCh (s.core x).clcfg)) 1 else 0
    !(h.role = 0 || h.role = 3) || h.acct > tileShare w || h.scratch > spShare w
    || (h.pwreq != 0#24 && h.pwreq != w.extractLsb' 0 24) || h.cluster != cl || (h.pairreq && !cl)
    || p3.team.toNat > pwTeams w || largestImage h groups members > (s.part p).savesz.toNat
  | _, _ => true

/-- R384: the launch of a JOB or CJOB. -/
def jobBody (i : Instr) (cl : Bool) (tiles : Nat) (entry : W64) (p3 : JobP3) (d q : Nat) (n : W32) (s : State) : State :=
  let p := qPart (s.queue d q)
  let h := readHeader s d p entry
  let s := armEvent s p3 tiles
  if headerBad s d p cl p3 h then
    doneRec (if p3.evon then failEvent p3 0 tiles s else s) d q n i fwJOBHDR true
  else
    let x := s.queue d q
    let depth : Byte := match x.loop with | some l => l.depth | none => 0#8
    let r : OpRec := ⟨n, i, false, 0#32, false, 0, [], tiles, (s.part p).aacc, leaseSet s d q, depth, h⟩
    s.modQueue d q (fun x => { x with next := n + 1#32, await := none, recs := x.recs ++ [r] })
def execJob (h : RecHdr) (tiles : BitVec 24) (entry arg : W64) (p : JobP3) (s : State) : Host.Outcome State Fault Refusal :=
  next (launch (.job h tiles entry arg p) h s (jobBody (.job h tiles entry arg p) false tiles.toNat entry p))
def execCjob (h : RecHdr) (clusters : BitVec 24) (entry arg : W64) (p : JobP3) (s : State) : Host.Outcome State Fault Refusal :=
  next (launch (.cjob h clusters entry arg p) h s (jobBody (.cjob h clusters entry arg p) true clusters.toNat entry p))

/-- The parts of a job record that placement needs: header, tile count, entry, argument, P3, whether it is a CJOB. -/
def jobOf? (r : OpRec) : Option (RecHdr × Nat × W64 × W64 × JobP3 × Bool) :=
  match r.ins with
  | .job h t e a p => some (h, t.toNat, e, a, p, false)
  | .cjob h t e a p => some (h, t.toNat, e, a, p, true)
  | _ => none
/-- R385: the lowest-numbered unplaced tile of a record. -/
def nextTile (r : OpRec) : Option Nat :=
  match jobOf? r with
  | none => none
  | some (_, t, _) =>
    if r.done then none
    else match r.back with
      | b :: _ => some (if r.next < t then min b r.next else b)
      | [] => if r.next < t then some r.next else none

/-- A PARTW that stands names a core (R404). -/
def partwNames (s : State) (d cid : Nat) : Bool :=
  (s.die d).queues.any (fun q => q.2.recs.any (fun r => !r.done && (match r.ins with
    | .partw _ _ mask _ _ => mask.getLsbD (cid % 64)
    | _ => false)))
/-- R385: whether a core's hamper takes a tile for a team. -/
def qualifies (s : State) (d cid : Nat) (p : JobP3) : Bool :=
  let c := s.core cid
  !c.dead && !c.lost && c.jobs.length < 32 && !partwNames s d cid
  && (if p.anyteam then residents c.gslots > 0 else p.team.toNat ≤ pwTeams c.pword && teamSlots c.gslots p.team.toNat > 0)

/-- The first of some choices with the least value. -/
def argMin (f : Nat → Nat) : List Nat → Option Nat
  | [] => none
  | x :: t => match argMin f t with
    | none => some x
    | some y => if f y < f x then some y else some x

/-- R385: where a tile goes: the cores that receive a record, in index order. -/
def placeWhere (s : State) (d p tile : Nat) (cl : Bool) (p3 : JobP3) : Option (List Nat) :=
  let load (ms : List Nat) : Nat := ms.foldl (fun a m => a + (s.core m).jobs.length) 0
  if cl then
    let gs := gridsOf s d p
    let ok (g : Nat × List Nat) : Bool := g.2.all (fun m => qualifies s d m p3)
    if p3.place then
      match gs[tile % gs.length]? with
      | some g => if ok g then some g.2 else none
      | none => none
    else match argMin (fun o => load (((gs.find? (fun g => g.1 = o)).map (fun g => g.2)).getD [])) ((gs.filter ok).map (fun g => g.1)) with
      | some o => (gs.find? (fun g => g.1 = o)).map (fun g => g.2)
      | none => none
  else
    let cs := partCores s d p
    if p3.place then
      match cs[tile % cs.length]? with
      | some c => if qualifies s d c p3 then some [c] else none
      | none => none
    else (argMin (fun c => load [c]) (cs.filter (fun c => qualifies s d c p3))).map (fun c => [c])

/-- Whether an earlier LEASE of the queue still stands (R384). -/
def leaseWaits (x : Queue) (n : W32) : Bool :=
  x.recs.any (fun r => !r.done && (match r.ins with | .lease .. => decide ((n - r.n).toNat < 2 ^ 31 ∧ n ≠ r.n) | _ => false))

/-- What a queue would place next: the record, the tile, the cores. -/
def queuePlaces (s : State) (d q : Nat) : Option (OpRec × Nat × List Nat) :=
  let x := s.queue d q
  if !qRun x || x.drain.isSome || (nextHeld s d q).isSome || !dctlEn (s.die d) then none
  else match x.recs.find? (fun r => (nextTile r).isSome) with
    | none => none
    | some r =>
      match nextTile r, jobOf? r with
      | some t, some (_, _, _, _, p3, cl) =>
        if leaseWaits x r.n then none else (placeWhere s d (qPart x) t cl p3).map (fun ms => (r, t, ms))
      | _, _ => none

/-- R385: the effective priority of a queue's next placement. -/
def effPrio (s : State) (d q : Nat) (r : OpRec) : Nat :=
  let x := s.queue d q
  let base := match jobOf? r with | some (h, _) => if h.pov then h.prio.toNat else qPrio x | none => 0
  let age := dctlAge (s.die d)
  min 63 (base + (if age ≥ 24 then 0 else (s.cycle.toNat - x.since) / 2 ^ (age + 8)))
/-- R385: a queue whose next tile becomes placeable begins its wait. -/
def waitTurn (s : State) (d q : Nat) : State :=
  let able := (queuePlaces s d q).isSome
  if able = (s.queue d q).able then s
  else s.modQueue d q (fun x => { x with able := able, since := if able then s.cycle.toNat else x.since })
/-- The waits of the queues that have a tile to place, or had one. -/
def waitTurns (s : State) : State :=
  s.dies.foldl (fun s d => d.2.queues.foldl (fun s q =>
    if q.2.able || q.2.recs.any (fun r => (nextTile r).isSome) then waitTurn s d.1 q.1 else s) s) s

/-- R385: among the queues of one level, the first after the one last chosen there. -/
def afterLast (last : Nat) (qs : List Nat) : Option Nat :=
  match qs.find? (fun q => last < q) with
  | some q => some q
  | none => qs.head?

/-- R386: the job records of one placement enter the hampers. -/
def placeTile (s : State) (d q : Nat) (r : OpRec) (tile : Nat) (ms : List Nat) : State :=
  match jobOf? r with
  | none => s
  | some (h, _, entry, arg, p3, cl) =>
    let key := freeKey s (8 * (ms.headD 0) + p3.team.toNat)
    let mk (ix : Nat) : JobRec := ⟨entry, arg, BitVec.ofNat 32 tile, if p3.evon then p3.event else 0#32, p3.evon, p3.evtile, r.acc, r.depth,
      p3.team.toNat, p3.anyteam, q, h.seq, d, r.n, r.leases, if cl then some (key, ix) else none, none⟩
    let s := (ms.zip (upTo ms.length)).foldl (fun s e => s.modCore e.1 (fun c => { c with jobs := c.jobs ++ [mk e.2] })) s
    let cf := (s.core (ms.headD 0)).clcfg
    let s : State := if cl then { s with clusters := Tbl.put key ⟨ms, p3.team.toNat, clCw cf, clCh cf, false, [], []⟩ s.clusters } else s
    s.modQueue d q (fun x => { x with
      since := s.cycle.toNat
      recs := modRec r.n (fun y => { y with
        back := y.back.filter (fun b => b != tile), next := if y.next = tile then tile + 1 else y.next }) x.recs })

/-- TILE_PLACE: one placement of a die's Docent. -/
def tilePlace (s : State) (d : Nat) : State :=
  let cand := (upTo 64).filterMap (fun q => (queuePlaces s d q).map (fun r => (q, r)))
  let best := cand.foldl (fun a c => max a (effPrio s d c.1 c.2.1)) 0
  let top := (cand.filter (fun c => effPrio s d c.1 c.2.1 = best)).map (fun c => c.1)
  match afterLast (Tbl.get 63 best (s.die d).lastq) top with
  | none => s
  | some q =>
    match queuePlaces s d q with
    | none => s
    | some (r, t, ms) =>
      (placeTile s d q r t ms).modDie d (fun x => { x with lastq := Tbl.put best q x.lastq })
def execTilePlace (d : Nat) (s : State) : Host.Outcome State Fault Refusal := next (tilePlace s d)

/-! ### Loops (R397) -/

def execLoopRecord (h : RecHdr) (nbody : Half) (cond : W64) (maxiter : W32) (dmin dmax d0 : Byte) (mon : Bool) (s : State) :
    Host.Outcome State Fault Refusal :=
  let i : Instr := .loopRecord h nbody cond maxiter dmin dmax d0 mon
  next (launch i h s fun d q n s =>
    let x := s.queue d q
    if (x.tail - n).toNat ≤ nbody.toNat then s
    else if bodyBad s d q n nbody.toNat then stopQueue s d q fwOPBAD n
    else (standRec s d q n i).modQueue d q (fun x => { x with
      loop := some ⟨n, nbody.toNat, cond, maxiter, dmin, dmax, mon, 1#32, d0⟩ }))

/-- R397: the depth of the next iteration. -/
def nextDepth (l : LoopSt) (idle stall : Nat) : Byte :=
  if !l.mon then l.depth
  else if stall > idle then (if l.depth.toNat + 1 ≤ l.dmax.toNat then l.depth + 1#8 else l.dmax)
  else if idle > 2 * stall then (if l.dmin.toNat + 1 ≤ l.depth.toNat then l.depth - 1#8 else l.dmin)
  else l.depth
/-- R397: the LOOPEND of an active LOOP: another iteration, or the end of both records. IDLE and STALL are free (log 14). -/
def loopendBody (h : RecHdr) (d q : Nat) (n : W32) (s : State) : State :=
  match (s.queue d q).loop with
  | none => s
  | some l =>
    match docGet s d (qPart (s.queue d q)) l.cond 4 with
    | .error f => doneRec s d q n (.loopend h) f true
    | .ok bs =>
      if natOf bs != 0 && (l.maxiter = 0#32 || l.iter.toNat < l.maxiter.toNat) then
        let (idle, s) := s.freeVal
        let (stall, s) := s.freeVal
        s.modQueue d q (fun x => { x with
          next := l.recn + 1#32
          recs := x.recs.filter (fun r => decide ((r.n - l.recn).toNat = 0 ∨ (r.n - l.recn).toNat > l.body))
          loop := some { l with iter := l.iter + 1#32, depth := nextDepth l idle.toNat stall.toNat } })
      else
        completeRec (doneRec (s.modQueue d q (fun x => { x with loop := none })) d q n (.loopend h) 0#32 false) d q l.recn 0#32 false
def execLoopend (h : RecHdr) (s : State) : Host.Outcome State Fault Refusal :=
  next (launch (.loopend h) h s (whenDone (loopendBody h)))

/-! ### ENDREQ (R399) -/

/-- The 64-bit words of a byte list. -/
def words64 : Nat → List Byte → List W64
  | 0, _ => []
  | n + 1, bs => BitVec.ofNat 64 (natOf (bs.take 8)) :: words64 n (bs.drop 8)
/-- R399: request r ends. -/
def endsReq (st : List W64) (bm : List W64) (r : Nat) : Bool :=
  let x := nth 0#64 r st
  (nth 0#64 (r / 64) bm).getLsbD (r % 64) && (x.getLsbD 32 || x.getLsbD 34)
def endreqBody (i : Instr) (nreq : Nat) (sa bm : W64) (d q : Nat) (n : W32) (s : State) : State :=
  let p := qPart (s.queue d q)
  let nw := (nreq + 63) / 64
  match docGet s d p sa (8 * nreq), docGet s d p bm (8 * nw) with
  | .error f, _ | _, .error f => doneRec s d q n i f true
  | .ok a, .ok b =>
    let st := words64 nreq a
    let ms := words64 nw b
    let st' := ((upTo nreq).zip st).map (fun e => if endsReq st ms e.1 then setBit e.2 33 true else e.2)
    let ms' := ((upTo nw).zip ms).map (fun e => (upTo 64).foldl (fun (w : W64) k =>
      if 64 * e.1 + k < nreq && endsReq st ms (64 * e.1 + k) then setBit w k false else w) e.2)
    match docPut s d p sa (st'.flatMap (fun x => bytesOf 8 x.toNat)) with
    | .error f => doneRec s d q n i f true
    | .ok t => match docPut t d p bm (ms'.flatMap (fun x => bytesOf 8 x.toNat)) with
      | .error f => doneRec s d q n i f true
      | .ok t => doneRec t d q n i 0#32 false
def execEndreq (h : RecHdr) (nreq : Half) (state bitmap : W64) (s : State) : Host.Outcome State Fault Refusal :=
  next (launch (.endreq h nreq state bitmap) h s (whenDone (endreqBody (.endreq h nreq state bitmap) nreq.toNat state bitmap)))

/-! ### PARTW and HALTQ (R401, R404) -/

/-- Whether a queue has jobs on some cores. -/
def occupies (s : State) (d q : Nat) (cs : List Nat) : Bool :=
  (queueTeams s d q).any (fun t => cs.contains (t / 8))
  || cs.any (fun c => (s.core c).jobs.any (fun r => r.die = d && r.queue = q))
/-- R404, R401: the record stands, and each queue with jobs on its cores drains. -/
def execPartw (h : RecHdr) (pword : BitVec 24) (mask : W64) (clcfg : BitVec 18) (gslots : BitVec 48) (s : State) :
    Host.Outcome State Fault Refusal :=
  let i : Instr := .partw h pword mask clcfg gslots
  next (launch i h s (whenDone fun d q n s =>
    let cs := partwCores d mask
    let s := standRec s d q n i
    partwTurn ((upTo 64).foldl (fun s k =>
      if occupies s d k cs then startDrain s d k (.partw d q) (qBud (s.queue d k)) else s) s) d q))

/-- R401: a drain of the target; budget 0 stands for the target's own. -/
def execHaltq (h : RecHdr) (queue : BitVec 6) (halt : Bool) (budget : W32) (s : State) : Host.Outcome State Fault Refusal :=
  let i : Instr := .haltq h queue halt budget
  next (launch i h s (whenDone fun d q n s =>
    let t := queue.toNat
    let b := if halt then 0 else if budget = 0#32 then qBud (s.queue d t) else budget.toNat
    drainTurn (startDrain (standRec s d q n i) d t (.halt d q) b) d t))

/-- R401: the budget of a drain has run out. -/
def execDrainEscalate (d q : Nat) (s : State) : Host.Outcome State Fault Refusal :=
  next (match (s.queue d q).drain with
    | some dr => if !dr.escalated && dr.deadline ≤ s.time.toNat then escalate s d q else s
    | none => s)

/-! ### RESUME (R312, R326, R403) -/

/-- The image that the Docent holds with these addresses, and the queue whose list it is in. -/
def findHeld (s : State) (d : Nat) (addrs : List W64) : Option (Nat × Held) :=
  match (s.die d).held.find? (fun h => h.addrs = addrs) with
  | some h => some (0, h)
  | none => ((s.die d).queues.flatMap (fun q => q.2.resume.map (fun h => (q.1, h)))).find? (fun e => e.2.addrs = addrs)

/-- R403: the job of an image that the Docent does not hold: its record if that still stands; which of the record's tiles it is the image does
not say: a free value (log 82). -/
def foreignRec (s : State) (d : Nat) (m : Img) (ls : List Lease) (re : Nat × Nat × W32) : JobRec :=
  let q := m.qseq / 65536 % 64
  let seq : Half := BitVec.ofNat 16 m.qseq
  let x := s.queue d q
  let base : JobRec := ⟨m.entry, 0#64, 0#32, 0#32, false, false, m.jacc, BitVec.ofNat 8 (m.f 0x30 4), m.team, false, q, seq, d,
    x.done - 1#32, ls, none, some re⟩
  match x.recs.find? (fun r => !r.done && r.n.setWidth 16 = seq) with
  | some r => match jobOf? r with
    | some (_, tiles, _, arg, p3, _) => { base with
        tile := BitVec.ofNat 32 ((Config.free s.fresh).toNat % max 1 tiles), arg := arg, event := if p3.evon then p3.event else 0#32, evon := p3.evon, evtile := p3.evtile, recn := r.n }
    | none => base
  | none => base

/-- The teams a RESUME of one image may use: on CORE, or on any core of the partition (R403). -/
def resumeTeams (s : State) (d p : Nat) (core : Option Nat) (team : Nat) (h : Option Held) : List Nat :=
  let cs := match core with | some c => [c] | none => partCores s d p
  cs.flatMap (fun c =>
    match h with
    | some k => if k.jobs.any (fun j => j.r.anyteam) then ((upTo 8).map (fun t => 8 * c + t)).filter (fun t => (s.groupsOf t).length = k.groups)
        else [8 * c + team]
    | none => [8 * c + team])

/-- The end of a RESUME's launch: the record stands with its job, or fails. -/
def resumed (i : Instr) (d q : Nat) (n : W32) (s : State) (h : Option (Nat × Held)) (r : Except W32 State) : State :=
  match r with
  | .error f => doneRec s d q n i f true
  | .ok t =>
    let t := match h with | some (hq, k) => dropHeld t d hq k | none => { t with fresh := t.fresh + 1 }
    standRec t d q n i

/-- RESUME of a team's image; one of a cluster job's member alone is not loaded (R326; log 129). -/
def resumeTeam (i : Instr) (core : Option Nat) (a : W64) (d q : Nat) (n : W32) (s : State) : State :=
  let p := qPart (s.queue d q)
  let c := partCtx s d p
  let held := findHeld s d [a]
  match docGet s d p a 256 with
  | .error f => doneRec s d q n i f true
  | .ok hd =>
    let ts := resumeTeams s d p core (field hd 0x1C 1) (held.map (fun e => e.2))
    if (match core with | some k => (s.core k).dead | none => false) then doneRec s d q n i fwRFPAR true
    else if (match core with | some k => !(partCores s d p).contains k | none => false) then stopQueue s d q fwOPBAD n
    else if field hd 0x1F 1 % 2 = 1 || ts.all (fun t => (s.groupsOf t).isEmpty || t / 8 / 64 != d) then
      doneRec s d q n i (shapeFault s c a) true
    else match ts.find? (fun t => canTake s t && blocksFree s c a t) with
      | none => s
      | some t =>
        let re := (d, q, n)
        match held with
        | some (_, h) => resumed i d q n s held (restoreHeld s c h (t / 8) [t] (some re))
        | none =>
          let ls := leaseSet s d q
          resumed i d q n s none ((restoreAll s c [(t, a, none)]
            (fun t _ m k => ⟨{ foreignRec s d m ls re with team := t % 8 }, k, m.stackb⟩) ls).map (fun s => releaseRestored s t))

/-- RESUME of a cluster job: record at P1, member image pointers at P2. -/
def resumeCluster (i : Instr) (core : Option Nat) (a table : W64) (d q : Nat) (n : W32) (s : State) : State :=
  let p := qPart (s.queue d q)
  let c := partCtx s d p
  match docGet s d p a 0x120 with
  | .error f => doneRec s d q n i f true
  | .ok hd =>
    let cw := field hd 6 1
    let ch := field hd 7 1
    if !shapeOk cw ch then doneRec s d q n i fwCLRST true
    else match docGet s d p table (8 * (cw * ch)) with
      | .error f => doneRec s d q n i f true
      | .ok tb =>
        let addrs := words64 (cw * ch) tb
        match docGet s d p (addrs.headD 0#64) 256 with
        | .error f => doneRec s d q n i f true
        | .ok ih =>
          let team := field ih 0x1C 1
          let fit := (gridsFit s d p cw ch (BitVec.ofNat 32 (field ih 0x18 4))).filter (fun g =>
            match core with | some k => g.2.contains k | none => true)
          if (match core with | some k => (s.core k).dead | none => false) then doneRec s d q n i fwRFPAR true
          else if fit.isEmpty then doneRec s d q n i fwCLRST true
          else if field ih 0x1F 1 % 2 = 0 || fit.all (fun g => g.2.any (fun m => (s.groupsOf (8 * m + team)).isEmpty)) then
            doneRec s d q n i (match readCluster s c a cw ch with | .error f => f | .ok _ => shapeFault s c (addrs.headD 0#64)) true
          else match fit.find? (fun g => g.2.all (fun m => canTake s (8 * m + team))
              && (g.2.zip addrs).all (fun e => blocksFree s c e.2 (8 * e.1 + team))) with
            | none => s
            | some (o, ms) =>
              let re := (d, q, n)
              let held := findHeld s d addrs
              let ts := ms.map (fun m => 8 * m + team)
              match readCluster s c a cw ch with
              | .error f => doneRec s d q n i f true
              | .ok bs =>
                let ls : List Lease := match held with
                  | some (_, h) => (h.jobs.head?.map (fun j => j.r.leases)).getD []
                  | none => leaseSet s d q
                let js : List (Option Job) := match held with
                  | some (_, h) => h.jobs.map some
                  | none => ms.map (fun _ => none)
                let mk (t : Nat) (j : Option Job) (m : Img) (k : KHdr) : Job := match j with
                  | some j => heldJob j (t % 8) m k (some re)
                  | none => ⟨{ foreignRec s d m ls re with team := t % 8 }, k, m.stackb⟩
                resumed i d q n s held (match restoreAll s c (ts.zip (addrs.zip js)) mk ls with
                  | .error f => .error f
                  | .ok t => .ok (joinCluster t o ms team cw ch bs))

def execResume (h : RecHdr) (core : BitVec 6) (cv : Bool) (image table : W64) (event : W32) (evon : Bool) (s : State) :
    Host.Outcome State Fault Refusal :=
  let i : Instr := .resume h core cv image table event evon
  next (launch i h s fun d q n s =>
    let c : Option Nat := if cv then some (64 * d + core.toNat) else none
    if table = 0#64 then resumeTeam i c image d q n s else resumeCluster i c image table d q n s)

/-! ### Sleep (R302) -/

/-- Whether a RESUME record that has not launched its job stands for a core: at the head of a queue of the core's partition on its die, or an
image that the Docent holds and would resume (R302, R403). -/
def resumePends (s : State) (cid : Nat) : Bool :=
  let d := dieOf cid
  (s.die d).queues.any (fun q => s.partOf cid = some (qPart q.2) && (!q.2.resume.isEmpty
    || (qRun q.2 && q.2.next != q.2.tail && (match readRec s d q.1 q.2.next with
      | .ok w => (match decodeRecord w with
        | some (.resume _ core cv _ _ _ _) => !cv || core.toNat = cid % 64
        | _ => false)
      | .error _ => false))))
  || (s.die d).held.any (fun h => h.hit && s.partOf cid = some h.part)
/-- R302: what wakes a core: a hamper record, a message, a stop, a snapshot trigger, RESUME, PARTW. -/
def wakeDue (s : State) (cid : Nat) : Bool :=
  let c := s.core cid
  !c.jobs.isEmpty || !c.task.isEmpty || c.hrput != c.hrtake || s.hub.snap.isSome || resumePends s cid || partwNames s (dieOf cid) cid
  || s.clusters.any (fun k => k.2.transit.any (fun m => nth 0 m.2.1 k.2.members = cid))
  || (upTo 8).any (fun t => let x := s.team (8 * cid + t)
      x.stopWhy != 0 || !x.stalled.isEmpty)
/-- R61, R302: the conditions of sleep, the count of cycles apart (log 14): no job on the core, every group in `hpop`, nothing outstanding,
nothing that would wake it. -/
def mayDoze (s : State) (cid : Nat) : Bool :=
  let c := s.core cid
  !c.asleep && !c.lost && c.mseq.isEmpty && c.copies.isEmpty && c.jobs.isEmpty
  && !s.hub.snap.isSome && !resumePends s cid && !partwNames s (dieOf cid) cid
  && s.clusters.all (fun k => k.2.transit.all (fun m => nth 0 m.2.1 k.2.members != cid))
  && (upTo 8).all (fun t => let x := s.team (8 * cid + t)
      x.st = .idle && x.job.isNone && x.launching.isNone && x.stopWhy = 0 && x.stalled.isEmpty
      && !c.task.any (fun r => r.team = t && (s.groupsOf (8 * cid + t)).length > 0))
  && (s.die (dieOf cid)).reports.all (fun r => r.cid != cid)
  && (rangeFrom (32 * cid) 32).all (fun gid => let g := s.group gid
      !g.live || (g.lds.isEmpty && g.sts.isEmpty && g.cps.isEmpty
        && waiters g (fun i => match i with | .hpop _ | .hpopJ _ => true | _ => false) = g.fmask))
def execCoreSleep (c : Nat) (s : State) : Host.Outcome State Fault Refusal :=
  next (if mayDoze s c then s.modCore c (fun x => { x with asleep := true }) else s)


/-! ### SLICE (R481) -/

/-- The masks of a slice set in the slice table: STOP in the low half. -/
def sliceMasks (s : State) (set : Nat) : BitVec 512 :=
  BitVec.ofNat 512 (natOf (s.mem.peeks ((s.fab.sltbase.toNat + 64 * set) % 2 ^ 52) 64))
def sliceStops (s : State) (set d q : Nat) : Bool := (sliceMasks s set).getLsbD (64 * d + q)
def sliceRuns (s : State) (set d q : Nat) : Bool := (sliceMasks s set).getLsbD (256 + 64 * d + q)
def execSlice (h : RecHdr) (set : Byte) (t : W64) (s : State) : Host.Outcome State Fault Refusal :=
  let i : Instr := .slice h set t
  next (launch i h s fun d q n s =>
    if s.slice.isSome then s
    else if sliceStops s set.toNat d q || sliceRuns s set.toNat d q then stopQueue s d q fwOPBAD n
    else if !s.fab.tlock then doneRec s d q n i fwSLSYNC true
    else if s.time.toNat + 10000 > t.toNat then doneRec s d q n i fwSLLATE true
    else { standRec s d q n i with slice := some ⟨set.toNat, t.toNat, d, q, n, [], false⟩ })

/-! ### The watchdog (R406) and steps of other agents (R382) -/

/-- Something that waits for an event: a queue whose WAITEV stands at its head, or a held image of a queue's job. -/
structure Waiter where
  queue : Nat
  event : W32
  head : Bool
  deriving DecidableEq, Repr

def watchWaiters (s : State) (d : Nat) : List Waiter :=
  (s.die d).queues.flatMap (fun q => match q.2.await with | some (e, none) => [⟨q.1, e, true⟩] | _ => [])
  ++ (s.die d).held.flatMap (fun h => if h.why = 3 && !h.hit then
      (match h.jobs with | j :: _ => [⟨j.r.queue, h.event, false⟩] | [] => []) else [])

/-- Whether a record, or a job of it, could signal an event (R383). -/
def signals (e : W32) : Instr → Bool
  | .sigev _ _ ev _ => ev = e
  | .job _ t _ _ p | .cjob _ t _ _ p =>
    p.evon && (p.event = e || (p.evtile && (upTo (min t.toNat 65536)).any (fun k => evTileName p.event k = e)))
  | .resume _ _ _ _ _ ev on => on && ev = e
  | _ => false

/-- Records of a queue that are still to be launched, as memory holds them: of an active LOOP its whole body, which may run again. -/
def pendingRecs (s : State) (d q : Nat) : List Instr :=
  let x := s.queue d q
  let from_ := match x.loop with | some l => l.recn + 1#32 | none => x.next
  (upTo (min 65536 (x.tail - from_).toNat)).filterMap (fun k => match readRec s d q (from_ + BitVec.ofNat 32 k) with
    | .ok w => decodeRecord w
    | .error _ => none)

/-- The waiters that could signal an event once they are released: the records behind a WAITEV, the job of a held image. -/
def signallers (s : State) (d : Nat) (ws : List Waiter) (e : W32) : List Waiter :=
  ws.filter (fun w =>
    if w.head then (pendingRecs s d w.queue).any (signals e)
    else (s.die d).held.any (fun h => h.why = 3 && h.event = w.event && h.jobs.any (fun j =>
      j.r.queue = w.queue && j.r.evon && (if j.r.evtile then evTileName j.r.event j.r.tile.toNat else j.r.event) = e)))
/-- Whether something that does not wait could signal an event: a record of a queue without a waiting head, or a launched one whose
job is not a held image. -/
def freeSignal (s : State) (d : Nat) (ws : List Waiter) (e : W32) : Bool :=
  (s.die d).queues.any (fun q =>
    (!ws.any (fun w => w.head && w.queue = q.1) && (pendingRecs s d q.1).any (signals e))
    || q.2.recs.any (fun r => !r.done && signals e r.ins
        && !(s.die d).held.any (fun h => h.why = 3 && !h.hit && h.jobs.any (fun j => j.r.queue = q.1 && j.r.recn = r.n))))

/-- R406: the stuck waiters: at most `n` rounds of dropping those that something else could release. -/
def stuckSet (s : State) (d : Nat) (all : List Waiter) : Nat → List Waiter → List Waiter
  | 0, ws => ws
  | n + 1, ws =>
    stuckSet s d all n (ws.filter (fun w =>
      let sg := signallers s d all w.event
      evAcc w.event = s.ownAcc && evDie w.event = d && !(s.evSlotOf w.event).reached && !freeSignal s d all w.event
      && !sg.isEmpty && sg.all ws.contains))
/-- The chain of events from a waiter: each event's first stuck signaller waits for the next. -/
def stuckChain (s : State) (d : Nat) (ws : List Waiter) : Nat → Waiter → List W32 → List W32
  | 0, _, acc => acc
  | n + 1, w, acc =>
    if acc.contains w.event then acc.dropWhile (fun e => e != w.event)
    else match signallers s d ws w.event with
      | v :: _ => stuckChain s d ws n v (acc ++ [w.event])
      | [] => []
/-- The record that a waiter stands for: the WAITEV at its queue's head, or the record whose job is held. -/
def waiterRec (s : State) (d : Nat) (w : Waiter) : W32 :=
  if w.head then (s.queue d w.queue).next
  else match (s.die d).held.find? (fun h => h.why = 3 && h.event = w.event && h.jobs.any (fun j => j.r.queue = w.queue)) with
    | some h => (match h.jobs with | j :: _ => j.r.recn | [] => 0#32)
    | none => 0#32
/-- WATCHDOG_TICK: a cycle that stood at the last interval too raises DEADLOCK and stops the queues on it: those of the waiters that wait for
an event of the cycle and could signal one. -/
def watchdog (s : State) (d : Nat) : State :=
  let all := watchWaiters s d
  let ws := stuckSet s d all all.length all
  let cyc := match ws with | w :: _ => stuckChain s d ws (ws.length + 1) w [] | [] => []
  if cyc.isEmpty then s.modDie d (fun x => { x with stuck := [] })
  else if cyc.all ((s.die d).stuck).contains then
    let s := s.modDie d (fun x => { x with
      stuck := [], dlog := ((upTo 8).zip (cyc.take 8 ++ List.replicate 8 0#32)).filter (fun e => e.2 != 0#32) })
    let on (w : Waiter) : Bool := cyc.contains w.event && cyc.any (fun e => (signallers s d ws e).contains w)
    (ws.filter on).foldl (fun s w =>
      if (s.queue d w.queue).stopped then s else stopQueue s d w.queue fwDEADLOCK (waiterRec s d w)) s
  else s.modDie d (fun x => { x with stuck := cyc })
def execWatchdogTick (d : Nat) (s : State) : Host.Outcome State Fault Refusal := next (watchdog s d)

/-- CATALOGUE_STEP: a step on a slot of a die by an agent outside it (R382). -/
def execCatalogueStep (d slot : Nat) (op : CatOp) (n : W32) (s : State) : Host.Outcome State Fault Refusal :=
  next (slotStep s (BitVec.ofNat 32 (s.ownAcc * 2 ^ 22 + d % 4 * 2 ^ 20 + slot % 65536)) op n)

end Sys2Proof.Machine
end

