-- ==== Sys2Proof/Machine/Fabric.lean ====
section
/-!
DEFINITION. The fabric station (22: R468–R480): its rings and commands, the requests and answers of peers, collectives; and the
three instants of a gang time slice (R481).
-/

namespace Sys2Proof.Machine

def fwFABREF : W32 := 0xC0101002#32
def fwFABCMD : W32 := 0xC0101003#32
def fwCGREUSE : W32 := 0xC0202001#32
def fwCGTIME : W32 := 0xC0202002#32
def fwCGMISM : W32 := 0xC0202003#32

/-! ### Rings (R472) -/

def State.modRing (s : State) (q : Nat) (f : Ring → Ring) : State :=
  { s with fab := { s.fab with rings := Tbl.put q (f (s.ring q)) s.fab.rings } }
def rRun (x : Ring) : Bool := x.ctl.getLsbD 31
def rSize (x : Ring) : Nat := 2 ^ ((x.ctl.extractLsb' 0 4).toNat + 4)
def rPart (x : Ring) : Nat := (x.ctl.extractLsb' 16 4).toNat

/-- Memory as the station reaches it for a ring: the context of the ring's partition. -/
def ringGet (s : State) (q : Nat) (a : W64) (n : Nat) : Except W32 (List Byte) := docGet s 0 (rPart (s.ring q)) a n
def ringPut (s : State) (q : Nat) (a : W64) (bs : List Byte) : Except W32 State := docPut s 0 (rPart (s.ring q)) a bs

/-- HEAD, DONE, FAULT and FSEQ written together (R373). -/
def ringWords (s : State) (q : Nat) : State :=
  let x := s.ring q
  let bs := bytesOf 4 x.head.toNat ++ bytesOf 4 x.head.toNat ++ bytesOf 4 x.fault.toNat ++ bytesOf 4 x.fseq.toNat
  match ringPut s q (x.base + 0x80#64) bs with
  | .ok s => s
  | .error _ => s
/-- R378: a ring stops. -/
def stopRing (s : State) (q : Nat) (fault fseq : W32) : State :=
  ringWords (s.modRing q (fun x => { x with
    stopped := true, ctl := setBit x.ctl 31 false, fault := fault, fseq := fseq &&& 0xFFFF#32 })) q

/-- Completed commands at the front leave the list. -/
def passCmds : List CmdRec → W32 → List CmdRec × W32
  | [], n => ([], n)
  | r :: t, n => if r.done && r.n = n then passCmds t (n + 1#32) else (r :: t, n)
/-- A command completes; a failure stops the ring (R378). -/
def completeCmd (s : State) (q : Nat) (n status : W32) (failed : Bool) : State :=
  let s := s.modRing q (fun x =>
    let (cs, hd) := passCmds (x.cmds.map (fun r => if r.n = n then { r with done := true } else r)) x.head
    { x with cmds := cs, head := hd })
  if failed then stopRing s q status n else ringWords s q

def execFabricRingStart (q : Nat) (s : State) : Host.Outcome State Fault Refusal :=
  next (if rRun (s.ring q) then s else ringStart s q)

/-- TAIL read, and QOVF (R374, R472). -/
def ringWake (s : State) (q : Nat) : State :=
  let x := s.ring q
  if !rRun x then s
  else match ringGet s q x.base 4 with
    | .error f => stopRing s q f x.next
    | .ok bs =>
      let t : W32 := BitVec.ofNat 32 (natOf bs)
      let s := s.modRing q (fun y => { y with tail := t })
      if (t - x.head).toNat > rSize x then stopRing s q fwQOVF t else s
def execFabricTailWake (q : Nat) (s : State) : Host.Outcome State Fault Refusal := next (ringWake s q)

/-- Address of a ring's command n, and the command as memory holds it (R472). -/
def cmdAddr (x : Ring) (n : W32) : W64 := x.base + BitVec.ofNat 64 (0x100 + 64 * (n.toNat % rSize x))
def readCmd (s : State) (q : Nat) (n : W32) : Except W32 (BitVec 512) :=
  match ringGet s q (cmdAddr (s.ring q) n) 64 with
  | .ok bs => .ok (BitVec.ofNat 512 (natOf bs))
  | .error f => .error f

/-! ### Starting a command (R473) -/

def startable (s : State) : Bool :=
  let x := s.ring s.cur.queue
  rRun x && x.next = s.cur.recn && x.next != x.tail

/-- The command stands among the started ones. -/
def standCmd (s : State) (q : Nat) (n : W32) (i : Instr) : State :=
  s.modRing q (fun x => { x with next := n + 1#32, cmds := x.cmds ++ [⟨n, i, false⟩] })
/-- A command that completes with FABCMD before it has started: its event receives nothing. -/
def badCmd (s : State) (q : Nat) (n : W32) (i : Instr) : State := completeCmd (standCmd s q n i) q n fwFABCMD true

/-- R166, R418 at a local address. -/
def accOk (s : State) (q : Nat) (u : Use) (a : W64) (n : Nat) : Bool :=
  globalRegion a && (match globalAccess s (partCtx s 0 (rPart (s.ring q))) u a n with | .ok _ => true | .error _ => false)
/-- What R473 refuses of a command. -/
def cmdRefused (s : State) (q : Nat) (h : FabHdr) (i : Instr) : Bool :=
  i.commandBad || (h.evon && evBad s h.event)
  || (match i with
    | .read _ peer la _ len => !s.inGroup peer.toNat || !accOk s q .store la len.toNat
    | .write _ peer la _ len => !s.inGroup peer.toNat || !accOk s q .load la len.toNat
    | .atomic _ peer la _ _ sz => !s.inGroup peer.toNat || !accOk s q .load la 16 || !accOk s q .store (la + 16#64) (if sz then 8 else 4)
    | .allreduce _ _ _ la _ len _ => !accOk s q .load la len.toNat || !accOk s q .store la len.toNat
    | .broadcast _ _ root la _ len _ => !s.inGroup root.toNat
      || !accOk s q (if root.toNat = s.ownAcc then .load else .store) la len.toNat
    | _ => true)

/-- A command at its ring's head: its sequence number (R374), the order that B asks, R473, then `body`, which answers the state
unchanged while the command waits. -/
def startCmd (i : Instr) (h : FabHdr) (s : State) (body : Nat → W32 → State → State) : State :=
  let q := s.cur.queue
  let n := s.cur.recn
  if !startable s then s
  else if h.seq != n.setWidth 16 then stopRing s q fwOPSEQ n
  else if h.b && !(s.ring q).cmds.all (fun r => r.done) then s
  else if cmdRefused s q h i then badCmd s q n i
  else body q n s

def State.send (s : State) (x : Sent) : State := { s with fab := { s.fab with sent := s.fab.sent ++ [x] } }

/-- A completion: the add to EVENT, then the command's own end; a lost add fails the command (R470, R475). -/
def cmdDone (s : State) (q : Nat) (n : W32) (h : FabHdr) : State :=
  let (lost, s) := if h.evon then catTry s h.event .add 1#32 else (false, s)
  completeCmd s q n (if lost then fwFABDOWN else 0#32) lost
/-- A failure after the start: EVENT receives "fail" and the ring stops (R476, R478). -/
def cmdFail (s : State) (q : Nat) (n : W32) (h : FabHdr) (fault : W32) : State :=
  completeCmd (if h.evon then catStep s h.event .fail 1#32 else s) q n fault true

/-! ### Point operations (R475, R476) -/

def execRead (h : FabHdr) (peer : BitVec 10) (laddr raddr : W64) (len : W32) (s : State) : Host.Outcome State Fault Refusal :=
  let i : Instr := .read h peer laddr raddr len
  next (startCmd i h s fun q n s => (standCmd s q n i).send (.request peer.toNat raddr (.read len.toNat)))
def execWrite (h : FabHdr) (peer : BitVec 10) (laddr raddr : W64) (len : W32) (s : State) : Host.Outcome State Fault Refusal :=
  let i : Instr := .write h peer laddr raddr len
  next (startCmd i h s fun q n s =>
    match ringGet s q laddr len.toNat with
    | .ok bs => (standCmd s q n i).send (.request peer.toNat raddr (.write bs))
    | .error _ => badCmd s q n i)
def execAtomic (h : FabHdr) (peer : BitVec 10) (laddr raddr : W64) (aop : AOp) (sz : Bool) (s : State) : Host.Outcome State Fault Refusal :=
  let i : Instr := .atomic h peer laddr raddr aop sz
  next (startCmd i h s fun q n s =>
    match ringGet s q laddr 16 with
    | .ok bs =>
      let k := if sz then 8 else 4
      (standCmd s q n i).send (.request peer.toNat raddr
        (.atomic aop sz (BitVec.ofNat 64 (natOf (bs.take k))) (BitVec.ofNat 64 (natOf ((bs.drop 8).take k)))))
    | .error _ => badCmd s q n i)

/-- The header of a command. -/
def cmdHdr : Instr → FabHdr
  | .read h .. | .write h .. | .atomic h .. | .allreduce h .. | .broadcast h .. => h
  | _ => ⟨0#16, false, false, 0#32⟩
/-- The peer of a point command. -/
def cmdPeer : Instr → Option Nat
  | .read _ p .. | .write _ p .. | .atomic _ p .. => some p.toNat
  | _ => none

/-- `n` free bytes, eight from each free value. -/
def freeBytes : Nat → State → List Byte × State
  | 0, s => ([], s)
  | n + 1, s =>
    let (v, s) := s.freeVal
    let (t, s) := freeBytes n s
    (bytesOf 8 v.toNat ++ t, s)
/-- The lines of memory under a local range marked poisoned. -/
def poisonRange (s : State) (q : Nat) (a : W64) (n : Nat) : State :=
  match globalAccess s (partCtx s 0 (rPart (s.ring q))) .store a n with
  | .error _ => s
  | .ok xs => { s with mem := xs.foldl (fun m x =>
      (rangeFrom (x.pa / 128) ((x.pa + x.len - 1) / 128 - x.pa / 128 + 1)).foldl (fun m l => m.markPois l) m) s.mem }
/-- R476: the lines of a failed READ, each landed whole or poisoned as a free value says; free data where none came. -/
def landLines (q : Nat) (la : W64) (data : Option (List Byte)) : Nat → Nat → State → State
  | _, 0, s => s
  | k, n + 1, s =>
    let a := la + BitVec.ofNat 64 (128 * k)
    let (v, s) := s.freeVal
    let s := if v.getLsbD 0 then poisonRange s q a 128
      else
        let (bs, s) := match data with
          | some d => ((d.drop (128 * k)).take 128, s)
          | none => freeBytes 16 s
        (match ringPut s q a bs with | .ok t => t | .error _ => s)
    landLines q la data (k + 1) n s

/-- R476: a point command that has started fails. -/
def failPoint (s : State) (q : Nat) (r : CmdRec) (fault : W32) (data : Option (List Byte)) : State :=
  let s := match r.ins with
    | .read _ _ la _ len => landLines q la data 0 (len.toNat / 128) s
    | _ => s
  cmdFail s q r.n (cmdHdr r.ins) fault

/-- FABRIC_CMD_COMPLETE: the point command at a place in a ring's list ends, with a peer's data or refused. -/
def cmdComplete (s : State) (q ix : Nat) (ok : Bool) (data : List Byte) : State :=
  match (s.ring q).cmds[ix]? with
  | none => s
  | some r =>
    if r.done then s
    else
      let land (a : W64) (n : Nat) : State :=
        if data.length != n then s
        else match ringPut s q a data with
          | .ok t => cmdDone t q r.n (cmdHdr r.ins)
          | .error _ => cmdFail s q r.n (cmdHdr r.ins) fwFABCMD
      match r.ins with
      | .read _ _ la _ len => if ok then land la len.toNat else failPoint s q r fwFABREF none
      | .write .. => if ok then cmdDone s q r.n (cmdHdr r.ins) else failPoint s q r fwFABREF none
      | .atomic _ _ la _ _ sz => if ok then land (la + 16#64) (if sz then 8 else 4) else failPoint s q r fwFABREF none
      | _ => s
def execFabricCmdComplete (q ix : Nat) (ok : Bool) (data : List Byte) (s : State) : Host.Outcome State Fault Refusal :=
  next (cmdComplete s q ix ok data)

/-! ### Requests of peers (R474) -/

/-- The translated parts of a peer's access to an export window, none where it is refused. -/
def exportParts (s : State) (addr : W64) (u : Use) (n : Nat) : Option (List Xl) :=
  let w := (addr.extractLsb' 56 8).toNat
  let off := (addr.extractLsb' 0 56).toNat
  let lo := Tbl.get 0#64 (2 * w) s.fab.exps
  let hi := Tbl.get 0#64 (2 * w + 1) s.fab.exps
  let perm : Bool := match u with | .store => lo.getLsbD 61 | .atomic => lo.getLsbD 60 | _ => lo.getLsbD 62
  let va := (lo.extractLsb' 0 56).toNat + off
  if w ≥ 64 || !lo.getLsbD 63 || !perm || off + n > (hi.extractLsb' 0 56).toNat || va + n > 2 ^ 56 then none
  else match translate s (partCtx s 0 (lo.extractLsb' 56 4).toNat) u va n with
    | .ok xs => some xs
    | .error _ => none

/-- Bytes stored at translated parts, at the coherence point. -/
def putParts (s : State) (xs : List Xl) (bs : List Byte) : State :=
  (xs.foldl (fun (p : State × List Byte) x => ({ p.1 with mem := p.1.mem.pokes x.pa (p.2.take x.len) }, p.2.drop x.len)) (s, bs)).1

/-- FABRIC_REQUEST_ARRIVAL: served and answered, or refused; a catalogue step goes to its slot (R470). -/
def requestArrival (s : State) (peer : Nat) (addr : W64) (op : PeerOp) : State :=
  if !s.inGroup peer then s
  else
    let refuse : State := s.send (.reply peer false [])
    match op with
    | .read n => (match exportParts s addr .load n with
      | some xs => s.send (.reply peer true (xs.flatMap (fun x => s.mem.peeks x.pa x.len)))
      | none => refuse)
    | .write bs => (match exportParts s addr .store bs.length with
      | some xs => (putParts s xs bs).send (.reply peer true [])
      | none => refuse)
    | .atomic aop sz c cnew =>
      let n := if sz then 8 else 4
      if addr.toNat % n != 0 then refuse
      else (match exportParts s addr .atomic n with
        | some xs =>
          let old := xs.flatMap (fun x => s.mem.peeks x.pa x.len)
          (putParts s xs (bytesOf n (atomVal aop (8 * n) (natOf old) (c.toNat % 2 ^ (8 * n)) (cnew.toNat % 2 ^ (8 * n))))).send (.reply peer true old)
        | none => refuse)
    | .step slot op n => slotStep s (BitVec.ofNat 32 (s.ownAcc * 2 ^ 22 + slot / 65536 % 4 * 2 ^ 20 + slot % 65536)) op n
def execFabricRequestArrival (peer : Nat) (addr : W64) (op : PeerOp) (s : State) : Host.Outcome State Fault Refusal :=
  next (requestArrival s peer addr op)

/-! ### Watches (R471) -/

/-- REMOTE_EVENT_ANSWER: the owner's answer releases what waits for its event here. -/
def execRemoteEventAnswer (event count : W32) (fail : Bool) (s : State) : Host.Outcome State Fault Refusal :=
  next (if s.fab.sent.any (isWatch event) then
    releaseWaiters { s with fab := { s.fab with
      sent := s.fab.sent.filter (fun x => !isWatch event x), answers := Tbl.put event.toNat (count, fail) s.fab.answers } } event count fail
  else s)
/-- EVENT_WATCH_REGISTER: a peer's watch of an event here, answered at once where it is reached. -/
def execEventWatchRegister (peer : Nat) (event : W32) (s : State) : Host.Outcome State Fault Refusal :=
  next (if evBad s event || evAcc event != s.ownAcc || !s.inGroup peer then s
  else
    let x := s.evSlotOf event
    if x.reached then s.send (.answer peer event x.count x.fail)
    else { s with fab := { s.fab with watches := s.fab.watches ++ [(peer, event)] } })

/-! ### Timeouts (R469–R471, R476, R480) -/

/-- R480: some member's debug-halt state stands, this one's among them: no timer of the fabric runs. -/
def timersHeld (s : State) : Bool := dbgStopped s || !s.fab.peers.isEmpty

/-- A WAITEV at a queue's head whose owner cannot be reached completes with FABDOWN. -/
def waitevDown (s : State) (d q peer : Nat) : State :=
  let x := s.queue d q
  match x.await with
  | some (e, none) =>
    if evAcc e = peer && evAcc e != s.ownAcc then doneRec s d q x.next (.waitev ⟨x.next.setWidth 16, 0#6, false, false⟩ e) fwFABDOWN true else s
  | _ => s
/-- An `evwait` of a job whose owner cannot be reached ends the job. -/
def evwaitDown (s : State) (gid peer : Nat) : State :=
  let w := waiters (s.group gid) (fun i => match i with
    | .evwait o => evAcc (evwaitName s gid o) = peer && evAcc (evwaitName s gid o) != s.ownAcc
    | _ => false)
  if w != 0#32 && (s.team (s.tidOf gid)).job.isSome then endJob s (s.tidOf gid) fwFABDOWN true else s

/-- FABRIC_PEER_TIMEOUT: a peer has not responded for 2^LTO µs: the point commands to it fail, and so do the waits for its
events. -/
def peerTimeout (s : State) (peer : Nat) : State :=
  if timersHeld s then s
  else
    let s := (upTo 16).foldl (fun s q => ((s.ring q).cmds.filter (fun r => !r.done && cmdPeer r.ins = some peer)).foldl (fun s r =>
      failPoint s q r fwFABDOWN none) s) s
    let s := (s.dies.map (fun x => x.1)).foldl (fun s d => (upTo 64).foldl (fun s q => waitevDown s d q peer) s) s
    let s := (s.groups.map (fun x => x.1)).foldl (fun s g => evwaitDown s g peer) s
    { s with fab := { s.fab with sent := s.fab.sent.filter (fun x => match x with
      | .watch e => evAcc e != peer
      | _ => true) } }
def execFabricPeerTimeout (peer : Nat) (s : State) : Host.Outcome State Fault Refusal := next (peerTimeout s peer)

/-- PEER_DEBUG_STATE (R480). -/
def execPeerDebugState (peer : Nat) (on : Bool) (s : State) : Host.Outcome State Fault Refusal :=
  next (if !s.inGroup peer || peer = s.ownAcc then s
    else { s with fab := { s.fab with peers := if on then insNat peer s.fab.peers else s.fab.peers.filter (fun p => p != peer) } })
/-- TLOCK_CHANGE (R469). -/
def execTlockChange (locked : Bool) (s : State) : Host.Outcome State Fault Refusal :=
  next { s with fab := { s.fab with tlock := locked } }
/-- UALINK_PORT_DOWN (R468): the port is down until the next boot. -/
def execUalinkPortDown (port : BitVec 4) (s : State) : Host.Outcome State Fault Refusal :=
  next { s with fab := { s.fab with ports := setBit s.fab.ports port.toNat false } }

/-! ### Collectives (R477, R478, R480) -/

def State.coll (s : State) (cgid : Nat) : Option Coll := s.fab.colls.find? (fun c => c.cgid = cgid)
def State.modColl (s : State) (cgid : Nat) (f : Coll → Coll) : State :=
  { s with fab := { s.fab with colls := s.fab.colls.map (fun c => if c.cgid = cgid then f c else c) } }
/-- R478: a CGID is busy until every member has finished with it. -/
def freeColls (s : State) : State :=
  { s with fab := { s.fab with colls := s.fab.colls.filter (fun c => !c.members.all c.finished.contains) } }

/-- R480: a debug stop here holds back the collectives of a partition with a stopped job. -/
def collHeld (s : State) (q : Nat) : Bool :=
  dbgStopped s && s.dies.any (fun d => d.2.held.any (fun h => h.why = 2 && h.part = rPart (s.ring q)))

/-- R477: element e of an ALLREDUCE from the members' inputs. -/
def reduceElem (rop : ROp) (vs : List Nat) : Nat :=
  match rop with
  | .sum => (redfVal .add vs).bits
  | .max => (redfVal .maxn vs).bits
  | .min => (redfVal .minn vs).bits
def elemAt (bs : List Byte) (e : Nat) : Nat := natOf ((bs.drop (4 * e)).take 4)
def reduceAll (rop : ROp) (ins : List (List Byte)) (n : Nat) : List Byte :=
  (upTo n).flatMap (fun e => bytesOf 4 (reduceElem rop (ins.map (fun bs => elemAt bs e))))

/-- This member has finished with a collective. -/
def collEnd (s : State) (c : Coll) : State :=
  freeColls ((s.modColl c.cgid (fun c => { c with finished := insNat s.ownAcc c.finished })).send (.finish c.cgid))
/-- The result at LADDR, the completion, and the finish report. -/
def collLand (s : State) (c : Coll) (h : FabHdr) (la : W64) (bs : List Byte) : State :=
  match ringPut s c.ring la bs with
  | .ok t => collEnd (cmdDone t c.ring c.n h) c
  | .error _ => collEnd (cmdFail s c.ring c.n h fwFABCMD) c
/-- The command of a standing collective. -/
def collCmd (s : State) (c : Coll) : Option Instr :=
  ((s.ring c.ring).cmds.find? (fun r => r.n = c.n && !r.done)).map (fun r => r.ins)
/-- A collective completes here once all that its operation needs has come. -/
def collTurn (s : State) (cgid : Nat) : State :=
  match s.coll cgid with
  | none => s
  | some c =>
    if collHeld s c.ring then s
    else match collCmd s c with
      | some (.allreduce h rop _ la _ len _) =>
        if c.members.all (fun m => (Tbl.find m c.got).isSome) then
          collLand s c h la (reduceAll rop (c.members.map (fun m => Tbl.get [] m c.got)) (len.toNat / 4))
        else s
      | some (.broadcast h _ root la _ _ _) =>
        if root.toNat = s.ownAcc then
          if c.members.all (fun m => m = s.ownAcc || c.finished.contains m) then collEnd (cmdDone s c.ring c.n h) c else s
        else (match Tbl.find root.toNat c.got with
          | some bs => collLand s c h la bs
          | none => s)
      | _ => freeColls s

/-- The member list in memory. -/
def memberList (s : State) (q : Nat) (a : W64) (n : Nat) : Except W32 (List Nat) :=
  match ringGet s q a (4 * n) with
  | .ok bs => .ok ((upTo n).map (fun k => elemAt bs k))
  | .error f => .error f
/-- A collective command starts: its CGID must be free (R478), its list valid; this member's data goes out. -/
def startColl (i : Instr) (h : FabHdr) (cgid : Nat) (la list : W64) (len nmem : Nat) (sends : State → Bool) (q : Nat) (n : W32)
    (s : State) : State :=
  if collHeld s q || (s.coll cgid).isSome then s
  else match memberList s q list nmem with
    | .error _ => badCmd s q n i
    | .ok ms =>
      if !ascending ms || !ms.contains s.ownAcc then cmdFail (standCmd s q n i) q n h fwCGMISM
      else
        let own : List Byte := if sends s then (match ringGet s q la len with | .ok bs => bs | .error _ => []) else []
        let t := standCmd s q n i
        let t : State := { t with fab := { t.fab with colls := t.fab.colls ++ [⟨cgid, q, n, ms, Tbl.put s.ownAcc own [], []⟩] } }
        collTurn (if sends s then t.send (.member cgid own) else t) cgid

def execAllreduce (h : FabHdr) (rop : ROp) (cgid : BitVec 12) (laddr list : W64) (len nmem : W32) (s : State) :
    Host.Outcome State Fault Refusal :=
  let i : Instr := .allreduce h rop cgid laddr list len nmem
  next (startCmd i h s (startColl i h cgid.toNat laddr list len.toNat nmem.toNat (fun _ => true)))
def execBroadcast (h : FabHdr) (cgid : BitVec 12) (root : BitVec 10) (laddr list : W64) (len nmem : W32) (s : State) :
    Host.Outcome State Fault Refusal :=
  let i : Instr := .broadcast h cgid root laddr list len nmem
  next (startCmd i h s (startColl i h cgid.toNat laddr list len.toNat nmem.toNat (fun s => root.toNat = s.ownAcc)))

/-- LEN of a collective's command. -/
def collLen : Instr → Nat
  | .allreduce _ _ _ _ _ len _ | .broadcast _ _ _ _ _ len _ => len.toNat
  | _ => 0
/-- COLLECTIVE_MEMBER_DATA: `same` says whether the member's command names the same operation, sizes, list and root. -/
def memberData (s : State) (cgid member : Nat) (same : Bool) (data : List Byte) : State :=
  match s.coll cgid with
  | none => s
  | some c =>
    match collCmd s c with
    | none => s
    | some i =>
      if collHeld s c.ring || !c.members.contains member || (Tbl.find member c.got).isSome then s
      else if !same || data.length != collLen i then collEnd (cmdFail s c.ring c.n (cmdHdr i) fwCGMISM) c
      else collTurn (s.modColl cgid (fun c => { c with got := Tbl.put member data c.got })) cgid
def execCollectiveMemberData (cgid member : Nat) (same : Bool) (data : List Byte) (s : State) : Host.Outcome State Fault Refusal :=
  next (memberData s cgid member same data)

/-- CGID_FINISH_REPORT: a member has finished with a CGID. -/
def execCgidFinishReport (cgid member : Nat) (s : State) : Host.Outcome State Fault Refusal :=
  next (freeColls (collTurn (s.modColl cgid (fun c =>
    if c.members.contains member then { c with finished := insNat member c.finished } else c)) cgid))

/-- R478: each element of LADDR after CGTIME: its input, or a value that stands for the result, as a free value says. -/
def mixElems : Nat → List Byte → State → List Byte × State
  | 0, _, s => ([], s)
  | n + 1, bs, s =>
    let (v, s) := s.freeVal
    let (t, s) := mixElems n (bs.drop 4) s
    ((if v.getLsbD 32 then bytesOf 4 v.toNat else bs.take 4) ++ t, s)
/-- The CGID of a collective command. -/
def cgidOf : Instr → Option Nat
  | .allreduce _ _ g .. | .broadcast _ g .. => some g.toNat
  | _ => none
/-- COLLECTIVE_TIMEOUT: a command has waited 2^CGTO µs for a busy CGID (`reuse`), or for the other members' data. -/
def collTimeout (s : State) (cgid : Nat) (reuse : Bool) : State :=
  if timersHeld s then s
  else match s.coll cgid with
    | none => s
    | some c =>
      if reuse then
        (upTo 16).foldl (fun s q =>
          let x := s.ring q
          if rRun x && x.next != x.tail && (match readCmd s q x.next with
            | .ok w => (decodeCommand w).bind cgidOf = some cgid
            | .error _ => false) then stopRing s q fwCGREUSE x.next else s) s
      else match collCmd s c with
        | none => s
        | some i =>
          let la : W64 := match i with | .allreduce _ _ _ la .. | .broadcast _ _ _ la .. => la | _ => 0#64
          let sender : Bool := match i with | .broadcast _ _ root .. => root.toNat = s.ownAcc | _ => false
          let s := if sender then s
            else match ringGet s c.ring la (collLen i) with
              | .error _ => s
              | .ok bs =>
                let (bs, t) := mixElems (collLen i / 4) bs s
                (match ringPut t c.ring la bs with | .ok t => t | .error _ => t)
          collEnd (cmdFail s c.ring c.n (cmdHdr i) fwCGTIME) c
def execCollectiveTimeout (cgid : Nat) (reuse : Bool) (s : State) : Host.Outcome State Fault Refusal :=
  next (collTimeout s cgid reuse)

/-! ### Gang time slices (R481) -/

/-- SLICE_DRAIN_START: the drain of each STOP queue whose time has come. -/
def sliceDrain (s : State) : State :=
  match s.slice with
  | none => s
  | some x =>
    let qs := ((upTo 4).flatMap (fun d => (upTo 64).map (fun q => (d, q)))).filter (fun e =>
      sliceStops s x.set e.1 e.2 && !x.started.contains e
      && decide (s.time.toNat + 2000 + 1000 * qBud (s.queue e.1 e.2) ≥ x.t))
    let s := qs.foldl (fun s e => startDrain s e.1 e.2 .slice (qBud (s.queue e.1 e.2))) s
    { s with slice := some { x with started := x.started ++ qs } }
def execSliceDrainStart (s : State) : Host.Outcome State Fault Refusal := next (sliceDrain s)

/-- SLICE_ESCALATE: at T − 2 µs each unfinished drain of the slice escalates. -/
def sliceEsc (s : State) : State :=
  match s.slice with
  | none => s
  | some x =>
    if x.escalated || s.time.toNat + 2000 < x.t then s
    else
      let s := (sliceDrain s)
      let s := ((upTo 4).flatMap (fun d => (upTo 64).map (fun q => (d, q)))).foldl (fun s e =>
        match (s.queue e.1 e.2).drain with
        | some ⟨.slice, _, false⟩ => escalate s e.1 e.2
        | _ => s) s
      { s with slice := s.slice.map (fun y => { y with escalated := true }) }
def execSliceEscalate (s : State) : Host.Outcome State Fault Refusal := next (sliceEsc s)

/-- SLICE_SWITCH: at T the STOP queues stop, the RUN queues run, and the record completes. -/
def sliceSwap (s : State) : State :=
  match s.slice with
  | none => s
  | some x =>
    if s.time.toNat < x.t then s
    else
      let s := sliceEsc s
      let all := (upTo 4).flatMap (fun d => (upTo 64).map (fun q => (d, q)))
      let s := (all.filter (fun e => sliceStops s x.set e.1 e.2)).foldl (fun s e => s.modQueue e.1 e.2 (fun y => { y with
        ctl := setBit y.ctl 31 false, drain := (match y.drain with | some ⟨.slice, _, _⟩ => none | dr => dr) })) s
      let s := (all.filter (fun e => sliceRuns s x.set e.1 e.2)).foldl (fun s e =>
        if qRun (s.queue e.1 e.2) then s else queueStart s e.1 e.2) s
      completeRec { s with slice := none } x.die x.queue x.recn 0#32 false
def execSliceSwitch (s : State) : Host.Outcome State Fault Refusal := next (sliceSwap s)

end Sys2Proof.Machine
end

