-- ==== Sys2Proof/Machine/Hub.lean ====
section
/-!
DEFINITION. The register rows of the opcode table, snapshots and the series (R459–R465), bring-up, enrolment and attestation
(R352, R452–R458), and the host's accesses (R458).
-/

namespace Sys2Proof.Machine

/-! ### Register rows (R366, R372, R378, R420–R424, R459) -/

def execQueueStart (d q : Nat) (s : State) : Host.Outcome State Fault Refusal :=
  next (if qRun (s.queue d q) then s else queueStart s d q)
def execPcoreWrite (d p : Nat) (mask : W64) (s : State) : Host.Outcome State Fault Refusal := next (pcoreWrite s d p mask)
def execVitbaseWrite (d n : Nat) (value : W64) (s : State) : Host.Outcome State Fault Refusal :=
  next (vitbaseWrite s d n (value &&& DReg.sup (.vitbase d n)))
def execVitrinePin (d n : Nat) (s : State) : Host.Outcome State Fault Refusal := next (vitrinePin s d n)
def execVitrineRelease (d n : Nat) (s : State) : Host.Outcome State Fault Refusal := next (vitrineRelease s d n)
/-- R366: every line of the range is pinned. -/
def execVitrinePinDone (d n : Nat) (s : State) : Host.Outcome State Fault Refusal :=
  next (if (s.vit d n).st = 1 then s.modDie d (fun e => { e with vit := Tbl.put n { s.vit d n with st := 2 } e.vit }) else s)
/-- The L2 copies of a range written to memory. -/
def cleanRange (m : Memory) (lo hi : Nat) : Memory :=
  m.l2.foldl (fun m c => if lo ≤ c.1 && c.1 < hi then m.cleanByte c.1 else m) m
/-- R366: the dirty lines of a released vitrine reach memory; the entry is idle. -/
def execVitrineReleaseDone (d n : Nat) (s : State) : Host.Outcome State Fault Refusal :=
  let v := s.vit d n
  next (if v.st = 3 then
    { s.modDie d (fun e => { e with vit := Tbl.put n { v with st := 0 } e.vit }) with
      mem := cleanRange s.mem (v.first * 2 ^ 21) ((v.first + v.chunks) * 2 ^ 21) } else s)

/-- R424: the three modes of XLINV. -/
def xlinvWord (mode p : Nat) (va : W64) : W64 :=
  BitVec.ofNat 64 (mode * 2 ^ 62 + p % 16 * 2 ^ 56 + va.toNat / 2 ^ 16 % 2 ^ 40 * 2 ^ 16)
def execXlinvPage (d p : Nat) (va : W64) (s : State) : Host.Outcome State Fault Refusal := next (xlinvWrite s d (xlinvWord 0 p va))
def execXlinvPartition (d p : Nat) (s : State) : Host.Outcome State Fault Refusal := next (xlinvWrite s d (xlinvWord 1 p 0#64))
def execXlinvAll (d : Nat) (s : State) : Host.Outcome State Fault Refusal := next (xlinvWrite s d (xlinvWord 2 0 0#64))
/-- R424: the invalidation is done; pinned leaves stay. -/
def execXlinvDone (d : Nat) (s : State) : Host.Outcome State Fault Refusal := next (xlinvDone s d)

def execRootWrite (p : Nat) (value : W64) (s : State) : Host.Outcome State Fault Refusal :=
  next (rootWrite s p (value &&& DReg.fw (.root p)))
def execPubaccWrite (value : W32) (s : State) : Host.Outcome State Fault Refusal := next (pubaccWrite s (value.extractLsb' 0 16))

/-- R459: a write of DBGCTL with one MODE. -/
def dbgRow (mode : Nat) (value : W64) (s : State) : State :=
  if dbgMode value = mode then dbgWrite s (value &&& DReg.sup .dbgctl) else s
def execDebugDisarm (value : W64) (s : State) : Host.Outcome State Fault Refusal := next (dbgRow 0 value s)
def execDebugHoldQueue (value : W64) (s : State) : Host.Outcome State Fault Refusal := next (dbgRow 1 value s)
def execDebugStopJob (value : W64) (s : State) : Host.Outcome State Fault Refusal := next (dbgRow 2 value s)
def execDebugStopPartition (value : W64) (s : State) : Host.Outcome State Fault Refusal := next (dbgRow 3 value s)

/-- R465: a write of the register at an offset of region 0xFB, at a level; one that raises a fault changes nothing. -/
def execRegisterWrite (priv : Priv) (off size : Nat) (value : W64) (s : State) : Host.Outcome State Fault Refusal :=
  next (if (size = 4 || size = 8) && off % size = 0 then
    match devStore s priv off size value with
    | .ok t => t
    | .error _ => s
  else s)

/-! ### Snapshots and the series (R462–R464) -/

def execSnapinTrigger (s : State) : Host.Outcome State Fault Refusal :=
  next (if s.hub.snapctl.getLsbD 0 then (snapTrigger s 0#8).2.2 else s)

/-- DIEOK of PKGSTAT. -/
def dieOk (s : State) : Nat := (s.hub.pkgstat.extractLsb' 20 4).toNat
/-- The counts of a record: those the model keeps (R464: 0 issues, 6 pops), the others free (log 12); zero for an unused
core. -/
def coreCounts (s : State) (cid : Nat) : List Byte × State :=
  if (s.partOf cid).isNone || (s.die (dieOf cid)).fenced then (zeros 32, s)
  else (upTo 8).foldl (fun (a : List Byte × State) k =>
    if k = 0 || k = 6 then (a.1 ++ bytesOf 4 (Tbl.get 0#32 k (s.core cid).ctr).toNat, a.2)
    else
      let (v, t) := a.2.freeVal
      (a.1 ++ bytesOf 4 (v.extractLsb' 0 32).toNat, t)) ([], s)
def dieCounts (s : State) (d : Nat) : List Byte × State :=
  if (s.die d).fenced then (zeros 64, s)
  else (upTo 16).foldl (fun (a : List Byte × State) k =>
    if k ≥ 11 then (a.1 ++ zeros 4, a.2)
    else
      let (v, t) := a.2.freeVal
      (a.1 ++ bytesOf 4 (v.extractLsb' 0 32).toNat, t)) ([], s)
/-- R464: a record of counters. -/
def counterRecord (s : State) (time : Nat) (seq : W32) (kind tag : Nat) : List Byte × State :=
  let head := padTo 64 (bytesOf 8 time ++ bytesOf 4 seq.toNat ++ bytesOf 1 kind ++ bytesOf 1 tag ++ bytesOf 1 (dieOk s)
    ++ bytesOf 1 (s.hub.tsctl.extractLsb' 0 5).toNat)
  let (cs, s) := (upTo 256).foldl (fun (a : List Byte × State) c => let (b, t) := coreCounts a.2 c
    (a.1 ++ b, t)) ([], s)
  let (ds, s) := (upTo 4).foldl (fun (a : List Byte × State) d => let (b, t) := dieCounts a.2 d
    (a.1 ++ b, t)) ([], s)
  (head ++ cs ++ ds, s)

/-- SNAPSHOT_LATCH: at Ts every counter latches and the record goes to SNAPBASE (R462, R464). -/
def snapshotLatch (s : State) : State :=
  match s.hub.snap with
  | none => s
  | some (ts, tag) =>
    if s.time.toNat < ts.toNat then s
    else
      let (bs, s) := counterRecord s ts.toNat s.hub.snapseq 1 tag.toNat
      { s with
        mem := s.mem.pokes (s.hub.snapbase.toNat % 2 ^ 52) bs
        hub := { s.hub with snap := none, snapseq := s.hub.snapseq + 1#32 } }
def execSnapshotLatch (s : State) : Host.Outcome State Fault Refusal := next (snapshotLatch s)

/-- Nanoseconds by which the last step moved the timebase (log 14). -/
def timeStep (s : State) : Nat := if s.cycle.toNat % 4 = 0 then 2 else 1
/-- R463, R464: a tick: the record at the ring, or one more dropped. -/
def tsTick (s : State) : State :=
  let k := (s.hub.tsctl.extractLsb' 0 5).toNat
  let log := (s.hub.tsctl.extractLsb' 8 5).toNat
  if !s.hub.tsctl.getLsbD 31 || s.time.toNat % 2 ^ k ≥ timeStep s then s
  else
    let seq := s.hub.tsseq
    let (bs, s) := counterRecord s (s.time.toNat / 2 ^ k * 2 ^ k) seq 0 0
    let s : State := { s with cores := s.cores.map (fun (c : Nat × Core) => (c.1, { c.2 with ctr := [] })) }
    if (s.hub.tsput - s.hub.tstake).toNat ≥ 2 ^ log then
      { s with hub := { s.hub with
          tsseq := seq + 1#32, tsstat := if s.hub.tsstat = 0xFFFFFFFF#32 then s.hub.tsstat else s.hub.tsstat + 1#32 } }
    else
      { s with
        mem := s.mem.pokes ((s.hub.tsbase.toNat + 8512 * (seq.toNat % 2 ^ log)) % 2 ^ 52) bs
        hub := { s.hub with tsseq := seq + 1#32, tsput := s.hub.tsput + 1#32 } }
def execTsTick (s : State) : Host.Outcome State Fault Refusal := next (tsTick s)

/-! ### Images in flash (R453, R454) -/

/-- The header, and the whole image, as flash holds it. -/
def flashHead (i : Image) : List Byte :=
  bytesOf 4 i.magic.toNat ++ bytesOf 2 i.version.toNat ++ [i.kind, i.keysel] ++ bytesOf 8 i.body.length ++ bytesOf 64 i.digest.toNat
def flashBytes (i : Image) : List Byte :=
  padTo 0x1000 (flashHead i ++ padTo 1793 i.pubkey ++ [0#8] ++ bytesOf 2 i.sig.length ++ i.sig) ++ i.body
def hash64 (bs : List Byte) : BitVec 512 := BitVec.ofNat 512 (natOf (Config.shake256 bs 64))
/-- R454: the enrolled owner's digest and VENDOFF, from the owner slot. -/
def ownerOf (s : State) : Option Image := Tbl.find 8 s.hub.flash
def vendoff (s : State) : Bool := match ownerOf s with | some o => Config.ownerVendoff o.body | none => false
/-- R453, R454: whether an image of a kind is accepted. -/
def accepted (s : State) (kind : Byte) (i : Image) : Bool :=
  i.magic = 0x4D495848#32 && i.version = 1#16 && i.kind = kind && (i.keysel = 0#8 || i.keysel = 1#8) && i.pubkey.length = 1793
  && 1 ≤ i.sig.length && i.sig.length ≤ 1462 && i.digest = hash64 i.body
  && (if i.keysel = 0#8 then !vendoff s && hash64 i.pubkey = Config.rootDigest
      else match ownerOf s with | some o => hash64 i.pubkey = Config.ownerDigest o.body | none => false)
  && Config.sigOk i.pubkey i.sig (flashHead i)
/-- The copy that the loader takes: A, else B. -/
def pickImage (s : State) (kind : Byte) : Option Image :=
  (([Tbl.find (2 * kind.toNat) s.hub.flash, Tbl.find (2 * kind.toNat + 1) s.hub.flash].filterMap id).find? (accepted s kind))

/-! ### Bring-up (R352, R353, R452–R456) -/

def fwFWSIG : W32 := 0xE0101001#32
def fwCFGSIG : W32 := 0xE0101002#32
def fwKEYREJ : W32 := 0xE0101003#32
def fwHBMTRAIN : W32 := 0x80606001#32
def fwREPAIRFAIL : W32 := 0x80303001#32
def fwROUTERFAIL : W32 := 0x80303002#32
def fwWATISDOWN : W32 := 0xA2204001#32

def stageOf (s : State) : Nat := (s.hub.pkgstat.extractLsb' 0 4).toNat
/-- PKGSTAT from its fields (R457). -/
def pkgWord (dieok : Nat) (recov owner : Bool) (bfail stage : Nat) : W32 :=
  BitVec.ofNat 32 (dieok * 2 ^ 20 + (if recov then 2 ^ 19 else 0) + (if owner then 2 ^ 18 else 0) + min 255 bfail * 2 ^ 8 + stage)

/-- POWER_GOOD: Stage A. Flash alone outlives power; RECOVER is the level of its pin. -/
def powerGood (s : State) (recover : Bool) : State :=
  { State.reset with
    hub := { Hub.zero with recover := recover, flash := s.hub.flash, pkgstat := pkgWord 0 false false 0 1, watis := 3#2 }
    cur := s.cur, agenda := s.agenda, rr := s.rr, fresh := s.fresh }
def execPowerGood (recover : Bool) (s : State) : Host.Outcome State Fault Refusal := next (powerGood s recover)

/-- R352: the curator's row: the lowest with a healthy column-8 core. -/
def curatorRow (failed : List Nat) : Option Nat := (upTo 8).find? (fun r => !failed.contains (9 * r + 8))
/-- R352: the physical columns of a row's logical columns; none for REPAIRFAIL. -/
def rowMapOf (failed : List Nat) (cur r : Nat) : Option (List Nat) :=
  let bad := (upTo 8).filter (fun c => failed.contains (9 * r + c))
  match bad with
  | [] => some (upTo 8)
  | [b] => if !failed.contains (9 * r + 8) && r != cur then some (rowRing.filter (fun c => c != b)) else none
  | _ => none
def packCols (l : List Nat) : W32 := BitVec.ofNat 32 (l.foldr (fun c a => c + 16 * a) 0)
/-- R353: ROWINFO of a row. -/
def rowInfoOf (failed : List Nat) (cur r : Nat) : W32 :=
  let bad := (upTo 8).find? (fun c => failed.contains (9 * r + c))
  let s8 := if r = cur then 2 else if failed.contains (9 * r + 8) then 3 else if bad.isSome then 1 else 0
  BitVec.ofNat 32 (16 * s8 + bad.getD 15)

/-- The failed core sites of the configuration block on a die (R352, R370). -/
def cfgFailed (sites : List Half) (d : Nat) : List Nat :=
  (sites.filter (fun c => c.getLsbD 15 && (c.extractLsb' 12 3).toNat = d && (c.extractLsb' 8 4).toNat ≤ 8
    && 1 ≤ (c.extractLsb' 0 5).toNat && (c.extractLsb' 0 5).toNat ≤ 7)).map
    (fun c => 9 * (c.extractLsb' 5 3).toNat + (c.extractLsb' 8 4).toNat)
/-- The faults of a die's self-test and repair with the codes of their units: a row that cannot be repaired by its first failed core, the
lack of a curator by the whole die (log 135). -/
def dieFaults (d : Nat) (t : DieTest) (failed : List Nat) : List (W32 × Half) :=
  let rows := match curatorRow failed with
    | none => [(fwREPAIRFAIL, siteOf d 72 1)]
    | some cur => ((upTo 8).filter (fun r => (rowMapOf failed cur r).isNone)).map (fun r =>
        (fwREPAIRFAIL, siteOf d (((upTo 8).map (fun c => 9 * r + c)).find? (fun k => failed.contains k) |>.getD 72) 1))
  rows ++ (t.slices.filter (fun x => !x.2)).map (fun x => (fwREPAIRFAIL, siteOf d x.1 8))
    ++ t.routers.map (fun k => (fwROUTERFAIL, siteOf d k 0)) ++ t.untrained.map (fun k => (fwHBMTRAIN, siteOf d 72 (16 + k)))

/-- R456: the BIST entries of the units that failed, with their results; test number and detail are free. -/
def bistUnits (d : Nat) (t : DieTest) (failed : List Nat) : List (Half × Nat) :=
  let cur := (curatorRow failed).getD 8
  t.cores.map (fun k => (siteOf d k.1 k.2, if (rowMapOf failed cur (k.1 / 9)).isSome && curatorRow failed != none then 1 else 2))
  ++ t.routers.map (fun k => (siteOf d k 0, 2)) ++ t.slices.map (fun x => (siteOf d x.1 8, if x.2 then 1 else 2))
  ++ t.untrained.map (fun k => (siteOf d 72 (16 + k), 2))

/-- A die after its self-test: its repair map, and every failure in its error log (R353, R456), those without a fault of their own with word 0. -/
def testDie (s : State) (d : Nat) (t : DieTest) (sites : List Half) : State × List W32 :=
  let failed := (t.failed ++ cfgFailed sites d).eraseDups
  let fs := dieFaults d t failed
  let cur := (curatorRow failed).getD 8
  let rows := (upTo 8).map (fun r => (r, packCols ((rowMapOf failed cur r).getD (upTo 8))))
  let infos := (upTo 8).map (fun r => (r, rowInfoOf failed cur r))
  let plain := ((bistUnits d t failed).filter (fun u => !fs.any (fun f => f.2 = u.1))).map (fun u => (0#32, u.1, 0#64))
  (s.modDie d (fun x => { x with
    rowmap := rows, rowinfo := infos, fenced := !fs.isEmpty
    errlog := x.errlog ++ plain ++ fs.map (fun f => (f.1, f.2, 0#64)) }), fs.map (fun f => f.1))

def insertSite (x : Half × Nat) : List (Half × Nat) → List (Half × Nat)
  | [] => [x]
  | y :: t => if x.1.toNat ≤ y.1.toNat then x :: y :: t else y :: insertSite x t
def bistLog (s : State) (us : List (Half × Nat)) : State :=
  let us := us.foldl (fun l x => insertSite x l) []
  let (es, s) := (us.take (if us.length > 256 then 255 else 256)).foldl (fun (a : List W64 × State) u =>
    let (v, t) := a.2.freeVal
    (a.1 ++ [v.extractLsb' 32 32 ++ (BitVec.ofNat 8 u.2 ++ (v.extractLsb' 0 8 ++ u.1))], t)) ([], s)
  let es := if us.length > 256 then es ++ [BitVec.ofNat 64 ((us.length - 255) * 2 ^ 32 + 3 * 2 ^ 24 + 0xFFFF)] else es
  { s with hub := { s.hub with bist := es } }

/-- The tests of the four dies. -/
def dieTests (ts : List DieTest) : List (Nat × DieTest) := (upTo 4).map (fun d => (d, nth ⟨[], [], [], []⟩ d ts))

/-- Bring-up stops (R452). -/
def stopBoot (s : State) (owner : Bool) (bfail : Nat) (f : W32) : State :=
  { s with hub := { s.hub with pkgstat := pkgWord 0 false owner bfail 0xF, booterr := f } }

/-- The self-test, the repair and the configuration of every die under accepted firmware. -/
def testAll (s : State) (fw cfg : Image) (ts : List DieTest) : State :=
  let sites := Config.cfgSites cfg.body
  let owner : Bool := fw.keysel = 1#8
  let (s, fs) := (dieTests ts).foldl (fun (a : State × List W32) e => let (t, f) := testDie a.1 e.1 e.2 sites
    (t, a.2 ++ f)) (s, [])
  let us := (dieTests ts).flatMap (fun e => bistUnits e.1 e.2 ((e.2.failed ++ cfgFailed sites e.1).eraseDups))
  let s := bistLog s us
  let bad := (us.filter (fun u => u.2 = 2)).length
  let (v, s) := s.freeVal
  let s : State := { s with
    hub := { s.hub with fw := some fw, cfg := some cfg }, fab := { s.fab with ports := v.extractLsb' 0 16 } }
  match fs with
  | f :: _ => if Config.cfgDegok cfg.body then { s with hub := { s.hub with pkgstat := pkgWord 0 false owner bad 2 } }
      else stopBoot s owner bad f
  | [] => { s with hub := { s.hub with pkgstat := pkgWord 0 false owner bad 2 } }

/-- STAGE_B (R453–R456). The recovery firmware runs where RECOVER is held or no firmware copy is accepted; it tests nothing. -/
def stageB (s : State) (ts : List DieTest) : State :=
  if stageOf s != 1 then s
  else match s.hub.recover, pickImage s 1#8 with
    | false, some fw => match pickImage s 2#8 with
      | some cfg => testAll s fw cfg ts
      | none => stopBoot s (fw.keysel = 1#8) 0 fwCFGSIG
    | _, _ => { s with hub := { s.hub with pkgstat := pkgWord 0 true false 0 2 } }
def execStageB (dies : List DieTest) (s : State) : Host.Outcome State Fault Refusal := next (stageB s dies)

/-- STAGE_C: the catalogue zero, each ready die's Docent enabled (R379, R452, R457). -/
def stageC (s : State) : State :=
  if stageOf s != 2 || s.hub.pkgstat.getLsbD 19 then s
  else
    let s := (upTo 4).foldl (fun s d => if (s.die d).fenced then s
      else s.modDie d (fun x => { x with dctl := setBit x.dctl 15 true, cat := [] })) s
    let ok := (upTo 4).foldl (fun a d => if (s.die d).fenced then a else a + 2 ^ d) 0
    { s with hub := { s.hub with pkgstat := pkgWord ok false (s.hub.pkgstat.getLsbD 18) (s.hub.pkgstat.extractLsb' 8 8).toNat 3 } }
def execStageC (s : State) : Host.Outcome State Fault Refusal := next (stageC s)

/-- R457: the report with the host's nonce, and its signature. -/
def execAttestationRequest (nonce : BitVec 256) (s : State) : Host.Outcome State Fault Refusal :=
  let img (i : Option Image) : List Byte := Config.shake256 (match i with | some x => flashBytes x | none => []) 64
  let r := bytesOf 32 nonce.toNat ++ Config.shake256 Config.rom 64 ++ img s.hub.fw ++ img s.hub.cfg ++ img (pickImage s 5#8) ++ img (ownerOf s)
  next (if stageOf s = 2 || stageOf s = 3 then { s with hub := { s.hub with report := r ++ Config.attest r } } else s)

/-- R454: an enrolment into the owner slot, or by the recovery firmware of new firmware into a flash copy; refused with
KEYREJ. -/
def ownerEnrol (s : State) (i : Image) (copy : Option Bool) (writable : Bool) : State :=
  let put (k : Nat) : State := { s with hub := { s.hub with flash := Tbl.put k i s.hub.flash, enrol := 0#32 } }
  let rej : State := { s with hub := { s.hub with enrol := fwKEYREJ } }
  let recov := s.hub.pkgstat.getLsbD 19 && s.hub.recover
  let fresh : Bool := match ownerOf s with
    | some o => decide ((Config.ownerSerial i.body).toNat > (Config.ownerSerial o.body).toNat)
    | none => true
  if stageOf s != 2 && stageOf s != 3 then s
  else if !writable then rej
  else match copy with
    | none => if i.kind = 4#8 && (recov || (!s.hub.pkgstat.getLsbD 19 && accepted s 4#8 i && fresh)) then put 8 else rej
    | some c => if recov && i.kind = 1#8 then put (if c then 3 else 2) else rej
def execOwnerEnrol (image : Image) (copy : Option Bool) (writable : Bool) (s : State) : Host.Outcome State Fault Refusal :=
  next (ownerEnrol s image copy writable)

/-! ### Watis (R458) -/

/-- R458: a port loses its link; with neither left, every die logs WATISDOWN. -/
def execWatisPortDown (port : Bool) (s : State) : Host.Outcome State Fault Refusal :=
  let w := setBit s.hub.watis (if port then 1 else 0) false
  let t : State := { s with hub := { s.hub with watis := w } }
  next (if w = 0#2 && s.hub.watis != 0#2 then
    (upTo 4).foldl (fun t d => if (t.die d).fenced then t else t.logErr d fwWATISDOWN hubSite 0#64) t else t)

/-- R458: whether the host reaches an address: over a port with link; HBM4E once its die's stacks are trained. -/
def hostReach (s : State) (pa : Nat) : Bool :=
  s.hub.watis != 0#2 && (pa / 2 ^ 51 % 2 = 1 || ((stageOf s = 2 || stageOf s = 3) && !s.hub.pkgstat.getLsbD 19 && pa / 2 ^ 39 % 2 ^ 13 = 0
    && !(s.die (homeDie pa)).fenced))
/-- HOST_ACCESS. A load and a marker change nothing here; the window of 8 KiB takes writes at supervisor level. -/
def execHostAccess (op : HostOp) (s : State) : Host.Outcome State Fault Refusal :=
  next (match op with
    | .load _ _ | .marker => s
    | .store pa data => if hostReach s pa then { s with mem := s.mem.pokes pa data } else s
    | .mgmt off size value =>
      if s.hub.watis != 0#2 && stageOf s != 0 && off < 0x2000 && (size = 4 || size = 8) && off % size = 0 then
        match devStore s .sup off size value with
        | .ok t => t
        | .error _ => s
      else s)

end Sys2Proof.Machine
end

