-- ==== Sys2Proof/Machine/Loader.lean ====
section
/-!
DEFINITION. The loader of code objects (03: R89–R93; 20: R447, R448). A load gives the objects with their sections placed; the
loader checks them, binds their symbols, relocates them, writes them and publishes them.
-/

namespace Sys2Proof.Machine

def fwBADHDR : W32 := 0xA2001001#32

/-! ### Lines and fields of a section -/

/-- The section of an object that holds `n` bytes at a global pointer. -/
def sectAt (o : CodeObj) (a : W64) (n : Nat) : Option CodeSect :=
  o.sects.find? (fun c => c.va.toNat ≤ a.toNat && a.toNat + n ≤ c.va.toNat + c.data.length)
def textOf (o : CodeObj) : Option CodeSect := o.sects.find? (fun c => c.kind = .text)
def textBase (o : CodeObj) : W64 := match textOf o with | some c => c.va | none => 0#64
/-- Bytes of an object at a global pointer. -/
def objBytes (o : CodeObj) (a : W64) (n : Nat) : List Byte :=
  match sectAt o a n with
  | some c => (c.data.drop (a.toNat - c.va.toNat)).take n
  | none => []
/-- Bytes of an object replaced. -/
def objPatch (o : CodeObj) (a : W64) (bs : List Byte) : CodeObj :=
  { o with sects := o.sects.map (fun c =>
      if c.va.toNat ≤ a.toNat && a.toNat + bs.length ≤ c.va.toNat + c.data.length then
        { c with data := patch c.data (a.toNat - c.va.toNat) bs } else c) }

/-- R65: a line with each SPAR and then LPAR made even. -/
def sealLine (l : List Byte) : List Byte :=
  let w := (upTo 5).foldl (fun (w : W32) i => setBit w (16 + i) (parity 96 (slotWord l i).toNat)) (lineWord l)
  let w := setBit w 21 false
  l.take 60 ++ bytesOf 4 (setBit w 21 (parity 32 w.toNat)).toNat

/-! ### The ELF and header checks (R89–R92) -/

/-- R89: an ELF64 file (class 2), little-endian (1), ET_REL (1) or ET_DYN (3), of architecture version 1. -/
def elfHdrOk (h : ElfHdr) : Bool :=
  h.cls = 2#8 && h.data = 1#8 && h.osabi = 0#8 && (h.typ = 1#16 || h.typ = 3#16) && h.machine = 0x4846#16 && h.flags = 1#32
/-- R89, R90: the ELF fields of an object, and its entry points' symbol type. -/
def elfOk (o : CodeObj) : Bool := elfHdrOk o.elf && o.syms.all (fun y => !y.entry || !y.defined || y.typ = 2)
/-- R90. -/
def sectOk (c : CodeSect) : Bool :=
  match c.kind with
  | .text => c.align = 64 && c.va.toNat % 64 = 0 && c.data.length % 64 = 0
  | .linkage => c.align = 64 && c.va.toNat % 64 = 0 && c.data.length % 8 = 0
  | .data => true

/-- The header of an entry point of an object, if R90 and R92 accept the entry. -/
def entryHdr (o : CodeObj) (y : Sym) : Option KHdr :=
  let a := y.value - 64#64
  match sectAt o a 128 with
  | some c =>
    if c.kind = .text && y.value.toNat % 64 = 0 && y.value.toNat ≥ 64 && lineTgt (objBytes o y.value 64) 0 then parseHeader (objBytes o a 64)
    else none
  | none => none
def entries (o : CodeObj) : List Sym := o.syms.filter (fun y => y.entry && y.defined)
/-- The entries of handler role of some objects. -/
def handlers (os : List CodeObj) : List W64 :=
  os.flatMap (fun o => (entries o).filterMap (fun y => match entryHdr o y with
    | some h => if h.role = 2 then some y.value else none
    | none => none))
/-- The first entry of an object that R92 refuses. -/
def badEntry (hs : List W64) (o : CodeObj) : Option Nat :=
  ((entries o).find? (fun y => match entryHdr o y with
    | some h => h.handler != 0#64 && !hs.contains h.handler
    | none => true)).map (fun y => y.name)

/-! ### Symbols (R448) -/

/-- The definition in force of a name: the first global one, else the first weak one. -/
def binding (os : List CodeObj) (name : Nat) : Option W64 :=
  let ds := os.flatMap (fun o => o.syms.filter (fun y => y.defined && y.name = name && (y.glob || y.weak)))
  match ds.find? (fun y => y.glob && !y.weak) with
  | some y => some y.value
  | none => ds.head?.map (fun y => y.value)
/-- The address that a symbol of an object stands for, none where it is undefined and not weak. -/
def symValue (os : List CodeObj) (y : Sym) : Option W64 :=
  if y.defined && !y.glob && !y.weak then some y.value
  else match binding os y.name with
    | some v => some v
    | none => if y.weak then some 0#64 else none
/-- The global names that an object defines. -/
def globalNames (o : CodeObj) : List Nat := (o.syms.filter (fun y => y.defined && y.glob && !y.weak)).map (fun y => y.name)
/-- R92: the first name that an object defines globally again. -/
def clash (before : List CodeObj) (o : CodeObj) : Option Nat :=
  (globalNames o).find? (fun n => before.any (fun b => (globalNames b).contains n))

/-! ### Relocations (R93) -/

/-- Whether a line of an object is the kernel header of an entry (R90): its bytes belong to no slot. -/
def isHeader (o : CodeObj) (a : W64) : Bool := (entries o).any (fun y => y.value = lineAddr a + 64#64)
/-- A field of a slot written, and the slot's parities made right (R93); none where the place is no slot offset. -/
def putSlot (o : CodeObj) (a : W64) (bs : List Byte) : Option CodeObj :=
  if pcLegal a && (sectAt o (lineAddr a) 64).isSome then
    let o := objPatch o a bs
    some (objPatch o (lineAddr a) (sealLine (objBytes o (lineAddr a) 64)))
  else none
/-- One relocation applied, none where it is refused. A slot of a paired line half has no IMM. -/
def relocate (os : List CodeObj) (o : CodeObj) (r : Reloc) : Option CodeObj :=
  match o.syms[r.sym]? with
  | none => none
  | some y =>
    match symValue os y with
    | none => none
    | some v =>
      let put8 (w : W64) : Option CodeObj := match sectAt o r.va 8 with
        | some c => if c.kind = .text && !isHeader o r.va then putSlot o r.va (bytesOf 8 w.toNat) else some (objPatch o r.va (bytesOf 8 w.toNat))
        | none => none
      let link (w : W64) : Option CodeObj := match sectAt o r.va 8 with
        | some c => if c.kind = .linkage && r.va.toNat % 8 = 0 then put8 w else none
        | none => none
      let imm (w : W32) : Option CodeObj :=
        match sectAt o (lineAddr r.va) 64 with
        | some c =>
          if c.kind = .text && !isHeader o r.va && !linePair (objBytes o (lineAddr r.va) 64) (slotIx r.va) then putSlot o r.va (bytesOf 4 w.toNat)
          else none
        | none => none
      let sum := v + r.addend
      let rel : Int := (v.toNat : Int) + r.addend.toInt - r.va.toNat
      match r.kind with
      | 0 => some o
      | 1 => put8 sum
      | 2 => imm (sum.extractLsb' 0 32)
      | 3 => imm (sum.extractLsb' 32 32)
      | 4 => if -(2 ^ 31 : Int) ≤ rel && rel < (2 ^ 31 : Int) then imm (BitVec.ofInt 32 rel) else none
      | 5 => link (textBase o + r.addend)
      | 6 => link v
      | _ => none
def relocateAll (os : List CodeObj) : List Reloc → CodeObj → Option CodeObj
  | [], o => some o
  | r :: t, o => match relocate os o r with
    | none => none
    | some o => relocateAll os t o

/-! ### A load (R92, R448) -/

/-- What the loader makes of one object: the relocated object, or the name its refusal gives. -/
def judge (os before : List CodeObj) (hs : List W64) (o : CodeObj) : Except Nat CodeObj :=
  match clash before o with
  | some n => .error n
  | none =>
    let first := ((entries o).head?.map (fun y => y.name)).getD 0
    if !elfOk o || !o.sects.all sectOk then .error first
    else match relocateAll os o.relocs o with
      | none => .error first
      | some o => match badEntry hs o with
        | some n => .error n
        | none => .ok o

/-- The objects of a load, each after those before it; `live` are the ones not refused so far. -/
def judgeAll (loaded live : List CodeObj) : List CodeObj → List CodeObj → List (CodeObj × Except Nat CodeObj)
  | _, [] => []
  | before, o :: t =>
    let os := loaded ++ live
    (o, if live.contains o then judge os (loaded ++ before) (handlers os) o else judge os (loaded ++ before) [] o)
      :: judgeAll loaded live (before ++ [o]) t
/-- The objects that stay once every refused object has taken its symbols with it, in at most `n` rounds. -/
def settleLoad (loaded all : List CodeObj) : Nat → List CodeObj → List CodeObj
  | 0, live => live
  | n + 1, live =>
    let ok := ((judgeAll loaded live [] all).filterMap (fun e => match e.2 with
      | .ok _ => if live.contains e.1 then some e.1 else none
      | .error _ => none))
    if ok.length = live.length then live else settleLoad loaded all n ok

/-- R448: whether a section's pages are mapped as its kind asks: `.text` on UO leaves, all else on RC leaves. -/
def sectMapped (s : State) (part : Nat) (c : CodeSect) : Bool :=
  match translate s (partCtx s 0 part) (if c.kind = .text then .fetch else .store) (c.va.extractLsb' 0 56).toNat c.data.length with
  | .ok xs => xs.all (fun x => x.kind = (if c.kind = .text then 2 else 1))
  | .error _ => false
/-- A section written, at the coherence point. -/
def writeSect (s : State) (part : Nat) (c : CodeSect) : State :=
  match translate s (partCtx s 0 part) (if c.kind = .text then .fetch else .store) (c.va.extractLsb' 0 56).toNat c.data.length with
  | .ok xs =>
    let s := (xs.foldl (fun (p : State × List Byte) x => ({ p.1 with mem := p.1.mem.pokes x.pa (p.2.take x.len) }, p.2.drop x.len))
      (s, c.data)).1
    if c.kind = .text then
      { s with cores := s.cores.map (fun (e : Nat × Core) => (e.1, if s.partOf e.1 = some part then
        { e.2 with ic := e.2.ic.filter (fun l => !xs.any (fun x => x.pa / 64 ≤ l.1 && 64 * l.1 < x.pa + x.len)) } else e.2)) }
    else s
  | .error _ => s

/-- LOADER_LOAD: the load of a list of objects into a partition, whose placement must be mapped. -/
def loadObjs (s : State) (part : Nat) (objs : List CodeObj) : State :=
  if !objs.all (fun o => o.sects.all (sectMapped s part)) then s
  else
    let loaded := (s.objs.filter (fun l => l.part = part && l.fault = 0#32)).map (fun l => l.obj)
    let live := settleLoad loaded objs (objs.length + 1) objs
    (judgeAll loaded live [] objs).foldl (fun s e =>
      match e.2 with
      | .ok o =>
        if live.contains e.1 then
          let s := o.sects.foldl (fun s c => writeSect s part c) s
          { s with objs := s.objs ++ [⟨part, o, 0#32, 0⟩] }
        else { s with objs := s.objs ++ [⟨part, e.1, fwBADHDR, 0⟩] }
      | .error n => { s with objs := s.objs ++ [⟨part, e.1, fwBADHDR, n⟩] }) s
def execLoaderLoad (part : Nat) (objs : List CodeObj) (s : State) : Host.Outcome State Fault Refusal := next (loadObjs s part objs)

end Sys2Proof.Machine
end

