-- ==== Sys2Proof/Machine/Dispatch.lean ====
section
/-!
DEFINITION. The dispatch: one arm per step of the HX4, in the order of the opcode table.
-/

namespace Sys2Proof.Machine

def exec (i : Instr) (s : State) : Host.Outcome State Fault Refusal :=
  match i with
  | .iadd o w sat => Sys2Proof.Machine.execIadd o w sat s
  | .isub o w sat => Sys2Proof.Machine.execIsub o w sat s
  | .imul o w sat => Sys2Proof.Machine.execImul o w sat s
  | .imulh o w u => Sys2Proof.Machine.execImulh o w u s
  | .imad o w => Sys2Proof.Machine.execImad o w s
  | .iaddc o w sub co => Sys2Proof.Machine.execIaddc o w sub co s
  | .imin o w u => Sys2Proof.Machine.execImin o w u s
  | .imax o w u => Sys2Proof.Machine.execImax o w u s
  | .iabs o w sat => Sys2Proof.Machine.execIabs o w sat s
  | .ineg o w sat => Sys2Proof.Machine.execIneg o w sat s
  | .and o w => Sys2Proof.Machine.execAnd o w s
  | .or o w => Sys2Proof.Machine.execOr o w s
  | .xor o w => Sys2Proof.Machine.execXor o w s
  | .not o w => Sys2Proof.Machine.execNot o w s
  | .andn o w => Sys2Proof.Machine.execAndn o w s
  | .shl o w => Sys2Proof.Machine.execShl o w s
  | .shr o w => Sys2Proof.Machine.execShr o w s
  | .sar o w => Sys2Proof.Machine.execSar o w s
  | .rot o w => Sys2Proof.Machine.execRot o w s
  | .popc o w => Sys2Proof.Machine.execPopc o w s
  | .clz o w => Sys2Proof.Machine.execClz o w s
  | .ctz o w => Sys2Proof.Machine.execCtz o w s
  | .brev o w => Sys2Proof.Machine.execBrev o w s
  | .bfe o w sx => Sys2Proof.Machine.execBfe o w sx s
  | .bfi o w => Sys2Proof.Machine.execBfi o w s
  | .prmt o => Sys2Proof.Machine.execPrmt o s
  | .icmp o w cond u comb => Sys2Proof.Machine.execIcmp o w cond u comb s
  | .isel o w => Sys2Proof.Machine.execIsel o w s
  | .mov o w => Sys2Proof.Machine.execMov o w s
  | .movi o w z => Sys2Proof.Machine.execMovi o w z s
  | .movh o => Sys2Proof.Machine.execMovh o s
  | .lea o scale idx => Sys2Proof.Machine.execLea o scale idx s
  | .promv o form => Sys2Proof.Machine.execPromv o form s
  | .proma o => Sys2Proof.Machine.execProma o s
  | .astr o => Sys2Proof.Machine.execAstr o s
  | .abase o => Sys2Proof.Machine.execAbase o s
  | .fadd o rm => Sys2Proof.Machine.execFadd o rm s
  | .fsub o rm => Sys2Proof.Machine.execFsub o rm s
  | .fmul o rm => Sys2Proof.Machine.execFmul o rm s
  | .ffma o rm np nc => Sys2Proof.Machine.execFfma o rm np nc s
  | .fmin o => Sys2Proof.Machine.execFmin o s
  | .fmax o => Sys2Proof.Machine.execFmax o s
  | .fminn o => Sys2Proof.Machine.execFminn o s
  | .fmaxn o => Sys2Proof.Machine.execFmaxn o s
  | .fcmp o cond comb => Sys2Proof.Machine.execFcmp o cond comb s
  | .fclass o => Sys2Proof.Machine.execFclass o s
  | .frnd o rm => Sys2Proof.Machine.execFrnd o rm s
  | .fcvt o rm kind => Sys2Proof.Machine.execFcvt o rm kind s
  | .bfcvt o rm sat => Sys2Proof.Machine.execBfcvt o rm sat s
  | .bfext o hi => Sys2Proof.Machine.execBfext o hi s
  | .badd2 o rm s_ => Sys2Proof.Machine.execBadd2 o rm s_ s
  | .bmul2 o rm s_ => Sys2Proof.Machine.execBmul2 o rm s_ s
  | .bfma2 o rm s_ => Sys2Proof.Machine.execBfma2 o rm s_ s
  | .fdot2 o rm => Sys2Proof.Machine.execFdot2 o rm s
  | .fexp2 o => Sys2Proof.Machine.execFexp2 o s
  | .flog2 o => Sys2Proof.Machine.execFlog2 o s
  | .frcp o => Sys2Proof.Machine.execFrcp o s
  | .frsq o => Sys2Proof.Machine.execFrsq o s
  | .fsqrt o => Sys2Proof.Machine.execFsqrt o s
  | .fsin o => Sys2Proof.Machine.execFsin o s
  | .fcos o => Sys2Proof.Machine.execFcos o s
  | .ftanh o => Sys2Proof.Machine.execFtanh o s
  | .fscl o rm => Sys2Proof.Machine.execFscl o rm s
  | .rng o f => Sys2Proof.Machine.execRng o f s
  | .bra o nq pop => Sys2Proof.Machine.execBra o nq pop s
  | .brx o pop => Sys2Proof.Machine.execBrx o pop s
  | .call o => Sys2Proof.Machine.execCall o s
  | .callx o => Sys2Proof.Machine.execCallx o s
  | .ret o => Sys2Proof.Machine.execRet o s
  | .loop o len => Sys2Proof.Machine.execLoop o len s
  | .conv o => Sys2Proof.Machine.execConv o s
  | .exit o => Sys2Proof.Machine.execExit o s
  | .wait o => Sys2Proof.Machine.execWait o s
  | .yield o => Sys2Proof.Machine.execYield o s
  | .nop o => Sys2Proof.Machine.execNop o s
  | .trap o => Sys2Proof.Machine.execTrap o s
  | .trapEnd o => Sys2Proof.Machine.execTrapEnd o s
  | .tret o next => Sys2Proof.Machine.execTret o next s
  | .brk o => Sys2Proof.Machine.execBrk o s
  | .vote o mode => Sys2Proof.Machine.execVote o mode s
  | .elect o => Sys2Proof.Machine.execElect o s
  | .shfl o mode seg => Sys2Proof.Machine.execShfl o mode seg s
  | .rdlane o => Sys2Proof.Machine.execRdlane o s
  | .wrlane o => Sys2Proof.Machine.execWrlane o s
  | .redi o op u => Sys2Proof.Machine.execRedi o op u s
  | .redf o op => Sys2Proof.Machine.execRedf o op s
  | .redmaxi o i_ => Sys2Proof.Machine.execRedmaxi o i_ s
  | .matchLanes o => Sys2Proof.Machine.execMatchLanes o s
  | .isect o => Sys2Proof.Machine.execIsect o s
  | .scnt o inc => Sys2Proof.Machine.execScnt o inc s
  | .getsr o => Sys2Proof.Machine.execGetsr o s
  | .setsr o op => Sys2Proof.Machine.execSetsr o op s
  | .regacq o => Sys2Proof.Machine.execRegacq o s
  | .regrel o => Sys2Proof.Machine.execRegrel o s
  | .ld o ch scope ord size => Sys2Proof.Machine.execLd o ch scope ord size s
  | .ldConvert o ch fmt => Sys2Proof.Machine.execLdConvert o ch fmt s
  | .st o ch scope ord size => Sys2Proof.Machine.execSt o ch scope ord size s
  | .stConvert o ch sat rm fmt => Sys2Proof.Machine.execStConvert o ch sat rm fmt s
  | .atom o sz scope ord aop => Sys2Proof.Machine.execAtom o sz scope ord aop s
  | .red o sz scope ord aop => Sys2Proof.Machine.execRed o sz scope ord aop s
  | .fence o scope => Sys2Proof.Machine.execFence o scope s
  | .fenceG o scope => Sys2Proof.Machine.execFenceG o scope s
  | .fencex o paths scope => Sys2Proof.Machine.execFencex o paths scope s
  | .pref o l2 => Sys2Proof.Machine.execPref o l2 s
  | .discard o => Sys2Proof.Machine.execDiscard o s
  | .clean o mem => Sys2Proof.Machine.execClean o mem s
  | .inval o i_ => Sys2Proof.Machine.execInval o i_ s
  | .copy o => Sys2Proof.Machine.execCopy o s
  | .mma o ru z => Sys2Proof.Machine.execMma o ru z s
  | .mmaS o z => Sys2Proof.Machine.execMmaS o z s
  | .mmaP o ru z => Sys2Proof.Machine.execMmaP o ru z s
  | .accz o sel => Sys2Proof.Machine.execAccz o sel s
  | .accld o side fmt => Sys2Proof.Machine.execAccld o side fmt s
  | .accst o sat rm side fmt => Sys2Proof.Machine.execAccst o sat rm side fmt s
  | .accscl o row => Sys2Proof.Machine.execAccscl o row s
  | .smx o nv => Sys2Proof.Machine.execSmx o nv s
  | .smxf o => Sys2Proof.Machine.execSmxf o s
  | .mred o col => Sys2Proof.Machine.execMred o col s
  | .mtrld o b8 => Sys2Proof.Machine.execMtrld o b8 s
  | .tset o => Sys2Proof.Machine.execTset o s
  | .bseal o => Sys2Proof.Machine.execBseal o s
  | .bwait o => Sys2Proof.Machine.execBwait o s
  | .barinit o => Sys2Proof.Machine.execBarinit o s
  | .barexp o => Sys2Proof.Machine.execBarexp o s
  | .barwait o paths gn => Sys2Proof.Machine.execBarwait o paths gn s
  | .barpoll o => Sys2Proof.Machine.execBarpoll o s
  | .clbar o paths => Sys2Proof.Machine.execClbar o paths s
  | .clarr o paths => Sys2Proof.Machine.execClarr o paths s
  | .rld o cnt => Sys2Proof.Machine.execRld o cnt s
  | .msend o blk => Sys2Proof.Machine.execMsend o blk s
  | .mrecv o => Sys2Proof.Machine.execMrecv o s
  | .mprobe o st => Sys2Proof.Machine.execMprobe o st s
  | .mcancel o => Sys2Proof.Machine.execMcancel o s
  | .hpop o => Sys2Proof.Machine.execHpop o s
  | .hpopJ o => Sys2Proof.Machine.execHpopJ o s
  | .hpush o => Sys2Proof.Machine.execHpush o s
  | .hstat o => Sys2Proof.Machine.execHstat o s
  | .evsig o op => Sys2Proof.Machine.execEvsig o op s
  | .evwait o => Sys2Proof.Machine.execEvwait o s
  | .jdone o => Sys2Proof.Machine.execJdone o s
  | .publish o => Sys2Proof.Machine.execPublish o s
  | .adopt o => Sys2Proof.Machine.execAdopt o s
  | .tokrec o => Sys2Proof.Machine.execTokrec o s
  | .snap o => Sys2Proof.Machine.execSnap o s
  | .waitRelease g => Sys2Proof.Machine.execWaitRelease g s
  | .convRelease g => Sys2Proof.Machine.execConvRelease g s
  | .regacqGrant c => Sys2Proof.Machine.execRegacqGrant c s
  | .exitComplete g lane => Sys2Proof.Machine.execExitComplete g lane s
  | .loadWriteback g ix only => Sys2Proof.Machine.execLoadWriteback g ix only s
  | .storePerform g ix early => Sys2Proof.Machine.execStorePerform g ix early s
  | .ldpois g lane => Sys2Proof.Machine.execLdpois g lane s
  | .fenceRelease g lane => Sys2Proof.Machine.execFenceRelease g lane s
  | .matrixOpStart c => Sys2Proof.Machine.execMatrixOpStart c s
  | .matrixOpRetire c => Sys2Proof.Machine.execMatrixOpRetire c s
  | .tsetInstall g => Sys2Proof.Machine.execTsetInstall g s
  | .copyAccept c ch => Sys2Proof.Machine.execCopyAccept c ch s
  | .copyArrival c ix rx bytes => Sys2Proof.Machine.execCopyArrival c ix rx bytes s
  | .copySourceFail c ix => Sys2Proof.Machine.execCopySourceFail c ix s
  | .curatorCopyFinish c ix rx how => Sys2Proof.Machine.execCuratorCopyFinish c ix rx how s
  | .barwaitRelease g => Sys2Proof.Machine.execBarwaitRelease g s
  | .clbarRelease g => Sys2Proof.Machine.execClbarRelease g s
  | .messageArrival ix => Sys2Proof.Machine.execMessageArrival ix s
  | .messageStallTimeout t ix => Sys2Proof.Machine.execMessageStallTimeout t ix s
  | .hpushPlace c ix => Sys2Proof.Machine.execHpushPlace c ix s
  | .hamperRefill c => Sys2Proof.Machine.execHamperRefill c s
  | .hpopTake g => Sys2Proof.Machine.execHpopTake g s
  | .evwaitRelease g => Sys2Proof.Machine.execEvwaitRelease g s
  | .jdoneRelease g => Sys2Proof.Machine.execJdoneRelease g s
  | .jobLaunch t => Sys2Proof.Machine.execJobLaunch t s
  | .jobCompletionReport ix => Sys2Proof.Machine.execJobCompletionReport ix s
  | .coreSleep c => Sys2Proof.Machine.execCoreSleep c s
  | .coreWake c errors => Sys2Proof.Machine.execCoreWake c errors s
  | .haltRequest t => Sys2Proof.Machine.execHaltRequest t s
  | .checkpointSave t lost => Sys2Proof.Machine.execCheckpointSave t lost s
  | .queueTailWake d q => Sys2Proof.Machine.execQueueTailWake d q s
  | .nopRecord h => Sys2Proof.Machine.execNopRecord h s
  | .job h tiles entry arg p => Sys2Proof.Machine.execJob h tiles entry arg p s
  | .cjob h clusters entry arg p => Sys2Proof.Machine.execCjob h clusters entry arg p s
  | .waitev h event => Sys2Proof.Machine.execWaitev h event s
  | .sigev h op event n => Sys2Proof.Machine.execSigev h op event n s
  | .loopRecord h nbody cond maxiter dmin dmax d0 mon => Sys2Proof.Machine.execLoopRecord h nbody cond maxiter dmin dmax d0 mon s
  | .loopend h => Sys2Proof.Machine.execLoopend h s
  | .adoptRecord h => Sys2Proof.Machine.execAdoptRecord h s
  | .lease h r w part base len => Sys2Proof.Machine.execLease h r w part base len s
  | .unlease h base len => Sys2Proof.Machine.execUnlease h base len s
  | .resume h core cv image table event evon => Sys2Proof.Machine.execResume h core cv image table event evon s
  | .partw h pword mask clcfg gslots => Sys2Proof.Machine.execPartw h pword mask clcfg gslots s
  | .mark h addr value => Sys2Proof.Machine.execMark h addr value s
  | .slice h set t => Sys2Proof.Machine.execSlice h set t s
  | .endreq h nreq state bitmap => Sys2Proof.Machine.execEndreq h nreq state bitmap s
  | .haltq h queue halt budget => Sys2Proof.Machine.execHaltq h queue halt budget s
  | .leasePinComplete d q n => Sys2Proof.Machine.execLeasePinComplete d q n s
  | .tilePlace d => Sys2Proof.Machine.execTilePlace d s
  | .drainEscalate d q => Sys2Proof.Machine.execDrainEscalate d q s
  | .resumeListResume d q => Sys2Proof.Machine.execResumeListResume d q s
  | .evwaitBudgetExpire g => Sys2Proof.Machine.execEvwaitBudgetExpire g s
  | .watchdogTick d => Sys2Proof.Machine.execWatchdogTick d s
  | .catalogueStep d slot op n => Sys2Proof.Machine.execCatalogueStep d slot op n s
  | .coreLost c => Sys2Proof.Machine.execCoreLost c s
  | .linkdown d site dir => Sys2Proof.Machine.execLinkdown d site dir s
  | .queueStart d q => Sys2Proof.Machine.execQueueStart d q s
  | .pcoreWrite d p mask => Sys2Proof.Machine.execPcoreWrite d p mask s
  | .vitbaseWrite d n value => Sys2Proof.Machine.execVitbaseWrite d n value s
  | .vitrinePin d n => Sys2Proof.Machine.execVitrinePin d n s
  | .vitrineRelease d n => Sys2Proof.Machine.execVitrineRelease d n s
  | .vitrinePinDone d n => Sys2Proof.Machine.execVitrinePinDone d n s
  | .vitrineReleaseDone d n => Sys2Proof.Machine.execVitrineReleaseDone d n s
  | .xlinvPage d p va => Sys2Proof.Machine.execXlinvPage d p va s
  | .xlinvPartition d p => Sys2Proof.Machine.execXlinvPartition d p s
  | .xlinvAll d => Sys2Proof.Machine.execXlinvAll d s
  | .xlinvDone d => Sys2Proof.Machine.execXlinvDone d s
  | .rootWrite p value => Sys2Proof.Machine.execRootWrite p value s
  | .pubaccWrite value => Sys2Proof.Machine.execPubaccWrite value s
  | .debugDisarm value => Sys2Proof.Machine.execDebugDisarm value s
  | .debugHoldQueue value => Sys2Proof.Machine.execDebugHoldQueue value s
  | .debugStopJob value => Sys2Proof.Machine.execDebugStopJob value s
  | .debugStopPartition value => Sys2Proof.Machine.execDebugStopPartition value s
  | .snapinTrigger => Sys2Proof.Machine.execSnapinTrigger s
  | .snapshotLatch => Sys2Proof.Machine.execSnapshotLatch s
  | .tsTick => Sys2Proof.Machine.execTsTick s
  | .registerWrite priv off size value => Sys2Proof.Machine.execRegisterWrite priv off size value s
  | .powerGood recover => Sys2Proof.Machine.execPowerGood recover s
  | .stageB dies => Sys2Proof.Machine.execStageB dies s
  | .stageC => Sys2Proof.Machine.execStageC s
  | .attestationRequest nonce => Sys2Proof.Machine.execAttestationRequest nonce s
  | .ownerEnrol image copy writable => Sys2Proof.Machine.execOwnerEnrol image copy writable s
  | .watisPortDown port => Sys2Proof.Machine.execWatisPortDown port s
  | .ualinkPortDown port => Sys2Proof.Machine.execUalinkPortDown port s
  | .fabricRingStart q => Sys2Proof.Machine.execFabricRingStart q s
  | .fabricTailWake q => Sys2Proof.Machine.execFabricTailWake q s
  | .read h peer laddr raddr len => Sys2Proof.Machine.execRead h peer laddr raddr len s
  | .write h peer laddr raddr len => Sys2Proof.Machine.execWrite h peer laddr raddr len s
  | .atomic h peer laddr raddr aop sz => Sys2Proof.Machine.execAtomic h peer laddr raddr aop sz s
  | .allreduce h rop cgid laddr list len nmem => Sys2Proof.Machine.execAllreduce h rop cgid laddr list len nmem s
  | .broadcast h cgid root laddr list len nmem => Sys2Proof.Machine.execBroadcast h cgid root laddr list len nmem s
  | .fabricCmdComplete q ix ok data => Sys2Proof.Machine.execFabricCmdComplete q ix ok data s
  | .fabricRequestArrival peer addr op => Sys2Proof.Machine.execFabricRequestArrival peer addr op s
  | .remoteEventAnswer event count fail => Sys2Proof.Machine.execRemoteEventAnswer event count fail s
  | .fabricPeerTimeout peer => Sys2Proof.Machine.execFabricPeerTimeout peer s
  | .collectiveTimeout cgid reuse => Sys2Proof.Machine.execCollectiveTimeout cgid reuse s
  | .peerDebugState peer on => Sys2Proof.Machine.execPeerDebugState peer on s
  | .sliceDrainStart => Sys2Proof.Machine.execSliceDrainStart s
  | .sliceEscalate => Sys2Proof.Machine.execSliceEscalate s
  | .sliceSwitch => Sys2Proof.Machine.execSliceSwitch s
  | .loaderLoad part objs => Sys2Proof.Machine.execLoaderLoad part objs s
  | .tlockChange locked => Sys2Proof.Machine.execTlockChange locked s
  | .eventWatchRegister peer event => Sys2Proof.Machine.execEventWatchRegister peer event s
  | .collectiveMemberData cgid member same data => Sys2Proof.Machine.execCollectiveMemberData cgid member same data s
  | .cgidFinishReport cgid member => Sys2Proof.Machine.execCgidFinishReport cgid member s
  | .hostAccess op => Sys2Proof.Machine.execHostAccess op s

end Sys2Proof.Machine
end

