-- ==== Sys2Proof/Machine/Fetch.lean ====
section
/-!
DEFINITION. Issue by a group (R38, R39, R293): which threads it picks, the fetch and checks of their slot (R67, R78, R79, R483), a
full word or a pair run on them; the Docent's and the station's reading of their next record or command (R373, R374, R472).
-/

namespace Sys2Proof.Machine

def fwILLOP : W32 := 0x01420001#32
def fwILLTYPE : W32 := 0x01420002#32
def fwILLENC : W32 := 0x01420003#32
def fwBADPAIR : W32 := 0x01420004#32
/-- The fault word of a decode fault (R79). -/
def decFault : DecFault → W32
  | .illop => fwILLOP
  | .illenc => fwILLENC
  | .illtype => fwILLTYPE
  | .badpair => fwBADPAIR

/-! ### What an instruction counts (R80, R81, R254) -/

/-- The counter an instruction takes: 0 none, 1 LDC, 2 STC, 3 CPC, 4 TLC. -/
def counter (s : State) (gid : Nat) (i : Instr) : Nat :=
  if (match copyOps i with | some o => decide (region (addrOf (s.group gid) (s.env gid) o 0) = 0xFC) | none => false) = true then 3
  else match i with
  | .ld .. | .ldConvert .. | .rld .. | .clarr .. => 1
  | .atom o .. => if o.d.isZero then 2 else 1
  | .st .. | .copy _ | .stConvert .. | .red .. | .discard _ | .clean .. | .inval .. | .msend .. | .hpush _ | .evsig .. | .tokrec _ => 2
  | .mma .. | .mmaS .. | .mmaP .. | .accz .. | .accld .. | .accst .. | .accscl .. | .smx .. | .smxf _ | .mred .. | .mtrld .. => 4
  | _ => 0

/-- The cores whose sequencers a matrix-class instruction enters. -/
def seqCores (s : State) (gid : Nat) (i : Instr) : List Nat :=
  match i with
  | .mmaP .. => if pairOkAt s gid then [cidOf gid, cidOf gid + 1] else [cidOf gid]
  | _ => [cidOf gid]
/-- R244: an `mma.p` of another core stands in this core's sequencer. -/
def follows (s : State) (cid : Nat) : Bool :=
  (s.core cid).mseq.any (fun e => (match e.ins with | .mmaP .. => true | _ => false) && cidOf e.gid != cid)

/-- R38: a set whose next instruction would take a counter above its maximum, or that a sequencer cannot yet accept. -/
def blocked (s : State) (gid : Nat) (m : Mask) (i : Instr) : Bool :=
  let g := s.group gid
  let some_ : Bool := match i.guardOf with
    | some o => maskWhere m (fun l => guardTrue o.g g l) != 0#32
    | none => true
  match counter s gid i with
  | 1 => some_ && decide (g.lds.length ≥ 63)
  | 2 => some_ && decide (g.stc ≥ 63)
  | 3 => some_ && decide (g.cps.length ≥ 63)
  | 4 => decide (s.tlc gid ≥ 15) || follows s (cidOf gid) || (seqCores s gid i).any (fun c => decide ((s.core c).mseq.length ≥ 16))
  | _ => false

/-! ### The pick (R38, R39) -/

/-- Whether a group's threads issue at all: its core is awake and whole, its team runs a job or idle code, and a cluster job has
been launched on every member (R297, R324). -/
def groupRuns (s : State) (gid : Nat) : Bool :=
  let c := s.core (cidOf gid)
  let t := s.team (s.tidOf gid)
  (s.group gid).live && !c.asleep && !c.dead && !c.lost && (t.st = .run || t.st = .idle)
  && (match s.clusterOf (s.tidOf gid) with | some (_, c, _) => c.launched | none => true)

/-- Threads that wait in no instruction. -/
def candidates (g : Group) : Mask := maskWhere g.fmask (fun l => (g.thread l).wait.isNone)
/-- The instruction at a PC as the core would fetch it now, where it decodes. -/
def peekSlot (s : State) (gid : Nat) (pc : W64) : Option Slot :=
  match fetchAddr s (s.ctx gid .sup) pc with
  | .error _ => none
  | .ok pa =>
    let l := (fetchLine s (cidOf gid) pa).1
    match decodeSlot (linePair l (slotIx pc)) (slotWord l (slotIx pc)) with
    | .ok x => some x
    | .error _ => none
/-- The sets of ready threads of a group, each with its PC, in the order of their lowest lanes. -/
def readySets (s : State) (gid : Nat) : List (W64 × Mask) :=
  let g := s.group gid
  let m := maskWhere (candidates g) (fun l => !(g.thread l).yielded)
  let pcs := (lanesOf m).foldl (fun (a : List W64) l => if a.contains (g.thread l).pc then a else a ++ [(g.thread l).pc]) []
  (pcs.map (fun pc => (pc, maskWhere m (fun l => (g.thread l).pc = pc)))).filter (fun e =>
    match peekSlot s gid e.1 with
    | some (.full i) => !blocked s gid e.2 i
    | _ => true)

/-- Whether set `x` goes before set `y`. -/
def goesFirst (g : Group) (x y : W64 × Mask) : Bool :=
  let old (e : W64 × Mask) : Bool := (lanesOf e.2).any (fun l => decide ((g.thread l).age ≥ 63))
  let lower : Bool := decide (x.1.toNat < y.1.toNat)
  if old x || old y then (if old x && old y then lower else old x)
  else if popMask x.2 = popMask y.2 then lower else decide (popMask x.2 > popMask y.2)
/-- The set that R38 and R39 pick. -/
def pickOf (g : Group) : List (W64 × Mask) → Option (W64 × Mask)
  | [] => none
  | x :: t => match pickOf g t with
    | none => some x
    | some y => if goesFirst g x y then some x else some y
def picked (s : State) (gid : Nat) : Option (W64 × Mask) := pickOf (s.group gid) (readySets s gid)

/-- Whether a group may be chosen: it has a picked set, every pipe accepting in every cycle (log 14); or threads for which only an
opportunity must pass after their `yield` (R147). -/
def mayChoose (s : State) (gid : Nat) : Bool :=
  groupRuns s gid && ((picked s gid).isSome || (candidates (s.group gid) != 0#32 && (s.group gid).threads.any (fun t => t.2.yielded)))
/-- R293: the group that scheduler k of a core chooses: the first after the one it chose last, in ascending slot order. -/
def schedChoice (s : State) (cid k : Nat) : Option Nat :=
  let last := Tbl.get (24 + k) k (s.core cid).sched
  ((rangeFrom (last / 8 + 1) 4).map (fun j => 32 * cid + 8 * (j % 4) + k)).find? (mayChoose s)

/-- One issue opportunity passes: ready threads not picked age, and `yield` has had its effect (R39, R147). -/
def passOpportunity (s : State) (gid : Nat) (m : Mask) : State :=
  let ready := (readySets s gid).foldl (fun (a : Mask) e => a ||| e.2) 0#32
  let s := s.modGroup gid (fun g => g.modThreads g.fmask (fun t => { t with yielded := false }))
  let s := s.modGroup gid (fun g => lanes.foldl (fun g l =>
    if g.fmask.getLsbD l then g.modThread l (fun t => { t with
      age := if ready.getLsbD l && !m.getLsbD l then min 63 (t.age + 1) else 0 }) else g) g)
  s.modCore (cidOf gid) (fun c => { c with sched := Tbl.put (gid % 8) (gid % 32) c.sched })

/-! ### Running a slot -/

/-- The issuer of an instruction word. -/
def asGroup (s : State) (gid : Nat) (m : Mask) : State := { s with cur := ⟨gid, m, 0, 0, 0#32⟩ }

/-- R77: both halves read before either writes. `x` and `y` are what half 0 and half 1 leave of the same state: the destination and
the flags of half 1 join what half 0 leaves. -/
def joinHalves (gid : Nat) (m : Mask) (d n : Nat) (x y : State) : State :=
  x.modGroup gid (fun g => (lanesOf m).foldl (fun g l =>
    let g := (upTo n).foldl (fun g k => g.setV l (d + k) ((y.group gid).vreg l (d + k))) g
    g.orFlags l ((y.group gid).thread l).flags) g)
/-- The varying destination of a half: its register and how many. -/
def halfDest (i : Instr) : Nat × Nat :=
  match i.guardOf with
  | some o => (match o.d with | .v k => (k.toNat, (instrSpans i).1.1) | _ => (0, 0))
  | none => (0, 0)
/-- A pair on a set: RBNH of either half stops both (R78). -/
def runPair (s : State) (gid : Nat) (m : Mask) (pc : W64) (i j : Instr) : Host.Outcome State Fault Refusal :=
  let (_, uc, ac) := s.counts gid
  let xb := (s.group gid).xblk
  if !regsOk i xb uc ac then next (deliver s gid (trapAll m fwRBNH (pc + 6#64)))
  else if !regsOk j xb uc ac then next (deliver s gid (trapAll m fwRBNH pc))
  else match exec i (asGroup s gid m), exec j (asGroup s gid m) with
    | .next x, .next y => next (joinHalves gid m (halfDest j).1 (halfDest j).2 x y)
    | .fault f, _ | _, .fault f => .fault f
    | .refused r, _ | _, .refused r => .refused r

/-- Whether the delivery of some faults ends the group's job (R162, R389). -/
def endsHere (s : State) (gid : Nat) (ts : List Trap) : Bool :=
  ts.any (fun t => endsJob s gid t.word || (s.group gid).tlanes.getLsbD t.lane)

/-- A slot fetched at `pa` runs on a set: integrity (R67), decode (R78, R79), then the instruction. -/
def runSlot (s : State) (gid : Nat) (m : Mask) (pc : W64) (pa : Nat) : Host.Outcome State Fault Refusal :=
  match checkedLine s (cidOf gid) pa (some (slotIx pc)) with
  | (.error (f, o), s) => next (deliver s gid (trapAll m f (lineAddr pc + BitVec.ofNat 64 o)))
  | (.ok l, s) =>
    let pair := linePair l (slotIx pc)
    match decodeSlot pair (slotWord l (slotIx pc)) with
    | .error e => next (deliver s gid (trapAll m (decFault e.fault) (if !pair then 0#64 else if e.half = 0 then pc + 6#64 else pc)))
    | .ok x =>
      let s := s.modCore (cidOf gid) (fun c => { c with ctr := Tbl.put 0 (Tbl.get 0#32 0 c.ctr + 1#32) c.ctr })
      match x with
      | .full i => exec i (asGroup s gid m)
      | .pair i j => runPair s gid m pc i j

/-- R483: the fetch of a set's PC; the SUP part of the check traps only the threads at user level. -/
def fetchAndRun (s : State) (gid : Nat) (m : Mask) (pc : W64) : Host.Outcome State Fault Refusal :=
  match fetchAddr s (s.ctx gid .sup) pc with
  | .error f => next (deliver s gid (trapAll m f pc))
  | .ok pa =>
    let low := userMask (s.group gid) m
    match if low = 0#32 then .ok pa else fetchAddr s (s.ctx gid .user) pc with
    | .ok _ => runSlot s gid m pc pa
    | .error f =>
      let ts := trapAll low f pc
      let t := deliver s gid ts
      if endsHere s gid ts || m &&& ~~~low = 0#32 then next t else runSlot t gid (m &&& ~~~low) pc pa

/-- The threads of a set with an LDPOIS still to deliver (R189). -/
def poisMask (g : Group) (m : Mask) : Mask := maskWhere m (fun l => (g.thread l).pend.isSome)

/-- A group at an issue opportunity, which its scheduler gives it: a pending LDPOIS of the picked threads is their issue; else their slot
runs. -/
def issueGroup (s : State) (gid : Nat) : Host.Outcome State Fault Refusal :=
  if schedChoice s (cidOf gid) (gid % 8) != some gid then next s
  else match picked s gid with
    | none => next (passOpportunity s gid 0#32)
    | some (pc, m) =>
      let po := poisMask (s.group gid) m
      let ts := (lanesOf po).map (fun l => Trap.mk l fwLDPOIS (((s.group gid).thread l).pend.getD 0#64))
      let s := passOpportunity s gid m
      if po = 0#32 then fetchAndRun s gid m pc
      else next (deliver (s.modGroup gid (fun g => g.modThreads po (fun t => { t with pend := none }))) gid ts)

/-! ### Records and commands (R373–R375, R472, R473) -/

def asDocent (s : State) (d q : Nat) (n : W32) : State := { s with cur := ⟨0, 0#32, d, q, n⟩ }
/-- The Docent reads a queue's next record and runs it; one that no record layout fits is refused in the order of R375. -/
def docentTake (s : State) (d q : Nat) : Host.Outcome State Fault Refusal :=
  let n := (s.queue d q).next
  let t := asDocent s d q n
  if !launchable t then next s
  else match readRec s d q n with
    | .error f => next (stopQueue s d q f n)
    | .ok w =>
      match decodeRecord w with
      | some i => exec i t
      | none => next (stopQueue s d q (if w.extractLsb' 16 16 != n.setWidth 16 then fwOPSEQ
          else if recordPriv (dword w 0) && !qPriv (s.queue d q) then fwOPPRIV else fwOPBAD) n)

/-- The station reads a ring's next command and runs it; a malformed one completes with FABCMD. -/
def fabricTake (s : State) (q : Nat) : Host.Outcome State Fault Refusal :=
  let n := (s.ring q).next
  let t := asDocent s 0 q n
  if !startable t then next s
  else match readCmd s q n with
    | .error f => next (stopRing s q f n)
    | .ok w =>
      match decodeCommand w with
      | some i => exec i t
      | none =>
        if w.extractLsb' 32 16 != n.setWidth 16 then next (stopRing s q fwOPSEQ n)
        else next (badCmd s q n (.read ⟨n.setWidth 16, false, false, 0#32⟩ 0#10 0#64 0#64 0#32))

end Sys2Proof.Machine
end

