-- ==== Sys2Proof/Machine/Integrity.lean ====
section
/-!
DEFINITION. Data integrity (15: R368, R369, R371): the check of a line, the failures of a check at the boundaries that data crosses, and
uncorrectable errors. No instruction causes one: the agenda does.
-/

namespace Sys2Proof.Machine

/-- R368: the check that a line of memory carries, computed again whenever the line is written. -/
def Memory.check (m : Memory) (line : Nat) : W32 := crc32c (m.peeks (128 * line) 128)

/-- INTEG of a segment (R371). -/
def fwINTEG (seg : Nat) : W32 := 0x80404000#32 + BitVec.ofNat 32 seg
/-- R369: INTEG logged with the PA of a line and the code of the unit that verifies it. -/
def logInteg (s : State) (seg : Nat) (site : Half) (pa : Nat) : State :=
  s.logErr (site.extractLsb' 12 3).toNat (fwINTEG seg) site (BitVec.ofNat 64 (pa / 128 * 128))

/-- R368: the unit that verifies a segment for a core: 1 and 2 a port of the hub, logged on the line's home die; 3 and 4 the slice; 5 the router
of the core's site; 6 the gateway of the core's die; 7 and 8 the core's copy channels and L1 (log 133). -/
def verifier (s : State) (seg cid pa : Nat) : Half :=
  let at_ := 9 * (cid / 8 % 8) + physCol s cid
  if seg ≤ 4 then sliceSite pa
  else if seg = 6 then (match (gateLinks (homeDie pa) (dieOf cid)).getLast? with | some l => l.code | none => siteOf (dieOf cid) 72 0xD)
  else siteOf (dieOf cid) at_ (if seg = 5 then 0 else if seg = 7 then 7 else 4)

/-- A line of memory poisoned: an uncorrectable error where `seg` is 0, else a check failed, logged once for the line. -/
def flawMem (s : State) (seg line : Nat) : State :=
  let t : State := { s with mem := s.mem.markPois line }
  if seg = 0 || s.mem.isPois line then t else logInteg t seg (verifier s seg (64 * homeDie (128 * line)) (128 * line)) (128 * line)
/-- A line of an L1 that fails its check on consumption, or failed it on the way there (segments 5, 6, 8). -/
def flawL1 (s : State) (cid key seg : Nat) : State :=
  match Tbl.find key (s.core cid).l1 with
  | some l =>
    if l.pois then s
    else logInteg (s.modCore cid (fun c => { c with l1 := Tbl.put key { l with pois := true } c.l1 })) seg
      (verifier s seg cid (64 * key)) (64 * key)
  | none => s
/-- An access of an outstanding load to an SO page performs, and its answer fails its check (segments 5, 6). -/
def flawLoad (s : State) (gid ix k seg : Nat) : State :=
  match ((s.group gid).lds[ix]?).bind (fun r => (r.todo[k]?).map (fun a => (r, a))) with
  | some (r, a) =>
    if a.kind = 0 then
      let (bs, t) := access (settleFor s gid ⟨true, r.seq, r.ins, a⟩) gid r.ins a
      let pa := match a.tgt with | .glob (x :: _) => x.pa | _ => 0
      logInteg (t.modGroup gid (fun g => { g with
        lds := g.lds.map (fun q => if q.seq = r.seq then q.arrive a (bs.map (fun b => (b.1, true))) else q) }))
        seg (verifier s seg (cidOf gid) pa) pa
    else s
  | none => s
/-- The physical address of a chunk that a copy has read, by its key. -/
def gotPa (x : Copy) (key : Nat) : Option Nat :=
  (nth none (key / 2 ^ 12) x.rows).bind (fun xs => ((rowChunks 0 xs).find? (fun c => chunkKey (key / 2 ^ 12) c = key)).map (fun c => c.pa))
/-- A chunk that a copy has read fails its check (segments 5, 6, 7). -/
def flawCopy (s : State) (cid ix key seg : Nat) : State :=
  match ((s.core cid).copies[ix]?).bind (fun x => (Tbl.find key x.got).bind (fun bs => (gotPa x key).map (fun pa => (x, bs, pa)))) with
  | some (x, bs, pa) =>
    logInteg (setCopy s cid ix { x with got := Tbl.put key (bs.map (fun b => (b.1, true))) x.got }) seg (verifier s seg cid pa) pa
  | none => s

/-- One failure: an uncorrectable error of a byte of scratchpad or of a tile's element marks it (R196, R260). -/
def flaw (s : State) : Flaw → State
  | .mem seg line => flawMem s seg line
  | .l1 cid key seg => flawL1 s cid key seg
  | .load gid ix k seg => flawLoad s gid ix k seg
  | .copy cid ix key seg => flawCopy s cid ix key seg
  | .sp cid ofs => s.poisonSp cid ofs 1
  | .tile cid key => s.modCore cid (fun c => { c with tileP := Tbl.put key () c.tileP })

end Sys2Proof.Machine
end

