-- ==== Sys2Proof/Machine/Policy.lean ====
section
/-!
DEFINITION. Which agent acts next. A step is one action of one agent. The agenda, where it names one, decides; where it is
empty, the first action of a fixed order that changes anything is taken, and else time passes (log 3).
-/

namespace Sys2Proof.Machine

/-- One cycle of the package clock is 1.25 ns of the timebase: five nanoseconds in four cycles (R463; log 14). -/
def advance (n : Nat) (s : State) : State :=
  let c := s.cycle.toNat
  { s with cycle := s.cycle + BitVec.ofNat 64 n, time := s.time + BitVec.ofNat 64 (n + ((c + n) / 4 - c / 4)) }

/-- The rows that no agent carries as an instruction, a record or a command: the events of the part. -/
def isEvent (i : Instr) : Bool :=
  !i.isWord && (match i with
    | .nopRecord .. | .job .. | .cjob .. | .waitev .. | .sigev .. | .loopRecord .. | .loopend .. | .adoptRecord .. | .lease .. | .unlease ..
    | .resume .. | .partw .. | .mark .. | .slice .. | .endreq .. | .haltq .. | .read .. | .write .. | .atomic .. | .allreduce ..
    | .broadcast .. => false
    | _ => true)

/-- One action. -/
def runAct (a : Act) (s : State) : Host.Outcome State Fault Refusal :=
  match a with
  | .issue gid => issueGroup s gid
  | .docent d q => docentTake s d q
  | .fabric q => fabricTake s q
  | .event i => if isEvent i then exec i s else next s
  | .tick n => next (advance n s)
  | .l1Out cid key => next (l1Evict s cid key)
  | .l2Out line => next (if pinnedLine s line then s else { s with mem := s.mem.cleanLine line })
  | .show_ cid ix => next (match (s.core cid).stale[ix]? with
    | some e => s.modCore cid (fun c => c.show (fun x => x = e))
    | none => s)
  | .readA cid ser key => next (readA s cid ser key)
  | .readCopy cid ix row k => next (copyRead s cid ix row k)
  | .tlbFill d part level va => next (tlbFill s d part level va)
  | .tlbTurn d ix => next (tlbTurn s d ix)
  | .flaw f => next (flaw s f)

/-! ### The order taken where the agenda is empty -/

def groupEvents (gid : Nat) : List Instr :=
  [.loadWriteback gid 0 ⟨0xFFFFFFFF#32, ~~~0#128⟩, .storePerform gid 0 ⟨0xFFFFFFFF#32, 0#128, 0#128⟩, .waitRelease gid, .convRelease gid, .fenceRelease gid 0#5, .tsetInstall gid,
    .barwaitRelease gid, .clbarRelease gid, .hpopTake gid, .evwaitRelease gid, .jdoneRelease gid, .evwaitBudgetExpire gid]
  ++ lanes.map (fun l => .fenceRelease gid (BitVec.ofNat 5 l)) ++ lanes.map (fun l => .exitComplete gid (BitVec.ofNat 5 l))
def teamEvents (tid : Nat) : List Instr := [.haltRequest tid, .checkpointSave tid false, .messageStallTimeout tid 0, .jobLaunch tid]
def coreEvents (s : State) (cid : Nat) : List Instr :=
  let c := s.core cid
  [.matrixOpRetire cid, .matrixOpStart cid, .regacqGrant cid, .hpushPlace cid 0, .hamperRefill cid]
  ++ (upTo 8).map (fun ch => .copyAccept cid ⟨ch, 0#4⟩)
  ++ (upTo c.copies.length).flatMap (fun ix => [.copyArrival cid ix 0 65536, .copySourceFail cid ix, .curatorCopyFinish cid ix 0 .reroute,
    .curatorCopyFinish cid ix 0 .poison, .curatorCopyFinish cid ix 0 .unreachable])
  ++ (upTo 8).flatMap (fun t => teamEvents (8 * cid + t))
  ++ (if c.asleep && wakeDue s cid then [.coreWake cid []] else [])
  ++ (if !c.lost && !ctlReaches s cid then [.coreLost cid] else [])
def queueEvents (d : Nat) (e : Nat × Queue) : List Instr :=
  [.queueTailWake d e.1, .drainEscalate d e.1, .resumeListResume d e.1]
  ++ e.2.recs.filterMap (fun r => match r.ins with
    | .lease .. => if r.done then none else some (.leasePinComplete d e.1 r.n.toNat)
    | _ => none)
def dieEvents (s : State) (e : Nat × Die) : List Instr :=
  let d := e.1
  (upTo e.2.reports.length).map (fun ix => .jobCompletionReport (4 * ix + d))
  ++ e.2.queues.flatMap (queueEvents d) ++ [.tilePlace d, .xlinvDone d]
  ++ e.2.vit.flatMap (fun v => [.vitrinePinDone d v.1, .vitrineReleaseDone d v.1])
  ++ (if dctlEn e.2 && s.time.toNat % (1000 * 2 ^ dctlWd e.2) < timeStep s then [.watchdogTick d] else [])
def clusterEvents (e : Nat × Cluster) : List Instr :=
  (upTo e.2.transit.length).map (fun n => .messageArrival (2048 * n + e.1 % 2048))
/-- The events that the part itself can bring about. -/
def ownEvents (s : State) : List Instr :=
  s.groups.flatMap (fun g => if g.2.live then groupEvents g.1 else []) ++ s.cores.flatMap (fun c => coreEvents s c.1)
  ++ s.clusters.flatMap clusterEvents ++ s.dies.flatMap (dieEvents s)
  ++ [.snapshotLatch, .tsTick, .sliceDrainStart, .sliceEscalate, .sliceSwitch]
  ++ s.fab.rings.map (fun r => .fabricTailWake r.1)

/-- The records and commands that agents can take. -/
def ownTakes (s : State) : List Act :=
  s.dies.flatMap (fun d => d.2.queues.map (fun q => .docent d.1 q.1)) ++ s.fab.rings.map (fun r => .fabric r.1)
/-- A list from its element `n` on, then the elements before it. -/
def rotate {α : Type} (n : Nat) (l : List α) : List α := if l.isEmpty then [] else l.drop (n % l.length) ++ l.take (n % l.length)

/-- What paths do not see yet becomes visible where nothing else acts. -/
def ownShows (s : State) : List Act := s.cores.filterMap (fun c => if c.2.stale.isEmpty then none else some (.show_ c.1 0))
/-- The schedulers of the package, each core's eight in turn. -/
def scheds (s : State) : List (Nat × Nat) := s.cores.flatMap (fun c => (upTo 8).map (fun k => (c.1, k)))
/-- The choices of the schedulers, from the one whose turn it is (`rr`) on. -/
def issueOrder (s : State) : List Act := (rotate s.rr (scheds s)).filterMap (fun e => (schedChoice s e.1 e.2).map Act.issue)
/-- Whose turn it is after an action: the scheduler after the one whose group has issued. -/
def turnAfter (s : State) : Act → Nat
  | .issue gid => (((scheds s).findIdx? (fun e => e.1 = cidOf gid && e.2 = gid % 8)).getD 0) + 1
  | _ => s.rr

/-- Whether an action changes the state, the numbering of free values apart. -/
def changes (s : State) (a : Act) : Bool :=
  match runAct a s with
  | .next t => decide ({ t with fresh := s.fresh } ≠ s)
  | _ => true
/-- The action taken where the agenda is empty: what the part itself brings about first, then a scheduler's choice. -/
def defaultAct (s : State) : Act :=
  match ((ownEvents s).map Act.event ++ ownTakes s).find? (changes s) with
  | some a => a
  | none =>
    match issueOrder s ++ ownShows s with
    | a :: _ => a
    | [] => .tick 1

/-- One step: the clock moves, and with it the waits of R385; then the agenda's head acts, or the default action. -/
def stepOnce (s : State) : Host.Outcome State Fault Refusal :=
  let s := waitTurns (advance 1 s)
  match s.agenda with
  | a :: rest => runAct a { s with agenda := rest }
  | [] => let a := defaultAct s
    runAct a { s with rr := turnAfter s a }

/-! ### Placing an instruction for the next step -/

/-- A core, a group at supervisor level in an Idle team and a mapped page, with a line that holds `w` in its slot 0. The tables: root
at 0x20000, its second level at 0x40000 with one leaf of 512 MiB at 0, the bounds table at 0x1000, the line at 0x2000. -/
def placeWord (s : State) (w : Nat) : State :=
  let line := sealLine (bytesOf 12 w ++ List.replicate 52 0#8)
  let mem := (((((s.mem.pokes 0x20000 (bytesOf 8 0x40003)).pokes 0x40000 (bytesOf 8 0x711)).pokes 0x1000
    (bytesOf 8 (2 ^ 60 - 2 ^ 56) ++ bytesOf 8 (2 ^ 56 - 1))).pokes 0x2000 line))
  let s := (s.modDie 0 (fun d => { d with pcore := Tbl.put 0 1#64 d.pcore }))
  let s := s.setPart 0 { s.part 0 with root := 0x20001#64, bnd := 0x1000#64 }
  let s := s.modCore 0 (fun c => { c with
    pword := 0x80404#32, gslots := 1#48, ic := Tbl.del 0x80 c.ic, sched := Tbl.del 0 c.sched, asleep := false, dead := false, lost := false })
  let s := (s.setTeam 0 .zero).setGroup 0 (startGroup .zero 0x2000#64 .sup 0 false)
  { s with mem := mem, agenda := .issue 0 :: s.agenda }

/-- A queue or ring base at 0x10000 of partition 0, mapped as for `placeWord`. -/
def placeTables (s : State) (at_ : Nat) (bs : List Byte) : State :=
  let mem := ((((s.mem.pokes 0x20000 (bytesOf 8 0x40003)).pokes 0x40000 (bytesOf 8 0x711)).pokes 0x1000
    (bytesOf 8 (2 ^ 60 - 2 ^ 56) ++ bytesOf 8 (2 ^ 56 - 1))).pokes at_ bs)
  let s := s.setPart 0 { s.part 0 with root := 0x20001#64, bnd := 0x1000#64 }
  { s with mem := mem }
/-- A record at the head of queue 0 of die 0, whose next number is the record's own. -/
def placeRecord (s : State) (w : Nat) : State :=
  let n : W32 := BitVec.ofNat 32 (w / 2 ^ 16 % 2 ^ 16)
  let s := placeTables s (0x10100 + 32 * (n.toNat % 16)) (bytesOf 32 w)
  let s := s.modDie 0 (fun d => { d with dctl := setBit d.dctl 15 true })
  let s := s.modQueue 0 0 (fun _ => { Queue.zero with base := 0x10000#64, ctl := 0xC0000000#32, head := n, done := n, next := n, tail := n + 1#32 })
  { s with agenda := .docent 0 0 :: s.agenda }
/-- A command at the head of ring 0. -/
def placeCommand (s : State) (w : Nat) : State :=
  let n : W32 := BitVec.ofNat 32 (w / 2 ^ 32 % 2 ^ 16)
  let s := placeTables s (0x10100 + 64 * (n.toNat % 16)) (bytesOf 64 w)
  let s := s.modRing 0 (fun _ => { Ring.zero with base := 0x10000#64, ctl := 0x80000000#32, head := n, next := n, tail := n + 1#32 })
  { s with agenda := .fabric 0 :: s.agenda }

end Sys2Proof.Machine
end

