-- ==== Sys2Proof/Machine/Step.lean ====
section
/-!
DEFINITION. One step of the package, and the placing of an instruction where the next step fetches it.
-/

namespace Sys2Proof.Machine

/-- One action of one agent (log 3). -/
def step (s : State) : Host.Outcome State Fault Refusal := stepOnce s

/-- The state with an instruction of `nbits` bits where the next step takes it: a word of a group, a record of a queue, a
command of a ring (log 2). -/
def State.withFetchWord (s : State) (nbits w : Nat) : State :=
  if nbits ≤ 96 then placeWord s (w % 2 ^ 96)
  else if nbits ≤ 256 then placeRecord s (w % 2 ^ 256)
  else placeCommand s (w % 2 ^ 512)

end Sys2Proof.Machine
end

