-- ==== Sys2Proof/Safety.lean ====
section
/-!
DEFINITION. The words in which claims about the model are stated: when an instruction word issues with its own effect, what a
register instruction leaves, and what stays as it was.
-/

namespace Sys2Proof.Machine

/-- The group that issues. -/
def State.here (s : State) : Group := s.group s.cur.gid

/-- The instruction passes the checks of orders 6 to 8 of R79 on a set that is not empty: its level, its registers, its tiles,
and at group scope the whole full mask, of whose threads all are in a handler or none (R301). -/
def Issues (i : Instr) (s : State) : Prop :=
  s.cur.mask ≠ 0#32
  ∧ (needsSup i = true → userMask s.here s.cur.mask = 0#32)
  ∧ regsOk i s.here.xblk (s.counts s.cur.gid).2.1 (s.counts s.cur.gid).2.2 = true
  ∧ tilesOk s s.cur.gid i = true
  ∧ (i.groupScope = true → s.cur.mask = s.here.fmask ∧ (s.here.tlanes &&& s.cur.mask = 0#32 ∨ s.here.tlanes = s.here.fmask))

/-- The contributing threads: those of the active set whose guard is true (R72). -/
def contributing (i : Instr) (s : State) : Mask :=
  match i.guardOf with
  | some o => maskWhere s.cur.mask (fun l => guardTrue o.g s.here l)
  | none => s.cur.mask

/-- No thread of the set stands at the END of its innermost loop (R145), so passing the slot is falling through. -/
def Straight (s : State) : Prop :=
  ∀ l, s.cur.mask.getLsbD l = true → ∀ e ∈ (s.here.thread l).loops.head?, e.stop ≠ (s.here.thread l).pc

/-- What an instruction writes into the registers of its group: varying registers by lane and number, uniform and affine
registers by number, predicates by lane and number, q registers, and the flags it raises by lane. -/
structure RegEffect where
  v : Nat → Nat → Option W32 := fun _ _ => none
  u : Nat → Option W64 := fun _ => none
  a : Nat → Option (W64 × W32) := fun _ => none
  p : Nat → Nat → Option Bool := fun _ _ => none
  q : Nat → Option Bool := fun _ => none
  fl : Nat → BitVec 5 := fun _ => 0#5
  aov : Bool := false

/-- The group after an instruction that writes registers only: the effect, the slot passed by the active set, and nothing else:
no other register, predicate, flag, thread or count changes. -/
structure RegsAfter (m : Mask) (g : Group) (e : RegEffect) (h : Group) : Prop where
  vreg : ∀ l n, l < 32 → h.vreg l n = (e.v l n).getD (g.vreg l n)
  ureg : ∀ n, h.ureg n = (e.u n).getD (g.ureg n)
  abase : ∀ n, h.abase n = ((e.a n).map Prod.fst).getD (g.abase n)
  astride : ∀ n, h.astride n = ((e.a n).map Prod.snd).getD (g.astride n)
  preds : ∀ l k, k < 7 → (h.thread l).preds.getLsbD k = (e.p l k).getD ((g.thread l).preds.getLsbD k)
  qs : ∀ k, k < 4 → h.q.getLsbD k = (e.q k).getD (g.q.getLsbD k)
  flags : ∀ l, (h.thread l).flags = (g.thread l).flags ||| e.fl l
  threads : ∀ l, { (h.thread l) with preds := (g.thread l).preds, flags := (g.thread l).flags } =
    if m.getLsbD l then { (g.thread l) with pc := nextPc (g.thread l).pc, wait := none } else g.thread l
  rest : { h with v := g.v, u := g.u, ab := g.ab, as := g.as, q := g.q, threads := g.threads } =
    { g with aov := g.aov || e.aov }

/-- The instruction completes: one group changes as the effect says, and everything else in the package, memory included, is as it
was. -/
def Completes (i : Instr) (s : State) (e : RegEffect) : Prop :=
  ∃ h, exec i s = .next (s.setGroup s.cur.gid h) ∧ RegsAfter s.cur.mask s.here e h

/-- A result for destination `d`: in each contributing lane of a varying register (a pair under `w`) or a predicate, once in a
uniform or q register; `zero` discards it. Flags enter the lanes that computed it, at group scope the whole set (R28, R46, R122). -/
def resultIn (w : Bool) (d : Opd) (act eff : Mask) (vary : Nat → W64 × BitVec 5) (uni : W64 × BitVec 5) : RegEffect :=
  let lane (l : Nat) : BitVec 5 := if eff.getLsbD l then (vary l).2 else 0#5
  match d with
  | .v n => { v := fun l r => if eff.getLsbD l && r = n.toNat then some ((vary l).1.extractLsb' 0 32)
                else if w && eff.getLsbD l && r = n.toNat + 1 then some ((vary l).1.extractLsb' 32 32) else none
              fl := lane }
  | .p n => { p := fun l k => if eff.getLsbD l && k = n.toNat then some ((vary l).1.getLsbD 0) else none, fl := lane }
  | .s n => { u := fun r => if r = n.toNat then some uni.1 else none
              fl := fun l => if act.getLsbD l then uni.2 else 0#5 }
  | .q n => { q := fun k => if k = n.toNat then some (uni.1.getLsbD 0) else none
              fl := fun l => if act.getLsbD l then uni.2 else 0#5 }
  | _ => { fl := lane }

/-! ### Results of the register instructions, as the rules give them

Each function takes the sources as bit vectors of the operation width; the statements of Certificates say which instruction and which
width. They share nothing with the meanings, which compute on natural numbers. -/

/-- R101, R102, R104, R107, R112 at width `n`, for the forms without saturation. -/
def plainSpec (n : Nat) (x y z : BitVec n) : Instr → Option (BitVec n)
  | .iadd _ _ .wrap => some (x + y)
  | .isub _ _ .wrap => some (x - y)
  | .imul _ _ .wrap => some (x * y)
  | .imulh _ _ true => some ((x.setWidth (2 * n) * y.setWidth (2 * n)).extractLsb' n n)
  | .imulh _ _ false => some ((x.signExtend (2 * n) * y.signExtend (2 * n)).extractLsb' n n)
  | .imad _ _ => some (x * y + z)
  | .imin _ _ true => some (if x.toNat ≤ y.toNat then x else y)
  | .imin _ _ false => some (if x.toInt ≤ y.toInt then x else y)
  | .imax _ _ true => some (if x.toNat ≥ y.toNat then x else y)
  | .imax _ _ false => some (if x.toInt ≥ y.toInt then x else y)
  | .iabs _ _ false => some (if x.msb then -x else x)
  | .ineg _ _ false => some (-x)
  | .and _ _ => some (x &&& y)
  | .or _ _ => some (x ||| y)
  | .xor _ _ => some (x ^^^ y)
  | .andn _ _ => some (x &&& ~~~y)
  | .not _ _ => some (~~~x)
  | .popc _ _ => some (BitVec.ofNat n ((List.range n).filter (fun j => x.getLsbD j)).length)
  | .clz _ _ => some (BitVec.ofNat n ((List.range n).takeWhile (fun j => !x.getLsbD (n - 1 - j))).length)
  | .ctz _ _ => some (BitVec.ofNat n ((List.range n).takeWhile (fun j => !x.getLsbD j)).length)
  | .brev _ _ => some (x.reverse)
  | .mov _ _ => some x
  | _ => none

/-- R101, R102 under `.ss`, `.us` and `.sat`: the exact result before it is clamped, and the bounds. -/
def satSpec (n : Nat) (x y : BitVec n) : Instr → Option (Int × Int × Int)
  | .iadd _ _ .ss => some (x.toInt + y.toInt, -2 ^ (n - 1), 2 ^ (n - 1) - 1)
  | .isub _ _ .ss => some (x.toInt - y.toInt, -2 ^ (n - 1), 2 ^ (n - 1) - 1)
  | .imul _ _ .ss => some (x.toInt * y.toInt, -2 ^ (n - 1), 2 ^ (n - 1) - 1)
  | .iadd _ _ .us => some (x.toNat + y.toNat, 0, 2 ^ n - 1)
  | .isub _ _ .us => some ((x.toNat : Int) - y.toNat, 0, 2 ^ n - 1)
  | .imul _ _ .us => some (x.toNat * y.toNat, 0, 2 ^ n - 1)
  | .iabs _ _ true => some ((x.toInt.natAbs : Int), 0, 2 ^ (n - 1) - 1)
  | .ineg _ _ true => some (-x.toInt, -2 ^ (n - 1), 2 ^ (n - 1) - 1)
  | _ => none

/-- The number of a width with the bits that a test gives. -/
def fromBits (n : Nat) (f : Nat → Bool) : BitVec n := (List.range n).foldl (fun a j => setBit a j (f j)) 0#n

/-- R106, R108: the narrow B is read as 32 bits. -/
def narrowSpec (n : Nat) (x : BitVec n) (b : W32) (z : BitVec n) : Instr → Option (BitVec n)
  | .shl _ _ => some (x <<< b.toNat)
  | .shr _ _ => some (x >>> b.toNat)
  | .sar _ _ => some (x.sshiftRight b.toNat)
  | .rot _ _ => some (x.rotateLeft (b.toNat % n))
  | .bfe _ _ sx =>
    let pos := b.toNat % 256
    let len := min (b.toNat / 256 % 256) n
    let f (j : Nat) : Bool := if pos + j < n then x.getLsbD (pos + j) else sx && x.msb
    some (fromBits n fun j => if j < len then f j else sx && decide (0 < len) && f (len - 1))
  | .bfi _ _ =>
    let pos := b.toNat % 256
    let len := min (b.toNat / 256 % 256) n
    some (fromBits n fun j => if pos ≤ j && j < pos + len then x.getLsbD (j - pos) else z.getLsbD j)
  | _ => none

/-- A value clamped to bounds. -/
def clampTo (n : Nat) (r : Int × Int × Int) : BitVec n := BitVec.ofInt n (max r.2.1 (min r.1 r.2.2))

/-- The operand fields and the `.w` bit of the opcodes of R99 with word results. -/
def wordForm : Instr → Option (Ops × Bool)
  | .iadd o w _ | .isub o w _ | .imul o w _ | .imulh o w _ | .imad o w | .imin o w _ | .imax o w _ | .iabs o w _ | .ineg o w _
  | .and o w | .or o w | .xor o w | .not o w | .andn o w | .shl o w | .shr o w | .sar o w | .rot o w | .popc o w | .clz o w
  | .ctz o w | .brev o w | .bfe o w _ | .bfi o w | .mov o w => some (o, w)
  | _ => none

/-- R103: sum or difference with carry at width `n`, and the carry or borrow. -/
def carrySpec (n : Nat) (sub : Bool) (x y : BitVec n) (c : Bool) : BitVec n × Bool :=
  let ci := (BitVec.ofBool c).setWidth n
  if sub then (x - y - ci, decide (x.toNat < y.toNat + c.toNat)) else (x + y + ci, decide (2 ^ n ≤ x.toNat + y.toNat + c.toNat))

/-- R110: one comparison at width `n`. -/
def compareSpec (n : Nat) (c : ICond) (u : Bool) (x y : BitVec n) : Bool :=
  match c, u with
  | .eq, _ => x == y
  | .ne, _ => x != y
  | .lt, true => x.ult y
  | .le, true => x.ule y
  | .gt, true => y.ult x
  | .ge, true => y.ule x
  | .lt, false => x.slt y
  | .le, false => x.sle y
  | .gt, false => y.slt x
  | .ge, false => y.sle x
/-- R110: COMB. -/
def combSpec (c : Comb) (r p : Bool) : Bool :=
  match c with
  | .none => r
  | .and => r && p
  | .or => r || p
  | .xor => r ^^ p

/-- R109: one byte of `prmt`. -/
def prmtByteSpec (x y : W32) (sel : Byte) : Byte :=
  let k := (sel.extractLsb' 0 3).toNat
  let b : Byte := if k < 4 then x.extractLsb' (8 * k) 8 else y.extractLsb' (8 * (k - 4)) 8
  let b : Byte := match (sel.extractLsb' 3 2).toNat with
    | 0 => b
    | 1 => 0x00#8
    | 2 => if b.getLsbD 7 then 0xFF#8 else 0x00#8
    | _ => if b.getLsbD 0 then 0xFF#8 else 0x00#8
  if sel.getLsbD 5 then b.reverse else b
/-- R109. -/
def prmtSpec (x y c : W32) : W32 :=
  prmtByteSpec x y (c.extractLsb' 24 8) ++ prmtByteSpec x y (c.extractLsb' 16 8)
    ++ prmtByteSpec x y (c.extractLsb' 8 8) ++ prmtByteSpec x y (c.extractLsb' 0 8)

/-- R105: the predicate forms, with their operands. -/
def predSpec (x y : Bool) : Instr → Option (Ops × Bool)
  | .and o _ => some (o, x && y)
  | .or o _ => some (o, x || y)
  | .xor o _ => some (o, x ^^ y)
  | .andn o _ => some (o, x && !y)
  | .not o _ => some (o, !x)
  | _ => none

/-- A 64-bit source of `lea` as IDX reads it (R115). -/
def indexSpec (idx : Idx) (y : W64) : W64 :=
  match idx with
  | .full => y
  | .i32 => (y.extractLsb' 0 32).signExtend 64
  | .u32 => (y.extractLsb' 0 32).setWidth 64

/-- R47, R115, R117, R118: the base and the exact stride of an affine result, from A and B as base and stride. -/
def affineSpec (a b : W64 × Int) : Instr → Option (Ops × W64 × Int)
  | .iadd o _ _ => some (o, a.1 + b.1, a.2 + b.2)
  | .isub o _ _ => some (o, a.1 - b.1, a.2 - b.2)
  | .imul o _ _ => some (o, a.1 * b.1, if o.a.isAff then a.2 * b.1.toInt else b.2 * a.1.toInt)
  | .lea o scale idx =>
    some (o, a.1 + (if o.b.isAff then b.1 else indexSpec idx b.1) * (1#64 <<< scale.toNat) + o.imm.signExtend 64, a.2 + b.2 * 2 ^ scale.toNat)
  | .proma o => some (o, a.1, b.1.toInt)
  | .astr o => some (o, a.1, b.1.toInt)
  | .abase o => some (o, b.1, a.2)
  | _ => none

/-! ### Floating-point results (05) -/

/-- The two BF16 elements of a register, rounded on their own; `.s` computes element 0 only (R15, R127). -/
def bothHalves (one : Bool) (f : (W32 → FVal) → FR) : FR :=
  let lo (x : W32) : FVal := fmtBf.decode (x.extractLsb' 0 16).toNat
  let hi (x : W32) : FVal := fmtBf.decode (x.extractLsb' 16 16).toNat
  if one then f lo else ⟨(f lo).bits + 2 ^ 16 * (f hi).bits, (f lo).fl ||| (f hi).fl⟩

/-- R125–R128, R130, R131, R133–R136: operands and result of the opcodes that compute on 32-bit patterns. -/
def fpSpec : Instr → Option (Ops × (W32 → W32 → W32 → FR))
  | .fadd o rm => some (o, fun x y _ => fadd32 rm x.toNat y.toNat)
  | .fsub o rm => some (o, fun x y _ => fsub32 rm x.toNat y.toNat)
  | .fmul o rm => some (o, fun x y _ => fmulAs fmt32 rm (fmt32.decode x.toNat) (fmt32.decode y.toNat))
  | .ffma o rm np nc => some (o, fun x y z =>
      ffmaAs fmt32 rm np nc (fmt32.decode x.toNat) (fmt32.decode y.toNat) (fmt32.decode z.toNat))
  | .fmin o => some (o, fun x y _ => fminmax false false x.toNat y.toNat)
  | .fmax o => some (o, fun x y _ => fminmax true false x.toNat y.toNat)
  | .fminn o => some (o, fun x y _ => fminmax false true x.toNat y.toNat)
  | .fmaxn o => some (o, fun x y _ => fminmax true true x.toNat y.toNat)
  | .fclass o => some (o, fun x _ _ => ⟨fclassBits x.toNat, 0#5⟩)
  | .frnd o rm => some (o, fun x _ _ => frndBits rm x.toNat)
  | .bfext o hi => some (o, fun x _ _ =>
      fmt32.conv .rne 0 false (fmtBf.decode (if hi then x.extractLsb' 16 16 else x.extractLsb' 0 16).toNat))
  | .badd2 o rm one => some (o, fun x y _ => bothHalves one fun e => fsumRound fmtBf rm [e x, e y] [some (e x), some (e y)])
  | .bmul2 o rm one => some (o, fun x y _ => bothHalves one fun e => fmulAs fmtBf rm (e x) (e y))
  | .bfma2 o rm one => some (o, fun x y z => bothHalves one fun e => ffmaAs fmtBf rm false false (e x) (e y) (e z))
  | .fdot2 o rm => some (o, fun x y z =>
      let lo (x : W32) : FVal := fmtBf.decode (x.extractLsb' 0 16).toNat
      let hi (x : W32) : FVal := fmtBf.decode (x.extractLsb' 16 16).toNat
      fdot2As rm (lo x) (hi x) (lo y) (hi y) (fmt32.decode z.toNat))
  | .fexp2 o => some (o, fun x _ _ => fexp2Bits x.toNat)
  | .flog2 o => some (o, fun x _ _ => flog2Bits x.toNat)
  | .frcp o => some (o, fun x _ _ => frcpBits x.toNat)
  | .frsq o => some (o, fun x _ _ => frsqBits x.toNat)
  | .fsqrt o => some (o, fun x _ _ => fsqrtBits x.toNat)
  | .fsin o => some (o, fun x _ _ => fsinBits x.toNat)
  | .fcos o => some (o, fun x _ _ => fcosBits x.toNat)
  | .ftanh o => some (o, fun x _ _ => ftanhBits x.toNat)
  | .fscl o rm => some (o, fun x y _ => fsclBits rm x.toNat y.toInt)
  | _ => none

/-- R134: `fcvt` from the 32-bit and the 64-bit reading of A; a uniform `.fsi` result is sign-extended. -/
def fcvtSpec (rm : Rm) (k : Cvt) (uni : Bool) (x : W32) (y : W64) : W64 × BitVec 5 :=
  let f : FVal := fmt32.decode x.toNat
  let r : FR := match k with
    | .fsi => toInt 32 true rm f
    | .fui => toInt 32 false rm f
    | .fsl => toInt 64 true rm f
    | .ful => toInt 64 false rm f
    | .sif => fmt32.conv rm 0 false (ofInt x.toInt)
    | .uif => fmt32.conv rm 0 false (ofInt x.toNat)
    | .slf => fmt32.conv rm 0 false (ofInt y.toInt)
    | .ulf => fmt32.conv rm 0 false (ofInt y.toNat)
  (if k = .fsi && uni then (BitVec.ofNat 32 r.bits).signExtend 64 else BitVec.ofNat 64 r.bits, r.fl)

/-- R132: one comparison, and whether a quiet NaN raises IV. -/
def fcmpSpec (c : FCond) (x y : W32) : Bool × BitVec 5 :=
  let a := fmt32.decode x.toNat
  let b := fmt32.decode y.toNat
  let un := a.isNan || b.isNan
  let less (x y : W32) : Bool :=
    (x.extractLsb' 0 31 != 0#31 || y.extractLsb' 0 31 != 0#31) &&
    (match x.msb, y.msb with
      | true, false => true
      | false, true => false
      | false, false => x.ult y
      | true, true => y.ult x)
  let same := !less x y && !less y x
  let r := match c with
    | .eq => !un && same
    | .ne => un || !same
    | .lt => !un && less x y
    | .le => !un && !less y x
    | .gt => !un && less y x
    | .ge => !un && !less x y
    | .un => un
  (r, if a.isSig || b.isSig || (un && (c = .lt || c = .le || c = .gt || c = .ge)) then flIV else 0#5)

/-! ### Across the lanes (06) -/

/-- The lanes of a set in ascending order. -/
def lanesIn (m : Mask) : List Nat := (List.range 32).filter fun l => m.getLsbD l

/-- R150: from the contributing lanes and those among them whose predicate is 1. -/
def voteSpec (mode : VMode) (c ones : List Nat) : W64 :=
  match mode with
  | .or => if ones = [] then 0#64 else 1#64
  | .and => if ones = c then 1#64 else 0#64
  | .same => if ones = c ∨ ones = [] then 1#64 else 0#64
  | .mask => fromBits 64 fun l => ones.contains l
  | .cnt => BitVec.ofNat 64 ones.length
  | .low => BitVec.ofNat 64 (ones.head?.getD 32)

/-- R154: the reduction of the contributing values; `.min` and `.max` select one, extended as it was read. -/
def reduceSpec (op : RedI) (u : Bool) (vs : List W32) : W64 :=
  let ext (x : W32) : Int := if u then x.toNat else x.toInt
  match op, vs with
  | _, [] => 0#64
  | .add, vs => BitVec.ofInt 64 (vs.map ext).sum
  | .min, x :: t => BitVec.ofInt 64 (t.foldl (fun a y => min a (ext y)) (ext x))
  | .max, x :: t => BitVec.ofInt 64 (t.foldl (fun a y => max a (ext y)) (ext x))
  | .and, x :: t => (t.foldl (· &&& ·) x).setWidth 64
  | .or, x :: t => (t.foldl (· ||| ·) x).setWidth 64
  | .xor, x :: t => (t.foldl (· ^^^ ·) x).setWidth 64

/-- R150, R151, R154–R157: the operands, whether a varying result is a pair, and the result in each lane, from the contributing lanes and
what a lane's operands read. -/
def crossSpec (c : List Nat) (v : Nat → Opd → W32) (p : Nat → Opd → Bool) : Instr → Option (Ops × Bool × (Nat → W64 × BitVec 5))
  | .vote o mode => some (o, false, fun _ => (voteSpec mode c (c.filter fun l => p l o.a), 0#5))
  | .elect o => some (o, false, fun l =>
      (if o.d.isS then BitVec.ofNat 64 (c.head?.getD 32) else if c.head? = some l then 1#64 else 0#64, 0#5))
  | .redi o op u => some (o, false, fun _ => (reduceSpec op u (c.map fun l => v l o.a), 0#5))
  | .redf o op => some (o, false, fun _ =>
      let r := redfVal op (c.map fun l => (v l o.a).toNat)
      (BitVec.ofNat 64 r.bits, r.fl))
  | .redmaxi o int => some (o, true, fun _ =>
      let r := redmaxVal int (c.map fun l => ((v l o.a).toNat, (v l o.b).toNat))
      (BitVec.ofNat 32 r.2.1 ++ BitVec.ofNat 32 r.1, r.2.2))
  | .matchLanes o => some (o, false, fun l => (fromBits 64 fun j => c.contains j && v j o.a == v l o.a, 0#5))
  | .isect o => some (o, false, fun l =>
      let hit := c.find? fun j => v j o.b == v l o.a
      (if o.d.isP then (BitVec.ofBool hit.isSome).setWidth 64 else match hit with
        | some j => BitVec.ofNat 64 j
        | none => 0xFFFFFFFF#64, 0#5))
  | .scnt o inc => some (o, false, fun l =>
      (BitVec.ofNat 64 (c.filter fun j => p j o.a && (decide (j < l) || (inc && j == l))).length, 0#5))
  | _ => none

/-- R152: the source lane of `shfl`, where it is valid. -/
def shuffleSpec (mode : SMode) (w i : Nat) (b : W32) : Option Nat :=
  let base := i - i % w
  match mode with
  | .pick => some (base + b.toNat % w)
  | .slide => if (base : Int) ≤ i - b.toInt ∧ (i : Int) - b.toInt < base + w then some ((i : Int) - b.toInt).toNat else none
  | .spin => some (base + (i - base + b.toNat) % w)
  | .flip => some (base + ((i - base) ^^^ (b.toNat % w)))
  | .rev => some (base + w - 1 - (i - base))
/-- Segment widths of R152. -/
def segWidth : Seg → Nat
  | .w2 => 2
  | .w4 => 4
  | .w8 => 8
  | .w16 => 16
  | .w32 => 32

/-! ### Control flow (06) -/

/-- Nothing but instruction caches and the number of free values differs: what reading lines of instructions may leave (R68). -/
structure FetchOnly (s t : State) : Prop where
  cores : ∀ c, { (t.core c) with ic := (s.core c).ic } = s.core c
  rest : { t with cores := s.cores, fresh := s.fresh } = s

/-- Only the threads of a group differ, and they are as given. -/
structure ThreadsAfter (g : Group) (f : Nat → Thread) (h : Group) : Prop where
  threads : ∀ l, h.thread l = f l
  rest : { h with threads := g.threads } = g

/-- The threads of the active set stand at one PC (R38). -/
def AtPc (s : State) (p : W64) : Prop := ∀ l, s.cur.mask.getLsbD l = true → (s.here.thread l).pc = p

/-- A line of instructions that a thread of the issuing group can read: translated, and sound and as asked in memory and, unless its
parity is wrong, in the core's cache (R66, R67). -/
def LineReads (s : State) (lv : Priv) (pc : W64) (slot : Bool) (ok : List Byte → Bool) : Prop :=
  let bad (l : List Byte) : Bool := lparBad l || (slot && sparBad l (slotIx pc))
  let good (l : List Byte) : Prop := bad l = false ∧ lineRes l = false ∧ ok l = true
  ∃ pa, fetchAddr s (s.ctx s.cur.gid lv) pc = .ok pa ∧ good (s.mem.peeks pa 64)
    ∧ ∀ l, Tbl.find (pa / 64) (s.core (cidOf s.cur.gid)).ic = some l → bad l = true ∨ good l

/-- R66: a PC that control may be transferred to. -/
def TargetReads (s : State) (lv : Priv) (pc : W64) : Prop := LineReads s lv pc false fun l => lineTgt l (slotIx pc)

/-- R144: a loop's END: a slot that is a pair, or holds no transfer. -/
def EndReads (s : State) (lv : Priv) (pc : W64) : Prop :=
  LineReads s lv pc true fun l =>
    linePair l (slotIx pc) ||
      !([0x100#10, 0x101#10, 0x102#10, 0x103#10, 0x104#10, 0x105#10, 0x111#10].contains ((slotWord l (slotIx pc)).extractLsb' 86 10))

/-- R142: a branch: its operands, whether it pops a loop entry, whether a thread with a true guard takes it, and the target. -/
def branchSpec (g : Group) (e : Env) (p : W64) (l : Nat) : Instr → Option (Ops × Bool × Bool × W64)
  | .bra o nq pop => some (o, pop, !o.a.isQ || rdP g l o.a != nq, p + o.imm.signExtend 64)
  | .brx o pop => some (o, pop, true, rd64 g e 0#32 l o.a)
  | _ => none
/-- R142: a call and its target. -/
def callSpec (g : Group) (e : Env) (p : W64) (l : Nat) : Instr → Option (Ops × W64)
  | .call o => some (o, p + o.imm.signExtend 64)
  | .callx o => some (o, rd64 g e 0#32 l o.a)
  | _ => none

/-- R36, R309: a spilled entry of a thread's return stack, in the thread's stack aperture. -/
def spilled (s : State) (gid l k : Nat) : W64 :=
  BitVec.ofNat 64 (natOf (readTarget s (cidOf gid) false false 8 (stackTgt s gid l .load (8 * k) 8)).1)
/-- R309: no page of a thread's stack aperture up to an entry translates, so its bytes are its own. -/
def stackBare (s : State) (gid l n : Nat) : Prop :=
  ∀ k, k < n → ∀ u, (u = Use.load ∨ u = Use.store) → stackTgt s gid l u (8 * k) 8 = .stack (stackKey s gid l + 8 * k) none

/-- R36, R37: the return stack of a thread, newest first: the entries it holds, then those spilled below them. -/
def retStack (s : State) (gid l : Nat) : List W64 :=
  let t := (s.group gid).thread l
  t.rstack ++ ((List.range (t.cdepth - 16)).map fun k => spilled s gid l k).reverse

/-- R145 for a stack of at most two entries: the loops of a thread that passes the slot at `p`, and its PC. -/
def passSpec (p : W64) (ls : List LoopEnt) : List LoopEnt × W64 :=
  match ls with
  | [] => ([], nextPc p)
  | a :: t =>
    if a.stop ≠ p then (a :: t, nextPc p)
    else if a.count ≠ 1#32 then ({ a with count := a.count - 1#32 } :: t, a.start)
    else match t with
      | [] => ([], nextPc p)
      | b :: u =>
        if b.stop ≠ p then (b :: u, nextPc p)
        else if b.count ≠ 1#32 then ({ b with count := b.count - 1#32 } :: u, b.start)
        else (u, nextPc p)

/-- A thread that falls through its slot. -/
def fellThrough (x : Thread) : Thread := { x with pc := nextPc x.pc, wait := none }

/-- No thread of a set stands at the END of its innermost loop. -/
def StraightIn (g : Group) (m : Mask) : Prop :=
  ∀ l, m.getLsbD l = true → ∀ e ∈ (g.thread l).loops.head?, e.stop ≠ (g.thread l).pc

/-- A waiting thread waits in `conv`. -/
def inConv (x : Thread) : Bool := match x.wait with | some (.conv _) => true | _ => false
/-- R146: a waiting thread waits in a `wait` whose limits hold: loads, stores, copies and tile operations outstanding. -/
def waitDone (s : State) (gid : Nat) (x : Thread) : Bool :=
  match x.wait with
  | some (.wait o) =>
    decide ((s.group gid).lds.length ≤ (o.imm.extractLsb' 0 6).toNat ∧ (s.group gid).stc ≤ (o.imm.extractLsb' 6 6).toNat
      ∧ (s.group gid).cps.length ≤ (o.imm.extractLsb' 12 6).toNat ∧ s.tlc gid ≤ (o.imm.extractLsb' 18 4).toNat)
  | _ => false
/-- R56: a waiting thread waits in `exit`, and no outstanding load and no untaken operand of the matrix engine names it. -/
def canLeave (s : State) (gid l : Nat) (x : Thread) : Bool :=
  match x.wait with
  | some (.exit _) => !readsStand s gid l
  | _ => false

/-- R160: a thread at trap entry. -/
def trapped (pc : W64) (word : W32) (addr : W64) (x : Thread) : Thread :=
  { x with tcause := word, tpc := x.pc, taddr := addr, ppriv := x.priv, priv := .sup, pc := pc, wait := none }
/-- R300: the handler of a group's job, or the default handler of its partition. -/
def handlerOf (s : State) (gid : Nat) : W64 :=
  match s.jobOf gid with
  | some j => if j.hdr.handler = 0#64 then (s.part (s.pnum (cidOf gid))).defhnd else j.hdr.handler
  | none => (s.part (s.pnum (cidOf gid))).defhnd

/-- The code of a level (R9). -/
def levelCode : Priv → BitVec 2
  | .user => 0#2
  | .sup => 1#2
  | .fw => 2#2

/-- R57, R58, R158: what a special register reads in a lane. -/
def srSpec (s : State) (gid l n : Nat) : W64 :=
  let g := s.group gid
  let t := g.thread l
  let job (f : Job → W64) : W64 := match s.jobOf gid with | some j => f j | none => 0#64
  let tsr : W32 := 0#6 ++ (BitVec.ofNat 10 t.cdepth ++ (0#3 ++ (levelCode t.ppriv ++ (0#1 ++ (BitVec.ofNat 2 t.loops.length ++ (0#1
    ++ (levelCode t.priv ++ t.flags)))))))
  let gsr : W64 := g.fmask ++ (BitVec.ofNat 6 g.lds.length ++ (BitVec.ofNat 6 g.stc ++ (BitVec.ofNat 6 g.cps.length
    ++ (BitVec.ofNat 4 (s.tlc gid) ++ (BitVec.ofNat 3 g.xblk ++ (0#5 ++ (BitVec.ofBool g.aft ++ BitVec.ofBool g.aov)))))))
  match n with
  | 0x000 => tsr.setWidth 64
  | 0x001 => gsr
  | 0x002 => t.tcause.setWidth 64
  | 0x003 => t.tpc
  | 0x004 => t.taddr
  | 0x005 => g.tlanes.setWidth 64
  | 0x008 => (s.team (s.tidOf gid)).lbase
  | 0x009 => job fun j => j.r.jacc.setWidth 64
  | 0x00A => job fun j => BitVec.ofNat 64 j.r.sdepth.toNat
  | 0x00B => (s.core (cidOf gid)).pword.setWidth 64
  | 0x010 => match t.loops.getLast? with | some e => e.count.setWidth 64 | none => 0#64
  | 0x011 => match t.loops with | e :: _ :: _ => e.count.setWidth 64 | _ => 0#64
  | 0x018 => s.time
  | _ => s.cycle

/-- The counts that the fields of TSR and GSR hold (R36, R58, R80, R144). -/
def SrBounds (s : State) (gid : Nat) : Prop :=
  (∀ l, ((s.group gid).thread l).cdepth ≤ 528 ∧ ((s.group gid).thread l).loops.length ≤ 2)
  ∧ (s.group gid).lds.length ≤ 63 ∧ (s.group gid).stc ≤ 63 ∧ (s.group gid).cps.length ≤ 63 ∧ s.tlc gid ≤ 15
  ∧ (s.group gid).xblk ≤ 6

/-- R159: what `setsr` makes of a register's value. -/
def setsrSpec (op : SrOp) (old a : W64) : W64 :=
  match op with
  | .write => a
  | .or => old ||| a
  | .andn => old &&& ~~~a

/-! ### Memory (07, 08) -/

/-- What an instruction's effect is given, where the checks of issue pass. -/
def here_ (i : Instr) (s : State) : At := ⟨s.cur.gid, s.cur.mask, contributing i s, s.env s.cur.gid⟩

/-- The instruction completes with the effect `t`: the active set then passes the slot (R145). -/
def CompletesWith (i : Instr) (s t : State) : Prop := exec i s = .next (passDeliver t s.cur.gid s.cur.mask)

/-- The threads of the contributing set wait in the instruction, and the rest of the active set has passed it. -/
def waitingIn (i : Instr) (s : State) : State :=
  passDeliver (waitIn s s.cur.gid (contributing i s) i) s.cur.gid (s.cur.mask &&& ~~~contributing i s)

/-- A value for a uniform destination; `zero` discards it. -/
def uniTo (d : Opd) (v : W64) (g : Group) : Group := match d with | .s n => g.setU n.toNat v | _ => g

/-- The bytes of a SIZE (R171). -/
def bytesIn : Size → Nat
  | .b8 | .s8 => 1
  | .b16 | .s16 => 2
  | .b32 => 4
  | .b64 => 8
  | .b128 => 16

/-- R171: the words that a load of bytes `bs` writes to its lane's registers, low register first. -/
def laneWords (size : Size) (bs : List Byte) : List W32 :=
  let w (k : Nat) : W32 := nth 0#8 (4 * k + 3) bs ++ (nth 0#8 (4 * k + 2) bs ++ (nth 0#8 (4 * k + 1) bs ++ nth 0#8 (4 * k) bs))
  match size with
  | .b8 => [(nth 0#8 0 bs).setWidth 32]
  | .s8 => [(nth 0#8 0 bs).signExtend 32]
  | .b16 => [(nth 0#8 1 bs ++ nth 0#8 0 bs).setWidth 32]
  | .s16 => [(nth 0#8 1 bs ++ nth 0#8 0 bs).signExtend 32]
  | .b32 => [w 0]
  | .b64 => [w 0, w 1]
  | .b128 => [w 0, w 1, w 2, w 3]
/-- R171: the same for uniform registers. -/
def uniWords (size : Size) (bs : List Byte) : List W64 :=
  match size, laneWords size bs with
  | .s8, [x] | .s16, [x] => [x.signExtend 64]
  | _, [x] => [x.setWidth 64]
  | _, [x, y] => [y ++ x]
  | _, [x, y, z, u] => [y ++ x, u ++ z]
  | _, _ => []

/-- The byte of a physical address that a core's loads through its L1 read by an RC or a UO mapping (R199, R215). -/
def viewByte (s : State) (cid : Nat) (uo : Bool) (a : Nat) : Byte :=
  match Tbl.find (2 * (a / 128) + uo.toNat) (s.core cid).l1 with
  | some l => nth 0#8 (a % 128) l.data
  | none => s.mem.peek a

/-- Every link of every die and a Watis port are alive, so no packet fails (R357, R458). -/
def linksUp (s : State) : Prop := (∀ d ∈ s.dies, d.2.links = []) ∧ s.hub.watis ≠ 0#2

/-- An access to a device register. -/
def isDev (t : Target) : Bool := match t with | .dev _ => true | _ => false

/-- A failure record as charging leaves it (R360, R361). -/
def FailRec.sound (f : FailRec) : Prop :=
  (f.count = 0 → f.unit = 0#16 ∧ f.pois = false ∧ f.dead = false) ∧ (f.drops = 0 → f.dropFirst = false)
/-- R182, R183, R339: the status word of a fence for the failures of some threads since their last one, in lane order: failed packets and, at
cluster scope or wider, dropped messages; the first to come gives FUNIT. -/
def statusWord (scope : Scope) (fs : List FailRec) : W32 :=
  let wide : Bool := match scope with | .thr | .grp | .team => false | _ => true
  let n := (fs.map fun f => f.count + if wide then f.drops else 0).sum
  let unit : Half := match fs.filter fun f => f.count != 0 || (wide && f.drops != 0) with
    | f :: _ => if wide && f.dropFirst then 1#16 else f.unit
    | [] => 0#16
  unit ++ (BitVec.ofNat 8 (min 255 n) ++ (0#1 ++ ((if n = 0 then BitVec.ofNat 3 (Scope.code scope) else 0#3)
    ++ (BitVec.ofBool (fs.any FailRec.pois) ++ (BitVec.ofBool (fs.any FailRec.dead)
    ++ (BitVec.ofBool (wide && fs.any fun f => f.drops != 0) ++ BitVec.ofBool (n = 0)))))))

/-- An access's address is the one that its words form (R164). -/
def Access.formed (o : Ops) (a : Access) : Prop := a.addr = formAddr o a.base a.idx
/-- No access of a group to a stack stands. -/
def noStackStands (g : Group) : Prop := ∀ e ∈ g.pends, ∀ k x, e.a.tgt ≠ .stack k x
/-- Bytes that carry no mark. -/
def cleanBytes (bs : List Byte) : List MByte := bs.map fun b => (b, false)
/-- An outstanding load as it is issued, its accesses to perform. -/
def newLoad (g : Group) (i : Instr) (accs : List Access) : Group :=
  { g with lds := g.lds ++ [⟨g.nextSeq, i, accs.flatMap (Access.split i), [], [], [], [], []⟩] }
/-- An outstanding store as it is issued. -/
def newStore (g : Group) (i : Instr) (accs : List Access) : Group :=
  { g with sts := g.sts ++ [⟨g.nextSeq, i, accs.flatMap (Access.split i), false⟩] }

/-- R178: the value that an atomic leaves, at the width of its SIZE; `d` is `.cas`'s new value. -/
def atomSpec (n : Nat) (aop : AOp) (x c d : BitVec n) : BitVec n :=
  match aop with
  | .add => x + c
  | .smin => if x.toInt ≤ c.toInt then x else c
  | .smax => if x.toInt ≥ c.toInt then x else c
  | .umin => if x.toNat ≤ c.toNat then x else c
  | .umax => if x.toNat ≥ c.toNat then x else c
  | .and => x &&& c
  | .or => x ||| c
  | .xor => x ^^^ c
  | .xchg => c
  | .cas => if x = c then d else x
  | .fadd => BitVec.ofNat n (fadd32 .rne x.toNat c.toNat).bits
  | .fminn => BitVec.ofNat n (fminmax false true x.toNat c.toNat).bits
  | .fmaxn => BitVec.ofNat n (fminmax true true x.toNat c.toNat).bits

/-! ### The matrix engine (09) -/

/-- One element of a tile (R229). -/
def tileAt (c : Core) (k r n : Nat) : W32 := Tbl.get 0#32 (4096 * k + 128 * r + n) c.tiles

/-- Only one core differs. -/
structure CoreOnly (s t : State) (cid : Nat) : Prop where
  others : ∀ c, c ≠ cid → t.core c = s.core c
  rest : { t with cores := s.cores } = s

/-- Whether an element of a tile carries an uncorrectable error (R260). -/
def tileMark (c : Core) (k r n : Nat) : Bool := (Tbl.find (4096 * k + 128 * r + n) c.tileP).isSome

/-- Row `r` of tile `k` of a core as given, each element with its mark, some flags ORed into the tile's flags word, and nothing else
changed. -/
structure TileRowAfter (s t : State) (cid k r : Nat) (f : Nat → W32) (p : Nat → Bool) (fl : W32) : Prop where
  row : ∀ n, n < 128 → tileAt (t.core cid) k r n = f n ∧ tileMark (t.core cid) k r n = p n
  other : ∀ key, (key < 4096 * k + 128 * r ∨ 4096 * k + 128 * r + 128 ≤ key) →
    Tbl.get 0#32 key (t.core cid).tiles = Tbl.get 0#32 key (s.core cid).tiles
    ∧ Tbl.find key (t.core cid).tileP = Tbl.find key (s.core cid).tileP
  flags : ∀ j, Tbl.get 0#32 j (t.core cid).tileF =
    if j = k then Tbl.get 0#32 j (s.core cid).tileF ||| fl else Tbl.get 0#32 j (s.core cid).tileF
  core : { (t.core cid) with tiles := (s.core cid).tiles, tileP := (s.core cid).tileP, tileF := (s.core cid).tileF } = s.core cid
  frame : CoreOnly s t cid

/-- R14, R235: element `j` of a row of bytes, under its block scale in an MX format. -/
def operandElem (f : Fmt) (bs scales : List Byte) (j : Nat) : FVal :=
  let v := natOf bs / 2 ^ (elemBits f * j) % 2 ^ elemBits f
  if f.isMx then mxVal f (nth 0#8 (j / 32) scales) v else elemVal f v

/-- Flags of some results, as they enter a tile's flags word (R231, R232). -/
def wordOf (rs : List FR) : W32 := rs.foldl (fun w r => w ||| r.fl.setWidth 32) 0#32

/-- Flags of results, and PS where one was formed from poisoned data (R231, R260). -/
def wordMarked (rs : List FR) (po : Bool) : W32 := wordOf rs ||| if po then 0x20#32 else 0#32

/-- An operation at the end of the queue of every engine it needs, with a number that no entry there has (R244, R254). -/
def enqueued (s : State) (e : SeqEnt) : State :=
  let ser := 1 + ((matCores e).flatMap fun c => (s.core c).mseq.map SeqEnt.ser).foldl max 0
  (matCores e).foldl (fun t c => t.modCore c fun y => { y with mseq := y.mseq ++ [{ e with ser := ser }] }) s

/-- R254: a uniform operand of a matrix instruction, as captured at issue. -/
def captured (s : State) (o : Ops) (d : Opd) : W64 := match d with | .v _ => 0#64 | _ => rd64 s.here (s.env s.cur.gid) o.imm 0 d

/-- R233: an operand in the scratchpad passes its checks: its region, its alignment, and the team's scratchpad holds all of it. -/
def spHolds (s : State) (gid : Nat) (ptr : W64) (align span : Nat) : Prop :=
  region ptr = 0xFF ∧ (ptr.extractLsb' 0 56).toNat % align = 0 ∧ (ptr.extractLsb' 0 56).toNat + span ≤ s.spLimit (cidOf gid)

/-- R233: the rows of an operand that may be global pass their checks, with the translated rows: each stays in the region, inside its
bounds with the permission, inside a lease of the job, and translates. -/
def rowsHold (s : State) (gid : Nat) (u : Use) (ptr : W64) (n stride len : Nat) (xl : List (List Xl)) : Prop :=
  let c := s.ctx gid (accPriv (s.group gid) ⟨gid, s.cur.mask, s.cur.mask, s.env gid⟩ true 0)
  (spHolds s gid ptr 16 ((n - 1) * stride + len) ∧ xl = [])
  ∨ (region ptr < 0xFB ∧ ptr.toNat % 16 = 0 ∧ xl.length = n
    ∧ ∀ r x, xl[r]? = some x → let a := ptr + BitVec.ofNat 64 (r * stride)
      region a = region ptr ∧ boundsFault s c u a len = none ∧ (∀ ls, c.leases = some ls → leaseOk ls u a len = true)
      ∧ translate s c u (a.extractLsb' 0 56).toNat len = .ok x)

/-- A fault of every thread of the active set ends the issue: no effect of the instruction, no slot passed (R48, R160). -/
def TrapsAll (i : Instr) (s : State) (fault : W32) (addr : W64) : Prop :=
  exec i s = .next (deliver s s.cur.gid (trapAll s.cur.mask fault addr))

/-! ### The Docent and the fabric station (16, 22) -/

/-- The header of an operator record. -/
def recHeader : Instr → Option RecHdr
  | .nopRecord h | .waitev h _ | .sigev h _ _ _ | .loopend h | .adoptRecord h | .unlease h _ _ | .mark h _ _ | .slice h _ _ => some h
  | .job h _ _ _ _ | .cjob h _ _ _ _ | .loopRecord h _ _ _ _ _ _ _ | .lease h _ _ _ _ _ | .resume h _ _ _ _ _ _ | .partw h _ _ _ _ => some h
  | .endreq h _ _ _ | .haltq h _ _ _ => some h
  | _ => none

/-- R374–R377, R459: the record is the next of a queue that runs and neither drains nor is held; it has its sequence number, its
queue's privilege, fields and event as R375, R381 and R397 allow, and under B every earlier record has completed. -/
structure Launches (i : Instr) (s : State) : Prop where
  next : launchable s = true
  seq : ∀ h, recHeader i = some h → h.seq = s.cur.recn.setWidth 16
  priv : privKind i = true → qPriv (s.queue s.cur.die s.cur.queue) = true
  fields : recordFault s i = false
  order : ∀ h, recHeader i = some h → h.b = true → allDone (s.queue s.cur.die s.cur.queue) = true

/-- The record that launches is done with, as R376 and R378 give: successfully, or with a status. -/
def recDone (s : State) (i : Instr) (status : Option W32) : State :=
  doneRec s s.cur.die s.cur.queue s.cur.recn i (status.getD 0#32) status.isSome

/-- R385: the hampers of the cores that take a job record, and of no others, are longer by it. -/
structure HamperGrows (s t : State) (cs : List Nat) (r : Nat → JobRec) : Prop where
  taken : ∀ ix c, cs[ix]? = some c → (t.core c).jobs = (s.core c).jobs ++ [r ix]
  others : ∀ c, c ∉ cs → t.core c = s.core c

/-- R473: a command of a ring that runs is its next, with its sequence number, its order and its fields in order. -/
structure Starts (i : Instr) (s : State) : Prop where
  next : startable s = true
  seq : (cmdHdr i).seq = s.cur.recn.setWidth 16
  order : (cmdHdr i).b = true → ∀ r ∈ (s.ring s.cur.queue).cmds, r.done = true
  fields : cmdRefused s s.cur.queue (cmdHdr i) i = false

end Sys2Proof.Machine
end

