-- ==== Sys2Proof/Certificates/Slice0/Obligations.lean ====
section
/-!
DEFINITION. The statements for the provers, by the chapter of the spec they come from. `Completes` and the other words they are
stated in are those of Safety.lean.
-/

open Sys2Proof Sys2Proof.Machine

/-! ### Integer, logic, affine and address instructions (04) -/

/-- R101, R102, R104, R107 and R112 without saturation: the result in every contributing lane of a varying destination (at 32 bits, at
64 under `.w`), or once at 64 bits in a uniform one; `zero` discards it. Nothing else changes. -/
def Obligations.PlainIntegerResults : Prop :=
  ∀ (i : Instr) (o : Ops) (w : Bool) (s : State) (r32 : Nat → W32) (r64 : Nat → W64),
    wordForm i = some (o, w) → o.d.isA = false → o.d.isPq = false →
    (∀ l, plainSpec 32 (rd32 s.here (s.env s.cur.gid) o.imm l o.a) (rd32 s.here (s.env s.cur.gid) o.imm l o.b)
      (rd32 s.here (s.env s.cur.gid) o.imm l o.c) i = some (r32 l)) →
    (∀ l, plainSpec 64 (rd64 s.here (s.env s.cur.gid) o.imm l o.a) (rd64 s.here (s.env s.cur.gid) o.imm l o.b)
      (rd64 s.here (s.env s.cur.gid) o.imm l o.c) i = some (r64 l)) →
    Issues i s → Straight s →
    Completes i s (resultIn w o.d s.cur.mask (contributing i s)
      (fun l => (if w then r64 l else (r32 l).setWidth 64, 0#5)) (r64 0, 0#5))

/-- R101, R102 with `.ss`, `.us` and `.sat`: the exact result, clamped to the bounds of the form. -/
def Obligations.SaturatingIntegerResults : Prop :=
  ∀ (i : Instr) (o : Ops) (w : Bool) (s : State) (r32 r64 : Nat → Int × Int × Int),
    wordForm i = some (o, w) → o.d.isA = false →
    (∀ l, satSpec 32 (rd32 s.here (s.env s.cur.gid) o.imm l o.a) (rd32 s.here (s.env s.cur.gid) o.imm l o.b) i = some (r32 l)) →
    (∀ l, satSpec 64 (rd64 s.here (s.env s.cur.gid) o.imm l o.a) (rd64 s.here (s.env s.cur.gid) o.imm l o.b) i = some (r64 l)) →
    Issues i s → Straight s →
    Completes i s (resultIn w o.d s.cur.mask (contributing i s)
      (fun l => (if w then clampTo 64 (r64 l) else (clampTo 32 (r32 l)).setWidth 64, 0#5)) (clampTo 64 (r64 0), 0#5))

/-- R106, R108, R109: shifts, rotation and bit fields, whose amount or control B is read as 32 bits at every width; `prmt` works on 32 bits in
every form, and a uniform result is zero-extended. -/
def Obligations.ShiftFieldAndPermuteResults : Prop :=
  (∀ (i : Instr) (o : Ops) (w : Bool) (s : State) (r32 : Nat → W32) (r64 : Nat → W64),
      wordForm i = some (o, w) →
      (∀ l, narrowSpec 32 (rd32 s.here (s.env s.cur.gid) o.imm l o.a) (rd32 s.here (s.env s.cur.gid) o.imm l o.b)
        (rd32 s.here (s.env s.cur.gid) o.imm l o.c) i = some (r32 l)) →
      (∀ l, narrowSpec 64 (rd64 s.here (s.env s.cur.gid) o.imm l o.a) (rd32 s.here (s.env s.cur.gid) o.imm l o.b)
        (rd64 s.here (s.env s.cur.gid) o.imm l o.c) i = some (r64 l)) →
      Issues i s → Straight s →
      Completes i s (resultIn w o.d s.cur.mask (contributing i s)
        (fun l => (if w then r64 l else (r32 l).setWidth 64, 0#5)) (r64 0, 0#5)))
  ∧ (∀ (o : Ops) (s : State), Issues (.prmt o) s → Straight s →
      let r (l : Nat) : W64 := (prmtSpec (rd32 s.here (s.env s.cur.gid) o.imm l o.a) (rd32 s.here (s.env s.cur.gid) o.imm l o.b)
        (rd32 s.here (s.env s.cur.gid) o.imm l o.c)).setWidth 64
      Completes (.prmt o) s (resultIn false o.d s.cur.mask (contributing (.prmt o) s) (fun l => (r l, 0#5)) (r 0, 0#5)))

/-- R103: `iaddc` writes the sum or difference with carry, and the carry or borrow into its carry-out predicate: a p register for a
varying result, a q register for a uniform one. -/
def Obligations.AddWithCarry : Prop :=
  ∀ (o : Ops) (w sub : Bool) (co : Option (BitVec 3)) (s : State),
    let i : Instr := .iaddc o w sub co
    i.wellFormed = true → Issues i s → Straight s →
    let g := s.here
    let e := s.env s.cur.gid
    let r32 (l : Nat) := carrySpec 32 sub (rd32 g e o.imm l o.a) (rd32 g e o.imm l o.b) (rdP g l o.c)
    let r64 (l : Nat) := carrySpec 64 sub (rd64 g e o.imm l o.a) (rd64 g e o.imm l o.b) (rdP g l o.c)
    let val (l : Nat) : W64 × Bool := if w then r64 l else ((r32 l).1.setWidth 64, (r32 l).2)
    let eff := contributing i s
    let d := resultIn w o.d s.cur.mask eff (fun l => ((val l).1, 0#5)) ((r64 0).1, 0#5)
    Completes i s (if o.d.isS || (o.d.isZero && resKind true [o.a, o.b, o.c] = .uni) then
        { d with q := fun k => if co.map BitVec.toNat = some k then some (r64 0).2 else none }
      else { d with p := fun l k => if eff.getLsbD l && co.map BitVec.toNat = some k then some (val l).2 else none })

/-- R110, R111, R105: a comparison writes a predicate, a selection copies one of its sources, and the logic opcodes with a predicate
destination combine predicates. -/
def Obligations.PredicatesAndSelection : Prop :=
  (∀ (o : Ops) (w : Bool) (c : ICond) (u : Bool) (cb : Comb) (s : State), Issues (.icmp o w c u cb) s → Straight s →
    let g := s.here
    let e := s.env s.cur.gid
    let c64 (l : Nat) := compareSpec 64 c u (rd64 g e o.imm l o.a) (rd64 g e o.imm l o.b)
    let c32 (l : Nat) := compareSpec 32 c u (rd32 g e o.imm l o.a) (rd32 g e o.imm l o.b)
    let r (c : Bool) (l : Nat) : W64 := (BitVec.ofBool (combSpec cb c (rdP g l o.c))).setWidth 64
    Completes (.icmp o w c u cb) s (resultIn false o.d s.cur.mask (contributing (.icmp o w c u cb) s)
      (fun l => (r (if w then c64 l else c32 l) l, 0#5)) (r (c64 0) 0, 0#5)))
  ∧ (∀ (o : Ops) (w : Bool) (s : State), Issues (.isel o w) s → Straight s →
    let g := s.here
    let e := s.env s.cur.gid
    let src (l : Nat) := if rdP g l o.c then o.a else o.b
    Completes (.isel o w) s (resultIn w o.d s.cur.mask (contributing (.isel o w) s)
      (fun l => (if w then rd64 g e o.imm l (src l) else (rd32 g e o.imm l (src l)).setWidth 64, 0#5))
      (rd64 g e o.imm 0 (src 0), 0#5)))
  ∧ ∀ (i : Instr) (o : Ops) (s : State) (r : Nat → Bool), o.d.isPq = true →
    (∀ l, predSpec (rdP s.here l o.a) (rdP s.here l o.b) i = some (o, r l)) → Issues i s → Straight s →
    Completes i s (resultIn false o.d s.cur.mask (contributing i s)
      (fun l => ((BitVec.ofBool (r l)).setWidth 64, 0#5)) ((BitVec.ofBool (r 0)).setWidth 64, 0#5))

/-- R113, R114, R115, R116: constants, addresses and promotions into varying and uniform registers. -/
def Obligations.MovesAndAddresses : Prop :=
  (∀ (o : Ops) (w z : Bool) (s : State), Issues (.movi o w z) s → Straight s → (o.d.isS || o.d.isQ) = false →
    Completes (.movi o w z) s (resultIn w o.d s.cur.mask (contributing (.movi o w z) s)
      (fun _ => (if w && !z then o.imm.signExtend 64 else o.imm.setWidth 64, 0#5)) (0#64, 0#5)))
  ∧ (∀ (o : Ops) (n : BitVec 6) (s : State), o.d = .s n → Issues (.movh o) s → Straight s →
    Completes (.movh o) s { u := fun k => if k = n.toNat then some (o.imm ++ (s.here.ureg n.toNat).extractLsb' 0 32) else none })
  ∧ (∀ (o : Ops) (scale : BitVec 3) (idx : Idx) (s : State), o.d.isA = false → o.b ≠ .imm → Issues (.lea o scale idx) s → Straight s →
    let g := s.here
    let e := s.env s.cur.gid
    let r (l : Nat) : W64 :=
      rd64 g e 0#32 l o.a + indexSpec idx (rd64 g e 0#32 l (o.b)) * (1#64 <<< scale.toNat) + o.imm.signExtend 64
    Completes (.lea o scale idx) s (resultIn true o.d s.cur.mask (contributing (.lea o scale idx) s) (fun l => (r l, 0#5)) (r 0, 0#5)))
  ∧ ∀ (o : Ops) (f : Prom) (s : State), (o.d.isS || o.d.isQ) = false → Issues (.promv o f) s → Straight s →
    let x (l : Nat) : W64 := rd64 s.here (s.env s.cur.gid) o.imm l o.a
    Completes (.promv o f) s (resultIn (f = .w) o.d s.cur.mask (contributing (.promv o f) s)
      (fun l => (match f with | .lo => (x l).extractLsb' 0 32 |>.setWidth 64 | .hi => x l >>> 32 | .w => x l, 0#5)) (0#64, 0#5))

/-- R47, R115, R117, R118: an affine result is a base modulo 2^64 and a stride computed exactly; a stride outside 32 signed bits wraps and
sets AOV, or traps with AFOV while AFT is set and writes nothing. The read forms of `abase` and `astr` give the base and the
sign-extended stride. -/
def Obligations.AffineResults : Prop :=
  (∀ (i : Instr) (o : Ops) (n : BitVec 5) (s : State) (b : W64) (t : Int), o.d = .a n →
    affineSpec (affOf s.here (s.env s.cur.gid) o.imm o.a) (affOf s.here (s.env s.cur.gid) o.imm o.b) i = some (o, b, t) →
    i.wellFormed = true → Issues i s → Straight s →
    let fits := decide (-2 ^ 31 ≤ t ∧ t ≤ 2 ^ 31 - 1)
    if fits || !s.here.aft then
      Completes i s { a := fun k => if k = n.toNat then some (b, BitVec.ofInt 32 t) else none, aov := !fits }
    else TrapsAll i s fwAFOV 0#64)
  ∧ ∀ (o : Ops) (n : BitVec 6) (s : State), o.d = .s n → Straight s →
    let a := affOf s.here (s.env s.cur.gid) o.imm o.a
    (Issues (.abase o) s → Completes (.abase o) s { u := fun k => if k = n.toNat then some a.1 else none })
    ∧ (Issues (.astr o) s → Completes (.astr o) s { u := fun k => if k = n.toNat then some (BitVec.ofInt 64 a.2) else none })


/-! ### Floating-point, special-function and random-number instructions (05) -/

/-- R121, R122, R125–R128, R130, R131, R133–R136: the 32-bit result in every contributing lane, or once in a uniform register with zeros
above it; the flags enter the lanes that computed it, or every thread of the set. -/
def Obligations.FloatResults : Prop :=
  ∀ (i : Instr) (o : Ops) (f : W32 → W32 → W32 → FR) (s : State), fpSpec i = some (o, f) → Issues i s → Straight s →
    let x (l : Nat) (a : Opd) : W32 := rd32 s.here (s.env s.cur.gid) o.imm l a
    let r (l : Nat) : FR := f (x l o.a) (x l o.b) (x l o.c)
    Completes i s (resultIn false o.d s.cur.mask (contributing i s)
      (fun l => (BitVec.ofNat 64 (r l).bits, (r l).fl)) (BitVec.ofNat 64 (r 0).bits, (r 0).fl))

/-- R134, R132, R129: conversions to and from integers, comparisons, and the conversion of two FP32 values to a BF16 pair; under `.sr` the
random half-words 0 and 1 come from Philox with key sK and counter sK+1, IMM and the lane. -/
def Obligations.FloatConversionsAndComparison : Prop :=
  (∀ (o : Ops) (rm : Rm) (k : Cvt) (s : State), Issues (.fcvt o rm k) s → Straight s →
    let g := s.here
    let e := s.env s.cur.gid
    let r (u : Bool) (l : Nat) := fcvtSpec rm k u (rd32 g e o.imm l o.a) (rd64 g e o.imm l o.a)
    Completes (.fcvt o rm k) s (resultIn (k = .fsl || k = .ful) o.d s.cur.mask (contributing (.fcvt o rm k) s) (r false) (r true 0)))
  ∧ (∀ (o : Ops) (c : FCond) (cb : Comb) (s : State), Issues (.fcmp o c cb) s → Straight s →
    let g := s.here
    let e := s.env s.cur.gid
    let r (l : Nat) : W64 × BitVec 5 :=
      let v := fcmpSpec c (rd32 g e o.imm l o.a) (rd32 g e o.imm l o.b)
      ((BitVec.ofBool (combSpec cb v.1 (rdP g l o.c))).setWidth 64, v.2)
    Completes (.fcmp o c cb) s (resultIn false o.d s.cur.mask (contributing (.fcmp o c cb) s) r (r 0)))
  ∧ ∀ (o : Ops) (rm : Rm) (sat : Bool) (s : State), (rm = .sr → o.c.isS = true) → (o.d.isS || o.d.isQ) = false →
    Issues (.bfcvt o rm sat) s → Straight s →
    let g := s.here
    let e := s.env s.cur.gid
    let k := match o.c with | .s n => n.toNat | _ => 0
    let half (l j : Nat) : Nat := if rm = .sr then
      ((philox128 (g.ureg k) (g.ureg (k + 1) ++ (o.imm ++ BitVec.ofNat 32 l))).extractLsb' (16 * j) 16).toNat else 0
    let r (l : Nat) : W64 × BitVec 5 :=
      let lo := fmtBf.conv rm (half l 0) sat (fmt32.decode (rd32 g e o.imm l o.a).toNat)
      let hi := fmtBf.conv rm (half l 1) sat (fmt32.decode (rd32 g e o.imm l o.b).toNat)
      (BitVec.ofNat 64 (lo.bits + 2 ^ 16 * hi.bits), lo.fl ||| hi.fl)
    Completes (.bfcvt o rm sat) s (resultIn false o.d s.cur.mask (contributing (.bfcvt o rm sat) s) r (r 0))

/-- R137–R139: four words per contributing lane in four consecutive registers, from key A and counter C:B; under `.f` each word w becomes
the FP32 value (2·⌊w / 2^9⌋ + 1)·2^−24. -/
def Obligations.RandomWords : Prop :=
  ∀ (o : Ops) (f : Bool) (n : BitVec 8) (s : State), o.d = .v n → Issues (.rng o f) s → Straight s →
    let g := s.here
    let e := s.env s.cur.gid
    let word (l j : Nat) : W32 :=
      let w := (philox128 (rd64 g e o.imm l o.a) (rd64 g e o.imm l o.c ++ rd64 g e o.imm l o.b)).extractLsb' (32 * j) 32
      if f then BitVec.ofNat 32 (fmt32.conv .rne 0 false (.fin false (2 * (w >>> 9).toNat + 1) (-24))).bits else w
    Completes (.rng o f) s { v := fun l r =>
      if (contributing (.rng o f) s).getLsbD l && decide (n.toNat ≤ r ∧ r < n.toNat + 4) then some (word l (r - n.toNat)) else none }

/-- R11, R19, R24: a finite value of a floating-point format, converted to that format under any mode and any random bits, is its own
pattern and raises no flag: no rounding moves a value that the format holds. -/
def Obligations.HeldValuesConvertExactly : Prop :=
  ∀ (f : FFmt) (rm : Rm) (rb : Nat) (sat : Bool) (x : Nat) (n : Bool) (m : Nat) (e : Int),
    f ∈ [fmt32, fmtBf, fmt16, fmtE4M3, fmtE5M2, fmtE3M2, fmtE2M3, fmtE2M1] → x < 2 ^ f.w → rb < 2 ^ 16 →
    f.decode x = .fin n m e → f.conv rm rb sat (.fin n m e) = ⟨x, 0#5⟩

/-- R17: when a floating-point opcode with an FP32 result gives a NaN, it is the default NaN 0x7FC0_0000. -/
def Obligations.NanResultsAreDefault : Prop :=
  ∀ (i : Instr) (o : Ops) (f : W32 → W32 → W32 → FR) (x y z : W32), fpSpec i = some (o, f) →
    (∀ o rm h, i ≠ .badd2 o rm h ∧ i ≠ .bmul2 o rm h ∧ i ≠ .bfma2 o rm h) →
    (fmt32.decode (f x y z).bits).isNan = true → (f x y z).bits = 0x7FC00000

/-! ### Across the lanes (06) -/

/-- R149–R151, R154–R157: votes, elections, reductions, matches, intersections and counts over the contributing set, written in the
contributing threads, or once into a uniform or q register. -/
def Obligations.CrossLaneResults : Prop :=
  ∀ (i : Instr) (o : Ops) (w : Bool) (s : State) (r : Nat → W64 × BitVec 5),
    crossSpec (lanesIn (contributing i s)) (rd32 s.here (s.env s.cur.gid) 0#32) (rdP s.here) i = some (o, w, r) →
    o.imm = 0#32 → Issues i s → Straight s →
    Completes i s (resultIn w o.d s.cur.mask (contributing i s) r (r 0))

/-- R152, R153: `shfl` reads A in the source lane, in its own lane where that one is not valid or not active; `rdlane` reads any lane of
the group; `wrlane` writes one lane, if that lane contributes. -/
def Obligations.LaneMoves : Prop :=
  (∀ (o : Ops) (mode : SMode) (seg : Seg) (s : State), Issues (.shfl o mode seg) s → Straight s →
    let x (l : Nat) (a : Opd) : W32 := rd32 s.here (s.env s.cur.gid) o.imm l a
    let src (l : Nat) : Nat := match shuffleSpec mode (segWidth seg) l (x l o.b) with
      | some j => if s.cur.mask.getLsbD j then j else l
      | none => l
    Completes (.shfl o mode seg) s (resultIn false o.d s.cur.mask (contributing (.shfl o mode seg) s)
      (fun l => ((x (src l) o.a).setWidth 64, 0#5)) ((x (src 0) o.a).setWidth 64, 0#5)))
  ∧ (∀ (o : Ops) (s : State), o.d.isS = true → Issues (.rdlane o) s → Straight s →
    let x (l : Nat) (a : Opd) : W32 := rd32 s.here (s.env s.cur.gid) o.imm l a
    let r : W64 × BitVec 5 := ((x ((x 0 o.b).toNat % 32) o.a).setWidth 64, 0#5)
    Completes (.rdlane o) s (resultIn false o.d s.cur.mask (contributing (.rdlane o) s) (fun _ => r) r))
  ∧ ∀ (o : Ops) (n : BitVec 8) (s : State), o.d = .v n → Issues (.wrlane o) s → Straight s →
    let x (l : Nat) (a : Opd) : W32 := rd32 s.here (s.env s.cur.gid) o.imm l a
    Completes (.wrlane o) s { v := fun l k =>
      if l = (x 0 o.b).toNat % 32 && (contributing (.wrlane o) s).getLsbD l && k = n.toNat then some (x 0 o.a) else none }

/-- R155: the sum of `redf.add` is independent of lane order and of which lanes hold zeros: two lists of values whose nonzero patterns
are the same up to order, with at least one of them, have one result and one set of flags. -/
def Obligations.FloatSumIgnoresOrderAndZeros : Prop :=
  ∀ (xs ys : List Nat), (∀ x ∈ xs ++ ys, x < 2 ^ 32) →
    let nonzero (l : List Nat) : List Nat := l.filter fun x => x % 2 ^ 31 != 0
    (nonzero xs).Perm (nonzero ys) → nonzero xs ≠ [] → redfVal .add xs = redfVal .add ys

/-- R156: among candidates (no NaN unless `.i`), `redmaxi` gives the greatest value with the least index that carries it; with no
candidate, the default NaN and all ones. -/
def Obligations.GreatestWithLeastIndex : Prop :=
  ∀ (int : Bool) (vs : List (Nat × Nat)), (∀ e ∈ vs, e.1 < 2 ^ 32 ∧ e.2 < 2 ^ 32) →
    let cand := vs.filter fun e => int || !(fmt32.decode e.1).isNan
    let order (x : Nat) : Int := if int then (BitVec.ofNat 32 x).toInt
      else if x < 2 ^ 31 then x else 2 ^ 31 - 1 - (x : Int)
    let r := redmaxVal int vs
    (cand = [] → r.1 = 0x7FC00000 ∧ r.2.1 = 0xFFFFFFFF)
    ∧ (cand ≠ [] → (r.1, r.2.1) ∈ cand ∧
        ∀ e ∈ cand, order e.1 ≤ order r.1 ∧ (order e.1 = order r.1 → r.2.1 ≤ e.2))
    ∧ (r.2.2 = flIV ↔ int = false ∧ ∃ e ∈ vs, (fmt32.decode e.1).isSig = true)

/-! ### Control flow and traps (06) -/

/-- R142, R143: the contributing threads that take a branch go to its target, each on its own, and under `.pop` lose their innermost loop
entry; the others fall through. -/
def Obligations.BranchesTransfer : Prop :=
  ∀ (i : Instr) (s : State) (p : W64) (o : Ops) (pop : Bool) (take : Nat → Bool) (goes_ : Nat → W64),
    (∀ l, branchSpec s.here (s.env s.cur.gid) p l i = some (o, pop, take l, goes_ l)) →
    Issues i s → Straight s → AtPc s p →
    (∀ l, (contributing i s).getLsbD l = true → take l = true → TargetReads s (s.here.thread l).priv (goes_ l)) →
    ∃ h t, exec i s = .next t ∧ FetchOnly (s.setGroup s.cur.gid h) t ∧ ThreadsAfter s.here (fun l =>
      let x := s.here.thread l
      if (contributing i s).getLsbD l && take l then { x with pc := goes_ l, loops := if pop then x.loops.drop 1 else x.loops }
      else if s.cur.mask.getLsbD l then { x with pc := nextPc p, wait := none } else x) h

/-- R36, R37, R142: a call pushes the slot after it and goes to its target: the return stack grows by one entry at the top and keeps the
others, spilling the oldest held one at depth 16 and above into its thread's stack aperture: bytes of its own, or memory where the page
translates (R309). A return goes to the newest entry and removes it; entries below the sixteenth refill. -/
def Obligations.CallsAndReturns : Prop :=
  (∀ (i : Instr) (s : State) (p : W64) (o : Ops) (goes_ : Nat → W64),
      (∀ l, callSpec s.here (s.env s.cur.gid) p l i = some (o, goes_ l)) → Issues i s → Straight s → AtPc s p →
      let eff := contributing i s
      (∀ l, eff.getLsbD l = true → TargetReads s (s.here.thread l).priv (goes_ l) ∧ (s.here.thread l).cdepth < 528
        ∧ (s.here.thread l).rstack.length = min 16 (s.here.thread l).cdepth
        ∧ (16 ≤ (s.here.thread l).cdepth → noStackStands s.here) ∧ stackBare s s.cur.gid l ((s.here.thread l).cdepth - 15)) →
      ∃ h t, exec i s = .next t ∧ FetchOnly { s.setGroup s.cur.gid h with stk := t.stk } t
        ∧ (∀ l, eff.getLsbD l = true → retStack t s.cur.gid l = nextPc p :: retStack s s.cur.gid l)
        ∧ ThreadsAfter s.here (fun l =>
          let x := s.here.thread l
          if eff.getLsbD l then { x with pc := goes_ l, cdepth := x.cdepth + 1, rstack := nextPc p :: x.rstack.take 15 }
          else if s.cur.mask.getLsbD l then { x with pc := nextPc p, wait := none } else x) h
        ∧ ∀ k, (∀ l, eff.getLsbD l = true → 16 ≤ (s.here.thread l).cdepth →
              let a := stackKey s s.cur.gid l + 8 * ((s.here.thread l).cdepth - 16)
              k < a ∨ a + 8 ≤ k) →
            Tbl.get 0#8 k t.stk = Tbl.get 0#8 k s.stk)
  ∧ (∀ (i : Instr) (s : State) (p goes_ : W64) (o : Ops) (l k : Nat) (m : Xl),
      callSpec s.here (s.env s.cur.gid) p l i = some (o, goes_) → Issues i s → Straight s → AtPc s p → l < 32 →
      contributing i s = 1#32 <<< l →
      let y := s.here.thread l
      TargetReads s y.priv goes_ → 16 ≤ y.cdepth → y.cdepth < 528 → y.rstack.length = 16 → noStackStands s.here →
      s.mem.wf = true → linksUp s → s.mem.isPois (m.pa / 128) = false →
      stackTgt s s.cur.gid l .store (8 * (y.cdepth - 16)) 8 = .stack k (some m) →
      ∃ h t, exec i s = .next t
        ∧ FetchOnly { (s.notePath (cidOf s.cur.gid) m.pa).setGroup s.cur.gid h with mem := t.mem } t
        ∧ natOf (t.mem.peeks m.pa 8) = (nth 0#64 15 y.rstack).toNat
        ∧ (∀ a, a < m.pa ∨ m.pa + 8 ≤ a → t.mem.peek a = s.mem.peek a)
        ∧ ThreadsAfter s.here (fun j =>
          let x := s.here.thread j
          if j = l then { x with pc := goes_, cdepth := x.cdepth + 1, rstack := nextPc p :: x.rstack.take 15 }
          else if s.cur.mask.getLsbD j then { x with pc := nextPc p, wait := none } else x) h)
  ∧ (∀ (o : Ops) (s : State) (p : W64), Issues (.ret o) s → Straight s → AtPc s p →
      let eff := contributing (.ret o) s
      (∀ l, eff.getLsbD l = true → (s.here.thread l).cdepth ≠ 0
        ∧ (s.here.thread l).rstack.length = min 16 (s.here.thread l).cdepth
        ∧ (17 ≤ (s.here.thread l).cdepth → noStackStands s.here)
        ∧ TargetReads s (s.here.thread l).priv ((retStack s s.cur.gid l).headD 0#64)) →
      ∃ h t, exec (.ret o) s = .next t ∧ FetchOnly (s.setGroup s.cur.gid h) t
        ∧ (∀ l, eff.getLsbD l = true → retStack t s.cur.gid l = (retStack s s.cur.gid l).tail)
        ∧ ThreadsAfter s.here (fun l =>
          let x := s.here.thread l
          if eff.getLsbD l then
            { x with pc := (retStack s s.cur.gid l).headD 0#64, cdepth := x.cdepth - 1, rstack := (retStack s s.cur.gid l).tail.take 16 }
          else if s.cur.mask.getLsbD l then { x with pc := nextPc p, wait := none } else x) h)

/-- R144: `loop` pushes START, END and the count and goes to START; a count of zero passes the END slot instead. -/
def Obligations.LoopEnters : Prop :=
  ∀ (o : Ops) (len : BitVec 10) (s : State) (p : W64), o.g = Guard.always → Issues (.loop o len) s → AtPc s p →
    let stop := fallThrough (len.toNat + 1) p
    let n (l : Nat) : W32 := rd32 s.here (s.env s.cur.gid) o.imm l o.a
    (∀ l, s.cur.mask.getLsbD l = true →
      let x := s.here.thread l
      EndReads s x.priv stop ∧ (n l ≠ 0#32 → TargetReads s x.priv (nextPc p) ∧ x.loops.length < 2)
      ∧ (n l = 0#32 → x.loops.length ≤ 2 ∧ ∀ e ∈ x.loops, TargetReads s x.priv e.start)) →
    ∃ h t, exec (.loop o len) s = .next t ∧ FetchOnly (s.setGroup s.cur.gid h) t ∧ ThreadsAfter s.here (fun l =>
      let x := s.here.thread l
      if s.cur.mask.getLsbD l then
        if n l = 0#32 then { x with pc := (passSpec stop x.loops).2, loops := (passSpec stop x.loops).1, wait := none }
        else { x with pc := nextPc p, loops := ⟨nextPc p, stop, n l⟩ :: x.loops }
      else x) h

/-- R145: passing a slot with the end step: the innermost entry whose END it is counts down, with a back-edge to START while the count
lasts; exhausted entries go, together with the next one that ends here. Shown on `nop`, which has no other effect (R147). -/
def Obligations.PassingStepsLoops : Prop :=
  ∀ (o : Ops) (s : State), Issues (.nop o) s →
    (∀ l, s.cur.mask.getLsbD l = true → (s.here.thread l).loops.length ≤ 2
      ∧ ∀ e ∈ (s.here.thread l).loops, TargetReads s (s.here.thread l).priv e.start) →
    ∃ h t, exec (.nop o) s = .next t ∧ FetchOnly (s.setGroup s.cur.gid h) t ∧ ThreadsAfter s.here (fun l =>
      let x := s.here.thread l
      if s.cur.mask.getLsbD l then
        { x with pc := (passSpec x.pc x.loops).2, loops := (passSpec x.pc x.loops).1, wait := none }
      else x) h

/-- R147, R38–R40, R146: `yield` marks the contributing threads not ready for one opportunity; `wait` holds them until its limits hold at
one instant, which may be at once; `conv` holds its threads until the whole full mask waits at one PC, or raises CONVMIS there. -/
def Obligations.WaitingInstructions : Prop :=
  (∀ (o : Ops) (s : State), Issues (.yield o) s → Straight s →
    ∃ h, exec (.yield o) s = .next (s.setGroup s.cur.gid h) ∧ ThreadsAfter s.here (fun l =>
      let x := s.here.thread l
      if s.cur.mask.getLsbD l then
        { (fellThrough x) with yielded := x.yielded || (contributing (.yield o) s).getLsbD l }
      else x) h)
  ∧ (∀ (o : Ops) (s : State), Issues (.wait o) s → StraightIn s.here (s.cur.mask ||| s.here.fmask) → s.cur.mask &&& ~~~s.here.fmask = 0#32 →
    ∃ h, exec (.wait o) s = .next (s.setGroup s.cur.gid h) ∧ ThreadsAfter s.here (fun l =>
      let x := s.here.thread l
      let y : Thread := if (contributing (.wait o) s).getLsbD l then { x with wait := some (.wait o) }
        else if s.cur.mask.getLsbD l then fellThrough x else x
      if s.here.fmask.getLsbD l && waitDone s s.cur.gid y then fellThrough y else y) h)
  ∧ ∀ (o : Ops) (s : State) (p : W64), o.g = Guard.always → Issues (.conv o) s → AtPc s p → s.cur.mask &&& ~~~s.here.fmask = 0#32 →
    let in_ (l : Nat) : Bool := s.cur.mask.getLsbD l || inConv (s.here.thread l)
    let held (h : Group) : Prop := ThreadsAfter s.here (fun l =>
      if s.cur.mask.getLsbD l then { (s.here.thread l) with wait := some (.conv o) } else s.here.thread l) h
    ((∃ l, s.here.fmask.getLsbD l = true ∧ in_ l = false) →
      ∃ h, exec (.conv o) s = .next (s.setGroup s.cur.gid h) ∧ held h)
    ∧ ((∀ l, s.here.fmask.getLsbD l = true → in_ l = true) → (∀ l, s.here.fmask.getLsbD l = true → (s.here.thread l).pc = p) →
        StraightIn s.here s.here.fmask →
      ∃ h, exec (.conv o) s = .next (s.setGroup s.cur.gid h) ∧ ThreadsAfter s.here (fun l =>
        if s.here.fmask.getLsbD l then fellThrough (s.here.thread l) else s.here.thread l) h)
    ∧ ((∀ l, s.here.fmask.getLsbD l = true → in_ l = true) → (∃ l, s.here.fmask.getLsbD l = true ∧ (s.here.thread l).pc ≠ p) →
      ∃ h, exec (.conv o) s = .next (deliver (s.setGroup s.cur.gid h) s.cur.gid (trapAll s.here.fmask 0x21003001#32 0#64)) ∧ held h)

/-- R56: `exit` removes the contributing threads that no outstanding load and no waiting matrix operand names from the full mask, and from
the handlers; the others wait in it. A group whose full mask becomes empty ends. -/
def Obligations.ExitLeaves : Prop :=
  ∀ (o : Ops) (s : State), Issues (.exit o) s → Straight s → s.cur.mask &&& ~~~s.here.fmask = 0#32 →
    let y (l : Nat) : Thread := if (contributing (.exit o) s).getLsbD l then { (s.here.thread l) with wait := some (.exit o) }
      else if s.cur.mask.getLsbD l then fellThrough (s.here.thread l) else s.here.thread l
    let out (l : Nat) : Bool := s.here.fmask.getLsbD l && canLeave s s.cur.gid l (y l)
    ∃ h, (∀ l, h.thread l = if out l then { (y l) with wait := none } else y l)
      ∧ (∀ l, l < 32 → h.fmask.getLsbD l = (s.here.fmask.getLsbD l && !out l) ∧ h.tlanes.getLsbD l = (s.here.tlanes.getLsbD l && !out l))
      ∧ { h with threads := s.here.threads, fmask := s.here.fmask, tlanes := s.here.tlanes } = s.here
      ∧ (h.fmask ≠ 0#32 → exec (.exit o) s = .next (s.setGroup s.cur.gid h))
      ∧ (h.fmask = 0#32 → exec (.exit o) s = .next (groupEnd (s.setGroup s.cur.gid h) s.cur.gid))

/-- R146, R40, R56: the releases: threads whose `wait` limits now hold pass, a complete `conv` passes, a thread that can leave leaves. -/
def Obligations.ControlReleases : Prop :=
  (∀ (g : Nat) (s : State), StraightIn (s.group g) (s.group g).fmask → (∃ l, (s.group g).fmask.getLsbD l = true ∧ waitDone s g ((s.group g).thread l) = true) →
    ∃ h, exec (.waitRelease g) s = .next (s.setGroup g h) ∧ ThreadsAfter (s.group g) (fun l =>
      let x := (s.group g).thread l
      if (s.group g).fmask.getLsbD l && waitDone s g x then fellThrough x else x) h)
  ∧ (∀ (g : Nat) (s : State) (p : W64), StraightIn (s.group g) (s.group g).fmask → (s.group g).fmask ≠ 0#32 →
    (∀ l, (s.group g).fmask.getLsbD l = true → inConv ((s.group g).thread l) = true ∧ ((s.group g).thread l).pc = p) →
    ∃ h, exec (.convRelease g) s = .next (s.setGroup g h) ∧ ThreadsAfter (s.group g) (fun l =>
      if (s.group g).fmask.getLsbD l then fellThrough ((s.group g).thread l) else (s.group g).thread l) h)
  ∧ ∀ (g : Nat) (lane : BitVec 5) (s : State), (s.group g).fmask.getLsbD lane.toNat = true →
    canLeave s g lane.toNat ((s.group g).thread lane.toNat) = true →
    let bit : Mask := 1#32 <<< lane.toNat
    let gone (f : Group → Group) (m : Mask) : Group := { (f (s.group g)) with fmask := m, tlanes := (s.group g).tlanes &&& ~~~bit }
    let left := gone (fun h => h.modThread lane.toNat fun x => { x with wait := none }) ((s.group g).fmask &&& ~~~bit)
    exec (.exitComplete g lane) s = .next (if (s.group g).fmask = bit then groupEnd (s.setGroup g left) g else s.setGroup g left)

/-- R160, R161: `trap n` and `brk n` trap every contributing thread, with TRAPI or BRK and n in CAUSE; the other threads of the set pass.
`trap.end` ends the job, abnormally, with the status that the lowest contributing thread reads. -/
def Obligations.TrapInstructions : Prop :=
  (∀ (i : Instr) (o : Ops) (s : State) (base : W32), (i = .trap o ∧ base = 0x01631000#32 ∨ i = .brk o ∧ base = 0x01632000#32) →
      Issues i s → Straight s → contributing i s ≠ 0#32 → contributing i s &&& s.here.tlanes = 0#32 →
      ∃ h, exec i s = .next (trapEntry (s.setGroup s.cur.gid h) s.cur.gid
          (trapAll (contributing i s) (base + (o.imm.extractLsb' 0 12).setWidth 32) 0#64))
        ∧ ThreadsAfter s.here (fun l =>
          if s.cur.mask.getLsbD l && !(contributing i s).getLsbD l then fellThrough (s.here.thread l) else s.here.thread l) h)
  ∧ (∀ (o : Ops) (s : State) (l : Nat), Issues (.trapEnd o) s → (lanesIn (contributing (.trapEnd o) s)).head? = some l →
      exec (.trapEnd o) s = .next (endJob s (s.tidOf s.cur.gid) (rd32 s.here (s.env s.cur.gid) o.imm l o.a) true))

/-- R160, R162, R300: trap entry saves the fault word, the PC, the address and the level of each trapping thread, raises it to supervisor
level in the handler, and marks it in TLANES; its group's waiting block requests and pushes go, and the A reuse latch. Nothing else
changes, memory included. A fault of a thread that is in a handler ends the job with DBLFLT instead; TCAUSE of the thread holds the
second fault (the model's reading of R162, log 109). -/
def Obligations.FaultDelivery : Prop :=
  (∀ (s : State) (gid : Nat) (m : Mask) (word : W32) (addr : W64), m ≠ 0#32 → endsJob s gid word = false →
      m &&& (s.group gid).tlanes = 0#32 →
      let t := deliver s gid (trapAll m word addr)
      (∀ l, (t.group gid).thread l =
        if m.getLsbD l then trapped (handlerOf s gid) word addr ((s.group gid).thread l) else (s.group gid).thread l)
      ∧ { (t.group gid) with threads := (s.group gid).threads } = { (s.group gid) with tlanes := (s.group gid).tlanes ||| m }
      ∧ (∀ g, g ≠ gid → t.group g = s.group g)
      ∧ (∀ c, { (t.core c) with latch := (s.core c).latch, pushq := (s.core c).pushq, blockq := (s.core c).blockq } = s.core c)
      ∧ (∀ c, (t.core c).pushq = (s.core c).pushq.filter (fun e => e.1 != gid))
      ∧ (t.core (cidOf gid)).blockq = (s.core (cidOf gid)).blockq.filter (fun e => e.1 != gid)
      ∧ (t.core (cidOf gid)).latch = (match (s.core (cidOf gid)).latch with
          | some (k, x) => if k / 256 = gid then none else some (k, x)
          | none => none)
      ∧ { t with groups := s.groups, cores := s.cores } = s)
  ∧ (∀ (s : State) (gid : Nat) (m : Mask) (word : W32) (addr : W64), endsJob s gid word = false →
      m &&& (s.group gid).tlanes ≠ 0#32 →
      let g := s.group gid
      ∃ t, deliver s gid (trapAll m word addr) = endJob t (s.tidOf gid) 0x21004001#32 true
        ∧ (∀ l, (t.group gid).thread l =
          if (m &&& g.tlanes).getLsbD l then { g.thread l with tcause := word } else g.thread l)
        ∧ { (t.group gid) with threads := g.threads } = g ∧ (∀ x, x ≠ gid → t.group x = s.group x)
        ∧ { t with groups := s.groups } = s)

/-- R162: `tret` restores PC and level of each contributing thread that is in a handler and clears its TLANES bit; `.next` returns past the
slot at TPC; a thread in no handler raises TRETNH. -/
def Obligations.TrapReturnRestores : Prop :=
  ∀ (o : Ops) (nx : Bool) (s : State), Issues (.tret o nx) s →
    let eff := contributing (.tret o nx) s
    (eff &&& ~~~s.here.tlanes = 0#32 → Straight s →
      (∀ l, eff.getLsbD l = true → let x := s.here.thread l
        pcLegal (if nx then nextPc x.tpc else x.tpc) = true ∧ (nx = true → ∀ e ∈ x.loops.head?, e.stop ≠ x.tpc)) →
      ∃ h, exec (.tret o nx) s = .next (s.setGroup s.cur.gid h)
        ∧ ThreadsAfter { s.here with tlanes := s.here.tlanes &&& ~~~eff } (fun l =>
          let x := s.here.thread l
          if eff.getLsbD l then
            (if nx then { x with priv := x.ppriv, pc := nextPc x.tpc, wait := none } else { x with priv := x.ppriv, pc := x.tpc })
          else if s.cur.mask.getLsbD l then fellThrough x else x) h)
    ∧ (eff = s.cur.mask → eff &&& s.here.tlanes = 0#32 →
      exec (.tret o nx) s = .next (deliver (s.setGroup s.cur.gid s.here) s.cur.gid (trapAll eff 0x01630003#32 0#64)))


/-! ### Issue, special registers, register blocks (02, 06) -/

/-- R10, R48, R51, R79, R229: the checks of issue in their order, each of which ends the issue with none of the instruction's effects: PRIV
where every thread of the set is below the level, RBNH for a register that is not held, ACCNH for a tile that is not, UWPM for a
group-scope instruction on part of the full mask, or on threads of which some but not all of the group's are in a handler (R301). -/
def Obligations.IssueChecks : Prop :=
  ∀ (i : Instr) (s : State) (body : At → State → Out), s.cur.mask ≠ 0#32 →
    let low := needsSup i && decide (s.cur.mask &&& ~~~userMask s.here s.cur.mask ≠ s.cur.mask)
    let held := regsOk i s.here.xblk (s.counts s.cur.gid).2.1 (s.counts s.cur.gid).2.2
    let fails (word : W32) : Prop := issue i s body = deliver s s.cur.gid (trapAll s.cur.mask word 0#64)
    (low = true → (i.groupScope = true ∨ userMask s.here s.cur.mask = s.cur.mask) → fails 0x01421001#32)
    ∧ (low = false → held = false → fails 0x21202001#32)
    ∧ (low = false → held = true → tilesOk s s.cur.gid i = false → fails 0x21805001#32)
    ∧ (low = false → held = true → tilesOk s s.cur.gid i = true → i.groupScope = true →
        ¬(s.cur.mask = s.here.fmask ∧ (s.here.tlanes &&& s.cur.mask = 0#32 ∨ s.here.tlanes = s.here.fmask)) → fails 0x21001001#32)

/-- R57, R58, R158, R159: `getsr` reads the register as its field map lays it out, zero-extended into a uniform register, in every lane of a
varying one, a 64-bit register as a pair. -/
def Obligations.SpecialRegisterReads : Prop :=
  ∀ (o : Ops) (s : State), Issues (.getsr o) s → Straight s → SrBounds s s.cur.gid →
    Completes (.getsr o) s (resultIn (srWidth o.srnum = some 64) o.d s.cur.mask (contributing (.getsr o) s)
      (fun l => (srSpec s s.cur.gid l o.srnum, 0#5)) (srSpec s s.cur.gid 0 o.srnum, 0#5))

/-- R4, R10, R57, R58, R158, R159: `setsr` changes the writable fields of a register: the flags of TSR, AFT and AOV of GSR, TCAUSE, TPC, TADDR
and LBASE; a thread register in each contributing thread, another one for its whole scope; a read-only register keeps its value. At
user level a write that would change TCAUSE, TPC, TADDR or LBASE in every thread of the set raises PRIV there, before any other check of
issue, and changes nothing. -/
def Obligations.SpecialRegisterWrites : Prop :=
  (∀ (o : Ops) (op : SrOp) (s : State), (Instr.setsr o op).wellFormed = true → Issues (.setsr o op) s → Straight s → SrBounds s s.cur.gid →
      ([2, 3, 4, 8].contains o.srnum = true → ∀ l, (contributing (.setsr o op) s).getLsbD l = true → (s.here.thread l).priv ≠ .user) →
      let g := s.here
      let e := s.env s.cur.gid
      let a (l : Nat) : W64 := if srWidth o.srnum = some 64 then rd64 g e o.imm l o.a else (rd32 g e o.imm l o.a).setWidth 64
      let new (l : Nat) : W64 := setsrSpec op (srSpec s s.cur.gid l o.srnum) (a l)
      let set (l : Nat) (x : Thread) : Thread :=
        if !(contributing (.setsr o op) s).getLsbD l then x
        else match o.srnum with
          | 0 => { x with flags := (new l).extractLsb' 0 5 }
          | 2 => { x with tcause := (new l).extractLsb' 0 32 }
          | 3 => { x with tpc := new l }
          | 4 => { x with taddr := new l }
          | _ => x
      ∃ h, exec (.setsr o op) s = .next
          (if o.srnum = 8 then (s.modTeam (s.tidOf s.cur.gid) fun t => { t with lbase := new 0 }).setGroup s.cur.gid h
            else s.setGroup s.cur.gid h)
        ∧ ThreadsAfter (if o.srnum = 1 then { g with aft := (new 0).getLsbD 1, aov := (new 0).getLsbD 0 } else g)
          (fun l => if s.cur.mask.getLsbD l then fellThrough (set l (g.thread l)) else g.thread l) h)
  ∧ (∀ (o : Ops) (op : SrOp) (s : State), [2, 3, 4, 8].contains o.srnum = true → o.g = Guard.always → s.cur.mask ≠ 0#32 →
      (∀ l, s.cur.mask.getLsbD l = true → (s.here.thread l).priv = .user
        ∧ setsrSpec op (srSpec s s.cur.gid l o.srnum)
            (if srWidth o.srnum = some 64 then rd64 s.here (s.env s.cur.gid) o.imm l o.a
              else (rd32 s.here (s.env s.cur.gid) o.imm l o.a).setWidth 64) ≠ srSpec s s.cur.gid l o.srnum) →
      exec (.setsr o op) s = .next (deliver s s.cur.gid (trapAll s.cur.mask 0x01421001#32 0#64)))

/-- R50–R54: `regacq N` on a core whose block queue is empty: RBLIM above the header's maximum, RBNEVER above the capacity, nothing where
the blocks are held, a grant of zeroed blocks where enough are free; else the group waits in the queue. `regrel N` gives up the blocks
above N once no load is outstanding; until then its threads wait. The queue serves its head alone: one whose blocks are free is
granted, and one that can never be granted leaves with RBDEAD. -/
def Obligations.RegisterBlocks : Prop :=
  (∀ (o : Ops) (s : State), Issues (.regacq o) s → Straight s → o.imm.toNat ≤ s.here.xblk → o.imm.toNat ≤ (s.counts s.cur.gid).1 →
      (o.imm.toNat : Int) ≤ s.capacity (cidOf s.cur.gid) → Completes (.regacq o) s {})
  ∧ (∀ (o : Ops) (s : State), Issues (.regrel o) s → Straight s → s.here.xblk ≤ o.imm.toNat → Completes (.regrel o) s {})
  ∧ (∀ (o : Ops) (s : State), Issues (.regacq o) s → Straight s → (s.core (cidOf s.cur.gid)).blockq = [] →
      s.cur.mask = s.here.fmask → (∀ l, (s.here.thread l).wait = none) →
      let n := o.imm.toNat
      let cid := cidOf s.cur.gid
      let g := s.here
      (n > (s.counts s.cur.gid).1 → s.cur.mask &&& g.tlanes = 0#32 → TrapsAll (.regacq o) s 0x21202002#32 0#64)
      ∧ (n ≤ (s.counts s.cur.gid).1 → (n : Int) > s.capacity cid → s.cur.mask &&& g.tlanes = 0#32 →
          TrapsAll (.regacq o) s 0x21202003#32 0#64)
      ∧ (n ≤ (s.counts s.cur.gid).1 → (n : Int) ≤ s.capacity cid →
        (n ≤ g.xblk → Completes (.regacq o) s {})
        ∧ (g.xblk < n → ((n : Int) - g.xblk ≤ s.freeBlocks cid) → (s.team (s.tidOf s.cur.gid)).launching = none →
          ∃ h, exec (.regacq o) s = .next (((s.setGroup s.cur.gid h).modCore cid (fun c => { c with blockq := [] })))
            ∧ (∀ l r, l < 32 → h.vreg l r = if r < 64 + 32 * g.xblk then g.vreg l r else 0#32)
            ∧ ThreadsAfter { g with v := h.v, xblk := n }
                (fun l => if s.cur.mask.getLsbD l then fellThrough (g.thread l) else g.thread l) h)
        ∧ (g.xblk < n → s.freeBlocks cid < (n : Int) - g.xblk →
          (∃ k, k / 32 = cid ∧ k ≠ s.cur.gid ∧ (s.group k).live = true ∧ (s.group k).xblk ≠ 0) →
          ∃ h, exec (.regacq o) s = .next ((s.setGroup s.cur.gid h).modCore cid (fun c => { c with blockq := [(s.cur.gid, n - g.xblk)] }))
            ∧ ThreadsAfter g (fun l => if s.cur.mask.getLsbD l then { (g.thread l) with wait := some (.regacq o) } else g.thread l) h)))
  ∧ (∀ (o : Ops) (s : State), Issues (.regrel o) s → Straight s → (s.core (cidOf s.cur.gid)).blockq = [] →
      s.cur.mask = s.here.fmask → (∀ l, (s.here.thread l).wait = none) →
      let n := o.imm.toNat
      let g := s.here
      (g.xblk ≤ n → Completes (.regrel o) s {})
      ∧ (n < g.xblk → g.lds ≠ [] →
        ∃ h, exec (.regrel o) s = .next (s.setGroup s.cur.gid h)
          ∧ ThreadsAfter g (fun l => if s.cur.mask.getLsbD l then { (g.thread l) with wait := some (.regrel o) } else g.thread l) h)
      ∧ (n < g.xblk → g.lds = [] →
        ∃ h, exec (.regrel o) s = .next (s.setGroup s.cur.gid h)
          ∧ (∀ l r, l < 32 → r < 64 + 32 * n → h.vreg l r = g.vreg l r)
          ∧ ThreadsAfter { g with v := h.v, xblk := n }
              (fun l => if s.cur.mask.getLsbD l then fellThrough (g.thread l) else g.thread l) h))
  ∧ (∀ (s : State) (c gid n : Nat), (s.core c).blockq = [(gid, n)] → cidOf gid = c → (s.team (s.tidOf gid)).launching = none →
      StraightIn (s.group gid) (s.group gid).fmask → (s.group gid).fmask ≠ 0#32 →
      (∀ l, (s.group gid).fmask.getLsbD l = true → ∃ o, ((s.group gid).thread l).wait = some (.regacq o)) →
      ((n : Int) ≤ s.freeBlocks c →
        ∃ h, exec (.regacqGrant c) s = .next ((s.setGroup gid h).modCore c (fun x => { x with blockq := [] }))
          ∧ (∀ l r, l < 32 → h.vreg l r = if r < 64 + 32 * (s.group gid).xblk then (s.group gid).vreg l r else 0#32)
          ∧ ThreadsAfter { (s.group gid) with v := h.v, xblk := (s.group gid).xblk + n }
              (fun l => if (s.group gid).fmask.getLsbD l then fellThrough ((s.group gid).thread l) else (s.group gid).thread l) h)
      ∧ (s.freeBlocks c < n → (∀ k, k / 32 = c → k ≠ gid → (s.group k).live = false ∨ (s.group k).xblk = 0) →
        exec (.regacqGrant c) s = .next (deliver (s.modCore c fun x => { x with blockq := [] }) gid
          (trapAll (s.group gid).fmask 0x21202004#32 0#64))))


/-! ### Memory (07, 08) -/

/-- R164–R168: the checks of an access in their order, before translation: the regions an instruction may not name, the level of device
registers, alignment, the bounds of scratchpad, peer scratchpad and stack, with the byte each address names. -/
def Obligations.AccessChecks : Prop :=
  ∀ (s : State) (gid lane : Nat) (p : Priv) (f : Form) (a : W64), 0 < f.align → 0 < f.len →
    let r := (a.extractLsb' 56 8).toNat
    let low := (a.extractLsb' 0 56).toNat
    let c := cidOf gid
    let share := s.spLimit c
    let step := if r = 0xFB then f.len else f.align
    let banned := r = 0xFC || (f.cache && 0xFB ≤ r) || (f.once && r = 0xFD) || (!f.plain && r = 0xFB)
    (banned = true → checkAccess s gid lane p f a = .error fwAPERR)
    ∧ (banned = false → r = 0xFB → p = .user → checkAccess s gid lane p f a = .error fwPRIV)
    ∧ (banned = false → (r = 0xFB → p ≠ .user) → ¬ step ∣ low → checkAccess s gid lane p f a = .error fwMISALIGN)
    ∧ (banned = false → (r = 0xFB → p ≠ .user) → step ∣ low →
      (r = 0xFB → checkAccess s gid lane p f a = .ok (.dev low))
      ∧ (r = 0xFF → low + f.len ≤ share → checkAccess s gid lane p f a = .ok (.sp c ((s.posOf gid).1 * share + low)))
      ∧ (r = 0xFF → share < low + f.len → checkAccess s gid lane p f a = .error fwSPBND)
      ∧ (r = 0xFD → low + f.len ≤ 65536 → checkAccess s gid lane p f a = .ok (stackTgt s gid lane f.use low f.len)
        ∧ ∃ m, stackTgt s gid lane f.use low f.len = .stack (stackKey s gid lane + low) m)
      ∧ (r = 0xFD → 65536 < low + f.len → checkAccess s gid lane p f a = .error fwSTKBND)
      ∧ (r = 0xFE → s.clusterOf (s.tidOf gid) = none → checkAccess s gid lane p f a = .error fwSPBND)
      ∧ (r < 0xFB → ∀ w, boundsFault s (s.ctx gid p) f.use a f.len = some w → checkAccess s gid lane p f a = .error w)
      ∧ (r < 0xFB → ∀ xs, boundsFault s (s.ctx gid p) f.use a f.len = none →
          (∀ ls, (s.ctx gid p).leases = some ls → leaseOk ls f.use a f.len = true) →
          translate s (s.ctx gid p) f.use low f.len = .ok xs → checkAccess s gid lane p f a = .ok (.glob xs)))

/-- R14, R80, R171, R173–R176, R185, R189: a load checks its accesses at issue, and they stand in LDC until they perform and their data is
written; a device register is read at issue. What its data leaves to be written: the words of a plain load, a poisoned unit of which is
zero; a per-lane converting load's FP32 value, with its flags; a packed one's 32 elements, an MX form's under its scale, each for the
thread of its lane. `pref` changes nothing that a program sees. -/
def Obligations.LoadsIssue : Prop :=
  (∀ (o : Ops) (ch : Ch) (scope : Scope) (ord : MOrd) (size : Size) (s : State) (accs : List Access),
    let i : Instr := .ld o ch scope ord size
    Issues i s →
    let x := here_ i s
    let n := bytesIn size
    let f : Form := ⟨.load, n, 1, n = 4 || n = 8, false, o.d.isS⟩
    let s1 := rereadAll x o.d.isS f (laneAddr s.here x.env o) s
    checkAll x o.d.isS f (laneAddr s.here x.env o) s1 = (accs, []) → accs ≠ [] →
    ((∀ a ∈ accs, isDev a.tgt = false) → CompletesWith i s (s1.modGroup x.gid fun g => newLoad g i accs))
    ∧ ∀ (a : Access) (ofs v : Nat) (d : BitVec 8), accs = [a] → a.tgt = .dev ofs → o.d = .v d → acqOrd ord = false →
        s1.here.before ⟨true, s1.here.nextSeq, i, a⟩ = [] → devLoad s1 ofs n = .ok v →
        CompletesWith i s (s1.modGroup x.gid fun g => { g with lds := g.lds ++ [⟨g.nextSeq, i, [], [],
          (laneWords size (bytesOf n v)).zipIdx.map (fun w => ⟨a.lane, d.toNat + w.2, w.1⟩), [], [], []⟩] }))
  ∧ (∀ (o : Ops) (ch : Ch) (fmt : Fmt) (s : State) (accs : List Access),
    let i : Instr := .ldConvert o ch fmt
    Issues i s → fmt.packed = false →
    let x := here_ i s
    let n := elemBits fmt / 8
    let f : Form := ⟨.load, n, n, false, false, o.d.isS⟩
    let s1 := rereadAll x o.d.isS f (laneAddr s.here x.env o) s
    checkAll x o.d.isS f (laneAddr s.here x.env o) s1 = (accs, []) → accs ≠ [] → (∀ a ∈ accs, isDev a.tgt = false) →
    CompletesWith i s (s1.modGroup x.gid fun g => newLoad g i accs))
  ∧ (∀ (o : Ops) (ch : Ch) (fmt : Fmt) (s : State) (accs : List Access),
    let i : Instr := .ldConvert o ch fmt
    Issues i s → fmt.packed = true →
    let x := here_ i s
    let f : Form := ⟨.load, 4 * elemBits fmt, if elemBits fmt = 4 then 16 else 32, false, false, true⟩
    let s1 := rereadPacked o fmt f x s
    packedAccs .load o fmt f x s1 = (accs, []) → accs ≠ [] → (∀ a ∈ accs, isDev a.tgt = false) →
    CompletesWith i s (s1.modGroup x.gid fun g => newLoad g i accs))
  ∧ (∀ (o : Ops) (ch : Ch) (scope : Scope) (ord : MOrd) (size : Size) (a : Access) (bs : List MByte), bs.length = bytesIn size →
    let unit := if o.d.isS then 8 else 4
    let seen := bs.zipIdx.map fun b => if (bs.zipIdx.any fun c => c.2 / unit = b.2 / unit && c.1.2) then 0#8 else b.1.1
    let r := resultOf (.ld o ch scope ord size) a bs
    (∀ d, o.d = .v d → r.vw = (laneWords size seen).zipIdx.map (fun w => ⟨a.lane, d.toNat + w.2, w.1⟩) ∧ r.sw = [])
    ∧ (∀ d, o.d = .s d → r.sw = (uniWords size seen).zipIdx.map (fun w => (d.toNat + w.2, w.1)) ∧ r.vw = [])
    ∧ r.fl = [] ∧ r.pois = if bs.any Prod.snd then (if a.lane < 32 then [a.lane] else lanesIn a.mask).map (fun l => (l, a.addr)) else [])
  ∧ (∀ (o : Ops) (ch : Ch) (fmt : Fmt) (a : Access) (bs : List Byte) (d : BitVec 8), fmt.packed = false → bs.length = elemBits fmt / 8 →
    a.lane < 32 → o.d = .v d →
    let v := fmt32.conv .rne 0 false (elemVal fmt (natOf bs))
    let r := resultOf (.ldConvert o ch fmt) a (cleanBytes bs)
    r.vw = [⟨a.lane, d.toNat, BitVec.ofNat 32 v.bits⟩] ∧ r.sw = [] ∧ r.fl = [(a.lane, v.fl)] ∧ r.pois = [])
  ∧ (∀ (o : Ops) (ch : Ch) (fmt : Fmt) (a : Access) (run sc : List Byte) (d : BitVec 8), fmt.packed = true → o.d = .v d →
    run.length = 4 * elemBits fmt → sc.length = (if fmt.isMx then 1 else 0) →
    let elem (l : Nat) : FR :=
      let e := natOf run / 2 ^ (elemBits fmt * l) % 2 ^ elemBits fmt
      let v := if fmt.isMx then mxVal fmt (sc.headD 0#8) e else elemVal fmt e
      if v.isNan then ⟨0x7FC00000, 0#5⟩ else fmt32.conv .rne 0 false v
    let r := resultOf (.ldConvert o ch fmt) a (cleanBytes (run ++ sc))
    let on := lanesIn a.mask
    r.vw = on.map (fun l => ⟨l, d.toNat, BitVec.ofNat 32 (elem l).bits⟩) ∧ r.sw = [] ∧ r.fl = on.map (fun l => (l, (elem l).fl)) ∧ r.pois = [])
  ∧ ∀ (o : Ops) (l2 : Bool) (s : State), Issues (.pref o l2) s →
    let x := here_ (.pref o l2) s
    ∃ t, CompletesWith (.pref o l2) s t ∧ (l2 = true → t = s) ∧ t.stk = s.stk ∧ t.teams = s.teams ∧ t.time = s.time
      ∧ ((∀ l, x.eff.getLsbD l = true → region (addrOf s.here x.env o l) ≥ 0xFB) → t = s)

/-- R14, R26, R80, R171, R174–R177, R186, R187: a store checks its accesses at issue, and they stand in STC with the bytes of its registers. What
it stores is those bytes, or converted: a per-lane form's element; a packed form's 32 elements as one run, an MX store's whole block with
an exited lane as +0 and its scale byte. The flags of a conversion enter the contributing threads at issue. A cache operation stands in
STC with the line of each contributing lane. -/
def Obligations.StoresIssue : Prop :=
  (∀ (o : Ops) (ch : Ch) (scope : Scope) (ord : MOrd) (size : Size) (s : State) (found : List Access),
    let i : Instr := .st o ch scope ord size
    Issues i s →
    let x := here_ i s
    let n := bytesIn size
    let once := o.uniAddr && o.c.isUni
    let f : Form := ⟨.store, n, 1, n = 4 || n = 8, false, once⟩
    let s1 := rereadAll x once f (laneAddr s.here x.env o) s
    checkAll x once f (laneAddr s.here x.env o) s1 = (found, []) → (∀ a ∈ found, isDev a.tgt = false) →
    let accs := found.map fun a => { a with data := dataBytes s.here x.env (a.lane % 32) o.c n }
    CompletesWith i s (if found = [] then s1 else s1.modGroup x.gid fun g => newStore g i accs))
  ∧ (∀ (o : Ops) (ch : Ch) (sat : Bool) (rm : Rm) (fmt : Fmt) (s : State) (found : List Access),
    let i : Instr := .stConvert o ch sat rm fmt
    Issues i s → fmt.packed = false →
    let x := here_ i s
    let n := elemBits fmt / 8
    let once := o.uniAddr && o.c.isUni
    let f : Form := ⟨.store, n, n, false, false, once⟩
    let s1 := rereadAll x once f (laneAddr s.here x.env o) s
    checkAll x once f (laneAddr s.here x.env o) s1 = (found, []) → found ≠ [] → (∀ a ∈ found, isDev a.tgt = false) →
    let word (l : Nat) : W32 := rd32 s.here x.env 0#32 l o.c
    let at_ (l : Nat) : Nat := if once then (lanesIn s.cur.mask).headD 0 else l
    let accs := found.map fun a => { a with data := bytesOf 4 (word (if once then 0 else a.lane)).toNat }
    CompletesWith i s (s1.modGroup x.gid fun g =>
      newStore ((lanesIn (if once then s.cur.mask else x.eff)).foldl
        (fun g l => g.orFlags l (convElem fmt sat rm (word (at_ l)).toNat).fl) g) i accs))
  ∧ (∀ (o : Ops) (ch : Ch) (sat : Bool) (rm : Rm) (fmt : Fmt) (s : State) (found : List Access),
    let i : Instr := .stConvert o ch sat rm fmt
    Issues i s → fmt.packed = true →
    let x := here_ i s
    let f : Form := ⟨.store, 4 * elemBits fmt, if elemBits fmt = 4 then 16 else 32, false, false, true⟩
    let s1 := rereadPacked o fmt f x s
    packedAccs .store o fmt f x s1 = (found, []) → found ≠ [] → (∀ a ∈ found, isDev a.tgt = false) →
    let word (l : Nat) : W32 := rd32 s.here x.env 0#32 l o.c
    let val (l : Nat) : Nat := if s.cur.mask.getLsbD l then (word l).toNat else 0
    let block := mxBlock fmt rm (fun _ => 0) (lanes.map fun l => fmt32.decode (val l))
    let es : List FR := if fmt.isMx then block.1.map fun r => ⟨r.bits, r.fl ||| block.2.2⟩ else lanes.map fun l => convElem fmt sat rm (val l)
    let data := lanes.flatMap fun l => bytesOf 4 (word l).toNat
    CompletesWith i s (s1.modGroup x.gid fun g =>
      newStore ((lanes.zip es).foldl (fun g e => if s.cur.mask.getLsbD e.1 then g.orFlags e.1 e.2.fl else g) g) i
        (found.map fun a => { a with data := data }))
    ∧ storeVal i s.cur.mask data = packElems (elemBits fmt) (es.map FR.bits) ++ (if fmt.isMx then [block.2.1] else []))
  ∧ (∀ (o : Ops) (ch : Ch) (sat : Bool) (rm : Rm) (fmt : Fmt) (m : Mask) (w : W32), fmt.packed = false →
    storeVal (.stConvert o ch sat rm fmt) m (bytesOf 4 w.toNat) = bytesOf (elemBits fmt / 8) (convElem fmt sat rm w.toNat).bits)
  ∧ ∀ (i : Instr) (o : Ops) (u : Use) (s : State) (accs : List Access),
    (i = .discard o ∧ u = .store ∨ (∃ m, i = .clean o m) ∧ u = .clean ∨ (∃ c, i = .inval o c) ∧ u = .clean) → Issues i s →
    let x := here_ i s
    let f : Form := ⟨u, 1, 1, false, true, false⟩
    let s1 := rereadAll x false f (laneAddr s.here x.env o) s
    checkAll x false f (laneAddr s.here x.env o) s1 = (accs, []) → accs ≠ [] →
    CompletesWith i s (s1.modGroup x.gid fun g => newStore g i accs)

/-- R178–R180: `atom` with a destination stands in LDC as a load that modifies; without one, and `red`, it stands in STC. When it performs it
reads its location, leaves the value that its operation gives there, and D receives the old one. -/
def Obligations.AtomicsIssue : Prop :=
  (∀ (o : Ops) (sz : Bool) (scope : Scope) (ord : MOrd) (aop : AOp) (s : State) (found : List Access),
    let i : Instr := .atom o sz scope ord aop
    Issues i s →
    let x := here_ i s
    let n := if sz then 8 else 4
    let once := o.uniAddr && o.c.isUni
    let f : Form := ⟨.atomic, n, n, false, false, once⟩
    let s1 := rereadAll x once f (laneAddr s.here x.env o) s
    checkAll x once f (laneAddr s.here x.env o) s1 = (found, []) → found ≠ [] → (∀ a ∈ found, isDev a.tgt = false) →
    let accs := found.map fun a => { a with data := atomData s.here x.env (a.lane % 32) o.c aop sz }
    exec i s = .next (passDeliver (s1.modGroup x.gid fun g => if o.d.isV || o.d.isS then newLoad g i accs else newStore g i accs)
      x.gid s.cur.mask))
  ∧ (∀ (o : Ops) (sz : Bool) (scope : Scope) (ord : MOrd) (aop : AOp) (s : State) (found : List Access),
    let i : Instr := .red o sz scope ord aop
    Issues i s → o.d = .zero →
    let x := here_ i s
    let n := if sz then 8 else 4
    let once := o.uniAddr && o.c.isUni
    let f : Form := ⟨.atomic, n, n, false, false, once⟩
    let s1 := rereadAll x once f (laneAddr s.here x.env o) s
    checkAll x once f (laneAddr s.here x.env o) s1 = (found, []) → found ≠ [] → (∀ a ∈ found, isDev a.tgt = false) →
    let accs := found.map fun a => { a with data := atomData s.here x.env (a.lane % 32) o.c aop sz }
    exec i s = .next (passDeliver (s1.modGroup x.gid fun g => newStore g i accs) x.gid s.cur.mask))
  ∧ (∀ (aop : AOp) (n : Nat) (x c d : BitVec n), n = 32 ∨ (n = 64 ∧ aop ≠ .fadd ∧ aop ≠ .fminn ∧ aop ≠ .fmaxn) →
    atomVal aop n x.toNat c.toNat d.toNat % 2 ^ n = (atomSpec n aop x c d).toNat)
  ∧ (∀ (s : State) (gid lane ofs : Nat) (aop : AOp) (sz : Bool) (scope : Scope) (data : List Byte),
    let c := cidOf gid
    let n := if sz then 8 else 4
    (s.core c).stale = [] → (s.core c).spPois = [] → (s.core c).lost = false →
    let old := s.spBytes c ofs n
    atomic s gid lane aop sz scope (.sp c ofs) data =
      (cleanBytes old, s.putSp c 0 0 ofs (bytesOf n (atomVal aop (8 * n) (natOf old) (natOf (data.take n)) (natOf (data.drop n))))))
  ∧ ∀ (o : Ops) (sz : Bool) (scope : Scope) (ord : MOrd) (aop : AOp) (a : Access) (bs : List Byte) (d : BitVec 8),
    bs.length = (if sz then 8 else 4) → o.d = .v d →
    (resultOf (.atom o sz scope ord aop) a (cleanBytes bs)).vw =
      (laneWords (if sz then .b64 else .b32) bs).zipIdx.map (fun w => ⟨a.lane, d.toNat + w.2, w.1⟩)

/-- R181–R184, R339, R359–R361: the fences. Their threads wait; a `fence` returns thread by thread once no load of the group writes it and, at
cluster scope or wider, no message of the group stands; `fence.g` and `fencex` for the whole group; what the fence covers has then
performed, its markers are sent, and D receives the status word of the failures since the last one, which start again. -/
def Obligations.FencesReturn : Prop :=
  (∀ (o : Ops) (scope : Scope) (s : State), Issues (.fence o scope) s → Straight s →
    exec (.fence o scope) s = .next (tryFence (waitingIn (.fence o scope) s) s.cur.gid))
  ∧ (∀ (o : Ops) (scope : Scope) (s : State), Issues (.fenceG o scope) s → o.g = Guard.always →
    exec (.fenceG o scope) s = .next (tryFenceG (waitingIn (.fenceG o scope) s) s.cur.gid))
  ∧ (∀ (o : Ops) (p : BitVec 5) (scope : Scope) (s : State), Issues (.fencex o p scope) s → o.g = Guard.always →
    exec (.fencex o p scope) s = .next (tryFencex (waitingIn (.fencex o p scope) s) s.cur.gid))
  ∧ (∀ (g : Nat) (lane : BitVec 5) (o : Ops) (scope : Scope) (s : State),
    let one : Mask := 1#32 <<< lane.toNat
    (s.group g).fmask.getLsbD lane.toNat = true → ((s.group g).thread lane.toNat).wait = some (.fence o scope) →
    (∀ l, (s.group g).fmask.getLsbD l = true → ∀ o' p' sc', ((s.group g).thread l).wait ≠ some (.fenceG o' sc')
      ∧ ((s.group g).thread l).wait ≠ some (.fencex o' p' sc')) →
    loadsStand (s.group g) lane.toNat = false → msgsStand s g scope = false →
    (∀ e ∈ ((s.group g).thread lane.toNat).loops.head?, e.stop ≠ ((s.group g).thread lane.toNat).pc) →
    let t := sendMarkers (fenceAt s g one scope) g one scope
    let f := ((t.group g).thread lane.toNat).fail
    (o.d.isV || o.d.isZero) = true → f.sound →
    exec (.fenceRelease g lane) s = .next (passDeliver ((clearFail t g one scope).modGroup g fun h =>
      match o.d with | .v n => h.setV lane.toNat n.toNat (statusWord scope [f]) | _ => h) g one))
  ∧ (∀ (o : Ops) (scope : Scope) (s : State) (gid : Nat), (o.d.isS || o.d.isZero) = true → (s.group gid).lds = [] →
    msgsStand s gid scope = false → (s.group gid).fmask ≠ 0#32 →
    (∀ l, (s.group gid).fmask.getLsbD l = true → ((s.group gid).thread l).wait = some (.fenceG o scope)) →
    let t := sendMarkers (fenceAt s gid 0xFFFFFFFF#32 scope) gid 0xFFFFFFFF#32 scope
    let fs := (lanesIn (s.group gid).fmask).map fun l => ((t.group gid).thread l).fail
    (∀ f ∈ fs, f.sound) →
    tryFenceG s gid = passDeliver ((clearFail t gid (s.group gid).fmask scope).modGroup gid fun h =>
      uniTo o.d ((statusWord scope fs).setWidth 64) h) gid (s.group gid).fmask)
  ∧ ∀ (o : Ops) (p : BitVec 5) (scope : Scope) (s : State) (gid : Nat), (o.d.isS || o.d.isZero) = true → pathsDone s gid p scope = true →
    (s.group gid).fmask ≠ 0#32 → (∀ l, (s.group gid).fmask.getLsbD l = true → ((s.group gid).thread l).wait = some (.fencex o p scope)) →
    let t := crossFence (if p.getLsbD 0 then sendMarkers (fenceAt s gid 0xFFFFFFFF#32 scope) gid 0xFFFFFFFF#32 scope else s) gid p p
    let fs := (lanesIn (s.group gid).fmask).map fun l => ((t.group gid).thread l).fail
    (∀ f ∈ fs, f.sound) →
    tryFencex s gid = passDeliver ((clearFail t gid (s.group gid).fmask scope).modGroup gid fun h =>
      uniTo o.d ((statusWord scope fs).setWidth 64) h) gid (s.group gid).fmask

/-- R29, R80, R82, R189, R204: the events of the load/store path. LOAD_WRITEBACK performs the accesses that it picks and that nothing must
precede, and writes the chosen units of what has performed; a thread's flags and its LDPOIS follow the last of its data, and LDC falls
when nothing is left. STORE_PERFORM reads a store's registers, each as at its issue or as it stands, and performs; with no lane picked
the store is only accepted, and STC falls. LDPOIS traps a thread whose data was poisoned. -/
def Obligations.LoadStoreEvents : Prop :=
  (∀ (g ix : Nat) (perf : Mask) (only : BitVec 128) (s : State) (r : LoadRec), (s.group g).lds[ix]? = some r → r.todo = [] →
    (r.vw.map fun w => (w.lane, w.reg)).Nodup → (∀ w ∈ r.vw, w.lane < 32) → (r.sw.map Prod.fst).Nodup →
    let on (w : VWrite) : Bool := only.getLsbD (unitOfV r.ins w)
    let onS (w : Nat × W64) : Bool := only.getLsbD (unitOfS r.ins w)
    let left (l : Nat) : Bool := r.vw.any (fun w => w.lane = l && !on w) || r.sw.any (fun w => !onS w)
    ∃ h, exec (.loadWriteback g ix ⟨perf, only⟩) s = .next (s.setGroup g h)
      ∧ (∀ w ∈ r.vw, on w = true → h.vreg w.lane w.reg = w.val)
      ∧ (∀ l n, l < 32 → (∀ w ∈ r.vw, on w = true → (w.lane, w.reg) ≠ (l, n)) → h.vreg l n = (s.group g).vreg l n)
      ∧ (∀ e ∈ r.sw, onS e = true → h.ureg e.1 = e.2)
      ∧ (∀ n, (∀ e ∈ r.sw, onS e = true → e.1 ≠ n) → h.ureg n = (s.group g).ureg n)
      ∧ (r.vw.all on && r.sw.all onS = true → h.lds = delNth ix (s.group g).lds)
      ∧ (r.vw.all on && r.sw.all onS = false → ∃ q, h.lds[ix]? = some q ∧ q.vw = r.vw.filter (fun w => !on w)
          ∧ q.sw = r.sw.filter (fun w => !onS w) ∧ h.lds.length = (s.group g).lds.length)
      ∧ { h with v := (s.group g).v, u := (s.group g).u, lds := (s.group g).lds, threads := (s.group g).threads } = s.group g
      ∧ ∀ l, l < 32 →
        let x := (s.group g).thread l
        let mine (e : Nat) : Bool := e == l && !left l
        h.thread l = { x with
          flags := (r.fl.filter fun e => mine e.1).foldl (fun f e => f ||| e.2) x.flags
          pend := match (r.pois.filter fun e => mine e.1).getLast? with | some e => some e.2 | none => x.pend })
  ∧ (∀ (g ix l : Nat) (s : State) (r : LoadRec) (a : Access), (s.group g).lds[ix]? = some r → ((s.group g).lds.map LoadRec.seq).Nodup →
    pickParts (1#32 <<< l) r.todo = [a] → a ∈ r.todo → (s.group g).before ⟨true, r.seq, r.ins, a⟩ = [] →
    let p := access s g r.ins a
    let q := r.arrive a p.1
    q.spent = false → q.fl = [] → q.pois = [] →
    exec (.loadWriteback g ix ⟨1#32 <<< l, 0#128⟩) s = .next (p.2.modGroup g fun h => { h with lds := setNth q ix h.lds }))
  ∧ (∀ (g ix : Nat) (s : State) (r : StoreRec), (s.group g).sts[ix]? = some r → r.taken = false →
    ∃ accs, exec (.storePerform g ix ⟨0#32, 0#128, 0#128⟩) s = .next (s.modGroup g fun h =>
      { h with sts := setNth { r with accs := accs, taken := true } ix h.sts }))
  ∧ (∀ (g ix k n : Nat) (m : Mask) (late : BitVec 128) (s : State) (o : Ops) (ch : Ch) (scope : Scope) (ord : MOrd) (size : Size) (seq : Nat)
      (a : Access), (s.group g).sts[ix]? = some ⟨seq, .st o ch scope ord size, [a], false⟩ → ((s.group g).sts.map StoreRec.seq).Nodup →
    (∀ q ∈ (s.group g).sts, q.accs ≠ []) → o.c = .v (BitVec.ofNat 8 k) → k + 4 ≤ 256 → n = bytesIn size → a.len = n → a.data.length = n →
    a.ofs = 0 → a.lane < 32 → m.getLsbD a.lane = true → a.formed o →
    let now : List Byte := ((List.range 4).flatMap fun j => bytesOf 4 ((s.group g).vreg a.lane (k + j)).toNat)
    let data := (List.range n).map fun j => if late.getLsbD (4 * a.lane + j / 4) then nth 0#8 j now else nth 0#8 j a.data
    let a' : Access := { a with data := data }
    let t := s.modGroup g fun h => { h with sts := setNth ⟨seq, .st o ch scope ord size, [a'], false⟩ ix h.sts }
    (t.group g).before ⟨false, seq, .st o ch scope ord size, a'⟩ = [] →
    exec (.storePerform g ix ⟨m, late, 0#128⟩) s =
      .next (access (s.modGroup g fun h => { h with sts := delNth ix h.sts }) g (.st o ch scope ord size) a').2)
  ∧ (∀ (g : Nat) (s : State) (o : Ops) (ch : Ch) (scope : Scope) (size : Size) (a : Access),
    let c := cidOf g
    let nt : Bool := ch = .nt
    let lu : Bool := ch = .lu
    (∀ ofs, a.tgt = .sp c ofs → (s.core c).lost = false →
      ((s.core c).stale = [] → (s.core c).spPois = [] →
        access s g (.ld o ch scope .plain size) a = (cleanBytes (s.spBytes c ofs a.len), s))
      ∧ access s g (.st o ch scope .plain size) a = ([], s.putSp c 0 0 ofs (a.bytes (.st o ch scope .plain size))))
    ∧ (∀ x, a.tgt = .glob [x] → x.kind = 0 → x.len = a.len → linksUp s → s.mem.isPois (x.pa / 128) = false →
      access s g (.ld o ch scope .plain size) a = (cleanBytes (s.mem.peeks x.pa x.len), s)
      ∧ (let u := s.notePath c x.pa
         a.data.length = a.len → a.ofs = 0 → access s g (.st o ch scope .plain size) a = ([], { u with mem := u.mem.pokes x.pa a.data })))
    ∧ ∀ x, a.tgt = .glob [x] → x.kind ≠ 0 → x.len = a.len → x.pa % 128 + x.len ≤ 128 → linksUp s → s.mem.isPois (x.pa / 128) = false →
      (∀ e ∈ (s.core c).l1, e.2.gone = false ∧ e.2.pois = false ∧ e.2.data.length = 128) →
      (access s g (.ld o ch scope .plain size) a).1 =
        cleanBytes ((List.range x.len).map fun k => viewByte s c (x.kind = 2) (x.pa + k))
      ∧ (a.lane < 32 → a.data.length = a.len → a.ofs = 0 →
        access s g (.st o ch scope .plain size) a = ([], storeXl s g (1#32 <<< a.lane) nt lu x a.data)))
  ∧ ∀ (g : Nat) (lane : BitVec 5) (s : State) (a : W64), ((s.group g).thread lane.toNat).pend = some a →
    ((s.group g).thread lane.toNat).wait = none → (s.group g).fmask.getLsbD lane.toNat = true →
    exec (.ldpois g lane) s = .next (deliver (s.modGroup g fun h => h.modThread lane.toNat fun x => { x with pend := none }) g
      [⟨lane.toNat, 0x01741001#32, a⟩])

/-- R2, R198, R199, R204, R215, R217: what stores leave for loads. Scratchpad bytes that the load/store path writes read back there as written
and everything else as before, while the other paths read the older bytes until a cross-path fence; stack bytes and bytes of SO pages
read back as written, every other byte as before; a store through a core's L1 is what the core's loads then read by the same kind of
mapping, and every other byte reads as before, or as memory has it where the L1 gave up a clean copy. -/
def Obligations.StoredBytesReadBack : Prop :=
  (∀ (s : State) (c ofs : Nat) (bs : List Byte),
    (s.setSp c ofs bs).spBytes c ofs bs.length = bs
    ∧ (∀ k, (k < ofs ∨ ofs + bs.length ≤ k) → (s.setSp c ofs bs).spBytes c k 1 = s.spBytes c k 1)
    ∧ (s.setSp c ofs bs).spPoisoned c ofs bs.length = false)
  ∧ (∀ (s : State) (c ofs word : Nat) (bs : List Byte),
    let t := s.putSp c 0 word ofs bs
    t.spBytes c ofs bs.length = bs ∧ t.spSee c 0 ofs bs.length = cleanBytes bs
    ∧ (∀ k, (k < ofs ∨ ofs + bs.length ≤ k) → t.spSee c 0 k 1 = s.spSee c 0 k 1)
    ∧ (∀ v, v = 1 ∨ v = 2 ∨ v = 3 → t.spSee c v ofs bs.length = s.spSee c v ofs bs.length)
    ∧ ((∀ e ∈ (s.core c).stale, e.prod < 5 ∧ e.view < 5) → ((t.showSp c 0x1F#5 0x1F#5 0).core c).stale = []))
  ∧ (∀ (t : Tbl Byte) (k : Nat) (bs : List Byte), tblBytes (putBytes t k bs) k bs.length = bs
    ∧ ∀ j, (j < k ∨ k + bs.length ≤ j) → tblBytes (putBytes t k bs) j 1 = tblBytes t j 1)
  ∧ (∀ (s : State) (gid : Nat) (m : Mask) (nt lu : Bool) (x : Xl) (bs : List Byte), s.mem.wf = true → x.kind = 0 → bs.length = x.len →
    (linksUp s → (storeXl s gid m nt lu x bs).mem.peeks x.pa x.len = bs)
    ∧ ∀ a, (a < x.pa ∨ x.pa + x.len ≤ a) → (storeXl s gid m nt lu x bs).mem.peek a = s.mem.peek a)
  ∧ ∀ (s : State) (gid : Nat) (m : Mask) (nt lu : Bool) (x : Xl) (bs : List Byte) (a : Nat), s.mem.wf = true → linksUp s → x.kind ≠ 0 →
    bs.length = x.len → x.pa % 128 + x.len ≤ 128 → Tbl.sorted (s.core (cidOf gid)).l1 = true →
    (∀ e ∈ (s.core (cidOf gid)).l1, e.2.data.length = 128 ∧ e.2.gone = false) →
    let uo : Bool := x.kind = 2
    let c := cidOf gid
    let t := storeXl s gid m nt lu x bs
    (x.pa ≤ a → a < x.pa + x.len → viewByte t c uo a = nth 0#8 (a - x.pa) bs)
    ∧ ((a < x.pa ∨ x.pa + x.len ≤ a) → Tbl.find (2 * (a / 128) + 1 - uo.toNat) (s.core c).l1 = none →
      viewByte t c uo a = viewByte s c uo a
      ∨ (∃ l, Tbl.find (2 * (a / 128) + uo.toNat) (s.core c).l1 = some l ∧ l.dirty.getLsbD (a % 128) = false)
        ∧ Tbl.find (2 * (a / 128) + uo.toNat) (t.core c).l1 = none ∧ viewByte t c uo a = t.mem.peek a)

/-! ## The matrix engine (09) -/

/-- R227–R237, R242–R253: a matrix instruction whose operands pass their checks enters the sequencer of its core, with the operands of
issue, and `mma.p` that of the core to its right too; the group then passes the slot. What turns one away: a stride out of
its limits raises MOPND, an operand in a region it may not use APERR, `mma.p` where its pair is not one MPAIR; the whole group traps
and nothing is queued. -/
def Obligations.MatrixOperationsQueue : Prop :=
  (∀ (i : Instr) (s : State), Issues i s →
    let gid := s.cur.gid
    let val := captured s
    let second (d : Opd) : W64 := match d with | .s n => s.here.ureg (n.toNat + 1) | _ => 0#64
    let x := here_ i s
    let from_ (u : State) (a b c c1 : W64) (xl : List (List Xl)) : Prop :=
      CompletesWith i s (enqueued u ⟨0, [], i, gid, 0, false, 0, xl, a, b, c, c1⟩)
    let goes (a b c c1 : W64) : Prop := from_ s a b c c1 []
    (∀ (o : Ops) (ru z : Bool), (i = .mma o ru z ∨ i = .mmaS o z ∨ (i = .mmaP o ru z ∧ pairOkAt s gid = true)) →
      (o.a.isV = true ∨ spHolds s gid (val o o.a) 128 (32 * (o.fmta.k * elemBits o.fmta / 8))) →
      spHolds s gid (val o o.b) 128 (128 * (o.fmtb.k * elemBits o.fmtb / 8)) →
      (o.fmta.isMx = true → spHolds s gid (val o o.c) 16 (32 * (o.fmta.k / 32))) →
      (o.fmtb.isMx = true → spHolds s gid (second o.c) 16 (128 * (o.fmtb.k / 32))) →
      goes (val o o.a) (val o o.b) (val o o.c) (second o.c))
    ∧ (∀ (o : Ops) (sel : AccSel), i = .accz o sel → goes 0 0 0 0)
    ∧ (∀ (o : Ops), i = .smxf o → goes 0 0 0 0)
    ∧ (∀ (o : Ops) (fmt : Fmt) (sat : Bool) (rm : Rm) (side : Side) (u : Use) (xl : List (List Xl)),
      (i = .accld o side fmt ∧ u = .load ∨ i = .accst o sat rm side fmt ∧ u = .store) →
      let row := 128 * (elemBits fmt / 8)
      let st := if val o o.b = 0#64 then row else (val o o.b).toNat
      (side = .data → row ≤ st ∧ st ≤ 2 ^ 24 ∧ (st = row ∨ st % 16 = 0)) →
      let step := match side with | .data => st | .ml => 8 | .fl => 4
      let len := match side with | .data => row | .ml => 8 | .fl => 4
      let s1 := if side = .fl then s else rereadRows s x (val o o.a) 32 step len
      rowsHold s1 gid u (val o o.a) (if side = .fl then 1 else 32) step len xl →
      from_ s1 (val o o.a) (if side = .data then val o o.b else 0) 0 0 xl)
    ∧ (∀ (o : Ops) (row : Bool), i = .accscl o row → (row = true → spHolds s gid (val o o.a) 128 128) → goes (val o o.a) 0 0 0)
    ∧ (∀ (o : Ops) (nv : BitVec 8), i = .smx o nv → spHolds s gid (val o o.c) 128 8192 → goes 0 (val o o.b) (val o o.c) 0)
    ∧ (∀ (o : Ops) (col : Bool), i = .mred o col → spHolds s gid (val o o.c) 128 (if col then 512 else 128) → goes 0 0 (val o o.c) 0)
    ∧ ∀ (o : Ops) (b8 : Bool) (xl : List (List Xl)), i = .mtrld o b8 →
      let len := if b8 then 128 else 256
      let st := if val o o.b = 0#64 then len else (val o o.b).toNat
      let s1 := rereadRows s x (val o o.a) (2 * 128 * 128 / len) st len
      len ≤ st → st ≤ 2 ^ 24 → st % 16 = 0 → rowsHold s1 gid .load (val o o.a) (2 * 128 * 128 / len) st len xl →
      spHolds s gid (val o o.c) 128 32768 →
      (region (val o o.a) = 0xFF → ∀ r, r < 2 * 128 * 128 / len →
        let src := ((val o o.a).extractLsb' 0 56).toNat + r * st
        let dst := ((val o o.c).extractLsb' 0 56).toNat
        src + len ≤ dst ∨ dst + 32768 ≤ src) →
      from_ s1 (val o o.a) (val o o.b) (val o o.c) 0 xl)
  ∧ (∀ (o : Ops) (ru z : Bool) (s : State), Issues (.mmaP o ru z) s → pairOkAt s s.cur.gid = false →
    TrapsAll (.mmaP o ru z) s 0x21805003#32 0#64)
  ∧ (∀ (i : Instr) (o : Ops) (fmt : Fmt) (sat : Bool) (rm : Rm) (s : State),
    (i = .accld o .data fmt ∨ i = .accst o sat rm .data fmt) → Issues i s →
    let st := captured s o o.b
    (st ≠ 0#64 ∧ (st.toNat < 128 * (elemBits fmt / 8) ∨ 2 ^ 24 < st.toNat ∨ st.toNat % 16 ≠ 0)) → TrapsAll i s 0x21805002#32 0#64)
  ∧ (∀ (o : Ops) (b8 : Bool) (s : State), Issues (.mtrld o b8) s →
    let st := captured s o o.b
    (st ≠ 0#64 ∧ (st.toNat < (if b8 then 128 else 256) ∨ 2 ^ 24 < st.toNat ∨ st.toNat % 16 ≠ 0)) →
    let len := if b8 then 128 else 256
    let s1 := rereadRows s (here_ (.mtrld o b8) s) (captured s o o.a) (2 * 128 * 128 / len) st.toNat len
    exec (.mtrld o b8) s = .next (deliver s1 s.cur.gid (trapAll s.cur.mask 0x21805002#32 0#64)))
  ∧ ∀ (i : Instr) (o : Ops) (nv : BitVec 8) (col : Bool) (s : State), (i = .smx o nv ∨ i = .mred o col) → Issues i s →
    let p := captured s o o.c
    region p ≠ 0xFF → TrapsAll i s 0x01740004#32 p

/-- R217, R227, R232, R235, R239, R240, R243, R260: a row of `mma`, `mma.s` or `mma.p` on one core: each element of D the rounded sum of the
exact products of a row of A with a row of B, as the matrix-operand path sees them, and of D unless Z; poisoned data gives the default
NaN, with its mark. The tile's flags word takes what the rounding raised, and nothing else changes. -/
def Obligations.MatrixProducts : Prop :=
  ∀ (o : Ops) (ru z : Bool) (e : SeqEnt) (s : State) (cid r : Nat),
    (e.ins = .mma o ru z ∨ e.ins = .mmaS o z ∨ e.ins = .mmaP o ru z) → r < 32 → o.kn ≤ o.fmta.k →
    (o.a.isV = true → o.fmta = .bf16) →
    let k := entTile s cid e o.d
    let nk := if o.kn = 0 then o.fmta.k else o.kn
    let lead := cidOf e.gid
    let sp (c : Nat) (p : W64) (n : Nat) : Nat := (s.posOf e.gid).1 * s.spLimit c + (p.extractLsb' 0 56).toNat + n
    let row (c : Nat) (f : Fmt) (p : W64) (n : Nat) : List MByte := s.spSee c 2 (sp c p (n * (f.k * elemBits f / 8))) ((nk * elemBits f + 7) / 8)
    let scale (c : Nat) (f : Fmt) (p : W64) (n : Nat) : List MByte := s.spSee c 2 (sp c p (n * (f.k / 32))) ((nk + 31) / 32)
    let elem (c : Nat) (f : Fmt) (p q : W64) (n j : Nat) : FVal :=
      operandElem f ((row c f p n).map Prod.fst) ((scale c f q n).map Prod.fst) j
    let bad (c : Nat) (f : Fmt) (p q : W64) (n : Nat) : Bool := (row c f p n).any Prod.snd || (f.isMx && (scale c f q n).any Prod.snd)
    let a (j : Nat) : FVal :=
      if o.a.isV then fmtBf.decode ((nth 0#32 (64 * r + j / 2) (s.core lead).aval).toNat / 2 ^ (16 * (j % 2)) % 2 ^ 16)
      else elem lead o.fmta e.a e.c r j
    let pois (n : Nat) : Bool := (!o.a.isV && bad lead o.fmta e.a e.c r) || bad cid o.fmtb e.b e.c1 n || (!z && tileMark (s.core cid) k r n)
    let res (n : Nat) : FR :=
      if pois n then ⟨0x7FC00000, 0#5⟩
      else mmaElem ((List.range nk).map a) ((List.range nk).map (elem cid o.fmtb e.b e.c1 n))
        (if z then none else some (fmt32.decode (tileAt (s.core cid) k r n).toNat))
    let gone := o.a.isV && !(s.core lead).amask.getLsbD r
    TileRowAfter s (matRow cid e r s) cid k r (fun n => BitVec.ofNat 32 (res n).bits) pois
      (if gone then 0#32 else wordMarked ((List.range 128).map res) ((List.range 128).any pois))

/-- R246–R250, R252, R253, R260: the other operations on a tile, a row at a time: `accld` widens its row, `accst` rounds it to the format and
writes it, `accscl` multiplies it, `smxf` divides it by the row sum, `mred` sums a row or the columns, `mtrld` writes a row as a
column, and `accz` clears the parts it names. What is formed from poisoned data is the default NaN and carries the mark on. -/
def Obligations.MatrixRowOperations : Prop :=
  (∀ (o : Ops) (fmt : Fmt) (e : SeqEnt) (s : State) (cid r : Nat), e.ins = .accld o .data fmt → fmt ∈ [Fmt.fp32, .bf16, .fp16] → r < 32 →
    let n := elemBits fmt / 8
    let src := matRead s cid e e.a (if e.b = 0#64 then 128 * n else e.b.toNat) r (128 * n)
    src.length = 128 * n →
    let part (j : Nat) : List MByte := (src.drop (n * j)).take n
    let bits (j : Nat) : Nat := natOf ((part j).map Prod.fst)
    let bad (j : Nat) : Bool := (part j).any Prod.snd
    let res (j : Nat) : FR :=
      if bad j then ⟨0x7FC00000, 0#5⟩
      else match fmt with
        | .bf16 => fmt32.conv .rne 0 false (fmtBf.decode (bits j))
        | .fp16 => fmt32.conv .rne 0 false (fmt16.decode (bits j))
        | _ => ⟨bits j, 0#5⟩
    TileRowAfter s (matRow cid e r s) cid (entTile s cid e o.d) r (fun j => BitVec.ofNat 32 (res j).bits) bad
      (wordMarked ((List.range 128).map res) ((List.range 128).any bad)))
  ∧ (∀ (o : Ops) (sat : Bool) (rm : Rm) (fmt : Fmt) (e : SeqEnt) (s : State) (cid r : Nat), e.ins = .accst o sat rm .data fmt → r < 32 →
    let n := elemBits fmt / 8
    let k := entTile s cid e o.c
    let bad := tileMark (s.core cid) k r
    let res (j : Nat) : FR :=
      let x := tileAt (s.core cid) k r j
      if bad j then ⟨match elemFmt fmt with | some f => (f.ofNan false).bits | none => 0, 0#5⟩
      else if fmt = .fp32 then ⟨x.toNat, 0#5⟩ else convElem fmt sat rm x.toNat
    let t := matWrite s cid e e.a (if e.b = 0#64 then 128 * n else e.b.toNat) r
      ((List.range 128).flatMap fun j => (bytesOf n (res j).bits).map fun b => (b, bad j))
    (∀ c, (t.core c).tiles = (s.core c).tiles ∧ (t.core c).tileP = (s.core c).tileP)
    ∧ TileRowAfter t (matRow cid e r s) cid k r (tileAt (s.core cid) k r) bad
        (wordMarked ((List.range 128).map res) ((List.range 128).any bad)))
  ∧ (∀ (o : Ops) (row : Bool) (e : SeqEnt) (s : State) (cid r : Nat), e.ins = .accscl o row → r < 32 →
    let k := entTile s cid e o.d
    let src := s.spSee cid 2 (entSp s cid e e.a (4 * r)) 4
    let f := if row then natOf (src.map Prod.fst) else e.a.toNat % 2 ^ 32
    let bad (j : Nat) : Bool := (row && src.any Prod.snd) || tileMark (s.core cid) k r j
    let res (j : Nat) : FR :=
      if bad j then ⟨0x7FC00000, 0#5⟩ else fmulAs fmt32 .rne (fmt32.decode (tileAt (s.core cid) k r j).toNat) (fmt32.decode f)
    TileRowAfter s (matRow cid e r s) cid k r (fun j => BitVec.ofNat 32 (res j).bits) bad
      (wordMarked ((List.range 128).map res) ((List.range 128).any bad)))
  ∧ (∀ (o : Ops) (e : SeqEnt) (s : State) (cid r : Nat), e.ins = .smxf o → r < 32 →
    let k := entTile s cid e o.d
    let bad (j : Nat) : Bool := tileMark (s.core cid) k r j || (Tbl.find (2 ^ 32 + 2 * (32 * k + r) + 1) (s.core cid).tileP).isSome
    let res (j : Nat) : FR :=
      if bad j then ⟨0x7FC00000, 0#5⟩
      else fdiv32 (tileAt (s.core cid) k r j).toNat (Tbl.get 0#32 (32 * k + r) (s.core cid).tileL).toNat
    TileRowAfter s (matRow cid e r s) cid k r (fun j => BitVec.ofNat 32 (res j).bits) bad
      (wordMarked ((List.range 128).map res) ((List.range 128).any bad)))
  ∧ (∀ (o : Ops) (e : SeqEnt) (s : State) (cid r : Nat), e.ins = .mred o false → r < 32 →
    let k := entTile s cid e o.a
    let x := onesSum ((List.range 128).map fun j => ((tileAt (s.core cid) k r j).toNat, tileMark (s.core cid) k r j))
    TileRowAfter (s.putSp cid 2 0 (entSp s cid e e.c (4 * r)) (bytesOf 4 x.bits)) (matRow cid e r s) cid k r (tileAt (s.core cid) k r)
      (tileMark (s.core cid) k r) (wordMarked [⟨x.bits, x.fl⟩] x.ps))
  ∧ (∀ (o : Ops) (e : SeqEnt) (s : State) (cid : Nat), e.ins = .mred o true →
    let k := entTile s cid e o.a
    let col (j : Nat) : MRes := onesSum ((List.range 32).map fun r => ((tileAt (s.core cid) k r j).toNat, tileMark (s.core cid) k r j))
    TileRowAfter (s.putSp cid 2 0 (entSp s cid e e.c 0) ((List.range 128).flatMap fun j => bytesOf 4 (col j).bits)) (matWhole cid e s)
      cid k 0 (tileAt (s.core cid) k 0) (tileMark (s.core cid) k 0)
      (wordMarked ((List.range 128).map fun j => ⟨(col j).bits, (col j).fl⟩) ((List.range 128).any fun j => (col j).ps)))
  ∧ (∀ (xs : List (Nat × Bool)), (∃ x ∈ xs, x.2 = true) → onesSum xs = ⟨0x7FC00000, 0#5, true⟩)
  ∧ (∀ (o : Ops) (b8 : Bool) (e : SeqEnt) (s : State) (cid r : Nat), e.ins = .mtrld o b8 → r < (if b8 then 256 else 128) →
    let n := if b8 then 1 else 2
    let src := matRead s cid e e.a (if e.b = 0#64 then 128 * n else e.b.toNat) r (128 * n)
    src.length = 128 * n →
    let at_ (j : Nat) : Nat := entSp s cid e e.c (256 * j + r * n)
    let t := matRow cid e r s
    CoreOnly s t cid
    ∧ { (t.core cid) with sp := (s.core cid).sp, spPois := (s.core cid).spPois, stale := (s.core cid).stale } = s.core cid
    ∧ (∀ j, j < 128 → t.spSee cid 2 (at_ j) n = (src.drop (n * j)).take n
      ∧ t.spBytes cid (at_ j) n = ((src.drop (n * j)).take n).map Prod.fst)
    ∧ ∀ a, (∀ j, j < 128 → a < at_ j ∨ at_ j + n ≤ a) →
      t.spBytes cid a 1 = s.spBytes cid a 1 ∧ ∀ v, v < 4 → t.spSee cid v a 1 = s.spSee cid v a 1)
  ∧ ∀ (o : Ops) (sel : AccSel) (e : SeqEnt) (s : State) (cid : Nat), e.ins = .accz o sel →
    let k := entTile s cid e o.d
    let t := matWhole cid e s
    CoreOnly s t cid
    ∧ { (t.core cid) with tiles := (s.core cid).tiles, tileM := (s.core cid).tileM, tileL := (s.core cid).tileL, tileF := (s.core cid).tileF
                          tileP := (s.core cid).tileP }
      = s.core cid
    ∧ (∀ key, Tbl.get 0#32 key (t.core cid).tiles =
      if (sel = .all ∨ sel = .d) ∧ key / 4096 = k then 0#32 else Tbl.get 0#32 key (s.core cid).tiles)
    ∧ (∀ key, Tbl.get 0#32 key (t.core cid).tileM =
      if (sel = .all ∨ sel = .ml) ∧ key / 32 = k then 0xFF800000#32 else Tbl.get 0#32 key (s.core cid).tileM)
    ∧ (∀ key, Tbl.get 0#32 key (t.core cid).tileL =
      if (sel = .all ∨ sel = .ml) ∧ key / 32 = k then 0#32 else Tbl.get 0#32 key (s.core cid).tileL)
    ∧ (∀ r n, r < 32 → n < 128 → tileMark (t.core cid) k r n = if sel = .all ∨ sel = .d then false else tileMark (s.core cid) k r n)
    ∧ ∀ key, Tbl.get 0#32 key (t.core cid).tileF =
      if (sel = .all ∨ sel = .fl) ∧ key = k then 0#32 else Tbl.get 0#32 key (s.core cid).tileF

/-- R251, R260: one row of the online softmax. Columns past the valid ones are 0; the new maximum is at least the old one and every valid
score where no NaN enters; the weight of a score that is the maximum is 1.0, and that of −∞ is 0; scores that are all −∞ under a maximum
of −∞ leave O, M and L as they were. The row of the tile, its side registers and the weights in the scratchpad are written, and nothing
else. -/
def Obligations.OnlineSoftmaxRow : Prop :=
  (∀ (o : Ops) (nv : BitVec 8) (e : SeqEnt) (s : State) (cid r : Nat), e.ins = .smx o nv → r < 32 → (s.core cid).tileP = [] →
    let k := entTile s cid e o.d
    let cols := if nv = 0#8 then 128 else nv.toNat
    let row (k : Nat) : List Nat := (List.range 128).map fun j => (tileAt (s.core cid) k r j).toNat
    let x := smxRow (e.b.toNat % 2 ^ 32) cols (row (entTile s cid e o.a)) (row k)
      (Tbl.get 0#32 (32 * k + r) (s.core cid).tileM).toNat (Tbl.get 0#32 (32 * k + r) (s.core cid).tileL).toNat
    let t := s.putSp cid 2 0 (entSp s cid e e.c (256 * r)) (x.p.flatMap (bytesOf 2))
    TileRowAfter (t.modCore cid fun c => setSide c k r ⟨x.m, 0#5, false⟩ ⟨x.l, 0#5, false⟩) (matRow cid e r s) cid k r
      (fun j => BitVec.ofNat 32 (nth 0 j x.o)) (fun _ => false) (x.fl.setWidth 32))
  ∧ (∀ (o : Ops) (nv : BitVec 8) (e : SeqEnt) (s : State) (cid r : Nat), e.ins = .smx o nv → r < 32 →
    let k := entTile s cid e o.d
    (∃ j, j < (if nv = 0#8 then 128 else nv.toNat) ∧ j < 128 ∧ tileMark (s.core cid) (entTile s cid e o.a) r j = true) →
    let t := matRow cid e r s
    (∀ j, j < 128 → tileAt (t.core cid) k r j = 0x7FC00000#32 ∧ tileMark (t.core cid) k r j = true)
    ∧ Tbl.get 0#32 (32 * k + r) (t.core cid).tileM = 0x7FC00000#32 ∧ Tbl.get 0#32 (32 * k + r) (t.core cid).tileL = 0x7FC00000#32
    ∧ (Tbl.get 0#32 k (t.core cid).tileF).getLsbD 5 = true)
  ∧ ∀ (scale cols m l : Nat) (sc o : List Nat), cols ≤ 128 → sc.length = 128 → o.length = 128 → (∀ x ∈ sc, x < 2 ^ 32) → m < 2 ^ 32 →
    let x := smxRow scale cols sc o m l
    let score (j : Nat) : Nat := (fmulAs fmt32 .rne (fmt32.decode scale) (fmt32.decode (nth 0 j sc))).bits
    let plain (v : Nat) : Prop := (fmt32.decode v).isNan = false
    let le (v w : Nat) : Prop := (fcmpSpec .le (BitVec.ofNat 32 v) (BitVec.ofNat 32 w)).1 = true
    x.o.length = 128 ∧ x.p.length = 128
    ∧ (∀ j, cols ≤ j → nth 0 j x.p = 0)
    ∧ ((m = 0xFF800000 ∧ ∀ j, j < cols → score j = 0xFF800000) → x.o = o ∧ x.m = m ∧ x.l = l ∧ x.p = List.replicate 128 0)
    ∧ ((plain m ∧ ∀ j, j < cols → plain (score j)) → plain x.m ∧ le m x.m ∧ ∀ j, j < cols → le (score j) x.m)
    ∧ (¬(m = 0xFF800000 ∧ ∀ j, j < cols → score j = 0xFF800000) →
      (plain m ∧ ∀ j, j < cols → plain (score j)) → ∀ j, j < cols →
        (score j = 0xFF800000 → nth 0 j x.p = 0)
        ∧ (score j ≠ 0xFF800000 → (fcmpSpec .eq (BitVec.ofNat 32 (score j)) (BitVec.ofNat 32 x.m)).1 = true → nth 0 j x.p = 0x3F80))

/-- R241, R254–R256, R299, R303: the engine's events. MATRIX_OP_START begins the operation at the head of the queues it needs and takes a
varying A, from the latch that holds it or else from the registers, some of which it may have read before, with +0 for the threads that
have exited; a discarded operation leaves instead. MATRIX_OP_RETIRE performs its remaining rows in order on every core it spans, and the
operation leaves their queues; where no operation can begin or end, nothing changes. -/
def Obligations.MatrixEngineSteps : Prop :=
  (∀ (c : Nat) (s : State) (e : SeqEnt) (rest : List SeqEnt), (s.core c).mseq = e :: rest → matHead s e = true → c ∈ matCores e →
    (e.started = false → e.old ≠ 2 → entHalted s e = false → ∃ t, exec (.matrixOpStart c) s = .next t
      ∧ (∀ d, (t.core d).mseq = if d ∈ matCores e then
          (s.core d).mseq.map fun x => if x.ser = e.ser ∧ x.gid = e.gid then { e with started := true } else x
        else (s.core d).mseq)
      ∧ (∀ o n z, (e.ins = .mma o true z ∨ e.ins = .mma o false z ∨ e.ins = .mmaP o true z ∨ e.ins = .mmaP o false z) → o.a = .v n →
        let lead := cidOf e.gid
        let read (l j : Nat) : W32 := match Tbl.find (64 * l + j) e.areg with
          | some w => w
          | none => if (s.group e.gid).fmask.getLsbD l then (s.group e.gid).vreg l (n.toNat + j) else 0#32
        (t.core lead).amask = (s.group e.gid).fmask
        ∧ ∀ l j, l < 32 → j < 64 → nth 0#32 (64 * l + j) (t.core lead).aval =
          match (s.core lead).latch with
          | some (k, ws) => if k = 256 * e.gid + n.toNat then nth 0#32 (64 * l + j) ws else read l j
          | none => read l j)
      ∧ (∀ d, { (t.core d) with mseq := (s.core d).mseq, aval := (s.core d).aval, amask := (s.core d).amask, latch := (s.core d).latch }
        = s.core d)
      ∧ { t with cores := s.cores } = s)
    ∧ (e.started = false → e.old = 2 → exec (.matrixOpStart c) s = .next (popEnt s e))
    ∧ (e.started = true → e.old ≠ 2 →
      let rows (d : Nat) (t : State) : State :=
        if matRows e.ins = 0 then matWhole d e t else ((List.range (matRows e.ins)).drop e.row).foldl (fun t r => matRow d e r t) t
      let t := popEnt ((matCores e).foldl (fun t d => rows d t) s) e
      exec (.matrixOpRetire c) s = .next (releaseRestored t (s.tidOf e.gid))
      ∧ (∀ k, (t.team k).st ≠ .restoring → releaseRestored t k = t ∨ (t.clusterOf k).isSome = true))
    ∧ (e.started = true → exec (.matrixOpStart c) s = .next s)
    ∧ (e.started = false → exec (.matrixOpRetire c) s = .next s))
  ∧ (∀ (c : Nat) (s : State) (e : SeqEnt) (rest : List SeqEnt), (s.core c).mseq = e :: rest →
    (matHead s e = false → exec (.matrixOpStart c) s = .next s ∧ exec (.matrixOpRetire c) s = .next s)
    ∧ (entHalted s e = true → exec (.matrixOpStart c) s = .next s))
  ∧ ∀ (c : Nat) (s : State), (s.core c).mseq = [] → exec (.matrixOpStart c) s = .next s ∧ exec (.matrixOpRetire c) s = .next s

/-! ## Copies, baskets and synchronisation words (10) -/

/-- R263–R267, R281–R286: the copy unit's instructions. A 16-byte store of a uniform pair into region 0xFC is a copy command, which joins
the group's waiting commands and CPC; elsewhere it is the plain store. `barinit` and `barexp` set the word, `barpoll` reads it;
`barwait`, `bwait` and `bseal` hold the group until their conditions hold, and then pass with their results. -/
def Obligations.CopyUnitInstructions : Prop :=
  (∀ (i : Instr) (o : Ops) (n : BitVec 6) (s : State),
    (i = .copy o ∨ (∃ ch scope, i = .st o ch scope .plain .b128) ∧ o.copyShape = true) → Issues i s → o.c = .s n →
    let gid := s.cur.gid
    let cid := cidOf gid
    let a := addrOf s.here (s.env gid) o 0
    let w : BitVec 128 := s.here.ureg (n.toNat + 1) ++ s.here.ureg n.toNat
    region a = 0xFC → a.extractLsb' 10 46 = 0#46 → a.extractLsb' 0 7 = 0#7 →
    let mem := memberCores s (s.tidOf gid)
    let cmd : CopyCmd := ⟨(a.extractLsb' 7 3).toNat, w, s.here.bcount.toNat, (s.core cid).cseq, mem, o,
      rd64 s.here (s.env gid) 0#32 0 o.a, indexOf s.here (s.env gid) o 0⟩
    let spare := w.extractLsb' 122 6 ≠ 0#6 ∨ w.extractLsb' 56 8 ≠ 0#8 ∨ w.extractLsb' 5 3 ≠ 0#3
    match s.tmplOf (s.tidOf gid) (w.extractLsb' 0 5).toNat with
    | none => TrapsAll i s 0x21906002#32 0#64
    | some tb =>
      let t := parseTmpl tb
      let flat := t.kind = 0 ∨ t.kind = 2 ∨ t.kind = 4
      let land := landAt s (s.tidOf gid) w
      let sync := wordAt s (s.tidOf gid) t w
      let lim := s.spLimit cid
      let own := cid ∈ receivers t mem cid
      if spare ∨ (w.extractLsb' 64 24 ≠ 0#24 ∧ flat) then TrapsAll i s 0x21906002#32 0#64
      else if t.mcast ≠ 0#12 ∧ (mem = [] ∨ 2 ^ mem.length ≤ t.mcast.toNat) then TrapsAll i s 0x21906003#32 0#64
      else if own ∧ (lim < land + t.extent ∨ lim < sync + 16) then TrapsAll i s 0x01740005#32 0#64
      else if own ∧ sync < land + t.extent ∧ land < sync + 16 then TrapsAll i s 0x21906004#32 0#64
      else CompletesWith i s ((s.modGroup gid fun g => { g with cps := g.cps ++ [cmd] }).modCore cid
        fun c => { c with cseq := c.cseq + 1 }))
  ∧ (∀ (o : Ops) (s : State) (found : List Access), Issues (.copy o) s → region (addrOf s.here (s.env s.cur.gid) o 0) ≠ 0xFC →
    let x := here_ (.copy o) s
    let once := o.uniAddr && o.c.isUni
    let f : Form := ⟨.store, 16, 1, false, false, once⟩
    let s1 := rereadAll x once f (laneAddr s.here x.env o) s
    checkAll x once f (laneAddr s.here x.env o) s1 = (found, []) → (∀ a ∈ found, isDev a.tgt = false) →
    let accs := found.map fun a => { a with data := dataBytes s.here x.env (a.lane % 32) o.c 16 }
    CompletesWith (.copy o) s (if found = [] then s1 else s1.modGroup x.gid fun g => newStore g (.st o .normal .thr .plain .b128) accs))
  ∧ (∀ (i : Instr) (o : Ops) (s : State), (i = .barinit o ∨ i = .barexp o ∨ i = .barpoll o) → Issues i s →
    let gid := s.cur.gid
    let cid := cidOf gid
    let p := captured s o o.a
    let at_ := (s.posOf gid).1 * s.spLimit cid + (p.extractLsb' 0 56).toNat
    let old (k : Nat) : Nat := natOf (s.spBytes cid (at_ + 4 * k) 4)
    let word (target count gen err : Nat) : List Byte := bytesOf 4 target ++ bytesOf 4 count ++ bytesOf 4 gen ++ bytesOf 4 err
    let target := (captured s o o.b).toNat % 2 ^ 32
    if region p ≠ 0xFF then TrapsAll i s 0x01740004#32 p
    else if (p.extractLsb' 0 56).toNat % 16 ≠ 0 then TrapsAll i s 0x01740001#32 p
    else if s.spLimit cid < (p.extractLsb' 0 56).toNat + 16 then TrapsAll i s 0x01740005#32 p
    else (i = .barinit o → CompletesWith i s (s.setSp cid at_ (word target 0 0 0)))
      ∧ (i = .barexp o → CompletesWith i s (s.setSp cid at_
        (if target = 0 then word 0 (old 1) (old 2) (old 3) else word target (old 1 % target) ((old 2 + old 1 / target) % 2 ^ 32) (old 3))))
      ∧ ∀ n, i = .barpoll o → o.d = .s n →
        CompletesWith i s (s.modGroup gid fun g => g.setU n.toNat (BitVec.ofNat 32 (old 3) ++ BitVec.ofNat 32 (old 2))))
  ∧ (∀ (o : Ops) (p : BitVec 5) (gn : Bool) (s : State), Issues (.barwait o p gn) s → o.g = Guard.always →
    (∃ k, wordPtr s s.cur.gid (captured s o o.a) = .ok k) →
    exec (.barwait o p gn) s = .next (tryBarwait (waitingIn (.barwait o p gn) s) s.cur.gid))
  ∧ (∀ (o : Ops) (s : State), Issues (.bwait o) s → o.g = Guard.always →
    exec (.bwait o) s = .next (tryBwait (waitingIn (.bwait o) s) s.cur.gid))
  ∧ (∀ (o : Ops) (s : State), Issues (.bseal o) s → o.g = Guard.always →
    exec (.bseal o) s = .next (tryBseal (waitingIn (.bseal o) s) s.cur.gid))
  ∧ (∀ (o : Ops) (p : BitVec 5) (gn : Bool) (s : State) (gid at_ : Nat), (o.d.isS || o.d.isZero) = true → (s.group gid).fmask ≠ 0#32 →
    (∀ l, (s.group gid).fmask.getLsbD l = true → ((s.group gid).thread l).wait = some (.barwait o p gn)) →
    wordPtr s gid (rd64 (s.group gid) (s.env gid) o.imm 0 o.a) = .ok at_ →
    let old (k : Nat) : W32 := BitVec.ofNat 32 (natOf (s.spBytes (cidOf gid) (at_ + 4 * k) 4))
    let v := rd64 (s.group gid) (s.env gid) o.imm 0 o.b
    let go := if gn then old 2 ≠ v.extractLsb' 0 32 else (old 2).getLsbD 0 ≠ v.getLsbD 0
    let l1 := if p.getLsbD 0 then l1Invalidate (settleAll s gid) (cidOf gid) true true else s
    let t := l1.showSp (cidOf gid) 0x0A#5 p (at_ + 1)
    exec (.barwaitRelease gid) s = .next (tryBseal (tryBwait (tryBarwait s gid) gid) gid)
    ∧ (go → tryBarwait s gid = passDeliver (t.modGroup gid fun g => uniTo o.d (old 3 ++ old 2) g) gid (s.group gid).fmask)
    ∧ (¬go → tryBarwait s gid = s))
  ∧ (∀ (o : Ops) (s : State) (gid : Nat), (s.group gid).fmask ≠ 0#32 →
    (∀ l, (s.group gid).fmask.getLsbD l = true → ((s.group gid).thread l).wait = some (.bwait o)) →
    (unfinished s gid ≤ o.imm.toNat → tryBwait s gid = passDeliver s gid (s.group gid).fmask)
    ∧ (o.imm.toNat < unfinished s gid → tryBwait s gid = passDeliver s gid 0#32))
  ∧ ∀ (o : Ops) (s : State) (gid : Nat), (o.d.isS || o.d.isZero) = true → (s.group gid).fmask ≠ 0#32 →
    (∀ l, (s.group gid).fmask.getLsbD l = true → ((s.group gid).thread l).wait = some (.bseal o)) →
    (openBusy s gid = false ∨ unfinished s gid < 8 →
      tryBseal s gid = passDeliver (s.modGroup gid fun g => { uniTo o.d (g.bcount.setWidth 64) g with bcount := g.bcount + 1#32 })
        gid (s.group gid).fmask)
    ∧ (openBusy s gid = true → 8 ≤ unfinished s gid → tryBseal s gid = s)

/-- R263, R269, R274, R284: `tset`. Its pointer is checked at issue; the group waits until every copy command that its team issued earlier on
the core has been accepted; the image is then read and installed, or CPTMPL raised with the slot unchanged. An image is refused for a
reserved kind or rounding mode, an extent above 2 MiB, or an EXPECT that is not the bytes landed. -/
def Obligations.TemplatesInstall : Prop :=
  (∀ (o : Ops) (s : State), Issues (.tset o) s → o.g = Guard.always → (s.core (cidOf s.cur.gid)).tsq.find? (fun e => e.1 = s.cur.gid) = none →
    let a := captured s o o.a
    ((∃ acc, tmplAccess s s.cur.gid a = .ok acc) →
      let q := (s.core (cidOf s.cur.gid)).cseq
      exec (.tset o) s = .next (tryTset ((waitingIn (.tset o) s).modCore (cidOf s.cur.gid)
        fun c => { c with cseq := q + 1, tsq := c.tsq ++ [(s.cur.gid, q)] }) s.cur.gid))
    ∧ ∀ f, tmplAccess s s.cur.gid a = .error f → s.cur.mask &&& s.here.tlanes = 0#32 → endsJob s s.cur.gid f = false →
      TrapsAll (.tset o) s f a)
  ∧ (∀ (o : Ops) (s : State) (gid q : Nat), (s.group gid).fmask ≠ 0#32 →
    (∀ l, (s.group gid).fmask.getLsbD l = true → ((s.group gid).thread l).wait = some (.tset o)) →
    (s.core (cidOf gid)).tsq.find? (fun e => e.1 = gid) = some (gid, q) →
    let a := rd64 (s.group gid) (s.env gid) o.imm 0 o.a
    let slot := (rd64 (s.group gid) (s.env gid) o.imm 0 o.b).toNat
    let cid := cidOf gid
    let t := s.modCore cid fun c => { c with tsq := c.tsq.filter fun e => e.1 != gid }
    let p := tmplImage t gid o a
    ((∃ x ∈ waitingCmds s cid, s.tidOf x.gid = s.tidOf gid ∧ x.cmd.seq < q) → exec (.tsetInstall gid) s = .next s)
    ∧ ((∀ x ∈ waitingCmds s cid, s.tidOf x.gid = s.tidOf gid → q ≤ x.cmd.seq) →
      (∀ b, p.1 = .ok b → slot ≤ 31 → (parseTmpl b).ok = true → exec (.tsetInstall gid) s = .next (passDeliver
          (p.2.modCore cid fun c => { c with tmpl := Tbl.put (32 * (s.tidOf gid % 8) + slot) b c.tmpl }) gid (s.group gid).fmask))
      ∧ (∀ b, p.1 = .ok b → 31 < slot ∨ (parseTmpl b).ok = false →
        exec (.tsetInstall gid) s = .next (deliver p.2 gid (trapAll (s.group gid).fmask 0x21906001#32 0#64)))
      ∧ ∀ f, p.1 = .error f → exec (.tsetInstall gid) s = .next (deliver p.2 gid (trapAll (s.group gid).fmask f a))))
  ∧ ∀ b : BitVec 512, (parseTmpl b).ok = true →
    let w (i n : Nat) : Nat := (b.extractLsb' (8 * i) (8 * n)).toNat
    let kind := (b.extractLsb' 0 4).toNat
    let dfmt := Fmt.ofCode (b.extractLsb' 8 4)
    let row := w 0x10 2 * elemBits dfmt / 8
    let pitch := if w 0x16 2 = 0 then row else 16 * w 0x16 2
    kind ≤ 4 ∧ (b.extractLsb' 12 3).toNat ≤ 4 ∧ b.extractLsb' 28 4 = 0#4
    ∧ (1 ≤ w 0x10 2 ∧ w 0x10 2 ≤ 4096) ∧ (1 ≤ w 0x12 2 ∧ w 0x12 2 ≤ 4096) ∧ (1 ≤ w 0x14 2 ∧ w 0x14 2 ≤ 4096)
    ∧ (kind ≠ 1 → kind ≠ 3 → w 0x14 2 = 1 ∧ w 0x20 4 = 1) ∧ (kind = 0 ∨ kind = 4 → w 0x30 8 = 0)
    ∧ (kind = 3 → w 0x08 8 = 0 ∧ w 0x18 4 = 0 ∧ w 0x1C 4 = 0 ∧ w 0x20 4 = 0 ∧ w 0x28 8 = 0 ∧ w 0x30 8 = 0)
    ∧ (kind ≠ 3 → w 0x0F 1 ≤ 0xFA) ∧ row % 16 = 0 ∧ row ≤ pitch
    ∧ w 0x24 4 = w 0x14 2 * w 0x12 2 * row ∧ (w 0x14 2 * w 0x12 2 - 1) * pitch + row ≤ 2 ^ 21

/-- R82, R267, R268, R271–R273, R289: acceptance and what a command lands. The oldest waiting command of a channel with room leaves CPC and
captures its template, its word, of its issue or as its registers stand, and the accession; a footprint outside the job's leases ends the
job. A row that exists is read at SRC plus its plane, its row and its column, each element converted in its place; columns past the
source's width, and rows that do not exist, are zeros; a poisoned element marks the bytes it lands in. -/
def Obligations.CopiesAcceptAndRead : Prop :=
  (∀ (cid ch gid : Nat) (late : Bool) (s : State) (k : CopyCmd) (n : BitVec 6) (tb : BitVec 512),
    let x : Waiting := ⟨gid, true, (s.jobOf gid).map fun j => j.r, k⟩
    x ∈ waitingCmds s cid → k.chan = ch → (∀ y ∈ waitingCmds s cid, y.cmd.chan = ch → y ≠ x → k.seq < y.cmd.seq) → k.ops.c = .s n →
    let now : BitVec 128 := (s.group gid).ureg (n.toNat + 1) ++ (s.group gid).ureg n.toNat
    let w := if late && (copyFault s gid now).isNone then now else k.word
    s.tmplOf (s.tidOf gid) (w.extractLsb' 0 5).toNat = some tb →
    let full := 16 ≤ ((s.core cid).copies.filter fun y => y.chan = ch).length
    let held := ∃ e ∈ (s.core cid).tsq, s.tidOf e.1 = s.tidOf gid ∧ e.2 < k.seq
    let t := s.modGroup gid fun g => { g with cps := g.cps.filter fun y => y.seq != k.seq }
    let pick : CopyPick := ⟨ch, if late then 3#4 else 0#4⟩
    (full ∨ held → exec (.copyAccept cid pick) s = .next s)
    ∧ (¬full → ¬held →
      (∀ j, s.jobOf gid = some j → footprintLeased j.r.leases (parseTmpl tb) w = false →
        exec (.copyAccept cid pick) s = .next (endJob t (s.tidOf gid) fwLEASEOUT true))
      ∧ ((∀ j, s.jobOf gid = some j → footprintLeased j.r.leases (parseTmpl tb) w = true) →
        exec (.copyAccept cid pick) s = .next (t.modCore cid fun c => { c with copies := c.copies ++
          [⟨gid, true, s.tidOf gid, k.basket, ch, tb, w, (s.jobOf gid).map fun j => j.r,
            match s.jobOf gid with | some j => j.r.jacc | none => (s.part (s.pnum cid)).aacc, k.mem, none, [], [], none, false⟩] }))))
  ∧ (∀ (x : Copy) (t : Tmpl) (n : Nat) (src : List MByte), t.tw * elemBits t.dfmt % 8 = 0 →
    let val := natOf (src.map Prod.fst)
    let row := landRow x t n (some src)
    let out := natOf (row.map Prod.fst)
    let cols := min t.tw (t.dim0 - t.col0 x.word)
    let db := elemBits t.dfmt
    let sb := elemBits t.sfmt
    cols * sb ≤ 8 * src.length →
    row.length = t.rowBytes
    ∧ (∀ j, j < t.tw → out / 2 ^ (db * j) % 2 ^ db =
      if j < cols then convCopy t.sfmt t.dfmt t.rm t.sat (srBits t.srkey x.word (n * t.tw + j)) (val / 2 ^ (sb * j) % 2 ^ sb) % 2 ^ db else 0)
    ∧ ∀ i, i < t.rowBytes → (((row[i]?).map Prod.snd = some true) ↔
      ∃ j k b, j < cols ∧ db * j < 8 * (i + 1) ∧ 8 * i < db * (j + 1) ∧ sb * j < 8 * (k + 1) ∧ 8 * k < sb * (j + 1) ∧ src[k]? = some (b, true)))
  ∧ (∀ (x : Copy) (t : Tmpl) (n : Nat), landRow x t n none = List.replicate t.rowBytes (0#8, false))
  ∧ ∀ (t : Tmpl) (w : BitVec 128) (idx : Nat → Nat) (n : Nat), t.kind ≠ 3 → n < t.td * t.th → (t.kind = 1 ∨ t.td = 1) →
    let cx := (w.extractLsb' 8 24).toNat
    let cy := (w.extractLsb' 32 24).toNat
    let cz := (w.extractLsb' 64 24).toNat
    let row := if t.kind = 2 then idx n else cy * t.th + n % t.th
    let plane := if t.kind = 1 then cz * t.td + n / t.th else 0
    let col := (if t.kind = 2 then cy else cx) * t.tw
    t.rowAddr w idx n = if row < t.dim1 ∧ plane < t.dim2 ∧ col < t.dim0 ∧ t.tw ≠ 0 then
      some (t.src + BitVec.ofNat 64 plane * t.str2 + BitVec.ofNat 64 row * t.str1 + BitVec.ofNat 64 (col * elemBits t.sfmt / 8)) else none

/-- R275, R276, R280, R289: how a command lands. A part whose source is read well over live paths is written to the receiver's scratchpad and
counted in its word, whose state does not depend on how the bytes are split; else the command becomes the curator's, which lands its
parts rerouted or poisoned, with CUR and what they met in ERR, or ends the job of a receiver out of reach. A failing source read ends the
issuing job, and the command lands nothing more. -/
def Obligations.CopiesLand : Prop :=
  (∀ (s : State) (path cid at_ n m e f : Nat), natOf (s.spBytes cid (at_ + 4) 4) + n + m < 2 ^ 32 → e < 32 → f < 32 →
    let w (u : State) : List Byte := u.spBytes cid at_ 16
    w (arrive (arrive s path cid at_ n e) path cid at_ m f) = w (arrive s path cid at_ (n + m) (e ||| f)))
  ∧ (∀ (s : State) (path cid at_ n err : Nat), err < 32 →
    let old (k : Nat) : Nat := natOf (s.spBytes cid (at_ + 4 * k) 4)
    let count := (old 1 + n) % 2 ^ 32
    (arrive s path cid at_ n err).spBytes cid at_ 16 =
      if old 0 = 0 then bytesOf 4 0 ++ bytesOf 4 count ++ bytesOf 4 (old 2) ++ bytesOf 4 (old 3 ||| err ||| 32)
      else bytesOf 4 (old 0) ++ bytesOf 4 (count % old 0) ++ bytesOf 4 ((old 2 + count / old 0) % 2 ^ 32) ++ bytesOf 4 (old 3 ||| err))
  ∧ (∀ (cid ix rx bytes : Nat) (s : State) (x : Copy) (hs : List Share) (h : Share), (s.core cid).copies[ix]? = some x →
    x.shares = some hs → hs[rx]? = some h → h.begun = true →
    let t := parseTmpl x.tmpl
    let p := nextPart x t h (partLen t.dfmt bytes)
    let x1 := readPart s x p
    (x.cur = false → partDead s cid h.cid p = false → (∀ b ∈ partBytes x1 t p, b.2 = false) →
      exec (.copyArrival cid ix rx bytes) s = .next (landPart s cid ix rx x1 hs h p false 0))
    ∧ (x.cur = false → partDead s cid h.cid p = true →
      exec (.copyArrival cid ix rx bytes) s = .next (s.modCore cid fun c => { c with copies := setNth { x with cur := true } ix c.copies }))
    ∧ (x.cur = false → partDead s cid h.cid p = false → (∃ b ∈ partBytes x1 t p, b.2 = true) →
      exec (.copyArrival cid ix rx bytes) s = .next (s.modCore cid fun c => { c with copies := setNth { x1 with cur := true } ix c.copies }))
    ∧ (x.cur = false → ∀ how, exec (.curatorCopyFinish cid ix rx how) s = .next s))
  ∧ (∀ (cid ix rx : Nat) (s : State) (x : Copy) (hs : List Share) (h : Share), (s.core cid).copies[ix]? = some x →
    x.shares = some hs → hs[rx]? = some h → h.begun = true → x.cur = true →
    let t := parseTmpl x.tmpl
    let p := nextPart x t h (partLen t.dfmt 128)
    let dead := partDead s cid h.cid p
    let x1 := readPart s x p
    let po : Bool := (partBytes x1 t p).any Prod.snd
    let land (mark : Bool) : Host.Outcome State Fault Refusal :=
      .next (landPart s cid ix rx x1 hs h p mark (1 + (if dead then 2 else 0) + (if mark then 4 else 0)))
    (curatorReaches s cid h.cid = true →
      (dead = true → partReroutes s cid h.cid p = true → exec (.curatorCopyFinish cid ix rx .reroute) s = land po)
      ∧ (dead = false → po = false → exec (.curatorCopyFinish cid ix rx .reroute) s = land false)
      ∧ (dead = true → partReroutes s cid h.cid p = false → exec (.curatorCopyFinish cid ix rx .reroute) s = .next s)
      ∧ (dead = true ∨ po = true → exec (.curatorCopyFinish cid ix rx .poison) s = land true)
      ∧ exec (.curatorCopyFinish cid ix rx .unreachable) s = .next s)
    ∧ (curatorReaches s cid h.cid = false → exec (.curatorCopyFinish cid ix rx .unreachable) s = .next
      (endReceiver (endCopy s cid ix x (delNth rx hs)) h.cid h.team 0x40303002#32)))
  ∧ (∀ (cid ix rx : Nat) (s : State) (x : Copy) (hs : List Share) (h : Share) (p : Piece) (mark : Bool) (err : Nat),
    let t := parseTmpl x.tmpl
    let u := landBytes s x.path h (p.row * t.pitch + p.ofs) (partBytes x t p) mark err
    let rest := if h.pos + p.len < x.rows.length * t.rowBytes then setNth { h with pos := h.pos + p.len } rx hs else delNth rx hs
    let left (l : List Copy) : List Copy :=
      if rest = [] ∧ x.bad = none then delNth ix l else setNth { trimGot x t rest with shares := some rest } ix l
    landPart s cid ix rx x hs h p mark err = u.modCore cid fun c => { c with copies := left c.copies })
  ∧ (∀ (s : State) (path : Nat) (h : Share) (ofs : Nat) (bs : List MByte) (mark : Bool) (err : Nat),
    let t := landBytes s path h ofs bs mark err
    let lo := h.base + ofs
    CoreOnly s t h.cid
    ∧ { (t.core h.cid) with sp := (s.core h.cid).sp, spPois := (s.core h.cid).spPois, stale := (s.core h.cid).stale } = s.core h.cid
    ∧ (h.word + 16 ≤ lo ∨ lo + bs.length ≤ h.word →
      t.spBytes h.cid lo bs.length = bs.map Prod.fst ∧ (bs ≠ [] → t.spPoisoned h.cid lo bs.length = mark)
      ∧ t.spBytes h.cid h.word 16 = (arrive s path h.cid h.word bs.length err).spBytes h.cid h.word 16)
    ∧ ∀ a, (a < lo ∨ lo + bs.length ≤ a) → (a < h.word ∨ h.word + 16 ≤ a) →
      t.spBytes h.cid a 1 = s.spBytes h.cid a 1 ∧ t.spPoisoned h.cid a 1 = s.spPoisoned h.cid a 1)
  ∧ (∀ (s : State) (path : Nat) (h : Share) (expect extent : Nat),
    let lo := h.team * s.spLimit h.cid
    let hi := lo + s.spLimit h.cid
    let wordIn := lo ≤ h.word ∧ h.word + 16 ≤ hi
    let apart := h.word + 16 ≤ h.base ∨ h.base + extent ≤ h.word
    refuseShare s path h expect extent =
      if h.base + extent ≤ hi ∧ wordIn ∧ apart then none
      else if wordIn ∧ apart then some (arrive s path h.cid h.word expect 16)
      else some (if (s.team (8 * h.cid + h.team)).job = none then s else endJob s (8 * h.cid + h.team) 0x40303001#32 true))
  ∧ (∀ (cid ix : Nat) (s : State) (x : Copy) (f : W32), (s.core cid).copies[ix]? = some x →
    x.bad = some f ∨ x.bad = none ∧ x.shares = none ∧ (∀ y ∈ (s.core cid).copies.take ix, y.chan = x.chan → y.shares ≠ none)
      ∧ (sourceRows s cid x (parseTmpl x.tmpl)).2 = some f →
    let t := s.modCore cid fun c => { c with copies := delNth ix c.copies }
    exec (.copySourceFail cid ix) s = .next (if x.job ≠ none ∧ x.live then endJob t x.tid f true
      else if x.job = none ∨ (s.team x.tid).job = none then t.logErr (dieOf cid) f (coreSite t cid) 0#64 else t))
  ∧ ∀ (cid ix : Nat) (s : State) (x : Copy), (s.core cid).copies[ix]? = some x → x.shares = none → (s.die (dieOf cid)).pins = [] →
    (s.die (dieOf cid)).tlb = [] →
    (sourceRows s cid x (parseTmpl x.tmpl)).1 = [] → (sourceRows s cid x (parseTmpl x.tmpl)).2 ≠ none →
    exec (.copyArrival cid ix 0 128) s = .next s

/-! ## Clusters (13) -/

/-- R48, R327–R336, R340, R341: the cluster instructions. Each raises CLNOJOB outside a cluster job. `clarr` waits for the accesses its
PATHS names and arrives, with the generation of its arrival as an outstanding load; `clbar` holds the group until the generation
differs from its register's; a completed barrier counts its generation and starts again. `rld` loads a block, word i of each 128
bytes to lane i. `msend` sends the words of its lanes, or a block; `mrecv` takes the first held message that fits, or posts its
receive; `mprobe` reports without taking, `mcancel` withdraws a posted receive. -/
def Obligations.ClusterInstructions : Prop :=
  (∀ (i : Instr) (o : Ops) (p : BitVec 5) (b : Bool) (s : State),
    (i = .clarr o p ∨ i = .clbar o p ∨ i = .msend o b ∨ i = .mrecv o ∨ i = .mprobe o b ∨ i = .mcancel o) → Issues i s →
    s.clusterOf (s.tidOf s.cur.gid) = none → TrapsAll i s 0x21A07001#32 0#64)
  ∧ (∀ (o : Ops) (p : BitVec 5) (s : State), s.clusterOf (s.tidOf s.cur.gid) ≠ none → o.g = Guard.always →
    (Issues (.clarr o p) s → exec (.clarr o p) s = .next (tryClarr (waitingIn (.clarr o p) s) s.cur.gid))
    ∧ (Issues (.clbar o p) s → exec (.clbar o p) s = .next (tryClbar (waitingIn (.clbar o p) s) s.cur.gid)))
  ∧ (∀ (o : Ops) (p : BitVec 5) (s : State) (gid key ix : Nat) (c : Cluster) (b : ClBar), (s.group gid).fmask ≠ 0#32 →
    s.clusterOf (s.tidOf gid) = some (key, c, ix) →
    let n := (o.imm.extractLsb' 0 2).toNat
    c.bars[n]? = some b →
    ((∀ l, (s.group gid).fmask.getLsbD l = true → ((s.group gid).thread l).wait = some (.clarr o p)) →
      let t := if p.getLsbD 0 then fenceAt s gid 0xFFFFFFFF#32 .clu else s
      let bit := 32 * ix + (t.posOf gid).2
      (pathsDone s gid p .clu = false → tryClarr s gid = s)
      ∧ (pathsDone s gid p .clu = true → b.arrived.getLsbD bit = true →
        tryClarr s gid = deliver t gid (trapAll (s.group gid).fmask 0x21A07002#32 0#64))
      ∧ (pathsDone s gid p .clu = true → b.arrived.getLsbD bit = false →
        let u : State := match o.d with
          | .s d => t.modGroup gid fun g =>
            { g with lds := g.lds ++ [⟨g.nextSeq, .clarr o p, [], [], [], [(d.toNat, b.gen.setWidth 64)], [], []⟩] }
          | _ => t
        let v := (reach u gid).foldl (fun v m => v.pubSp m p) u
        let b' : ClBar := if b.count + 1 = b.target then ⟨b.gen + 1#32, 0, b.target, 0⟩
          else ⟨b.gen, b.count + 1, b.target, setBit b.arrived bit true⟩
        tryClarr s gid = passDeliver { v with clusters := Tbl.put key { c with bars := c.bars.set n b' } v.clusters } gid (s.group gid).fmask))
    ∧ ((∀ l, (s.group gid).fmask.getLsbD l = true → ((s.group gid).thread l).wait = some (.clbar o p)) →
      let t := if p.getLsbD 0 then l1Invalidate s (cidOf gid) true true else s
      tryClbar s gid = if b.gen = (rd64 (s.group gid) (s.env gid) o.imm 0 o.a).extractLsb' 0 32 then s
        else passDeliver ((reach t gid).foldl (fun v m => v.showPub m p) t) gid (s.group gid).fmask))
  ∧ (∀ (o : Ops) (cnt : Cnt) (d : BitVec 8) (s : State) (t : Target), Issues (.rld o cnt) s → o.d = .v d →
    let gid := s.cur.gid
    let a := addrOf s.here (s.env gid) o 0
    let k := match cnt with | .x1 => 1 | .x2 => 2 | .x4 => 4
    (region a = 0xFE ∨ region a = 0xFF) → checkAccess s gid 0 .sup ⟨.load, 128 * k, 128 * k, false, false, true⟩ a = .ok t →
    ∃ c at_, t = .sp c at_ ∧
      CompletesWith (.rld o cnt) s (s.modGroup gid fun g => { g with lds := g.lds ++ [⟨g.nextSeq, .rld o cnt,
        (List.range k).flatMap fun j => (lanesIn s.cur.mask).map fun l => ⟨32, a, rd64 s.here (s.env gid) 0#32 0 o.a, indexOf s.here (s.env gid) o 0,
          .sp c (at_ + 128 * j + 4 * l), [], 128 * j + 4 * l, 4, s.cur.mask⟩, [], [], [], [], []⟩] }))
  ∧ (∀ (o : Ops) (cnt : Cnt) (d : BitVec 8) (r : LoadRec) (a : Access) (bs : List MByte), r.ins = .rld o cnt → o.d = .v d →
    (∀ b ∈ r.todo.erase a, b.ofs ≠ a.ofs) → (∀ e ∈ r.got, e.1.ofs ≠ a.ofs) →
    let l := a.ofs / 4 % 32
    let bad : Bool := bs.any fun b => b.2
    a.mask.getLsbD l = true → r.arrive a bs = { r with
      todo := r.todo.erase a
      vw := r.vw ++ [⟨l, d.toNat + a.ofs / 128, if bad then 0#32 else BitVec.ofNat 32 (natOf (bs.map Prod.fst))⟩]
      pois := r.pois ++ if bad then [(l, a.addr)] else [] })
  ∧ (∀ (o : Ops) (blk : Bool) (s : State) (key ix : Nat) (c : Cluster), Issues (.msend o blk) s →
    s.clusterOf (s.tidOf s.cur.gid) = some (key, c, ix) →
    let gid := s.cur.gid
    let dst := captured s o o.a
    let tag := (captured s o o.b).extractLsb' 0 32
    let ptr := captured s o o.c
    let len := match o.c with | .s n => (s.here.ureg (n.toNat + 1)).toNat | _ => 0
    let low := (ptr.extractLsb' 0 56).toNat
    let bad := c.members.length ≤ (dst.extractLsb' 0 4).toNat ∨ (o.a.isS = true ∧ dst.extractLsb' 4 60 ≠ 0#60)
      ∨ (blk = true ∧ (region ptr ≠ 0xFF ∨ low % 16 ≠ 0 ∨ len % 16 ≠ 0 ∨ len < 16 ∨ 4096 < len ∨ s.spLimit (cidOf gid) < low + len))
    let data := if blk then s.spBytes (cidOf gid) ((s.posOf gid).1 * s.spLimit (cidOf gid) + low) len
      else (List.range 32).flatMap fun l => bytesOf 4 (if s.cur.mask.getLsbD l then (rd32 s.here (s.env gid) 0#32 l o.c).toNat else 0)
    (bad → TrapsAll (.msend o blk) s 0x21A07004#32 0#64)
    ∧ (¬bad → CompletesWith (.msend o blk) s (setCluster s key
        { c with transit := c.transit ++ [(gid, (dst.extractLsb' 0 4).toNat, ⟨tag, ix, (s.posOf gid).2, blk, data⟩)] })))
  ∧ (∀ (o : Ops) (s : State), Issues (.mrecv o) s → (o.d.isS || o.d.isZero) = true → s.clusterOf (s.tidOf s.cur.gid) ≠ none →
    recvBad s (here_ (.mrecv o) s) o = false →
    let gid := s.cur.gid
    let tid := s.tidOf gid
    let tm := s.team tid
    let second (x : Opd) : W64 := match x with | .s n => s.here.ureg (n.toNat + 1) | _ => 0#64
    let slot := ((List.range 64).find? fun i => tm.posted.all fun r => (r.handle.extractLsb' 0 6).toNat != i).getD 0
    let h : W32 := BitVec.ofNat 32 (tm.serial % 2 ^ 26 * 64 + slot)
    let r : Posted := ⟨captured s o o.a, (second o.a).toNat, ((captured s o o.c).extractLsb' 0 56).toNat,
      captured s o o.b, h⟩
    let fits (m : Msg) : Bool := (r.spec.getLsbD 36 || (r.spec.extractLsb' 32 4).toNat == m.src) && (r.spec.getLsbD 37 || r.spec.extractLsb' 0 32 == m.tag)
      && decide (m.data.length ≤ r.cap)
    let ends (t : State) : Prop := CompletesWith (.mrecv o) s
      (stallTurn ((t.modTeam tid fun x => { x with serial := x.serial + 1 }).modGroup gid fun g => uniTo o.d (h.setWidth 64) g) tid 64)
    (∀ before m after, tm.ovf = before ++ m :: after → (∀ x ∈ before, fits x = false) → fits m = true →
      ends (deliverMsg (s.modTeam tid fun x => { x with ovf := before ++ after }) tid r m))
    ∧ ((∀ m ∈ tm.ovf, fits m = false) → postShare s tid ≤ tm.posted.length → TrapsAll (.mrecv o) s 0x21A07003#32 0#64)
    ∧ ((∀ m ∈ tm.ovf, fits m = false) → tm.posted.length < postShare s tid →
      ends (s.modTeam tid fun x => { x with posted := x.posted ++ [r] })))
  ∧ ∀ (o : Ops) (s : State), (o.d.isS || o.d.isZero) = true → s.clusterOf (s.tidOf s.cur.gid) ≠ none →
    let gid := s.cur.gid
    let tid := s.tidOf gid
    let tm := s.team tid
    let spec := captured s o o.b
    let h := (captured s o o.a).extractLsb' 0 32
    let like (m : Msg) : Bool := (spec.getLsbD 36 || (spec.extractLsb' 32 4).toNat == m.src) && (spec.getLsbD 37 || spec.extractLsb' 0 32 == m.tag)
    let held := (tm.ovf.map fun m => (m.data.length + 127) / 128).sum
    (Issues (.mprobe o true) s → CompletesWith (.mprobe o true) s (s.modGroup gid fun g => uniTo o.d
      (BitVec.ofNat 64 (min 0xFFFF tm.drops * 2 ^ 16 + held % 256 * 2 ^ 8 + tm.posted.length)) g))
    ∧ (Issues (.mprobe o false) s → spec.extractLsb' 38 26 ≠ 0#26 → TrapsAll (.mprobe o false) s 0x21A07004#32 0#64)
    ∧ (Issues (.mprobe o false) s → spec.extractLsb' 38 26 = 0#26 →
      CompletesWith (.mprobe o false) s (s.modGroup gid fun g => uniTo o.d (match tm.ovf.find? like with
        | some m => BitVec.ofNat 64 (2 ^ 63 + m.src * 2 ^ 48 + m.data.length * 2 ^ 32 + m.tag.toNat)
        | none => 0#64) g))
    ∧ (Issues (.mcancel o) s → CompletesWith (.mcancel o) s
      ((s.modTeam tid fun x => { x with posted := x.posted.filter fun r => r.handle != h }).modGroup gid
        fun g => uniTo o.d (if ∃ r ∈ tm.posted, r.handle = h then 1#64 else 0#64) g))

/-- R330, R336–R339: what befalls a cluster job's barriers and messages between instructions. A message reaches its destination after the
earlier ones of its sender: it goes into the first posted receive that it fits, envelope and payload written and counted in the
receive's word, or joins the overflow queue, or stalls. A message stalled past its limit is dropped: MSGOVF, the team's drop count,
and REFUSED for its sender. -/
def Obligations.MessagesArrive : Prop :=
  (∀ (s : State) (tid : Nat) (m : Msg),
    let t := s.team tid
    let cid := tid / 8
    let fits (r : Posted) : Bool := (r.spec.getLsbD 36 || (r.spec.extractLsb' 32 4).toNat == m.src)
      && (r.spec.getLsbD 37 || r.spec.extractLsb' 0 32 == m.tag) && decide (m.data.length ≤ r.cap)
    let entries (x : Msg) : Nat := (x.data.length + 127) / 128
    let base := tid % 8 * s.spLimit cid
    let env : List Byte := bytesOf 4 m.tag.toNat ++ bytesOf 4 m.data.length ++ [BitVec.ofNat 8 m.src, BitVec.ofNat 8 m.pos,
      if m.blk then 1#8 else 0#8] ++ List.replicate 5 0#8
    (∀ before r after, t.posted = before ++ r :: after → (∀ x ∈ before, fits x = false) → fits r = true →
      (∀ x ∈ before ++ after, x.handle ≠ r.handle) →
      placeMsg s tid m = some (arrive ((s.modTeam tid fun x => { x with posted := before ++ after }).putSp cid 1 (base + r.word + 1)
        (base + (r.buf.extractLsb' 0 56).toNat) (env ++ m.data)) 1 cid (base + r.word) (16 + m.data.length) 0))
    ∧ ((∀ r ∈ t.posted, fits r = false) → (t.ovf.map entries).sum + entries m ≤ 256 / (pwTeams (s.core cid).pword + 1) →
      placeMsg s tid m = some (s.modTeam tid fun x => { x with ovf := x.ovf ++ [m] }))
    ∧ ((∀ r ∈ t.posted, fits r = false) → 256 / (pwTeams (s.core cid).pword + 1) < (t.ovf.map entries).sum + entries m →
      placeMsg s tid m = none))
  ∧ (∀ (s : State) (key n gid dst : Nat) (c : Cluster) (m : Msg), Tbl.sorted s.clusters = true → Tbl.find key s.clusters = some c →
    c.launched = true → (∀ e ∈ s.clusters, e.1 ≠ key → e.1 % 2048 ≠ key % 2048) → c.transit[n]? = some (gid, dst, m) →
    let tid := 8 * c.members.getD dst 0 + c.team
    let early := (∃ e ∈ c.transit.take n, e.2.1 = dst ∧ e.2.2.src = m.src) ∨ ∃ e ∈ (s.team tid).stalled, e.2.2.src = m.src
    let t : State := { s with clusters := Tbl.put key { c with transit := c.transit.eraseIdx n } s.clusters }
    (early → exec (.messageArrival (key % 2048 + 2048 * n)) s = .next s)
    ∧ (¬early → exec (.messageArrival (key % 2048 + 2048 * n)) s = .next ((placeMsg t tid m).getD
        (t.modTeam tid fun x => { x with stalled := x.stalled ++ [(gid, s.cycle.toNat, m)] }))))
  ∧ (∀ (s : State) (tid ix gid since : Nat) (m : Msg), (s.team tid).stalled[ix]? = some (gid, since, m) →
    let limit := since + 256 * 2 ^ clMsgto (s.core (tid / 8)).clcfg
    (s.cycle.toNat < limit → exec (.messageStallTimeout tid ix) s = .next s)
    ∧ (limit ≤ s.cycle.toNat → exec (.messageStallTimeout tid ix) s = .next (failIn
      ((s.modTeam tid fun x => { x with stalled := x.stalled.eraseIdx ix, drops := x.drops + 1 }).logErr (dieOf (tid / 8)) 0x60101001#32
        (coreSite s (tid / 8)) 0#64) gid 0xFFFFFFFF#32
        fun f => { f with drops := f.drops + 1, dropFirst := f.dropFirst || f.count = 0 })))
  ∧ (∀ (g : Nat) (s : State), exec (.clbarRelease g) s = .next (tryClarr (tryClbar s g) g))
  ∧ ∀ (b : ClBar) (bit : Nat), bit < 384 →
    let had := b.arrived.getLsbD bit
    let count := if had then b.count - 1 else b.count
    let c := b.leave bit
    c.target = b.target - 1
    ∧ if 1 ≤ count ∧ count = b.target - 1 then c.gen = b.gen + 1#32 ∧ c.count = 0 ∧ c.arrived = 0#384
      else c.gen = b.gen ∧ c.count = count ∧ ∀ k, c.arrived.getLsbD k = (b.arrived.getLsbD k && k != bit)

/-! ## Hampers, events, accessions and snapshots (16–18, 21) -/

/-- R382, R391–R396, R410, R411, R430–R432, R437, R462: the instructions of the hampers, the catalogue, the accession unit and the hub.
`hpush` releases and places its record in the destination's hamper, or in its ring behind those there, or waits for room; `hpop`
takes the oldest record of its team, and `hpop.j` waits for a job; `hstat` counts. `evsig` releases and makes one step on its event;
`evwait` holds the group until its event is reached, and receives COUNT and FAIL; `jdone` ends its threads once every access of the
group has performed. `publish` and `adopt` step the accession unit, `tokrec` stores its record, `snap` triggers a snapshot. -/
def Obligations.HamperAndEventInstructions : Prop :=
  (∀ (o : Ops) (n : BitVec 6) (s : State), Issues (.hpush o) s → o.b = .s n →
    let gid := s.cur.gid
    let v := match o.a with | .imm => o.imm.setWidth 64 | x => rd64 s.here (s.env gid) o.imm 0 x
    let cid := 64 * dieOf (cidOf gid) + 8 * (v.extractLsb' 3 3).toNat + (v.extractLsb' 0 3).toNat
    let team := (v.extractLsb' 6 3).toNat
    let w : BitVec 256 := s.here.ureg (n.toNat + 3) ++ (s.here.ureg (n.toNat + 2) ++ (s.here.ureg (n.toNat + 1) ++ s.here.ureg n.toNat))
    let u := releaseAt s gid .die
    if v.extractLsb' 9 55 ≠ 0#55 ∨ s.partOf cid ≠ s.partOf (cidOf gid) ∨ pwTeams (s.core cid).pword < team then
      TrapsAll (.hpush o) s 0x21B08001#32 0#64
    else match placePush u cid team w with
      | some t => CompletesWith (.hpush o) s (standPush u t gid (.hpush o) cid w)
      | none => exec (.hpush o) s = .next (passDeliver ((waitIn u gid s.cur.mask (.hpush o)).modCore cid
          fun c => { c with pushq := c.pushq ++ [(gid, team, w)] }) gid 0#32))
  ∧ (∀ (s : State) (cid team : Nat) (w : BitVec 256),
    let c := s.core cid
    let x := partCtx s (dieOf cid) (s.pnum cid)
    let used := (c.hrput - c.hrtake).toNat
    let k := c.hrput.toNat % 2 ^ c.hrlog
    if c.hrput = c.hrtake ∧ c.task.length < 32 then
      placePush s cid team w = some (s.modCore cid fun c => { c with task := c.task ++ [⟨team, w, none⟩] })
    else if c.hrlog = 0 ∨ 2 ^ c.hrlog ≤ used then placePush s cid team w = none
    else ∀ t u, globalPut s x (c.hrbase + BitVec.ofNat 64 (32 * k)) (bytesOf 32 w.toNat) = .ok t →
      globalPut t x (c.hrbase + BitVec.ofNat 64 (32 * 2 ^ c.hrlog + k)) [BitVec.ofNat 8 team] = .ok u →
      placePush s cid team w = some (u.modCore cid fun c => { c with hrput := c.hrput + 1#32 }))
  ∧ (∀ (s : State) (cid ix gid team : Nat) (w : BitVec 256) (o : Ops), (s.core cid).pushq[ix]? = some (gid, team, w) →
    (placePush s cid team w = none → exec (.hpushPlace cid ix) s = .next s)
    ∧ ∀ t, placePush s cid team w = some t → (t.group gid).fmask ≠ 0#32 →
      (∀ l, (t.group gid).fmask.getLsbD l = true → ((t.group gid).thread l).wait = some (.hpush o)) →
      exec (.hpushPlace cid ix) s = .next (passDeliver (standPush s (t.modCore cid fun c => { c with pushq := delNth ix c.pushq }) gid
        (.hpush o) cid w) gid (t.group gid).fmask))
  ∧ (∀ (s t : State) (gid cid : Nat) (i : Instr) (w : BitVec 256),
    let u := standPush s t gid i cid w
    (∃ a, (u.group gid).sts = (t.group gid).sts ++ [⟨(t.group gid).nextSeq, i, [a], false⟩] ∧ a.data = bytesOf 32 w.toNat)
    ∧ ∀ c, (u.core c).task.map (fun r => (r.team, r.w)) = (t.core c).task.map fun r => (r.team, r.w))
  ∧ (∀ (s : State) (cid : Nat),
    let c := s.core cid
    let x := partCtx s (dieOf cid) (s.pnum cid)
    let k := c.hrtake.toNat % 2 ^ c.hrlog
    (c.hrput = c.hrtake ∨ 32 ≤ c.task.length → exec (.hamperRefill cid) s = .next s)
    ∧ (c.hrput ≠ c.hrtake → c.task.length < 32 → ∀ bs tag,
      globalBytes s x .load (c.hrbase + BitVec.ofNat 64 (32 * k)) 32 = .ok bs →
      globalBytes s x .load (c.hrbase + BitVec.ofNat 64 (32 * 2 ^ c.hrlog + k)) 1 = .ok tag →
      exec (.hamperRefill cid) s = .next (s.modCore cid fun c => { c with
        task := c.task ++ [⟨natOf tag, BitVec.ofNat 256 (natOf bs), none⟩], hrtake := c.hrtake + 1#32 })))
  ∧ (∀ (o : Ops) (s : State), Issues (.hpop o) s → o.g = Guard.always → exec (.hpop o) s = .next (tryHpop (waitingIn (.hpop o) s) s.cur.gid))
  ∧ (∀ (o : Ops) (n : BitVec 6) (s : State) (gid : Nat), o.d = .s n → (s.group gid).fmask ≠ 0#32 →
    (∀ l, (s.group gid).fmask.getLsbD l = true → ((s.group gid).thread l).wait = some (.hpop o)) → (s.core (cidOf gid)).asleep = false →
    let team := (s.posOf gid).1
    ((∀ r ∈ (s.core (cidOf gid)).task, r.team ≠ team) → exec (.hpopTake gid) s = .next s)
    ∧ ∀ before r after, (s.core (cidOf gid)).task = before ++ r :: after → (∀ x ∈ before, x.team ≠ team) → r.team = team →
      exec (.hpopTake gid) s = .next (passDeliver (acquireAt ((s.modCore (cidOf gid) fun c => { c with
        task := before ++ after, ctr := Tbl.put 6 (Tbl.get 0#32 6 c.ctr + 1#32) c.ctr }).modGroup gid fun g =>
        (((g.setU n.toNat (r.w.extractLsb' 0 64)).setU (n.toNat + 1) (r.w.extractLsb' 64 64)).setU (n.toNat + 2)
          (r.w.extractLsb' 128 64)).setU (n.toNat + 3) (r.w.extractLsb' 192 64)) gid .die) gid (s.group gid).fmask))
  ∧ (∀ (o : Ops) (s : State), Issues (.hpopJ o) s → o.g = Guard.always →
    if userMask s.here s.cur.mask = 0#32 ∧ (s.team (s.tidOf s.cur.gid)).st = .idle then
      exec (.hpopJ o) s = .next (waitingIn (.hpopJ o) s)
    else TrapsAll (.hpopJ o) s 0x21B08002#32 0#64)
  ∧ (∀ (o : Ops) (s : State), Issues (.hstat o) s → (o.d.isS || o.d.isZero) = true →
    let c := s.core (cidOf s.cur.gid)
    let mine := (c.task.filter fun r => r.team = (s.posOf s.cur.gid).1).length
    CompletesWith (.hstat o) s (s.modGroup s.cur.gid fun g => uniTo o.d (BitVec.ofNat 64
      (c.task.length + 2 ^ 6 * ((c.hrput - c.hrtake).toNat % 2 ^ 17) + 2 ^ 23 * mine + 2 ^ 29 * c.jobs.length)) g))
  ∧ (∀ (o : Ops) (op : EvOp) (s : State), Issues (.evsig o op) s →
    let gid := s.cur.gid
    let e : W32 := match o.a with | .imm => o.imm | x => (rd64 s.here (s.env gid) o.imm 0 x).extractLsb' 0 32
    let n := (rd64 s.here (s.env gid) o.imm 0 o.b).extractLsb' 0 32
    let bad := e.extractLsb' 16 4 ≠ 0#4 ∨ s.inGroup (evAcc e) = false
    let u := releaseAt s gid (if evAcc e ≠ s.ownAcc then .fab else if evDie e = dieOf (cidOf gid) then .die else .pkg)
    (bad → TrapsAll (.evsig o op) s 0x21B08003#32 0#64)
    ∧ (¬bad → evAcc e = s.ownAcc → CompletesWith (.evsig o op) s (slotStep u e (EvOp.cat op) n))
    ∧ (¬bad → evAcc e ≠ s.ownAcc →
      CompletesWith (.evsig o op) s (if (Config.free u.fresh).getLsbD 0 = true ∨ u.fab.ports = 0#16 then
        chargeGroup { u with fresh := u.fresh + 1 } gid s.cur.mask 0xCF00#16 false true
      else { u with fresh := u.fresh + 1, fab := { u.fab with sent := u.fab.sent ++ [.step e (EvOp.cat op) n] } })))
  ∧ (∀ (s : State) (e : W32) (op : CatOp) (n : W32),
    let x := s.slot (evDie e) (evSlot e)
    let y : Slot16 := match op with
      | .add => ⟨x.count + n, x.target, x.fail⟩
      | .arm => ⟨0, n, false⟩
      | .set => ⟨n, x.target, x.fail⟩
      | .fail => ⟨x.count + 1#32, x.target, true⟩
    (slotStep s e op n).slot (evDie e) (evSlot e) = y
    ∧ (∀ d k, (d, k) ≠ (evDie e, evSlot e) → (slotStep s e op n).slot d k = s.slot d k)
    ∧ (y.count < y.target → { slotStep s e op n with dies := s.dies } = s))
  ∧ (∀ (o : Ops) (s : State), Issues (.evwait o) s → o.g = Guard.always →
    let gid := s.cur.gid
    let e : W32 := match o.a with | .imm => o.imm | x => (rd64 s.here (s.env gid) o.imm 0 x).extractLsb' 0 32
    if e.extractLsb' 16 4 ≠ 0#4 ∨ s.inGroup (evAcc e) = false then TrapsAll (.evwait o) s 0x21B08003#32 0#64
    else exec (.evwait o) s = .next (tryEvwait (passDeliver (sendWatch (waitIn (s.modGroup gid fun g => { g with since := s.cycle }) gid
      s.cur.mask (.evwait o)) e) gid 0#32) gid))
  ∧ (∀ (o : Ops) (s : State) (gid : Nat), (o.d.isS || o.d.isZero) = true → (s.group gid).fmask ≠ 0#32 →
    (∀ l, (s.group gid).fmask.getLsbD l = true → ((s.group gid).thread l).wait = some (.evwait o)) →
    let e := evwaitName s gid o
    let leaves (count : W32) (fail : Bool) : Prop := exec (.evwaitRelease gid) s = .next (passDeliver (acquireAt
      (s.modGroup gid fun g => uniTo o.d (0#31 ++ (BitVec.ofBool fail ++ count)) g) gid (evScope s (dieOf (cidOf gid)) e)) gid (s.group gid).fmask)
    let x := s.slot (evDie e) (evSlot e)
    (evAcc e = s.ownAcc → if x.target ≤ x.count then leaves x.count x.fail else exec (.evwaitRelease gid) s = .next s)
    ∧ (evAcc e ≠ s.ownAcc → match Tbl.find e.toNat s.fab.answers with
      | some a => leaves a.1 a.2
      | none => exec (.evwaitRelease gid) s = .next s))
  ∧ (∀ (o : Ops) (s : State), Issues (.jdone o) s → o.g = Guard.always →
    exec (.jdone o) s = .next (tryJdone (waitingIn (.jdone o) s) s.cur.gid))
  ∧ (∀ (o : Ops) (s : State) (gid : Nat), (s.group gid).fmask ≠ 0#32 →
    (∀ l, (s.group gid).fmask.getLsbD l = true → ((s.group gid).thread l).wait = some (.jdone o)) →
    exec (.jdoneRelease gid) s = .next (if pathsDone s gid 0x1F#5 (jobEvScope s gid) = true then
      leaveMask (crossFence (fenceAt s gid 0xFFFFFFFF#32 (jobEvScope s gid)) gid 0x1F#5 0x1F#5) gid (s.group gid).fmask
    else s))
  ∧ (∀ (o : Ops) (s : State), Issues (.publish o) s → (o.d.isS || o.d.isZero) = true →
    let gid := s.cur.gid
    let v := match o.a with | .imm => o.imm.setWidth 64 | x => rd64 s.here (s.env gid) o.imm 0 x
    let u := releaseAt s gid .sys
    let old := u.acc.pubacc
    let ends (t : State) (word : Nat) : Prop := CompletesWith (.publish o) s (t.modGroup gid fun g => uniTo o.d (BitVec.ofNat 64 word) g)
    if v.extractLsb' 16 48 ≠ 0#48 ∨ v.extractLsb' 0 16 ≠ old + 1#16 then ends u (old.toNat + 2 ^ 16)
    else match u.acc.parts.find? (fun e => e.2.root.getLsbD 0 && !e.2.lead && !accGe e.2.aacc old) with
      | some e => ends u (old.toNat + 2 * 2 ^ 16 + 2 ^ 20 * e.1)
      | none => ends { u with acc := ⟨v.extractLsb' 0 16, u.acc.parts.map fun e =>
          (e.1, if e.2.lead then { e.2 with aacc := v.extractLsb' 0 16 + 1#16 } else e.2)⟩ } (v.extractLsb' 0 16).toNat)
  ∧ (∀ (o : Ops) (s : State), Issues (.adopt o) s → (o.d.isS || o.d.isZero) = true →
    let gid := s.cur.gid
    let p := s.pnum (cidOf gid)
    let t := acquireAt (if (s.part p).lead then s else s.setPart p { s.part p with aacc := s.acc.pubacc }) gid .sys
    CompletesWith (.adopt o) s (t.modGroup gid fun g => uniTo o.d ((t.part p).aacc.setWidth 64) g))
  ∧ (∀ (o : Ops) (n : BitVec 6) (s : State) (found : List Access), Issues (.tokrec o) s → o.c = .s n →
    let x := here_ (.tokrec o) s
    let w := laneAddr s.here x.env o 0
    let f : Form := ⟨.store, 32, 32, false, false, true⟩
    let s1 := rereadAll x true f (fun _ => w) s
    (region w.addr ≠ 0xFF → 0xFB ≤ region w.addr → TrapsAll (.tokrec o) s 0x01740004#32 w.addr)
    ∧ (region w.addr = 0xFF ∨ region w.addr < 0xFB → checkAll x true f (fun _ => w) s1 = (found, []) → found ≠ [] →
      let c0 := s.here.ureg n.toNat
      let c1 := s.here.ureg (n.toNat + 1)
      let jacc : Half := match s.jobOf x.gid with | some j => j.r.jacc | none => 0#16
      let words := bytesOf 8 c0.toNat ++ bytesOf 8 c1.toNat ++ bytesOf 2 jacc.toNat
      CompletesWith (.tokrec o) s (s1.modGroup x.gid fun g => newStore g (.tokrec o) (found.map fun y => { y with data := words }))
      ∧ ∀ m, storeVal (.tokrec o) m words = words ++ bytesOf 2 (if c0.extractLsb' 0 32 = 0xFFFFFFFF#32 then 1 else 0) ++ List.replicate 12 0#8))
  ∧ ∀ (o : Ops) (s : State), Issues (.snap o) s → (o.d.isS || o.d.isZero) = true →
    let ends (t : State) (ok : Bool) : Prop :=
      CompletesWith (.snap o) s (t.modGroup s.cur.gid fun g => uniTo o.d (0#31 ++ (BitVec.ofBool ok ++ s.hub.snapseq)) g)
    match s.hub.snap with
    | some x => ends s (decide (s.time < x.1))
    | none => ∃ ts : W64, ts.toNat % 1024 = 0 ∧ (s.time.toNat + 3072 < 2 ^ 64 → s.time.toNat + 2048 ≤ ts.toNat ∧ ts.toNat < s.time.toNat + 3072)
      ∧ ends { s with hub := { s.hub with snap := some (ts, o.imm.extractLsb' 0 8) } } true

/-! ## Jobs, sleep, halts and images (12) -/

/-- R44, R59–R61, R298, R299, R302–R307, R311: the life of a job. A team that waits takes the oldest record it may: its groups start at
the entry at user level with the argument and the tile, or the job ends with JOBHDR where its header is refused. A job that ends
leaves its report, and its threads stop; the report is made once every access has performed, and the groups start in the idle code. A halt
keeps every thread at its instruction; a save begins with a free image slot and, once the team's accesses have finished, writes the image,
whose size and CRC the header holds, and leaves the team Idle, its image in halt order among the queue's. A core sleeps
where nothing of it is outstanding; its waking sweep finds nothing, or takes the core out of use. -/
def Obligations.JobLife : Prop :=
  (∀ (s : State) (tid : Nat), (∀ ix, takesRec s tid = some ix → ∃ r, (s.core (tid / 8)).jobs[ix]? = some r
      ∧ (r.anyteam = true ∨ r.team = tid % 8) ∧ (s.team tid).st = .idle ∧ (s.team tid).job = none
      ∧ (∀ r' ∈ (s.core (tid / 8)).jobs.take ix, r'.anyteam = false ∧ r'.team ≠ tid % 8)
      ∧ ∀ g ∈ s.groupsOf tid, ∀ l, (s.group g).fmask.getLsbD l = true → ∃ o, ((s.group g).thread l).wait = some (.hpopJ o))
    ∧ (takesRec s tid = none → exec (.jobLaunch tid) s = .next s))
  ∧ (∀ (s : State) (tid ix : Nat) (r : JobRec), takesRec s tid = some ix → (s.core (tid / 8)).jobs[ix]? = some r →
    let u := s.modCore (tid / 8) fun c => { c with jobs := delNth ix c.jobs }
    (jobHeader u (tid / 8) r = none → ∃ h, exec (.jobLaunch tid) s =
      .next (endJob (u.modTeam tid fun t => { t with job := some ⟨r, h, stackbOf u tid⟩ }) tid 0x80505005#32 true))
    ∧ ∀ h, jobHeader u (tid / 8) r = some h →
      let t := joinHalt (launchJob u tid ⟨r, h, stackbOf u tid⟩) tid
      dbgNames t tid r = false → exec (.jobLaunch tid) s = .next t)
  ∧ (∀ (s : State) (tid : Nat),
    ((∀ t ∈ jobTeams s tid, (s.team t).stopWhy = 0) → joinHalt s tid = s)
    ∧ ((∃ t ∈ jobTeams s tid, (s.team t).stopWhy ≠ 0) →
      ((joinHalt s tid).team tid).stopWhy ≠ 0 ∧ { ((joinHalt s tid).team tid) with stopWhy := (s.team tid).stopWhy } = s.team tid
      ∧ ∀ t, t ≠ tid → (joinHalt s tid).team t = s.team t))
  ∧ (∀ (s : State) (tid : Nat) (j : Job), j.r.member = none →
    let n := (s.groupsOf tid).length
    ((s.capacity (tid / 8) : Int) < j.hdr.xbase * n →
      launchJob s tid j = endJob (s.modTeam tid fun t => { t with job := some j }) tid 0x21202003#32 true)
    ∧ (j.hdr.xbase = 0 → 0 ≤ s.capacity (tid / 8) → 2 ≤ j.hdr.ucount →
      let u := if j.r.jacc = (s.core (tid / 8)).lastAcc then s else l1Invalidate s (tid / 8) true true
      let t := launchJob s tid j
      (t.team tid).st = .run ∧ (t.team tid).job = some j ∧ (t.team tid).posted = [] ∧ (t.team tid).ovf = []
      ∧ (t.core (tid / 8)).lastAcc = j.r.jacc
      ∧ (∀ g ∈ s.groupsOf tid,
        let x := t.group g
        x.live = true ∧ x.fmask = 0xFFFFFFFF#32 ∧ x.xblk = 0 ∧ x.aft = j.hdr.aft ∧ x.tlanes = 0#32 ∧ x.bcount = (u.group g).bcount
        ∧ (∀ k, x.ureg k = if k = 0 then j.r.arg else if k = 1 then j.r.tile.setWidth 64 else 0#64) ∧ (∀ l k, x.vreg l k = 0#32)
        ∧ ∀ l, l < 32 →
          let old := (u.group g).thread l
          x.thread l = { Thread.zero with pc := j.r.entry, priv := .user, tcause := old.tcause, tpc := old.tpc, taddr := old.taddr })
      ∧ (∀ g, g ∉ s.groupsOf tid → t.group g = u.group g)
      ∧ (t.core (tid / 8)).sp = (u.core (tid / 8)).sp ∧ (t.core (tid / 8)).tiles = (u.core (tid / 8)).tiles
      ∧ (t.core (tid / 8)).tmpl = (u.core (tid / 8)).tmpl))
  ∧ (∀ (s : State) (tid : Nat) (status : W32) (failed : Bool) (j : Job), (s.team tid).job = some j → j.r.member = none →
    let t := endJob s tid status failed
    let d := dieOf (tid / 8)
    (t.team tid).st = .idle ∧ (t.team tid).job = none
    ∧ (t.die d).reports = (s.die d).reports ++ [⟨tid / 8, tid % 8, j.r, status, failed,
      (s.groupsOf tid).flatMap fun g => (s.group g).sts.map (fun r => (g, r))
        ++ ((s.group g).lds.filter fun r => isAtomic r.ins && !r.todo.isEmpty).map fun r => (g, ⟨r.seq, r.ins, r.todo, true⟩),
      (s.groupsOf tid).flatMap fun g => (s.group g).cps.map fun r => (g, r)⟩]
    ∧ (∀ g ∈ s.groupsOf tid,
      let x := s.group g
      { (t.group g) with threads := x.threads } = { x with fmask := 0#32, tlanes := 0#32, xblk := 0, lds := [], sts := [], cps := [] }
      ∧ ∀ l, (t.group g).thread l = if x.fmask.getLsbD l then { (x.thread l) with wait := none } else x.thread l)
    ∧ (∀ g, g ∉ s.groupsOf tid → t.group g = s.group g)
    ∧ (∀ c, (t.core c).sp = (s.core c).sp ∧ (t.core c).tiles = (s.core c).tiles ∧ (t.core c).tmpl = (s.core c).tmpl)
    ∧ t.mem = s.mem ∧ t.stk = s.stk)
  ∧ (∀ (s : State) (tid : Nat), (s.team tid).job = none → (s.team tid).launching = none →
    (∀ g ∈ s.groupsOf tid, (s.group g).live = true ∧ (s.group g).fmask = 0#32) →
    (∀ g ∈ s.groupsOf tid, fitsPool (s.core (tid / 8)).pword (g % 32) = true →
      (restartEnded s tid).group g = startGroup (s.group g) (Config.idlePc (s.pnum (tid / 8))) .sup 0 false)
    ∧ ∀ g, g ∉ s.groupsOf tid → (restartEnded s tid).group g = s.group g)
  ∧ (∀ (s : State) (d n : Nat) (r : Report), d < 4 → (s.die d).reports[n]? = some r → r.job.member = none →
    let quiet := r.cps = [] ∧ (∀ c ∈ s.cores, ∀ x ∈ c.2.copies, x.job ≠ some r.job)
      ∧ ∀ c ∈ s.cores, ∀ e ∈ c.2.mseq, e.old = 0 ∨ cidOf e.gid ≠ r.cid ∨ (s.posOf e.gid).1 ≠ r.team
    (¬quiet → exec (.jobCompletionReport (d + 4 * n)) s = .next s)
    ∧ (quiet → (∀ m y, m ≠ n → (s.die d).reports[m]? = some y → y ≠ r) →
      let t := (restartEnded (finishStores s r) (8 * r.cid + r.team)).modDie d fun x => { x with reports := x.reports.filter fun y => y ≠ r }
      exec (.jobCompletionReport (d + 4 * n)) s = .next (dbgTurn (docentTurn (prunePins (settleJob t r.job r.status r.failed) d) d))))
  ∧ (∀ (s : State) (r : JobRec) (status : W32) (failed : Bool), r.resumed = none → s.recOf r.die r.queue r.recn = none →
    let e := if r.evtile then r.event.extractLsb' 16 16 ++ (r.event.extractLsb' 0 16 + r.tile.extractLsb' 0 16) else r.event
    (r.evon = false → settleJob s r status failed = s)
    ∧ (r.evon = true → evAcc e = s.ownAcc → settleJob s r status failed = slotStep s e (if failed then .fail else .add) 1#32))
  ∧ (∀ (s : State) (c : Nat),
    (mayDoze s c = true → (s.core c).mseq = [] ∧ (s.core c).copies = [] ∧ (s.core c).jobs = []
      ∧ ∀ g, 32 * c ≤ g → g < 32 * c + 32 → (s.group g).live = true → (s.group g).lds = [] ∧ (s.group g).sts = [] ∧ (s.group g).cps = []
        ∧ ∀ l, (s.group g).fmask.getLsbD l = true → ∃ o, ((s.group g).thread l).wait = some (.hpop o) ∨ ((s.group g).thread l).wait = some (.hpopJ o))
    ∧ exec (.coreSleep c) s = .next (if mayDoze s c then s.modCore c fun x => { x with asleep := true } else s)
    ∧ (∀ errors, (s.core c).asleep = false → exec (.coreWake c errors) s = .next s)
    ∧ ((s.core c).asleep = true → exec (.coreWake c []) s = .next (s.modCore c fun x => { x with asleep := false }))
    ∧ ∀ bank row more, (s.core c).asleep = true → (s.core c).jobs = [] → ∃ t, exec (.coreWake c ((bank, row) :: more)) s = .next t
      ∧ (t.core c).dead = true ∧ (t.core c).asleep = false
      ∧ (t.die (dieOf c)).errlog = (s.die (dieOf c)).errlog ++ [(0x40404001#32, coreSite s c,
        BitVec.ofNat 64 (bank.toNat + 4 * row.toNat + 65536 * min 0xFFFF more.length))])
  ∧ (∀ (s : State) (tid : Nat),
    let x := s.team tid
    let u := matHalt s tid
    (x.st ≠ .run ∨ x.stopWhy = 0 ∨ x.job = none → exec (.haltRequest tid) s = .next s)
    ∧ (x.st = .run → x.stopWhy ≠ 0 → x.job ≠ none → ∃ t, exec (.haltRequest tid) s = .next t
      ∧ t.team tid = { u.team tid with st := .halted, haltNo := u.fresh } ∧ t.fresh = u.fresh + 1
      ∧ (∀ g ∈ s.groupsOf tid, ThreadsAfter (u.group g) (fun l => { (u.group g).thread l with wait := none }) (t.group g))
      ∧ (∀ g, g ∉ s.groupsOf tid → t.group g = u.group g) ∧ t.mem = u.mem ∧ t.stk = u.stk
      ∧ ∀ c, (t.core c).mseq = (u.core c).mseq ∧ (t.core c).tiles = (u.core c).tiles ∧ (t.core c).sp = (u.core c).sp))
  ∧ (∀ (s : State) (tid : Nat) (lost : Bool) (j : Job), (s.team tid).job = some j → j.r.member = none →
    let p := s.pnum (tid / 8)
    let x := s.part p
    let free := (List.range x.saven.toNat).filter fun k => !x.saves.contains k
    (free = [] → exec (.checkpointSave tid lost) s = .next s)
    ∧ (free ≠ [] → (s.team tid).st = .halted → exec (.checkpointSave tid lost) s = .next (s.modTeam tid fun y => { y with st := .saving }))
    ∧ ((s.team tid).st ≠ .halted → saveReady s tid = false → exec (.checkpointSave tid lost) s = .next s)
    ∧ ∀ k more, saveReady s tid = true → free = k :: more →
      let a := x.savebase + BitVec.ofNat 64 (x.savesz.toNat * k)
      let bad := lost || imagePois s tid j.hdr
      let u := l1WriteBack s (tid / 8) true true
      let why := (s.team tid).stopWhy
      ∀ v, globalPut u (partCtx u (dieOf (tid / 8)) p) a (imageBytes u tid j ((if why = 2 then 2 else 0) + if bad then 4 else 0)) = .ok v →
        (bad = true → exec (.checkpointSave tid lost) s = .next (dbgTurn (endJob v tid 0x40505001#32 true)))
        ∧ (bad = false → why = 1 →
          let h : Held := ⟨[k], [a], [j], [tid / 8], (v.groupsOf tid).length, tid % 8, 1, (v.team tid).stopEv, false, p,
            (v.core (tid / 8)).pword, (v.team tid).haltNo⟩
          let w := leaveSaved v tid
          exec (.checkpointSave tid lost) s = .next (docentTurn (dbgTurn
            ((w.setPart p { (w.part p) with saves := k :: (w.part p).saves }).modQueue j.r.die j.r.queue
              fun q => { q with resume := insHeld h q.resume })) j.r.die)))
  ∧ (∀ (h : Held) (l : List Held), l.Pairwise (fun a b => a.ord ≤ b.ord) →
    (insHeld h l).Pairwise (fun a b => a.ord ≤ b.ord) ∧ (insHeld h l).Perm (h :: l))
  ∧ ∀ (s : State) (tid : Nat) (j : Job) (flags : Nat), (s.groupsOf tid).length < 256 → j.hdr.acct ≤ 32 → j.hdr.scratch ≤ 2 ^ 21 →
    (teamEntries s tid).length ≤ 16 → (∀ g ∈ s.groupsOf tid, (s.group g).xblk ≤ 6 ∧ ∀ l, ((s.group g).thread l).loops.length ≤ 2) →
    let bs := imageBytes s tid j flags
    bs.take 8 = [0x48#8, 0x58#8, 0x43#8, 0x50#8, 0x01#8, 0x00#8, 0x00#8, 0x01#8]
    ∧ field bs 8 4 = bs.length ∧ bs.length % 128 = 0
    ∧ field bs 0x0C 4 = (crc32c (bs.take 12 ++ List.replicate 4 0#8 ++ bs.drop 16)).toNat
    ∧ field bs 0x10 8 = j.r.entry.toNat ∧ field bs 0x18 4 = (s.core (tid / 8)).pword.toNat ∧ field bs 0x1D 1 = (s.groupsOf tid).length
    ∧ field bs 0x24 4 = j.r.jacc.toNat ∧ field bs 0x28 8 = (s.team tid).lbase.toNat ∧ field bs 0x50 4 = 0x100

/-! ## The Docent (16) -/

/-- R373–R378, R384, R387, R390, R397–R399, R401, R404, R432, R481: the operator records. A record that its queue cannot launch yet
changes nothing; one refused stops its queue with OPSEQ, OPPRIV or OPBAD, in that order. A record that completes passes HEAD and DONE
over the completed records before them, in the Docent and in memory, and a failure stops the queue. Each kind has its effect: a JOB or
CJOB captures its accession, leases and header and stands until its tiles complete, or fails with JOBHDR; a WAITEV waits for its
event; SIGEV steps one; MARK stores; LEASE and UNLEASE change the lease set; LOOP and LOOPEND repeat a body; ADOPT takes the
published accession; ENDREQ ends requests; PARTW installs a partition; HALTQ drains; RESUME restores an image; SLICE waits for its
instant. -/
def Obligations.RecordsLaunch : Prop :=
  (∀ (i : Instr) (h : RecHdr) (s : State), recHeader i = some h →
    let d := s.cur.die
    let q := s.cur.queue
    let n := s.cur.recn
    (launchable s = false → exec i s = .next s)
    ∧ (launchable s = true → h.seq ≠ n.setWidth 16 → exec i s = .next (stopQueue s d q 0x80505002#32 n))
    ∧ (launchable s = true → h.seq = n.setWidth 16 → privKind i = true → qPriv (s.queue d q) = false →
      exec i s = .next (stopQueue s d q 0x80505004#32 n))
    ∧ (launchable s = true → h.seq = n.setWidth 16 → (privKind i = true → qPriv (s.queue d q) = true) → recordFault s i = true →
      exec i s = .next (stopQueue s d q 0x80505001#32 n))
    ∧ (launchable s = true → h.seq = n.setWidth 16 → (privKind i = true → qPriv (s.queue d q) = true) → recordFault s i = false →
      h.b = true → allDone (s.queue d q) = false → exec i s = .next s))
  ∧ (∀ (s : State) (d q : Nat) (n : W32) (i : Instr) (status : W32) (failed : Bool),
    let x := s.queue d q
    x.next = n → x.done = n → x.recs = [] →
    let y : Queue := { x with
      next := n + 1#32, await := none, head := n + 1#32, done := n + 1#32, stopped := x.stopped || failed,
      ctl := if failed then x.ctl &&& 0x7FFFFFFF#32 else x.ctl, fault := if failed then status else x.fault,
      fseq := if failed then n &&& 0xFFFF#32 else x.fseq }
    let u := s.modQueue d q fun _ => y
    let words := bytesOf 4 y.head.toNat ++ (bytesOf 4 y.done.toNat ++ (bytesOf 4 y.fault.toNat ++ bytesOf 4 y.fseq.toNat))
    doneRec s d q n i status failed = match globalPut u (partCtx u d (qPart y)) (x.base + 0x80#64) words with
      | .ok t => t
      | .error _ => u)
  ∧ (∀ (s : State) (d q : Nat) (n : W32) (r : OpRec) (i : Instr),
    let x := s.queue d q
    x.next = n → x.recs = [r] → r.done = false → r.n ≠ n → x.done = r.n →
    ((doneRec s d q n i 0#32 false).queue d q).done = r.n ∧ ((doneRec s d q n i 0#32 false).queue d q).head = r.n
    ∧ ((completeRec (doneRec s d q n i 0#32 false) d q r.n 0#32 false).queue d q).done = (if r.n + 1#32 = n then n + 1#32 else r.n + 1#32))
  ∧ (∀ (s : State) (h : RecHdr), Launches (.nopRecord h) s → exec (.nopRecord h) s = .next (recDone s (.nopRecord h) none))
  ∧ (∀ (s : State) (h : RecHdr) (op : EvOp) (e n : W32), Launches (.sigev h op e n) s →
    (evAcc e = s.ownAcc → exec (.sigev h op e n) s = .next (recDone (slotStep s e (EvOp.cat op) n) (.sigev h op e n) none))
    ∧ (evAcc e ≠ s.ownAcc → exec (.sigev h op e n) s = .next (
      if (Config.free s.fresh).getLsbD 0 = true ∨ s.fab.ports = 0#16 then
        recDone { s with fresh := s.fresh + 1 } (.sigev h op e n) (some 0xC0101001#32)
      else recDone { s with fresh := s.fresh + 1, fab := { s.fab with sent := s.fab.sent ++ [.step e (EvOp.cat op) n] } }
        (.sigev h op e n) none)))
  ∧ (∀ (s : State) (h : RecHdr) (a v : W64), Launches (.mark h a v) s →
    let c := partCtx s s.cur.die (qPart (s.queue s.cur.die s.cur.queue))
    (globalRegion a = false → exec (.mark h a v) s = .next (recDone s (.mark h a v) (some 0x01740002#32)))
    ∧ (globalRegion a = true → exec (.mark h a v) s = .next (match globalPut s c a (bytesOf 8 v.toNat ++ bytesOf 8 s.time.toNat) with
      | .ok t => recDone t (.mark h a v) none
      | .error f => recDone s (.mark h a v) (some f))))
  ∧ (∀ (s : State) (h : RecHdr) (e : W32), Launches (.waitev h e) s →
    let x := s.queue s.cur.die s.cur.queue
    let slot := s.slot (evDie e) (evSlot e)
    let out (fail : Bool) : State := recDone s (.waitev h e) (if fail then some 0x80505009#32 else none)
    (∀ ev fail, x.await = some (ev, some fail) → exec (.waitev h e) s = .next (out fail))
    ∧ (x.await = none ∨ (∃ ev, x.await = some (ev, none)) → evAcc e = s.ownAcc → exec (.waitev h e) s = .next (
      if slot.target ≤ slot.count then out slot.fail
      else s.modQueue s.cur.die s.cur.queue fun y => { y with await := some (e, none) }))
    ∧ (evAcc e ≠ s.ownAcc → (∃ ev, x.await = some (ev, none)) → exec (.waitev h e) s = .next s)
    ∧ (evAcc e ≠ s.ownAcc → x.await = none → exec (.waitev h e) s = .next
      ((sendWatch s e).modQueue s.cur.die s.cur.queue fun y => { y with await := some (e, none) })))
  ∧ (∀ (s : State) (h : RecHdr), Launches (.adoptRecord h) s →
    let x := s.queue s.cur.die s.cur.queue
    let p := s.part (qPart x)
    (allDone x = false → exec (.adoptRecord h) s = .next s)
    ∧ (allDone x = true → exec (.adoptRecord h) s = .next (recDone
      (if p.lead then s else s.setPart (qPart x) { p with aacc := s.acc.pubacc }) (.adoptRecord h) none)))
  ∧ (∀ (s : State) (h : RecHdr) (r w part : Bool) (base len : W64),
    let i : Instr := .lease h r w part base len
    Launches i s →
    let d := s.cur.die
    let q := s.cur.queue
    let p := qPart (s.queue d q)
    let u := standRec s d q s.cur.recn i
    let mine := (s.queue d q).leases
    let all := Tbl.get [] p (s.die d).pleases
    (part = false → exec i s = .next (if 32 ≤ mine.length then recDone s i (some 0x80505007#32)
      else u.modQueue d q fun x => { x with leases := mine ++ [⟨base, len, r, w⟩] }))
    ∧ (part = true → exec i s = .next (if 64 ≤ all.length then recDone s i (some 0x80505007#32)
      else u.modDie d fun x => { x with pleases := Tbl.put p (all ++ [⟨base, len, r, w⟩]) x.pleases })))
  ∧ (∀ (s : State) (h : RecHdr) (base len : W64), Launches (.unlease h base len) s →
    let d := s.cur.die
    let q := s.cur.queue
    let ls := (s.queue d q).leases
    ((∀ l ∈ ls, l.base ≠ base ∨ l.len ≠ len) → exec (.unlease h base len) s = .next (stopQueue s d q 0x80505001#32 s.cur.recn))
    ∧ ∀ before l after, ls = before ++ l :: after → l.base = base → l.len = len → (∀ x ∈ before, x.base ≠ base ∨ x.len ≠ len) →
      exec (.unlease h base len) s = .next (prunePins (recDone (s.modQueue d q fun x => { x with leases := before ++ after })
        (.unlease h base len) none) d))
  ∧ (∀ (s : State) (i : Instr) (cl : Bool) (h : RecHdr) (tiles : BitVec 24) (entry arg : W64) (p3 : JobP3),
    i = (if cl then .cjob h tiles entry arg p3 else .job h tiles entry arg p3) → Launches i s →
    let d := s.cur.die
    let q := s.cur.queue
    let x := s.queue d q
    let p := qPart x
    let hdr := readHeader s d p entry
    let u := armEvent s p3 tiles.toNat
    (headerBad u d p cl p3 hdr = true → exec i s = .next (recDone (if p3.evon then failEvent p3 0 tiles.toNat u else u) i (some 0x80505005#32)))
    ∧ (headerBad u d p cl p3 hdr = false → exec i s = .next (u.modQueue d q fun y => { y with
      next := s.cur.recn + 1#32, await := none,
      recs := y.recs ++ [⟨s.cur.recn, i, false, 0#32, false, 0, [], tiles.toNat, (u.part p).aacc,
        Tbl.get [] p (u.die d).pleases ++ (u.queue d q).leases, ((u.queue d q).loop.map fun l => l.depth).getD 0#8, hdr⟩] })))
  ∧ (∀ (s : State) (p3 : JobP3) (n : Nat),
    (p3.evarm = false → armEvent s p3 n = s)
    ∧ (p3.evarm = true → p3.evtile = false → armEvent s p3 n = catStep s p3.event .arm (BitVec.ofNat 32 n))
    ∧ (p3.evarm = true → p3.evtile = true → n ≤ 65536 →
      armEvent s p3 n = (List.range n).foldl (fun t k => catStep t (evTileName p3.event k) .arm 1#32) s)
    ∧ failEvent p3 0 n s = (List.range n).foldl (fun t k => catStep t (if p3.evtile then evTileName p3.event k else p3.event) .fail 1#32) s)
  ∧ (∀ (s : State) (h : RecHdr) (nbody : Half) (cond : W64) (maxiter : W32) (dmin dmax d0 : Byte) (mon : Bool),
    let i : Instr := .loopRecord h nbody cond maxiter dmin dmax d0 mon
    Launches i s →
    let d := s.cur.die
    let q := s.cur.queue
    let n := s.cur.recn
    let left := ((s.queue d q).tail - n).toNat
    (left ≤ nbody.toNat → exec i s = .next s)
    ∧ (nbody.toNat < left → bodyBad s d q n nbody.toNat = true → exec i s = .next (stopQueue s d q 0x80505001#32 n))
    ∧ (nbody.toNat < left → bodyBad s d q n nbody.toNat = false → exec i s = .next ((standRec s d q n i).modQueue d q fun x => { x with
      loop := some ⟨n, nbody.toNat, cond, maxiter, dmin, dmax, mon, 1#32, d0⟩ })))
  ∧ (∀ (s : State) (h : RecHdr) (l : LoopSt) (cond : List Byte), Launches (.loopend h) s → (s.queue s.cur.die s.cur.queue).loop = some l →
    allDone (s.queue s.cur.die s.cur.queue) = true → docGet s s.cur.die (qPart (s.queue s.cur.die s.cur.queue)) l.cond 4 = .ok cond →
    let d := s.cur.die
    let q := s.cur.queue
    let again := natOf cond ≠ 0 ∧ (l.maxiter = 0#32 ∨ l.iter < l.maxiter)
    let idle := (Config.free s.fresh).toNat
    let stall := (Config.free (s.fresh + 1)).toNat
    (again → exec (.loopend h) s = .next (({ s with fresh := s.fresh + 2 }).modQueue d q fun x => { x with
      next := l.recn + 1#32
      recs := x.recs.filter fun r => decide (r.n = l.recn ∨ l.body < (r.n - l.recn).toNat)
      loop := some { l with iter := l.iter + 1#32, depth :=
        if l.mon = false then l.depth
        else if idle < stall then BitVec.ofNat 8 (min l.dmax.toNat (l.depth.toNat + 1))
        else if 2 * stall < idle then BitVec.ofNat 8 (max l.dmin.toNat (l.depth.toNat - 1))
        else l.depth } }))
    ∧ (¬again → exec (.loopend h) s = .next (completeRec (recDone (s.modQueue d q fun x => { x with loop := none }) (.loopend h) none)
      d q l.recn 0#32 false)))
  ∧ (∀ (s : State) (h : RecHdr) (nreq : Half) (sa bm : W64) (st ms : List Byte) (t u : State), Launches (.endreq h nreq sa bm) s →
    let d := s.cur.die
    let p := qPart (s.queue d s.cur.queue)
    let n := nreq.toNat
    let word (l : List Byte) (k : Nat) : W64 := BitVec.ofNat 64 (field l (8 * k) 8)
    let ends (r : Nat) : Bool := decide (r < n) && (word ms (r / 64)).getLsbD (r % 64)
      && ((word st r).getLsbD 32 || (word st r).getLsbD 34)
    allDone (s.queue d s.cur.queue) = true → docGet s d p sa (8 * n) = .ok st → docGet s d p bm (8 * ((n + 63) / 64)) = .ok ms →
    docPut s d p sa ((List.range n).flatMap fun r => bytesOf 8 (if ends r then word st r ||| 0x200000000#64 else word st r).toNat) = .ok t →
    docPut t d p bm ((List.range ((n + 63) / 64)).flatMap fun k =>
      bytesOf 8 (word ms k &&& fromBits 64 fun j => !ends (64 * k + j)).toNat) = .ok u →
    exec (.endreq h nreq sa bm) s = .next (recDone u (.endreq h nreq sa bm) none))
  ∧ (∀ (s : State) (h : RecHdr) (pword : BitVec 24) (mask : W64) (clcfg : BitVec 18) (gslots : BitVec 48),
    let i : Instr := .partw h pword mask clcfg gslots
    Launches i s →
    let d := s.cur.die
    let q := s.cur.queue
    (allDone (s.queue d q) = false → exec i s = .next s)
    ∧ (allDone (s.queue d q) = true → (∀ k < 64, occupies (standRec s d q s.cur.recn i) d k (partwCores d mask) = false) →
      exec i s = .next (partwTurn (standRec s d q s.cur.recn i) d q)))
  ∧ (∀ (s : State) (d q : Nat) (r : OpRec) (h : RecHdr) (pword : BitVec 24) (mask : W64) (clcfg : BitVec 18) (gslots : BitVec 48),
    (s.queue d q).recs = [r] → r.done = false → r.ins = .partw h pword mask clcfg gslots → d < 4 →
    let cs := (List.range 64).filter (fun b => mask.getLsbD b)
    let w : W32 := pword.setWidth 32
    ((∃ b ∈ cs, coreIdle s (64 * d + b) = false) → partwTurn s d q = s)
    ∧ ((∀ b ∈ cs, coreIdle s (64 * d + b) = true) → poolOk w gslots = true → (∀ b ∈ cs, clusterOk (clcfg.setWidth 32) (64 * d + b) = true) →
      let t := partwTurn s d q
      (∀ b ∈ cs, let c := t.core (64 * d + b)
        c.pword = w ∧ c.gslots = gslots ∧ c.clcfg = clcfg.setWidth 32 ∧ c.sp = [] ∧ c.tiles = [] ∧ c.tmpl = []
        ∧ ∀ k, k < 32 → (t.group (32 * (64 * d + b) + k)).live = (decide (k < residents gslots) && decide (k < 2 * pwRfu w)))
      ∧ (∀ c, (∀ b ∈ cs, c ≠ 64 * d + b) → t.core c = s.core c)
      ∧ (t.queue d q).recs.all (fun r => r.done) = true ∧ (t.queue d q).stopped = (s.queue d q).stopped)
    ∧ ((∀ b ∈ cs, coreIdle s (64 * d + b) = true) → poolOk w gslots = false →
      let t := partwTurn s d q
      t.cores = s.cores ∧ t.groups = s.groups ∧ (t.queue d q).stopped = true ∧ (t.queue d q).fault = 0x40101001#32))
  ∧ (∀ (s : State) (h : RecHdr) (t : BitVec 6) (halt : Bool) (budget : W32),
    let i : Instr := .haltq h t halt budget
    Launches i s →
    let d := s.cur.die
    let q := s.cur.queue
    let us := if halt then 0 else if budget = 0#32 then qBud (s.queue d t.toNat) else budget.toNat
    (allDone (s.queue d q) = false → exec i s = .next s)
    ∧ (allDone (s.queue d q) = true →
      exec i s = .next (drainTurn (startDrain (standRec s d q s.cur.recn i) d t.toNat (.halt d q) us) d t.toNat)))
  ∧ (∀ (s : State) (d q : Nat) (a b : Nat) (us : Nat), (s.queue d q).drain = none →
    let u := s.modQueue d q fun x => { x with drain := some ⟨.halt a b, s.time.toNat + 1000 * us, decide (us = 0)⟩ }
    let v := withdraw u d q
    let w := (queueTeams v d q).foldl (fun s t => s.modCore (t / 8) (dropLatch (s.groupsOf t))) v
    (us ≠ 0 → startDrain s d q (.halt a b) us = w)
    ∧ (us = 0 → startDrain s d q (.halt a b) us = (queueTeams w d q).foldl (fun s t => requestHalt s t 1) w)
    ∧ (∀ c r, r ∈ ((withdraw u d q).core c).jobs → r ∈ (s.core c).jobs ∧ (r.die = d → r.queue = q → mayWithdraw u r = false)))
  ∧ (∀ (s : State) (h : RecHdr) (core : BitVec 6) (cv : Bool) (a : W64) (e : W32) (evon : Bool),
    let i : Instr := .resume h core cv a 0#64 e evon
    Launches i s →
    let d := s.cur.die
    let q := s.cur.queue
    let c := 64 * d + core.toNat
    let p := qPart (s.queue d q)
    let x := partCtx s d p
    (∀ f, docGet s d p a 256 = .error f → exec i s = .next (recDone s i (some f)))
    ∧ ∀ hd, docGet s d p a 256 = .ok hd →
      (cv = true → (s.core c).dead = true → exec i s = .next (recDone s i (some 0x40404001#32)))
      ∧ (cv = true → (s.core c).dead = false → c ∉ partCores s d p → exec i s = .next (stopQueue s d q 0x80505001#32 s.cur.recn))
      ∧ ((cv = true → (s.core c).dead = false ∧ c ∈ partCores s d p) →
        let held := findHeld s d [a]
        let ts := resumeTeams s d p (if cv then some c else none) (field hd 0x1C 1) (held.map fun y => y.2)
        let free (t : Nat) : Bool := canTake s t && blocksFree s x a t
        let here (t : Nat) : Prop := s.groupsOf t ≠ [] ∧ t / 512 = d
        let lone := field hd 0x1F 1 % 2 = 1
        ((lone ∨ ∀ t ∈ ts, ¬here t) → exec i s = .next (recDone s i (some (shapeFault s x a))))
        ∧ (¬lone → (∃ t ∈ ts, here t) → (∀ t ∈ ts, free t = false) → exec i s = .next s)
        ∧ ∀ before t after, ts = before ++ t :: after → (∀ y ∈ before, free y = false) → free t = true → ¬lone → (∃ t ∈ ts, here t) →
          exec i s = .next (match held with
            | some (hq, y) => (match restoreHeld s x y (t / 8) [t] (some (d, q, s.cur.recn)) with
              | .ok v => standRec (dropHeld v d hq y) d q s.cur.recn i
              | .error f => recDone s i (some f))
            | none => let ls := leaseSet s d q
              match restoreAll s x [(t, a, none)] (fun t _ m k =>
                ⟨{ foreignRec s d m ls (d, q, s.cur.recn) with team := t % 8 }, k, m.stackb⟩) ls with
              | .ok v => let v := releaseRestored v t
                standRec { v with fresh := v.fresh + 1 } d q s.cur.recn i
              | .error f => recDone s i (some f))))
  ∧ (∀ (s : State) (x : Ctx) (a : W64),
    (∀ f, readImg s x a = .error f → shapeFault s x a = f)
    ∧ ∀ m, readImg s x a = .ok m → shapeFault s x a = 0x40505004#32 ∨ shapeFault s x a = 0x40505005#32)
  ∧ (∀ (s : State) (h : RecHdr) (core : BitVec 6) (cv : Bool) (a table : W64) (e : W32) (evon : Bool), table ≠ 0#64 →
    let i : Instr := .resume h core cv a table e evon
    Launches i s →
    let d := s.cur.die
    let p := qPart (s.queue d s.cur.queue)
    let x := partCtx s d p
    (∀ f, docGet s d p a 0x120 = .error f → exec i s = .next (recDone s i (some f)))
    ∧ ∀ hd, docGet s d p a 0x120 = .ok hd →
      let cw := field hd 6 1
      let ch := field hd 7 1
      (shapeOk cw ch = false → exec i s = .next (recDone s i (some 0x60101003#32)))
      ∧ ∀ tb ih, shapeOk cw ch = true → docGet s d p table (8 * (cw * ch)) = .ok tb →
        let at_ (k : Nat) : W64 := BitVec.ofNat 64 (field tb (8 * k) 8)
        docGet s d p (at_ 0) 256 = .ok ih →
        let team := field ih 0x1C 1
        let fit := (gridsFit s d p cw ch (BitVec.ofNat 32 (field ih 0x18 4))).filter fun g => !cv || g.2.contains (64 * d + core.toNat)
        let dead := cv = true ∧ (s.core (64 * d + core.toNat)).dead = true
        let whole := field ih 0x1F 1 % 2 = 1 ∧ ∃ g ∈ fit, ∀ m ∈ g.2, s.groupsOf (8 * m + team) ≠ []
        let free (ms : List Nat) : Bool := (ms.all fun m => canTake s (8 * m + team))
          && (ms.zip ((List.range (cw * ch)).map at_)).all fun y => blocksFree s x y.2 (8 * y.1 + team)
        (dead → exec i s = .next (recDone s i (some 0x40404001#32)))
        ∧ (¬dead → fit = [] → exec i s = .next (recDone s i (some 0x60101003#32)))
        ∧ (¬dead → fit ≠ [] → ¬whole → exec i s = .next (recDone s i (some (match readCluster s x a cw ch with
          | .error f => f
          | .ok _ => shapeFault s x (at_ 0)))))
        ∧ (¬dead → whole → (∀ g ∈ fit, free g.2 = false) → exec i s = .next s)
        ∧ ∀ before o ms after, ¬dead → whole → fit = before ++ (o, ms) :: after → free ms = true → (∀ y ∈ before, free y.2 = false) →
          (∀ f, readCluster s x a cw ch = .error f → exec i s = .next (recDone s i (some f)))
          ∧ ∀ bs, readCluster s x a cw ch = .ok bs →
            let held := findHeld s d ((List.range (cw * ch)).map at_)
            let js : List (Option Job) := match held with | some (_, y) => y.jobs.map some | none => ms.map fun _ => none
            let ls : List Lease := match held with
              | some (_, y) => (y.jobs.head?.map fun j => j.r.leases).getD []
              | none => leaseSet s d s.cur.queue
            let re := (d, s.cur.queue, s.cur.recn)
            let job (t : Nat) (j : Option Job) (m : Img) (k : KHdr) : Job := match j with
              | some j => { j with hdr := k, r := { j.r with
                jacc := m.jacc, sdepth := BitVec.ofNat 8 (m.f 0x30 4), team := t % 8, resumed := some re } }
              | none => ⟨{ foreignRec s d m ls re with team := t % 8 }, k, m.stackb⟩
            exec i s = .next (match restoreAll s x ((ms.map fun m => 8 * m + team).zip (((List.range (cw * ch)).map at_).zip js)) job ls with
              | .error f => recDone s i (some f)
              | .ok w =>
                let v := joinCluster w o ms team cw ch bs
                standRec (match held with | some (hq, y) => dropHeld v d hq y | none => { v with fresh := v.fresh + 1 }) d s.cur.queue s.cur.recn i))
  ∧ (∀ (s : State) (d p cw ch : Nat) (pw : W32),
    let gs := (gridsOf s d p).filter fun g => clCw (s.core g.1).clcfg = cw && clCh (s.core g.1).clcfg = ch
    let same (g : Nat × List Nat) : Bool := g.2.all fun m => (s.core m).pword = pw
    gridsFit s d p cw ch pw = if ∃ g ∈ gs, same g = true then gs.filter same else gs)
  ∧ (∀ (s : State) (h : RecHdr) (set : Byte) (at_ : W64), Launches (.slice h set at_) s →
    let i : Instr := .slice h set at_
    let d := s.cur.die
    let q := s.cur.queue
    let named := (sliceMasks s set.toNat).getLsbD (64 * d + q) || (sliceMasks s set.toNat).getLsbD (256 + 64 * d + q)
    (s.slice ≠ none → exec i s = .next s)
    ∧ (s.slice = none → named = true → exec i s = .next (stopQueue s d q 0x80505001#32 s.cur.recn))
    ∧ (s.slice = none → named = false → s.fab.tlock = false → exec i s = .next (recDone s i (some 0xC0303002#32)))
    ∧ (s.slice = none → named = false → s.fab.tlock = true → at_.toNat < s.time.toNat + 10000 →
      exec i s = .next (recDone s i (some 0xC0303001#32)))
    ∧ (s.slice = none → named = false → s.fab.tlock = true → s.time.toNat + 10000 ≤ at_.toNat →
      exec i s = .next { standRec s d q s.cur.recn i with slice := some ⟨set.toNat, at_.toNat, d, q, s.cur.recn, [], false⟩ }))

/-- R357, R373, R374, R378, R382, R385–R388, R395, R401, R403, R405, R406: what the Docent does between its records. TAIL is read, and a
ring that overflows stops its queue; a queue starts at its DONE word; a lease's pages are pinned or it fails; a tile goes to the
core with the fewest records, from the queue of the greatest effective priority; a drain whose budget is over halts what runs; a held
image resumes where a team is free; an `evwait` beyond its budget halts its team; the watchdog stops a cycle that stood at two
ticks; a lost link or core is logged, and the jobs of the core end. -/
def Obligations.DocentEvents : Prop :=
  (∀ (s : State) (d q : Nat),
    let x := s.queue d q
    ((qRun x && dctlEn (s.die d)) = false → exec (.queueTailWake d q) s = .next s)
    ∧ ((qRun x && dctlEn (s.die d)) = true →
      (∀ f, docGet s d (qPart x) x.base 4 = .error f → exec (.queueTailWake d q) s = .next (stopQueue s d q f x.next))
      ∧ ∀ bs, docGet s d (qPart x) x.base 4 = .ok bs →
        let tail : W32 := BitVec.ofNat 32 (natOf bs)
        let u := s.modQueue d q fun y => { y with tail := tail }
        exec (.queueTailWake d q) s = .next (if qSize x < (tail - x.head).toNat then stopQueue u d q 0x80505003#32 tail else u)))
  ∧ (∀ (s : State) (d q : Nat) (fault n : W32),
    let x := s.queue d q
    let y : Queue := { x with stopped := true, ctl := x.ctl &&& 0x7FFFFFFF#32, fault := fault, fseq := n &&& 0xFFFF#32, await := none }
    stopQueue s d q fault n = writeWords (s.modQueue d q fun _ => y) d q)
  ∧ (∀ (s : State) (d q : Nat),
    let x := s.queue d q
    let u := s.modQueue d q fun y => { y with ctl := y.ctl ||| 0x80000000#32, stopped := false, fault := 0#32, since := s.cycle.toNat }
    (qRun x = true → exec (.queueStart d q) s = .next s)
    ∧ (qRun x = false →
      (∀ f, globalBytes u (partCtx u d (qPart x)) .load (x.base + 0x84#64) 4 = .error f → exec (.queueStart d q) s = .next (stopQueue u d q f 0#32))
      ∧ ∀ bs, globalBytes u (partCtx u d (qPart x)) .load (x.base + 0x84#64) 4 = .ok bs → x.loop = none →
        let done : W32 := BitVec.ofNat 32 (natOf bs)
        let keep := if done = x.done then x.recs else []
        let at_ := done + BitVec.ofNat 32 keep.length
        exec (.queueStart d q) s = .next (u.modQueue d q fun y => { y with
          head := done, done := done, recs := keep, loop := none, next := at_, tail := at_ })))
  ∧ (∀ (s : State) (d slot : Nat) (op : CatOp) (n : W32), d < 4 → slot < 65536 →
    exec (.catalogueStep d slot op n) s = .next (slotStep s (BitVec.ofNat 10 s.ownAcc ++ (BitVec.ofNat 2 d ++ (0#4 ++ BitVec.ofNat 16 slot))) op n))
  ∧ (∀ (s : State) (d q : Nat) (r w part : Bool) (base len : W64) (h : RecHdr) (k : OpRec) (n : W32), s.recOf d q n = some k →
    k.ins = .lease h r w part base len →
    let p := qPart (s.queue d q)
    let va := (base.extractLsb' 0 56).toNat
    let gone := if part then s.modDie d fun y => { y with pleases := Tbl.put p ((Tbl.get [] p y.pleases).erase ⟨base, len, r, w⟩) y.pleases }
      else s.modQueue d q fun y => { y with leases := y.leases.erase ⟨base, len, r, w⟩ }
    (∀ f, pinPages s p r w (va + len.toNat) 8192 va = .error f → exec (.leasePinComplete d q n.toNat) s = .next (completeRec gone d q n f true))
    ∧ ∀ ps, pinPages s p r w (va + len.toNat) 8192 va = .ok ps →
      let fresh := ps.filter fun x => !(s.die d).pins.any (samePage x)
      exec (.leasePinComplete d q n.toNat) s = .next (if 8192 < (s.die d).pins.length + fresh.length then completeRec gone d q n 0x80505007#32 true
        else docentTurn (prunePins (completeRec (s.modDie d fun y => { y with pins := y.pins ++ fresh }) d q n 0#32 false) d) d))
  ∧ (∀ (s : State) (p va len bits n : Nat) (r w : Bool) (e : W64) (k : Nat), walk s.mem (s.part p).root va = .ok (.plain e k bits) →
    va < 2 ^ 56 → 0 < len → bits = 16 ∨ bits = 29 → va % 2 ^ bits + len ≤ 2 ^ bits →
    pinPages s p r w (va + len) (n + 1) va =
      if (r = true → e.getLsbD 8 = true) ∧ (w = true → e.getLsbD 9 = true) then .ok [⟨p, va / 2 ^ bits, decide (bits = 29), false, e, 0#64⟩]
      else .error 0x80505006#32)
  ∧ (∀ (s : State) (d : Nat), (∀ q < 64, queuePlaces s d q = none) → exec (.tilePlace d) s = .next s)
  ∧ (∀ (s : State) (d q t : Nat) (r : OpRec) (ms : List Nat), q < 64 → queuePlaces s d q = some (r, t, ms) →
    let e := effPrio s d q r
    let last := Tbl.get 63 e (s.die d).lastq
    let after (q : Nat) : Nat := (q + 63 - last) % 64
    last < 64 → (∀ q' < 64, ∀ x, queuePlaces s d q' = some x → effPrio s d q' x.1 ≤ e ∧ (effPrio s d q' x.1 = e → after q ≤ after q')) →
    exec (.tilePlace d) s = .next ((placeTile s d q r t ms).modDie d fun y => { y with lastq := Tbl.put e q y.lastq }))
  ∧ (∀ (s : State) (d q : Nat) (r : OpRec) (h : RecHdr) (tiles : BitVec 24) (entry arg : W64) (p3 : JobP3) (tile : Nat) (ms : List Nat),
    r.ins = .job h tiles entry arg p3 → queuePlaces s d q = some (r, tile, ms) →
    let p := qPart (s.queue d q)
    let prio := if h.pov then h.prio.toNat else qPrio (s.queue d q)
    let age := dctlAge (s.die d)
    effPrio s d q r = min 63 (prio + if 24 ≤ age then 0 else (s.cycle.toNat - (s.queue d q).since) / 2 ^ (age + 8))
    ∧ tile < tiles.toNat ∧ (tile = r.next ∨ tile ∈ r.back) ∧ (r.next < tiles.toNat → tile ≤ r.next)
    ∧ (s.queue d q).drain = none ∧ qRun (s.queue d q) = true ∧ leaseWaits (s.queue d q) r.n = false
    ∧ (∃ c, ms = [c] ∧ c ∈ partCores s d p ∧ qualifies s d c p3 = true
      ∧ (p3.place = true → (partCores s d p)[tile % (partCores s d p).length]? = some c)
      ∧ (p3.place = false → ∀ c' ∈ partCores s d p, qualifies s d c' p3 = true →
        (s.core c).jobs.length < (s.core c').jobs.length ∨ ((s.core c).jobs.length = (s.core c').jobs.length ∧ c ≤ c')))
    ∧ HamperGrows s (placeTile s d q r tile ms) ms (fun _ => ⟨entry, arg, BitVec.ofNat 32 tile, if p3.evon then p3.event else 0#32, p3.evon,
      p3.evtile, r.acc, r.depth, p3.team.toNat, p3.anyteam, q, h.seq, d, r.n, r.leases, none, none⟩))
  ∧ (∀ (s : State) (d q : Nat),
    let u (dr : Drain) := s.modQueue d q fun x => { x with drain := some { dr with escalated := true } }
    ((s.queue d q).drain = none → exec (.drainEscalate d q) s = .next s)
    ∧ ∀ dr, (s.queue d q).drain = some dr → exec (.drainEscalate d q) s = .next (
      if dr.escalated = false ∧ dr.deadline ≤ s.time.toNat then (queueTeams (u dr) d q).foldl (fun s t => requestHalt s t 1) (u dr) else s))
  ∧ (∀ (s : State) (d q : Nat),
    (nextHeld s d q = none → exec (.resumeListResume d q) s = .next s)
    ∧ (∀ h, nextHeld s d q = some h → heldTarget s d h = none → exec (.resumeListResume d q) s = .next s)
    ∧ ∀ h o ts, nextHeld s d q = some h → heldTarget s d h = some (o, ts) →
      let c := partCtx s d h.part
      ((∃ x ∈ ts.zip h.addrs, blocksFree s c x.2 x.1 = false) → exec (.resumeListResume d q) s = .next s)
      ∧ ((∀ x ∈ ts.zip h.addrs, blocksFree s c x.2 x.1 = true) → exec (.resumeListResume d q) s = .next (docentTurn
        (match restoreHeld s c h o ts (h.jobs.head?.bind fun j => j.r.resumed) with
          | .ok v => dropHeld v d q h
          | .error f => failHeld s h f) d)))
  ∧ (∀ (s : State) (d q : Nat) (h : Held), nextHeld s d q = some h →
    (s.queue d q).drain = none ∧ dctlEn (s.die d) = true
    ∧ ((s.queue d q).resume.head? = some h ∧ qRun (s.queue d q) = true ∨ h ∈ (s.die d).held ∧ h.why = 3 ∧ h.hit = true))
  ∧ (∀ (s : State) (o : Ops) (gid : Nat) (j : Job), (s.group gid).fmask ≠ 0#32 → s.jobOf gid = some j → j.r.member = none →
    (∀ l, (s.group gid).fmask.getLsbD l = true → ((s.group gid).thread l).wait = some (.evwait o)) →
    let tid := s.tidOf gid
    let p := s.pnum (cidOf gid)
    let evb := dctlEvb (s.die (dieOf (cidOf gid)))
    let due := (s.team tid).stopWhy = 0 ∧ evb ≠ 31 ∧ (s.group gid).since.toNat + 2 ^ (evb + 10) ≤ s.cycle.toNat ∧ partTeams s p < (freeSlots s p).length
    (¬due → exec (.evwaitBudgetExpire gid) s = .next s)
    ∧ (due → (s.team tid).st = .run → exec (.evwaitBudgetExpire gid) s = .next (s.modTeam tid fun t => { t with stopEv := evwaitName s gid o, stopWhy := 3 })))
  ∧ (∀ (s : State) (d : Nat),
    let all := watchWaiters s d
    let ws := stuckSet s d all all.length all
    let cycle := (ws.head?.map fun w => stuckChain s d ws (ws.length + 1) w []).getD []
    (cycle = [] → exec (.watchdogTick d) s = .next (s.modDie d fun x => { x with stuck := [] }))
    ∧ (cycle ≠ [] → (∃ e ∈ cycle, e ∉ (s.die d).stuck) → exec (.watchdogTick d) s = .next (s.modDie d fun x => { x with stuck := cycle }))
    ∧ (cycle ≠ [] → (∀ e ∈ cycle, e ∈ (s.die d).stuck) → ∃ t, exec (.watchdogTick d) s = .next t
      ∧ (∀ k e, cycle[k]? = some e → k < 8 → Tbl.get 0#32 k (t.die d).dlog = e)
      ∧ (∀ k, cycle.length ≤ k → Tbl.get 0#32 k (t.die d).dlog = 0#32)
      ∧ (∀ w ∈ ws, w.event ∈ cycle → (∃ e ∈ cycle, w ∈ signallers s d ws e) → (s.queue d w.queue).stopped = false →
        (t.queue d w.queue).stopped = true ∧ (t.queue d w.queue).fault = 0x8050500A#32)
      ∧ ∀ q, (∀ w ∈ ws, w.queue = q → w.event ∉ cycle ∨ ∀ e ∈ cycle, w ∉ signallers s d ws e) → (t.queue d q).stopped = (s.queue d q).stopped)
    ∧ ∀ w ∈ ws, (s.slot (evDie w.event) (evSlot w.event)).reached = false)
  ∧ (∀ (s : State) (d site dir : Nat),
    exec (.linkdown d site dir) s = .next (
      if ((site < 72 ∧ dir < 2) ∨ (site = 72 ∧ 2 ≤ dir ∧ dir ≤ 4)) ∧ (site, dir) ∉ (s.die d).links then
        s.modDie d fun x => { x with
          links := x.links ++ [(site, dir)]
          errlog := x.errlog ++ [(0x80101001#32, siteOf d site (if dir < 2 then 9 + dir else 11 + dir), 0#64)] }
      else s))
  ∧ (∀ (s : State) (c : Nat),
    ((s.core c).lost = true ∨ ctlReaches s c = true → exec (.coreLost c) s = .next s)
    ∧ ((s.core c).lost = false → ctlReaches s c = false → followed s c = [] → (s.core c).jobs = [] → (∀ t < 8, (s.team (8 * c + t)).launching = none) →
      (∀ k j, k < 8 → (s.team (8 * c + k)).job = some j → j.r.member = none) → ∃ t, exec (.coreLost c) s = .next t
      ∧ (t.core c).lost = true ∧ (t.core c).jobs = [] ∧ (t.core c).mseq = [] ∧ (t.core c).copies = [] ∧ (t.core c).l1 = []
      ∧ (∀ k < 8, (t.team (8 * c + k)).job = none)
      ∧ (t.die (dieOf c)).errlog = (s.die (dieOf c)).errlog ++ [(0x8050500B#32, coreSite s c, 0#64)]
      ∧ t.mem = s.mem
      ∧ ∀ k j, k < 8 → (s.team (8 * c + k)).job = some j →
        ∃ r ∈ (t.die (dieOf c)).reports, r.cid = c ∧ r.team = k ∧ r.job = j.r ∧ r.failed = true
          ∧ r.status = if (s.team (8 * c + k)).stopWhy = 0 then 0x8050500B#32 else 0x40505001#32))
  ∧ (∀ (s : State) (c t : Nat),
    let follows : Prop := ∃ e ∈ (s.core c).mseq, (∃ o x y, e.ins = .mmaP o x y) ∧ e.gid / 32 + 1 = c ∧ e.old = 0 ∧ s.tidOf e.gid ∈ jobTeams s t
    ((s.team t).stopWhy ≠ 0 → lostStatus s c t = 0x40505001#32)
    ∧ ((s.team t).stopWhy = 0 → s.clusterOf t = none → lostStatus s c t = 0x8050500B#32)
    ∧ ((s.team t).stopWhy = 0 → s.clusterOf t ≠ none → (follows → lostStatus s c t = 0x40202001#32) ∧ (¬follows → lostStatus s c t = 0x60101002#32)))

/-! ## Registers, bring-up and the host (15, 16, 18, 21) -/

/-- R4, R10, R352, R353, R365–R367, R372, R420–R424, R434, R452–R465: the device registers and the hub. A write needs its alignment and its level,
keeps the bits that it may not change, and has the effect its register gives; vitrines are pinned under their checks and released with
their dirty lines; an invalidation runs until it is done; a debug stop is armed, taken or missed; a snapshot or a tick writes one
record. Power-good resets all but flash; Stage B accepts its images, tests and repairs the dies; Stage C enables them. -/
def Obligations.RegistersAndHub : Prop :=
  (∀ (s : State) (p : Priv) (off size : Nat) (v : W64), ((size = 4 ∨ size = 8) → off % size ≠ 0) ∨ regAt off = none →
    exec (.registerWrite p off size v) s = .next s)
  ∧ (∀ (s : State) (p : Priv) (off size : Nat) (v : W64) (r : DReg), regAt off = some r → off % size = 0 → size = (if r.wide then 8 else 4) →
    let old := regRead s r
    let raw : W64 := if r.wide then v else (v.extractLsb' 0 32).setWidth 64
    let not : W64 := match p with
      | .user => r.sup ||| r.fw
      | .sup => r.fw &&& ~~~r.sup
      | .fw => 0#64
    let own := (r.sup ||| r.fw) &&& ~~~not
    exec (.registerWrite p off size v) s = .next (if (old ^^^ raw) &&& not ≠ 0#64 then s
      else regEffect s r ((old &&& ~~~own) ||| (raw &&& own)) raw))
  ∧ (∀ (s : State) (p : Priv) (off : Nat) (v : W64) (r : DReg), regAt off = some r → off % 4 = 0 → r.wide = true →
    let old := regRead s r
    exec (.registerWrite p off 4 v) s = exec (.registerWrite p (off / 8 * 8) 8
      (if off % 8 = 4 then v.extractLsb' 0 32 ++ old.extractLsb' 0 32 else old.extractLsb' 32 32 ++ v.extractLsb' 0 32)) s)
  ∧ (∀ (s : State) (p : Priv) (off : Nat) (v : W64) (r r' : DReg), regAt off = some r → regAt (off + 4) = some r' → off % 8 = 0 →
    r.wide = false → r'.wide = false →
    exec (.registerWrite p off 8 v) s = .next (match regWrite s p r ((v.extractLsb' 0 32).setWidth 64) with
      | .error _ => s
      | .ok t => match regWrite t p r' ((v.extractLsb' 32 32).setWidth 64) with
        | .error _ => s
        | .ok u => u))
  ∧ (∀ (s : State) (v : W64) (q n : Nat) (hi : Bool),
    regRead (regEffect s .snapbase v v) .snapbase = v ∧ regRead (regEffect s .tsbase v v) .tsbase = v
    ∧ regRead (regEffect s .sltbase v v) .sltbase = v ∧ regRead (regEffect s (.frbase q) v v) (.frbase q) = v
    ∧ regRead (regEffect s (.exp n hi) v v) (.exp n hi) = v
    ∧ regRead (regEffect s .snapctl v v) .snapctl = (v.extractLsb' 0 32).setWidth 64
    ∧ regRead (regEffect s (.dctl q) v v) (.dctl q) = (v.extractLsb' 0 32).setWidth 64
    ∧ (partInUse s q = false → regRead (regEffect s (.bnd q) v v) (.bnd q) = v ∧ regRead (regEffect s (.defhnd q) v v) (.defhnd q) = v
      ∧ regRead (regEffect s (.savebase q) v v) (.savebase q) = v ∧ regRead (regEffect s (.stkbase q) v v) (.stkbase q) = v)
    ∧ (partInUse s q = true → regEffect s (.bnd q) v v = s ∧ regEffect s (.defhnd q) v v = s ∧ regEffect s (.accst q) v v = s)
    ∧ regEffect s .oldacc v v = s ∧ regEffect s .pkgstat v v = s ∧ regEffect s (.qstat q n) v v = s)
  ∧ (∀ d q c : Nat, d < 4 → q < 64 → c < 64 →
    regAt 0 = some .pkgstat ∧ regAt 0x300 = some .dbgctl ∧ regAt 0x10000 = some .pubacc ∧ regAt (0x1001000 + 0x100000 * d) = some (.dctl d)
    ∧ regAt (0x1002000 + 0x100000 * d + 8 * q) = some (.qbase d q) ∧ regAt (0x1002200 + 0x100000 * d + 4 * q) = some (.qctl d q)
    ∧ regAt (0x1002400 + 0x100000 * d + 8 * q) = some (.qstat d q) ∧ regAt (0x1003000 + 0x100000 * d) = some (.xlinv d)
    ∧ regAt (0x2000000 + 0x100000 * d + 0x1000 * c) = some (.clcfg (64 * d + c)) ∧ regAt (0x2000058 + 0x100000 * d + 0x1000 * c) = some (.gslots (64 * d + c))
    ∧ (q < 16 → regAt (0x10100 + 0x20 * q) = some (.root q) ∧ regAt (0x10400 + 0x40 * q) = some (.defhnd q)
      ∧ regAt (0x1000100 + 0x100000 * d + 8 * q) = some (.vitbase d q) ∧ regAt (0x1001100 + 0x100000 * d + 8 * q) = some (.pcore d q)))
  ∧ (∀ (s : State) (d p : Nat) (mask : W64),
    let taken := ∃ p' m, (p', m) ∈ (s.die d).pcore ∧ p' ≠ p ∧ m &&& mask ≠ 0#64
    let t : State := s.modDie d fun x => { x with pcore := if mask = 0#64 then Tbl.del p x.pcore else Tbl.put p mask x.pcore }
    (taken → exec (.pcoreWrite d p mask) s = .next s)
    ∧ (¬taken → exec (.pcoreWrite d p mask) s = .next (if partInUse s p = true ∧ partInUse t p = false then endPartition t p else t)))
  ∧ (∀ (s : State) (p : Nat),
    let t := endPartition s p
    (∀ d, (∃ x, (d, x) ∈ s.dies) → Tbl.get [] p (t.die d).pleases = [])
    ∧ (∀ d q, q ≠ p → Tbl.get [] q (t.die d).pleases = Tbl.get [] q (s.die d).pleases)
    ∧ (∀ d, (t.die d).queues = (s.die d).queues ∧ (t.die d).pcore = (s.die d).pcore ∧ ∀ x ∈ (t.die d).pins, x ∈ (s.die d).pins)
    ∧ t.mem = s.mem ∧ t.cores = s.cores ∧ t.groups = s.groups ∧ t.teams = s.teams ∧ t.acc = s.acc)
  ∧ (∀ (s : State) (p : Nat) (v : W64),
    let x := s.part p
    let w := v &&& 0xFFFFFFFFE0001#64
    let up := v.getLsbD 0 = true ∧ x.root.getLsbD 0 = false
    let bad := partInUse s p = true ∨ (up ∧ (x.defhnd = 0#64 ∨ x.savesz = 0#32 ∨ x.saven = 0#16))
    let t : State := s.setPart p { x with
      root := w, aacc := if up then (if x.lead then s.acc.pubacc + 1#16 else s.acc.pubacc) else x.aacc }
    exec (.rootWrite p v) s = .next (if bad then s else if x.root.getLsbD 0 = true ∧ v.getLsbD 0 = false then endPartition t p else t))
  ∧ (∀ (s : State) (v : W32), exec (.pubaccWrite v) s = .next (
      if ∃ e ∈ s.acc.parts, e.2.root.getLsbD 0 = true then s else { s with acc := { s.acc with pubacc := v.extractLsb' 0 16 } }))
  ∧ (∀ (s : State) (d n : Nat) (v : W64),
    let x := s.vit d n
    let goes_ (y : Vit) : State := s.modDie d fun e => { e with vit := Tbl.put n y e.vit }
    let refuses (r : Nat) : State := (goes_ { x with res := r }).logErr d (0x80202000#32 + BitVec.ofNat 32 r) (siteOf d 72 8) 0#64
    exec (.vitbaseWrite d n v) s = .next (if x.st = 0 then goes_ { x with base := v &&& 0xFFFFFFFE000FF#64 } else refuses 4)
    ∧ exec (.vitrinePin d n) s = .next (
      if x.st = 0 then (if vitCheck s d n = 0 then goes_ { x with en := true, st := 1, res := 0 } else refuses (vitCheck s d n))
      else if x.st = 3 then refuses 4 else s)
    ∧ exec (.vitrineRelease d n) s = .next (goes_ (if x.st = 1 ∨ x.st = 2 then { x with en := false, st := 3 } else x))
    ∧ exec (.vitrinePinDone d n) s = .next (if x.st = 1 then goes_ { x with st := 2 } else s)
    ∧ (x.st ≠ 3 → exec (.vitrineReleaseDone d n) s = .next s)
    ∧ (x.st = 3 → s.mem.wf → ∃ m, exec (.vitrineReleaseDone d n) s = .next { goes_ { x with st := 0 } with mem := m }
      ∧ m.wf ∧ m.pois = s.mem.pois ∧ (∀ a, m.peek a = s.mem.peek a)
      ∧ ∀ a, x.first * 2 ^ 21 ≤ a → a < (x.first + x.chunks) * 2 ^ 21 → Tbl.find a m.l2 = none))
  ∧ (∀ (s : State) (d n : Nat),
    let x := s.vit d n
    let c (y : Vit) (k : Nat) : Prop := y.first ≤ k ∧ k < y.first + y.chunks
    let others := (s.die d).vit.filter fun e => decide (e.1 ≠ n ∧ e.2.st ≠ 0)
    let colour (k : Nat) : Nat := (((x :: others.map fun e => e.2).flatMap fun y => rangeFrom y.first y.chunks).filter fun b => b % 16 = k).length
    (vitCheck s d n = 0 ↔ (1 ≤ x.chunks ∧ x.chunks ≤ 224) ∧ (∀ k, c x k → k / 65536 = d) ∧ (∀ e ∈ others, x.first + x.chunks ≤ e.2.first ∨ e.2.first + e.2.chunks ≤ x.first)
      ∧ ∀ k < 16, colour k ≤ 14))
  ∧ (∀ (s : State) (d p : Nat) (va : W64),
    let goes_ (w : W64) : State := s.modDie d fun x => if x.xlbusy then { x with xllost := true } else { x with xlinv := w, xlbusy := true }
    let part : BitVec 4 := BitVec.ofNat 4 p
    exec (.xlinvPage d p va) s = .next (goes_ (0#2 ++ (0#2 ++ (part ++ (va.extractLsb' 16 40 ++ 0#16)))))
    ∧ exec (.xlinvPartition d p) s = .next (goes_ (1#2 ++ (0#2 ++ (part ++ (0#40 ++ 0#16)))))
    ∧ exec (.xlinvAll d) s = .next (goes_ (2#2 ++ (0#2 ++ (0#4 ++ (0#40 ++ 0#16)))))
    ∧ exec (.xlinvDone d) s = .next (s.modDie d fun x => { x with
      xlbusy := false, tlb := if x.xlbusy then x.tlb.filter fun e => !e.named x.xlinv else x.tlb }))
  ∧ (∀ (s : State) (v : W64),
    let w := v &&& 0x0000FFFFFFF00007#64
    let mode := v.extractLsb' 0 3
    let busy := s.hub.dbgstat = 1#32 ∨ s.hub.dbgstat = 2#32
    let hub (st : W32) : State := { s with hub := { s.hub with dbgctl := w, dbgstat := st } }
    (mode ≠ 0#3 → exec (.debugDisarm v) s = .next s) ∧ (mode ≠ 1#3 ∨ busy → exec (.debugHoldQueue v) s = .next s)
    ∧ (mode ≠ 2#3 ∨ busy → exec (.debugStopJob v) s = .next s) ∧ (mode ≠ 3#3 ∨ busy → exec (.debugStopPartition v) s = .next s)
    ∧ (mode = 0#3 → exec (.debugDisarm v) s = .next { hub 0#32 with
      dies := s.dies.map fun x => (x.1, { x.2 with queues := x.2.queues.map fun y => (y.1, { y.2 with hold := none }) }) })
    ∧ (mode = 1#3 → ¬busy → exec (.debugHoldQueue v) s = .next ((hub 1#32).modQueue (v.extractLsb' 30 2).toNat (v.extractLsb' 24 6).toNat fun q =>
      { q with hold := some (v.extractLsb' 32 16) }))
    ∧ (mode = 2#3 ∨ mode = 3#3 → ¬busy →
      let ts := dbgTeams s w
      let st : W32 := if ts ≠ [] then 1#32 else if mode = 3#3 then 2#32 else if dbgStands s w then 1#32 else 3#32
      exec (if mode = 2#3 then .debugStopJob v else .debugStopPartition v) s =
        .next (ts.foldl (fun u t => requestHalt u t 2) { hub st with hub := { (hub st).hub with dbgimg := 0#64 } })))
  ∧ (∀ (s : State),
    let busy := s.hub.snapctl.getLsbD 0 = true ∧ s.hub.snap = none
    exec .snapinTrigger s = .next (if busy then { s with hub := { s.hub with
      snap := some (BitVec.ofNat 64 ((s.time.toNat + 3071) / 1024 * 1024), 0#8) } } else s))
  ∧ (∀ (s : State),
    (s.hub.snap = none → exec .snapshotLatch s = .next s)
    ∧ ∀ ts tag, s.hub.snap = some (ts, tag) →
      let r := counterRecord s ts.toNat s.hub.snapseq 1 tag.toNat
      exec .snapshotLatch s = .next (if s.time < ts then s else { r.2 with
        mem := s.mem.pokes (s.hub.snapbase.toNat % 2 ^ 52) r.1
        hub := { s.hub with snap := none, snapseq := s.hub.snapseq + 1#32 } }))
  ∧ (∀ (s : State),
    let k := (s.hub.tsctl.extractLsb' 0 5).toNat
    let size := 2 ^ (s.hub.tsctl.extractLsb' 8 5).toNat
    let due := s.hub.tsctl.getLsbD 31 = true ∧ s.time.toNat % 2 ^ k < timeStep s
    let r := counterRecord s (s.time.toNat - s.time.toNat % 2 ^ k) s.hub.tsseq 0 0
    let u : State := { r.2 with cores := s.cores.map fun c => (c.1, { c.2 with ctr := [] }) }
    (¬due → exec .tsTick s = .next s)
    ∧ (due → size ≤ (s.hub.tsput - s.hub.tstake).toNat → exec .tsTick s = .next { u with hub := { s.hub with
      tsseq := s.hub.tsseq + 1#32, tsstat := if s.hub.tsstat = 0xFFFFFFFF#32 then s.hub.tsstat else s.hub.tsstat + 1#32 } })
    ∧ (due → (s.hub.tsput - s.hub.tstake).toNat < size → exec .tsTick s = .next { u with
      mem := s.mem.pokes ((s.hub.tsbase.toNat + 8512 * (s.hub.tsseq.toNat % size)) % 2 ^ 52) r.1
      hub := { s.hub with tsseq := s.hub.tsseq + 1#32, tsput := s.hub.tsput + 1#32 } }))
  ∧ (∀ (s : State) (time : Nat) (seq : W32) (kind tag : Nat), kind < 256 → tag < 256 →
    let r := counterRecord s time seq kind tag
    { r.2 with fresh := s.fresh } = s ∧ r.1.length = 8512 ∧ field r.1 0 8 = time % 2 ^ 64 ∧ field r.1 8 4 = seq.toNat ∧ field r.1 12 1 = kind
    ∧ field r.1 13 1 = tag ∧ field r.1 14 1 = (s.hub.pkgstat.extractLsb' 20 4).toNat ∧ field r.1 15 1 = (s.hub.tsctl.extractLsb' 0 5).toNat
    ∧ ∀ c, c < 256 →
      (s.partOf c = none ∨ (s.die (dieOf c)).fenced = true → field r.1 (0x40 + 32 * c) 32 = 0)
      ∧ (s.partOf c ≠ none → (s.die (dieOf c)).fenced = false → field r.1 (0x40 + 32 * c) 4 = (Tbl.get 0#32 0 (s.core c).ctr).toNat
        ∧ field r.1 (0x58 + 32 * c) 4 = (Tbl.get 0#32 6 (s.core c).ctr).toNat))
  ∧ (∀ (s : State) (recover : Bool), exec (.powerGood recover) s = .next { State.reset with
      hub := { Hub.zero with recover := recover, flash := s.hub.flash, pkgstat := 1#32, watis := 3#2 }
      cur := s.cur, agenda := s.agenda, rr := s.rr, fresh := s.fresh })
  ∧ (∀ (s : State) (kind : Byte) (i : Image),
    (pickImage s kind = some i → accepted s kind i = true ∧ (Tbl.find (2 * kind.toNat) s.hub.flash = some i
      ∨ (Tbl.find (2 * kind.toNat + 1) s.hub.flash = some i ∧ ∀ j, Tbl.find (2 * kind.toNat) s.hub.flash = some j → accepted s kind j = false)))
    ∧ (accepted s kind i = true → i.magic = 0x4D495848#32 ∧ i.version = 1#16 ∧ i.kind = kind ∧ i.pubkey.length = 1793
      ∧ 1 ≤ i.sig.length ∧ i.sig.length ≤ 1462 ∧ i.digest = hash64 i.body ∧ Config.sigOk i.pubkey i.sig (flashHead i) = true
      ∧ ((i.keysel = 0#8 ∧ hash64 i.pubkey = Config.rootDigest ∧ vendoff s = false)
        ∨ (i.keysel = 1#8 ∧ ∃ o, Tbl.find 8 s.hub.flash = some o ∧ hash64 i.pubkey = Config.ownerDigest o.body))))
  ∧ (∀ (s : State) (ts : List DieTest),
    (s.hub.pkgstat.extractLsb' 0 4 ≠ 1#4 → exec (.stageB ts) s = .next s)
    ∧ (s.hub.pkgstat.extractLsb' 0 4 = 1#4 → s.hub.recover = true ∨ pickImage s 1#8 = none →
      exec (.stageB ts) s = .next { s with hub := { s.hub with pkgstat := 0x80002#32 } })
    ∧ ∀ fw, s.hub.pkgstat.extractLsb' 0 4 = 1#4 → s.hub.recover = false → pickImage s 1#8 = some fw →
      let owner : W32 := if fw.keysel = 1#8 then 0x40000#32 else 0#32
      (pickImage s 2#8 = none → exec (.stageB ts) s = .next { s with hub := { s.hub with pkgstat := 0xF#32 ||| owner, booterr := 0xE0101002#32 } })
      ∧ ∀ cfg, pickImage s 2#8 = some cfg → ∃ t, exec (.stageB ts) s = .next t ∧ t.hub.fw = some fw ∧ t.hub.cfg = some cfg ∧ t.mem = s.mem
        ∧ t.hub.pkgstat &&& 0xFFFF00F0#32 = owner ∧ (t.hub.bist.length ≤ 256)
        ∧ (∀ d < 4, let x := nth ⟨[], [], [], []⟩ d ts
          let failed := x.failed ++ cfgFailed (Config.cfgSites cfg.body) d
          let bad (r : Nat) : List Nat := (List.range 8).filter fun c => failed.contains (9 * r + c)
          let spare (r : Nat) : Bool := !failed.contains (9 * r + 8)
          let cur := (List.range 8).find? spare
          let mends : Prop := cur ≠ none ∧ ∀ r < 8, bad r = [] ∨ (∃ c, bad r = [c]) ∧ spare r = true ∧ cur ≠ some r
          ((t.die d).fenced = true ↔ ¬mends ∨ x.routerFail = true ∨ x.sliceFail = true ∨ x.trainFail = true)
          ∧ (mends → ∀ r < 8,
            (bad r = [] → Tbl.get 0#32 r (t.die d).rowmap = 0x76543210#32
              ∧ Tbl.get 0#32 r (t.die d).rowinfo = if cur = some r then 0x2F#32 else if spare r then 0xF#32 else 0x3F#32)
            ∧ ∀ c, bad r = [c] → Tbl.get 0#32 r (t.die d).rowmap = packCols ([0, 1, 2, 3, 8, 4, 5, 6, 7].filter fun k => k ≠ c)
              ∧ Tbl.get 0#32 r (t.die d).rowinfo = 0x10#32 + BitVec.ofNat 32 c))
        ∧ ((∀ d < 4, (t.die d).fenced = false) ∨ Config.cfgDegok cfg.body = true → t.hub.pkgstat.extractLsb' 0 4 = 2#4)
        ∧ ((∃ d < 4, (t.die d).fenced = true) → Config.cfgDegok cfg.body = false → t.hub.pkgstat.extractLsb' 0 4 = 0xF#4
          ∧ (t.hub.booterr = 0x80303001#32 ∨ t.hub.booterr = 0x80303002#32 ∨ t.hub.booterr = 0x80606001#32)))
  ∧ (∀ (s : State),
    let ready := s.hub.pkgstat.extractLsb' 0 4 = 2#4 ∧ s.hub.pkgstat.getLsbD 19 = false
    (¬ready → exec .stageC s = .next s)
    ∧ (ready → ∃ t, exec .stageC s = .next t ∧ t.hub.pkgstat.extractLsb' 0 4 = 3#4 ∧ t.hub.pkgstat.getLsbD 19 = false
      ∧ t.hub.pkgstat.extractLsb' 8 8 = s.hub.pkgstat.extractLsb' 8 8 ∧ t.hub.pkgstat.getLsbD 18 = s.hub.pkgstat.getLsbD 18
      ∧ ∀ d < 4, t.hub.pkgstat.getLsbD (20 + d) = !(s.die d).fenced
        ∧ t.die d = if (s.die d).fenced then s.die d else { s.die d with dctl := (s.die d).dctl ||| 0x8000#32, cat := [] }))
  ∧ (∀ (s : State) (nonce : BitVec 256),
    let stage := s.hub.pkgstat.extractLsb' 0 4
    let body := bytesOf 32 nonce.toNat ++ (Config.shake256 Config.rom 64 ++ (Config.shake256 ((s.hub.fw.map flashBytes).getD []) 64
      ++ (Config.shake256 ((s.hub.cfg.map flashBytes).getD []) 64 ++ (Config.shake256 (((pickImage s 5#8).map flashBytes).getD []) 64
      ++ Config.shake256 (((Tbl.find 8 s.hub.flash).map flashBytes).getD []) 64))))
    exec (.attestationRequest nonce) s = .next (if stage = 2#4 ∨ stage = 3#4 then
      { s with hub := { s.hub with report := body ++ Config.attest body } } else s))
  ∧ (∀ (s : State) (i : Image) (copy : Option Bool) (writable : Bool),
    let stage := s.hub.pkgstat.extractLsb' 0 4
    let recovery := s.hub.pkgstat.getLsbD 19 = true ∧ s.hub.recover = true
    let newer := s.hub.pkgstat.getLsbD 19 = false ∧ accepted s 4#8 i = true
      ∧ ∀ o, Tbl.find 8 s.hub.flash = some o → Config.ownerSerial o.body < Config.ownerSerial i.body
    let takes := writable = true ∧ match copy with
      | none => i.kind = 4#8 ∧ (recovery ∨ newer)
      | some _ => i.kind = 1#8 ∧ recovery
    let slot := match copy with | none => 8 | some c => if c then 3 else 2
    (stage ≠ 2#4 → stage ≠ 3#4 → exec (.ownerEnrol i copy writable) s = .next s)
    ∧ (stage = 2#4 ∨ stage = 3#4 → takes → exec (.ownerEnrol i copy writable) s = .next { s with hub :=
      { s.hub with flash := Tbl.put slot i s.hub.flash, enrol := 0#32 } })
    ∧ (stage = 2#4 ∨ stage = 3#4 → ¬takes → exec (.ownerEnrol i copy writable) s = .next { s with hub := { s.hub with enrol := 0xE0101003#32 } }))
  ∧ (∀ (s : State) (port : Bool),
    let w := s.hub.watis &&& (if port then 1#2 else 2#2)
    ∃ t, exec (.watisPortDown port) s = .next t ∧ t.hub = { s.hub with watis := w } ∧ { t with hub := s.hub, dies := s.dies } = s
      ∧ ∀ d < 4, t.die d = if w = 0#2 ∧ s.hub.watis ≠ 0#2 ∧ (s.die d).fenced = false then
        { s.die d with errlog := (s.die d).errlog ++ [(0xA2204001#32, hubSite, 0#64)] } else s.die d)
  ∧ (∀ (s : State) (pa len off size : Nat) (data : List Byte) (v : W64),
    exec (.hostAccess (.load pa len)) s = .next s ∧ exec (.hostAccess .marker) s = .next s
    ∧ exec (.hostAccess (.store pa data)) s = .next (if hostReach s pa then { s with mem := s.mem.pokes pa data } else s)
    ∧ (let opens := s.hub.watis ≠ 0#2 ∧ s.hub.pkgstat.extractLsb' 0 4 ≠ 0#4 ∧ off < 0x2000
      (opens → exec (.hostAccess (.mgmt off size v)) s = exec (.registerWrite .sup off size v) s)
      ∧ (¬opens → exec (.hostAccess (.mgmt off size v)) s = .next s))
    ∧ (hostReach s pa = true ↔ s.hub.watis ≠ 0#2 ∧ (pa / 2 ^ 51 % 2 = 1 ∨ ((stageOf s = 2 ∨ stageOf s = 3) ∧ s.hub.pkgstat.getLsbD 19 = false
      ∧ pa / 2 ^ 39 % 2 ^ 13 = 0 ∧ (s.die (homeDie pa)).fenced = false))))

/-! ## The fabric station, time slices and the loader (03, 20, 22) -/

/-- R92, R374, R378, R448, R468–R481: the fabric station. A ring starts at its DONE word and reads its TAIL; a command is checked, starts in
order and sends its request; an answer lands, completes the command and adds to its event, and a refusal, a silent peer or a lost add
fails it; a peer's request is served through its export window or refused, and its watch is answered once its event is reached.
A collective completes when the data of every member has come, and fails with CGMISM or CGTIME. A time slice drains its STOP queues,
escalates and switches. The loader writes the objects that it accepts, and reports every one. -/
def Obligations.FabricStation : Prop :=
  (∀ (s : State) (q : Nat),
    let x := s.ring q
    let ring (y : Ring) : State := s.modRing q fun _ => y
    let c := partCtx s 0 (rPart x)
    (rRun x = true → exec (.fabricRingStart q) s = .next s)
    ∧ (rRun x = false →
      (∀ f, globalBytes s c .load (x.base + 0x84#64) 4 = .error f → exec (.fabricRingStart q) s = .next (ring { x with
        ctl := x.ctl &&& 0x7FFFFFFF#32, stopped := true, fault := f }))
      ∧ ∀ bs, globalBytes s c .load (x.base + 0x84#64) 4 = .ok bs →
        let done : W32 := BitVec.ofNat 32 (natOf bs)
        let keep := if done = x.head then x.cmds else []
        exec (.fabricRingStart q) s = .next (ring { x with
          ctl := x.ctl ||| 0x80000000#32, stopped := false, fault := 0#32, head := done, cmds := keep
          next := done + BitVec.ofNat 32 keep.length, tail := done + BitVec.ofNat 32 keep.length }))
    ∧ (rRun x = false → exec (.fabricTailWake q) s = .next s)
    ∧ (rRun x = true →
      (∀ f, docGet s 0 (rPart x) x.base 4 = .error f → exec (.fabricTailWake q) s = .next (stopRing s q f x.next))
      ∧ ∀ bs, docGet s 0 (rPart x) x.base 4 = .ok bs →
        let u := ring { x with tail := BitVec.ofNat 32 (natOf bs) }
        exec (.fabricTailWake q) s = .next (if rSize x < (BitVec.ofNat 32 (natOf bs) - x.head).toNat then
          stopRing u q 0x80505003#32 (BitVec.ofNat 32 (natOf bs)) else u)))
  ∧ (∀ (s : State) (q : Nat) (n status : W32) (failed : Bool) (i : Instr),
    let x := s.ring q
    x.head = n → x.cmds = [⟨n, i, false⟩] →
    let y : Ring := { x with
      head := n + 1#32, cmds := [], stopped := x.stopped || failed, ctl := if failed then x.ctl &&& 0x7FFFFFFF#32 else x.ctl
      fault := if failed then status else x.fault, fseq := if failed then n &&& 0xFFFF#32 else x.fseq }
    let u := s.modRing q fun _ => y
    completeCmd s q n status failed = match docPut u 0 (rPart y) (x.base + 0x80#64)
        (bytesOf 4 y.head.toNat ++ (bytesOf 4 y.head.toNat ++ (bytesOf 4 y.fault.toNat ++ bytesOf 4 y.fseq.toNat))) with
      | .ok t => t
      | .error _ => u)
  ∧ (∀ (i : Instr) (s : State), (cmdPeer i).isSome = true ∨ (cgidOf i).isSome = true →
    let q := s.cur.queue
    let n := s.cur.recn
    let h := cmdHdr i
    let ordered := h.b = true → ∀ r ∈ (s.ring q).cmds, r.done = true
    (startable s = false → exec i s = .next s)
    ∧ (startable s = true → h.seq ≠ n.setWidth 16 → exec i s = .next (stopRing s q 0x80505002#32 n))
    ∧ (startable s = true → h.seq = n.setWidth 16 → ¬ordered → exec i s = .next s)
    ∧ (startable s = true → h.seq = n.setWidth 16 → ordered → cmdRefused s q h i = true →
      exec i s = .next (completeCmd (standCmd s q n i) q n 0xC0101003#32 true)))
  ∧ (∀ (s : State) (h : FabHdr) (peer : BitVec 10) (la ra : W64) (len : W32) (aop : AOp) (sz : Bool),
    let q := s.cur.queue
    let go (i : Instr) (op : PeerOp) : Prop := exec i s = .next ((standCmd s q s.cur.recn i).send (.request peer.toNat ra op))
    (Starts (.read h peer la ra len) s → go (.read h peer la ra len) (.read len.toNat))
    ∧ (∀ bs, Starts (.write h peer la ra len) s → docGet s 0 (rPart (s.ring q)) la len.toNat = .ok bs →
      go (.write h peer la ra len) (.write bs))
    ∧ ∀ bs, Starts (.atomic h peer la ra aop sz) s → docGet s 0 (rPart (s.ring q)) la 16 = .ok bs →
      go (.atomic h peer la ra aop sz) (.atomic aop sz (BitVec.ofNat 64 (field bs 0 (if sz then 8 else 4)))
        (BitVec.ofNat 64 (field bs 8 (if sz then 8 else 4)))))
  ∧ (∀ (s : State) (q ix : Nat) (r : CmdRec) (data : List Byte), (s.ring q).cmds[ix]? = some r → r.done = false →
    let p := rPart (s.ring q)
    (∀ h peer la ra len, r.ins = .read h peer la ra len →
      (data.length ≠ len.toNat → exec (.fabricCmdComplete q ix true data) s = .next s)
      ∧ (∀ t, data.length = len.toNat → docPut s 0 p la data = .ok t → exec (.fabricCmdComplete q ix true data) s = .next (cmdDone t q r.n h))
      ∧ exec (.fabricCmdComplete q ix false data) s = .next (cmdFail (landLines q la none 0 (len.toNat / 128) s) q r.n h 0xC0101002#32))
    ∧ (∀ h peer la ra len, r.ins = .write h peer la ra len →
      exec (.fabricCmdComplete q ix true data) s = .next (cmdDone s q r.n h)
      ∧ exec (.fabricCmdComplete q ix false data) s = .next (cmdFail s q r.n h 0xC0101002#32))
    ∧ ∀ h peer la ra aop sz, r.ins = .atomic h peer la ra aop sz →
      (∀ t, data.length = (if sz then 8 else 4) → docPut s 0 p (la + 16#64) data = .ok t →
        exec (.fabricCmdComplete q ix true data) s = .next (cmdDone t q r.n h))
      ∧ exec (.fabricCmdComplete q ix false data) s = .next (cmdFail s q r.n h 0xC0101002#32))
  ∧ (∀ (s : State) (q : Nat) (n f : W32) (h : FabHdr),
    (h.evon = false → cmdDone s q n h = completeCmd s q n 0#32 false ∧ cmdFail s q n h f = completeCmd s q n f true)
    ∧ (h.evon = true → evAcc h.event = s.ownAcc →
      cmdDone s q n h = completeCmd (slotStep s h.event .add 1#32) q n 0#32 false
      ∧ cmdFail s q n h f = completeCmd (slotStep s h.event .fail 1#32) q n f true)
    ∧ (h.evon = true → evAcc h.event ≠ s.ownAcc →
      cmdDone s q n h = if (Config.free s.fresh).getLsbD 0 = true ∨ s.fab.ports = 0#16 then
          completeCmd { s with fresh := s.fresh + 1 } q n 0xC0101001#32 true
        else completeCmd (({ s with fresh := s.fresh + 1 }).send (.step h.event .add 1#32)) q n 0#32 false))
  ∧ (∀ (s : State) (peer : Nat) (addr : W64) (op : PeerOp),
    let no : State := s.send (.reply peer false [])
    (s.inGroup peer = false → exec (.fabricRequestArrival peer addr op) s = .next s)
    ∧ (s.inGroup peer = true →
      (∀ n, exec (.fabricRequestArrival peer addr (.read n)) s = .next (match exportParts s addr .load n with
        | some xs => s.send (.reply peer true (xs.flatMap fun x => s.mem.peeks x.pa x.len))
        | none => no))
      ∧ (∀ bs, exec (.fabricRequestArrival peer addr (.write bs)) s = .next (match exportParts s addr .store bs.length with
        | some xs => (putParts s xs bs).send (.reply peer true [])
        | none => no))
      ∧ (∀ aop sz c v, let n := if sz then 8 else 4
        (addr.toNat % n ≠ 0 ∨ exportParts s addr .atomic n = none → exec (.fabricRequestArrival peer addr (.atomic aop sz c v)) s = .next no)
        ∧ ∀ xs, addr.toNat % n = 0 → exportParts s addr .atomic n = some xs →
          let old := xs.flatMap fun x => s.mem.peeks x.pa x.len
          exec (.fabricRequestArrival peer addr (.atomic aop sz c v)) s = .next ((putParts s xs
            (bytesOf n (atomVal aop (8 * n) (natOf old) (c.toNat % 2 ^ (8 * n)) (v.toNat % 2 ^ (8 * n))))).send (.reply peer true old)))
      ∧ ∀ d slot cop n, d < 4 → slot < 65536 → exec (.fabricRequestArrival peer addr (.step (65536 * d + slot) cop n)) s =
        .next (slotStep s (BitVec.ofNat 10 s.ownAcc ++ (BitVec.ofNat 2 d ++ (0#4 ++ BitVec.ofNat 16 slot))) cop n)))
  ∧ (∀ (s : State) (addr : W64) (u : Use) (n : Nat) (xs : List Xl), exportParts s addr u n = some xs →
    let w := (addr.extractLsb' 56 8).toNat
    let lo := Tbl.get 0#64 (2 * w) s.fab.exps
    w < 64 ∧ lo.getLsbD 63 = true ∧ (addr.extractLsb' 0 56).toNat + n ≤ (Tbl.get 0#64 (2 * w + 1) s.fab.exps).toNat % 2 ^ 56
    ∧ (u = .load → lo.getLsbD 62 = true) ∧ (u = .store → lo.getLsbD 61 = true) ∧ (u = .atomic → lo.getLsbD 60 = true)
    ∧ translate s (partCtx s 0 (lo.extractLsb' 56 4).toNat) u ((lo.extractLsb' 0 56).toNat + (addr.extractLsb' 0 56).toNat) n = .ok xs)
  ∧ (∀ (s : State) (e count : W32) (fail : Bool) (peer : Nat),
    ((∀ x ∈ s.fab.sent, x ≠ .watch e) → exec (.remoteEventAnswer e count fail) s = .next s)
    ∧ (.watch e ∈ s.fab.sent → exec (.remoteEventAnswer e count fail) s = .next (releaseWaiters { s with fab := { s.fab with
        sent := s.fab.sent.filter (fun x => x ≠ .watch e), answers := Tbl.put e.toNat (count, fail) s.fab.answers } } e count fail))
    ∧ (evBad s e = true ∨ evAcc e ≠ s.ownAcc ∨ s.inGroup peer = false → exec (.eventWatchRegister peer e) s = .next s)
    ∧ (evBad s e = false → evAcc e = s.ownAcc → s.inGroup peer = true →
      let x := s.slot (evDie e) (evSlot e)
      exec (.eventWatchRegister peer e) s = .next (if x.target ≤ x.count then s.send (.answer peer e x.count x.fail)
        else { s with fab := { s.fab with watches := s.fab.watches ++ [(peer, e)] } })))
  ∧ (∀ (s : State) (peer : Nat) (on : Bool) (port : BitVec 4),
    exec (.tlockChange on) s = .next { s with fab := { s.fab with tlock := on } }
    ∧ exec (.ualinkPortDown port) s = .next { s with fab := { s.fab with ports := s.fab.ports &&& ~~~(1#16 <<< port.toNat) } }
    ∧ (s.inGroup peer = false ∨ peer = s.ownAcc → exec (.peerDebugState peer on) s = .next s)
    ∧ (s.inGroup peer = true → peer ≠ s.ownAcc → ∃ ps, exec (.peerDebugState peer on) s = .next { s with fab := { s.fab with peers := ps } }
      ∧ ∀ p, p ∈ ps ↔ (p = peer ∧ on = true) ∨ (p ≠ peer ∧ p ∈ s.fab.peers)))
  ∧ (∀ (s : State) (peer : Nat),
    let held := dbgStopped s = true ∨ s.fab.peers ≠ []
    (held → exec (.fabricPeerTimeout peer) s = .next s)
    ∧ (¬held → (∀ q, (s.queue (q / 64) (q % 64)).await = none) → (∀ g ∈ s.groups, ∀ l, (g.2.thread l).wait = none) →
      ∃ t, exec (.fabricPeerTimeout peer) s = .next t
      ∧ (∀ e, evAcc e = peer → .watch e ∉ t.fab.sent)
      ∧ ∀ q < 16, ∀ r, (s.ring q).cmds = [r] → r.done = false → (s.ring q).head = r.n → cmdPeer r.ins = some peer →
        (∀ q' < 16, q' ≠ q → (s.ring q').cmds = []) → (cmdHdr r.ins).evon = false →
        (t.ring q).stopped = true ∧ (t.ring q).fault = 0xC0101001#32 ∧ (t.ring q).cmds = [] ∧ (t.ring q).head = r.n + 1#32))
  ∧ (∀ (s : State) (i : Instr) (h : FabHdr) (rop : ROp) (cgid : BitVec 12) (root : BitVec 10) (la list : W64) (len nmem : W32) (all : Bool),
    i = (if all then .allreduce h rop cgid la list len nmem else .broadcast h cgid root la list len nmem) → Starts i s →
    let q := s.cur.queue
    let n := s.cur.recn
    let sends := all = true ∨ root.toNat = s.ownAcc
    (collHeld s q = true ∨ (s.coll cgid.toNat).isSome = true → exec i s = .next s)
    ∧ (collHeld s q = false → s.coll cgid.toNat = none →
      (∀ f, memberList s q list nmem.toNat = .error f → exec i s = .next (completeCmd (standCmd s q n i) q n 0xC0101003#32 true))
      ∧ ∀ ms, memberList s q list nmem.toNat = .ok ms →
        (ascending ms = false ∨ s.ownAcc ∉ ms → exec i s = .next (cmdFail (standCmd s q n i) q n h 0xC0202003#32))
        ∧ ∀ own, ascending ms = true → s.ownAcc ∈ ms → docGet s 0 (rPart (s.ring q)) la len.toNat = .ok own →
          let data := if sends then own else []
          let t := standCmd s q n i
          let u : State := { t with fab := { t.fab with colls := t.fab.colls ++ [⟨cgid.toNat, q, n, ms, Tbl.put s.ownAcc data [], []⟩] } }
          exec i s = .next (collTurn (if sends then u.send (.member cgid.toNat data) else u) cgid.toNat)))
  ∧ (∀ (s : State) (cgid member : Nat) (same : Bool) (data : List Byte) (c : Coll) (i : Instr), s.coll cgid = some c → collCmd s c = some i →
    (collHeld s c.ring = true ∨ member ∉ c.members ∨ (Tbl.find member c.got).isSome = true →
      exec (.collectiveMemberData cgid member same data) s = .next s)
    ∧ (collHeld s c.ring = false → member ∈ c.members → Tbl.find member c.got = none →
      exec (.collectiveMemberData cgid member same data) s = .next (if same = true ∧ data.length = collLen i then
        collTurn (s.modColl cgid fun x => { x with got := Tbl.put member data x.got }) cgid
      else collEnd (cmdFail s c.ring c.n (cmdHdr i) 0xC0202003#32) c)))
  ∧ (∀ (s : State) (cgid : Nat) (c : Coll) (h : FabHdr) (rop : ROp) (g : BitVec 12) (la list : W64) (len nmem : W32),
    s.coll cgid = some c → collHeld s c.ring = false → collCmd s c = some (.allreduce h rop g la list len nmem) →
    ((∃ m ∈ c.members, Tbl.find m c.got = none) → collTurn s cgid = s)
    ∧ ((∀ m ∈ c.members, (Tbl.find m c.got).isSome = true) →
      let word (m e : Nat) : Nat := field (Tbl.get [] m c.got) (4 * e) 4
      let result (e : Nat) : Nat := match rop with
        | .sum => (redfVal .add (c.members.map fun m => word m e)).bits
        | .max => (redfVal .maxn (c.members.map fun m => word m e)).bits
        | .min => (redfVal .minn (c.members.map fun m => word m e)).bits
      ∀ t, docPut s 0 (rPart (s.ring c.ring)) la ((List.range (len.toNat / 4)).flatMap fun e => bytesOf 4 (result e)) = .ok t →
        collTurn s cgid = collEnd (cmdDone t c.ring c.n h) c))
  ∧ (∀ (s : State) (c : Coll), c.cgid ∈ s.fab.colls.map (fun x => x.cgid) →
    (collEnd s c).fab.sent = s.fab.sent ++ [.finish c.cgid]
    ∧ ∀ x ∈ (collEnd s c).fab.colls, x.members.all x.finished.contains = false ∧ (x.cgid = c.cgid → s.ownAcc ∈ x.finished))
  ∧ (∀ (s : State) (cgid member : Nat),
    exec (.cgidFinishReport cgid member) s = .next (freeColls (collTurn (s.modColl cgid fun c =>
      if member ∈ c.members then { c with finished := insNat member c.finished } else c) cgid)))
  ∧ (∀ (s : State) (cgid : Nat) (c : Coll) (i : Instr),
    let held := dbgStopped s = true ∨ s.fab.peers ≠ []
    (held ∨ s.coll cgid = none → ∀ r, exec (.collectiveTimeout cgid r) s = .next s)
    ∧ (¬held → s.coll cgid = some c → collCmd s c = some i →
      (∀ g root la list len nmem h, i = .broadcast h g root la list len nmem → root.toNat = s.ownAcc →
        exec (.collectiveTimeout cgid false) s = .next (collEnd (cmdFail s c.ring c.n h 0xC0202002#32) c))
      ∧ (∀ g rop la list len nmem h bs, i = .allreduce h rop g la list len nmem → docGet s 0 (rPart (s.ring c.ring)) la len.toNat = .ok bs →
        let x := mixElems (len.toNat / 4) bs s
        ∀ t, docPut x.2 0 (rPart (s.ring c.ring)) la x.1 = .ok t →
          exec (.collectiveTimeout cgid false) s = .next (collEnd (cmdFail t c.ring c.n h 0xC0202002#32) c))
      ∧ ∀ q < 16, (∀ q' < 16, q' ≠ q → rRun (s.ring q') = false) → rRun (s.ring q) = true → (s.ring q).next ≠ (s.ring q).tail →
        ∀ w j, readCmd s q (s.ring q).next = .ok w → decodeCommand w = some j → cgidOf j = some cgid →
          exec (.collectiveTimeout cgid true) s = .next (stopRing s q 0xC0202001#32 (s.ring q).next)))
  ∧ (∀ (s : State),
    (s.slice = none → exec .sliceDrainStart s = .next s ∧ exec .sliceEscalate s = .next s ∧ exec .sliceSwitch s = .next s)
    ∧ ∀ x, s.slice = some x →
      let stops (d q : Nat) : Bool := (sliceMasks s x.set).getLsbD (64 * d + q)
      let due (d q : Nat) : Prop := stops d q = true ∧ (d, q) ∉ x.started ∧ x.t ≤ s.time.toNat + 2000 + 1000 * qBud (s.queue d q)
      (∃ t y, exec .sliceDrainStart s = .next t ∧ t.slice = some y ∧ y.t = x.t ∧ y.set = x.set
        ∧ (∀ e ∈ y.started, e ∈ x.started ∨ due e.1 e.2)
        ∧ ∀ d q, d < 4 → q < 64 → due d q → (d, q) ∈ y.started ∧ (t.queue d q).drain.isSome = true)
      ∧ (s.time.toNat + 2000 < x.t ∨ x.escalated = true → exec .sliceEscalate s = .next s)
      ∧ (x.t ≤ s.time.toNat + 2000 → x.escalated = false → ∃ t y, exec .sliceEscalate s = .next t ∧ t.slice = some y ∧ y.escalated = true
        ∧ ∀ d q dr, d < 4 → q < 64 → (t.queue d q).drain = some dr → dr.why = .slice → dr.escalated = true)
      ∧ (s.time.toNat < x.t → exec .sliceSwitch s = .next s)
      ∧ (x.t ≤ s.time.toNat → ∃ t, exec .sliceSwitch s = .next t ∧ t.slice = none
        ∧ ∀ d q, d < 4 → q < 64 → stops d q = true → 
          (∀ dr, (t.queue d q).drain = some dr → dr.why ≠ .slice)
          ∧ ((sliceMasks s x.set).getLsbD (256 + 64 * d + q) = false → qRun (t.queue d q) = false)))
  ∧ (∀ (s : State) (part : Nat) (objs : List CodeObj),
    ((∃ o ∈ objs, ∃ c ∈ o.sects, sectMapped s part c = false) → exec (.loaderLoad part objs) s = .next s)
    ∧ ((∀ o ∈ objs, ∀ c ∈ o.sects, sectMapped s part c = true) → ∃ t, exec (.loaderLoad part objs) s = .next t
      ∧ t.objs.length = s.objs.length + objs.length
      ∧ (∀ x ∈ t.objs.drop s.objs.length, x.part = part ∧ (x.fault = 0#32 ∨ x.fault = 0xA2001001#32))
      ∧ t.groups = s.groups ∧ t.teams = s.teams ∧ t.dies = s.dies))
  ∧ (∀ (s : State) (part : Nat) (o o' : CodeObj) (n : Nat), o.sects.all (sectMapped s part) = true → s.objs = [] →
    (judge [o] [] (handlers [o]) o = .ok o' →
      exec (.loaderLoad part [o]) s = .next (let t := o'.sects.foldl (fun t c => writeSect t part c) s
        { t with objs := t.objs ++ [⟨part, o', 0#32, 0⟩] }))
    ∧ (judge [o] [] (handlers [o]) o = .error n → ∃ m, exec (.loaderLoad part [o]) s = .next { s with objs := [⟨part, o, 0xA2001001#32, m⟩] }))
  ∧ (∀ (os before : List CodeObj) (hs : List W64) (o o' : CodeObj), judge os before hs o = .ok o' →
    elfOk o = true ∧ o.sects.all sectOk = true ∧ clash before o = none ∧ relocateAll os o.relocs o = some o' ∧ badEntry hs o' = none)
  ∧ (∀ (os : List CodeObj) (o : CodeObj) (r : Reloc) (y : Sym) (v : W64) (c : CodeSect), o.syms[r.sym]? = some y → symValue os y = some v →
    sectAt o r.va 8 = some c →
    (r.kind = 0 → relocate os o r = some o) ∧ (6 < r.kind → relocate os o r = none)
    ∧ (r.kind = 1 → c.kind = .text ∧ isHeader o r.va = false → relocate os o r = putSlot o r.va (bytesOf 8 (v + r.addend).toNat))
    ∧ (r.kind = 1 → ¬(c.kind = .text ∧ isHeader o r.va = false) → relocate os o r = some (objPatch o r.va (bytesOf 8 (v + r.addend).toNat)))
    ∧ (r.kind = 5 ∨ r.kind = 6 → relocate os o r = if c.kind = .linkage ∧ r.va.toNat % 8 = 0 then
        some (objPatch o r.va (bytesOf 8 (if r.kind = 5 then textBase o + r.addend else v).toNat)) else none))
  ∧ ∀ (l : List Byte), l.length = 64 → let x := sealLine l
    x.length = 64 ∧ x.take 60 = l.take 60 ∧ lparBad x = false ∧ (∀ i < 5, sparBad x i = false)
    ∧ lineRes x = lineRes l ∧ ∀ i < 5, lineTgt x i = lineTgt l i ∧ linePair x i = linePair l i ∧ slotWord x i = slotWord l i

/-! ## Encodings and the step (03, 16, 22) -/

/-- R69–R73, R79, R83 and the encoding tables: words and instructions go one to one. Every well-formed instruction word decodes to itself
from its own 96 bits, alone and as the content of a slot that is no pair: no operand, guard, MOD or IMM bit is dropped. And what a
word decodes to is well formed and has that word alone: no bit of it is ignored. -/
def Obligations.WordsRoundTrip : Prop :=
  (∀ i : Instr, i.isWord = true → i.wellFormed = true →
    decodeWord (encodeWord i) = .ok i ∧ decodeSlot false (encodeWord i) = .ok (.full i))
  ∧ ∀ (w : W96) (i : Instr), decodeWord w = .ok i → i.isWord = true ∧ i.wellFormed = true ∧ encodeWord i = w

/-- R375, R473: every well-formed operator record decodes to itself from its 32 bytes, and every well-formed fabric command from its 64
bytes. -/
def Obligations.RecordsAndCommandsRoundTrip : Prop :=
  (∀ (i : Instr) (h : RecHdr), recHeader i = some h → i.wellFormed = true → decodeRecord (encodeRecord i) = some i)
  ∧ ∀ (i : Instr) (h : FabHdr) (n : BitVec 10) (g : BitVec 12) (la ra : W64) (len nmem : W32) (rop : ROp) (aop : AOp) (sz : Bool),
    (i = .read h n la ra len ∨ i = .write h n la ra len ∨ i = .atomic h n la ra aop sz ∨ i = .allreduce h rop g la ra len nmem
      ∨ i = .broadcast h g n la ra len nmem) → i.wellFormed = true → decodeCommand (encodeCommand i) = some i

/-- R69–R73, R141, R170, R236, R262, R375 and the worked encodings of the chapters: what some words that the spec writes out decode to. -/
def Obligations.SampleWordsDecode : Prop :=
  let word (hi mid lo : W32) : W96 := hi ++ (mid ++ lo)
  let o (d a b c : Opd) (imm : W32) : Ops := ⟨Guard.always, d, a, b, c, imm⟩
  decodeWord (word 0x101E0340#32 0xB01FFC02#32 0x40#32) = .ok (.lea (o (.a 3#5) (.s 2#6) .laneid .none 0x40#32) 2#3 .full)
  ∧ decodeWord (word 0x009D0741#32 0x7FEFFC00#32 0x800#32) = .ok (.imul (o (.s 7#6) (.s 5#6) .imm .none 0x800#32) false .wrap)
  ∧ decodeWord (word 0x601C1481#32 0xBFFFFC00#32 0#32) = .ok (.ld (o (.v 20#8) (.a 6#5) .none .none 0#32) .normal .thr .plain .b32)
  ∧ decodeWord (word 0x609FFF42#32 0xBFF42CB1#32 0x40#32) = .ok (.st (o .none (.s 10#6) .none (.s 11#6) 0x40#32) .normal .pkg .rel .b64)
  ∧ decodeWord (word 0x415FFFFF#32 0xBFFFFC01#32 2#32) = .ok (.loop (o .none .imm .none .none 2#32) 1#10)
  ∧ decodeWord (word 0x5F1FFFFF#32 0xFFFFFC00#32 2#32) = .ok (.regacq (o .none .none .none .none 2#32))
  ∧ decodeWord (word 0x841F21C8#32 0x3FE42000#32 0x3F000000#32) =
    .ok (.smx (o (.acc 1#5) (.acc 0#5) .imm (.s 8#6) 0x3F000000#32) 0#8)
  ∧ decodeWord (word 0x609FFF42#32 0x7FF43002#32 0x100#32) = .ok (.copy (o .none (.s 9#6) .none (.s 12#6) 0x100#32))
  ∧ decodeWord (word 0xB61FFF41#32 0x3FF41800#32 0x40#32) = .ok (.tokrec (o .none (.s 4#6) .none (.s 6#6) 0x40#32))
  ∧ decodeRecord (quad 0x0000000300110008#64 0x4000200000#64 0x60000#64 0#64) =
    some (.lease ⟨0x11#16, 0#6, false, false⟩ true true false 0x4000200000#64 0x60000#64)
  ∧ decodeRecord (quad 0x0000000100120001#64 0x4001000040#64 0x4000250000#64 0x0000000300100040#64) =
    some (.job ⟨0x12#16, 0#6, false, false⟩ 1#24 0x4001000040#64 0x4000250000#64 ⟨0x100040#32, true, true, false, false, 0#3, false⟩)

/-- R38, R67, R78, R373, R374, R472, R473 and the order of agents that log 3 gives the model: a step moves the clock and then does one
thing. The head of the agenda is it where there is one: an event of the part; the next record of a queue or command of a ring, as it
decodes; a group's slot, whose instruction runs on the threads picked, a pair reading both halves before either writes. With no agenda
the default action is it. -/
def Obligations.StepRunsDecoded : Prop :=
  ∀ (s : State) (rest : List Act),
    let u : State := { waitTurns (advance 1 s) with agenda := rest }
    (∀ i, s.agenda = .event i :: rest → isEvent i = true → step s = exec i u)
    ∧ (∀ n, s.agenda = .tick n :: rest → step s = .next (advance n u))
    ∧ (∀ d q i w, s.agenda = .docent d q :: rest →
      let n := (u.queue d q).next
      let t : State := { u with cur := ⟨0, 0#32, d, q, n⟩ }
      launchable t = true → readRec u d q n = .ok w → decodeRecord w = some i → step s = exec i t)
    ∧ (∀ q i w, s.agenda = .fabric q :: rest →
      let n := (u.ring q).next
      let t : State := { u with cur := ⟨0, 0#32, 0, q, n⟩ }
      startable t = true → readCmd u q n = .ok w → decodeCommand w = some i → step s = exec i t)
    ∧ (∀ gid, s.agenda = .issue gid :: rest →
      (schedChoice u (cidOf gid) (gid % 8) ≠ some gid → step s = .next u)
      ∧ (schedChoice u (cidOf gid) (gid % 8) = some gid → picked u gid = none → step s = .next (passOpportunity u gid 0#32)))
    ∧ (∀ gid pc m, s.agenda = .issue gid :: rest → schedChoice u (cidOf gid) (gid % 8) = some gid → picked u gid = some (pc, m) →
      let po : Mask := fromBits 32 fun k => m.getLsbD k && ((u.group gid).thread k).pend.isSome
      po ≠ 0#32 → step s = .next (deliver ((passOpportunity u gid m).modGroup gid fun g => g.modThreads po fun t => { t with pend := none }) gid
        ((lanesOf po).map fun k => ⟨k, 0x01741001#32, ((u.group gid).thread k).pend.getD 0#64⟩)))
    ∧ (∀ gid pc m pa l, s.agenda = .issue gid :: rest → schedChoice u (cidOf gid) (gid % 8) = some gid → picked u gid = some (pc, m) →
      (∀ k, m.getLsbD k = true → ((u.group gid).thread k).pend = none) →
      let v := passOpportunity u gid m
      fetchAddr v (v.ctx gid .sup) pc = .ok pa →
      ((∃ k, m.getLsbD k = true ∧ ((v.group gid).thread k).priv = .user) → ∃ pb, fetchAddr v (v.ctx gid .user) pc = .ok pb) →
      (checkedLine v (cidOf gid) pa (some (slotIx pc))).1 = .ok l →
      let w := (checkedLine v (cidOf gid) pa (some (slotIx pc))).2.modCore (cidOf gid)
        fun c => { c with ctr := Tbl.put 0 (Tbl.get 0#32 0 c.ctr + 1#32) c.ctr }
      let t : State := { w with cur := ⟨gid, m, 0, 0, 0#32⟩ }
      (linePair l (slotIx pc) = false → ∀ i, decodeWord (slotWord l (slotIx pc)) = .ok i → step s = exec i t)
      ∧ (linePair l (slotIx pc) = true → ∀ i j x y, decodePair (slotWord l (slotIx pc)) = .ok (.pair i j) →
        (∀ k, k = i ∨ k = j → regsOk k (w.group gid).xblk (w.counts gid).2.1 (w.counts gid).2.2 = true) →
        exec i t = .next x → exec j t = .next y →
        step s = .next (joinHalves gid m (halfDest j).1 (halfDest j).2 x y)))
    ∧ (∀ a, s.agenda = a :: rest → step s = runAct a u)
    ∧ (s.agenda = [] → let t := waitTurns (advance 1 s)
      let a := defaultAct t
      step s = runAct a { t with rr := turnAfter t a })
    ∧ (∀ c d k n ix part va : Nat, runAct (.l1Out c k) s = .next (l1Evict s c k) ∧ runAct (.readA c n k) s = .next (readA s c n k)
      ∧ runAct (.readCopy c ix n k) s = .next (copyRead s c ix n k)
      ∧ (∀ e, (s.core c).stale[ix]? = some e → runAct (.show_ c ix) s = .next (s.modCore c fun x => x.show fun y => y = e))
      ∧ runAct (.l2Out n) s = .next (if pinnedLine s n then s else { s with mem := s.mem.cleanLine n })
      ∧ runAct (.tlbFill d part n va) s = .next (tlbFill s d part n va) ∧ runAct (.tlbTurn d ix) s = .next (tlbTurn s d ix)
      ∧ (∀ f, runAct (.flaw f) s = .next (flaw s f)))

/-- R1, log 5: every step keeps the canonical form of the memory: addresses strictly rising, none listed with the byte that an unlisted
address reads as, and none twice. -/
def Obligations.StepKeepsMemoryCanonical : Prop :=
  ∀ s t : State, s.mem.wf = true → step s = .next t → t.mem.wf = true

/-- R4, R194, R353, R375, R452 and the field maps of the device registers: what reset leaves. Every device register reads 0 but for EVB
of DCTL, which is 0x1F, and the row registers, which the maps give a boot value; a register whose map gives no value reads 0 by the
model's choice (log 4), and the memory reads zeros by log 5. No core holds a group, no agenda waits, and no row is repaired. -/
def Obligations.ResetLeaves : Prop :=
  (∀ r : DReg, (∀ d, r ≠ .dctl d) → (∀ d k, r ≠ .rowmap d k) → (∀ d k, r ≠ .rowinfo d k) → regRead State.reset r = 0#64)
  ∧ (∀ d, regRead State.reset (.dctl d) = 0x3E0#64)
  ∧ (∀ c, (State.reset.core c).pword = 0#32 ∧ (State.reset.core c).gslots = 0#48 ∧ (State.reset.core c).clcfg = 0#32
    ∧ (State.reset.core c).jobs = [] ∧ (State.reset.core c).mseq = [] ∧ (State.reset.core c).copies = [])
  ∧ (∀ g l, (State.reset.group g).live = false ∧ ((State.reset.group g).thread l).wait = none)
  ∧ (∀ t, (State.reset.team t).job = none)
  ∧ (∀ a, State.reset.mem.peek a = 0#8)
  ∧ State.reset.mem.wf = true
  ∧ State.reset.agenda = []
end

