-- ==== Sys2Proof/Laws/PerInstr.lean ====
section
/-!
SUPPORT. Family F: of every instruction word, its operand fields, its OP among the assigned ones (R83), and the reading of its
MOD field (R73): `build` gives the term back from the OP, the MOD and the operand fields of a well-formed word.
-/

namespace Sys2Proof.Laws.F

/-- What the encoding of one instruction word keeps: the fields are there, the OP is assigned, and OP and MOD give the term back. -/
def Statement (i : Instr) : Prop :=
  i.isWord = true → ∃ o, i.guardOf = some o ∧ opcodes.contains i.op.toNat = true
    ∧ (i.wellFormed = true → build i.op.toNat i.mod o = some i)

end Sys2Proof.Laws.F

namespace Sys2Proof

theorem only_eq (m k : BitVec 10) (r : Option Instr) (h : m &&& ~~~k = 0#10) : only m k r = r := if_pos h

theorem AOp.ofBits_bits (x : AOp) : AOp.ofBits x.bits = some x := by cases x <;> rfl
theorem AccSel.ofBits_bits (x : AccSel) : AccSel.ofBits x.bits = some x := by cases x <;> rfl
theorem Ch.ofBits_bits (x : Ch) : Ch.ofBits x.bits = some x := by cases x <;> rfl
theorem Cnt.ofBits_bits (x : Cnt) : Cnt.ofBits x.bits = some x := by cases x <;> rfl
theorem Comb.ofBits_bits (x : Comb) : Comb.ofBits x.bits = some x := by cases x <;> rfl
theorem Cvt.ofBits_bits (x : Cvt) : Cvt.ofBits x.bits = some x := by cases x <;> rfl
theorem EvOp.ofBits_bits (x : EvOp) : EvOp.ofBits x.bits = some x := by cases x <;> rfl
theorem FCond.ofBits_bits (x : FCond) : FCond.ofBits x.bits = some x := by cases x <;> rfl
theorem Fmt.ofBits_bits (x : Fmt) : Fmt.ofBits x.bits = some x := by cases x <;> rfl
theorem ICond.ofBits_bits (x : ICond) : ICond.ofBits x.bits = some x := by cases x <;> rfl
theorem Idx.ofBits_bits (x : Idx) : Idx.ofBits x.bits = some x := by cases x <;> rfl
theorem MOrd.ofBits_bits (x : MOrd) : MOrd.ofBits x.bits = some x := by cases x <;> rfl
theorem RedF.ofBits_bits (x : RedF) : RedF.ofBits x.bits = some x := by cases x <;> rfl
theorem RedI.ofBits_bits (x : RedI) : RedI.ofBits x.bits = some x := by cases x <;> rfl
theorem Rm.ofBits_bits (x : Rm) : Rm.ofBits x.bits = some x := by cases x <;> rfl
theorem SMode.ofBits_bits (x : SMode) : SMode.ofBits x.bits = some x := by cases x <;> rfl
theorem Sat.ofBits_bits (x : Sat) : Sat.ofBits x.bits = some x := by cases x <;> rfl
theorem Scope.ofBits_bits (x : Scope) : Scope.ofBits x.bits = some x := by cases x <;> rfl
theorem Seg.ofBits_bits (x : Seg) : Seg.ofBits x.bits = some x := by cases x <;> rfl
theorem Side.ofBits_bits (x : Side) : Side.ofBits x.bits = some x := by cases x <;> rfl
theorem Size.ofBits_bits (x : Size) : Size.ofBits x.bits = some x := by cases x <;> rfl
theorem SrOp.ofBits_bits (x : SrOp) : SrOp.ofBits x.bits = some x := by cases x <;> rfl
theorem VMode.ofBits_bits (x : VMode) : VMode.ofBits x.bits = some x := by cases x <;> rfl

theorem layZero (m k : BitVec 10) (h : m = 0#10) : m &&& ~~~k = 0#10 := by subst h; exact BitVec.zero_and
theorem layBitZero (m : BitVec 10) (h : m = 0#10) : ¬ m.getLsbD 0 = true := by subst h; decide
theorem layPromLo (m : BitVec 10) (h : m = 0#10) : m &&& ~~~0x201#10 = 0#10 ∧ promField m = some .lo := by
  subst h; decide
theorem layPromHi (m : BitVec 10) (h : m = 1#10) : m &&& ~~~0x201#10 = 0#10 ∧ promField m = some .hi := by
  subst h; decide
theorem layPromW (m : BitVec 10) (h : m = 0x200#10) : m &&& ~~~0x201#10 = 0#10 ∧ promField m = some .w := by
  subst h; decide

theorem layFence (m : BitVec 10) : ∀ a : BitVec 3, m = at10 a 0 →
    m &&& ~~~0x00F#10 = 0#10 ∧ m.getLsbD 3 = false ∧ m.extractLsb' 0 3 = a := by
  have k : ∀ a : BitVec 3, at10 a 0 &&& ~~~0x00F#10 = 0#10 ∧ (at10 a 0).getLsbD 3 = false
      ∧ (at10 a 0).extractLsb' 0 3 = a := by
    decide
  intro a h
  subst h
  exact k a

theorem layNoCarry (m : BitVec 10) : ∀ (a b : Bool), m = bit a 9 ||| bit b 4 ||| 0#10 →
    m &&& ~~~0x21F#10 = 0#10 ∧ m.getLsbD 9 = a ∧ m.getLsbD 4 = b ∧ coField m = some none := by
  have k : ∀ (a b : Bool), (bit a 9 ||| bit b 4 ||| 0#10) &&& ~~~0x21F#10 = 0#10
      ∧ (bit a 9 ||| bit b 4 ||| 0#10).getLsbD 9 = a ∧ (bit a 9 ||| bit b 4 ||| 0#10).getLsbD 4 = b
      ∧ coField (bit a 9 ||| bit b 4 ||| 0#10) = some none := by
    decide
  intro a b h
  subst h
  exact k a b

theorem layCarry (m : BitVec 10) : ∀ (a b : Bool) (c : BitVec 3), m = bit a 9 ||| bit b 4 ||| (8#10 ||| at10 c 0) →
    m &&& ~~~0x21F#10 = 0#10 ∧ m.getLsbD 9 = a ∧ m.getLsbD 4 = b ∧ coField m = some (some c) := by
  have k : ∀ (a b : Bool) (c : BitVec 3), (bit a 9 ||| bit b 4 ||| (8#10 ||| at10 c 0)) &&& ~~~0x21F#10 = 0#10
      ∧ (bit a 9 ||| bit b 4 ||| (8#10 ||| at10 c 0)).getLsbD 9 = a
      ∧ (bit a 9 ||| bit b 4 ||| (8#10 ||| at10 c 0)).getLsbD 4 = b
      ∧ coField (bit a 9 ||| bit b 4 ||| (8#10 ||| at10 c 0)) = some (some c) := by
    decide
  intro a b c h
  subst h
  exact k a b c

theorem st_notCopy {o : Ops} {ch : Ch} {scope : Scope} {ord : MOrd} {size : Size}
    (h : (Instr.st o ch scope ord size).wellFormed = true) :
    ¬ (ch = .normal && scope = .thr && ord = .plain && size = .b128 && o.copyShape) = true := by
  intro hc
  simp only [Bool.and_eq_true, decide_eq_true_eq] at hc
  obtain ⟨⟨⟨⟨rfl, rfl⟩, rfl⟩, rfl⟩, h5⟩ := hc
  have ht : (Instr.st o .normal .thr .plain .b128).typeFault = true := by
    show (addrBad o || !o.d.isNone || !o.c.isData || guardBad o (o.uniAddr && o.c.isUni)
      || (true && true && true && o.copyShape)) = true
    simp [h5]
  simp [Instr.wellFormed, ht] at h

theorem copy_copyShape {o : Ops} (h : (Instr.copy o).wellFormed = true) :
    ((Ch.normal = .normal : Bool) && (Scope.thr = .thr : Bool) && (MOrd.plain = .plain : Bool) && (Size.b128 = .b128 : Bool)
      && o.copyShape) = true := by
  have ht : (addrBad o || !o.d.isNone || !o.copyShape || guardBad o true) = false := by
    have : (Instr.copy o).typeFault = false := by
      simp only [Instr.wellFormed, Bool.and_eq_true, Bool.not_eq_true'] at h
      exact h.1.1.1.2
    exact this
  simp only [Bool.or_eq_false_iff, Bool.not_eq_false'] at ht
  simp [ht.1.2]

set_option maxRecDepth 100000

theorem lay1 (m : BitVec 10) : ∀ (a : Bool) (b : BitVec 2), m = bit a 9 ||| at10 b 0 →
    m &&& ~~~0x203#10 = 0#10 ∧ m.getLsbD 9 = a ∧ m.extractLsb' 0 2 = b := by
  have k : ∀ (a : Bool) (b : BitVec 2), (bit a 9 ||| at10 b 0) &&& ~~~0x203#10 = 0#10 ∧ (bit a 9 ||| at10 b 0).getLsbD 9 = a ∧ (bit a 9 ||| at10 b 0).extractLsb' 0 2 = b := by
    decide
  intro a b h
  subst h
  exact k a b

theorem lay2 (m : BitVec 10) : ∀ (a : Bool) (b : Bool), m = bit a 9 ||| bit b 0 →
    m &&& ~~~0x201#10 = 0#10 ∧ m.getLsbD 9 = a ∧ m.getLsbD 0 = b := by
  have k : ∀ (a : Bool) (b : Bool), (bit a 9 ||| bit b 0) &&& ~~~0x201#10 = 0#10 ∧ (bit a 9 ||| bit b 0).getLsbD 9 = a ∧ (bit a 9 ||| bit b 0).getLsbD 0 = b := by
    decide
  intro a b h
  subst h
  exact k a b

theorem lay3 (m : BitVec 10) : ∀ (a : Bool), m = bit a 9 →
    m &&& ~~~0x200#10 = 0#10 ∧ m.getLsbD 9 = a := by
  have k : ∀ (a : Bool), (bit a 9) &&& ~~~0x200#10 = 0#10 ∧ (bit a 9).getLsbD 9 = a := by
    decide
  intro a h
  subst h
  exact k a

theorem lay4 (m : BitVec 10) : ∀ (a : Bool) (b : BitVec 3) (c : Bool) (d : BitVec 2), m = bit a 9 ||| at10 b 0 ||| bit c 3 ||| at10 d 4 →
    m &&& ~~~0x23F#10 = 0#10 ∧ m.getLsbD 9 = a ∧ m.extractLsb' 0 3 = b ∧ m.getLsbD 3 = c ∧ m.extractLsb' 4 2 = d := by
  have k : ∀ (a : Bool) (b : BitVec 3) (c : Bool) (d : BitVec 2), (bit a 9 ||| at10 b 0 ||| bit c 3 ||| at10 d 4) &&& ~~~0x23F#10 = 0#10 ∧ (bit a 9 ||| at10 b 0 ||| bit c 3 ||| at10 d 4).getLsbD 9 = a ∧ (bit a 9 ||| at10 b 0 ||| bit c 3 ||| at10 d 4).extractLsb' 0 3 = b ∧ (bit a 9 ||| at10 b 0 ||| bit c 3 ||| at10 d 4).getLsbD 3 = c ∧ (bit a 9 ||| at10 b 0 ||| bit c 3 ||| at10 d 4).extractLsb' 4 2 = d := by
    decide
  intro a b c d h
  subst h
  exact k a b c d

theorem lay5 (m : BitVec 10) : ∀ (a : BitVec 3) (b : BitVec 2), m = at10 a 0 ||| at10 b 3 →
    m &&& ~~~0x01F#10 = 0#10 ∧ m.extractLsb' 0 3 = a ∧ m.extractLsb' 3 2 = b := by
  have k : ∀ (a : BitVec 3) (b : BitVec 2), (at10 a 0 ||| at10 b 3) &&& ~~~0x01F#10 = 0#10 ∧ (at10 a 0 ||| at10 b 3).extractLsb' 0 3 = a ∧ (at10 a 0 ||| at10 b 3).extractLsb' 3 2 = b := by
    decide
  intro a b h
  subst h
  exact k a b

theorem lay6 (m : BitVec 10) : ∀ (a : BitVec 3), m = at10 a 0 →
    m &&& ~~~0x007#10 = 0#10 ∧ m.extractLsb' 0 3 = a := by
  have k : ∀ (a : BitVec 3), (at10 a 0) &&& ~~~0x007#10 = 0#10 ∧ (at10 a 0).extractLsb' 0 3 = a := by
    decide
  intro a h
  subst h
  exact k a

theorem lay7 (m : BitVec 10) : ∀ (a : BitVec 3) (b : Bool) (c : Bool), m = at10 a 0 ||| bit b 3 ||| bit c 4 →
    m &&& ~~~0x01F#10 = 0#10 ∧ m.extractLsb' 0 3 = a ∧ m.getLsbD 3 = b ∧ m.getLsbD 4 = c := by
  have k : ∀ (a : BitVec 3) (b : Bool) (c : Bool), (at10 a 0 ||| bit b 3 ||| bit c 4) &&& ~~~0x01F#10 = 0#10 ∧ (at10 a 0 ||| bit b 3 ||| bit c 4).extractLsb' 0 3 = a ∧ (at10 a 0 ||| bit b 3 ||| bit c 4).getLsbD 3 = b ∧ (at10 a 0 ||| bit b 3 ||| bit c 4).getLsbD 4 = c := by
    decide
  intro a b c h
  subst h
  exact k a b c

theorem lay8 (m : BitVec 10) : ∀ (a : BitVec 3) (b : BitVec 2), m = at10 a 0 ||| at10 b 4 →
    m &&& ~~~0x037#10 = 0#10 ∧ m.extractLsb' 0 3 = a ∧ m.extractLsb' 4 2 = b := by
  have k : ∀ (a : BitVec 3) (b : BitVec 2), (at10 a 0 ||| at10 b 4) &&& ~~~0x037#10 = 0#10 ∧ (at10 a 0 ||| at10 b 4).extractLsb' 0 3 = a ∧ (at10 a 0 ||| at10 b 4).extractLsb' 4 2 = b := by
    decide
  intro a b h
  subst h
  exact k a b

theorem lay9 (m : BitVec 10) : ∀ (a : BitVec 3) (b : BitVec 3), m = at10 a 0 ||| at10 b 4 →
    m &&& ~~~0x077#10 = 0#10 ∧ m.extractLsb' 0 3 = a ∧ m.extractLsb' 4 3 = b := by
  have k : ∀ (a : BitVec 3) (b : BitVec 3), (at10 a 0 ||| at10 b 4) &&& ~~~0x077#10 = 0#10 ∧ (at10 a 0 ||| at10 b 4).extractLsb' 0 3 = a ∧ (at10 a 0 ||| at10 b 4).extractLsb' 4 3 = b := by
    decide
  intro a b h
  subst h
  exact k a b

theorem lay10 (m : BitVec 10) : ∀ (a : BitVec 3) (b : Bool), m = at10 a 0 ||| bit b 3 →
    m &&& ~~~0x00F#10 = 0#10 ∧ m.extractLsb' 0 3 = a ∧ m.getLsbD 3 = b := by
  have k : ∀ (a : BitVec 3) (b : Bool), (at10 a 0 ||| bit b 3) &&& ~~~0x00F#10 = 0#10 ∧ (at10 a 0 ||| bit b 3).extractLsb' 0 3 = a ∧ (at10 a 0 ||| bit b 3).getLsbD 3 = b := by
    decide
  intro a b h
  subst h
  exact k a b

theorem lay11 (m : BitVec 10) : ∀ (a : Bool), m = bit a 0 →
    m &&& ~~~0x001#10 = 0#10 ∧ m.getLsbD 0 = a := by
  have k : ∀ (a : Bool), (bit a 0) &&& ~~~0x001#10 = 0#10 ∧ (bit a 0).getLsbD 0 = a := by
    decide
  intro a h
  subst h
  exact k a

theorem lay12 (m : BitVec 10) : ∀ (a : Bool) (b : Bool), m = bit a 0 ||| bit b 1 →
    m &&& ~~~0x003#10 = 0#10 ∧ m.getLsbD 0 = a ∧ m.getLsbD 1 = b := by
  have k : ∀ (a : Bool) (b : Bool), (bit a 0 ||| bit b 1) &&& ~~~0x003#10 = 0#10 ∧ (bit a 0 ||| bit b 1).getLsbD 0 = a ∧ (bit a 0 ||| bit b 1).getLsbD 1 = b := by
    decide
  intro a b h
  subst h
  exact k a b

theorem lay13 (m : BitVec 10) : ∀ (a : Bool), m = bit a 1 →
    m &&& ~~~0x002#10 = 0#10 ∧ m.getLsbD 1 = a := by
  have k : ∀ (a : Bool), (bit a 1) &&& ~~~0x002#10 = 0#10 ∧ (bit a 1).getLsbD 1 = a := by
    decide
  intro a h
  subst h
  exact k a

theorem lay14 (m : BitVec 10) : ∀ (a : BitVec 10), m = at10 a 0 →
    m &&& ~~~0x3FF#10 = 0#10 ∧ m.extractLsb' 0 10 = a := by
  have k : ∀ (a : BitVec 10), (at10 a 0) &&& ~~~0x3FF#10 = 0#10 ∧ (at10 a 0).extractLsb' 0 10 = a := by
    decide
  intro a h
  subst h
  exact k a

theorem lay15 (m : BitVec 10) : ∀ (a : BitVec 3) (b : BitVec 3), m = at10 a 0 ||| at10 b 3 →
    m &&& ~~~0x03F#10 = 0#10 ∧ m.extractLsb' 0 3 = a ∧ m.extractLsb' 3 3 = b := by
  have k : ∀ (a : BitVec 3) (b : BitVec 3), (at10 a 0 ||| at10 b 3) &&& ~~~0x03F#10 = 0#10 ∧ (at10 a 0 ||| at10 b 3).extractLsb' 0 3 = a ∧ (at10 a 0 ||| at10 b 3).extractLsb' 3 3 = b := by
    decide
  intro a b h
  subst h
  exact k a b

theorem lay16 (m : BitVec 10) : ∀ (a : BitVec 2), m = at10 a 0 →
    m &&& ~~~0x003#10 = 0#10 ∧ m.extractLsb' 0 2 = a := by
  have k : ∀ (a : BitVec 2), (at10 a 0) &&& ~~~0x003#10 = 0#10 ∧ (at10 a 0).extractLsb' 0 2 = a := by
    decide
  intro a h
  subst h
  exact k a

theorem lay17 (m : BitVec 10) : ∀ (a : BitVec 2) (b : BitVec 3) (c : BitVec 2) (d : BitVec 3), m = at10 a 8 ||| at10 b 5 ||| at10 c 3 ||| at10 d 0 →
    m &&& ~~~0x3FF#10 = 0#10 ∧ m.extractLsb' 8 2 = a ∧ m.extractLsb' 5 3 = b ∧ m.extractLsb' 3 2 = c ∧ m.extractLsb' 0 3 = d := by
  have k : ∀ (a : BitVec 2) (b : BitVec 3) (c : BitVec 2) (d : BitVec 3), (at10 a 8 ||| at10 b 5 ||| at10 c 3 ||| at10 d 0) &&& ~~~0x3FF#10 = 0#10 ∧ (at10 a 8 ||| at10 b 5 ||| at10 c 3 ||| at10 d 0).extractLsb' 8 2 = a ∧ (at10 a 8 ||| at10 b 5 ||| at10 c 3 ||| at10 d 0).extractLsb' 5 3 = b ∧ (at10 a 8 ||| at10 b 5 ||| at10 c 3 ||| at10 d 0).extractLsb' 3 2 = c ∧ (at10 a 8 ||| at10 b 5 ||| at10 c 3 ||| at10 d 0).extractLsb' 0 3 = d := by
    decide
  intro a b c d h
  subst h
  exact k a b c d

theorem lay18 (m : BitVec 10) : ∀ (a : BitVec 2) (b : BitVec 4), m = at10 a 8 ||| at10 b 0 →
    m &&& ~~~0x30F#10 = 0#10 ∧ m.extractLsb' 8 2 = a ∧ m.extractLsb' 0 4 = b := by
  have k : ∀ (a : BitVec 2) (b : BitVec 4), (at10 a 8 ||| at10 b 0) &&& ~~~0x30F#10 = 0#10 ∧ (at10 a 8 ||| at10 b 0).extractLsb' 8 2 = a ∧ (at10 a 8 ||| at10 b 0).extractLsb' 0 4 = b := by
    decide
  intro a b h
  subst h
  exact k a b

theorem lay19 (m : BitVec 10) : ∀ (a : BitVec 2) (b : Bool) (c : BitVec 3) (d : BitVec 4), m = at10 a 8 ||| bit b 7 ||| at10 c 4 ||| at10 d 0 →
    m &&& ~~~0x3FF#10 = 0#10 ∧ m.extractLsb' 8 2 = a ∧ m.getLsbD 7 = b ∧ m.extractLsb' 4 3 = c ∧ m.extractLsb' 0 4 = d := by
  have k : ∀ (a : BitVec 2) (b : Bool) (c : BitVec 3) (d : BitVec 4), (at10 a 8 ||| bit b 7 ||| at10 c 4 ||| at10 d 0) &&& ~~~0x3FF#10 = 0#10 ∧ (at10 a 8 ||| bit b 7 ||| at10 c 4 ||| at10 d 0).extractLsb' 8 2 = a ∧ (at10 a 8 ||| bit b 7 ||| at10 c 4 ||| at10 d 0).getLsbD 7 = b ∧ (at10 a 8 ||| bit b 7 ||| at10 c 4 ||| at10 d 0).extractLsb' 4 3 = c ∧ (at10 a 8 ||| bit b 7 ||| at10 c 4 ||| at10 d 0).extractLsb' 0 4 = d := by
    decide
  intro a b c d h
  subst h
  exact k a b c d

theorem lay20 (m : BitVec 10) : ∀ (a : Bool) (b : BitVec 3) (c : BitVec 2) (d : BitVec 4), m = bit a 9 ||| at10 b 6 ||| at10 c 4 ||| at10 d 0 →
    m &&& ~~~0x3FF#10 = 0#10 ∧ m.getLsbD 9 = a ∧ m.extractLsb' 6 3 = b ∧ m.extractLsb' 4 2 = c ∧ m.extractLsb' 0 4 = d := by
  have k : ∀ (a : Bool) (b : BitVec 3) (c : BitVec 2) (d : BitVec 4), (bit a 9 ||| at10 b 6 ||| at10 c 4 ||| at10 d 0) &&& ~~~0x3FF#10 = 0#10 ∧ (bit a 9 ||| at10 b 6 ||| at10 c 4 ||| at10 d 0).getLsbD 9 = a ∧ (bit a 9 ||| at10 b 6 ||| at10 c 4 ||| at10 d 0).extractLsb' 6 3 = b ∧ (bit a 9 ||| at10 b 6 ||| at10 c 4 ||| at10 d 0).extractLsb' 4 2 = c ∧ (bit a 9 ||| at10 b 6 ||| at10 c 4 ||| at10 d 0).extractLsb' 0 4 = d := by
    decide
  intro a b c d h
  subst h
  exact k a b c d

theorem lay21 (m : BitVec 10) : ∀ (a : BitVec 5) (b : BitVec 3), m = at10 a 3 ||| at10 b 0 →
    m &&& ~~~0x0FF#10 = 0#10 ∧ m.extractLsb' 3 5 = a ∧ m.extractLsb' 0 3 = b := by
  have k : ∀ (a : BitVec 5) (b : BitVec 3), (at10 a 3 ||| at10 b 0) &&& ~~~0x0FF#10 = 0#10 ∧ (at10 a 3 ||| at10 b 0).extractLsb' 3 5 = a ∧ (at10 a 3 ||| at10 b 0).extractLsb' 0 3 = b := by
    decide
  intro a b h
  subst h
  exact k a b

theorem lay22 (m : BitVec 10) : ∀ (a : Bool) (b : Bool), m = bit a 9 ||| bit b 8 →
    m &&& ~~~0x300#10 = 0#10 ∧ m.getLsbD 9 = a ∧ m.getLsbD 8 = b := by
  have k : ∀ (a : Bool) (b : Bool), (bit a 9 ||| bit b 8) &&& ~~~0x300#10 = 0#10 ∧ (bit a 9 ||| bit b 8).getLsbD 9 = a ∧ (bit a 9 ||| bit b 8).getLsbD 8 = b := by
    decide
  intro a b h
  subst h
  exact k a b

theorem lay23 (m : BitVec 10) : ∀ (a : Bool), m = bit a 8 →
    m &&& ~~~0x100#10 = 0#10 ∧ m.getLsbD 8 = a := by
  have k : ∀ (a : Bool), (bit a 8) &&& ~~~0x100#10 = 0#10 ∧ (bit a 8).getLsbD 8 = a := by
    decide
  intro a h
  subst h
  exact k a

theorem lay24 (m : BitVec 10) : ∀ (a : BitVec 2) (b : BitVec 4), m = at10 a 4 ||| at10 b 0 →
    m &&& ~~~0x03F#10 = 0#10 ∧ m.extractLsb' 4 2 = a ∧ m.extractLsb' 0 4 = b := by
  have k : ∀ (a : BitVec 2) (b : BitVec 4), (at10 a 4 ||| at10 b 0) &&& ~~~0x03F#10 = 0#10 ∧ (at10 a 4 ||| at10 b 0).extractLsb' 4 2 = a ∧ (at10 a 4 ||| at10 b 0).extractLsb' 0 4 = b := by
    decide
  intro a b h
  subst h
  exact k a b

theorem lay25 (m : BitVec 10) : ∀ (a : BitVec 8), m = at10 a 0 →
    m &&& ~~~0x0FF#10 = 0#10 ∧ m.extractLsb' 0 8 = a := by
  have k : ∀ (a : BitVec 8), (at10 a 0) &&& ~~~0x0FF#10 = 0#10 ∧ (at10 a 0).extractLsb' 0 8 = a := by
    decide
  intro a h
  subst h
  exact k a

theorem lay26 (m : BitVec 10) : ∀ (a : BitVec 5) (b : Bool), m = at10 a 3 ||| bit b 0 →
    m &&& ~~~0x0F9#10 = 0#10 ∧ m.extractLsb' 3 5 = a ∧ m.getLsbD 0 = b := by
  have k : ∀ (a : BitVec 5) (b : Bool), (at10 a 3 ||| bit b 0) &&& ~~~0x0F9#10 = 0#10 ∧ (at10 a 3 ||| bit b 0).extractLsb' 3 5 = a ∧ (at10 a 3 ||| bit b 0).getLsbD 0 = b := by
    decide
  intro a b h
  subst h
  exact k a b

theorem lay27 (m : BitVec 10) : ∀ (a : BitVec 5), m = at10 a 3 →
    m &&& ~~~0x0F8#10 = 0#10 ∧ m.extractLsb' 3 5 = a := by
  have k : ∀ (a : BitVec 5), (at10 a 3) &&& ~~~0x0F8#10 = 0#10 ∧ (at10 a 3).extractLsb' 3 5 = a := by
    decide
  intro a h
  subst h
  exact k a

end Sys2Proof

namespace Sys2Proof.Laws.F

set_option maxRecDepth 100000

theorem iadd (o : Ops) (w : Bool) (sat : Sat) : Statement (.iadd o w sat) := by
  refine fun _ => ⟨o, rfl, rfl, fun hw => ?_⟩
  obtain ⟨h0, h1, h2⟩ := lay1 (Instr.mod (.iadd o w sat)) w sat.bits rfl
  refine (only_eq _ _ _ h0).trans ?_
  simp only [h1, h2, Sat.ofBits_bits, Option.bind_some]

theorem isub (o : Ops) (w : Bool) (sat : Sat) : Statement (.isub o w sat) := by
  refine fun _ => ⟨o, rfl, rfl, fun hw => ?_⟩
  obtain ⟨h0, h1, h2⟩ := lay1 (Instr.mod (.isub o w sat)) w sat.bits rfl
  refine (only_eq _ _ _ h0).trans ?_
  simp only [h1, h2, Sat.ofBits_bits, Option.bind_some]

theorem imul (o : Ops) (w : Bool) (sat : Sat) : Statement (.imul o w sat) := by
  refine fun _ => ⟨o, rfl, rfl, fun hw => ?_⟩
  obtain ⟨h0, h1, h2⟩ := lay1 (Instr.mod (.imul o w sat)) w sat.bits rfl
  refine (only_eq _ _ _ h0).trans ?_
  simp only [h1, h2, Sat.ofBits_bits, Option.bind_some]

theorem imulh (o : Ops) (w : Bool) (u : Bool) : Statement (.imulh o w u) := by
  refine fun _ => ⟨o, rfl, rfl, fun hw => ?_⟩
  obtain ⟨h0, h1, h2⟩ := lay2 (Instr.mod (.imulh o w u)) w u rfl
  refine (only_eq _ _ _ h0).trans ?_
  simp only [h1, h2]

theorem imad (o : Ops) (w : Bool) : Statement (.imad o w) := by
  refine fun _ => ⟨o, rfl, rfl, fun hw => ?_⟩
  obtain ⟨h0, h1⟩ := lay3 (Instr.mod (.imad o w)) w rfl
  refine (only_eq _ _ _ h0).trans ?_
  simp only [h1]

theorem iaddc (o : Ops) (w : Bool) (sub : Bool) (co : Option (BitVec 3)) : Statement (.iaddc o w sub co) := by
  refine fun _ => ⟨o, rfl, rfl, fun hw => ?_⟩
  cases co with
  | none =>
    obtain ⟨h0, h1, h2, h3⟩ := layNoCarry (Instr.mod (.iaddc o w sub none)) w sub rfl
    refine (only_eq _ _ _ h0).trans ?_
    simp only [h1, h2, h3, Option.bind_some]
  | some k =>
    obtain ⟨h0, h1, h2, h3⟩ := layCarry (Instr.mod (.iaddc o w sub (some k))) w sub k rfl
    refine (only_eq _ _ _ h0).trans ?_
    simp only [h1, h2, h3, Option.bind_some]

theorem imin (o : Ops) (w : Bool) (u : Bool) : Statement (.imin o w u) := by
  refine fun _ => ⟨o, rfl, rfl, fun hw => ?_⟩
  obtain ⟨h0, h1, h2⟩ := lay2 (Instr.mod (.imin o w u)) w u rfl
  refine (only_eq _ _ _ h0).trans ?_
  simp only [h1, h2]

theorem imax (o : Ops) (w : Bool) (u : Bool) : Statement (.imax o w u) := by
  refine fun _ => ⟨o, rfl, rfl, fun hw => ?_⟩
  obtain ⟨h0, h1, h2⟩ := lay2 (Instr.mod (.imax o w u)) w u rfl
  refine (only_eq _ _ _ h0).trans ?_
  simp only [h1, h2]

theorem iabs (o : Ops) (w : Bool) (sat : Bool) : Statement (.iabs o w sat) := by
  refine fun _ => ⟨o, rfl, rfl, fun hw => ?_⟩
  obtain ⟨h0, h1, h2⟩ := lay2 (Instr.mod (.iabs o w sat)) w sat rfl
  refine (only_eq _ _ _ h0).trans ?_
  simp only [h1, h2]

theorem ineg (o : Ops) (w : Bool) (sat : Bool) : Statement (.ineg o w sat) := by
  refine fun _ => ⟨o, rfl, rfl, fun hw => ?_⟩
  obtain ⟨h0, h1, h2⟩ := lay2 (Instr.mod (.ineg o w sat)) w sat rfl
  refine (only_eq _ _ _ h0).trans ?_
  simp only [h1, h2]

theorem and (o : Ops) (w : Bool) : Statement (.and o w) := by
  refine fun _ => ⟨o, rfl, rfl, fun hw => ?_⟩
  obtain ⟨h0, h1⟩ := lay3 (Instr.mod (.and o w)) w rfl
  refine (only_eq _ _ _ h0).trans ?_
  simp only [h1]

theorem or (o : Ops) (w : Bool) : Statement (.or o w) := by
  refine fun _ => ⟨o, rfl, rfl, fun hw => ?_⟩
  obtain ⟨h0, h1⟩ := lay3 (Instr.mod (.or o w)) w rfl
  refine (only_eq _ _ _ h0).trans ?_
  simp only [h1]

theorem xor (o : Ops) (w : Bool) : Statement (.xor o w) := by
  refine fun _ => ⟨o, rfl, rfl, fun hw => ?_⟩
  obtain ⟨h0, h1⟩ := lay3 (Instr.mod (.xor o w)) w rfl
  refine (only_eq _ _ _ h0).trans ?_
  simp only [h1]

theorem not (o : Ops) (w : Bool) : Statement (.not o w) := by
  refine fun _ => ⟨o, rfl, rfl, fun hw => ?_⟩
  obtain ⟨h0, h1⟩ := lay3 (Instr.mod (.not o w)) w rfl
  refine (only_eq _ _ _ h0).trans ?_
  simp only [h1]

theorem andn (o : Ops) (w : Bool) : Statement (.andn o w) := by
  refine fun _ => ⟨o, rfl, rfl, fun hw => ?_⟩
  obtain ⟨h0, h1⟩ := lay3 (Instr.mod (.andn o w)) w rfl
  refine (only_eq _ _ _ h0).trans ?_
  simp only [h1]

theorem shl (o : Ops) (w : Bool) : Statement (.shl o w) := by
  refine fun _ => ⟨o, rfl, rfl, fun hw => ?_⟩
  obtain ⟨h0, h1⟩ := lay3 (Instr.mod (.shl o w)) w rfl
  refine (only_eq _ _ _ h0).trans ?_
  simp only [h1]

theorem shr (o : Ops) (w : Bool) : Statement (.shr o w) := by
  refine fun _ => ⟨o, rfl, rfl, fun hw => ?_⟩
  obtain ⟨h0, h1⟩ := lay3 (Instr.mod (.shr o w)) w rfl
  refine (only_eq _ _ _ h0).trans ?_
  simp only [h1]

theorem sar (o : Ops) (w : Bool) : Statement (.sar o w) := by
  refine fun _ => ⟨o, rfl, rfl, fun hw => ?_⟩
  obtain ⟨h0, h1⟩ := lay3 (Instr.mod (.sar o w)) w rfl
  refine (only_eq _ _ _ h0).trans ?_
  simp only [h1]

theorem rot (o : Ops) (w : Bool) : Statement (.rot o w) := by
  refine fun _ => ⟨o, rfl, rfl, fun hw => ?_⟩
  obtain ⟨h0, h1⟩ := lay3 (Instr.mod (.rot o w)) w rfl
  refine (only_eq _ _ _ h0).trans ?_
  simp only [h1]

theorem popc (o : Ops) (w : Bool) : Statement (.popc o w) := by
  refine fun _ => ⟨o, rfl, rfl, fun hw => ?_⟩
  obtain ⟨h0, h1⟩ := lay3 (Instr.mod (.popc o w)) w rfl
  refine (only_eq _ _ _ h0).trans ?_
  simp only [h1]

theorem clz (o : Ops) (w : Bool) : Statement (.clz o w) := by
  refine fun _ => ⟨o, rfl, rfl, fun hw => ?_⟩
  obtain ⟨h0, h1⟩ := lay3 (Instr.mod (.clz o w)) w rfl
  refine (only_eq _ _ _ h0).trans ?_
  simp only [h1]

theorem ctz (o : Ops) (w : Bool) : Statement (.ctz o w) := by
  refine fun _ => ⟨o, rfl, rfl, fun hw => ?_⟩
  obtain ⟨h0, h1⟩ := lay3 (Instr.mod (.ctz o w)) w rfl
  refine (only_eq _ _ _ h0).trans ?_
  simp only [h1]

theorem brev (o : Ops) (w : Bool) : Statement (.brev o w) := by
  refine fun _ => ⟨o, rfl, rfl, fun hw => ?_⟩
  obtain ⟨h0, h1⟩ := lay3 (Instr.mod (.brev o w)) w rfl
  refine (only_eq _ _ _ h0).trans ?_
  simp only [h1]

theorem bfe (o : Ops) (w : Bool) (sx : Bool) : Statement (.bfe o w sx) := by
  refine fun _ => ⟨o, rfl, rfl, fun hw => ?_⟩
  obtain ⟨h0, h1, h2⟩ := lay2 (Instr.mod (.bfe o w sx)) w sx rfl
  refine (only_eq _ _ _ h0).trans ?_
  simp only [h1, h2]

theorem bfi (o : Ops) (w : Bool) : Statement (.bfi o w) := by
  refine fun _ => ⟨o, rfl, rfl, fun hw => ?_⟩
  obtain ⟨h0, h1⟩ := lay3 (Instr.mod (.bfi o w)) w rfl
  refine (only_eq _ _ _ h0).trans ?_
  simp only [h1]

theorem prmt (o : Ops) : Statement (.prmt o) := by
  exact fun _ => ⟨o, rfl, rfl, fun _ => only_eq _ _ _ (layZero _ _ rfl)⟩

theorem icmp (o : Ops) (w : Bool) (cond : ICond) (u : Bool) (comb : Comb) : Statement (.icmp o w cond u comb) := by
  refine fun _ => ⟨o, rfl, rfl, fun hw => ?_⟩
  obtain ⟨h0, h1, h2, h3, h4⟩ := lay4 (Instr.mod (.icmp o w cond u comb)) w cond.bits u comb.bits rfl
  refine (only_eq _ _ _ h0).trans ?_
  simp only [h1, h2, h3, h4, ICond.ofBits_bits, Comb.ofBits_bits, Option.bind_some]

theorem isel (o : Ops) (w : Bool) : Statement (.isel o w) := by
  refine fun _ => ⟨o, rfl, rfl, fun hw => ?_⟩
  obtain ⟨h0, h1⟩ := lay3 (Instr.mod (.isel o w)) w rfl
  refine (only_eq _ _ _ h0).trans ?_
  simp only [h1]

theorem mov (o : Ops) (w : Bool) : Statement (.mov o w) := by
  refine fun _ => ⟨o, rfl, rfl, fun hw => ?_⟩
  obtain ⟨h0, h1⟩ := lay3 (Instr.mod (.mov o w)) w rfl
  refine (only_eq _ _ _ h0).trans ?_
  simp only [h1]

theorem movi (o : Ops) (w : Bool) (z : Bool) : Statement (.movi o w z) := by
  refine fun _ => ⟨o, rfl, rfl, fun hw => ?_⟩
  obtain ⟨h0, h1, h2⟩ := lay2 (Instr.mod (.movi o w z)) w z rfl
  refine (only_eq _ _ _ h0).trans ?_
  simp only [h1, h2]

theorem movh (o : Ops) : Statement (.movh o) := by
  exact fun _ => ⟨o, rfl, rfl, fun _ => only_eq _ _ _ (layZero _ _ rfl)⟩

theorem lea (o : Ops) (scale : BitVec 3) (idx : Idx) : Statement (.lea o scale idx) := by
  refine fun _ => ⟨o, rfl, rfl, fun hw => ?_⟩
  obtain ⟨h0, h1, h2⟩ := lay5 (Instr.mod (.lea o scale idx)) scale idx.bits rfl
  refine (only_eq _ _ _ h0).trans ?_
  simp only [h1, h2, Idx.ofBits_bits, Option.bind_some]

theorem promv (o : Ops) (form : Prom) : Statement (.promv o form) := by
  refine fun _ => ⟨o, rfl, rfl, fun hw => ?_⟩
  cases form with
  | lo =>
    obtain ⟨h0, h1⟩ := layPromLo (Instr.mod (.promv o .lo)) rfl
    exact (only_eq _ _ _ h0).trans (by simp only [h1, Option.bind_some])
  | hi =>
    obtain ⟨h0, h1⟩ := layPromHi (Instr.mod (.promv o .hi)) rfl
    exact (only_eq _ _ _ h0).trans (by simp only [h1, Option.bind_some])
  | w =>
    obtain ⟨h0, h1⟩ := layPromW (Instr.mod (.promv o .w)) rfl
    exact (only_eq _ _ _ h0).trans (by simp only [h1, Option.bind_some])

theorem proma (o : Ops) : Statement (.proma o) := by
  exact fun _ => ⟨o, rfl, rfl, fun _ => only_eq _ _ _ (layZero _ _ rfl)⟩

theorem astr (o : Ops) : Statement (.astr o) := by
  exact fun _ => ⟨o, rfl, rfl, fun _ => only_eq _ _ _ (layZero _ _ rfl)⟩

theorem abase (o : Ops) : Statement (.abase o) := by
  exact fun _ => ⟨o, rfl, rfl, fun _ => only_eq _ _ _ (layZero _ _ rfl)⟩

theorem fadd (o : Ops) (rm : Rm) : Statement (.fadd o rm) := by
  refine fun _ => ⟨o, rfl, rfl, fun hw => ?_⟩
  obtain ⟨h0, h1⟩ := lay6 (Instr.mod (.fadd o rm)) rm.bits rfl
  refine (only_eq _ _ _ h0).trans ?_
  simp only [h1, Rm.ofBits_bits, Option.bind_some]

theorem fsub (o : Ops) (rm : Rm) : Statement (.fsub o rm) := by
  refine fun _ => ⟨o, rfl, rfl, fun hw => ?_⟩
  obtain ⟨h0, h1⟩ := lay6 (Instr.mod (.fsub o rm)) rm.bits rfl
  refine (only_eq _ _ _ h0).trans ?_
  simp only [h1, Rm.ofBits_bits, Option.bind_some]

theorem fmul (o : Ops) (rm : Rm) : Statement (.fmul o rm) := by
  refine fun _ => ⟨o, rfl, rfl, fun hw => ?_⟩
  obtain ⟨h0, h1⟩ := lay6 (Instr.mod (.fmul o rm)) rm.bits rfl
  refine (only_eq _ _ _ h0).trans ?_
  simp only [h1, Rm.ofBits_bits, Option.bind_some]

theorem ffma (o : Ops) (rm : Rm) (np : Bool) (nc : Bool) : Statement (.ffma o rm np nc) := by
  refine fun _ => ⟨o, rfl, rfl, fun hw => ?_⟩
  obtain ⟨h0, h1, h2, h3⟩ := lay7 (Instr.mod (.ffma o rm np nc)) rm.bits np nc rfl
  refine (only_eq _ _ _ h0).trans ?_
  simp only [h1, h2, h3, Rm.ofBits_bits, Option.bind_some]

theorem fmin (o : Ops) : Statement (.fmin o) := by
  exact fun _ => ⟨o, rfl, rfl, fun _ => only_eq _ _ _ (layZero _ _ rfl)⟩

theorem fmax (o : Ops) : Statement (.fmax o) := by
  exact fun _ => ⟨o, rfl, rfl, fun _ => only_eq _ _ _ (layZero _ _ rfl)⟩

theorem fminn (o : Ops) : Statement (.fminn o) := by
  exact fun _ => ⟨o, rfl, rfl, fun _ => only_eq _ _ _ (layZero _ _ rfl)⟩

theorem fmaxn (o : Ops) : Statement (.fmaxn o) := by
  exact fun _ => ⟨o, rfl, rfl, fun _ => only_eq _ _ _ (layZero _ _ rfl)⟩

theorem fcmp (o : Ops) (cond : FCond) (comb : Comb) : Statement (.fcmp o cond comb) := by
  refine fun _ => ⟨o, rfl, rfl, fun hw => ?_⟩
  obtain ⟨h0, h1, h2⟩ := lay8 (Instr.mod (.fcmp o cond comb)) cond.bits comb.bits rfl
  refine (only_eq _ _ _ h0).trans ?_
  simp only [h1, h2, FCond.ofBits_bits, Comb.ofBits_bits, Option.bind_some]

theorem fclass (o : Ops) : Statement (.fclass o) := by
  exact fun _ => ⟨o, rfl, rfl, fun _ => only_eq _ _ _ (layZero _ _ rfl)⟩

theorem frnd (o : Ops) (rm : Rm) : Statement (.frnd o rm) := by
  refine fun _ => ⟨o, rfl, rfl, fun hw => ?_⟩
  obtain ⟨h0, h1⟩ := lay6 (Instr.mod (.frnd o rm)) rm.bits rfl
  refine (only_eq _ _ _ h0).trans ?_
  simp only [h1, Rm.ofBits_bits, Option.bind_some]

theorem fcvt (o : Ops) (rm : Rm) (kind : Cvt) : Statement (.fcvt o rm kind) := by
  refine fun _ => ⟨o, rfl, rfl, fun hw => ?_⟩
  obtain ⟨h0, h1, h2⟩ := lay9 (Instr.mod (.fcvt o rm kind)) rm.bits kind.bits rfl
  refine (only_eq _ _ _ h0).trans ?_
  simp only [h1, h2, Rm.ofBits_bits, Cvt.ofBits_bits, Option.bind_some]

theorem bfcvt (o : Ops) (rm : Rm) (sat : Bool) : Statement (.bfcvt o rm sat) := by
  refine fun _ => ⟨o, rfl, rfl, fun hw => ?_⟩
  obtain ⟨h0, h1, h2⟩ := lay10 (Instr.mod (.bfcvt o rm sat)) rm.bits sat rfl
  refine (only_eq _ _ _ h0).trans ?_
  simp only [h1, h2, Rm.ofBits_bits, Option.bind_some]

theorem bfext (o : Ops) (hi : Bool) : Statement (.bfext o hi) := by
  refine fun _ => ⟨o, rfl, rfl, fun hw => ?_⟩
  obtain ⟨h0, h1⟩ := lay11 (Instr.mod (.bfext o hi)) hi rfl
  refine (only_eq _ _ _ h0).trans ?_
  simp only [h1]

theorem badd2 (o : Ops) (rm : Rm) (s : Bool) : Statement (.badd2 o rm s) := by
  refine fun _ => ⟨o, rfl, rfl, fun hw => ?_⟩
  obtain ⟨h0, h1, h2⟩ := lay10 (Instr.mod (.badd2 o rm s)) rm.bits s rfl
  refine (only_eq _ _ _ h0).trans ?_
  simp only [h1, h2, Rm.ofBits_bits, Option.bind_some]

theorem bmul2 (o : Ops) (rm : Rm) (s : Bool) : Statement (.bmul2 o rm s) := by
  refine fun _ => ⟨o, rfl, rfl, fun hw => ?_⟩
  obtain ⟨h0, h1, h2⟩ := lay10 (Instr.mod (.bmul2 o rm s)) rm.bits s rfl
  refine (only_eq _ _ _ h0).trans ?_
  simp only [h1, h2, Rm.ofBits_bits, Option.bind_some]

theorem bfma2 (o : Ops) (rm : Rm) (s : Bool) : Statement (.bfma2 o rm s) := by
  refine fun _ => ⟨o, rfl, rfl, fun hw => ?_⟩
  obtain ⟨h0, h1, h2⟩ := lay10 (Instr.mod (.bfma2 o rm s)) rm.bits s rfl
  refine (only_eq _ _ _ h0).trans ?_
  simp only [h1, h2, Rm.ofBits_bits, Option.bind_some]

theorem fdot2 (o : Ops) (rm : Rm) : Statement (.fdot2 o rm) := by
  refine fun _ => ⟨o, rfl, rfl, fun hw => ?_⟩
  obtain ⟨h0, h1⟩ := lay6 (Instr.mod (.fdot2 o rm)) rm.bits rfl
  refine (only_eq _ _ _ h0).trans ?_
  simp only [h1, Rm.ofBits_bits, Option.bind_some]

theorem fexp2 (o : Ops) : Statement (.fexp2 o) := by
  exact fun _ => ⟨o, rfl, rfl, fun _ => only_eq _ _ _ (layZero _ _ rfl)⟩

theorem flog2 (o : Ops) : Statement (.flog2 o) := by
  exact fun _ => ⟨o, rfl, rfl, fun _ => only_eq _ _ _ (layZero _ _ rfl)⟩

theorem frcp (o : Ops) : Statement (.frcp o) := by
  exact fun _ => ⟨o, rfl, rfl, fun _ => only_eq _ _ _ (layZero _ _ rfl)⟩

theorem frsq (o : Ops) : Statement (.frsq o) := by
  exact fun _ => ⟨o, rfl, rfl, fun _ => only_eq _ _ _ (layZero _ _ rfl)⟩

theorem fsqrt (o : Ops) : Statement (.fsqrt o) := by
  exact fun _ => ⟨o, rfl, rfl, fun _ => only_eq _ _ _ (layZero _ _ rfl)⟩

theorem fsin (o : Ops) : Statement (.fsin o) := by
  exact fun _ => ⟨o, rfl, rfl, fun _ => only_eq _ _ _ (layZero _ _ rfl)⟩

theorem fcos (o : Ops) : Statement (.fcos o) := by
  exact fun _ => ⟨o, rfl, rfl, fun _ => only_eq _ _ _ (layZero _ _ rfl)⟩

theorem ftanh (o : Ops) : Statement (.ftanh o) := by
  exact fun _ => ⟨o, rfl, rfl, fun _ => only_eq _ _ _ (layZero _ _ rfl)⟩

theorem fscl (o : Ops) (rm : Rm) : Statement (.fscl o rm) := by
  refine fun _ => ⟨o, rfl, rfl, fun hw => ?_⟩
  obtain ⟨h0, h1⟩ := lay6 (Instr.mod (.fscl o rm)) rm.bits rfl
  refine (only_eq _ _ _ h0).trans ?_
  simp only [h1, Rm.ofBits_bits, Option.bind_some]

theorem rng (o : Ops) (f : Bool) : Statement (.rng o f) := by
  refine fun _ => ⟨o, rfl, rfl, fun hw => ?_⟩
  obtain ⟨h0, h1⟩ := lay11 (Instr.mod (.rng o f)) f rfl
  refine (only_eq _ _ _ h0).trans ?_
  simp only [h1]

theorem bra (o : Ops) (nq : Bool) (pop : Bool) : Statement (.bra o nq pop) := by
  refine fun _ => ⟨o, rfl, rfl, fun hw => ?_⟩
  obtain ⟨h0, h1, h2⟩ := lay12 (Instr.mod (.bra o nq pop)) nq pop rfl
  refine (only_eq _ _ _ h0).trans ?_
  simp only [h1, h2]

theorem brx (o : Ops) (pop : Bool) : Statement (.brx o pop) := by
  refine fun _ => ⟨o, rfl, rfl, fun hw => ?_⟩
  obtain ⟨h0, h1⟩ := lay13 (Instr.mod (.brx o pop)) pop rfl
  refine (only_eq _ _ _ h0).trans ?_
  simp only [h1]

theorem call (o : Ops) : Statement (.call o) := by
  exact fun _ => ⟨o, rfl, rfl, fun _ => only_eq _ _ _ (layZero _ _ rfl)⟩

theorem callx (o : Ops) : Statement (.callx o) := by
  exact fun _ => ⟨o, rfl, rfl, fun _ => only_eq _ _ _ (layZero _ _ rfl)⟩

theorem ret (o : Ops) : Statement (.ret o) := by
  exact fun _ => ⟨o, rfl, rfl, fun _ => only_eq _ _ _ (layZero _ _ rfl)⟩

theorem loop (o : Ops) (len : BitVec 10) : Statement (.loop o len) := by
  refine fun _ => ⟨o, rfl, rfl, fun hw => ?_⟩
  obtain ⟨h0, h1⟩ := lay14 (Instr.mod (.loop o len)) len rfl
  refine (only_eq _ _ _ h0).trans ?_
  simp only [h1]

theorem conv (o : Ops) : Statement (.conv o) := by
  exact fun _ => ⟨o, rfl, rfl, fun _ => only_eq _ _ _ (layZero _ _ rfl)⟩

theorem exit (o : Ops) : Statement (.exit o) := by
  exact fun _ => ⟨o, rfl, rfl, fun _ => only_eq _ _ _ (layZero _ _ rfl)⟩

theorem wait (o : Ops) : Statement (.wait o) := by
  exact fun _ => ⟨o, rfl, rfl, fun _ => only_eq _ _ _ (layZero _ _ rfl)⟩

theorem yield (o : Ops) : Statement (.yield o) := by
  exact fun _ => ⟨o, rfl, rfl, fun _ => only_eq _ _ _ (layZero _ _ rfl)⟩

theorem nop (o : Ops) : Statement (.nop o) := by
  exact fun _ => ⟨o, rfl, rfl, fun _ => only_eq _ _ _ (layZero _ _ rfl)⟩

theorem trap (o : Ops) : Statement (.trap o) := by
  exact fun _ => ⟨o, rfl, rfl, fun _ => (only_eq _ _ _ (layZero _ _ rfl)).trans (if_neg (layBitZero _ rfl))⟩

theorem trapEnd (o : Ops) : Statement (.trapEnd o) := by
  refine fun _ => ⟨o, rfl, rfl, fun _ => ?_⟩
  obtain ⟨h0, h1⟩ := lay11 (Instr.mod (.trapEnd o)) true rfl
  exact (only_eq _ _ _ h0).trans (if_pos h1)

theorem tret (o : Ops) (next : Bool) : Statement (.tret o next) := by
  refine fun _ => ⟨o, rfl, rfl, fun hw => ?_⟩
  obtain ⟨h0, h1⟩ := lay11 (Instr.mod (.tret o next)) next rfl
  refine (only_eq _ _ _ h0).trans ?_
  simp only [h1]

theorem brk (o : Ops) : Statement (.brk o) := by
  exact fun _ => ⟨o, rfl, rfl, fun _ => only_eq _ _ _ (layZero _ _ rfl)⟩

theorem vote (o : Ops) (mode : VMode) : Statement (.vote o mode) := by
  refine fun _ => ⟨o, rfl, rfl, fun hw => ?_⟩
  obtain ⟨h0, h1⟩ := lay6 (Instr.mod (.vote o mode)) mode.bits rfl
  refine (only_eq _ _ _ h0).trans ?_
  simp only [h1, VMode.ofBits_bits, Option.bind_some]

theorem elect (o : Ops) : Statement (.elect o) := by
  exact fun _ => ⟨o, rfl, rfl, fun _ => only_eq _ _ _ (layZero _ _ rfl)⟩

theorem shfl (o : Ops) (mode : SMode) (seg : Seg) : Statement (.shfl o mode seg) := by
  refine fun _ => ⟨o, rfl, rfl, fun hw => ?_⟩
  obtain ⟨h0, h1, h2⟩ := lay15 (Instr.mod (.shfl o mode seg)) mode.bits seg.bits rfl
  refine (only_eq _ _ _ h0).trans ?_
  simp only [h1, h2, SMode.ofBits_bits, Seg.ofBits_bits, Option.bind_some]

theorem rdlane (o : Ops) : Statement (.rdlane o) := by
  exact fun _ => ⟨o, rfl, rfl, fun _ => only_eq _ _ _ (layZero _ _ rfl)⟩

theorem wrlane (o : Ops) : Statement (.wrlane o) := by
  exact fun _ => ⟨o, rfl, rfl, fun _ => only_eq _ _ _ (layZero _ _ rfl)⟩

theorem redi (o : Ops) (op : RedI) (u : Bool) : Statement (.redi o op u) := by
  refine fun _ => ⟨o, rfl, rfl, fun hw => ?_⟩
  obtain ⟨h0, h1, h2⟩ := lay10 (Instr.mod (.redi o op u)) op.bits u rfl
  refine (only_eq _ _ _ h0).trans ?_
  simp only [h1, h2, RedI.ofBits_bits, Option.bind_some]

theorem redf (o : Ops) (op : RedF) : Statement (.redf o op) := by
  refine fun _ => ⟨o, rfl, rfl, fun hw => ?_⟩
  obtain ⟨h0, h1⟩ := lay6 (Instr.mod (.redf o op)) op.bits rfl
  refine (only_eq _ _ _ h0).trans ?_
  simp only [h1, RedF.ofBits_bits, Option.bind_some]

theorem redmaxi (o : Ops) (i : Bool) : Statement (.redmaxi o i) := by
  refine fun _ => ⟨o, rfl, rfl, fun hw => ?_⟩
  obtain ⟨h0, h1⟩ := lay11 (Instr.mod (.redmaxi o i)) i rfl
  refine (only_eq _ _ _ h0).trans ?_
  simp only [h1]

theorem matchLanes (o : Ops) : Statement (.matchLanes o) := by
  exact fun _ => ⟨o, rfl, rfl, fun _ => only_eq _ _ _ (layZero _ _ rfl)⟩

theorem isect (o : Ops) : Statement (.isect o) := by
  exact fun _ => ⟨o, rfl, rfl, fun _ => only_eq _ _ _ (layZero _ _ rfl)⟩

theorem scnt (o : Ops) (inc : Bool) : Statement (.scnt o inc) := by
  refine fun _ => ⟨o, rfl, rfl, fun hw => ?_⟩
  obtain ⟨h0, h1⟩ := lay11 (Instr.mod (.scnt o inc)) inc rfl
  refine (only_eq _ _ _ h0).trans ?_
  simp only [h1]

theorem getsr (o : Ops) : Statement (.getsr o) := by
  exact fun _ => ⟨o, rfl, rfl, fun _ => only_eq _ _ _ (layZero _ _ rfl)⟩

theorem setsr (o : Ops) (op : SrOp) : Statement (.setsr o op) := by
  refine fun _ => ⟨o, rfl, rfl, fun hw => ?_⟩
  obtain ⟨h0, h1⟩ := lay16 (Instr.mod (.setsr o op)) op.bits rfl
  refine (only_eq _ _ _ h0).trans ?_
  simp only [h1, SrOp.ofBits_bits, Option.bind_some]

theorem regacq (o : Ops) : Statement (.regacq o) := by
  exact fun _ => ⟨o, rfl, rfl, fun _ => only_eq _ _ _ (layZero _ _ rfl)⟩

theorem regrel (o : Ops) : Statement (.regrel o) := by
  exact fun _ => ⟨o, rfl, rfl, fun _ => only_eq _ _ _ (layZero _ _ rfl)⟩

theorem ld (o : Ops) (ch : Ch) (scope : Scope) (ord : MOrd) (size : Size) : Statement (.ld o ch scope ord size) := by
  refine fun _ => ⟨o, rfl, rfl, fun hw => ?_⟩
  obtain ⟨h0, h1, h2, h3, h4⟩ := lay17 (Instr.mod (.ld o ch scope ord size)) ch.bits scope.bits ord.bits size.bits rfl
  refine (only_eq _ _ _ h0).trans ?_
  simp only [h1, h2, h3, h4, Ch.ofBits_bits, Scope.ofBits_bits, MOrd.ofBits_bits, Size.ofBits_bits, Option.bind_some]

theorem ldConvert (o : Ops) (ch : Ch) (fmt : Fmt) : Statement (.ldConvert o ch fmt) := by
  refine fun _ => ⟨o, rfl, rfl, fun hw => ?_⟩
  obtain ⟨h0, h1, h2⟩ := lay18 (Instr.mod (.ldConvert o ch fmt)) ch.bits fmt.bits rfl
  refine (only_eq _ _ _ h0).trans ?_
  simp only [h1, h2, Ch.ofBits_bits, Fmt.ofBits_bits, Option.bind_some]

theorem st (o : Ops) (ch : Ch) (scope : Scope) (ord : MOrd) (size : Size) : Statement (.st o ch scope ord size) := by
  refine fun _ => ⟨o, rfl, rfl, fun hw => ?_⟩
  obtain ⟨h0, h1, h2, h3, h4⟩ := lay17 (Instr.mod (.st o ch scope ord size)) ch.bits scope.bits ord.bits size.bits rfl
  refine (only_eq _ _ _ h0).trans ?_
  simp only [h1, h2, h3, h4, Ch.ofBits_bits, Scope.ofBits_bits, MOrd.ofBits_bits, Size.ofBits_bits, Option.bind_some]
  exact congrArg some (if_neg (st_notCopy hw))

theorem stConvert (o : Ops) (ch : Ch) (sat : Bool) (rm : Rm) (fmt : Fmt) : Statement (.stConvert o ch sat rm fmt) := by
  refine fun _ => ⟨o, rfl, rfl, fun hw => ?_⟩
  obtain ⟨h0, h1, h2, h3, h4⟩ := lay19 (Instr.mod (.stConvert o ch sat rm fmt)) ch.bits sat rm.bits fmt.bits rfl
  refine (only_eq _ _ _ h0).trans ?_
  simp only [h1, h2, h3, h4, Ch.ofBits_bits, Rm.ofBits_bits, Fmt.ofBits_bits, Option.bind_some]

theorem atom (o : Ops) (sz : Bool) (scope : Scope) (ord : MOrd) (aop : AOp) : Statement (.atom o sz scope ord aop) := by
  refine fun _ => ⟨o, rfl, rfl, fun hw => ?_⟩
  obtain ⟨h0, h1, h2, h3, h4⟩ := lay20 (Instr.mod (.atom o sz scope ord aop)) sz scope.bits ord.bits aop.bits rfl
  refine (only_eq _ _ _ h0).trans ?_
  simp only [h1, h2, h3, h4, Scope.ofBits_bits, MOrd.ofBits_bits, AOp.ofBits_bits, Option.bind_some]

theorem red (o : Ops) (sz : Bool) (scope : Scope) (ord : MOrd) (aop : AOp) : Statement (.red o sz scope ord aop) := by
  refine fun _ => ⟨o, rfl, rfl, fun hw => ?_⟩
  obtain ⟨h0, h1, h2, h3, h4⟩ := lay20 (Instr.mod (.red o sz scope ord aop)) sz scope.bits ord.bits aop.bits rfl
  refine (only_eq _ _ _ h0).trans ?_
  simp only [h1, h2, h3, h4, Scope.ofBits_bits, MOrd.ofBits_bits, AOp.ofBits_bits, Option.bind_some]

theorem fence (o : Ops) (scope : Scope) : Statement (.fence o scope) := by
  refine fun _ => ⟨o, rfl, rfl, fun _ => ?_⟩
  obtain ⟨h0, h1, h2⟩ := layFence (Instr.mod (.fence o scope)) scope.bits rfl
  refine (only_eq _ _ _ h0).trans ((if_neg (by simp only [h1]; exact Bool.false_ne_true)).trans ?_)
  simp only [h2, Scope.ofBits_bits, Option.bind_some]

theorem fenceG (o : Ops) (scope : Scope) : Statement (.fenceG o scope) := by
  refine fun _ => ⟨o, rfl, rfl, fun _ => ?_⟩
  obtain ⟨h0, h1, h2⟩ := lay10 (Instr.mod (.fenceG o scope)) scope.bits true rfl
  refine (only_eq _ _ _ h0).trans ((if_pos h2).trans ?_)
  simp only [h1, Scope.ofBits_bits, Option.bind_some]

theorem fencex (o : Ops) (paths : BitVec 5) (scope : Scope) : Statement (.fencex o paths scope) := by
  refine fun _ => ⟨o, rfl, rfl, fun hw => ?_⟩
  obtain ⟨h0, h1, h2⟩ := lay21 (Instr.mod (.fencex o paths scope)) paths scope.bits rfl
  refine (only_eq _ _ _ h0).trans ?_
  simp only [h1, h2, Scope.ofBits_bits, Option.bind_some]

theorem pref (o : Ops) (l2 : Bool) : Statement (.pref o l2) := by
  refine fun _ => ⟨o, rfl, rfl, fun hw => ?_⟩
  obtain ⟨h0, h1⟩ := lay11 (Instr.mod (.pref o l2)) l2 rfl
  refine (only_eq _ _ _ h0).trans ?_
  simp only [h1]

theorem discard (o : Ops) : Statement (.discard o) := by
  exact fun _ => ⟨o, rfl, rfl, fun _ => only_eq _ _ _ (layZero _ _ rfl)⟩

theorem clean (o : Ops) (mem : Bool) : Statement (.clean o mem) := by
  refine fun _ => ⟨o, rfl, rfl, fun hw => ?_⟩
  obtain ⟨h0, h1⟩ := lay11 (Instr.mod (.clean o mem)) mem rfl
  refine (only_eq _ _ _ h0).trans ?_
  simp only [h1]

theorem inval (o : Ops) (i : Bool) : Statement (.inval o i) := by
  refine fun _ => ⟨o, rfl, rfl, fun hw => ?_⟩
  obtain ⟨h0, h1⟩ := lay11 (Instr.mod (.inval o i)) i rfl
  refine (only_eq _ _ _ h0).trans ?_
  simp only [h1]

theorem copy (o : Ops) : Statement (.copy o) := by
  refine fun _ => ⟨o, rfl, rfl, fun hw => ?_⟩
  obtain ⟨h0, h1, h2, h3, h4⟩ := lay17 (Instr.mod (.copy o)) Ch.normal.bits Scope.thr.bits MOrd.plain.bits Size.b128.bits rfl
  refine (only_eq _ _ _ h0).trans ?_
  simp only [h1, h2, h3, h4, Ch.ofBits_bits, Scope.ofBits_bits, MOrd.ofBits_bits, Size.ofBits_bits, Option.bind_some]
  exact congrArg some (if_pos (copy_copyShape hw))

theorem mma (o : Ops) (ru : Bool) (z : Bool) : Statement (.mma o ru z) := by
  refine fun _ => ⟨o, rfl, rfl, fun hw => ?_⟩
  obtain ⟨h0, h1, h2⟩ := lay22 (Instr.mod (.mma o ru z)) ru z rfl
  refine (only_eq _ _ _ h0).trans ?_
  simp only [h1, h2]

theorem mmaS (o : Ops) (z : Bool) : Statement (.mmaS o z) := by
  refine fun _ => ⟨o, rfl, rfl, fun hw => ?_⟩
  obtain ⟨h0, h1⟩ := lay23 (Instr.mod (.mmaS o z)) z rfl
  refine (only_eq _ _ _ h0).trans ?_
  simp only [h1]

theorem mmaP (o : Ops) (ru : Bool) (z : Bool) : Statement (.mmaP o ru z) := by
  refine fun _ => ⟨o, rfl, rfl, fun hw => ?_⟩
  obtain ⟨h0, h1, h2⟩ := lay22 (Instr.mod (.mmaP o ru z)) ru z rfl
  refine (only_eq _ _ _ h0).trans ?_
  simp only [h1, h2]

theorem accz (o : Ops) (sel : AccSel) : Statement (.accz o sel) := by
  refine fun _ => ⟨o, rfl, rfl, fun hw => ?_⟩
  obtain ⟨h0, h1⟩ := lay16 (Instr.mod (.accz o sel)) sel.bits rfl
  refine (only_eq _ _ _ h0).trans ?_
  simp only [h1, AccSel.ofBits_bits, Option.bind_some]

theorem accld (o : Ops) (side : Side) (fmt : Fmt) : Statement (.accld o side fmt) := by
  refine fun _ => ⟨o, rfl, rfl, fun hw => ?_⟩
  obtain ⟨h0, h1, h2⟩ := lay24 (Instr.mod (.accld o side fmt)) side.bits fmt.bits rfl
  refine (only_eq _ _ _ h0).trans ?_
  simp only [h1, h2, Side.ofBits_bits, Fmt.ofBits_bits, Option.bind_some]

theorem accst (o : Ops) (sat : Bool) (rm : Rm) (side : Side) (fmt : Fmt) : Statement (.accst o sat rm side fmt) := by
  refine fun _ => ⟨o, rfl, rfl, fun hw => ?_⟩
  obtain ⟨h0, h1, h2, h3, h4⟩ := lay20 (Instr.mod (.accst o sat rm side fmt)) sat rm.bits side.bits fmt.bits rfl
  refine (only_eq _ _ _ h0).trans ?_
  simp only [h1, h2, h3, h4, Rm.ofBits_bits, Side.ofBits_bits, Fmt.ofBits_bits, Option.bind_some]

theorem accscl (o : Ops) (row : Bool) : Statement (.accscl o row) := by
  refine fun _ => ⟨o, rfl, rfl, fun hw => ?_⟩
  obtain ⟨h0, h1⟩ := lay11 (Instr.mod (.accscl o row)) row rfl
  refine (only_eq _ _ _ h0).trans ?_
  simp only [h1]

theorem smx (o : Ops) (nv : BitVec 8) : Statement (.smx o nv) := by
  refine fun _ => ⟨o, rfl, rfl, fun hw => ?_⟩
  obtain ⟨h0, h1⟩ := lay25 (Instr.mod (.smx o nv)) nv rfl
  refine (only_eq _ _ _ h0).trans ?_
  simp only [h1]

theorem smxf (o : Ops) : Statement (.smxf o) := by
  exact fun _ => ⟨o, rfl, rfl, fun _ => only_eq _ _ _ (layZero _ _ rfl)⟩

theorem mred (o : Ops) (col : Bool) : Statement (.mred o col) := by
  refine fun _ => ⟨o, rfl, rfl, fun hw => ?_⟩
  obtain ⟨h0, h1⟩ := lay11 (Instr.mod (.mred o col)) col rfl
  refine (only_eq _ _ _ h0).trans ?_
  simp only [h1]

theorem mtrld (o : Ops) (b8 : Bool) : Statement (.mtrld o b8) := by
  refine fun _ => ⟨o, rfl, rfl, fun hw => ?_⟩
  obtain ⟨h0, h1⟩ := lay11 (Instr.mod (.mtrld o b8)) b8 rfl
  refine (only_eq _ _ _ h0).trans ?_
  simp only [h1]

theorem tset (o : Ops) : Statement (.tset o) := by
  exact fun _ => ⟨o, rfl, rfl, fun _ => only_eq _ _ _ (layZero _ _ rfl)⟩

theorem bseal (o : Ops) : Statement (.bseal o) := by
  exact fun _ => ⟨o, rfl, rfl, fun _ => only_eq _ _ _ (layZero _ _ rfl)⟩

theorem bwait (o : Ops) : Statement (.bwait o) := by
  exact fun _ => ⟨o, rfl, rfl, fun _ => only_eq _ _ _ (layZero _ _ rfl)⟩

theorem barinit (o : Ops) : Statement (.barinit o) := by
  exact fun _ => ⟨o, rfl, rfl, fun _ => only_eq _ _ _ (layZero _ _ rfl)⟩

theorem barexp (o : Ops) : Statement (.barexp o) := by
  exact fun _ => ⟨o, rfl, rfl, fun _ => only_eq _ _ _ (layZero _ _ rfl)⟩

theorem barwait (o : Ops) (paths : BitVec 5) (gn : Bool) : Statement (.barwait o paths gn) := by
  refine fun _ => ⟨o, rfl, rfl, fun hw => ?_⟩
  obtain ⟨h0, h1, h2⟩ := lay26 (Instr.mod (.barwait o paths gn)) paths gn rfl
  refine (only_eq _ _ _ h0).trans ?_
  simp only [h1, h2]

theorem barpoll (o : Ops) : Statement (.barpoll o) := by
  exact fun _ => ⟨o, rfl, rfl, fun _ => only_eq _ _ _ (layZero _ _ rfl)⟩

theorem clbar (o : Ops) (paths : BitVec 5) : Statement (.clbar o paths) := by
  refine fun _ => ⟨o, rfl, rfl, fun hw => ?_⟩
  obtain ⟨h0, h1⟩ := lay27 (Instr.mod (.clbar o paths)) paths rfl
  refine (only_eq _ _ _ h0).trans ?_
  simp only [h1]

theorem clarr (o : Ops) (paths : BitVec 5) : Statement (.clarr o paths) := by
  refine fun _ => ⟨o, rfl, rfl, fun hw => ?_⟩
  obtain ⟨h0, h1⟩ := lay27 (Instr.mod (.clarr o paths)) paths rfl
  refine (only_eq _ _ _ h0).trans ?_
  simp only [h1]

theorem rld (o : Ops) (cnt : Cnt) : Statement (.rld o cnt) := by
  refine fun _ => ⟨o, rfl, rfl, fun hw => ?_⟩
  obtain ⟨h0, h1⟩ := lay16 (Instr.mod (.rld o cnt)) cnt.bits rfl
  refine (only_eq _ _ _ h0).trans ?_
  simp only [h1, Cnt.ofBits_bits, Option.bind_some]

theorem msend (o : Ops) (blk : Bool) : Statement (.msend o blk) := by
  refine fun _ => ⟨o, rfl, rfl, fun hw => ?_⟩
  obtain ⟨h0, h1⟩ := lay11 (Instr.mod (.msend o blk)) blk rfl
  refine (only_eq _ _ _ h0).trans ?_
  simp only [h1]

theorem mrecv (o : Ops) : Statement (.mrecv o) := by
  exact fun _ => ⟨o, rfl, rfl, fun _ => only_eq _ _ _ (layZero _ _ rfl)⟩

theorem mprobe (o : Ops) (st : Bool) : Statement (.mprobe o st) := by
  refine fun _ => ⟨o, rfl, rfl, fun hw => ?_⟩
  obtain ⟨h0, h1⟩ := lay11 (Instr.mod (.mprobe o st)) st rfl
  refine (only_eq _ _ _ h0).trans ?_
  simp only [h1]

theorem mcancel (o : Ops) : Statement (.mcancel o) := by
  exact fun _ => ⟨o, rfl, rfl, fun _ => only_eq _ _ _ (layZero _ _ rfl)⟩

theorem hpop (o : Ops) : Statement (.hpop o) := by
  exact fun _ => ⟨o, rfl, rfl, fun _ => (only_eq _ _ _ (layZero _ _ rfl)).trans (if_neg (layBitZero _ rfl))⟩

theorem hpopJ (o : Ops) : Statement (.hpopJ o) := by
  refine fun _ => ⟨o, rfl, rfl, fun _ => ?_⟩
  obtain ⟨h0, h1⟩ := lay11 (Instr.mod (.hpopJ o)) true rfl
  exact (only_eq _ _ _ h0).trans (if_pos h1)

theorem hpush (o : Ops) : Statement (.hpush o) := by
  exact fun _ => ⟨o, rfl, rfl, fun _ => only_eq _ _ _ (layZero _ _ rfl)⟩

theorem hstat (o : Ops) : Statement (.hstat o) := by
  exact fun _ => ⟨o, rfl, rfl, fun _ => only_eq _ _ _ (layZero _ _ rfl)⟩

theorem evsig (o : Ops) (op : EvOp) : Statement (.evsig o op) := by
  refine fun _ => ⟨o, rfl, rfl, fun hw => ?_⟩
  obtain ⟨h0, h1⟩ := lay16 (Instr.mod (.evsig o op)) op.bits rfl
  refine (only_eq _ _ _ h0).trans ?_
  simp only [h1, EvOp.ofBits_bits, Option.bind_some]

theorem evwait (o : Ops) : Statement (.evwait o) := by
  exact fun _ => ⟨o, rfl, rfl, fun _ => only_eq _ _ _ (layZero _ _ rfl)⟩

theorem jdone (o : Ops) : Statement (.jdone o) := by
  exact fun _ => ⟨o, rfl, rfl, fun _ => only_eq _ _ _ (layZero _ _ rfl)⟩

theorem publish (o : Ops) : Statement (.publish o) := by
  exact fun _ => ⟨o, rfl, rfl, fun _ => only_eq _ _ _ (layZero _ _ rfl)⟩

theorem adopt (o : Ops) : Statement (.adopt o) := by
  exact fun _ => ⟨o, rfl, rfl, fun _ => only_eq _ _ _ (layZero _ _ rfl)⟩

theorem tokrec (o : Ops) : Statement (.tokrec o) := by
  exact fun _ => ⟨o, rfl, rfl, fun _ => only_eq _ _ _ (layZero _ _ rfl)⟩

theorem snap (o : Ops) : Statement (.snap o) := by
  exact fun _ => ⟨o, rfl, rfl, fun _ => only_eq _ _ _ (layZero _ _ rfl)⟩

theorem waitRelease (g : Nat) : Statement (.waitRelease g) := fun h => nomatch h

theorem convRelease (g : Nat) : Statement (.convRelease g) := fun h => nomatch h

theorem regacqGrant (c : Nat) : Statement (.regacqGrant c) := fun h => nomatch h

theorem exitComplete (g : Nat) (lane : BitVec 5) : Statement (.exitComplete g lane) := fun h => nomatch h

theorem loadWriteback (g : Nat) (ix : Nat) (only : LoadPick) : Statement (.loadWriteback g ix only) := fun h => nomatch h

theorem storePerform (g : Nat) (ix : Nat) (early : StorePick) : Statement (.storePerform g ix early) := fun h => nomatch h

theorem ldpois (g : Nat) (lane : BitVec 5) : Statement (.ldpois g lane) := fun h => nomatch h

theorem fenceRelease (g : Nat) (lane : BitVec 5) : Statement (.fenceRelease g lane) := fun h => nomatch h

theorem matrixOpStart (c : Nat) : Statement (.matrixOpStart c) := fun h => nomatch h

theorem matrixOpRetire (c : Nat) : Statement (.matrixOpRetire c) := fun h => nomatch h

theorem tsetInstall (g : Nat) : Statement (.tsetInstall g) := fun h => nomatch h

theorem copyAccept (c : Nat) (ch : CopyPick) : Statement (.copyAccept c ch) := fun h => nomatch h

theorem copyArrival (c : Nat) (ix : Nat) (rx : Nat) (bytes : Nat) : Statement (.copyArrival c ix rx bytes) := fun h => nomatch h

theorem copySourceFail (c : Nat) (ix : Nat) : Statement (.copySourceFail c ix) := fun h => nomatch h

theorem curatorCopyFinish (c : Nat) (ix : Nat) (rx : Nat) (how : Finish) : Statement (.curatorCopyFinish c ix rx how) := fun h => nomatch h

theorem barwaitRelease (g : Nat) : Statement (.barwaitRelease g) := fun h => nomatch h

theorem clbarRelease (g : Nat) : Statement (.clbarRelease g) := fun h => nomatch h

theorem messageArrival (ix : Nat) : Statement (.messageArrival ix) := fun h => nomatch h

theorem messageStallTimeout (t : Nat) (ix : Nat) : Statement (.messageStallTimeout t ix) := fun h => nomatch h

theorem hpushPlace (c : Nat) (ix : Nat) : Statement (.hpushPlace c ix) := fun h => nomatch h

theorem hamperRefill (c : Nat) : Statement (.hamperRefill c) := fun h => nomatch h

theorem hpopTake (g : Nat) : Statement (.hpopTake g) := fun h => nomatch h

theorem evwaitRelease (g : Nat) : Statement (.evwaitRelease g) := fun h => nomatch h

theorem jdoneRelease (g : Nat) : Statement (.jdoneRelease g) := fun h => nomatch h

theorem jobLaunch (t : Nat) : Statement (.jobLaunch t) := fun h => nomatch h

theorem jobCompletionReport (ix : Nat) : Statement (.jobCompletionReport ix) := fun h => nomatch h

theorem coreSleep (c : Nat) : Statement (.coreSleep c) := fun h => nomatch h

theorem coreWake (c : Nat) (errors : List (BitVec 2 × BitVec 12)) : Statement (.coreWake c errors) := fun h => nomatch h

theorem haltRequest (t : Nat) : Statement (.haltRequest t) := fun h => nomatch h

theorem checkpointSave (t : Nat) (lost : Bool) : Statement (.checkpointSave t lost) := fun h => nomatch h

theorem queueTailWake (d : Nat) (q : Nat) : Statement (.queueTailWake d q) := fun h => nomatch h

theorem nopRecord (h : RecHdr) : Statement (.nopRecord h) := fun h => nomatch h

theorem job (h : RecHdr) (tiles : BitVec 24) (entry : W64) (arg : W64) (p : JobP3) : Statement (.job h tiles entry arg p) := fun h => nomatch h

theorem cjob (h : RecHdr) (clusters : BitVec 24) (entry : W64) (arg : W64) (p : JobP3) : Statement (.cjob h clusters entry arg p) := fun h => nomatch h

theorem waitev (h : RecHdr) (event : W32) : Statement (.waitev h event) := fun h => nomatch h

theorem sigev (h : RecHdr) (op : EvOp) (event : W32) (n : W32) : Statement (.sigev h op event n) := fun h => nomatch h

theorem loopRecord (h : RecHdr) (nbody : Half) (cond : W64) (maxiter : W32) (dmin : Byte) (dmax : Byte) (d0 : Byte) (mon : Bool) : Statement (.loopRecord h nbody cond maxiter dmin dmax d0 mon) := fun h => nomatch h

theorem loopend (h : RecHdr) : Statement (.loopend h) := fun h => nomatch h

theorem adoptRecord (h : RecHdr) : Statement (.adoptRecord h) := fun h => nomatch h

theorem lease (h : RecHdr) (r : Bool) (w : Bool) (part : Bool) (base : W64) (len : W64) : Statement (.lease h r w part base len) := fun h => nomatch h

theorem unlease (h : RecHdr) (base : W64) (len : W64) : Statement (.unlease h base len) := fun h => nomatch h

theorem resume (h : RecHdr) (core : BitVec 6) (cv : Bool) (image : W64) (table : W64) (event : W32) (evon : Bool) : Statement (.resume h core cv image table event evon) := fun h => nomatch h

theorem partw (h : RecHdr) (pword : BitVec 24) (mask : W64) (clcfg : BitVec 18) (gslots : BitVec 48) : Statement (.partw h pword mask clcfg gslots) := fun h => nomatch h

theorem mark (h : RecHdr) (addr : W64) (value : W64) : Statement (.mark h addr value) := fun h => nomatch h

theorem slice (h : RecHdr) (set : Byte) (t : W64) : Statement (.slice h set t) := fun h => nomatch h

theorem endreq (h : RecHdr) (nreq : Half) (state : W64) (bitmap : W64) : Statement (.endreq h nreq state bitmap) := fun h => nomatch h

theorem haltq (h : RecHdr) (queue : BitVec 6) (halt : Bool) (budget : W32) : Statement (.haltq h queue halt budget) := fun h => nomatch h

theorem leasePinComplete (d : Nat) (q : Nat) (n : Nat) : Statement (.leasePinComplete d q n) := fun h => nomatch h

theorem tilePlace (d : Nat) : Statement (.tilePlace d) := fun h => nomatch h

theorem drainEscalate (d : Nat) (q : Nat) : Statement (.drainEscalate d q) := fun h => nomatch h

theorem resumeListResume (d : Nat) (q : Nat) : Statement (.resumeListResume d q) := fun h => nomatch h

theorem evwaitBudgetExpire (g : Nat) : Statement (.evwaitBudgetExpire g) := fun h => nomatch h

theorem watchdogTick (d : Nat) : Statement (.watchdogTick d) := fun h => nomatch h

theorem catalogueStep (d : Nat) (slot : Nat) (op : CatOp) (n : W32) : Statement (.catalogueStep d slot op n) := fun h => nomatch h

theorem coreLost (c : Nat) : Statement (.coreLost c) := fun h => nomatch h

theorem linkdown (d : Nat) (site : Nat) (dir : Nat) : Statement (.linkdown d site dir) := fun h => nomatch h

theorem queueStart (d : Nat) (q : Nat) : Statement (.queueStart d q) := fun h => nomatch h

theorem pcoreWrite (d : Nat) (p : Nat) (mask : W64) : Statement (.pcoreWrite d p mask) := fun h => nomatch h

theorem vitbaseWrite (d : Nat) (n : Nat) (value : W64) : Statement (.vitbaseWrite d n value) := fun h => nomatch h

theorem vitrinePin (d : Nat) (n : Nat) : Statement (.vitrinePin d n) := fun h => nomatch h

theorem vitrineRelease (d : Nat) (n : Nat) : Statement (.vitrineRelease d n) := fun h => nomatch h

theorem vitrinePinDone (d : Nat) (n : Nat) : Statement (.vitrinePinDone d n) := fun h => nomatch h

theorem vitrineReleaseDone (d : Nat) (n : Nat) : Statement (.vitrineReleaseDone d n) := fun h => nomatch h

theorem xlinvPage (d : Nat) (p : Nat) (va : W64) : Statement (.xlinvPage d p va) := fun h => nomatch h

theorem xlinvPartition (d : Nat) (p : Nat) : Statement (.xlinvPartition d p) := fun h => nomatch h

theorem xlinvAll (d : Nat) : Statement (.xlinvAll d) := fun h => nomatch h

theorem xlinvDone (d : Nat) : Statement (.xlinvDone d) := fun h => nomatch h

theorem rootWrite (p : Nat) (value : W64) : Statement (.rootWrite p value) := fun h => nomatch h

theorem pubaccWrite (value : W32) : Statement (.pubaccWrite value) := fun h => nomatch h

theorem debugDisarm (value : W64) : Statement (.debugDisarm value) := fun h => nomatch h

theorem debugHoldQueue (value : W64) : Statement (.debugHoldQueue value) := fun h => nomatch h

theorem debugStopJob (value : W64) : Statement (.debugStopJob value) := fun h => nomatch h

theorem debugStopPartition (value : W64) : Statement (.debugStopPartition value) := fun h => nomatch h

theorem snapinTrigger  : Statement (.snapinTrigger) := fun h => nomatch h

theorem snapshotLatch  : Statement (.snapshotLatch) := fun h => nomatch h

theorem tsTick  : Statement (.tsTick) := fun h => nomatch h

theorem registerWrite (priv : Priv) (off : Nat) (size : Nat) (value : W64) : Statement (.registerWrite priv off size value) := fun h => nomatch h

theorem powerGood (recover : Bool) : Statement (.powerGood recover) := fun h => nomatch h

theorem stageB (dies : List DieTest) : Statement (.stageB dies) := fun h => nomatch h

theorem stageC  : Statement (.stageC) := fun h => nomatch h

theorem attestationRequest (nonce : BitVec 256) : Statement (.attestationRequest nonce) := fun h => nomatch h

theorem ownerEnrol (image : Image) (copy : Option Bool) (writable : Bool) : Statement (.ownerEnrol image copy writable) := fun h => nomatch h

theorem watisPortDown (port : Bool) : Statement (.watisPortDown port) := fun h => nomatch h

theorem ualinkPortDown (port : BitVec 4) : Statement (.ualinkPortDown port) := fun h => nomatch h

theorem fabricRingStart (q : Nat) : Statement (.fabricRingStart q) := fun h => nomatch h

theorem fabricTailWake (q : Nat) : Statement (.fabricTailWake q) := fun h => nomatch h

theorem read (h : FabHdr) (peer : BitVec 10) (laddr : W64) (raddr : W64) (len : W32) : Statement (.read h peer laddr raddr len) := fun h => nomatch h

theorem write (h : FabHdr) (peer : BitVec 10) (laddr : W64) (raddr : W64) (len : W32) : Statement (.write h peer laddr raddr len) := fun h => nomatch h

theorem atomic (h : FabHdr) (peer : BitVec 10) (laddr : W64) (raddr : W64) (aop : AOp) (sz : Bool) : Statement (.atomic h peer laddr raddr aop sz) := fun h => nomatch h

theorem allreduce (h : FabHdr) (rop : ROp) (cgid : BitVec 12) (laddr : W64) (list : W64) (len : W32) (nmem : W32) : Statement (.allreduce h rop cgid laddr list len nmem) := fun h => nomatch h

theorem broadcast (h : FabHdr) (cgid : BitVec 12) (root : BitVec 10) (laddr : W64) (list : W64) (len : W32) (nmem : W32) : Statement (.broadcast h cgid root laddr list len nmem) := fun h => nomatch h

theorem fabricCmdComplete (q : Nat) (ix : Nat) (ok : Bool) (data : List Byte) : Statement (.fabricCmdComplete q ix ok data) := fun h => nomatch h

theorem fabricRequestArrival (peer : Nat) (addr : W64) (op : PeerOp) : Statement (.fabricRequestArrival peer addr op) := fun h => nomatch h

theorem remoteEventAnswer (event : W32) (count : W32) (fail : Bool) : Statement (.remoteEventAnswer event count fail) := fun h => nomatch h

theorem fabricPeerTimeout (peer : Nat) : Statement (.fabricPeerTimeout peer) := fun h => nomatch h

theorem collectiveTimeout (cgid : Nat) (reuse : Bool) : Statement (.collectiveTimeout cgid reuse) := fun h => nomatch h

theorem peerDebugState (peer : Nat) (on : Bool) : Statement (.peerDebugState peer on) := fun h => nomatch h

theorem sliceDrainStart  : Statement (.sliceDrainStart) := fun h => nomatch h

theorem sliceEscalate  : Statement (.sliceEscalate) := fun h => nomatch h

theorem sliceSwitch  : Statement (.sliceSwitch) := fun h => nomatch h

theorem loaderLoad (part : Nat) (objs : List CodeObj) : Statement (.loaderLoad part objs) := fun h => nomatch h

theorem tlockChange (locked : Bool) : Statement (.tlockChange locked) := fun h => nomatch h

theorem eventWatchRegister (peer : Nat) (event : W32) : Statement (.eventWatchRegister peer event) := fun h => nomatch h

theorem collectiveMemberData (cgid : Nat) (member : Nat) (same : Bool) (data : List Byte) : Statement (.collectiveMemberData cgid member same data) := fun h => nomatch h

theorem cgidFinishReport (cgid : Nat) (member : Nat) : Statement (.cgidFinishReport cgid member) := fun h => nomatch h

theorem hostAccess (op : HostOp) : Statement (.hostAccess op) := fun h => nomatch h

end Sys2Proof.Laws.F
end

