-- ==== Sys2Proof/Laws/Encode.lean ====
section
/-!
SUPPORT. Words both ways. Forward, the operand, guard and word fields and every word's own fields read back as they were written
(R69–R72). Backward, what `build` gives has the OP, the MOD field and the operand fields it was built from, so that a word has one
meaning (R73, R83).
-/

namespace Sys2Proof

set_option maxRecDepth 100000

theorem only_some {m k : BitVec 10} {r : Option Instr} {i : Instr} (h : only m k r = some i) : m &&& ~~~k = 0#10 ∧ r = some i := by
  unfold only at h
  split at h
  · exact ⟨‹_›, h⟩
  · cases h

theorem Opd.bits_ofBits {b : BitVec 10} {x : Opd} (h : Opd.ofBits b = some x) : x.bits = b := by
  have k : ∀ b : BitVec 10, (Opd.ofBits b).all (fun y => y.bits == b) = true := by decide
  have := k b
  rw [h] at this
  exact eq_of_beq this

theorem AOp.bits_ofBits {b : BitVec 4} {x : AOp} (h : AOp.ofBits b = some x) : x.bits = b := by
  have k : ∀ b : BitVec 4, (AOp.ofBits b).all (fun y => y.bits == b) = true := by decide
  have := k b
  rw [h] at this
  exact eq_of_beq this
theorem AccSel.bits_ofBits {b : BitVec 2} {x : AccSel} (h : AccSel.ofBits b = some x) : x.bits = b := by
  have k : ∀ b : BitVec 2, (AccSel.ofBits b).all (fun y => y.bits == b) = true := by decide
  have := k b
  rw [h] at this
  exact eq_of_beq this
theorem Ch.bits_ofBits {b : BitVec 2} {x : Ch} (h : Ch.ofBits b = some x) : x.bits = b := by
  have k : ∀ b : BitVec 2, (Ch.ofBits b).all (fun y => y.bits == b) = true := by decide
  have := k b
  rw [h] at this
  exact eq_of_beq this
theorem Cnt.bits_ofBits {b : BitVec 2} {x : Cnt} (h : Cnt.ofBits b = some x) : x.bits = b := by
  have k : ∀ b : BitVec 2, (Cnt.ofBits b).all (fun y => y.bits == b) = true := by decide
  have := k b
  rw [h] at this
  exact eq_of_beq this
theorem Comb.bits_ofBits {b : BitVec 2} {x : Comb} (h : Comb.ofBits b = some x) : x.bits = b := by
  have k : ∀ b : BitVec 2, (Comb.ofBits b).all (fun y => y.bits == b) = true := by decide
  have := k b
  rw [h] at this
  exact eq_of_beq this
theorem Cvt.bits_ofBits {b : BitVec 3} {x : Cvt} (h : Cvt.ofBits b = some x) : x.bits = b := by
  have k : ∀ b : BitVec 3, (Cvt.ofBits b).all (fun y => y.bits == b) = true := by decide
  have := k b
  rw [h] at this
  exact eq_of_beq this
theorem EvOp.bits_ofBits {b : BitVec 2} {x : EvOp} (h : EvOp.ofBits b = some x) : x.bits = b := by
  have k : ∀ b : BitVec 2, (EvOp.ofBits b).all (fun y => y.bits == b) = true := by decide
  have := k b
  rw [h] at this
  exact eq_of_beq this
theorem FCond.bits_ofBits {b : BitVec 3} {x : FCond} (h : FCond.ofBits b = some x) : x.bits = b := by
  have k : ∀ b : BitVec 3, (FCond.ofBits b).all (fun y => y.bits == b) = true := by decide
  have := k b
  rw [h] at this
  exact eq_of_beq this
theorem Fmt.bits_ofBits {b : BitVec 4} {x : Fmt} (h : Fmt.ofBits b = some x) : x.bits = b := by
  have k : ∀ b : BitVec 4, (Fmt.ofBits b).all (fun y => y.bits == b) = true := by decide
  have := k b
  rw [h] at this
  exact eq_of_beq this
theorem ICond.bits_ofBits {b : BitVec 3} {x : ICond} (h : ICond.ofBits b = some x) : x.bits = b := by
  have k : ∀ b : BitVec 3, (ICond.ofBits b).all (fun y => y.bits == b) = true := by decide
  have := k b
  rw [h] at this
  exact eq_of_beq this
theorem Idx.bits_ofBits {b : BitVec 2} {x : Idx} (h : Idx.ofBits b = some x) : x.bits = b := by
  have k : ∀ b : BitVec 2, (Idx.ofBits b).all (fun y => y.bits == b) = true := by decide
  have := k b
  rw [h] at this
  exact eq_of_beq this
theorem MOrd.bits_ofBits {b : BitVec 2} {x : MOrd} (h : MOrd.ofBits b = some x) : x.bits = b := by
  have k : ∀ b : BitVec 2, (MOrd.ofBits b).all (fun y => y.bits == b) = true := by decide
  have := k b
  rw [h] at this
  exact eq_of_beq this
theorem RedF.bits_ofBits {b : BitVec 3} {x : RedF} (h : RedF.ofBits b = some x) : x.bits = b := by
  have k : ∀ b : BitVec 3, (RedF.ofBits b).all (fun y => y.bits == b) = true := by decide
  have := k b
  rw [h] at this
  exact eq_of_beq this
theorem RedI.bits_ofBits {b : BitVec 3} {x : RedI} (h : RedI.ofBits b = some x) : x.bits = b := by
  have k : ∀ b : BitVec 3, (RedI.ofBits b).all (fun y => y.bits == b) = true := by decide
  have := k b
  rw [h] at this
  exact eq_of_beq this
theorem Rm.bits_ofBits {b : BitVec 3} {x : Rm} (h : Rm.ofBits b = some x) : x.bits = b := by
  have k : ∀ b : BitVec 3, (Rm.ofBits b).all (fun y => y.bits == b) = true := by decide
  have := k b
  rw [h] at this
  exact eq_of_beq this
theorem SMode.bits_ofBits {b : BitVec 3} {x : SMode} (h : SMode.ofBits b = some x) : x.bits = b := by
  have k : ∀ b : BitVec 3, (SMode.ofBits b).all (fun y => y.bits == b) = true := by decide
  have := k b
  rw [h] at this
  exact eq_of_beq this
theorem Sat.bits_ofBits {b : BitVec 2} {x : Sat} (h : Sat.ofBits b = some x) : x.bits = b := by
  have k : ∀ b : BitVec 2, (Sat.ofBits b).all (fun y => y.bits == b) = true := by decide
  have := k b
  rw [h] at this
  exact eq_of_beq this
theorem Scope.bits_ofBits {b : BitVec 3} {x : Scope} (h : Scope.ofBits b = some x) : x.bits = b := by
  have k : ∀ b : BitVec 3, (Scope.ofBits b).all (fun y => y.bits == b) = true := by decide
  have := k b
  rw [h] at this
  exact eq_of_beq this
theorem Seg.bits_ofBits {b : BitVec 3} {x : Seg} (h : Seg.ofBits b = some x) : x.bits = b := by
  have k : ∀ b : BitVec 3, (Seg.ofBits b).all (fun y => y.bits == b) = true := by decide
  have := k b
  rw [h] at this
  exact eq_of_beq this
theorem Side.bits_ofBits {b : BitVec 2} {x : Side} (h : Side.ofBits b = some x) : x.bits = b := by
  have k : ∀ b : BitVec 2, (Side.ofBits b).all (fun y => y.bits == b) = true := by decide
  have := k b
  rw [h] at this
  exact eq_of_beq this
theorem Size.bits_ofBits {b : BitVec 3} {x : Size} (h : Size.ofBits b = some x) : x.bits = b := by
  have k : ∀ b : BitVec 3, (Size.ofBits b).all (fun y => y.bits == b) = true := by decide
  have := k b
  rw [h] at this
  exact eq_of_beq this
theorem SrOp.bits_ofBits {b : BitVec 2} {x : SrOp} (h : SrOp.ofBits b = some x) : x.bits = b := by
  have k : ∀ b : BitVec 2, (SrOp.ofBits b).all (fun y => y.bits == b) = true := by decide
  have := k b
  rw [h] at this
  exact eq_of_beq this
theorem VMode.bits_ofBits {b : BitVec 3} {x : VMode} (h : VMode.ofBits b = some x) : x.bits = b := by
  have k : ∀ b : BitVec 3, (VMode.ofBits b).all (fun y => y.bits == b) = true := by decide
  have := k b
  rw [h] at this
  exact eq_of_beq this

theorem Opd.ofBits_bits (x : Opd) : Opd.ofBits x.bits = some x := by
  have kv : ∀ n : BitVec 8, Opd.ofBits (Opd.v n).bits = some (Opd.v n) := by decide
  have ks : ∀ n : BitVec 6, Opd.ofBits (Opd.s n).bits = some (Opd.s n) := by decide
  have ka : ∀ n : BitVec 5, Opd.ofBits (Opd.a n).bits = some (Opd.a n) := by decide
  have kp : ∀ n : BitVec 3, Opd.ofBits (Opd.p n).bits = some (Opd.p n) := by decide
  have kq : ∀ n : BitVec 2, Opd.ofBits (Opd.q n).bits = some (Opd.q n) := by decide
  have kc : ∀ n : BitVec 5, Opd.ofBits (Opd.acc n).bits = some (Opd.acc n) := by decide
  cases x with
  | v n => exact kv n
  | s n => exact ks n
  | a n => exact ka n
  | p n => exact kp n
  | q n => exact kq n
  | acc n => exact kc n
  | zero | laneid | groupid | teamid | coreid | imm | none => decide

theorem appNat {m n : Nat} (x : BitVec m) (y : BitVec n) : (x ++ y).toNat = 2 ^ n * x.toNat + y.toNat := by
  rw [BitVec.toNat_append, Nat.shiftLeft_eq, Nat.mul_comm, Nat.two_pow_add_eq_or_of_lt y.isLt]

theorem Fields.pack_toNat (f : Fields) : f.pack.toNat = 2 ^ 86 * f.op.toNat + (2 ^ 82 * f.gd.toNat + (2 ^ 72 * f.d.toNat + (2 ^ 62 * f.a.toNat
   + (2 ^ 52 * f.b.toNat + (2 ^ 42 * f.c.toNat + (2 ^ 32 * f.mod.toNat + f.imm.toNat)))))) := by
  unfold Fields.pack
  refine (appNat _ _).trans ?_
  simp only [appNat]

theorem Fields.unpack_pack (f : Fields) : Fields.unpack f.pack = f := by
  have h := Fields.pack_toNat f
  obtain ⟨op, gd, d, a, b, c, m, imm⟩ := f
  simp only [Fields.unpack, Fields.mk.injEq]
  simp only at h
  have := op.isLt; have := gd.isLt; have := d.isLt; have := a.isLt; have := b.isLt; have := c.isLt; have := m.isLt; have := imm.isLt
  refine ⟨?_, ?_, ?_, ?_, ?_, ?_, ?_, ?_⟩ <;> (apply BitVec.eq_of_toNat_eq; simp only [BitVec.extractLsb'_toNat, Nat.shiftRight_eq_div_pow]; omega)

theorem Fields.pack_unpack (w : W96) : (Fields.unpack w).pack = w := by
  apply BitVec.eq_of_toNat_eq
  rw [Fields.pack_toNat]
  have := w.isLt
  simp only [Fields.unpack, BitVec.extractLsb'_toNat, Nat.shiftRight_eq_div_pow]
  omega

theorem Guard.ofBits_bits (g : Guard) : Guard.ofBits g.bits = g := by
  have k : ∀ (a : Bool) (b : BitVec 3), Guard.ofBits (Guard.bits ⟨a, b⟩) = ⟨a, b⟩ := by decide
  exact k g.neg g.idx

theorem Guard.bits_ofBits (b : BitVec 4) : (Guard.ofBits b).bits = b := by
  have k : ∀ b : BitVec 4, (Guard.ofBits b).bits = b := by decide
  exact k b

/-- What a term built from an OP, a MOD field and operand fields keeps of them. -/
def Rebuilds (op : Nat) (m : BitVec 10) (o : Ops) (i : Instr) : Prop :=
  i.op.toNat = op ∧ i.mod = m ∧ i.guardOf = some o ∧ i.isWord = true

theorem maskZero : ∀ m : BitVec 10, m &&& ~~~0x000#10 = 0#10 → m = 0#10 := by decide
theorem inv1 : ∀ m : BitVec 10, m &&& ~~~0x203#10 = 0#10 → bit (m.getLsbD 9) 9 ||| at10 (m.extractLsb' 0 2) 0 = m := by decide
theorem inv2 : ∀ m : BitVec 10, m &&& ~~~0x201#10 = 0#10 → bit (m.getLsbD 9) 9 ||| bit (m.getLsbD 0) 0 = m := by decide
theorem inv3 : ∀ m : BitVec 10, m &&& ~~~0x200#10 = 0#10 → bit (m.getLsbD 9) 9 = m := by decide
theorem inv4 : ∀ m : BitVec 10, m &&& ~~~0x23F#10 = 0#10 → bit (m.getLsbD 9) 9 ||| at10 (m.extractLsb' 0 3) 0 ||| bit (m.getLsbD 3) 3 ||| at10 (m.extractLsb' 4 2) 4 = m := by decide
theorem inv5 : ∀ m : BitVec 10, m &&& ~~~0x01F#10 = 0#10 → at10 (m.extractLsb' 0 3) 0 ||| at10 (m.extractLsb' 3 2) 3 = m := by decide
theorem inv6 : ∀ m : BitVec 10, m &&& ~~~0x007#10 = 0#10 → at10 (m.extractLsb' 0 3) 0 = m := by decide
theorem inv7 : ∀ m : BitVec 10, m &&& ~~~0x01F#10 = 0#10 → at10 (m.extractLsb' 0 3) 0 ||| bit (m.getLsbD 3) 3 ||| bit (m.getLsbD 4) 4 = m := by decide
theorem inv8 : ∀ m : BitVec 10, m &&& ~~~0x037#10 = 0#10 → at10 (m.extractLsb' 0 3) 0 ||| at10 (m.extractLsb' 4 2) 4 = m := by decide
theorem inv9 : ∀ m : BitVec 10, m &&& ~~~0x077#10 = 0#10 → at10 (m.extractLsb' 0 3) 0 ||| at10 (m.extractLsb' 4 3) 4 = m := by decide
theorem inv10 : ∀ m : BitVec 10, m &&& ~~~0x00F#10 = 0#10 → at10 (m.extractLsb' 0 3) 0 ||| bit (m.getLsbD 3) 3 = m := by decide
theorem inv11 : ∀ m : BitVec 10, m &&& ~~~0x001#10 = 0#10 → bit (m.getLsbD 0) 0 = m := by decide
theorem inv12 : ∀ m : BitVec 10, m &&& ~~~0x003#10 = 0#10 → bit (m.getLsbD 0) 0 ||| bit (m.getLsbD 1) 1 = m := by decide
theorem inv13 : ∀ m : BitVec 10, m &&& ~~~0x002#10 = 0#10 → bit (m.getLsbD 1) 1 = m := by decide
theorem inv14 : ∀ m : BitVec 10, m &&& ~~~0x3FF#10 = 0#10 → at10 (m.extractLsb' 0 10) 0 = m := by decide
theorem inv15 : ∀ m : BitVec 10, m &&& ~~~0x03F#10 = 0#10 → at10 (m.extractLsb' 0 3) 0 ||| at10 (m.extractLsb' 3 3) 3 = m := by decide
theorem inv16 : ∀ m : BitVec 10, m &&& ~~~0x003#10 = 0#10 → at10 (m.extractLsb' 0 2) 0 = m := by decide
theorem inv17 : ∀ m : BitVec 10, m &&& ~~~0x3FF#10 = 0#10 → at10 (m.extractLsb' 8 2) 8 ||| at10 (m.extractLsb' 5 3) 5 ||| at10 (m.extractLsb' 3 2) 3 ||| at10 (m.extractLsb' 0 3) 0 = m := by decide
theorem inv18 : ∀ m : BitVec 10, m &&& ~~~0x30F#10 = 0#10 → at10 (m.extractLsb' 8 2) 8 ||| at10 (m.extractLsb' 0 4) 0 = m := by decide
theorem inv19 : ∀ m : BitVec 10, m &&& ~~~0x3FF#10 = 0#10 → at10 (m.extractLsb' 8 2) 8 ||| bit (m.getLsbD 7) 7 ||| at10 (m.extractLsb' 4 3) 4 ||| at10 (m.extractLsb' 0 4) 0 = m := by decide
theorem inv20 : ∀ m : BitVec 10, m &&& ~~~0x3FF#10 = 0#10 → bit (m.getLsbD 9) 9 ||| at10 (m.extractLsb' 6 3) 6 ||| at10 (m.extractLsb' 4 2) 4 ||| at10 (m.extractLsb' 0 4) 0 = m := by decide
theorem inv21 : ∀ m : BitVec 10, m &&& ~~~0x0FF#10 = 0#10 → at10 (m.extractLsb' 3 5) 3 ||| at10 (m.extractLsb' 0 3) 0 = m := by decide
theorem inv22 : ∀ m : BitVec 10, m &&& ~~~0x300#10 = 0#10 → bit (m.getLsbD 9) 9 ||| bit (m.getLsbD 8) 8 = m := by decide
theorem inv23 : ∀ m : BitVec 10, m &&& ~~~0x100#10 = 0#10 → bit (m.getLsbD 8) 8 = m := by decide
theorem inv24 : ∀ m : BitVec 10, m &&& ~~~0x03F#10 = 0#10 → at10 (m.extractLsb' 4 2) 4 ||| at10 (m.extractLsb' 0 4) 0 = m := by decide
theorem inv25 : ∀ m : BitVec 10, m &&& ~~~0x0FF#10 = 0#10 → at10 (m.extractLsb' 0 8) 0 = m := by decide
theorem inv26 : ∀ m : BitVec 10, m &&& ~~~0x0F9#10 = 0#10 → at10 (m.extractLsb' 3 5) 3 ||| bit (m.getLsbD 0) 0 = m := by decide
theorem inv27 : ∀ m : BitVec 10, m &&& ~~~0x0F8#10 = 0#10 → at10 (m.extractLsb' 3 5) 3 = m := by decide

theorem build_0x000 {m : BitVec 10} {o : Ops} {i : Instr} (h : build 0x000 m o = some i) : Rebuilds 0x000 m o i := by
  obtain ⟨hk, h⟩ := only_some (k := 0x203#10) h
  obtain ⟨sat, h0, h⟩ := Option.bind_eq_some_iff.1 h
  cases h
  have e := inv1 m hk
  rw [← Sat.bits_ofBits h0] at e
  exact ⟨rfl, e, rfl, rfl⟩

theorem build_0x001 {m : BitVec 10} {o : Ops} {i : Instr} (h : build 0x001 m o = some i) : Rebuilds 0x001 m o i := by
  obtain ⟨hk, h⟩ := only_some (k := 0x203#10) h
  obtain ⟨sat, h0, h⟩ := Option.bind_eq_some_iff.1 h
  cases h
  have e := inv1 m hk
  rw [← Sat.bits_ofBits h0] at e
  exact ⟨rfl, e, rfl, rfl⟩

theorem build_0x002 {m : BitVec 10} {o : Ops} {i : Instr} (h : build 0x002 m o = some i) : Rebuilds 0x002 m o i := by
  obtain ⟨hk, h⟩ := only_some (k := 0x203#10) h
  obtain ⟨sat, h0, h⟩ := Option.bind_eq_some_iff.1 h
  cases h
  have e := inv1 m hk
  rw [← Sat.bits_ofBits h0] at e
  exact ⟨rfl, e, rfl, rfl⟩

theorem build_0x003 {m : BitVec 10} {o : Ops} {i : Instr} (h : build 0x003 m o = some i) : Rebuilds 0x003 m o i := by
  obtain ⟨hk, h⟩ := only_some (k := 0x201#10) h
  cases h
  have e := inv2 m hk
  exact ⟨rfl, e, rfl, rfl⟩

theorem build_0x004 {m : BitVec 10} {o : Ops} {i : Instr} (h : build 0x004 m o = some i) : Rebuilds 0x004 m o i := by
  obtain ⟨hk, h⟩ := only_some (k := 0x200#10) h
  cases h
  have e := inv3 m hk
  exact ⟨rfl, e, rfl, rfl⟩

theorem build_0x005 {m : BitVec 10} {o : Ops} {i : Instr} (h : build 0x005 m o = some i) : Rebuilds 0x005 m o i := by
  obtain ⟨hk, h⟩ := only_some (k := 0x21F#10) h
  obtain ⟨co, hc, h⟩ := Option.bind_eq_some_iff.1 h
  cases h
  refine ⟨rfl, ?_, rfl, rfl⟩
  have k : ∀ m : BitVec 10, m &&& ~~~0x21F#10 = 0#10 → (coField m).all (fun co => bit (m.getLsbD 9) 9 ||| bit (m.getLsbD 4) 4
      ||| (match co with | some k => 8#10 ||| at10 k 0 | none => 0#10) == m) = true := by
    decide
  have := k m hk
  rw [hc] at this
  exact eq_of_beq this

theorem build_0x006 {m : BitVec 10} {o : Ops} {i : Instr} (h : build 0x006 m o = some i) : Rebuilds 0x006 m o i := by
  obtain ⟨hk, h⟩ := only_some (k := 0x201#10) h
  cases h
  have e := inv2 m hk
  exact ⟨rfl, e, rfl, rfl⟩

theorem build_0x007 {m : BitVec 10} {o : Ops} {i : Instr} (h : build 0x007 m o = some i) : Rebuilds 0x007 m o i := by
  obtain ⟨hk, h⟩ := only_some (k := 0x201#10) h
  cases h
  have e := inv2 m hk
  exact ⟨rfl, e, rfl, rfl⟩

theorem build_0x008 {m : BitVec 10} {o : Ops} {i : Instr} (h : build 0x008 m o = some i) : Rebuilds 0x008 m o i := by
  obtain ⟨hk, h⟩ := only_some (k := 0x201#10) h
  cases h
  have e := inv2 m hk
  exact ⟨rfl, e, rfl, rfl⟩

theorem build_0x009 {m : BitVec 10} {o : Ops} {i : Instr} (h : build 0x009 m o = some i) : Rebuilds 0x009 m o i := by
  obtain ⟨hk, h⟩ := only_some (k := 0x201#10) h
  cases h
  have e := inv2 m hk
  exact ⟨rfl, e, rfl, rfl⟩

theorem build_0x010 {m : BitVec 10} {o : Ops} {i : Instr} (h : build 0x010 m o = some i) : Rebuilds 0x010 m o i := by
  obtain ⟨hk, h⟩ := only_some (k := 0x200#10) h
  cases h
  have e := inv3 m hk
  exact ⟨rfl, e, rfl, rfl⟩

theorem build_0x011 {m : BitVec 10} {o : Ops} {i : Instr} (h : build 0x011 m o = some i) : Rebuilds 0x011 m o i := by
  obtain ⟨hk, h⟩ := only_some (k := 0x200#10) h
  cases h
  have e := inv3 m hk
  exact ⟨rfl, e, rfl, rfl⟩

theorem build_0x012 {m : BitVec 10} {o : Ops} {i : Instr} (h : build 0x012 m o = some i) : Rebuilds 0x012 m o i := by
  obtain ⟨hk, h⟩ := only_some (k := 0x200#10) h
  cases h
  have e := inv3 m hk
  exact ⟨rfl, e, rfl, rfl⟩

theorem build_0x013 {m : BitVec 10} {o : Ops} {i : Instr} (h : build 0x013 m o = some i) : Rebuilds 0x013 m o i := by
  obtain ⟨hk, h⟩ := only_some (k := 0x200#10) h
  cases h
  have e := inv3 m hk
  exact ⟨rfl, e, rfl, rfl⟩

theorem build_0x014 {m : BitVec 10} {o : Ops} {i : Instr} (h : build 0x014 m o = some i) : Rebuilds 0x014 m o i := by
  obtain ⟨hk, h⟩ := only_some (k := 0x200#10) h
  cases h
  have e := inv3 m hk
  exact ⟨rfl, e, rfl, rfl⟩

theorem build_0x018 {m : BitVec 10} {o : Ops} {i : Instr} (h : build 0x018 m o = some i) : Rebuilds 0x018 m o i := by
  obtain ⟨hk, h⟩ := only_some (k := 0x200#10) h
  cases h
  have e := inv3 m hk
  exact ⟨rfl, e, rfl, rfl⟩

theorem build_0x019 {m : BitVec 10} {o : Ops} {i : Instr} (h : build 0x019 m o = some i) : Rebuilds 0x019 m o i := by
  obtain ⟨hk, h⟩ := only_some (k := 0x200#10) h
  cases h
  have e := inv3 m hk
  exact ⟨rfl, e, rfl, rfl⟩

theorem build_0x01A {m : BitVec 10} {o : Ops} {i : Instr} (h : build 0x01A m o = some i) : Rebuilds 0x01A m o i := by
  obtain ⟨hk, h⟩ := only_some (k := 0x200#10) h
  cases h
  have e := inv3 m hk
  exact ⟨rfl, e, rfl, rfl⟩

theorem build_0x01B {m : BitVec 10} {o : Ops} {i : Instr} (h : build 0x01B m o = some i) : Rebuilds 0x01B m o i := by
  obtain ⟨hk, h⟩ := only_some (k := 0x200#10) h
  cases h
  have e := inv3 m hk
  exact ⟨rfl, e, rfl, rfl⟩

theorem build_0x020 {m : BitVec 10} {o : Ops} {i : Instr} (h : build 0x020 m o = some i) : Rebuilds 0x020 m o i := by
  obtain ⟨hk, h⟩ := only_some (k := 0x200#10) h
  cases h
  have e := inv3 m hk
  exact ⟨rfl, e, rfl, rfl⟩

theorem build_0x021 {m : BitVec 10} {o : Ops} {i : Instr} (h : build 0x021 m o = some i) : Rebuilds 0x021 m o i := by
  obtain ⟨hk, h⟩ := only_some (k := 0x200#10) h
  cases h
  have e := inv3 m hk
  exact ⟨rfl, e, rfl, rfl⟩

theorem build_0x022 {m : BitVec 10} {o : Ops} {i : Instr} (h : build 0x022 m o = some i) : Rebuilds 0x022 m o i := by
  obtain ⟨hk, h⟩ := only_some (k := 0x200#10) h
  cases h
  have e := inv3 m hk
  exact ⟨rfl, e, rfl, rfl⟩

theorem build_0x023 {m : BitVec 10} {o : Ops} {i : Instr} (h : build 0x023 m o = some i) : Rebuilds 0x023 m o i := by
  obtain ⟨hk, h⟩ := only_some (k := 0x200#10) h
  cases h
  have e := inv3 m hk
  exact ⟨rfl, e, rfl, rfl⟩

theorem build_0x024 {m : BitVec 10} {o : Ops} {i : Instr} (h : build 0x024 m o = some i) : Rebuilds 0x024 m o i := by
  obtain ⟨hk, h⟩ := only_some (k := 0x201#10) h
  cases h
  have e := inv2 m hk
  exact ⟨rfl, e, rfl, rfl⟩

theorem build_0x025 {m : BitVec 10} {o : Ops} {i : Instr} (h : build 0x025 m o = some i) : Rebuilds 0x025 m o i := by
  obtain ⟨hk, h⟩ := only_some (k := 0x200#10) h
  cases h
  have e := inv3 m hk
  exact ⟨rfl, e, rfl, rfl⟩

theorem build_0x026 {m : BitVec 10} {o : Ops} {i : Instr} (h : build 0x026 m o = some i) : Rebuilds 0x026 m o i := by
  obtain ⟨hk, h⟩ := only_some (k := 0x000#10) h
  cases h
  exact ⟨rfl, (maskZero m hk).symm, rfl, rfl⟩

theorem build_0x030 {m : BitVec 10} {o : Ops} {i : Instr} (h : build 0x030 m o = some i) : Rebuilds 0x030 m o i := by
  obtain ⟨hk, h⟩ := only_some (k := 0x23F#10) h
  obtain ⟨cond, h0, h⟩ := Option.bind_eq_some_iff.1 h
  obtain ⟨comb, h1, h⟩ := Option.bind_eq_some_iff.1 h
  cases h
  have e := inv4 m hk
  rw [← ICond.bits_ofBits h0, ← Comb.bits_ofBits h1] at e
  exact ⟨rfl, e, rfl, rfl⟩

theorem build_0x031 {m : BitVec 10} {o : Ops} {i : Instr} (h : build 0x031 m o = some i) : Rebuilds 0x031 m o i := by
  obtain ⟨hk, h⟩ := only_some (k := 0x200#10) h
  cases h
  have e := inv3 m hk
  exact ⟨rfl, e, rfl, rfl⟩

theorem build_0x038 {m : BitVec 10} {o : Ops} {i : Instr} (h : build 0x038 m o = some i) : Rebuilds 0x038 m o i := by
  obtain ⟨hk, h⟩ := only_some (k := 0x200#10) h
  cases h
  have e := inv3 m hk
  exact ⟨rfl, e, rfl, rfl⟩

theorem build_0x039 {m : BitVec 10} {o : Ops} {i : Instr} (h : build 0x039 m o = some i) : Rebuilds 0x039 m o i := by
  obtain ⟨hk, h⟩ := only_some (k := 0x201#10) h
  cases h
  have e := inv2 m hk
  exact ⟨rfl, e, rfl, rfl⟩

theorem build_0x03A {m : BitVec 10} {o : Ops} {i : Instr} (h : build 0x03A m o = some i) : Rebuilds 0x03A m o i := by
  obtain ⟨hk, h⟩ := only_some (k := 0x000#10) h
  cases h
  exact ⟨rfl, (maskZero m hk).symm, rfl, rfl⟩

theorem build_0x040 {m : BitVec 10} {o : Ops} {i : Instr} (h : build 0x040 m o = some i) : Rebuilds 0x040 m o i := by
  obtain ⟨hk, h⟩ := only_some (k := 0x01F#10) h
  obtain ⟨idx, h0, h⟩ := Option.bind_eq_some_iff.1 h
  cases h
  have e := inv5 m hk
  rw [← Idx.bits_ofBits h0] at e
  exact ⟨rfl, e, rfl, rfl⟩

theorem build_0x041 {m : BitVec 10} {o : Ops} {i : Instr} (h : build 0x041 m o = some i) : Rebuilds 0x041 m o i := by
  obtain ⟨hk, h⟩ := only_some (k := 0x201#10) h
  obtain ⟨f, hc, h⟩ := Option.bind_eq_some_iff.1 h
  cases h
  refine ⟨rfl, ?_, rfl, rfl⟩
  have k : ∀ m : BitVec 10, m &&& ~~~0x201#10 = 0#10 → (promField m).all (fun f =>
      (match f with | .lo => 0#10 | .hi => 1#10 | .w => 0x200#10) == m) = true := by
    decide
  have := k m hk
  rw [hc] at this
  exact eq_of_beq this

theorem build_0x042 {m : BitVec 10} {o : Ops} {i : Instr} (h : build 0x042 m o = some i) : Rebuilds 0x042 m o i := by
  obtain ⟨hk, h⟩ := only_some (k := 0x000#10) h
  cases h
  exact ⟨rfl, (maskZero m hk).symm, rfl, rfl⟩

theorem build_0x043 {m : BitVec 10} {o : Ops} {i : Instr} (h : build 0x043 m o = some i) : Rebuilds 0x043 m o i := by
  obtain ⟨hk, h⟩ := only_some (k := 0x000#10) h
  cases h
  exact ⟨rfl, (maskZero m hk).symm, rfl, rfl⟩

theorem build_0x044 {m : BitVec 10} {o : Ops} {i : Instr} (h : build 0x044 m o = some i) : Rebuilds 0x044 m o i := by
  obtain ⟨hk, h⟩ := only_some (k := 0x000#10) h
  cases h
  exact ⟨rfl, (maskZero m hk).symm, rfl, rfl⟩

theorem build_0x080 {m : BitVec 10} {o : Ops} {i : Instr} (h : build 0x080 m o = some i) : Rebuilds 0x080 m o i := by
  obtain ⟨hk, h⟩ := only_some (k := 0x007#10) h
  obtain ⟨rm, h0, h⟩ := Option.bind_eq_some_iff.1 h
  cases h
  have e := inv6 m hk
  rw [← Rm.bits_ofBits h0] at e
  exact ⟨rfl, e, rfl, rfl⟩

theorem build_0x081 {m : BitVec 10} {o : Ops} {i : Instr} (h : build 0x081 m o = some i) : Rebuilds 0x081 m o i := by
  obtain ⟨hk, h⟩ := only_some (k := 0x007#10) h
  obtain ⟨rm, h0, h⟩ := Option.bind_eq_some_iff.1 h
  cases h
  have e := inv6 m hk
  rw [← Rm.bits_ofBits h0] at e
  exact ⟨rfl, e, rfl, rfl⟩

theorem build_0x082 {m : BitVec 10} {o : Ops} {i : Instr} (h : build 0x082 m o = some i) : Rebuilds 0x082 m o i := by
  obtain ⟨hk, h⟩ := only_some (k := 0x007#10) h
  obtain ⟨rm, h0, h⟩ := Option.bind_eq_some_iff.1 h
  cases h
  have e := inv6 m hk
  rw [← Rm.bits_ofBits h0] at e
  exact ⟨rfl, e, rfl, rfl⟩

theorem build_0x083 {m : BitVec 10} {o : Ops} {i : Instr} (h : build 0x083 m o = some i) : Rebuilds 0x083 m o i := by
  obtain ⟨hk, h⟩ := only_some (k := 0x01F#10) h
  obtain ⟨rm, h0, h⟩ := Option.bind_eq_some_iff.1 h
  cases h
  have e := inv7 m hk
  rw [← Rm.bits_ofBits h0] at e
  exact ⟨rfl, e, rfl, rfl⟩

theorem build_0x084 {m : BitVec 10} {o : Ops} {i : Instr} (h : build 0x084 m o = some i) : Rebuilds 0x084 m o i := by
  obtain ⟨hk, h⟩ := only_some (k := 0x000#10) h
  cases h
  exact ⟨rfl, (maskZero m hk).symm, rfl, rfl⟩

theorem build_0x085 {m : BitVec 10} {o : Ops} {i : Instr} (h : build 0x085 m o = some i) : Rebuilds 0x085 m o i := by
  obtain ⟨hk, h⟩ := only_some (k := 0x000#10) h
  cases h
  exact ⟨rfl, (maskZero m hk).symm, rfl, rfl⟩

theorem build_0x086 {m : BitVec 10} {o : Ops} {i : Instr} (h : build 0x086 m o = some i) : Rebuilds 0x086 m o i := by
  obtain ⟨hk, h⟩ := only_some (k := 0x000#10) h
  cases h
  exact ⟨rfl, (maskZero m hk).symm, rfl, rfl⟩

theorem build_0x087 {m : BitVec 10} {o : Ops} {i : Instr} (h : build 0x087 m o = some i) : Rebuilds 0x087 m o i := by
  obtain ⟨hk, h⟩ := only_some (k := 0x000#10) h
  cases h
  exact ⟨rfl, (maskZero m hk).symm, rfl, rfl⟩

theorem build_0x088 {m : BitVec 10} {o : Ops} {i : Instr} (h : build 0x088 m o = some i) : Rebuilds 0x088 m o i := by
  obtain ⟨hk, h⟩ := only_some (k := 0x037#10) h
  obtain ⟨cond, h0, h⟩ := Option.bind_eq_some_iff.1 h
  obtain ⟨comb, h1, h⟩ := Option.bind_eq_some_iff.1 h
  cases h
  have e := inv8 m hk
  rw [← FCond.bits_ofBits h0, ← Comb.bits_ofBits h1] at e
  exact ⟨rfl, e, rfl, rfl⟩

theorem build_0x089 {m : BitVec 10} {o : Ops} {i : Instr} (h : build 0x089 m o = some i) : Rebuilds 0x089 m o i := by
  obtain ⟨hk, h⟩ := only_some (k := 0x000#10) h
  cases h
  exact ⟨rfl, (maskZero m hk).symm, rfl, rfl⟩

theorem build_0x08A {m : BitVec 10} {o : Ops} {i : Instr} (h : build 0x08A m o = some i) : Rebuilds 0x08A m o i := by
  obtain ⟨hk, h⟩ := only_some (k := 0x007#10) h
  obtain ⟨rm, h0, h⟩ := Option.bind_eq_some_iff.1 h
  cases h
  have e := inv6 m hk
  rw [← Rm.bits_ofBits h0] at e
  exact ⟨rfl, e, rfl, rfl⟩

theorem build_0x08B {m : BitVec 10} {o : Ops} {i : Instr} (h : build 0x08B m o = some i) : Rebuilds 0x08B m o i := by
  obtain ⟨hk, h⟩ := only_some (k := 0x077#10) h
  obtain ⟨rm, h0, h⟩ := Option.bind_eq_some_iff.1 h
  obtain ⟨kind, h1, h⟩ := Option.bind_eq_some_iff.1 h
  cases h
  have e := inv9 m hk
  rw [← Rm.bits_ofBits h0, ← Cvt.bits_ofBits h1] at e
  exact ⟨rfl, e, rfl, rfl⟩

theorem build_0x090 {m : BitVec 10} {o : Ops} {i : Instr} (h : build 0x090 m o = some i) : Rebuilds 0x090 m o i := by
  obtain ⟨hk, h⟩ := only_some (k := 0x00F#10) h
  obtain ⟨rm, h0, h⟩ := Option.bind_eq_some_iff.1 h
  cases h
  have e := inv10 m hk
  rw [← Rm.bits_ofBits h0] at e
  exact ⟨rfl, e, rfl, rfl⟩

theorem build_0x091 {m : BitVec 10} {o : Ops} {i : Instr} (h : build 0x091 m o = some i) : Rebuilds 0x091 m o i := by
  obtain ⟨hk, h⟩ := only_some (k := 0x001#10) h
  cases h
  have e := inv11 m hk
  exact ⟨rfl, e, rfl, rfl⟩

theorem build_0x092 {m : BitVec 10} {o : Ops} {i : Instr} (h : build 0x092 m o = some i) : Rebuilds 0x092 m o i := by
  obtain ⟨hk, h⟩ := only_some (k := 0x00F#10) h
  obtain ⟨rm, h0, h⟩ := Option.bind_eq_some_iff.1 h
  cases h
  have e := inv10 m hk
  rw [← Rm.bits_ofBits h0] at e
  exact ⟨rfl, e, rfl, rfl⟩

theorem build_0x093 {m : BitVec 10} {o : Ops} {i : Instr} (h : build 0x093 m o = some i) : Rebuilds 0x093 m o i := by
  obtain ⟨hk, h⟩ := only_some (k := 0x00F#10) h
  obtain ⟨rm, h0, h⟩ := Option.bind_eq_some_iff.1 h
  cases h
  have e := inv10 m hk
  rw [← Rm.bits_ofBits h0] at e
  exact ⟨rfl, e, rfl, rfl⟩

theorem build_0x094 {m : BitVec 10} {o : Ops} {i : Instr} (h : build 0x094 m o = some i) : Rebuilds 0x094 m o i := by
  obtain ⟨hk, h⟩ := only_some (k := 0x00F#10) h
  obtain ⟨rm, h0, h⟩ := Option.bind_eq_some_iff.1 h
  cases h
  have e := inv10 m hk
  rw [← Rm.bits_ofBits h0] at e
  exact ⟨rfl, e, rfl, rfl⟩

theorem build_0x095 {m : BitVec 10} {o : Ops} {i : Instr} (h : build 0x095 m o = some i) : Rebuilds 0x095 m o i := by
  obtain ⟨hk, h⟩ := only_some (k := 0x007#10) h
  obtain ⟨rm, h0, h⟩ := Option.bind_eq_some_iff.1 h
  cases h
  have e := inv6 m hk
  rw [← Rm.bits_ofBits h0] at e
  exact ⟨rfl, e, rfl, rfl⟩

theorem build_0x0A0 {m : BitVec 10} {o : Ops} {i : Instr} (h : build 0x0A0 m o = some i) : Rebuilds 0x0A0 m o i := by
  obtain ⟨hk, h⟩ := only_some (k := 0x000#10) h
  cases h
  exact ⟨rfl, (maskZero m hk).symm, rfl, rfl⟩

theorem build_0x0A1 {m : BitVec 10} {o : Ops} {i : Instr} (h : build 0x0A1 m o = some i) : Rebuilds 0x0A1 m o i := by
  obtain ⟨hk, h⟩ := only_some (k := 0x000#10) h
  cases h
  exact ⟨rfl, (maskZero m hk).symm, rfl, rfl⟩

theorem build_0x0A2 {m : BitVec 10} {o : Ops} {i : Instr} (h : build 0x0A2 m o = some i) : Rebuilds 0x0A2 m o i := by
  obtain ⟨hk, h⟩ := only_some (k := 0x000#10) h
  cases h
  exact ⟨rfl, (maskZero m hk).symm, rfl, rfl⟩

theorem build_0x0A3 {m : BitVec 10} {o : Ops} {i : Instr} (h : build 0x0A3 m o = some i) : Rebuilds 0x0A3 m o i := by
  obtain ⟨hk, h⟩ := only_some (k := 0x000#10) h
  cases h
  exact ⟨rfl, (maskZero m hk).symm, rfl, rfl⟩

theorem build_0x0A4 {m : BitVec 10} {o : Ops} {i : Instr} (h : build 0x0A4 m o = some i) : Rebuilds 0x0A4 m o i := by
  obtain ⟨hk, h⟩ := only_some (k := 0x000#10) h
  cases h
  exact ⟨rfl, (maskZero m hk).symm, rfl, rfl⟩

theorem build_0x0A5 {m : BitVec 10} {o : Ops} {i : Instr} (h : build 0x0A5 m o = some i) : Rebuilds 0x0A5 m o i := by
  obtain ⟨hk, h⟩ := only_some (k := 0x000#10) h
  cases h
  exact ⟨rfl, (maskZero m hk).symm, rfl, rfl⟩

theorem build_0x0A6 {m : BitVec 10} {o : Ops} {i : Instr} (h : build 0x0A6 m o = some i) : Rebuilds 0x0A6 m o i := by
  obtain ⟨hk, h⟩ := only_some (k := 0x000#10) h
  cases h
  exact ⟨rfl, (maskZero m hk).symm, rfl, rfl⟩

theorem build_0x0A7 {m : BitVec 10} {o : Ops} {i : Instr} (h : build 0x0A7 m o = some i) : Rebuilds 0x0A7 m o i := by
  obtain ⟨hk, h⟩ := only_some (k := 0x000#10) h
  cases h
  exact ⟨rfl, (maskZero m hk).symm, rfl, rfl⟩

theorem build_0x0A8 {m : BitVec 10} {o : Ops} {i : Instr} (h : build 0x0A8 m o = some i) : Rebuilds 0x0A8 m o i := by
  obtain ⟨hk, h⟩ := only_some (k := 0x007#10) h
  obtain ⟨rm, h0, h⟩ := Option.bind_eq_some_iff.1 h
  cases h
  have e := inv6 m hk
  rw [← Rm.bits_ofBits h0] at e
  exact ⟨rfl, e, rfl, rfl⟩

theorem build_0x0B0 {m : BitVec 10} {o : Ops} {i : Instr} (h : build 0x0B0 m o = some i) : Rebuilds 0x0B0 m o i := by
  obtain ⟨hk, h⟩ := only_some (k := 0x001#10) h
  cases h
  have e := inv11 m hk
  exact ⟨rfl, e, rfl, rfl⟩

theorem build_0x100 {m : BitVec 10} {o : Ops} {i : Instr} (h : build 0x100 m o = some i) : Rebuilds 0x100 m o i := by
  obtain ⟨hk, h⟩ := only_some (k := 0x003#10) h
  cases h
  have e := inv12 m hk
  exact ⟨rfl, e, rfl, rfl⟩

theorem build_0x101 {m : BitVec 10} {o : Ops} {i : Instr} (h : build 0x101 m o = some i) : Rebuilds 0x101 m o i := by
  obtain ⟨hk, h⟩ := only_some (k := 0x002#10) h
  cases h
  have e := inv13 m hk
  exact ⟨rfl, e, rfl, rfl⟩

theorem build_0x102 {m : BitVec 10} {o : Ops} {i : Instr} (h : build 0x102 m o = some i) : Rebuilds 0x102 m o i := by
  obtain ⟨hk, h⟩ := only_some (k := 0x000#10) h
  cases h
  exact ⟨rfl, (maskZero m hk).symm, rfl, rfl⟩

theorem build_0x103 {m : BitVec 10} {o : Ops} {i : Instr} (h : build 0x103 m o = some i) : Rebuilds 0x103 m o i := by
  obtain ⟨hk, h⟩ := only_some (k := 0x000#10) h
  cases h
  exact ⟨rfl, (maskZero m hk).symm, rfl, rfl⟩

theorem build_0x104 {m : BitVec 10} {o : Ops} {i : Instr} (h : build 0x104 m o = some i) : Rebuilds 0x104 m o i := by
  obtain ⟨hk, h⟩ := only_some (k := 0x000#10) h
  cases h
  exact ⟨rfl, (maskZero m hk).symm, rfl, rfl⟩

theorem build_0x105 {m : BitVec 10} {o : Ops} {i : Instr} (h : build 0x105 m o = some i) : Rebuilds 0x105 m o i := by
  obtain ⟨hk, h⟩ := only_some (k := 0x3FF#10) h
  cases h
  have e := inv14 m hk
  exact ⟨rfl, e, rfl, rfl⟩

theorem build_0x108 {m : BitVec 10} {o : Ops} {i : Instr} (h : build 0x108 m o = some i) : Rebuilds 0x108 m o i := by
  obtain ⟨hk, h⟩ := only_some (k := 0x000#10) h
  cases h
  exact ⟨rfl, (maskZero m hk).symm, rfl, rfl⟩

theorem build_0x109 {m : BitVec 10} {o : Ops} {i : Instr} (h : build 0x109 m o = some i) : Rebuilds 0x109 m o i := by
  obtain ⟨hk, h⟩ := only_some (k := 0x000#10) h
  cases h
  exact ⟨rfl, (maskZero m hk).symm, rfl, rfl⟩

theorem build_0x10A {m : BitVec 10} {o : Ops} {i : Instr} (h : build 0x10A m o = some i) : Rebuilds 0x10A m o i := by
  obtain ⟨hk, h⟩ := only_some (k := 0x000#10) h
  cases h
  exact ⟨rfl, (maskZero m hk).symm, rfl, rfl⟩

theorem build_0x10B {m : BitVec 10} {o : Ops} {i : Instr} (h : build 0x10B m o = some i) : Rebuilds 0x10B m o i := by
  obtain ⟨hk, h⟩ := only_some (k := 0x000#10) h
  cases h
  exact ⟨rfl, (maskZero m hk).symm, rfl, rfl⟩

theorem build_0x10C {m : BitVec 10} {o : Ops} {i : Instr} (h : build 0x10C m o = some i) : Rebuilds 0x10C m o i := by
  obtain ⟨hk, h⟩ := only_some (k := 0x000#10) h
  cases h
  exact ⟨rfl, (maskZero m hk).symm, rfl, rfl⟩

theorem build_0x110 {m : BitVec 10} {o : Ops} {i : Instr} (h : build 0x110 m o = some i) : Rebuilds 0x110 m o i := by
  obtain ⟨hk, h⟩ := only_some (k := 0x001#10) h
  have k0 : ∀ m : BitVec 10, m &&& ~~~0x001#10 = 0#10 → m.getLsbD 0 = true → bit true 0 = m := by decide
  have k1 : ∀ m : BitVec 10, m &&& ~~~0x001#10 = 0#10 → ¬ m.getLsbD 0 = true → 0#10 = m := by decide
  split at h
  · rename_i hb
    cases h
    exact ⟨rfl, k0 m hk hb, rfl, rfl⟩
  · rename_i hb
    cases h
    exact ⟨rfl, k1 m hk hb, rfl, rfl⟩

theorem build_0x111 {m : BitVec 10} {o : Ops} {i : Instr} (h : build 0x111 m o = some i) : Rebuilds 0x111 m o i := by
  obtain ⟨hk, h⟩ := only_some (k := 0x001#10) h
  cases h
  have e := inv11 m hk
  exact ⟨rfl, e, rfl, rfl⟩

theorem build_0x112 {m : BitVec 10} {o : Ops} {i : Instr} (h : build 0x112 m o = some i) : Rebuilds 0x112 m o i := by
  obtain ⟨hk, h⟩ := only_some (k := 0x000#10) h
  cases h
  exact ⟨rfl, (maskZero m hk).symm, rfl, rfl⟩

theorem build_0x120 {m : BitVec 10} {o : Ops} {i : Instr} (h : build 0x120 m o = some i) : Rebuilds 0x120 m o i := by
  obtain ⟨hk, h⟩ := only_some (k := 0x007#10) h
  obtain ⟨mode, h0, h⟩ := Option.bind_eq_some_iff.1 h
  cases h
  have e := inv6 m hk
  rw [← VMode.bits_ofBits h0] at e
  exact ⟨rfl, e, rfl, rfl⟩

theorem build_0x121 {m : BitVec 10} {o : Ops} {i : Instr} (h : build 0x121 m o = some i) : Rebuilds 0x121 m o i := by
  obtain ⟨hk, h⟩ := only_some (k := 0x000#10) h
  cases h
  exact ⟨rfl, (maskZero m hk).symm, rfl, rfl⟩

theorem build_0x122 {m : BitVec 10} {o : Ops} {i : Instr} (h : build 0x122 m o = some i) : Rebuilds 0x122 m o i := by
  obtain ⟨hk, h⟩ := only_some (k := 0x03F#10) h
  obtain ⟨mode, h0, h⟩ := Option.bind_eq_some_iff.1 h
  obtain ⟨seg, h1, h⟩ := Option.bind_eq_some_iff.1 h
  cases h
  have e := inv15 m hk
  rw [← SMode.bits_ofBits h0, ← Seg.bits_ofBits h1] at e
  exact ⟨rfl, e, rfl, rfl⟩

theorem build_0x123 {m : BitVec 10} {o : Ops} {i : Instr} (h : build 0x123 m o = some i) : Rebuilds 0x123 m o i := by
  obtain ⟨hk, h⟩ := only_some (k := 0x000#10) h
  cases h
  exact ⟨rfl, (maskZero m hk).symm, rfl, rfl⟩

theorem build_0x124 {m : BitVec 10} {o : Ops} {i : Instr} (h : build 0x124 m o = some i) : Rebuilds 0x124 m o i := by
  obtain ⟨hk, h⟩ := only_some (k := 0x000#10) h
  cases h
  exact ⟨rfl, (maskZero m hk).symm, rfl, rfl⟩

theorem build_0x128 {m : BitVec 10} {o : Ops} {i : Instr} (h : build 0x128 m o = some i) : Rebuilds 0x128 m o i := by
  obtain ⟨hk, h⟩ := only_some (k := 0x00F#10) h
  obtain ⟨op, h0, h⟩ := Option.bind_eq_some_iff.1 h
  cases h
  have e := inv10 m hk
  rw [← RedI.bits_ofBits h0] at e
  exact ⟨rfl, e, rfl, rfl⟩

theorem build_0x129 {m : BitVec 10} {o : Ops} {i : Instr} (h : build 0x129 m o = some i) : Rebuilds 0x129 m o i := by
  obtain ⟨hk, h⟩ := only_some (k := 0x007#10) h
  obtain ⟨op, h0, h⟩ := Option.bind_eq_some_iff.1 h
  cases h
  have e := inv6 m hk
  rw [← RedF.bits_ofBits h0] at e
  exact ⟨rfl, e, rfl, rfl⟩

theorem build_0x12A {m : BitVec 10} {o : Ops} {i : Instr} (h : build 0x12A m o = some i) : Rebuilds 0x12A m o i := by
  obtain ⟨hk, h⟩ := only_some (k := 0x001#10) h
  cases h
  have e := inv11 m hk
  exact ⟨rfl, e, rfl, rfl⟩

theorem build_0x130 {m : BitVec 10} {o : Ops} {i : Instr} (h : build 0x130 m o = some i) : Rebuilds 0x130 m o i := by
  obtain ⟨hk, h⟩ := only_some (k := 0x000#10) h
  cases h
  exact ⟨rfl, (maskZero m hk).symm, rfl, rfl⟩

theorem build_0x131 {m : BitVec 10} {o : Ops} {i : Instr} (h : build 0x131 m o = some i) : Rebuilds 0x131 m o i := by
  obtain ⟨hk, h⟩ := only_some (k := 0x000#10) h
  cases h
  exact ⟨rfl, (maskZero m hk).symm, rfl, rfl⟩

theorem build_0x132 {m : BitVec 10} {o : Ops} {i : Instr} (h : build 0x132 m o = some i) : Rebuilds 0x132 m o i := by
  obtain ⟨hk, h⟩ := only_some (k := 0x001#10) h
  cases h
  have e := inv11 m hk
  exact ⟨rfl, e, rfl, rfl⟩

theorem build_0x178 {m : BitVec 10} {o : Ops} {i : Instr} (h : build 0x178 m o = some i) : Rebuilds 0x178 m o i := by
  obtain ⟨hk, h⟩ := only_some (k := 0x000#10) h
  cases h
  exact ⟨rfl, (maskZero m hk).symm, rfl, rfl⟩

theorem build_0x179 {m : BitVec 10} {o : Ops} {i : Instr} (h : build 0x179 m o = some i) : Rebuilds 0x179 m o i := by
  obtain ⟨hk, h⟩ := only_some (k := 0x003#10) h
  obtain ⟨op, h0, h⟩ := Option.bind_eq_some_iff.1 h
  cases h
  have e := inv16 m hk
  rw [← SrOp.bits_ofBits h0] at e
  exact ⟨rfl, e, rfl, rfl⟩

theorem build_0x17C {m : BitVec 10} {o : Ops} {i : Instr} (h : build 0x17C m o = some i) : Rebuilds 0x17C m o i := by
  obtain ⟨hk, h⟩ := only_some (k := 0x000#10) h
  cases h
  exact ⟨rfl, (maskZero m hk).symm, rfl, rfl⟩

theorem build_0x17D {m : BitVec 10} {o : Ops} {i : Instr} (h : build 0x17D m o = some i) : Rebuilds 0x17D m o i := by
  obtain ⟨hk, h⟩ := only_some (k := 0x000#10) h
  cases h
  exact ⟨rfl, (maskZero m hk).symm, rfl, rfl⟩

theorem build_0x180 {m : BitVec 10} {o : Ops} {i : Instr} (h : build 0x180 m o = some i) : Rebuilds 0x180 m o i := by
  obtain ⟨hk, h⟩ := only_some (k := 0x3FF#10) h
  obtain ⟨ch, h0, h⟩ := Option.bind_eq_some_iff.1 h
  obtain ⟨scope, h1, h⟩ := Option.bind_eq_some_iff.1 h
  obtain ⟨ord, h2, h⟩ := Option.bind_eq_some_iff.1 h
  obtain ⟨size, h3, h⟩ := Option.bind_eq_some_iff.1 h
  cases h
  have e := inv17 m hk
  rw [← Ch.bits_ofBits h0, ← Scope.bits_ofBits h1, ← MOrd.bits_ofBits h2, ← Size.bits_ofBits h3] at e
  exact ⟨rfl, e, rfl, rfl⟩

theorem build_0x181 {m : BitVec 10} {o : Ops} {i : Instr} (h : build 0x181 m o = some i) : Rebuilds 0x181 m o i := by
  obtain ⟨hk, h⟩ := only_some (k := 0x30F#10) h
  obtain ⟨ch, h0, h⟩ := Option.bind_eq_some_iff.1 h
  obtain ⟨fmt, h1, h⟩ := Option.bind_eq_some_iff.1 h
  cases h
  have e := inv18 m hk
  rw [← Ch.bits_ofBits h0, ← Fmt.bits_ofBits h1] at e
  exact ⟨rfl, e, rfl, rfl⟩

theorem build_0x182 {m : BitVec 10} {o : Ops} {i : Instr} (h : build 0x182 m o = some i) : Rebuilds 0x182 m o i := by
  obtain ⟨hk, h⟩ := only_some (k := 0x3FF#10) h
  obtain ⟨ch, hc, h1⟩ := Option.bind_eq_some_iff.1 h
  obtain ⟨scope, hs, h2⟩ := Option.bind_eq_some_iff.1 h1
  obtain ⟨ord, ho, h3⟩ := Option.bind_eq_some_iff.1 h2
  obtain ⟨size, hz, h4⟩ := Option.bind_eq_some_iff.1 h3
  have e := inv17 m hk
  rw [← Ch.bits_ofBits hc, ← Scope.bits_ofBits hs, ← MOrd.bits_ofBits ho, ← Size.bits_ofBits hz] at e
  clear h h1 h2 h3
  have h5 := Option.some.inj h4
  clear h4
  split at h5
  · rename_i hcond
    simp only [Bool.and_eq_true, decide_eq_true_eq] at hcond
    obtain ⟨⟨⟨⟨rfl, rfl⟩, rfl⟩, rfl⟩, -⟩ := hcond
    subst h5
    exact ⟨rfl, e, rfl, rfl⟩
  · subst h5
    exact ⟨rfl, e, rfl, rfl⟩

theorem build_0x183 {m : BitVec 10} {o : Ops} {i : Instr} (h : build 0x183 m o = some i) : Rebuilds 0x183 m o i := by
  obtain ⟨hk, h⟩ := only_some (k := 0x3FF#10) h
  obtain ⟨ch, h0, h⟩ := Option.bind_eq_some_iff.1 h
  obtain ⟨rm, h1, h⟩ := Option.bind_eq_some_iff.1 h
  obtain ⟨fmt, h2, h⟩ := Option.bind_eq_some_iff.1 h
  cases h
  have e := inv19 m hk
  rw [← Ch.bits_ofBits h0, ← Rm.bits_ofBits h1, ← Fmt.bits_ofBits h2] at e
  exact ⟨rfl, e, rfl, rfl⟩

theorem build_0x188 {m : BitVec 10} {o : Ops} {i : Instr} (h : build 0x188 m o = some i) : Rebuilds 0x188 m o i := by
  obtain ⟨hk, h⟩ := only_some (k := 0x3FF#10) h
  obtain ⟨scope, h0, h⟩ := Option.bind_eq_some_iff.1 h
  obtain ⟨ord, h1, h⟩ := Option.bind_eq_some_iff.1 h
  obtain ⟨aop, h2, h⟩ := Option.bind_eq_some_iff.1 h
  cases h
  have e := inv20 m hk
  rw [← Scope.bits_ofBits h0, ← MOrd.bits_ofBits h1, ← AOp.bits_ofBits h2] at e
  exact ⟨rfl, e, rfl, rfl⟩

theorem build_0x189 {m : BitVec 10} {o : Ops} {i : Instr} (h : build 0x189 m o = some i) : Rebuilds 0x189 m o i := by
  obtain ⟨hk, h⟩ := only_some (k := 0x3FF#10) h
  obtain ⟨scope, h0, h⟩ := Option.bind_eq_some_iff.1 h
  obtain ⟨ord, h1, h⟩ := Option.bind_eq_some_iff.1 h
  obtain ⟨aop, h2, h⟩ := Option.bind_eq_some_iff.1 h
  cases h
  have e := inv20 m hk
  rw [← Scope.bits_ofBits h0, ← MOrd.bits_ofBits h1, ← AOp.bits_ofBits h2] at e
  exact ⟨rfl, e, rfl, rfl⟩

theorem build_0x190 {m : BitVec 10} {o : Ops} {i : Instr} (h : build 0x190 m o = some i) : Rebuilds 0x190 m o i := by
  obtain ⟨hk, h⟩ := only_some (k := 0x00F#10) h
  have k0 : ∀ m : BitVec 10, m &&& ~~~0x00F#10 = 0#10 → m.getLsbD 3 = true → at10 (m.extractLsb' 0 3) 0 ||| bit true 3 = m := by decide
  have k1 : ∀ m : BitVec 10, m &&& ~~~0x00F#10 = 0#10 → ¬ m.getLsbD 3 = true → at10 (m.extractLsb' 0 3) 0 = m := by decide
  split at h
  · rename_i hb
    obtain ⟨scope, hs, h⟩ := Option.bind_eq_some_iff.1 h
    cases h
    have e := k0 m hk hb
    rw [← Scope.bits_ofBits hs] at e
    exact ⟨rfl, e, rfl, rfl⟩
  · rename_i hb
    obtain ⟨scope, hs, h⟩ := Option.bind_eq_some_iff.1 h
    cases h
    have e := k1 m hk hb
    rw [← Scope.bits_ofBits hs] at e
    exact ⟨rfl, e, rfl, rfl⟩

theorem build_0x191 {m : BitVec 10} {o : Ops} {i : Instr} (h : build 0x191 m o = some i) : Rebuilds 0x191 m o i := by
  obtain ⟨hk, h⟩ := only_some (k := 0x0FF#10) h
  obtain ⟨scope, h0, h⟩ := Option.bind_eq_some_iff.1 h
  cases h
  have e := inv21 m hk
  rw [← Scope.bits_ofBits h0] at e
  exact ⟨rfl, e, rfl, rfl⟩

theorem build_0x198 {m : BitVec 10} {o : Ops} {i : Instr} (h : build 0x198 m o = some i) : Rebuilds 0x198 m o i := by
  obtain ⟨hk, h⟩ := only_some (k := 0x001#10) h
  cases h
  have e := inv11 m hk
  exact ⟨rfl, e, rfl, rfl⟩

theorem build_0x199 {m : BitVec 10} {o : Ops} {i : Instr} (h : build 0x199 m o = some i) : Rebuilds 0x199 m o i := by
  obtain ⟨hk, h⟩ := only_some (k := 0x000#10) h
  cases h
  exact ⟨rfl, (maskZero m hk).symm, rfl, rfl⟩

theorem build_0x19A {m : BitVec 10} {o : Ops} {i : Instr} (h : build 0x19A m o = some i) : Rebuilds 0x19A m o i := by
  obtain ⟨hk, h⟩ := only_some (k := 0x001#10) h
  cases h
  have e := inv11 m hk
  exact ⟨rfl, e, rfl, rfl⟩

theorem build_0x19B {m : BitVec 10} {o : Ops} {i : Instr} (h : build 0x19B m o = some i) : Rebuilds 0x19B m o i := by
  obtain ⟨hk, h⟩ := only_some (k := 0x001#10) h
  cases h
  have e := inv11 m hk
  exact ⟨rfl, e, rfl, rfl⟩

theorem build_0x200 {m : BitVec 10} {o : Ops} {i : Instr} (h : build 0x200 m o = some i) : Rebuilds 0x200 m o i := by
  obtain ⟨hk, h⟩ := only_some (k := 0x300#10) h
  cases h
  have e := inv22 m hk
  exact ⟨rfl, e, rfl, rfl⟩

theorem build_0x201 {m : BitVec 10} {o : Ops} {i : Instr} (h : build 0x201 m o = some i) : Rebuilds 0x201 m o i := by
  obtain ⟨hk, h⟩ := only_some (k := 0x100#10) h
  cases h
  have e := inv23 m hk
  exact ⟨rfl, e, rfl, rfl⟩

theorem build_0x202 {m : BitVec 10} {o : Ops} {i : Instr} (h : build 0x202 m o = some i) : Rebuilds 0x202 m o i := by
  obtain ⟨hk, h⟩ := only_some (k := 0x300#10) h
  cases h
  have e := inv22 m hk
  exact ⟨rfl, e, rfl, rfl⟩

theorem build_0x208 {m : BitVec 10} {o : Ops} {i : Instr} (h : build 0x208 m o = some i) : Rebuilds 0x208 m o i := by
  obtain ⟨hk, h⟩ := only_some (k := 0x003#10) h
  obtain ⟨sel, h0, h⟩ := Option.bind_eq_some_iff.1 h
  cases h
  have e := inv16 m hk
  rw [← AccSel.bits_ofBits h0] at e
  exact ⟨rfl, e, rfl, rfl⟩

theorem build_0x209 {m : BitVec 10} {o : Ops} {i : Instr} (h : build 0x209 m o = some i) : Rebuilds 0x209 m o i := by
  obtain ⟨hk, h⟩ := only_some (k := 0x03F#10) h
  obtain ⟨side, h0, h⟩ := Option.bind_eq_some_iff.1 h
  obtain ⟨fmt, h1, h⟩ := Option.bind_eq_some_iff.1 h
  cases h
  have e := inv24 m hk
  rw [← Side.bits_ofBits h0, ← Fmt.bits_ofBits h1] at e
  exact ⟨rfl, e, rfl, rfl⟩

theorem build_0x20A {m : BitVec 10} {o : Ops} {i : Instr} (h : build 0x20A m o = some i) : Rebuilds 0x20A m o i := by
  obtain ⟨hk, h⟩ := only_some (k := 0x3FF#10) h
  obtain ⟨rm, h0, h⟩ := Option.bind_eq_some_iff.1 h
  obtain ⟨side, h1, h⟩ := Option.bind_eq_some_iff.1 h
  obtain ⟨fmt, h2, h⟩ := Option.bind_eq_some_iff.1 h
  cases h
  have e := inv20 m hk
  rw [← Rm.bits_ofBits h0, ← Side.bits_ofBits h1, ← Fmt.bits_ofBits h2] at e
  exact ⟨rfl, e, rfl, rfl⟩

theorem build_0x20B {m : BitVec 10} {o : Ops} {i : Instr} (h : build 0x20B m o = some i) : Rebuilds 0x20B m o i := by
  obtain ⟨hk, h⟩ := only_some (k := 0x001#10) h
  cases h
  have e := inv11 m hk
  exact ⟨rfl, e, rfl, rfl⟩

theorem build_0x210 {m : BitVec 10} {o : Ops} {i : Instr} (h : build 0x210 m o = some i) : Rebuilds 0x210 m o i := by
  obtain ⟨hk, h⟩ := only_some (k := 0x0FF#10) h
  cases h
  have e := inv25 m hk
  exact ⟨rfl, e, rfl, rfl⟩

theorem build_0x211 {m : BitVec 10} {o : Ops} {i : Instr} (h : build 0x211 m o = some i) : Rebuilds 0x211 m o i := by
  obtain ⟨hk, h⟩ := only_some (k := 0x000#10) h
  cases h
  exact ⟨rfl, (maskZero m hk).symm, rfl, rfl⟩

theorem build_0x218 {m : BitVec 10} {o : Ops} {i : Instr} (h : build 0x218 m o = some i) : Rebuilds 0x218 m o i := by
  obtain ⟨hk, h⟩ := only_some (k := 0x001#10) h
  cases h
  have e := inv11 m hk
  exact ⟨rfl, e, rfl, rfl⟩

theorem build_0x220 {m : BitVec 10} {o : Ops} {i : Instr} (h : build 0x220 m o = some i) : Rebuilds 0x220 m o i := by
  obtain ⟨hk, h⟩ := only_some (k := 0x001#10) h
  cases h
  have e := inv11 m hk
  exact ⟨rfl, e, rfl, rfl⟩

theorem build_0x240 {m : BitVec 10} {o : Ops} {i : Instr} (h : build 0x240 m o = some i) : Rebuilds 0x240 m o i := by
  obtain ⟨hk, h⟩ := only_some (k := 0x000#10) h
  cases h
  exact ⟨rfl, (maskZero m hk).symm, rfl, rfl⟩

theorem build_0x248 {m : BitVec 10} {o : Ops} {i : Instr} (h : build 0x248 m o = some i) : Rebuilds 0x248 m o i := by
  obtain ⟨hk, h⟩ := only_some (k := 0x000#10) h
  cases h
  exact ⟨rfl, (maskZero m hk).symm, rfl, rfl⟩

theorem build_0x249 {m : BitVec 10} {o : Ops} {i : Instr} (h : build 0x249 m o = some i) : Rebuilds 0x249 m o i := by
  obtain ⟨hk, h⟩ := only_some (k := 0x000#10) h
  cases h
  exact ⟨rfl, (maskZero m hk).symm, rfl, rfl⟩

theorem build_0x250 {m : BitVec 10} {o : Ops} {i : Instr} (h : build 0x250 m o = some i) : Rebuilds 0x250 m o i := by
  obtain ⟨hk, h⟩ := only_some (k := 0x000#10) h
  cases h
  exact ⟨rfl, (maskZero m hk).symm, rfl, rfl⟩

theorem build_0x251 {m : BitVec 10} {o : Ops} {i : Instr} (h : build 0x251 m o = some i) : Rebuilds 0x251 m o i := by
  obtain ⟨hk, h⟩ := only_some (k := 0x000#10) h
  cases h
  exact ⟨rfl, (maskZero m hk).symm, rfl, rfl⟩

theorem build_0x252 {m : BitVec 10} {o : Ops} {i : Instr} (h : build 0x252 m o = some i) : Rebuilds 0x252 m o i := by
  obtain ⟨hk, h⟩ := only_some (k := 0x0F9#10) h
  cases h
  have e := inv26 m hk
  exact ⟨rfl, e, rfl, rfl⟩

theorem build_0x253 {m : BitVec 10} {o : Ops} {i : Instr} (h : build 0x253 m o = some i) : Rebuilds 0x253 m o i := by
  obtain ⟨hk, h⟩ := only_some (k := 0x000#10) h
  cases h
  exact ⟨rfl, (maskZero m hk).symm, rfl, rfl⟩

theorem build_0x280 {m : BitVec 10} {o : Ops} {i : Instr} (h : build 0x280 m o = some i) : Rebuilds 0x280 m o i := by
  obtain ⟨hk, h⟩ := only_some (k := 0x0F8#10) h
  cases h
  have e := inv27 m hk
  exact ⟨rfl, e, rfl, rfl⟩

theorem build_0x281 {m : BitVec 10} {o : Ops} {i : Instr} (h : build 0x281 m o = some i) : Rebuilds 0x281 m o i := by
  obtain ⟨hk, h⟩ := only_some (k := 0x0F8#10) h
  cases h
  have e := inv27 m hk
  exact ⟨rfl, e, rfl, rfl⟩

theorem build_0x288 {m : BitVec 10} {o : Ops} {i : Instr} (h : build 0x288 m o = some i) : Rebuilds 0x288 m o i := by
  obtain ⟨hk, h⟩ := only_some (k := 0x003#10) h
  obtain ⟨cnt, h0, h⟩ := Option.bind_eq_some_iff.1 h
  cases h
  have e := inv16 m hk
  rw [← Cnt.bits_ofBits h0] at e
  exact ⟨rfl, e, rfl, rfl⟩

theorem build_0x290 {m : BitVec 10} {o : Ops} {i : Instr} (h : build 0x290 m o = some i) : Rebuilds 0x290 m o i := by
  obtain ⟨hk, h⟩ := only_some (k := 0x001#10) h
  cases h
  have e := inv11 m hk
  exact ⟨rfl, e, rfl, rfl⟩

theorem build_0x291 {m : BitVec 10} {o : Ops} {i : Instr} (h : build 0x291 m o = some i) : Rebuilds 0x291 m o i := by
  obtain ⟨hk, h⟩ := only_some (k := 0x000#10) h
  cases h
  exact ⟨rfl, (maskZero m hk).symm, rfl, rfl⟩

theorem build_0x292 {m : BitVec 10} {o : Ops} {i : Instr} (h : build 0x292 m o = some i) : Rebuilds 0x292 m o i := by
  obtain ⟨hk, h⟩ := only_some (k := 0x001#10) h
  cases h
  have e := inv11 m hk
  exact ⟨rfl, e, rfl, rfl⟩

theorem build_0x293 {m : BitVec 10} {o : Ops} {i : Instr} (h : build 0x293 m o = some i) : Rebuilds 0x293 m o i := by
  obtain ⟨hk, h⟩ := only_some (k := 0x000#10) h
  cases h
  exact ⟨rfl, (maskZero m hk).symm, rfl, rfl⟩

theorem build_0x2C0 {m : BitVec 10} {o : Ops} {i : Instr} (h : build 0x2C0 m o = some i) : Rebuilds 0x2C0 m o i := by
  obtain ⟨hk, h⟩ := only_some (k := 0x001#10) h
  have k0 : ∀ m : BitVec 10, m &&& ~~~0x001#10 = 0#10 → m.getLsbD 0 = true → bit true 0 = m := by decide
  have k1 : ∀ m : BitVec 10, m &&& ~~~0x001#10 = 0#10 → ¬ m.getLsbD 0 = true → 0#10 = m := by decide
  split at h
  · rename_i hb
    cases h
    exact ⟨rfl, k0 m hk hb, rfl, rfl⟩
  · rename_i hb
    cases h
    exact ⟨rfl, k1 m hk hb, rfl, rfl⟩

theorem build_0x2C1 {m : BitVec 10} {o : Ops} {i : Instr} (h : build 0x2C1 m o = some i) : Rebuilds 0x2C1 m o i := by
  obtain ⟨hk, h⟩ := only_some (k := 0x000#10) h
  cases h
  exact ⟨rfl, (maskZero m hk).symm, rfl, rfl⟩

theorem build_0x2C2 {m : BitVec 10} {o : Ops} {i : Instr} (h : build 0x2C2 m o = some i) : Rebuilds 0x2C2 m o i := by
  obtain ⟨hk, h⟩ := only_some (k := 0x000#10) h
  cases h
  exact ⟨rfl, (maskZero m hk).symm, rfl, rfl⟩

theorem build_0x2C8 {m : BitVec 10} {o : Ops} {i : Instr} (h : build 0x2C8 m o = some i) : Rebuilds 0x2C8 m o i := by
  obtain ⟨hk, h⟩ := only_some (k := 0x003#10) h
  obtain ⟨op, h0, h⟩ := Option.bind_eq_some_iff.1 h
  cases h
  have e := inv16 m hk
  rw [← EvOp.bits_ofBits h0] at e
  exact ⟨rfl, e, rfl, rfl⟩

theorem build_0x2C9 {m : BitVec 10} {o : Ops} {i : Instr} (h : build 0x2C9 m o = some i) : Rebuilds 0x2C9 m o i := by
  obtain ⟨hk, h⟩ := only_some (k := 0x000#10) h
  cases h
  exact ⟨rfl, (maskZero m hk).symm, rfl, rfl⟩

theorem build_0x2CA {m : BitVec 10} {o : Ops} {i : Instr} (h : build 0x2CA m o = some i) : Rebuilds 0x2CA m o i := by
  obtain ⟨hk, h⟩ := only_some (k := 0x000#10) h
  cases h
  exact ⟨rfl, (maskZero m hk).symm, rfl, rfl⟩

theorem build_0x2D0 {m : BitVec 10} {o : Ops} {i : Instr} (h : build 0x2D0 m o = some i) : Rebuilds 0x2D0 m o i := by
  obtain ⟨hk, h⟩ := only_some (k := 0x000#10) h
  cases h
  exact ⟨rfl, (maskZero m hk).symm, rfl, rfl⟩

theorem build_0x2D1 {m : BitVec 10} {o : Ops} {i : Instr} (h : build 0x2D1 m o = some i) : Rebuilds 0x2D1 m o i := by
  obtain ⟨hk, h⟩ := only_some (k := 0x000#10) h
  cases h
  exact ⟨rfl, (maskZero m hk).symm, rfl, rfl⟩

theorem build_0x2D8 {m : BitVec 10} {o : Ops} {i : Instr} (h : build 0x2D8 m o = some i) : Rebuilds 0x2D8 m o i := by
  obtain ⟨hk, h⟩ := only_some (k := 0x000#10) h
  cases h
  exact ⟨rfl, (maskZero m hk).symm, rfl, rfl⟩

theorem build_0x2F0 {m : BitVec 10} {o : Ops} {i : Instr} (h : build 0x2F0 m o = some i) : Rebuilds 0x2F0 m o i := by
  obtain ⟨hk, h⟩ := only_some (k := 0x000#10) h
  cases h
  exact ⟨rfl, (maskZero m hk).symm, rfl, rfl⟩

theorem build_inv {op : Nat} {m : BitVec 10} {o : Ops} {i : Instr} (hop : opcodes.contains op = true) (h : build op m o = some i) :
    Rebuilds op m o i := by
  have all : ∀ k ∈ opcodes, build k m o = some i → Rebuilds k m o i := by
    simp only [opcodes, List.forall_mem_append, List.forall_mem_cons, List.not_mem_nil, false_implies, implies_true, and_true]
    and_intros
    · exact build_0x000
    · exact build_0x001
    · exact build_0x002
    · exact build_0x003
    · exact build_0x004
    · exact build_0x005
    · exact build_0x006
    · exact build_0x007
    · exact build_0x008
    · exact build_0x009
    · exact build_0x010
    · exact build_0x011
    · exact build_0x012
    · exact build_0x013
    · exact build_0x014
    · exact build_0x018
    · exact build_0x019
    · exact build_0x01A
    · exact build_0x01B
    · exact build_0x020
    · exact build_0x021
    · exact build_0x022
    · exact build_0x023
    · exact build_0x024
    · exact build_0x025
    · exact build_0x026
    · exact build_0x030
    · exact build_0x031
    · exact build_0x038
    · exact build_0x039
    · exact build_0x03A
    · exact build_0x040
    · exact build_0x041
    · exact build_0x042
    · exact build_0x043
    · exact build_0x044
    · exact build_0x080
    · exact build_0x081
    · exact build_0x082
    · exact build_0x083
    · exact build_0x084
    · exact build_0x085
    · exact build_0x086
    · exact build_0x087
    · exact build_0x088
    · exact build_0x089
    · exact build_0x08A
    · exact build_0x08B
    · exact build_0x090
    · exact build_0x091
    · exact build_0x092
    · exact build_0x093
    · exact build_0x094
    · exact build_0x095
    · exact build_0x0A0
    · exact build_0x0A1
    · exact build_0x0A2
    · exact build_0x0A3
    · exact build_0x0A4
    · exact build_0x0A5
    · exact build_0x0A6
    · exact build_0x0A7
    · exact build_0x0A8
    · exact build_0x0B0
    · exact build_0x100
    · exact build_0x101
    · exact build_0x102
    · exact build_0x103
    · exact build_0x104
    · exact build_0x105
    · exact build_0x108
    · exact build_0x109
    · exact build_0x10A
    · exact build_0x10B
    · exact build_0x10C
    · exact build_0x110
    · exact build_0x111
    · exact build_0x112
    · exact build_0x120
    · exact build_0x121
    · exact build_0x122
    · exact build_0x123
    · exact build_0x124
    · exact build_0x128
    · exact build_0x129
    · exact build_0x12A
    · exact build_0x130
    · exact build_0x131
    · exact build_0x132
    · exact build_0x178
    · exact build_0x179
    · exact build_0x17C
    · exact build_0x17D
    · exact build_0x180
    · exact build_0x181
    · exact build_0x182
    · exact build_0x183
    · exact build_0x188
    · exact build_0x189
    · exact build_0x190
    · exact build_0x191
    · exact build_0x198
    · exact build_0x199
    · exact build_0x19A
    · exact build_0x19B
    · exact build_0x200
    · exact build_0x201
    · exact build_0x202
    · exact build_0x208
    · exact build_0x209
    · exact build_0x20A
    · exact build_0x20B
    · exact build_0x210
    · exact build_0x211
    · exact build_0x218
    · exact build_0x220
    · exact build_0x240
    · exact build_0x248
    · exact build_0x249
    · exact build_0x250
    · exact build_0x251
    · exact build_0x252
    · exact build_0x253
    · exact build_0x280
    · exact build_0x281
    · exact build_0x288
    · exact build_0x290
    · exact build_0x291
    · exact build_0x292
    · exact build_0x293
    · exact build_0x2C0
    · exact build_0x2C1
    · exact build_0x2C2
    · exact build_0x2C8
    · exact build_0x2C9
    · exact build_0x2CA
    · exact build_0x2D0
    · exact build_0x2D1
    · exact build_0x2D8
    · exact build_0x2F0
  exact all op (by simpa using hop) h

end Sys2Proof
end

