-- ==== Sys2Proof/Laws/Table.lean ====
section
/-!
SUPPORT. Laws of the sparse tables: reading after writing, and that writing keeps the keys rising.
-/

namespace Sys2Proof

/-- Every key of a table lies above a number. -/
def Tbl.above {α : Type} (k : Nat) (t : Tbl α) : Prop := ∀ e ∈ t, k < e.1

theorem Tbl.sorted_cons {α : Type} (j : Nat) (v : α) (t : Tbl α) :
    Tbl.sorted ((j, v) :: t) = true ↔ Tbl.above j t ∧ Tbl.sorted t = true := by
  induction t generalizing j v with
  | nil => simp [Tbl.sorted, Tbl.above]
  | cons e t ih =>
    obtain ⟨k, w⟩ := e
    have hk := ih k w
    simp only [Tbl.sorted, Bool.and_eq_true, decide_eq_true_eq, Tbl.above, List.mem_cons, forall_eq_or_imp] at hk ⊢
    constructor
    · rintro ⟨h1, h2⟩
      refine ⟨⟨h1, fun x hx => ?_⟩, h2⟩
      exact Nat.lt_trans h1 ((hk.mp h2).1 x hx)
    · rintro ⟨⟨h1, _⟩, h2⟩
      exact ⟨h1, h2⟩

theorem Tbl.find_above {α : Type} {k : Nat} {t : Tbl α} (h : Tbl.above k t) : Tbl.find k t = none := by
  induction t with
  | nil => rfl
  | cons e t ih =>
    have hj : k < e.1 := h e (List.mem_cons_self ..)
    simp [Tbl.find, Nat.ne_of_gt hj, ih fun x hx => h x (List.mem_cons_of_mem _ hx)]

theorem Tbl.mem_put {α : Type} {k : Nat} {v : α} {t : Tbl α} {e : Nat × α} (h : e ∈ Tbl.put k v t) : e = (k, v) ∨ e ∈ t := by
  induction t with
  | nil => simpa [Tbl.put] using h
  | cons x t ih =>
    obtain ⟨j, w⟩ := x
    simp only [Tbl.put] at h
    split at h
    · rcases List.mem_cons.mp h with h | h
      · exact .inl h
      · exact .inr (List.mem_cons_of_mem _ h)
    · split at h
      · rcases List.mem_cons.mp h with h | h
        · exact .inl h
        · exact .inr h
      · rcases List.mem_cons.mp h with h | h
        · exact .inr (by simp [h])
        · rcases ih h with h | h
          · exact .inl h
          · exact .inr (List.mem_cons_of_mem _ h)

theorem Tbl.mem_del {α : Type} {k : Nat} {t : Tbl α} {e : Nat × α} (h : e ∈ Tbl.del k t) : e ∈ t := (List.mem_filter.mp h).1

theorem Tbl.sorted_put {α : Type} (k : Nat) (v : α) {t : Tbl α} (h : Tbl.sorted t = true) : Tbl.sorted (Tbl.put k v t) = true := by
  induction t with
  | nil => rfl
  | cons x t ih =>
    obtain ⟨j, w⟩ := x
    obtain ⟨ha, hs⟩ := (Tbl.sorted_cons j w t).mp h
    simp only [Tbl.put]
    split
    · next hjk => exact (Tbl.sorted_cons k v t).mpr ⟨hjk ▸ ha, hs⟩
    · split
      · next hlt =>
        refine (Tbl.sorted_cons k v _).mpr ⟨?_, h⟩
        intro e he
        rcases List.mem_cons.mp he with he | he
        · simp [he, hlt]
        · exact Nat.lt_trans hlt (ha e he)
      · next hne hnlt =>
        refine (Tbl.sorted_cons j w _).mpr ⟨?_, ih hs⟩
        intro e he
        rcases Tbl.mem_put he with he | he
        · subst he; simp; omega
        · exact ha e he

theorem Tbl.sorted_filter {α : Type} (p : Nat × α → Bool) {t : Tbl α} (h : Tbl.sorted t = true) : Tbl.sorted (t.filter p) = true := by
  induction t with
  | nil => rfl
  | cons x t ih =>
    obtain ⟨j, w⟩ := x
    obtain ⟨ha, hs⟩ := (Tbl.sorted_cons j w t).mp h
    rw [List.filter_cons]
    split
    · exact (Tbl.sorted_cons j w _).mpr ⟨fun e he => ha e (List.mem_filter.mp he).1, ih hs⟩
    · exact ih hs
theorem Tbl.sorted_del {α : Type} (k : Nat) {t : Tbl α} (h : Tbl.sorted t = true) : Tbl.sorted (Tbl.del k t) = true :=
  Tbl.sorted_filter _ h
/-- Reading a table of which the entries of some keys are kept: no order is needed. -/
theorem Tbl.find_filter {α : Type} (p : Nat → Bool) (k : Nat) (t : Tbl α) :
    Tbl.find k (t.filter fun e => p e.1) = if p k then Tbl.find k t else none := by
  induction t with
  | nil => simp [Tbl.find]
  | cons x t ih =>
    by_cases hx : x.1 = k
    · cases hp : p k <;> simp [Tbl.find, hx, hp, ih]
    · cases hp : p x.1 <;> simp [Tbl.find, hx, hp, ih]

/-- Reading the key just written: no order is needed. -/
@[simp] theorem Tbl.find_put_same {α : Type} (k : Nat) (v : α) (t : Tbl α) : Tbl.find k (Tbl.put k v t) = some v := by
  induction t with
  | nil => simp [Tbl.put, Tbl.find]
  | cons x t ih =>
    obtain ⟨j, w⟩ := x
    simp only [Tbl.put]
    split
    · simp [Tbl.find]
    · split
      · simp [Tbl.find]
      · next hne hnlt => simp [Tbl.find, hne, ih]

/-- Reading another key: no order is needed. -/
theorem Tbl.find_put_other {α : Type} {k i : Nat} (v : α) (t : Tbl α) (h : i ≠ k) : Tbl.find i (Tbl.put k v t) = Tbl.find i t := by
  induction t with
  | nil => simp [Tbl.put, Tbl.find, Ne.symm h]
  | cons x t ih =>
    obtain ⟨j, w⟩ := x
    simp only [Tbl.put]
    split
    · next hjk => subst hjk; simp [Tbl.find, Ne.symm h]
    · split
      · simp [Tbl.find, Ne.symm h]
      · simp [Tbl.find, ih]

@[simp] theorem Tbl.get_put_same {α : Type} (d : α) (k : Nat) (v : α) (t : Tbl α) : Tbl.get d k (Tbl.put k v t) = v := by
  simp [Tbl.get]
theorem Tbl.get_put_other {α : Type} (d : α) {k i : Nat} (v : α) (t : Tbl α) (h : i ≠ k) :
    Tbl.get d i (Tbl.put k v t) = Tbl.get d i t := by
  simp [Tbl.get, Tbl.find_put_other v t h]

/-- The later of two writes of one key stands. -/
@[simp] theorem Tbl.put_put {α : Type} (k : Nat) (v w : α) (t : Tbl α) : Tbl.put k v (Tbl.put k w t) = Tbl.put k v t := by
  induction t with
  | nil => simp [Tbl.put]
  | cons x t ih =>
    obtain ⟨j, u⟩ := x
    simp only [Tbl.put]
    split
    · simp [Tbl.put]
    · split
      · simp [Tbl.put]
      · next h1 h2 => simp [Tbl.put, h1, h2, ih]

@[simp] theorem Tbl.find_del_same {α : Type} (k : Nat) (t : Tbl α) : Tbl.find k (Tbl.del k t) = none := by
  simpa [Tbl.del] using Tbl.find_filter (fun j => j != k) k t
theorem Tbl.find_del_other {α : Type} {k i : Nat} (t : Tbl α) (h : i ≠ k) : Tbl.find i (Tbl.del k t) = Tbl.find i t := by
  simpa [Tbl.del, h] using Tbl.find_filter (fun j => j != k) i t

/-- A listed entry is what reading its key finds, in a table whose keys rise. -/
theorem Tbl.find_of_mem {α : Type} {k : Nat} {v : α} {t : Tbl α} (hs : Tbl.sorted t = true) (h : (k, v) ∈ t) : Tbl.find k t = some v := by
  induction t with
  | nil => cases h
  | cons x t ih =>
    obtain ⟨j, w⟩ := x
    obtain ⟨ha, hs'⟩ := (Tbl.sorted_cons j w t).mp hs
    rcases List.mem_cons.mp h with h | h
    · cases h; simp [Tbl.find]
    · simp [Tbl.find, Nat.ne_of_lt (ha (k, v) h), ih hs' h]
theorem Tbl.mem_of_find {α : Type} {k : Nat} {v : α} {t : Tbl α} (h : Tbl.find k t = some v) : (k, v) ∈ t := by
  induction t with
  | nil => cases h
  | cons x t ih =>
    obtain ⟨j, w⟩ := x
    simp only [Tbl.find] at h
    split at h
    · next hjk => cases h; simp [hjk]
    · exact List.mem_cons_of_mem _ (ih h)

/-! ### Lists by position -/

@[simp] theorem nth_nil {α : Type} (d : α) (i : Nat) : nth d i [] = d := by cases i <;> rfl
theorem length_setNth {α : Type} (v : α) (i : Nat) (l : List α) : (setNth v i l).length = l.length := by
  induction l generalizing i with
  | nil => cases i <;> rfl
  | cons x t ih => cases i <;> simp [setNth, ih]
theorem nth_setNth_same {α : Type} (d v : α) {i : Nat} {l : List α} (h : i < l.length) : nth d i (setNth v i l) = v := by
  induction l generalizing i with
  | nil => cases h
  | cons x t ih =>
    cases i with
    | zero => rfl
    | succ i => exact ih (by simpa using h)
theorem nth_setNth_other {α : Type} (d v : α) {i j : Nat} (l : List α) (h : i ≠ j) : nth d i (setNth v j l) = nth d i l := by
  induction l generalizing i j with
  | nil => cases j <;> rfl
  | cons x t ih =>
    cases j with
    | zero =>
      cases i with
      | zero => exact absurd rfl h
      | succ i => rfl
    | succ j =>
      cases i with
      | zero => rfl
      | succ i => exact ih (by omega)
theorem nth_replicate {α : Type} (d v : α) {i n : Nat} (h : i < n) : nth d i (List.replicate n v) = v := by
  induction n generalizing i with
  | zero => omega
  | succ n ih =>
    cases i with
    | zero => rfl
    | succ i => exact ih (by omega)

theorem mem_rangeFrom {a n k : Nat} : k ∈ rangeFrom a n ↔ a ≤ k ∧ k < a + n := by
  induction n generalizing a with
  | zero => simp [rangeFrom]
  | succ n ih => simp [rangeFrom, ih]; omega
theorem mem_upTo {n k : Nat} : k ∈ upTo n ↔ k < n := by simp [upTo, mem_rangeFrom]
theorem mem_lanes {k : Nat} : k ∈ lanes ↔ k < 32 := by simp [lanes, mem_upTo]

end Sys2Proof
end

