-- ==== Sys2Proof/Laws/Memory.lean ====
section
/-!
SUPPORT. Laws of physical memory: every operation keeps the canonical form, and what a byte reads as after each.
-/

namespace Sys2Proof.Machine

/-- The canonical form as a conjunction. -/
theorem Memory.wf_iff (m : Memory) : m.wf = true ↔ Tbl.sorted m.hbm = true ∧ Tbl.sorted m.l2 = true ∧ (∀ c ∈ m.hbm, c.2 ≠ 0#8)
    ∧ (∀ c ∈ m.l2, m.hbmByte c.1 ≠ c.2) ∧ ascending m.pois = true := by
  simp [Memory.wf, List.all_eq_true, and_assoc]

@[simp] theorem Memory.empty_wf : Memory.empty.wf = true := by decide

@[simp] theorem Memory.poke_wf {m : Memory} (h : m.wf = true) (pa : Nat) (b : Byte) : (m.poke pa b).wf = true := by
  obtain ⟨h1, h2, h3, h4, h5⟩ := m.wf_iff.mp h
  rw [Memory.wf_iff]
  refine ⟨h1, ?_, h3, ?_, h5⟩
  · simp only [Memory.poke]
    split
    · exact Tbl.sorted_del pa h2
    · exact Tbl.sorted_put pa b h2
  · intro c hc
    have hb : (m.poke pa b).hbmByte c.1 = m.hbmByte c.1 := rfl
    rw [hb]
    simp only [Memory.poke] at hc
    split at hc
    · exact h4 c (Tbl.mem_del hc)
    · next hne =>
      rcases Tbl.mem_put hc with hc | hc
      · subst hc; exact hne
      · exact h4 c hc

@[simp] theorem Memory.dropByte_wf {m : Memory} (h : m.wf = true) (pa : Nat) : (m.dropByte pa).wf = true := by
  obtain ⟨h1, h2, h3, h4, h5⟩ := m.wf_iff.mp h
  rw [Memory.wf_iff]
  exact ⟨h1, Tbl.sorted_del pa h2, h3, fun c hc => h4 c (Tbl.mem_del hc), h5⟩

theorem putHbm_sorted (pa : Nat) (b : Byte) {l : List Host.Cell} (h : Tbl.sorted l = true) : Tbl.sorted (putHbm pa b l) = true := by
  simp only [putHbm]
  split
  · exact Tbl.sorted_del pa h
  · exact Tbl.sorted_put pa b h

@[simp] theorem Memory.cleanByte_wf {m : Memory} (h : m.wf = true) (pa : Nat) : (m.cleanByte pa).wf = true := by
  obtain ⟨h1, h2, h3, h4, h5⟩ := m.wf_iff.mp h
  simp only [Memory.cleanByte]
  split
  · exact h
  · next b hb =>
    rw [Memory.wf_iff]
    refine ⟨putHbm_sorted pa b h1, Tbl.sorted_del pa h2, ?_, ?_, h5⟩
    · intro c hc
      simp only [putHbm] at hc
      split at hc
      · exact h3 c (Tbl.mem_del hc)
      · next hne =>
        rcases Tbl.mem_put hc with hc | hc
        · subst hc; exact hne
        · exact h3 c hc
    · intro c hc
      have hc1 : c ∈ m.l2 := Tbl.mem_del hc
      have hne : c.1 ≠ pa := by
        intro he
        have hn := Tbl.find_del_same pa m.l2
        have hs := Tbl.find_of_mem (Tbl.sorted_del pa h2) (k := c.1) (v := c.2) hc
        rw [he] at hs
        rw [hn] at hs
        cases hs
      have hb2 : Tbl.find c.1 (putHbm pa b m.hbm) = Tbl.find c.1 m.hbm := by
        simp only [putHbm]
        split
        · exact Tbl.find_del_other m.hbm hne
        · exact Tbl.find_put_other b m.hbm hne
      have h4c := h4 c hc1
      simpa [Memory.hbmByte, Tbl.get, hb2] using h4c

theorem Memory.each_wf {f : Memory → Nat → Memory} (hf : ∀ m pa, m.wf = true → (f m pa).wf = true) (n : Nat) {m : Memory}
    (h : m.wf = true) (pa : Nat) : (Memory.each f m pa n).wf = true := by
  induction n generalizing m pa with
  | zero => exact h
  | succ n ih => exact ih (hf m pa h) (pa + 1)
@[simp] theorem Memory.cleanLine_wf {m : Memory} (h : m.wf = true) (line : Nat) : (m.cleanLine line).wf = true :=
  Memory.each_wf (fun _ _ h => Memory.cleanByte_wf h _) 128 h _
@[simp] theorem Memory.dropLine_wf {m : Memory} (h : m.wf = true) (line : Nat) : (m.dropLine line).wf = true :=
  Memory.each_wf (fun _ _ h => Memory.dropByte_wf h _) 128 h _

@[simp] theorem Memory.bound_wf {m : Memory} (h : m.wf = true) (pa : Nat) : (m.bound pa).wf = true := by
  simp only [Memory.bound]
  split
  · exact h
  · exact Memory.cleanLine_wf h _
@[simp] theorem Memory.pokes_wf {m : Memory} (h : m.wf = true) (pa : Nat) (bs : List Byte) : (m.pokes pa bs).wf = true := by
  induction bs generalizing m pa with
  | nil => exact h
  | cons b t ih =>
    simp only [Memory.pokes]
    split
    · exact ih (Memory.bound_wf (Memory.poke_wf h pa b) pa) (pa + 1)
    · exact ih (Memory.poke_wf h pa b) (pa + 1)

theorem ascending_cons (x : Nat) (l : List Nat) : ascending (x :: l) = true ↔ (∀ y ∈ l, x < y) ∧ ascending l = true := by
  induction l generalizing x with
  | nil => simp [ascending]
  | cons y t ih =>
    have hy := ih y
    simp only [ascending, Bool.and_eq_true, decide_eq_true_eq, List.mem_cons, forall_eq_or_imp] at hy ⊢
    constructor
    · rintro ⟨h1, h2⟩
      exact ⟨⟨h1, fun z hz => Nat.lt_trans h1 ((hy.mp h2).1 z hz)⟩, h2⟩
    · rintro ⟨⟨h1, _⟩, h2⟩
      exact ⟨h1, h2⟩
theorem mem_insNat {n x : Nat} {l : List Nat} : x ∈ insNat n l ↔ x = n ∨ x ∈ l := by
  induction l with
  | nil => simp [insNat]
  | cons y t ih =>
    simp only [insNat]
    split
    · simp
    · split
      · next h => subst h; simp
      · simp only [List.mem_cons, ih]
        constructor <;> rintro (h | h | h) <;> simp [h]
theorem insNat_ascending (n : Nat) {l : List Nat} (h : ascending l = true) : ascending (insNat n l) = true := by
  induction l with
  | nil => rfl
  | cons y t ih =>
    obtain ⟨ha, hs⟩ := (ascending_cons y t).mp h
    simp only [insNat]
    split
    · next hlt =>
      refine (ascending_cons n _).mpr ⟨fun z hz => ?_, h⟩
      rcases List.mem_cons.mp hz with hz | hz
      · omega
      · exact Nat.lt_trans hlt (ha z hz)
    · split
      · exact h
      · refine (ascending_cons y _).mpr ⟨fun z hz => ?_, ih hs⟩
        rcases mem_insNat.mp hz with hz | hz
        · omega
        · exact ha z hz
@[simp] theorem Memory.markPois_wf {m : Memory} (h : m.wf = true) (line : Nat) : (m.markPois line).wf = true := by
  obtain ⟨h1, h2, h3, h4, h5⟩ := m.wf_iff.mp h
  rw [Memory.wf_iff]
  exact ⟨h1, h2, h3, h4, insNat_ascending line h5⟩

theorem writeBackFrom_wf (dirty : BitVec 128) (n : Nat) (bs : List Byte) {m : Memory} (h : m.wf = true) (pa : Nat) :
    (writeBackFrom m pa dirty n bs).wf = true := by
  induction bs generalizing m pa n with
  | nil => exact h
  | cons b t ih =>
    simp only [writeBackFrom]
    split
    · exact ih _ (Memory.poke_wf h _ _) _
    · exact ih _ h _
@[simp] theorem L1Line.writeBack_wf {m : Memory} (h : m.wf = true) (line : Nat) (l : L1Line) : (l.writeBack m line).wf = true := by
  simp only [L1Line.writeBack]
  split
  · exact h
  · split
    · exact Memory.markPois_wf (Memory.bound_wf (writeBackFrom_wf _ _ _ h _) _) _
    · exact Memory.bound_wf (writeBackFrom_wf _ _ _ h _) _

@[simp] theorem State.reset_wf : State.reset.mem.wf = true := by decide

/-! ### What a byte reads as -/

theorem Memory.hbmByte_poke (m : Memory) (pa : Nat) (b : Byte) (a : Nat) : (m.poke pa b).hbmByte a = m.hbmByte a := rfl
theorem Memory.peek_poke_same (m : Memory) (pa : Nat) (b : Byte) : (m.poke pa b).peek pa = b := by
  simp only [Memory.peek, Memory.hbmByte_poke]
  simp only [Memory.poke]
  split
  · next he => simp [he]
  · simp
theorem Memory.peek_poke_other (m : Memory) {pa a : Nat} (b : Byte) (hne : a ≠ pa) : (m.poke pa b).peek a = m.peek a := by
  simp only [Memory.peek, Memory.hbmByte_poke]
  simp only [Memory.poke]
  split
  · simp [Tbl.find_del_other m.l2 hne]
  · simp [Tbl.find_put_other b m.l2 hne]
/-- Writing an L2 byte to memory changes no byte at the coherence point. -/
@[simp] theorem Memory.peek_cleanByte (m : Memory) (pa a : Nat) : (m.cleanByte pa).peek a = m.peek a := by
  simp only [Memory.cleanByte]
  split
  · rfl
  · next b hb =>
    by_cases hne : a = pa
    · subst hne
      simp only [Memory.peek, Tbl.find_del_same, hb, Option.getD_none, Option.getD_some, Memory.hbmByte, Tbl.get, putHbm]
      split <;> simp [*]
    · have h2 : Tbl.find a (putHbm pa b m.hbm) = Tbl.find a m.hbm := by
        simp only [putHbm]
        split
        · exact Tbl.find_del_other m.hbm hne
        · exact Tbl.find_put_other b m.hbm hne
      simp [Memory.peek, Memory.hbmByte, Tbl.get, h2, Tbl.find_del_other m.l2 hne]
theorem Memory.peek_each {f : Memory → Nat → Memory} (hf : ∀ m pa a, (f m pa).peek a = m.peek a) (n : Nat) (m : Memory) (pa a : Nat) :
    (Memory.each f m pa n).peek a = m.peek a := by
  induction n generalizing m pa with
  | zero => rfl
  | succ n ih => simp [Memory.each, ih, hf]
@[simp] theorem Memory.peek_cleanLine (m : Memory) (line a : Nat) : (m.cleanLine line).peek a = m.peek a :=
  Memory.peek_each Memory.peek_cleanByte 128 m _ a
/-- An eviction changes no byte at the coherence point. -/
@[simp] theorem Memory.peek_bound (m : Memory) (pa a : Nat) : (m.bound pa).peek a = m.peek a := by
  simp only [Memory.bound]
  split
  · rfl
  · exact Memory.peek_cleanLine _ _ _
/-- What a byte reads as after the first byte of a written range and the eviction that may follow it. -/
theorem Memory.peek_pokes_cons (m : Memory) (pa : Nat) (b : Byte) (t : List Byte) :
    ∃ n : Memory, m.pokes pa (b :: t) = n.pokes (pa + 1) t ∧ ∀ a, n.peek a = (m.poke pa b).peek a := by
  simp only [Memory.pokes]
  split
  · exact ⟨_, rfl, fun a => Memory.peek_bound _ _ a⟩
  · exact ⟨_, rfl, fun _ => rfl⟩
/-- A byte outside a written range reads as before. -/
theorem Memory.peek_pokes_other (m : Memory) {pa a : Nat} (bs : List Byte) (ho : a < pa ∨ pa + bs.length ≤ a) :
    (m.pokes pa bs).peek a = m.peek a := by
  induction bs generalizing m pa with
  | nil => rfl
  | cons b t ih =>
    obtain ⟨n, he, hn⟩ := m.peek_pokes_cons pa b t
    simp only [List.length_cons] at ho
    rw [he, ih n (by omega), hn, Memory.peek_poke_other m b (by omega)]
/-- A byte of a written range reads as it was written. -/
theorem Memory.peek_pokes_same (m : Memory) (pa : Nat) (bs : List Byte) {k : Nat} (hk : k < bs.length) :
    (m.pokes pa bs).peek (pa + k) = bs[k] := by
  induction bs generalizing m pa k with
  | nil => simp at hk
  | cons b t ih =>
    obtain ⟨n, he, hn⟩ := m.peek_pokes_cons pa b t
    rw [he]
    cases k with
    | zero => rw [Memory.peek_pokes_other n t (by omega)]; exact (hn pa).trans (m.peek_poke_same pa b)
    | succ k =>
      rw [show pa + (k + 1) = pa + 1 + k by omega]
      exact ih n (pa + 1) (k := k) (by simpa using hk)
theorem Memory.peeks_length (m : Memory) (pa n : Nat) : (m.peeks pa n).length = n := by
  induction n generalizing pa with
  | zero => rfl
  | succ n ih => simp [Memory.peeks, ih]
theorem Memory.peeks_getElem (m : Memory) (pa n : Nat) {k : Nat} (hk : k < (m.peeks pa n).length) : (m.peeks pa n)[k] = m.peek (pa + k) := by
  induction n generalizing pa k with
  | zero => simp [Memory.peeks] at hk
  | succ n ih =>
    cases k with
    | zero => rfl
    | succ k =>
      simp only [Memory.peeks, List.getElem_cons_succ]
      rw [ih, show pa + 1 + k = pa + (k + 1) by omega]
theorem Memory.peeks_pokes_same (m : Memory) (pa : Nat) (bs : List Byte) : (m.pokes pa bs).peeks pa bs.length = bs := by
  apply List.ext_getElem (Memory.peeks_length _ _ _)
  intro k h1 h2
  rw [Memory.peeks_getElem, Memory.peek_pokes_same m pa bs h2]

end Sys2Proof.Machine
end

