-- ==== Sys2Proof/Laws/Fold.lean ====
section
/-!
SUPPORT. Folds that keep a part of what they carry, or a property of it.
-/

namespace Sys2Proof

theorem foldl_proj {α β γ : Type} (g : β → γ) (f : β → α → β) (hf : ∀ b a, g (f b a) = g b) (l : List α) (b : β) :
    g (l.foldl f b) = g b := by
  induction l generalizing b with
  | nil => rfl
  | cons a t ih => rw [List.foldl_cons, ih, hf]

theorem foldl_keeps {α β : Type} (p : β → Prop) (f : β → α → β) (hf : ∀ b a, p b → p (f b a)) (l : List α) (b : β) (h : p b) :
    p (l.foldl f b) := by
  induction l generalizing b with
  | nil => exact h
  | cons a t ih => exact ih _ (hf b a h)

namespace Machine

@[simp] theorem foldl_wf {α : Type} (f : State → α → State) (l : List α) (s : State) (hf : ∀ s a, s.mem.wf = true → (f s a).mem.wf = true)
    (h : s.mem.wf = true) : (l.foldl f s).mem.wf = true := foldl_keeps (fun s => s.mem.wf = true) f hf l s h
@[simp] theorem foldl_wf1 {α β : Type} (f : State × β → α → State × β) (l : List α) (p : State × β)
    (hf : ∀ p a, p.1.mem.wf = true → (f p a).1.mem.wf = true) (h : p.1.mem.wf = true) : (l.foldl f p).1.mem.wf = true :=
  foldl_keeps (fun p => p.1.mem.wf = true) f hf l p h
@[simp] theorem foldl_wf2 {α β : Type} (f : β × State → α → β × State) (l : List α) (p : β × State)
    (hf : ∀ p a, p.2.mem.wf = true → (f p a).2.mem.wf = true) (h : p.2.mem.wf = true) : (l.foldl f p).2.mem.wf = true :=
  foldl_keeps (fun p => p.2.mem.wf = true) f hf l p h
@[simp] theorem foldl_wf22 {α β γ : Type} (f : β × γ × State → α → β × γ × State) (l : List α) (p : β × γ × State)
    (hf : ∀ p a, p.2.2.mem.wf = true → (f p a).2.2.mem.wf = true) (h : p.2.2.mem.wf = true) : (l.foldl f p).2.2.mem.wf = true :=
  foldl_keeps (fun p => p.2.2.mem.wf = true) f hf l p h
theorem ite_wf {c : Prop} [Decidable c] {s t : State} (hs : s.mem.wf = true) (ht : t.mem.wf = true) :
    (if c then s else t).mem.wf = true := by split <;> assumption
theorem ite_wf1 {β : Type} {c : Prop} [Decidable c] {s t : State × β} (hs : s.1.mem.wf = true) (ht : t.1.mem.wf = true) :
    (if c then s else t).1.mem.wf = true := by split <;> assumption
theorem ite_wf2 {β : Type} {c : Prop} [Decidable c] {s t : β × State} (hs : s.2.mem.wf = true) (ht : t.2.mem.wf = true) :
    (if c then s else t).2.mem.wf = true := by split <;> assumption
theorem ite_wf22 {β γ : Type} {c : Prop} [Decidable c] {s t : β × γ × State} (hs : s.2.2.mem.wf = true) (ht : t.2.2.mem.wf = true) :
    (if c then s else t).2.2.mem.wf = true := by split <;> assumption

end Machine

end Sys2Proof
end

