-- ==== Sys2Proof/Laws/State.lean ====
section
/-!
SUPPORT. What each update of the state and of a group leaves in each field: one lemma per field per update, so that no
proof unfolds a record update.
-/

namespace Sys2Proof.Machine

/-! ### Updates of the state -/

@[simp] theorem State.setGroup_groups (s : State) (gid : Nat) (g : Group) : (s.setGroup gid g).groups = Tbl.put gid g s.groups := rfl
@[simp] theorem State.setGroup_teams (s : State) (gid : Nat) (g : Group) : (s.setGroup gid g).teams = s.teams := rfl
@[simp] theorem State.setGroup_cores (s : State) (gid : Nat) (g : Group) : (s.setGroup gid g).cores = s.cores := rfl
@[simp] theorem State.setGroup_clusters (s : State) (gid : Nat) (g : Group) : (s.setGroup gid g).clusters = s.clusters := rfl
@[simp] theorem State.setGroup_dies (s : State) (gid : Nat) (g : Group) : (s.setGroup gid g).dies = s.dies := rfl
@[simp] theorem State.setGroup_mem (s : State) (gid : Nat) (g : Group) : (s.setGroup gid g).mem = s.mem := rfl
@[simp] theorem State.setGroup_stk (s : State) (gid : Nat) (g : Group) : (s.setGroup gid g).stk = s.stk := rfl
@[simp] theorem State.setGroup_acc (s : State) (gid : Nat) (g : Group) : (s.setGroup gid g).acc = s.acc := rfl
@[simp] theorem State.setGroup_objs (s : State) (gid : Nat) (g : Group) : (s.setGroup gid g).objs = s.objs := rfl
@[simp] theorem State.setGroup_hub (s : State) (gid : Nat) (g : Group) : (s.setGroup gid g).hub = s.hub := rfl
@[simp] theorem State.setGroup_fab (s : State) (gid : Nat) (g : Group) : (s.setGroup gid g).fab = s.fab := rfl
@[simp] theorem State.setGroup_slice (s : State) (gid : Nat) (g : Group) : (s.setGroup gid g).slice = s.slice := rfl
@[simp] theorem State.setGroup_time (s : State) (gid : Nat) (g : Group) : (s.setGroup gid g).time = s.time := rfl
@[simp] theorem State.setGroup_cycle (s : State) (gid : Nat) (g : Group) : (s.setGroup gid g).cycle = s.cycle := rfl
@[simp] theorem State.setGroup_cur (s : State) (gid : Nat) (g : Group) : (s.setGroup gid g).cur = s.cur := rfl
@[simp] theorem State.setGroup_agenda (s : State) (gid : Nat) (g : Group) : (s.setGroup gid g).agenda = s.agenda := rfl
@[simp] theorem State.setGroup_rr (s : State) (gid : Nat) (g : Group) : (s.setGroup gid g).rr = s.rr := rfl
@[simp] theorem State.setGroup_fresh (s : State) (gid : Nat) (g : Group) : (s.setGroup gid g).fresh = s.fresh := rfl
@[simp] theorem State.setGroup_group_same (s : State) (gid : Nat) (g : Group) : (s.setGroup gid g).group gid = g := Tbl.get_put_same _ _ _ _
theorem State.setGroup_group_other (s : State) (gid : Nat) (g : Group) {g1 : Nat} (h : g1 ≠ gid) : (s.setGroup gid g).group g1 = s.group g1 :=
  Tbl.get_put_other _ _ _ h
@[simp] theorem State.setGroup_core (s : State) (gid : Nat) (g : Group) (c1 : Nat) : (s.setGroup gid g).core c1 = s.core c1 := rfl
@[simp] theorem State.setGroup_team (s : State) (gid : Nat) (g : Group) (t1 : Nat) : (s.setGroup gid g).team t1 = s.team t1 := rfl
@[simp] theorem State.setGroup_die (s : State) (gid : Nat) (g : Group) (d1 : Nat) : (s.setGroup gid g).die d1 = s.die d1 := rfl
@[simp] theorem State.setGroup_part (s : State) (gid : Nat) (g : Group) (p1 : Nat) : (s.setGroup gid g).part p1 = s.part p1 := rfl
@[simp] theorem State.setGroup_twice (s : State) (gid : Nat) (g : Group) (g' : Group) : (s.setGroup gid g).setGroup gid g' = s.setGroup gid g' := by
  simp [State.setGroup, Tbl.put_put]

@[simp] theorem State.setCore_groups (s : State) (cid : Nat) (c : Core) : (s.setCore cid c).groups = s.groups := rfl
@[simp] theorem State.setCore_teams (s : State) (cid : Nat) (c : Core) : (s.setCore cid c).teams = s.teams := rfl
@[simp] theorem State.setCore_cores (s : State) (cid : Nat) (c : Core) : (s.setCore cid c).cores = Tbl.put cid c s.cores := rfl
@[simp] theorem State.setCore_clusters (s : State) (cid : Nat) (c : Core) : (s.setCore cid c).clusters = s.clusters := rfl
@[simp] theorem State.setCore_dies (s : State) (cid : Nat) (c : Core) : (s.setCore cid c).dies = s.dies := rfl
@[simp] theorem State.setCore_mem (s : State) (cid : Nat) (c : Core) : (s.setCore cid c).mem = s.mem := rfl
@[simp] theorem State.setCore_stk (s : State) (cid : Nat) (c : Core) : (s.setCore cid c).stk = s.stk := rfl
@[simp] theorem State.setCore_acc (s : State) (cid : Nat) (c : Core) : (s.setCore cid c).acc = s.acc := rfl
@[simp] theorem State.setCore_objs (s : State) (cid : Nat) (c : Core) : (s.setCore cid c).objs = s.objs := rfl
@[simp] theorem State.setCore_hub (s : State) (cid : Nat) (c : Core) : (s.setCore cid c).hub = s.hub := rfl
@[simp] theorem State.setCore_fab (s : State) (cid : Nat) (c : Core) : (s.setCore cid c).fab = s.fab := rfl
@[simp] theorem State.setCore_slice (s : State) (cid : Nat) (c : Core) : (s.setCore cid c).slice = s.slice := rfl
@[simp] theorem State.setCore_time (s : State) (cid : Nat) (c : Core) : (s.setCore cid c).time = s.time := rfl
@[simp] theorem State.setCore_cycle (s : State) (cid : Nat) (c : Core) : (s.setCore cid c).cycle = s.cycle := rfl
@[simp] theorem State.setCore_cur (s : State) (cid : Nat) (c : Core) : (s.setCore cid c).cur = s.cur := rfl
@[simp] theorem State.setCore_agenda (s : State) (cid : Nat) (c : Core) : (s.setCore cid c).agenda = s.agenda := rfl
@[simp] theorem State.setCore_rr (s : State) (cid : Nat) (c : Core) : (s.setCore cid c).rr = s.rr := rfl
@[simp] theorem State.setCore_fresh (s : State) (cid : Nat) (c : Core) : (s.setCore cid c).fresh = s.fresh := rfl
@[simp] theorem State.setCore_group (s : State) (cid : Nat) (c : Core) (g1 : Nat) : (s.setCore cid c).group g1 = s.group g1 := rfl
@[simp] theorem State.setCore_core_same (s : State) (cid : Nat) (c : Core) : (s.setCore cid c).core cid = c := Tbl.get_put_same _ _ _ _
theorem State.setCore_core_other (s : State) (cid : Nat) (c : Core) {c1 : Nat} (h : c1 ≠ cid) : (s.setCore cid c).core c1 = s.core c1 :=
  Tbl.get_put_other _ _ _ h
@[simp] theorem State.setCore_team (s : State) (cid : Nat) (c : Core) (t1 : Nat) : (s.setCore cid c).team t1 = s.team t1 := rfl
@[simp] theorem State.setCore_die (s : State) (cid : Nat) (c : Core) (d1 : Nat) : (s.setCore cid c).die d1 = s.die d1 := rfl
@[simp] theorem State.setCore_part (s : State) (cid : Nat) (c : Core) (p1 : Nat) : (s.setCore cid c).part p1 = s.part p1 := rfl
@[simp] theorem State.setCore_twice (s : State) (cid : Nat) (c : Core) (c' : Core) : (s.setCore cid c).setCore cid c' = s.setCore cid c' := by
  simp [State.setCore, Tbl.put_put]

@[simp] theorem State.setTeam_groups (s : State) (tid : Nat) (x : Team) : (s.setTeam tid x).groups = s.groups := rfl
@[simp] theorem State.setTeam_teams (s : State) (tid : Nat) (x : Team) : (s.setTeam tid x).teams = Tbl.put tid x s.teams := rfl
@[simp] theorem State.setTeam_cores (s : State) (tid : Nat) (x : Team) : (s.setTeam tid x).cores = s.cores := rfl
@[simp] theorem State.setTeam_clusters (s : State) (tid : Nat) (x : Team) : (s.setTeam tid x).clusters = s.clusters := rfl
@[simp] theorem State.setTeam_dies (s : State) (tid : Nat) (x : Team) : (s.setTeam tid x).dies = s.dies := rfl
@[simp] theorem State.setTeam_mem (s : State) (tid : Nat) (x : Team) : (s.setTeam tid x).mem = s.mem := rfl
@[simp] theorem State.setTeam_stk (s : State) (tid : Nat) (x : Team) : (s.setTeam tid x).stk = s.stk := rfl
@[simp] theorem State.setTeam_acc (s : State) (tid : Nat) (x : Team) : (s.setTeam tid x).acc = s.acc := rfl
@[simp] theorem State.setTeam_objs (s : State) (tid : Nat) (x : Team) : (s.setTeam tid x).objs = s.objs := rfl
@[simp] theorem State.setTeam_hub (s : State) (tid : Nat) (x : Team) : (s.setTeam tid x).hub = s.hub := rfl
@[simp] theorem State.setTeam_fab (s : State) (tid : Nat) (x : Team) : (s.setTeam tid x).fab = s.fab := rfl
@[simp] theorem State.setTeam_slice (s : State) (tid : Nat) (x : Team) : (s.setTeam tid x).slice = s.slice := rfl
@[simp] theorem State.setTeam_time (s : State) (tid : Nat) (x : Team) : (s.setTeam tid x).time = s.time := rfl
@[simp] theorem State.setTeam_cycle (s : State) (tid : Nat) (x : Team) : (s.setTeam tid x).cycle = s.cycle := rfl
@[simp] theorem State.setTeam_cur (s : State) (tid : Nat) (x : Team) : (s.setTeam tid x).cur = s.cur := rfl
@[simp] theorem State.setTeam_agenda (s : State) (tid : Nat) (x : Team) : (s.setTeam tid x).agenda = s.agenda := rfl
@[simp] theorem State.setTeam_rr (s : State) (tid : Nat) (x : Team) : (s.setTeam tid x).rr = s.rr := rfl
@[simp] theorem State.setTeam_fresh (s : State) (tid : Nat) (x : Team) : (s.setTeam tid x).fresh = s.fresh := rfl
@[simp] theorem State.setTeam_group (s : State) (tid : Nat) (x : Team) (g1 : Nat) : (s.setTeam tid x).group g1 = s.group g1 := rfl
@[simp] theorem State.setTeam_core (s : State) (tid : Nat) (x : Team) (c1 : Nat) : (s.setTeam tid x).core c1 = s.core c1 := rfl
@[simp] theorem State.setTeam_team_same (s : State) (tid : Nat) (x : Team) : (s.setTeam tid x).team tid = x := Tbl.get_put_same _ _ _ _
theorem State.setTeam_team_other (s : State) (tid : Nat) (x : Team) {t1 : Nat} (h : t1 ≠ tid) : (s.setTeam tid x).team t1 = s.team t1 :=
  Tbl.get_put_other _ _ _ h
@[simp] theorem State.setTeam_die (s : State) (tid : Nat) (x : Team) (d1 : Nat) : (s.setTeam tid x).die d1 = s.die d1 := rfl
@[simp] theorem State.setTeam_part (s : State) (tid : Nat) (x : Team) (p1 : Nat) : (s.setTeam tid x).part p1 = s.part p1 := rfl
@[simp] theorem State.setTeam_twice (s : State) (tid : Nat) (x : Team) (x' : Team) : (s.setTeam tid x).setTeam tid x' = s.setTeam tid x' := by
  simp [State.setTeam, Tbl.put_put]

@[simp] theorem State.setDie_groups (s : State) (d : Nat) (x : Die) : (s.setDie d x).groups = s.groups := rfl
@[simp] theorem State.setDie_teams (s : State) (d : Nat) (x : Die) : (s.setDie d x).teams = s.teams := rfl
@[simp] theorem State.setDie_cores (s : State) (d : Nat) (x : Die) : (s.setDie d x).cores = s.cores := rfl
@[simp] theorem State.setDie_clusters (s : State) (d : Nat) (x : Die) : (s.setDie d x).clusters = s.clusters := rfl
@[simp] theorem State.setDie_dies (s : State) (d : Nat) (x : Die) : (s.setDie d x).dies = Tbl.put d x s.dies := rfl
@[simp] theorem State.setDie_mem (s : State) (d : Nat) (x : Die) : (s.setDie d x).mem = s.mem := rfl
@[simp] theorem State.setDie_stk (s : State) (d : Nat) (x : Die) : (s.setDie d x).stk = s.stk := rfl
@[simp] theorem State.setDie_acc (s : State) (d : Nat) (x : Die) : (s.setDie d x).acc = s.acc := rfl
@[simp] theorem State.setDie_objs (s : State) (d : Nat) (x : Die) : (s.setDie d x).objs = s.objs := rfl
@[simp] theorem State.setDie_hub (s : State) (d : Nat) (x : Die) : (s.setDie d x).hub = s.hub := rfl
@[simp] theorem State.setDie_fab (s : State) (d : Nat) (x : Die) : (s.setDie d x).fab = s.fab := rfl
@[simp] theorem State.setDie_slice (s : State) (d : Nat) (x : Die) : (s.setDie d x).slice = s.slice := rfl
@[simp] theorem State.setDie_time (s : State) (d : Nat) (x : Die) : (s.setDie d x).time = s.time := rfl
@[simp] theorem State.setDie_cycle (s : State) (d : Nat) (x : Die) : (s.setDie d x).cycle = s.cycle := rfl
@[simp] theorem State.setDie_cur (s : State) (d : Nat) (x : Die) : (s.setDie d x).cur = s.cur := rfl
@[simp] theorem State.setDie_agenda (s : State) (d : Nat) (x : Die) : (s.setDie d x).agenda = s.agenda := rfl
@[simp] theorem State.setDie_rr (s : State) (d : Nat) (x : Die) : (s.setDie d x).rr = s.rr := rfl
@[simp] theorem State.setDie_fresh (s : State) (d : Nat) (x : Die) : (s.setDie d x).fresh = s.fresh := rfl
@[simp] theorem State.setDie_group (s : State) (d : Nat) (x : Die) (g1 : Nat) : (s.setDie d x).group g1 = s.group g1 := rfl
@[simp] theorem State.setDie_core (s : State) (d : Nat) (x : Die) (c1 : Nat) : (s.setDie d x).core c1 = s.core c1 := rfl
@[simp] theorem State.setDie_team (s : State) (d : Nat) (x : Die) (t1 : Nat) : (s.setDie d x).team t1 = s.team t1 := rfl
@[simp] theorem State.setDie_die_same (s : State) (d : Nat) (x : Die) : (s.setDie d x).die d = x := Tbl.get_put_same _ _ _ _
theorem State.setDie_die_other (s : State) (d : Nat) (x : Die) {d1 : Nat} (h : d1 ≠ d) : (s.setDie d x).die d1 = s.die d1 :=
  Tbl.get_put_other _ _ _ h
@[simp] theorem State.setDie_part (s : State) (d : Nat) (x : Die) (p1 : Nat) : (s.setDie d x).part p1 = s.part p1 := rfl
@[simp] theorem State.setDie_twice (s : State) (d : Nat) (x : Die) (x' : Die) : (s.setDie d x).setDie d x' = s.setDie d x' := by
  simp [State.setDie, Tbl.put_put]

@[simp] theorem State.setPart_groups (s : State) (p : Nat) (x : Part) : (s.setPart p x).groups = s.groups := rfl
@[simp] theorem State.setPart_teams (s : State) (p : Nat) (x : Part) : (s.setPart p x).teams = s.teams := rfl
@[simp] theorem State.setPart_cores (s : State) (p : Nat) (x : Part) : (s.setPart p x).cores = s.cores := rfl
@[simp] theorem State.setPart_clusters (s : State) (p : Nat) (x : Part) : (s.setPart p x).clusters = s.clusters := rfl
@[simp] theorem State.setPart_dies (s : State) (p : Nat) (x : Part) : (s.setPart p x).dies = s.dies := rfl
@[simp] theorem State.setPart_mem (s : State) (p : Nat) (x : Part) : (s.setPart p x).mem = s.mem := rfl
@[simp] theorem State.setPart_stk (s : State) (p : Nat) (x : Part) : (s.setPart p x).stk = s.stk := rfl
@[simp] theorem State.setPart_acc (s : State) (p : Nat) (x : Part) : (s.setPart p x).acc = { s.acc with parts := Tbl.put p x s.acc.parts } := rfl
@[simp] theorem State.setPart_objs (s : State) (p : Nat) (x : Part) : (s.setPart p x).objs = s.objs := rfl
@[simp] theorem State.setPart_hub (s : State) (p : Nat) (x : Part) : (s.setPart p x).hub = s.hub := rfl
@[simp] theorem State.setPart_fab (s : State) (p : Nat) (x : Part) : (s.setPart p x).fab = s.fab := rfl
@[simp] theorem State.setPart_slice (s : State) (p : Nat) (x : Part) : (s.setPart p x).slice = s.slice := rfl
@[simp] theorem State.setPart_time (s : State) (p : Nat) (x : Part) : (s.setPart p x).time = s.time := rfl
@[simp] theorem State.setPart_cycle (s : State) (p : Nat) (x : Part) : (s.setPart p x).cycle = s.cycle := rfl
@[simp] theorem State.setPart_cur (s : State) (p : Nat) (x : Part) : (s.setPart p x).cur = s.cur := rfl
@[simp] theorem State.setPart_agenda (s : State) (p : Nat) (x : Part) : (s.setPart p x).agenda = s.agenda := rfl
@[simp] theorem State.setPart_rr (s : State) (p : Nat) (x : Part) : (s.setPart p x).rr = s.rr := rfl
@[simp] theorem State.setPart_fresh (s : State) (p : Nat) (x : Part) : (s.setPart p x).fresh = s.fresh := rfl

@[simp] theorem State.freeVal_groups (s : State) : s.freeVal.2.groups = s.groups := rfl
@[simp] theorem State.freeVal_teams (s : State) : s.freeVal.2.teams = s.teams := rfl
@[simp] theorem State.freeVal_cores (s : State) : s.freeVal.2.cores = s.cores := rfl
@[simp] theorem State.freeVal_clusters (s : State) : s.freeVal.2.clusters = s.clusters := rfl
@[simp] theorem State.freeVal_dies (s : State) : s.freeVal.2.dies = s.dies := rfl
@[simp] theorem State.freeVal_mem (s : State) : s.freeVal.2.mem = s.mem := rfl
@[simp] theorem State.freeVal_stk (s : State) : s.freeVal.2.stk = s.stk := rfl
@[simp] theorem State.freeVal_acc (s : State) : s.freeVal.2.acc = s.acc := rfl
@[simp] theorem State.freeVal_objs (s : State) : s.freeVal.2.objs = s.objs := rfl
@[simp] theorem State.freeVal_hub (s : State) : s.freeVal.2.hub = s.hub := rfl
@[simp] theorem State.freeVal_fab (s : State) : s.freeVal.2.fab = s.fab := rfl
@[simp] theorem State.freeVal_slice (s : State) : s.freeVal.2.slice = s.slice := rfl
@[simp] theorem State.freeVal_time (s : State) : s.freeVal.2.time = s.time := rfl
@[simp] theorem State.freeVal_cycle (s : State) : s.freeVal.2.cycle = s.cycle := rfl
@[simp] theorem State.freeVal_cur (s : State) : s.freeVal.2.cur = s.cur := rfl
@[simp] theorem State.freeVal_agenda (s : State) : s.freeVal.2.agenda = s.agenda := rfl
@[simp] theorem State.freeVal_rr (s : State) : s.freeVal.2.rr = s.rr := rfl
@[simp] theorem State.freeVal_fresh (s : State) : s.freeVal.2.fresh = s.fresh + 1 := rfl
@[simp] theorem State.freeVal_group (s : State) (k : Nat) : (s.freeVal.2).group k = s.group k := rfl
@[simp] theorem State.freeVal_core (s : State) (k : Nat) : (s.freeVal.2).core k = s.core k := rfl
@[simp] theorem State.freeVal_team (s : State) (k : Nat) : (s.freeVal.2).team k = s.team k := rfl
@[simp] theorem State.freeVal_die (s : State) (k : Nat) : (s.freeVal.2).die k = s.die k := rfl
@[simp] theorem State.freeVal_part (s : State) (k : Nat) : (s.freeVal.2).part k = s.part k := rfl

/-! ### Updates of a group -/

@[simp] theorem Group.setV_live (g : Group) (l n : Nat) (x : W32) : (g.setV l n x).live = g.live := rfl
@[simp] theorem Group.setV_fmask (g : Group) (l n : Nat) (x : W32) : (g.setV l n x).fmask = g.fmask := rfl
@[simp] theorem Group.setV_xblk (g : Group) (l n : Nat) (x : W32) : (g.setV l n x).xblk = g.xblk := rfl
@[simp] theorem Group.setV_aft (g : Group) (l n : Nat) (x : W32) : (g.setV l n x).aft = g.aft := rfl
@[simp] theorem Group.setV_aov (g : Group) (l n : Nat) (x : W32) : (g.setV l n x).aov = g.aov := rfl
@[simp] theorem Group.setV_tlanes (g : Group) (l n : Nat) (x : W32) : (g.setV l n x).tlanes = g.tlanes := rfl
@[simp] theorem Group.setV_v (g : Group) (l n : Nat) (x : W32) : (g.setV l n x).v = Tbl.put (32 * n + l) x g.v := rfl
@[simp] theorem Group.setV_u (g : Group) (l n : Nat) (x : W32) : (g.setV l n x).u = g.u := rfl
@[simp] theorem Group.setV_ab (g : Group) (l n : Nat) (x : W32) : (g.setV l n x).ab = g.ab := rfl
@[simp] theorem Group.setV_as (g : Group) (l n : Nat) (x : W32) : (g.setV l n x).as = g.as := rfl
@[simp] theorem Group.setV_q (g : Group) (l n : Nat) (x : W32) : (g.setV l n x).q = g.q := rfl
@[simp] theorem Group.setV_lds (g : Group) (l n : Nat) (x : W32) : (g.setV l n x).lds = g.lds := rfl
@[simp] theorem Group.setV_sts (g : Group) (l n : Nat) (x : W32) : (g.setV l n x).sts = g.sts := rfl
@[simp] theorem Group.setV_cps (g : Group) (l n : Nat) (x : W32) : (g.setV l n x).cps = g.cps := rfl
@[simp] theorem Group.setV_bcount (g : Group) (l n : Nat) (x : W32) : (g.setV l n x).bcount = g.bcount := rfl
@[simp] theorem Group.setV_since (g : Group) (l n : Nat) (x : W32) : (g.setV l n x).since = g.since := rfl
@[simp] theorem Group.setV_threads (g : Group) (l n : Nat) (x : W32) : (g.setV l n x).threads = g.threads := rfl
@[simp] theorem Group.setU_live (g : Group) (n : Nat) (x : W64) : (g.setU n x).live = g.live := rfl
@[simp] theorem Group.setU_fmask (g : Group) (n : Nat) (x : W64) : (g.setU n x).fmask = g.fmask := rfl
@[simp] theorem Group.setU_xblk (g : Group) (n : Nat) (x : W64) : (g.setU n x).xblk = g.xblk := rfl
@[simp] theorem Group.setU_aft (g : Group) (n : Nat) (x : W64) : (g.setU n x).aft = g.aft := rfl
@[simp] theorem Group.setU_aov (g : Group) (n : Nat) (x : W64) : (g.setU n x).aov = g.aov := rfl
@[simp] theorem Group.setU_tlanes (g : Group) (n : Nat) (x : W64) : (g.setU n x).tlanes = g.tlanes := rfl
@[simp] theorem Group.setU_v (g : Group) (n : Nat) (x : W64) : (g.setU n x).v = g.v := rfl
@[simp] theorem Group.setU_u (g : Group) (n : Nat) (x : W64) : (g.setU n x).u = Tbl.put n x g.u := rfl
@[simp] theorem Group.setU_ab (g : Group) (n : Nat) (x : W64) : (g.setU n x).ab = g.ab := rfl
@[simp] theorem Group.setU_as (g : Group) (n : Nat) (x : W64) : (g.setU n x).as = g.as := rfl
@[simp] theorem Group.setU_q (g : Group) (n : Nat) (x : W64) : (g.setU n x).q = g.q := rfl
@[simp] theorem Group.setU_lds (g : Group) (n : Nat) (x : W64) : (g.setU n x).lds = g.lds := rfl
@[simp] theorem Group.setU_sts (g : Group) (n : Nat) (x : W64) : (g.setU n x).sts = g.sts := rfl
@[simp] theorem Group.setU_cps (g : Group) (n : Nat) (x : W64) : (g.setU n x).cps = g.cps := rfl
@[simp] theorem Group.setU_bcount (g : Group) (n : Nat) (x : W64) : (g.setU n x).bcount = g.bcount := rfl
@[simp] theorem Group.setU_since (g : Group) (n : Nat) (x : W64) : (g.setU n x).since = g.since := rfl
@[simp] theorem Group.setU_threads (g : Group) (n : Nat) (x : W64) : (g.setU n x).threads = g.threads := rfl
@[simp] theorem Group.setA_live (g : Group) (n : Nat) (b : W64) (t : W32) : (g.setA n b t).live = g.live := rfl
@[simp] theorem Group.setA_fmask (g : Group) (n : Nat) (b : W64) (t : W32) : (g.setA n b t).fmask = g.fmask := rfl
@[simp] theorem Group.setA_xblk (g : Group) (n : Nat) (b : W64) (t : W32) : (g.setA n b t).xblk = g.xblk := rfl
@[simp] theorem Group.setA_aft (g : Group) (n : Nat) (b : W64) (t : W32) : (g.setA n b t).aft = g.aft := rfl
@[simp] theorem Group.setA_aov (g : Group) (n : Nat) (b : W64) (t : W32) : (g.setA n b t).aov = g.aov := rfl
@[simp] theorem Group.setA_tlanes (g : Group) (n : Nat) (b : W64) (t : W32) : (g.setA n b t).tlanes = g.tlanes := rfl
@[simp] theorem Group.setA_v (g : Group) (n : Nat) (b : W64) (t : W32) : (g.setA n b t).v = g.v := rfl
@[simp] theorem Group.setA_u (g : Group) (n : Nat) (b : W64) (t : W32) : (g.setA n b t).u = g.u := rfl
@[simp] theorem Group.setA_ab (g : Group) (n : Nat) (b : W64) (t : W32) : (g.setA n b t).ab = Tbl.put n b g.ab := rfl
@[simp] theorem Group.setA_as (g : Group) (n : Nat) (b : W64) (t : W32) : (g.setA n b t).as = Tbl.put n t g.as := rfl
@[simp] theorem Group.setA_q (g : Group) (n : Nat) (b : W64) (t : W32) : (g.setA n b t).q = g.q := rfl
@[simp] theorem Group.setA_lds (g : Group) (n : Nat) (b : W64) (t : W32) : (g.setA n b t).lds = g.lds := rfl
@[simp] theorem Group.setA_sts (g : Group) (n : Nat) (b : W64) (t : W32) : (g.setA n b t).sts = g.sts := rfl
@[simp] theorem Group.setA_cps (g : Group) (n : Nat) (b : W64) (t : W32) : (g.setA n b t).cps = g.cps := rfl
@[simp] theorem Group.setA_bcount (g : Group) (n : Nat) (b : W64) (t : W32) : (g.setA n b t).bcount = g.bcount := rfl
@[simp] theorem Group.setA_since (g : Group) (n : Nat) (b : W64) (t : W32) : (g.setA n b t).since = g.since := rfl
@[simp] theorem Group.setA_threads (g : Group) (n : Nat) (b : W64) (t : W32) : (g.setA n b t).threads = g.threads := rfl
@[simp] theorem Group.setQ_live (g : Group) (n : BitVec 2) (b : Bool) : (g.setQ n b).live = g.live := rfl
@[simp] theorem Group.setQ_fmask (g : Group) (n : BitVec 2) (b : Bool) : (g.setQ n b).fmask = g.fmask := rfl
@[simp] theorem Group.setQ_xblk (g : Group) (n : BitVec 2) (b : Bool) : (g.setQ n b).xblk = g.xblk := rfl
@[simp] theorem Group.setQ_aft (g : Group) (n : BitVec 2) (b : Bool) : (g.setQ n b).aft = g.aft := rfl
@[simp] theorem Group.setQ_aov (g : Group) (n : BitVec 2) (b : Bool) : (g.setQ n b).aov = g.aov := rfl
@[simp] theorem Group.setQ_tlanes (g : Group) (n : BitVec 2) (b : Bool) : (g.setQ n b).tlanes = g.tlanes := rfl
@[simp] theorem Group.setQ_v (g : Group) (n : BitVec 2) (b : Bool) : (g.setQ n b).v = g.v := rfl
@[simp] theorem Group.setQ_u (g : Group) (n : BitVec 2) (b : Bool) : (g.setQ n b).u = g.u := rfl
@[simp] theorem Group.setQ_ab (g : Group) (n : BitVec 2) (b : Bool) : (g.setQ n b).ab = g.ab := rfl
@[simp] theorem Group.setQ_as (g : Group) (n : BitVec 2) (b : Bool) : (g.setQ n b).as = g.as := rfl
@[simp] theorem Group.setQ_q (g : Group) (n : BitVec 2) (b : Bool) : (g.setQ n b).q = setBit g.q n.toNat b := rfl
@[simp] theorem Group.setQ_lds (g : Group) (n : BitVec 2) (b : Bool) : (g.setQ n b).lds = g.lds := rfl
@[simp] theorem Group.setQ_sts (g : Group) (n : BitVec 2) (b : Bool) : (g.setQ n b).sts = g.sts := rfl
@[simp] theorem Group.setQ_cps (g : Group) (n : BitVec 2) (b : Bool) : (g.setQ n b).cps = g.cps := rfl
@[simp] theorem Group.setQ_bcount (g : Group) (n : BitVec 2) (b : Bool) : (g.setQ n b).bcount = g.bcount := rfl
@[simp] theorem Group.setQ_since (g : Group) (n : BitVec 2) (b : Bool) : (g.setQ n b).since = g.since := rfl
@[simp] theorem Group.setQ_threads (g : Group) (n : BitVec 2) (b : Bool) : (g.setQ n b).threads = g.threads := rfl
@[simp] theorem Group.setThread_live (g : Group) (l : Nat) (t : Thread) : (g.setThread l t).live = g.live := rfl
@[simp] theorem Group.setThread_fmask (g : Group) (l : Nat) (t : Thread) : (g.setThread l t).fmask = g.fmask := rfl
@[simp] theorem Group.setThread_xblk (g : Group) (l : Nat) (t : Thread) : (g.setThread l t).xblk = g.xblk := rfl
@[simp] theorem Group.setThread_aft (g : Group) (l : Nat) (t : Thread) : (g.setThread l t).aft = g.aft := rfl
@[simp] theorem Group.setThread_aov (g : Group) (l : Nat) (t : Thread) : (g.setThread l t).aov = g.aov := rfl
@[simp] theorem Group.setThread_tlanes (g : Group) (l : Nat) (t : Thread) : (g.setThread l t).tlanes = g.tlanes := rfl
@[simp] theorem Group.setThread_v (g : Group) (l : Nat) (t : Thread) : (g.setThread l t).v = g.v := rfl
@[simp] theorem Group.setThread_u (g : Group) (l : Nat) (t : Thread) : (g.setThread l t).u = g.u := rfl
@[simp] theorem Group.setThread_ab (g : Group) (l : Nat) (t : Thread) : (g.setThread l t).ab = g.ab := rfl
@[simp] theorem Group.setThread_as (g : Group) (l : Nat) (t : Thread) : (g.setThread l t).as = g.as := rfl
@[simp] theorem Group.setThread_q (g : Group) (l : Nat) (t : Thread) : (g.setThread l t).q = g.q := rfl
@[simp] theorem Group.setThread_lds (g : Group) (l : Nat) (t : Thread) : (g.setThread l t).lds = g.lds := rfl
@[simp] theorem Group.setThread_sts (g : Group) (l : Nat) (t : Thread) : (g.setThread l t).sts = g.sts := rfl
@[simp] theorem Group.setThread_cps (g : Group) (l : Nat) (t : Thread) : (g.setThread l t).cps = g.cps := rfl
@[simp] theorem Group.setThread_bcount (g : Group) (l : Nat) (t : Thread) : (g.setThread l t).bcount = g.bcount := rfl
@[simp] theorem Group.setThread_since (g : Group) (l : Nat) (t : Thread) : (g.setThread l t).since = g.since := rfl
@[simp] theorem Group.setThread_threads (g : Group) (l : Nat) (t : Thread) : (g.setThread l t).threads = Tbl.put l t g.threads := rfl
@[simp] theorem Group.modThread_live (g : Group) (l : Nat) (f : Thread → Thread) : (g.modThread l f).live = g.live := rfl
@[simp] theorem Group.modThread_fmask (g : Group) (l : Nat) (f : Thread → Thread) : (g.modThread l f).fmask = g.fmask := rfl
@[simp] theorem Group.modThread_xblk (g : Group) (l : Nat) (f : Thread → Thread) : (g.modThread l f).xblk = g.xblk := rfl
@[simp] theorem Group.modThread_aft (g : Group) (l : Nat) (f : Thread → Thread) : (g.modThread l f).aft = g.aft := rfl
@[simp] theorem Group.modThread_aov (g : Group) (l : Nat) (f : Thread → Thread) : (g.modThread l f).aov = g.aov := rfl
@[simp] theorem Group.modThread_tlanes (g : Group) (l : Nat) (f : Thread → Thread) : (g.modThread l f).tlanes = g.tlanes := rfl
@[simp] theorem Group.modThread_v (g : Group) (l : Nat) (f : Thread → Thread) : (g.modThread l f).v = g.v := rfl
@[simp] theorem Group.modThread_u (g : Group) (l : Nat) (f : Thread → Thread) : (g.modThread l f).u = g.u := rfl
@[simp] theorem Group.modThread_ab (g : Group) (l : Nat) (f : Thread → Thread) : (g.modThread l f).ab = g.ab := rfl
@[simp] theorem Group.modThread_as (g : Group) (l : Nat) (f : Thread → Thread) : (g.modThread l f).as = g.as := rfl
@[simp] theorem Group.modThread_q (g : Group) (l : Nat) (f : Thread → Thread) : (g.modThread l f).q = g.q := rfl
@[simp] theorem Group.modThread_lds (g : Group) (l : Nat) (f : Thread → Thread) : (g.modThread l f).lds = g.lds := rfl
@[simp] theorem Group.modThread_sts (g : Group) (l : Nat) (f : Thread → Thread) : (g.modThread l f).sts = g.sts := rfl
@[simp] theorem Group.modThread_cps (g : Group) (l : Nat) (f : Thread → Thread) : (g.modThread l f).cps = g.cps := rfl
@[simp] theorem Group.modThread_bcount (g : Group) (l : Nat) (f : Thread → Thread) : (g.modThread l f).bcount = g.bcount := rfl
@[simp] theorem Group.modThread_since (g : Group) (l : Nat) (f : Thread → Thread) : (g.modThread l f).since = g.since := rfl
@[simp] theorem Group.modThread_threads (g : Group) (l : Nat) (f : Thread → Thread) : (g.modThread l f).threads = Tbl.put l (f (g.thread l)) g.threads := rfl

end Sys2Proof.Machine
end

