-- ==== Sys2Proof/Laws/Group.lean ====
section
/-!
SUPPORT. What a group's registers and threads read as after each write, and after a write of every lane of a set.
-/

namespace Sys2Proof.Machine

/-! ### One write -/

theorem Group.vreg_setV (g : Group) {l l' : Nat} (n n' : Nat) (x : W32) (hl : l < 32) (hl' : l' < 32) :
    (g.setV l n x).vreg l' n' = if l' = l ∧ n' = n then x else g.vreg l' n' := by
  simp only [Group.vreg, Group.setV]
  split
  · next h => rw [h.1, h.2, Tbl.get_put_same]
  · next h => exact Tbl.get_put_other _ _ _ (by omega)
@[simp] theorem Group.ureg_setU_same (g : Group) (n : Nat) (x : W64) : (g.setU n x).ureg n = x := Tbl.get_put_same _ _ _ _
theorem Group.ureg_setU (g : Group) (n n' : Nat) (x : W64) : (g.setU n x).ureg n' = if n' = n then x else g.ureg n' := by
  split
  · next h => rw [h, Group.ureg_setU_same]
  · next h => exact Tbl.get_put_other _ _ _ h
theorem Group.abase_setA (g : Group) (n n' : Nat) (b : W64) (t : W32) :
    (g.setA n b t).abase n' = if n' = n then b else g.abase n' := by
  simp only [Group.abase, Group.setA]
  split
  · next h => rw [h, Tbl.get_put_same]
  · next h => exact Tbl.get_put_other _ _ _ h
theorem Group.astride_setA (g : Group) (n n' : Nat) (b : W64) (t : W32) :
    (g.setA n b t).astride n' = if n' = n then t else g.astride n' := by
  simp only [Group.astride, Group.setA]
  split
  · next h => rw [h, Tbl.get_put_same]
  · next h => exact Tbl.get_put_other _ _ _ h
@[simp] theorem Group.thread_setThread_same (g : Group) (l : Nat) (t : Thread) : (g.setThread l t).thread l = t := Tbl.get_put_same _ _ _ _
theorem Group.thread_setThread_other (g : Group) {l l' : Nat} (t : Thread) (h : l' ≠ l) : (g.setThread l t).thread l' = g.thread l' :=
  Tbl.get_put_other _ _ _ h
theorem Group.thread_modThread (g : Group) (l l' : Nat) (f : Thread → Thread) :
    (g.modThread l f).thread l' = if l' = l then f (g.thread l) else g.thread l' := by
  simp only [Group.modThread]
  split
  · next h => rw [h, Group.thread_setThread_same]
  · next h => exact Group.thread_setThread_other g _ h

/-- A group without its threads. -/
def Group.bare (g : Group) : Group := { g with threads := [] }
@[simp] theorem Group.bare_modThread (g : Group) (l : Nat) (f : Thread → Thread) : (g.modThread l f).bare = g.bare := rfl

/-! ### A change of every lane of a set -/

theorem mem_lanesOf {m : Mask} {l : Nat} : l ∈ lanesOf m ↔ m.getLsbD l = true := by
  simp only [lanesOf, List.mem_filter, mem_lanes]
  exact ⟨fun h => h.2, fun h => ⟨BitVec.lt_of_getLsbD h, h⟩⟩
theorem nodup_rangeFrom (a n : Nat) : (rangeFrom a n).Nodup := by
  induction n generalizing a with
  | zero => exact List.nodup_nil
  | succ n ih => exact List.nodup_cons.mpr ⟨fun h => by have := mem_rangeFrom.mp h; omega, ih (a + 1)⟩
theorem nodup_lanesOf (m : Mask) : (lanesOf m).Nodup := (nodup_rangeFrom 0 32).sublist List.filter_sublist

/-- A fold of one change per lane over lanes without repetition: the group otherwise, and each thread. -/
theorem fold_modThread (f : Nat → Thread → Thread) (ls : List Nat) (hn : ls.Nodup) (g : Group) :
    (ls.foldl (fun g l => g.modThread l (f l)) g).bare = g.bare
    ∧ ∀ l, (ls.foldl (fun g l => g.modThread l (f l)) g).thread l = if l ∈ ls then f l (g.thread l) else g.thread l := by
  induction ls generalizing g with
  | nil => exact ⟨rfl, fun l => by simp⟩
  | cons a t ih =>
    obtain ⟨ha, ht⟩ := List.nodup_cons.mp hn
    obtain ⟨h1, h2⟩ := ih ht (g.modThread a (f a))
    refine ⟨h1, fun l => ?_⟩
    rw [List.foldl_cons, h2 l, Group.thread_modThread]
    by_cases hla : l = a
    · subst hla
      simp [ha]
    · simp [hla]

theorem modThreads_eq (g : Group) (m : Mask) (f : Thread → Thread) :
    g.modThreads m f = (lanesOf m).foldl (fun g l => g.modThread l f) g := by
  simp only [Group.modThreads, lanesOf]
  generalize lanes = ls
  induction ls generalizing g with
  | nil => rfl
  | cons a t ih =>
    simp only [List.foldl_cons, List.filter_cons]
    split
    · exact ih _
    · exact ih _
@[simp] theorem Group.bare_modThreads (g : Group) (m : Mask) (f : Thread → Thread) : (g.modThreads m f).bare = g.bare := by
  rw [modThreads_eq]
  exact (fold_modThread (fun _ => f) _ (nodup_lanesOf m) g).1
theorem Group.thread_modThreads (g : Group) (m : Mask) (f : Thread → Thread) (l : Nat) :
    (g.modThreads m f).thread l = if m.getLsbD l then f (g.thread l) else g.thread l := by
  rw [modThreads_eq, (fold_modThread (fun _ => f) _ (nodup_lanesOf m) g).2 l]
  simp only [mem_lanesOf]

/-! ### Sets of lanes -/

theorem getLsbD_setBit {w : Nat} (x : BitVec w) (i j : Nat) (b : Bool) (hj : j < w) :
    (setBit x i b).getLsbD j = if j = i then b else x.getLsbD j := by
  simp only [setBit]
  have h1 : (1#w <<< i).getLsbD j = decide (j = i) := by
    simp only [BitVec.getLsbD_shiftLeft, BitVec.getLsbD_one]
    by_cases h : j = i
    · subst h
      simp [hj]
      omega
    · simp only [h, decide_false, Bool.and_eq_false_iff]
      by_cases hlt : j < i
      · simp [hlt]
      · right
        simp
        omega
  cases b <;> simp only [if_true, if_false, Bool.false_eq_true, BitVec.getLsbD_or, BitVec.getLsbD_and, BitVec.getLsbD_not, h1] <;>
    by_cases h : j = i <;> simp [h, hj]

theorem getLsbD_foldl_set (m : Mask) (f : Nat → Bool) (ls : List Nat) (a : Mask) {j : Nat} (hj : j < 32) :
    (ls.foldl (fun a l => if m.getLsbD l && f l then setBit a l true else a) a).getLsbD j
      = (a.getLsbD j || (decide (j ∈ ls) && (m.getLsbD j && f j))) := by
  induction ls generalizing a with
  | nil => simp
  | cons x t ih =>
    rw [List.foldl_cons, ih]
    by_cases hx : j = x
    · subst hx
      by_cases hc : (m.getLsbD j && f j) = true
      · simp [hc, getLsbD_setBit _ _ _ _ hj]
      · simp [hc]
    · split
      · simp [getLsbD_setBit _ _ _ _ hj, hx]
      · simp [hx]
theorem getLsbD_maskWhere (m : Mask) (f : Nat → Bool) (j : Nat) : (maskWhere m f).getLsbD j = (m.getLsbD j && f j) := by
  by_cases hj : j < 32
  · rw [maskWhere, getLsbD_foldl_set m f _ _ hj]
    simp [mem_lanes.mpr hj]
  · rw [BitVec.getLsbD_of_ge (maskWhere m f) j (by omega), BitVec.getLsbD_of_ge m j (by omega)]
    rfl

end Sys2Proof.Machine
end

