-- ==== Sys2Proof/Laws/Issue.lean ====
section
/-!
SUPPORT. Issue said once: an instruction that passes the checks has its own effect on its contributing threads, and threads that
stand at no loop's END fall through.
-/

namespace Sys2Proof.Machine

theorem lanesOf_ne_nil {m : Mask} (h : m ≠ 0#32) : lanesOf m ≠ [] := by
  intro hn
  apply h
  apply BitVec.eq_of_getLsbD_eq
  intro l _
  have : l ∉ lanesOf m := by rw [hn]; exact List.not_mem_nil
  rw [mem_lanesOf] at this
  simpa using this

/-- Whether a set may issue a group-scope instruction, as a proposition. -/
theorem fullMask_iff (g : Group) (act : Mask) :
    fullMask g act = true ↔ act = g.fmask ∧ (g.tlanes &&& act = 0#32 ∨ g.tlanes = g.fmask) := by simp [fullMask]

/-- An instruction that passes the checks of issue, no thread of the set lacking its level: its body on the whole active set. -/
theorem issueAt_eq {i : Instr} {s : State} (h : Issues i s) (body : At → State → Out) :
    issueAt i 0#32 s body = finish s.cur.gid s.cur.mask (body ⟨s.cur.gid, s.cur.mask, contributing i s, s.env s.cur.gid⟩ s) := by
  obtain ⟨h1, _, h3, h4, h5⟩ := h
  have ht : trapsMask [] = 0#32 := rfl
  have hta : ∀ w a, trapAll 0#32 w a = [] := fun w a => by
    have : lanesOf 0#32 = [] := by decide
    simp [trapAll, this]
  unfold issueAt
  simp only [bne_self_eq_false, Bool.and_false, Bool.false_eq_true, if_false, hta, ht, BitVec.not_zero, BitVec.and_allOnes]
  rw [if_neg h1]
  have h3' : regsOk i (s.group s.cur.gid).xblk (s.counts s.cur.gid).2.1 (s.counts s.cur.gid).2.2 = true := h3
  simp only [h3', h4, Bool.not_true, Bool.false_eq_true, if_false]
  have h6 : (i.groupScope && !fullMask (s.group s.cur.gid) s.cur.mask) = false := by
    cases hg : i.groupScope with
    | false => rfl
    | true =>
      have : fullMask (s.group s.cur.gid) s.cur.mask = true := (fullMask_iff _ _).mpr (h5 hg)
      simp [this]
  simp only [h6, Bool.false_eq_true, if_false, List.nil_append]
  rfl

/-- The same of an instruction whose level is the same whatever it writes. -/
theorem issue_eq {i : Instr} {s : State} (h : Issues i s) (body : At → State → Out) :
    issue i s body = finish s.cur.gid s.cur.mask (body ⟨s.cur.gid, s.cur.mask, contributing i s, s.env s.cur.gid⟩ s) := by
  have hlow : (if needsSup i = true then userMask (s.group s.cur.gid) s.cur.mask else 0#32) = 0#32 := by
    split
    · next hn => exact h.2.1 hn
    · rfl
  unfold issue
  rw [hlow]
  exact issueAt_eq h body

/-- A thread that falls through. -/
def Thread.past (t : Thread) : Thread := { t with pc := nextPc t.pc, wait := none }

theorem passThread_straight {t : Thread} (h : ∀ e ∈ t.loops.head?, e.stop ≠ t.pc) :
    passThread t.pc t = t.past ∧ takesBackEdge t.pc t = false := by
  unfold passThread takesBackEdge Thread.past
  cases hl : t.loops with
  | nil => simp [endStep, ← hl]
  | cons e l =>
    have he : e.stop ≠ t.pc := h e (by simp [hl])
    simp [endStep, he, ← hl]

/-- A fold of one thread change per lane, where each step is one on the states the fold meets. -/
theorem fold_past (gid : Nat) (F : State × List Trap → Nat → State × List Trap)
    (hF : ∀ s l, (∀ e ∈ ((s.group gid).thread l).loops.head?, e.stop ≠ ((s.group gid).thread l).pc) →
      F (s, []) l = (s.setGroup gid ((s.group gid).modThread l Thread.past), []))
    (ls : List Nat) (hn : ls.Nodup) (s : State)
    (hs : ∀ l ∈ ls, ∀ e ∈ ((s.group gid).thread l).loops.head?, e.stop ≠ ((s.group gid).thread l).pc) (hne : ls ≠ []) :
    ls.foldl F (s, []) = (s.setGroup gid (ls.foldl (fun g l => g.modThread l Thread.past) (s.group gid)), []) := by
  induction ls generalizing s with
  | nil => exact absurd rfl hne
  | cons a t ih =>
    obtain ⟨ha, hnt⟩ := List.nodup_cons.mp hn
    rw [List.foldl_cons, List.foldl_cons, hF s a (hs a (List.mem_cons_self ..))]
    by_cases ht : t = []
    · subst ht
      rfl
    · rw [ih hnt _ _ ht]
      · simp
      · intro l hl
        have hla : l ≠ a := fun h => ha (h ▸ hl)
        simp only [State.setGroup_group_same, Group.thread_modThread, hla, if_false]
        exact hs l (List.mem_cons_of_mem _ hl)

/-- Threads that stand at no END fall through, with no fault. -/
theorem passSet_straight (s : State) (gid : Nat) (m : Mask) (hm : m ≠ 0#32)
    (h : ∀ l, m.getLsbD l = true → ∀ e ∈ ((s.group gid).thread l).loops.head?, e.stop ≠ ((s.group gid).thread l).pc) :
    passSet s gid m = (s.setGroup gid ((s.group gid).modThreads m Thread.past), []) := by
  rw [modThreads_eq]
  refine fold_past gid _ (fun s l hs => ?_) _ (nodup_lanesOf m) s (fun l hl => h l (mem_lanesOf.mp hl)) (lanesOf_ne_nil hm)
  obtain ⟨hp, hb⟩ := passThread_straight hs
  have h1 : (s.group gid).modThread l (passThread ((s.group gid).thread l).pc) = (s.group gid).modThread l Thread.past := by
    simp only [Group.modThread, hp]
  simp only [State.modGroup, hb, Bool.false_eq_true, if_false, h1]

/-- An effect without faults whose threads all pass, from a state in which none stands at an END. -/
theorem finish_done (gid : Nat) (act : Mask) (s : State) (hm : act ≠ 0#32)
    (h : ∀ l, act.getLsbD l = true → ∀ e ∈ ((s.group gid).thread l).loops.head?, e.stop ≠ ((s.group gid).thread l).pc) :
    finish gid act (.done s) = s.setGroup gid ((s.group gid).modThreads act Thread.past) := by
  have ht : trapsMask [] = 0#32 := rfl
  have hx : act &&& ~~~(0#32 ||| 0#32) = act := by rw [BitVec.or_zero, BitVec.not_zero, BitVec.and_allOnes]
  simp only [finish, Out.done, Bool.false_eq_true, if_false, ht, hx, passSet_straight s gid act hm h, List.append_nil]
  rfl

end Sys2Proof.Machine
end

