-- ==== Sys2Proof/Laws/KeepMem.lean ====
section
/-!
SUPPORT. Memory stays in its canonical form under every function of Machine/Mem.lean: one lemma each.
-/

namespace Sys2Proof.Machine

@[simp] theorem State.setCore_wf (s : State) (cid : Nat) (c : Core) (hs : s.mem.wf = true) : (State.setCore s cid c).mem.wf = true := by simp [State.setCore, *]

@[simp] theorem State.setDie_wf (s : State) (d : Nat) (x : Die) (hs : s.mem.wf = true) : (State.setDie s d x).mem.wf = true := by simp [State.setDie, *]

@[simp] theorem State.setTeam_wf (s : State) (tid : Nat) (t : Team) (hs : s.mem.wf = true) : (State.setTeam s tid t).mem.wf = true := by simp [State.setTeam, *]

@[simp] theorem State.setGroup_wf (s : State) (gid : Nat) (g : Group) (hs : s.mem.wf = true) : (State.setGroup s gid g).mem.wf = true := by simp [State.setGroup, *]

@[simp] theorem State.setPart_wf (s : State) (p : Nat) (x : Part) (hs : s.mem.wf = true) : (State.setPart s p x).mem.wf = true := by simp [State.setPart, *]

@[simp] theorem reread_wf (s : State) (c : Ctx) (va : Nat) (hs : s.mem.wf = true) : (reread s c va).mem.wf = true := by
  unfold reread
  repeat' (first | with_reducible refine ite_wf ?_ ?_ | split | (simp +contextual (maxDischargeDepth := 40) [*]; done))

@[simp] theorem rereads_wf (s : State) (c : Ctx) (a : W64) (len : Nat) (hs : s.mem.wf = true) : (rereads s c a len).mem.wf = true := by
  unfold rereads
  repeat' (first | with_reducible refine ite_wf ?_ ?_ | split | (simp +contextual (maxDischargeDepth := 40) [*]; done))

@[simp] theorem tlbFill_wf (s : State) (d : Nat) (part : Nat) (level : Nat) (va : Nat) (hs : s.mem.wf = true) : (tlbFill s d part level va).mem.wf = true := by
  unfold tlbFill
  repeat' (first | with_reducible refine ite_wf ?_ ?_ | split | (simp +contextual (maxDischargeDepth := 40) [*]; done))

@[simp] theorem tlbTurn_wf (s : State) (d : Nat) (ix : Nat) (hs : s.mem.wf = true) : (tlbTurn s d ix).mem.wf = true := by
  unfold tlbTurn
  repeat' (first | with_reducible refine ite_wf ?_ ?_ | split | (simp +contextual (maxDischargeDepth := 40) [*]; done))

@[simp] theorem xlinvDone_wf (s : State) (d : Nat) (hs : s.mem.wf = true) : (xlinvDone s d).mem.wf = true := by simp [xlinvDone, *]

end Sys2Proof.Machine
end

