-- ==== Sys2Proof/Laws/KeepNet.lean ====
section
/-!
SUPPORT. Memory stays in its canonical form under every function of Machine/Net.lean: one lemma each.
-/

namespace Sys2Proof.Machine

@[simp] theorem State.notePath_wf (s : State) (cid : Nat) (pa : Nat) (hs : s.mem.wf = true) : (State.notePath s cid pa).mem.wf = true := by simp [State.notePath, *]

@[simp] theorem failIn_wf (s : State) (gid : Nat) (m : Mask) (f : FailRec → FailRec) (hs : s.mem.wf = true) : (failIn s gid m f).mem.wf = true := by simp [failIn, *]

@[simp] theorem chargeGroup_wf (s : State) (gid : Nat) (m : Mask) (unit : Half) (pois : Bool) (dead : Bool) (hs : s.mem.wf = true) : (chargeGroup s gid m unit pois dead).mem.wf = true := by simp [chargeGroup, *]

@[simp] theorem chargeSlots_wf (s : State) (cid : Nat) (p : Payer) (unit : Half) (pois : Bool) (dead : Bool) (hs : s.mem.wf = true) : (chargeSlots s cid p unit pois dead).mem.wf = true := by
  first | simp only [chargeSlots] | unfold chargeSlots
  repeat' (first
    | with_reducible assumption
    | with_reducible refine ite_wf ?_ ?_
    | with_reducible refine ite_wf1 ?_ ?_
    | with_reducible refine ite_wf2 ?_ ?_
    | with_reducible refine ite_wf22 ?_ ?_
    | with_reducible refine foldl_wf _ _ _ (fun _ _ _ => ?_) ?_
    | with_reducible refine foldl_wf1 _ _ _ (fun _ _ _ => ?_) ?_
    | with_reducible refine foldl_wf2 _ _ _ (fun _ _ _ => ?_) ?_
    | with_reducible refine foldl_wf22 _ _ _ (fun _ _ _ => ?_) ?_
    | (simp +contextual (maxDischargeDepth := 40) [*]; done)
    | dsimp only
    | split)

@[simp] theorem sendWrite_wf (s : State) (cid : Nat) (pa : Nat) (p : Payer) (w : Memory → Memory) (hs : s.mem.wf = true) (hw : ∀ m0, m0.wf = true → (w m0).wf = true) : (sendWrite s cid pa p w).mem.wf = true := by
  unfold sendWrite
  repeat' (first | with_reducible refine ite_wf ?_ ?_ | split | (simp +contextual (maxDischargeDepth := 40) [*]; done))

end Sys2Proof.Machine
end

