-- ==== Sys2Proof/Laws/KeepCache.lean ====
section
/-!
SUPPORT. Memory stays in its canonical form under every function of Machine/Cache.lean: one lemma each.
-/

namespace Sys2Proof.Machine

@[simp] theorem sendLine_wf (s : State) (cid : Nat) (line : Nat) (l : L1Line) (hs : s.mem.wf = true) : (sendLine s cid line l).mem.wf = true := by
  unfold sendLine
  repeat' (first | with_reducible refine ite_wf ?_ ?_ | split | (simp +contextual (maxDischargeDepth := 40) [*]; done))

@[simp] theorem placeLine_wf (s : State) (cid : Nat) (line : Nat) (l : L1Line) (hs : s.mem.wf = true) : (placeLine s cid line l).mem.wf = true := by
  unfold placeLine
  repeat' (first | with_reducible refine ite_wf ?_ ?_ | split | (simp +contextual (maxDischargeDepth := 40) [*]; done))

@[simp] theorem l1Evict_wf (s : State) (cid : Nat) (key : Nat) (hs : s.mem.wf = true) : (l1Evict s cid key).mem.wf = true := by
  first | simp only [l1Evict] | unfold l1Evict
  repeat' (first
    | with_reducible assumption
    | with_reducible refine ite_wf ?_ ?_
    | (simp +contextual (maxDischargeDepth := 40) [*]; done)
    | dsimp only
    | split)

@[simp] theorem l1Touch_wf (s : State) (cid : Nat) (key : Nat) (hs : s.mem.wf = true) : (l1Touch s cid key).mem.wf = true := by
  unfold l1Touch
  repeat' (first | with_reducible refine ite_wf ?_ ?_ | split | (simp +contextual (maxDischargeDepth := 40) [*]; done))

@[simp] theorem l1Load_wf (s : State) (cid : Nat) (uo : Bool) (nt : Bool) (lu : Bool) (pa : Nat) (len : Nat) (hs : s.mem.wf = true) : (l1Load s cid uo nt lu pa len).2.2.mem.wf = true := by
  first | simp only [l1Load] | unfold l1Load
  repeat' (first
    | with_reducible assumption
    | with_reducible refine ite_wf ?_ ?_
    | (simp +contextual (maxDischargeDepth := 40) [*]; done)
    | dsimp only
    | split)

@[simp] theorem l1Store_wf (s : State) (cid : Nat) (uo : Bool) (nt : Bool) (lu : Bool) (slot : Nat) (m : Mask) (pa : Nat) (bs : List Byte) (hs : s.mem.wf = true) : (l1Store s cid uo nt lu slot m pa bs).mem.wf = true := by
  first | simp only [l1Store] | unfold l1Store
  repeat' (first
    | with_reducible assumption
    | with_reducible refine ite_wf ?_ ?_
    | (simp +contextual (maxDischargeDepth := 40) [*]; done)
    | dsimp only
    | split)

@[simp] theorem loadXl_wf (s : State) (cid : Nat) (nt : Bool) (lu : Bool) (x : Xl) (hs : s.mem.wf = true) : (loadXl s cid nt lu x).2.2.mem.wf = true := by
  unfold loadXl
  repeat' (first | with_reducible refine ite_wf ?_ ?_ | split | (simp +contextual (maxDischargeDepth := 40) [*]; done))

@[simp] theorem storeXl_wf (s : State) (gid : Nat) (m : Mask) (nt : Bool) (lu : Bool) (x : Xl) (bs : List Byte) (hs : s.mem.wf = true) : (storeXl s gid m nt lu x bs).mem.wf = true := by
  unfold storeXl
  repeat' (first | with_reducible refine ite_wf ?_ ?_ | split | (simp +contextual (maxDischargeDepth := 40) [*]; done))

@[simp] theorem l1WriteBack_wf (s : State) (cid : Nat) (rc : Bool) (uo : Bool) (hs : s.mem.wf = true) : (l1WriteBack s cid rc uo).mem.wf = true := by
  first | simp only [l1WriteBack] | unfold l1WriteBack
  repeat' (first
    | with_reducible assumption
    | with_reducible refine ite_wf ?_ ?_
    | with_reducible refine ite_wf1 ?_ ?_
    | with_reducible refine ite_wf2 ?_ ?_
    | with_reducible refine ite_wf22 ?_ ?_
    | with_reducible refine iteOut_wf ?_ ?_
    | with_reducible refine foldl_wf _ _ _ (fun _ _ _ => ?_) ?_
    | with_reducible refine foldl_wf1 _ _ _ (fun _ _ _ => ?_) ?_
    | with_reducible refine foldl_wf2 _ _ _ (fun _ _ _ => ?_) ?_
    | with_reducible refine foldl_wf22 _ _ _ (fun _ _ _ => ?_) ?_
    | (simp +contextual (maxDischargeDepth := 40) [*]; done)
    | dsimp only
    | split)

@[simp] theorem l1Invalidate_wf (s : State) (cid : Nat) (rc : Bool) (uo : Bool) (hs : s.mem.wf = true) : (l1Invalidate s cid rc uo).mem.wf = true := by simp [l1Invalidate, *]

@[simp] theorem l1Acquire_wf (s : State) (cid : Nat) (hs : s.mem.wf = true) : (l1Acquire s cid).mem.wf = true := by simp [l1Acquire, *]

@[simp] theorem l1CleanLine_wf (s : State) (cid : Nat) (line : Nat) (drop : Bool) (hs : s.mem.wf = true) : (l1CleanLine s cid line drop).mem.wf = true := by
  first | simp only [l1CleanLine] | unfold l1CleanLine
  repeat' (first
    | with_reducible assumption
    | with_reducible refine ite_wf ?_ ?_
    | (simp +contextual (maxDischargeDepth := 40) [*]; done)
    | dsimp only
    | split)

@[simp] theorem l1Drop_wf (s : State) (cid : Nat) (line : Nat) (hs : s.mem.wf = true) : (l1Drop s cid line).mem.wf = true := by simp [l1Drop, *]

@[simp] theorem icPut_wf (s : State) (cid : Nat) (k : Nat) (l : List Byte) (hs : s.mem.wf = true) : (icPut s cid k l).mem.wf = true := by
  unfold icPut
  repeat' (first | with_reducible refine ite_wf ?_ ?_ | split | (simp +contextual (maxDischargeDepth := 40) [*]; done))

@[simp] theorem fetchLine_wf (s : State) (cid : Nat) (pa : Nat) (hs : s.mem.wf = true) : (fetchLine s cid pa).2.mem.wf = true := by
  unfold fetchLine
  dsimp only
  split
  · exact icPut_wf _ _ _ _ hs
  · exact ite_wf2 hs (ite_wf2 (icPut_wf s _ _ _ hs) hs)

@[simp] theorem refetch_wf (s : State) (cid : Nat) (pa : Nat) (hs : s.mem.wf = true) : (refetch s cid pa).2.mem.wf = true := by simp [refetch, *]

@[simp] theorem checkedLine_wf (s : State) (cid : Nat) (pa : Nat) (slot : Option Nat) (hs : s.mem.wf = true) : (checkedLine s cid pa slot).2.mem.wf = true := by
  simp only [checkedLine]
  generalize lparBad = lb
  generalize sparBad = sb
  generalize lineRes = lr
  repeat' (first
    | (simp [*]; done)
    | split)

@[simp] theorem targetFault_wf (s : State) (c : Ctx) (cid : Nat) (pc : W64) (hs : s.mem.wf = true) : (targetFault s c cid pc).2.mem.wf = true := by
  unfold targetFault
  have h1 := fun pa => checkedLine_wf s cid pa none hs
  generalize fetchAddr s c pc = fa
  generalize lineTgt = lt
  cases fa with
  | error f => exact hs
  | ok pa =>
    have h2 := h1 pa
    dsimp only
    generalize checkedLine s cid pa none = r at h2 ⊢
    obtain ⟨_ | l, s'⟩ := r
    · exact h2
    · exact h2

end Sys2Proof.Machine
end

