-- ==== Sys2Proof/Laws/KeepTeams.lean ====
section
/-!
SUPPORT. Memory stays in its canonical form under every function of Machine/Teams.lean: one lemma each.
-/

namespace Sys2Proof.Machine

@[simp] theorem State.modGroup_wf (s : State) (gid : Nat) (f : Group → Group) (hs : s.mem.wf = true) : (State.modGroup s gid f).mem.wf = true := by simp [State.modGroup, *]

@[simp] theorem State.modCore_wf (s : State) (cid : Nat) (f : Core → Core) (hs : s.mem.wf = true) : (State.modCore s cid f).mem.wf = true := by simp [State.modCore, *]

@[simp] theorem State.modTeam_wf (s : State) (tid : Nat) (f : Team → Team) (hs : s.mem.wf = true) : (State.modTeam s tid f).mem.wf = true := by simp [State.modTeam, *]

@[simp] theorem State.modDie_wf (s : State) (d : Nat) (f : Die → Die) (hs : s.mem.wf = true) : (State.modDie s d f).mem.wf = true := by simp [State.modDie, *]

@[simp] theorem State.freeVal_wf (s : State) (hs : s.mem.wf = true) : (State.freeVal s).2.mem.wf = true := by simp [State.freeVal, *]

@[simp] theorem State.logErr_wf (s : State) (d : Nat) (fw : W32) (unit : Half) (addr : W64) (hs : s.mem.wf = true) : (State.logErr s d fw unit addr).mem.wf = true := by simp [State.logErr, *]

end Sys2Proof.Machine
end

