-- ==== Sys2Proof/Laws/KeepScratch.lean ====
section
/-!
SUPPORT. Memory stays in its canonical form under every function of Machine/Scratch.lean: one lemma each.
-/

namespace Sys2Proof.Machine

@[simp] theorem State.setSp_wf (s : State) (cid : Nat) (ofs : Nat) (bs : List Byte) (hs : s.mem.wf = true) : (State.setSp s cid ofs bs).mem.wf = true := by simp [State.setSp, *]

@[simp] theorem State.putMarks_wf (s : State) (cid : Nat) (prod : Nat) (word : Nat) (ofs : Nat) (bs : List MByte) (hs : s.mem.wf = true) : (State.putMarks s cid prod word ofs bs).mem.wf = true := by simp [State.putMarks, *]

@[simp] theorem State.putSp_wf (s : State) (cid : Nat) (prod : Nat) (word : Nat) (ofs : Nat) (bs : List Byte) (hs : s.mem.wf = true) : (State.putSp s cid prod word ofs bs).mem.wf = true := by simp [State.putSp, *]

@[simp] theorem State.poisonSp_wf (s : State) (cid : Nat) (ofs : Nat) (n : Nat) (hs : s.mem.wf = true) : (State.poisonSp s cid ofs n).mem.wf = true := by simp [State.poisonSp, *]

@[simp] theorem State.showSp_wf (s : State) (cid : Nat) (prods : BitVec 5) (cons : BitVec 5) (word : Nat) (hs : s.mem.wf = true) : (State.showSp s cid prods cons word).mem.wf = true := by
  unfold State.showSp
  repeat' (first | with_reducible refine ite_wf ?_ ?_ | split | (simp +contextual (maxDischargeDepth := 40) [*]; done))

@[simp] theorem State.pubSp_wf (s : State) (cid : Nat) (prods : BitVec 5) (hs : s.mem.wf = true) : (State.pubSp s cid prods).mem.wf = true := by simp [State.pubSp, *]

@[simp] theorem State.showPub_wf (s : State) (cid : Nat) (cons : BitVec 5) (hs : s.mem.wf = true) : (State.showPub s cid cons).mem.wf = true := by simp [State.showPub, *]

@[simp] theorem setWord_wf (s : State) (cid : Nat) (at_ : Nat) (target : Nat) (count : Nat) (gen : Nat) (err : Nat) (hs : s.mem.wf = true) : (setWord s cid at_ target count gen err).mem.wf = true := by simp [setWord, *]

@[simp] theorem arrive_wf (s : State) (path : Nat) (cid : Nat) (at_ : Nat) (n : Nat) (err : Nat) (hs : s.mem.wf = true) : (arrive s path cid at_ n err).mem.wf = true := by simp [arrive, *]

@[simp] theorem deliverMsg_wf (s : State) (tid : Nat) (r : Posted) (m : Msg) (hs : s.mem.wf = true) : (deliverMsg s tid r m).mem.wf = true := by simp [deliverMsg, *]

theorem placeMsg_wf {s : State} {tid : Nat} {m : Msg} {r' : _} (hr : (placeMsg s tid m) = some r') (hs : s.mem.wf = true) : r'.mem.wf = true := by
  unfold placeMsg at hr
  repeat' (first
    | with_reducible assumption
    | contradiction
    | (cases hr; done)
    | (injection hr with hr; subst hr)
    | with_reducible refine ite_wf ?_ ?_
    | (simp +contextual (maxDischargeDepth := 40) [*]; done)
    | split at hr
    | dsimp only at hr
    | dsimp only
    | split)

@[simp] theorem reachMsg_wf (s : State) (tid : Nat) (gid : Nat) (m : Msg) (hs : s.mem.wf = true) : (reachMsg s tid gid m).mem.wf = true := by
  unfold reachMsg
  split
  · next h => exact placeMsg_wf h hs
  · simp [*]

@[simp] theorem stallTurn_wf (s : State) (tid : Nat) (a2 : Nat) (hs : s.mem.wf = true) : (stallTurn s tid a2).mem.wf = true := by
  induction a2 generalizing s with
  | zero => simpa [stallTurn] using hs
  | succ n ih =>
    first | simp only [stallTurn] | unfold stallTurn
    repeat' (first
      | with_reducible assumption
      | with_reducible refine ite_wf ?_ ?_
      | (simp +contextual (maxDischargeDepth := 40) [*]; done)
      | dsimp only
      | (split <;> try (rename_i heq; first | (with_reducible have hk := globalPut_wf heq (by simp +contextual (maxDischargeDepth := 40) [*])) | (with_reducible have hk := regWrite_wf heq (by simp +contextual (maxDischargeDepth := 40) [*])) | (with_reducible have hk := devStore32_wf heq (by simp +contextual (maxDischargeDepth := 40) [*])) | (with_reducible have hk := devStore_wf heq (by simp +contextual (maxDischargeDepth := 40) [*])) | (with_reducible have hk := refuseShare_wf heq (by simp +contextual (maxDischargeDepth := 40) [*])) | (with_reducible have hk := placeMsg_wf heq (by simp +contextual (maxDischargeDepth := 40) [*])) | (simp only [Prod.ext_iff] at heq; first | obtain ⟨_, _, rfl⟩ := heq | obtain ⟨_, rfl⟩ := heq | obtain ⟨rfl, _⟩ := heq))))

end Sys2Proof.Machine
end

