-- ==== Sys2Proof/Laws/KeepOps.lean ====
section
/-!
SUPPORT. Memory stays in its canonical form under every function of Machine/Ops.lean: one lemma each.
-/

namespace Sys2Proof.Machine

@[simp] theorem restartIdle_wf (s : State) (tid : Nat) (hs : s.mem.wf = true) : (restartIdle s tid).mem.wf = true := by simp +contextual (maxDischargeDepth := 40) [restartIdle, *]

@[simp] theorem clearQueues_wf (s : State) (tid : Nat) (failed : Bool) (hs : s.mem.wf = true) : (clearQueues s tid failed).mem.wf = true := by simp [clearQueues, *]

@[simp] theorem stopThreads_wf (s : State) (tid : Nat) (hs : s.mem.wf = true) : (stopThreads s tid).mem.wf = true := by simp +contextual (maxDischargeDepth := 40) [stopThreads, *]

@[simp] theorem restartEnded_wf (s : State) (tid : Nat) (hs : s.mem.wf = true) : (restartEnded s tid).mem.wf = true := by
  unfold restartEnded
  repeat' (first | with_reducible refine ite_wf ?_ ?_ | split | (simp +contextual (maxDischargeDepth := 40) [*]; done))

@[simp] theorem leaveJob_wf (s : State) (tid : Nat) (status : W32) (failed : Bool) (hs : s.mem.wf = true) : (leaveJob s tid status failed).mem.wf = true := by
  unfold leaveJob
  repeat' (first | with_reducible refine ite_wf ?_ ?_ | split | (simp +contextual (maxDischargeDepth := 40) [*]; done))

@[simp] theorem flushTransit_wf (s : State) (key : Nat) (c : Cluster) (hs : s.mem.wf = true) : (flushTransit s key c).mem.wf = true := by
  first | simp only [flushTransit] | unfold flushTransit
  repeat' (first
    | with_reducible assumption
    | with_reducible refine ite_wf ?_ ?_
    | with_reducible refine ite_wf1 ?_ ?_
    | with_reducible refine ite_wf2 ?_ ?_
    | with_reducible refine ite_wf22 ?_ ?_
    | with_reducible refine foldl_wf _ _ _ (fun _ _ _ => ?_) ?_
    | with_reducible refine foldl_wf1 _ _ _ (fun _ _ _ => ?_) ?_
    | with_reducible refine foldl_wf2 _ _ _ (fun _ _ _ => ?_) ?_
    | with_reducible refine foldl_wf22 _ _ _ (fun _ _ _ => ?_) ?_
    | (simp +contextual (maxDischargeDepth := 40) [*]; done)
    | dsimp only
    | split)

@[simp] theorem endJob_wf (s : State) (tid : Nat) (status : W32) (failed : Bool) (hs : s.mem.wf = true) : (endJob s tid status failed).mem.wf = true := by
  first | simp only [endJob] | unfold endJob
  repeat' (first
    | with_reducible assumption
    | with_reducible refine ite_wf ?_ ?_
    | (simp +contextual (maxDischargeDepth := 40) [*]; done)
    | dsimp only
    | split)

@[simp] theorem trapEntry_wf (s : State) (gid : Nat) (ts : List Trap) (hs : s.mem.wf = true) : (trapEntry s gid ts).mem.wf = true := by simp [trapEntry, *]

@[simp] theorem doubleFault_wf (s : State) (gid : Nat) (ts : List Trap) (hs : s.mem.wf = true) : (doubleFault s gid ts).mem.wf = true := by simp [doubleFault, *]

@[simp] theorem deliver_wf (s : State) (gid : Nat) (ts : List Trap) (hs : s.mem.wf = true) : (deliver s gid ts).mem.wf = true := by
  unfold deliver
  repeat' (first | with_reducible refine ite_wf ?_ ?_ | split | (simp +contextual (maxDischargeDepth := 40) [*]; done))

@[simp] theorem passSet_wf (s : State) (gid : Nat) (m : Mask) (hs : s.mem.wf = true) : (passSet s gid m).1.mem.wf = true := by
  first | simp only [passSet] | unfold passSet
  repeat' (first
    | with_reducible assumption
    | with_reducible refine ite_wf ?_ ?_
    | with_reducible refine ite_wf1 ?_ ?_
    | with_reducible refine ite_wf2 ?_ ?_
    | with_reducible refine ite_wf22 ?_ ?_
    | with_reducible refine iteOut_wf ?_ ?_
    | with_reducible refine foldl_wf _ _ _ (fun _ _ _ => ?_) ?_
    | with_reducible refine foldl_wf1 _ _ _ (fun _ _ _ => ?_) ?_
    | with_reducible refine foldl_wf2 _ _ _ (fun _ _ _ => ?_) ?_
    | with_reducible refine foldl_wf22 _ _ _ (fun _ _ _ => ?_) ?_
    | (simp +contextual (maxDischargeDepth := 40) [*]; done)
    | dsimp only
    | (split <;> try (rename_i heq; first | (simp only [Prod.ext_iff] at heq; first | obtain ⟨_, _, rfl⟩ := heq | obtain ⟨_, rfl⟩ := heq | obtain ⟨rfl, _⟩ := heq))))

@[simp] theorem passDeliver_wf (s : State) (gid : Nat) (m : Mask) (hs : s.mem.wf = true) : (passDeliver s gid m).mem.wf = true := by simp [passDeliver, *]

@[simp] theorem Out.s_wf (self : Out) (hself_s : self.s.mem.wf = true) : (Out.s self).mem.wf = true := by simp [Out.s, *]

theorem iteOut_wf {c : Prop} [Decidable c] {s t : Out} (hs : s.s.mem.wf = true) (ht : t.s.mem.wf = true) :
    (if c then s else t).s.mem.wf = true := by split <;> assumption

@[simp] theorem Out.done_wf (s : State) (hs : s.mem.wf = true) : (Out.done s).s.mem.wf = true := by simp [Out.done, *]

@[simp] theorem Out.fail_wf (s : State) (m : Mask) (w : W32) (addr : W64) (hs : s.mem.wf = true) : (Out.fail s m w addr).s.mem.wf = true := by simp [Out.fail, *]

@[simp] theorem Out.hold_wf (s : State) (m : Mask) (hs : s.mem.wf = true) : (Out.hold s m).s.mem.wf = true := by simp [Out.hold, *]

@[simp] theorem Out.over_wf (s : State) (hs : s.mem.wf = true) : (Out.over s).s.mem.wf = true := by simp [Out.over, *]

@[simp] theorem finish_wf (gid : Nat) (act : Mask) (o : Out) (ho_s : o.s.mem.wf = true) : (finish gid act o).mem.wf = true := by
  unfold finish
  split <;> simp [*]

@[simp] theorem issueAt_wf (i : Instr) (low : Mask) (s : State) (body : At → State → Out) (hs : s.mem.wf = true) (hbody : ∀ x0 s1, s1.mem.wf = true → (body x0 s1).s.mem.wf = true) : (issueAt i low s body).mem.wf = true := by
  unfold issueAt
  repeat' (first | with_reducible refine ite_wf ?_ ?_ | split | (simp +contextual (maxDischargeDepth := 40) [*]; done))

@[simp] theorem issue_wf (i : Instr) (s : State) (body : At → State → Out) (hbody : ∀ x0 s1, s1.mem.wf = true → (body x0 s1).s.mem.wf = true) (hs : s.mem.wf = true) : (issue i s body).mem.wf = true := by
  unfold issue
  repeat' (first | with_reducible refine ite_wf ?_ ?_ | split | (simp +contextual (maxDischargeDepth := 40) [*]; done))

theorem next_wf {s : State} {r' : _} (hr : (next s) = .next r') (hs : s.mem.wf = true) : r'.mem.wf = true := by cases hr; simp [*]

@[simp] theorem waitIn_wf (s : State) (gid : Nat) (m : Mask) (i : Instr) (hs : s.mem.wf = true) : (waitIn s gid m i).mem.wf = true := by simp [waitIn, *]

end Sys2Proof.Machine
end

