-- ==== Sys2Proof/Laws/KeepFlags.lean ====
section
/-!
SUPPORT. Memory stays in its canonical form under every function of Machine/Flags.lean: one lemma each.
-/

namespace Sys2Proof.Machine

@[simp] theorem regRes_wf (w : Bool) (x : At) (s : State) (d : Opd) (f : Bool → Nat → Val) (hs : s.mem.wf = true) : (regRes w x s d f).s.mem.wf = true := by simp [regRes, *]

@[simp] theorem affRes_wf (x : At) (s : State) (d : Opd) (base : W64) (t : Int) (hs : s.mem.wf = true) : (affRes x s d base t).s.mem.wf = true := by
  first | simp only [affRes] | unfold affRes
  repeat' (first
    | with_reducible assumption
    | with_reducible refine ite_wf ?_ ?_
    | (simp +contextual (maxDischargeDepth := 40) [*]; done)
    | dsimp only
    | split)

end Sys2Proof.Machine
end

