-- ==== Sys2Proof/Laws/KeepInt.lean ====
section
/-!
SUPPORT. Memory stays in its canonical form under every function of Machine/Int.lean: one lemma each.
-/

namespace Sys2Proof.Machine

@[simp] theorem intOp_wf (i : Instr) (o : Ops) (w : Bool) (nb : Bool) (nc : Bool) (f : Nat → Nat → Nat → Nat → Nat) (s : State) (hs : s.mem.wf = true) : (intOp i o w nb nc f s).mem.wf = true := by simp +contextual (maxDischargeDepth := 40) [intOp, *]

@[simp] theorem affOp_wf (i : Instr) (o : Ops) (w : Bool) (f : Nat → Nat → Nat → Nat → Nat) (aff : W64 × Int → W64 × Int → W64 × Int) (s : State) (hs : s.mem.wf = true) : (affOp i o w f aff s).mem.wf = true := by
  unfold affOp
  repeat' (first | with_reducible refine ite_wf ?_ ?_ | split | (simp +contextual (maxDischargeDepth := 40) [*]; done))

theorem execIadd_wf {o : Ops} {w : Bool} {sat : Sat} {s : State} {r' : _} (hr : (execIadd o w sat s) = .next r') (hs : s.mem.wf = true) : r'.mem.wf = true := by cases hr; simp [*]

theorem execIsub_wf {o : Ops} {w : Bool} {sat : Sat} {s : State} {r' : _} (hr : (execIsub o w sat s) = .next r') (hs : s.mem.wf = true) : r'.mem.wf = true := by cases hr; simp [*]

theorem execImul_wf {o : Ops} {w : Bool} {sat : Sat} {s : State} {r' : _} (hr : (execImul o w sat s) = .next r') (hs : s.mem.wf = true) : r'.mem.wf = true := by cases hr; simp [*]

theorem execImulh_wf {o : Ops} {w : Bool} {u : Bool} {s : State} {r' : _} (hr : (execImulh o w u s) = .next r') (hs : s.mem.wf = true) : r'.mem.wf = true := by cases hr; simp [*]

theorem execImad_wf {o : Ops} {w : Bool} {s : State} {r' : _} (hr : (execImad o w s) = .next r') (hs : s.mem.wf = true) : r'.mem.wf = true := by cases hr; simp [*]

theorem execIaddc_wf {o : Ops} {w : Bool} {sub : Bool} {co : Option (BitVec 3)} {s : State} {r' : _} (hr : (execIaddc o w sub co s) = .next r') (hs : s.mem.wf = true) : r'.mem.wf = true := by cases hr; simp +contextual (maxDischargeDepth := 40) [*]

theorem execImin_wf {o : Ops} {w : Bool} {u : Bool} {s : State} {r' : _} (hr : (execImin o w u s) = .next r') (hs : s.mem.wf = true) : r'.mem.wf = true := by cases hr; simp [*]

theorem execImax_wf {o : Ops} {w : Bool} {u : Bool} {s : State} {r' : _} (hr : (execImax o w u s) = .next r') (hs : s.mem.wf = true) : r'.mem.wf = true := by cases hr; simp [*]

theorem execIabs_wf {o : Ops} {w : Bool} {sat : Bool} {s : State} {r' : _} (hr : (execIabs o w sat s) = .next r') (hs : s.mem.wf = true) : r'.mem.wf = true := by cases hr; simp [*]

theorem execIneg_wf {o : Ops} {w : Bool} {sat : Bool} {s : State} {r' : _} (hr : (execIneg o w sat s) = .next r') (hs : s.mem.wf = true) : r'.mem.wf = true := by cases hr; simp [*]

@[simp] theorem logicOp_wf (i : Instr) (o : Ops) (w : Bool) (f : Nat → Nat → Nat → Nat) (p : Bool → Bool → Bool) (s : State) (hs : s.mem.wf = true) : (logicOp i o w f p s).mem.wf = true := by
  unfold logicOp
  repeat' (first | with_reducible refine ite_wf ?_ ?_ | split | (simp +contextual (maxDischargeDepth := 40) [*]; done))

theorem execAnd_wf {o : Ops} {w : Bool} {s : State} {r' : _} (hr : (execAnd o w s) = .next r') (hs : s.mem.wf = true) : r'.mem.wf = true := by cases hr; simp [*]

theorem execOr_wf {o : Ops} {w : Bool} {s : State} {r' : _} (hr : (execOr o w s) = .next r') (hs : s.mem.wf = true) : r'.mem.wf = true := by cases hr; simp [*]

theorem execXor_wf {o : Ops} {w : Bool} {s : State} {r' : _} (hr : (execXor o w s) = .next r') (hs : s.mem.wf = true) : r'.mem.wf = true := by cases hr; simp [*]

theorem execNot_wf {o : Ops} {w : Bool} {s : State} {r' : _} (hr : (execNot o w s) = .next r') (hs : s.mem.wf = true) : r'.mem.wf = true := by cases hr; simp [*]

theorem execAndn_wf {o : Ops} {w : Bool} {s : State} {r' : _} (hr : (execAndn o w s) = .next r') (hs : s.mem.wf = true) : r'.mem.wf = true := by cases hr; simp [*]

theorem execShl_wf {o : Ops} {w : Bool} {s : State} {r' : _} (hr : (execShl o w s) = .next r') (hs : s.mem.wf = true) : r'.mem.wf = true := by cases hr; simp [*]

theorem execShr_wf {o : Ops} {w : Bool} {s : State} {r' : _} (hr : (execShr o w s) = .next r') (hs : s.mem.wf = true) : r'.mem.wf = true := by cases hr; simp [*]

theorem execSar_wf {o : Ops} {w : Bool} {s : State} {r' : _} (hr : (execSar o w s) = .next r') (hs : s.mem.wf = true) : r'.mem.wf = true := by cases hr; simp [*]

theorem execRot_wf {o : Ops} {w : Bool} {s : State} {r' : _} (hr : (execRot o w s) = .next r') (hs : s.mem.wf = true) : r'.mem.wf = true := by cases hr; simp [*]

theorem execPopc_wf {o : Ops} {w : Bool} {s : State} {r' : _} (hr : (execPopc o w s) = .next r') (hs : s.mem.wf = true) : r'.mem.wf = true := by cases hr; simp [*]

theorem execClz_wf {o : Ops} {w : Bool} {s : State} {r' : _} (hr : (execClz o w s) = .next r') (hs : s.mem.wf = true) : r'.mem.wf = true := by cases hr; simp [*]

theorem execCtz_wf {o : Ops} {w : Bool} {s : State} {r' : _} (hr : (execCtz o w s) = .next r') (hs : s.mem.wf = true) : r'.mem.wf = true := by cases hr; simp [*]

theorem execBrev_wf {o : Ops} {w : Bool} {s : State} {r' : _} (hr : (execBrev o w s) = .next r') (hs : s.mem.wf = true) : r'.mem.wf = true := by cases hr; simp [*]

theorem execBfe_wf {o : Ops} {w : Bool} {sx : Bool} {s : State} {r' : _} (hr : (execBfe o w sx s) = .next r') (hs : s.mem.wf = true) : r'.mem.wf = true := by cases hr; simp [*]

theorem execBfi_wf {o : Ops} {w : Bool} {s : State} {r' : _} (hr : (execBfi o w s) = .next r') (hs : s.mem.wf = true) : r'.mem.wf = true := by cases hr; simp [*]

theorem execPrmt_wf {o : Ops} {s : State} {r' : _} (hr : (execPrmt o s) = .next r') (hs : s.mem.wf = true) : r'.mem.wf = true := by cases hr; simp +contextual (maxDischargeDepth := 40) [*]

theorem execIcmp_wf {o : Ops} {w : Bool} {cond : ICond} {u : Bool} {comb : Comb} {s : State} {r' : _} (hr : (execIcmp o w cond u comb s) = .next r') (hs : s.mem.wf = true) : r'.mem.wf = true := by cases hr; simp +contextual (maxDischargeDepth := 40) [*]

theorem execIsel_wf {o : Ops} {w : Bool} {s : State} {r' : _} (hr : (execIsel o w s) = .next r') (hs : s.mem.wf = true) : r'.mem.wf = true := by cases hr; simp +contextual (maxDischargeDepth := 40) [*]

theorem execMov_wf {o : Ops} {w : Bool} {s : State} {r' : _} (hr : (execMov o w s) = .next r') (hs : s.mem.wf = true) : r'.mem.wf = true := by cases hr; simp [*]

theorem execMovi_wf {o : Ops} {w : Bool} {z : Bool} {s : State} {r' : _} (hr : (execMovi o w z s) = .next r') (hs : s.mem.wf = true) : r'.mem.wf = true := by cases hr; simp +contextual (maxDischargeDepth := 40) [*]

theorem execMovh_wf {o : Ops} {s : State} {r' : _} (hr : (execMovh o s) = .next r') (hs : s.mem.wf = true) : r'.mem.wf = true := by cases hr; simp +contextual (maxDischargeDepth := 40) [*]

theorem execLea_wf {o : Ops} {scale : BitVec 3} {idx : Idx} {s : State} {r' : _} (hr : (execLea o scale idx s) = .next r') (hs : s.mem.wf = true) : r'.mem.wf = true := by
  cases hr
  refine issue_wf _ _ _ (fun _ _ h => ?_) hs
  repeat' (first | split | (simp +contextual (maxDischargeDepth := 40) [*]; done))

theorem execPromv_wf {o : Ops} {form : Prom} {s : State} {r' : _} (hr : (execPromv o form s) = .next r') (hs : s.mem.wf = true) : r'.mem.wf = true := by cases hr; simp +contextual (maxDischargeDepth := 40) [*]

theorem execProma_wf {o : Ops} {s : State} {r' : _} (hr : (execProma o s) = .next r') (hs : s.mem.wf = true) : r'.mem.wf = true := by cases hr; simp +contextual (maxDischargeDepth := 40) [*]

theorem execAstr_wf {o : Ops} {s : State} {r' : _} (hr : (execAstr o s) = .next r') (hs : s.mem.wf = true) : r'.mem.wf = true := by
  cases hr
  refine issue_wf _ _ _ (fun _ _ h => ?_) hs
  repeat' (first | split | (simp +contextual (maxDischargeDepth := 40) [*]; done))

theorem execAbase_wf {o : Ops} {s : State} {r' : _} (hr : (execAbase o s) = .next r') (hs : s.mem.wf = true) : r'.mem.wf = true := by
  cases hr
  refine issue_wf _ _ _ (fun _ _ h => ?_) hs
  repeat' (first | split | (simp +contextual (maxDischargeDepth := 40) [*]; done))

end Sys2Proof.Machine
end

