-- ==== Sys2Proof/Laws/KeepFloat.lean ====
section
/-!
SUPPORT. Memory stays in its canonical form under every function of Machine/Float.lean: one lemma each.
-/

namespace Sys2Proof.Machine

@[simp] theorem fpOp_wf (i : Instr) (o : Ops) (f : Nat → Nat → Nat → FR) (s : State) (hs : s.mem.wf = true) : (fpOp i o f s).mem.wf = true := by simp +contextual (maxDischargeDepth := 40) [fpOp, *]

theorem execFadd_wf {o : Ops} {rm : Rm} {s : State} {r' : _} (hr : (execFadd o rm s) = .next r') (hs : s.mem.wf = true) : r'.mem.wf = true := by cases hr; simp [*]

theorem execFsub_wf {o : Ops} {rm : Rm} {s : State} {r' : _} (hr : (execFsub o rm s) = .next r') (hs : s.mem.wf = true) : r'.mem.wf = true := by cases hr; simp [*]

theorem execFmul_wf {o : Ops} {rm : Rm} {s : State} {r' : _} (hr : (execFmul o rm s) = .next r') (hs : s.mem.wf = true) : r'.mem.wf = true := by cases hr; simp [*]

theorem execFfma_wf {o : Ops} {rm : Rm} {np : Bool} {nc : Bool} {s : State} {r' : _} (hr : (execFfma o rm np nc s) = .next r') (hs : s.mem.wf = true) : r'.mem.wf = true := by cases hr; simp [*]

theorem execFmin_wf {o : Ops} {s : State} {r' : _} (hr : (execFmin o s) = .next r') (hs : s.mem.wf = true) : r'.mem.wf = true := by cases hr; simp [*]

theorem execFmax_wf {o : Ops} {s : State} {r' : _} (hr : (execFmax o s) = .next r') (hs : s.mem.wf = true) : r'.mem.wf = true := by cases hr; simp [*]

theorem execFminn_wf {o : Ops} {s : State} {r' : _} (hr : (execFminn o s) = .next r') (hs : s.mem.wf = true) : r'.mem.wf = true := by cases hr; simp [*]

theorem execFmaxn_wf {o : Ops} {s : State} {r' : _} (hr : (execFmaxn o s) = .next r') (hs : s.mem.wf = true) : r'.mem.wf = true := by cases hr; simp [*]

theorem execFcmp_wf {o : Ops} {cond : FCond} {comb : Comb} {s : State} {r' : _} (hr : (execFcmp o cond comb s) = .next r') (hs : s.mem.wf = true) : r'.mem.wf = true := by cases hr; simp +contextual (maxDischargeDepth := 40) [*]

theorem execFclass_wf {o : Ops} {s : State} {r' : _} (hr : (execFclass o s) = .next r') (hs : s.mem.wf = true) : r'.mem.wf = true := by cases hr; simp [*]

theorem execFrnd_wf {o : Ops} {rm : Rm} {s : State} {r' : _} (hr : (execFrnd o rm s) = .next r') (hs : s.mem.wf = true) : r'.mem.wf = true := by cases hr; simp [*]

theorem execFcvt_wf {o : Ops} {rm : Rm} {kind : Cvt} {s : State} {r' : _} (hr : (execFcvt o rm kind s) = .next r') (hs : s.mem.wf = true) : r'.mem.wf = true := by cases hr; simp +contextual (maxDischargeDepth := 40) [*]

theorem execBfcvt_wf {o : Ops} {rm : Rm} {sat : Bool} {s : State} {r' : _} (hr : (execBfcvt o rm sat s) = .next r') (hs : s.mem.wf = true) : r'.mem.wf = true := by cases hr; simp +contextual (maxDischargeDepth := 40) [*]

theorem execBfext_wf {o : Ops} {hi : Bool} {s : State} {r' : _} (hr : (execBfext o hi s) = .next r') (hs : s.mem.wf = true) : r'.mem.wf = true := by cases hr; simp [*]

theorem execBadd2_wf {o : Ops} {rm : Rm} {s2 : Bool} {s : State} {r' : _} (hr : (execBadd2 o rm s2 s) = .next r') (hs : s.mem.wf = true) : r'.mem.wf = true := by cases hr; simp [*]

theorem execBmul2_wf {o : Ops} {rm : Rm} {s2 : Bool} {s : State} {r' : _} (hr : (execBmul2 o rm s2 s) = .next r') (hs : s.mem.wf = true) : r'.mem.wf = true := by cases hr; simp [*]

theorem execBfma2_wf {o : Ops} {rm : Rm} {s2 : Bool} {s : State} {r' : _} (hr : (execBfma2 o rm s2 s) = .next r') (hs : s.mem.wf = true) : r'.mem.wf = true := by cases hr; simp [*]

theorem execFdot2_wf {o : Ops} {rm : Rm} {s : State} {r' : _} (hr : (execFdot2 o rm s) = .next r') (hs : s.mem.wf = true) : r'.mem.wf = true := by cases hr; simp [*]

theorem execFexp2_wf {o : Ops} {s : State} {r' : _} (hr : (execFexp2 o s) = .next r') (hs : s.mem.wf = true) : r'.mem.wf = true := by cases hr; simp [*]

theorem execFlog2_wf {o : Ops} {s : State} {r' : _} (hr : (execFlog2 o s) = .next r') (hs : s.mem.wf = true) : r'.mem.wf = true := by cases hr; simp [*]

theorem execFrcp_wf {o : Ops} {s : State} {r' : _} (hr : (execFrcp o s) = .next r') (hs : s.mem.wf = true) : r'.mem.wf = true := by cases hr; simp [*]

theorem execFrsq_wf {o : Ops} {s : State} {r' : _} (hr : (execFrsq o s) = .next r') (hs : s.mem.wf = true) : r'.mem.wf = true := by cases hr; simp [*]

theorem execFsqrt_wf {o : Ops} {s : State} {r' : _} (hr : (execFsqrt o s) = .next r') (hs : s.mem.wf = true) : r'.mem.wf = true := by cases hr; simp [*]

theorem execFsin_wf {o : Ops} {s : State} {r' : _} (hr : (execFsin o s) = .next r') (hs : s.mem.wf = true) : r'.mem.wf = true := by cases hr; simp [*]

theorem execFcos_wf {o : Ops} {s : State} {r' : _} (hr : (execFcos o s) = .next r') (hs : s.mem.wf = true) : r'.mem.wf = true := by cases hr; simp [*]

theorem execFtanh_wf {o : Ops} {s : State} {r' : _} (hr : (execFtanh o s) = .next r') (hs : s.mem.wf = true) : r'.mem.wf = true := by cases hr; simp [*]

theorem execFscl_wf {o : Ops} {rm : Rm} {s : State} {r' : _} (hr : (execFscl o rm s) = .next r') (hs : s.mem.wf = true) : r'.mem.wf = true := by cases hr; simp [*]

theorem execRng_wf {o : Ops} {f : Bool} {s : State} {r' : _} (hr : (execRng o f s) = .next r') (hs : s.mem.wf = true) : r'.mem.wf = true := by cases hr; simp +contextual (maxDischargeDepth := 40) [*]

end Sys2Proof.Machine
end

