-- ==== Sys2Proof/Laws/KeepAccess.lean ====
section
/-!
SUPPORT. Memory stays in its canonical form under every function of Machine/Access.lean: one lemma each.
-/

namespace Sys2Proof.Machine

@[simp] theorem seeTarget_wf (s : State) (cid : Nat) (nt : Bool) (lu : Bool) (len : Nat) (a5 : Target) (hs : s.mem.wf = true) : (seeTarget s cid nt lu len a5).2.mem.wf = true := by
  first | simp only [seeTarget] | unfold seeTarget
  repeat' (first
    | with_reducible assumption
    | with_reducible refine ite_wf ?_ ?_
    | (simp +contextual (maxDischargeDepth := 40) [*]; done)
    | dsimp only
    | split)

@[simp] theorem readTarget_wf (s : State) (cid : Nat) (nt : Bool) (lu : Bool) (len : Nat) (t : Target) (hs : s.mem.wf = true) : (readTarget s cid nt lu len t).2.2.mem.wf = true := by simp [readTarget, *]

@[simp] theorem writeParts_wf (s : State) (gid : Nat) (m : Mask) (nt : Bool) (lu : Bool) (xs : List Xl) (bs : List Byte) (hs : s.mem.wf = true) :
    (writeParts s gid m nt lu xs bs).mem.wf = true := by
  induction xs generalizing s bs with
  | nil => exact hs
  | cons x t ih => exact ih _ _ (storeXl_wf _ _ _ _ _ _ _ hs)

@[simp] theorem writeTarget_wf (s : State) (gid : Nat) (m : Mask) (nt : Bool) (lu : Bool) (bs : List Byte) (a6 : Target) (hs : s.mem.wf = true) : (writeTarget s gid m nt lu bs a6).mem.wf = true := by
  unfold writeTarget
  repeat' (first | with_reducible refine ite_wf ?_ ?_ | split | (simp +contextual (maxDischargeDepth := 40) [*]; done))

@[simp] theorem atomPrepare_wf (s : State) (cid : Nat) (scope : Scope) (t : Target) (hs : s.mem.wf = true) : (atomPrepare s cid scope t).2.mem.wf = true := by
  unfold atomPrepare
  repeat' (first | with_reducible refine ite_wf ?_ ?_ | split | (simp +contextual (maxDischargeDepth := 40) [*]; done))

@[simp] theorem atomic_wf (s : State) (gid : Nat) (lane : Nat) (aop : AOp) (sz : Bool) (scope : Scope) (t : Target) (data : List Byte)
    (hs : s.mem.wf = true) : (atomic s gid lane aop sz scope t data).2.mem.wf = true := by
  have h1 := atomPrepare_wf s (cidOf gid) scope t hs
  unfold atomic
  generalize atomPrepare s (cidOf gid) scope t = p at h1 ⊢
  obtain ⟨t1, s1⟩ := p
  dsimp only at h1 ⊢
  have h2 : (if atomUp s1 (cidOf gid) t1 = true then seeTarget s1 (cidOf gid) false false (if sz then 8 else 4) t1
      else (marked (List.replicate (if sz then 8 else 4) 0#8) false, s1)).2.mem.wf = true := ite_wf2 (seeTarget_wf _ _ _ _ _ _ h1) h1
  generalize (if atomUp s1 (cidOf gid) t1 = true then seeTarget s1 (cidOf gid) false false (if sz then 8 else 4) t1
      else (marked (List.replicate (if sz then 8 else 4) 0#8) false, s1)) = q at h2 ⊢
  exact ite_wf2 (writeTarget_wf _ _ _ _ _ _ _ h2) (State.freeVal_wf _ (writeTarget_wf _ _ _ _ _ _ _ h2))

@[simp] theorem finishPush_wf (s : State) (gid : Nat) (a : Access) (hs : s.mem.wf = true) : (finishPush s gid a).mem.wf = true := by
  unfold finishPush
  repeat' (first | with_reducible refine ite_wf ?_ ?_ | split | (simp +contextual (maxDischargeDepth := 40) [*]; done))

@[simp] theorem cacheOp_wf (s : State) (cid : Nat) (i : Instr) (pa : Nat) (hs : s.mem.wf = true) : (cacheOp s cid i pa).mem.wf = true := by
  unfold cacheOp
  repeat' (first | with_reducible refine ite_wf ?_ ?_ | split | (simp +contextual (maxDischargeDepth := 40) [*]; done))

@[simp] theorem access_wf (s : State) (gid : Nat) (i : Instr) (a : Access) (hs : s.mem.wf = true) : (access s gid i a).2.mem.wf = true := by
  unfold access
  dsimp only
  have hw : (if (isRel i && (wideScope (ordOf i).2 && a.acts)) = true then l1WriteBack s (cidOf gid) true false else s).mem.wf = true :=
    ite_wf (l1WriteBack_wf _ _ _ _ hs) hs
  generalize (if (isRel i && (wideScope (ordOf i).2 && a.acts)) = true then l1WriteBack s (cidOf gid) true false else s) = u at hw ⊢
  refine ite_wf (l1Acquire_wf _ _ ?_) ?_
  all_goals
    split
    · refine ite_wf (l1CleanLine_wf _ _ _ _ ?_) ?_
      all_goals repeat' (first | with_reducible refine ite_wf2 ?_ ?_ | split | (simp +contextual (maxDischargeDepth := 40) [*]; done))
    · repeat' (first | with_reducible refine ite_wf2 ?_ ?_ | split | (simp +contextual (maxDischargeDepth := 40) [*]; done))

@[simp] theorem acquireAt_wf (s : State) (gid : Nat) (scope : Scope) (hs : s.mem.wf = true) : (acquireAt s gid scope).mem.wf = true := by
  unfold acquireAt
  split <;> simp [*]

end Sys2Proof.Machine
end

