-- ==== Sys2Proof/Laws/KeepPerform.lean ====
section
/-!
SUPPORT. Memory stays in its canonical form under every function of Machine/Perform.lean: one lemma each.
-/

namespace Sys2Proof.Machine

@[simp] theorem performPend_wf (s : State) (gid : Nat) (p : Pend) (hs : s.mem.wf = true) : (performPend s gid p).mem.wf = true := by
  first | simp only [performPend] | unfold performPend
  repeat' (first
    | with_reducible assumption
    | with_reducible refine ite_wf ?_ ?_
    | (simp +contextual (maxDischargeDepth := 40) [*]; done)
    | dsimp only
    | split)

@[simp] theorem settleFor_wf (s : State) (gid : Nat) (p : Pend) (hs : s.mem.wf = true) : (settleFor s gid p).mem.wf = true := by simp +contextual (maxDischargeDepth := 40) [settleFor, *]

@[simp] theorem performAfter_wf (s : State) (gid : Nat) (p : Pend) (hs : s.mem.wf = true) : (performAfter s gid p).mem.wf = true := by simp [performAfter, *]

@[simp] theorem settle_wf (s : State) (gid : Nat) (f : Pend → Bool) (hs : s.mem.wf = true) : (settle s gid f).mem.wf = true := by simp +contextual (maxDischargeDepth := 40) [settle, *]

@[simp] theorem settleAll_wf (s : State) (gid : Nat) (hs : s.mem.wf = true) : (settleAll s gid).mem.wf = true := by simp [settleAll, *]

@[simp] theorem releaseAt_wf (s : State) (gid : Nat) (scope : Scope) (hs : s.mem.wf = true) : (releaseAt s gid scope).mem.wf = true := by
  unfold releaseAt
  repeat' (first | with_reducible refine ite_wf ?_ ?_ | split | (simp +contextual (maxDischargeDepth := 40) [*]; done))

@[simp] theorem fenceAt_wf (s : State) (gid : Nat) (m : Mask) (scope : Scope) (hs : s.mem.wf = true) : (fenceAt s gid m scope).mem.wf = true := by
  unfold fenceAt
  repeat' (first | with_reducible refine ite_wf ?_ ?_ | split | (simp +contextual (maxDischargeDepth := 40) [*]; done))

end Sys2Proof.Machine
end

