-- ==== Sys2Proof/Laws/KeepJobs.lean ====
section
/-!
SUPPORT. Memory stays in its canonical form under every function of Machine/Jobs.lean: one lemma each.
-/

namespace Sys2Proof.Machine

theorem globalPut_wf {s : State} {c : Ctx} {a : W64} {bs : List Byte} {r' : _} (hr : (globalPut s c a bs) = .ok r') (hs : s.mem.wf = true) : r'.mem.wf = true := by
  unfold globalPut at hr
  repeat' (first
    | with_reducible assumption
    | contradiction
    | (cases hr; done)
    | (injection hr with hr; subst hr)
    | with_reducible refine ite_wf ?_ ?_
    | (simp +contextual (maxDischargeDepth := 40) [*]; done)
    | split at hr
    | dsimp only at hr
    | dsimp only
    | split)

@[simp] theorem enterJob_wf (s : State) (tid : Nat) (j : Job) (hs : s.mem.wf = true) : (enterJob s tid j).mem.wf = true := by
  first | simp only [enterJob] | unfold enterJob
  repeat' (first
    | with_reducible assumption
    | with_reducible refine ite_wf ?_ ?_
    | (simp +contextual (maxDischargeDepth := 40) [*]; done)
    | dsimp only
    | split)

@[simp] theorem grantHead_wf (s : State) (cid : Nat) (hs : s.mem.wf = true) : (grantHead s cid).mem.wf = true := by
  first | simp only [grantHead] | unfold grantHead
  repeat' (first
    | with_reducible assumption
    | with_reducible refine ite_wf ?_ ?_
    | (simp +contextual (maxDischargeDepth := 40) [*]; done)
    | dsimp only
    | split)

@[simp] theorem deadHead_wf (s : State) (cid : Nat) (hs : s.mem.wf = true) : (deadHead s cid).mem.wf = true := by
  first | simp only [deadHead] | unfold deadHead
  repeat' (first
    | with_reducible assumption
    | with_reducible refine ite_wf ?_ ?_
    | (simp +contextual (maxDischargeDepth := 40) [*]; done)
    | dsimp only
    | split)

@[simp] theorem grantAll_wf (s : State) (cid : Nat) (a2 : Nat) (hs : s.mem.wf = true) : (grantAll s cid a2).mem.wf = true := by
  revert hs
  fun_induction grantAll s cid a2 <;> intro hs
  all_goals
    repeat' (first
    | with_reducible assumption
    | (simp +contextual +zetaDelta (maxDischargeDepth := 40) [*]; done)
    | split)

@[simp] theorem blockTurn_wf (s : State) (cid : Nat) (hs : s.mem.wf = true) : (blockTurn s cid).mem.wf = true := by
  unfold blockTurn
  repeat' (first | with_reducible refine ite_wf ?_ ?_ | split | (simp +contextual (maxDischargeDepth := 40) [*]; done))

@[simp] theorem launchJob_wf (s : State) (tid : Nat) (j : Job) (hs : s.mem.wf = true) : (launchJob s tid j).mem.wf = true := by
  unfold launchJob
  repeat' (first | with_reducible refine ite_wf ?_ ?_ | split | (simp +contextual (maxDischargeDepth := 40) [*]; done))

@[simp] theorem groupEnd_wf (s : State) (gid : Nat) (hs : s.mem.wf = true) : (groupEnd s gid).mem.wf = true := by
  unfold groupEnd
  repeat' (first | with_reducible refine ite_wf ?_ ?_ | split | (simp +contextual (maxDischargeDepth := 40) [*]; done))

@[simp] theorem leaveMask_wf (s : State) (gid : Nat) (m : Mask) (hs : s.mem.wf = true) : (leaveMask s gid m).mem.wf = true := by
  unfold leaveMask
  repeat' (first | with_reducible refine ite_wf ?_ ?_ | split | (simp +contextual (maxDischargeDepth := 40) [*]; done))

end Sys2Proof.Machine
end

