-- ==== Sys2Proof/Laws/KeepControl.lean ====
section
/-!
SUPPORT. Memory stays in its canonical form under every function of Machine/Control.lean: one lemma each.
-/

namespace Sys2Proof.Machine

@[simp] theorem settleStack_wf (s : State) (gid : Nat) (lane : Nat) (hs : s.mem.wf = true) : (settleStack s gid lane).mem.wf = true := by simp [settleStack, *]

@[simp] theorem pushRet_wf (s : State) (gid : Nat) (lane : Nat) (ra : W64) (hs : s.mem.wf = true) : (pushRet s gid lane ra).mem.wf = true := by
  first | simp only [pushRet] | unfold pushRet
  repeat' (first
    | with_reducible assumption
    | with_reducible refine ite_wf ?_ ?_
    | (simp +contextual (maxDischargeDepth := 40) [*]; done)
    | dsimp only
    | split)

@[simp] theorem popRet_wf (s : State) (gid : Nat) (lane : Nat) (hs : s.mem.wf = true) : (popRet s gid lane).mem.wf = true := by
  first | simp only [popRet] | unfold popRet
  repeat' (first
    | with_reducible assumption
    | with_reducible refine ite_wf ?_ ?_
    | (simp +contextual (maxDischargeDepth := 40) [*]; done)
    | dsimp only
    | split)

@[simp] theorem transfer_wf (x : At) (take : Mask) (tgt : Nat → W64) (pre : Nat → Option W32) (post : Nat → Option W32) (eff : State → Nat → State) (s : State) (heff : ∀ s0 x1, s0.mem.wf = true → (eff s0 x1).mem.wf = true) (hs : s.mem.wf = true) : (transfer x take tgt pre post eff s).s.mem.wf = true := by
  first | simp only [transfer] | unfold transfer
  repeat' (first
    | with_reducible assumption
    | with_reducible refine ite_wf ?_ ?_
    | with_reducible refine ite_wf1 ?_ ?_
    | with_reducible refine ite_wf2 ?_ ?_
    | with_reducible refine ite_wf22 ?_ ?_
    | with_reducible refine iteOut_wf ?_ ?_
    | with_reducible refine foldl_wf _ _ _ (fun _ _ _ => ?_) ?_
    | with_reducible refine foldl_wf1 _ _ _ (fun _ _ _ => ?_) ?_
    | with_reducible refine foldl_wf2 _ _ _ (fun _ _ _ => ?_) ?_
    | with_reducible refine foldl_wf22 _ _ _ (fun _ _ _ => ?_) ?_
    | (simp +contextual (maxDischargeDepth := 40) [*]; done)
    | dsimp only
    | (split <;> try (rename_i heq; first | (with_reducible have hk := globalPut_wf heq (by simp +contextual (maxDischargeDepth := 40) [*])) | (simp only [Prod.ext_iff] at heq; first | obtain ⟨_, _, rfl⟩ := heq | obtain ⟨_, rfl⟩ := heq | obtain ⟨rfl, _⟩ := heq))))

@[simp] theorem popLoop_wf (gid : Nat) (pop : Bool) (s : State) (l : Nat) (hs : s.mem.wf = true) : (popLoop gid pop s l).mem.wf = true := by
  unfold popLoop
  split <;> simp [*]

theorem execBra_wf {o : Ops} {nq : Bool} {pop : Bool} {s : State} {r' : _} (hr : (execBra o nq pop s) = .next r') (hs : s.mem.wf = true) : r'.mem.wf = true := by cases hr; simp +contextual (maxDischargeDepth := 40) [*]

theorem execBrx_wf {o : Ops} {pop : Bool} {s : State} {r' : _} (hr : (execBrx o pop s) = .next r') (hs : s.mem.wf = true) : r'.mem.wf = true := by cases hr; simp +contextual (maxDischargeDepth := 40) [*]

theorem execCall_wf {o : Ops} {s : State} {r' : _} (hr : (execCall o s) = .next r') (hs : s.mem.wf = true) : r'.mem.wf = true := by cases hr; simp +contextual (maxDischargeDepth := 40) [*]

theorem execCallx_wf {o : Ops} {s : State} {r' : _} (hr : (execCallx o s) = .next r') (hs : s.mem.wf = true) : r'.mem.wf = true := by cases hr; simp +contextual (maxDischargeDepth := 40) [*]

theorem execRet_wf {o : Ops} {s : State} {r' : _} (hr : (execRet o s) = .next r') (hs : s.mem.wf = true) : r'.mem.wf = true := by cases hr; simp +contextual (maxDischargeDepth := 40) [*]

@[simp] theorem loopFault_wf (s : State) (x : At) (l : Nat) (p : W64) (stop : W64) (n : W32) (hs : s.mem.wf = true) : (loopFault s x l p stop n).2.mem.wf = true := by
  first | simp only [loopFault] | unfold loopFault
  repeat' (first
    | with_reducible assumption
    | with_reducible refine ite_wf ?_ ?_
    | (simp +contextual (maxDischargeDepth := 40) [*]; done)
    | dsimp only
    | (split <;> try (rename_i heq; first | (with_reducible have hk := globalPut_wf heq (by simp +contextual (maxDischargeDepth := 40) [*])) | (simp only [Prod.ext_iff] at heq; first | obtain ⟨_, _, rfl⟩ := heq | obtain ⟨_, rfl⟩ := heq | obtain ⟨rfl, _⟩ := heq))))

theorem execLoop_wf {o : Ops} {len : BitVec 10} {s : State} {r' : _} (hr : (execLoop o len s) = .next r') (hs : s.mem.wf = true) : r'.mem.wf = true := by
  simp only [execLoop, next, Host.Outcome.next.injEq] at hr
  subst hr
  repeat' (first
    | with_reducible assumption
    | with_reducible refine ite_wf ?_ ?_
    | with_reducible refine ite_wf1 ?_ ?_
    | with_reducible refine ite_wf2 ?_ ?_
    | with_reducible refine ite_wf22 ?_ ?_
    | with_reducible refine iteOut_wf ?_ ?_
    | with_reducible refine foldl_wf _ _ _ (fun _ _ _ => ?_) ?_
    | with_reducible refine foldl_wf1 _ _ _ (fun _ _ _ => ?_) ?_
    | with_reducible refine foldl_wf2 _ _ _ (fun _ _ _ => ?_) ?_
    | with_reducible refine foldl_wf22 _ _ _ (fun _ _ _ => ?_) ?_
    | (simp +contextual (maxDischargeDepth := 40) [*]; done)
    | with_reducible refine issue_wf _ _ _ (fun _ _ _ => ?_) ?_
    | with_reducible refine transfer_wf _ _ _ _ _ _ _ (fun _ _ _ => ?_) ?_
    | with_reducible refine waitThen_wf _ _ _ (fun _ _ _ => ?_) ?_
    | dsimp only
    | (split <;> try (rename_i heq; first | (with_reducible have hk := globalPut_wf heq (by simp +contextual (maxDischargeDepth := 40) [*])) | (simp only [Prod.ext_iff] at heq; first | obtain ⟨_, _, rfl⟩ := heq | obtain ⟨_, rfl⟩ := heq | obtain ⟨rfl, _⟩ := heq))))

@[simp] theorem tryConv_wf (s : State) (gid : Nat) (hs : s.mem.wf = true) : (tryConv s gid).mem.wf = true := by
  unfold tryConv
  repeat' (first | with_reducible refine ite_wf ?_ ?_ | split | (simp +contextual (maxDischargeDepth := 40) [*]; done))

@[simp] theorem waitThen_wf (i : Instr) (try_ : State → Nat → State) (s : State) (htry_ : ∀ s0 x1, s0.mem.wf = true → (try_ s0 x1).mem.wf = true) (hs : s.mem.wf = true) : (waitThen i try_ s).mem.wf = true := by
  unfold waitThen
  repeat' (first | with_reducible refine ite_wf ?_ ?_ | split | (simp +contextual (maxDischargeDepth := 40) [*]; done))

theorem execConv_wf {o : Ops} {s : State} {r' : _} (hr : (execConv o s) = .next r') (hs : s.mem.wf = true) : r'.mem.wf = true := by cases hr; simp +contextual (maxDischargeDepth := 40) [*]

theorem execConvRelease_wf {g : Nat} {s : State} {r' : _} (hr : (execConvRelease g s) = .next r') (hs : s.mem.wf = true) : r'.mem.wf = true := by cases hr; simp [*]

@[simp] theorem tryWait_wf (s : State) (gid : Nat) (hs : s.mem.wf = true) : (tryWait s gid).mem.wf = true := by simp [tryWait, *]

theorem execWait_wf {o : Ops} {s : State} {r' : _} (hr : (execWait o s) = .next r') (hs : s.mem.wf = true) : r'.mem.wf = true := by cases hr; simp +contextual (maxDischargeDepth := 40) [*]

theorem execWaitRelease_wf {g : Nat} {s : State} {r' : _} (hr : (execWaitRelease g s) = .next r') (hs : s.mem.wf = true) : r'.mem.wf = true := by cases hr; simp [*]

@[simp] theorem tryExit_wf (s : State) (gid : Nat) (hs : s.mem.wf = true) : (tryExit s gid).mem.wf = true := by simp [tryExit, *]

theorem execExit_wf {o : Ops} {s : State} {r' : _} (hr : (execExit o s) = .next r') (hs : s.mem.wf = true) : r'.mem.wf = true := by cases hr; simp +contextual (maxDischargeDepth := 40) [*]

theorem execExitComplete_wf {g : Nat} {lane : BitVec 5} {s : State} {r' : _} (hr : (execExitComplete g lane s) = .next r') (hs : s.mem.wf = true) : r'.mem.wf = true := by cases hr; simp [*]

theorem execYield_wf {o : Ops} {s : State} {r' : _} (hr : (execYield o s) = .next r') (hs : s.mem.wf = true) : r'.mem.wf = true := by cases hr; simp +contextual (maxDischargeDepth := 40) [*]

theorem execNop_wf {o : Ops} {s : State} {r' : _} (hr : (execNop o s) = .next r') (hs : s.mem.wf = true) : r'.mem.wf = true := by cases hr; simp +contextual (maxDischargeDepth := 40) [*]

theorem execTrap_wf {o : Ops} {s : State} {r' : _} (hr : (execTrap o s) = .next r') (hs : s.mem.wf = true) : r'.mem.wf = true := by cases hr; simp +contextual (maxDischargeDepth := 40) [*]

theorem execBrk_wf {o : Ops} {s : State} {r' : _} (hr : (execBrk o s) = .next r') (hs : s.mem.wf = true) : r'.mem.wf = true := by cases hr; simp +contextual (maxDischargeDepth := 40) [*]

theorem execTrapEnd_wf {o : Ops} {s : State} {r' : _} (hr : (execTrapEnd o s) = .next r') (hs : s.mem.wf = true) : r'.mem.wf = true := by
  cases hr
  refine issue_wf _ _ _ (fun _ _ h => ?_) hs
  repeat' (first | split | (simp +contextual (maxDischargeDepth := 40) [*]; done))

theorem execTret_wf {o : Ops} {nx : Bool} {s : State} {r' : _} (hr : (execTret o nx s) = .next r') (hs : s.mem.wf = true) : r'.mem.wf = true := by cases hr; simp +contextual (maxDischargeDepth := 40) [*]

theorem execVote_wf {o : Ops} {mode : VMode} {s : State} {r' : _} (hr : (execVote o mode s) = .next r') (hs : s.mem.wf = true) : r'.mem.wf = true := by cases hr; simp +contextual (maxDischargeDepth := 40) [*]

theorem execElect_wf {o : Ops} {s : State} {r' : _} (hr : (execElect o s) = .next r') (hs : s.mem.wf = true) : r'.mem.wf = true := by cases hr; simp +contextual (maxDischargeDepth := 40) [*]

theorem execShfl_wf {o : Ops} {mode : SMode} {seg : Seg} {s : State} {r' : _} (hr : (execShfl o mode seg s) = .next r') (hs : s.mem.wf = true) : r'.mem.wf = true := by cases hr; simp +contextual (maxDischargeDepth := 40) [*]

theorem execRdlane_wf {o : Ops} {s : State} {r' : _} (hr : (execRdlane o s) = .next r') (hs : s.mem.wf = true) : r'.mem.wf = true := by cases hr; simp +contextual (maxDischargeDepth := 40) [*]

theorem execWrlane_wf {o : Ops} {s : State} {r' : _} (hr : (execWrlane o s) = .next r') (hs : s.mem.wf = true) : r'.mem.wf = true := by cases hr; simp +contextual (maxDischargeDepth := 40) [*]

theorem execRedi_wf {o : Ops} {op : RedI} {u : Bool} {s : State} {r' : _} (hr : (execRedi o op u s) = .next r') (hs : s.mem.wf = true) : r'.mem.wf = true := by cases hr; simp +contextual (maxDischargeDepth := 40) [*]

theorem execRedf_wf {o : Ops} {op : RedF} {s : State} {r' : _} (hr : (execRedf o op s) = .next r') (hs : s.mem.wf = true) : r'.mem.wf = true := by cases hr; simp +contextual (maxDischargeDepth := 40) [*]

theorem execRedmaxi_wf {o : Ops} {i : Bool} {s : State} {r' : _} (hr : (execRedmaxi o i s) = .next r') (hs : s.mem.wf = true) : r'.mem.wf = true := by cases hr; simp +contextual (maxDischargeDepth := 40) [*]

theorem execMatchLanes_wf {o : Ops} {s : State} {r' : _} (hr : (execMatchLanes o s) = .next r') (hs : s.mem.wf = true) : r'.mem.wf = true := by cases hr; simp +contextual (maxDischargeDepth := 40) [*]

theorem execIsect_wf {o : Ops} {s : State} {r' : _} (hr : (execIsect o s) = .next r') (hs : s.mem.wf = true) : r'.mem.wf = true := by cases hr; simp +contextual (maxDischargeDepth := 40) [*]

theorem execScnt_wf {o : Ops} {inc : Bool} {s : State} {r' : _} (hr : (execScnt o inc s) = .next r') (hs : s.mem.wf = true) : r'.mem.wf = true := by cases hr; simp +contextual (maxDischargeDepth := 40) [*]

theorem execGetsr_wf {o : Ops} {s : State} {r' : _} (hr : (execGetsr o s) = .next r') (hs : s.mem.wf = true) : r'.mem.wf = true := by cases hr; simp +contextual (maxDischargeDepth := 40) [*]

theorem execSetsr_wf {o : Ops} {op : SrOp} {s : State} {r' : _} (hr : (execSetsr o op s) = .next r') (hs : s.mem.wf = true) : r'.mem.wf = true := by
  simp only [execSetsr, next, Host.Outcome.next.injEq] at hr
  subst hr
  refine issueAt_wf _ _ _ _ hs (fun x u hu => ?_)
  have hg : ∀ f, (u.modGroup x.gid f).mem.wf = true := fun f => State.modGroup_wf _ _ f hu
  have ht : ∀ t f, (u.modTeam t f).mem.wf = true := fun t f => State.modTeam_wf _ t f hu
  exact iteOut_wf (hg _) (iteOut_wf (hg _) (iteOut_wf (ht _ _) hu))

@[simp] theorem regacqBody_wf (i : Instr) (o : Ops) (x : At) (s : State) (hs : s.mem.wf = true) : (regacqBody i o x s).s.mem.wf = true := by
  unfold regacqBody
  repeat' (first | with_reducible refine iteOut_wf ?_ ?_ | split | (simp +contextual (maxDischargeDepth := 40) [*]; done))

theorem execRegacq_wf {o : Ops} {s : State} {r' : _} (hr : (execRegacq o s) = .next r') (hs : s.mem.wf = true) : r'.mem.wf = true := by cases hr; simp +contextual (maxDischargeDepth := 40) [*]

theorem execRegacqGrant_wf {c : Nat} {s : State} {r' : _} (hr : (execRegacqGrant c s) = .next r') (hs : s.mem.wf = true) : r'.mem.wf = true := by cases hr; simp [*]

@[simp] theorem tryRegrel_wf (s : State) (gid : Nat) (hs : s.mem.wf = true) : (tryRegrel s gid).mem.wf = true := by
  first | simp only [tryRegrel] | unfold tryRegrel
  repeat' (first
    | with_reducible assumption
    | with_reducible refine ite_wf ?_ ?_
    | (simp +contextual (maxDischargeDepth := 40) [*]; done)
    | dsimp only
    | split)

theorem execRegrel_wf {o : Ops} {s : State} {r' : _} (hr : (execRegrel o s) = .next r') (hs : s.mem.wf = true) : r'.mem.wf = true := by
  cases hr
  repeat' (first | with_reducible refine ite_wf ?_ ?_ | split | (simp +contextual (maxDischargeDepth := 40) [*]; done))

end Sys2Proof.Machine
end

