-- ==== Sys2Proof/Laws/KeepDocent.lean ====
section
/-!
SUPPORT. Memory stays in its canonical form under every function of Machine/Docent.lean: one lemma each.
-/

namespace Sys2Proof.Machine

@[simp] theorem State.modQueue_wf (s : State) (d : Nat) (q : Nat) (f : Queue → Queue) (hs : s.mem.wf = true) : (State.modQueue s d q f).mem.wf = true := by simp [State.modQueue, *]

@[simp] theorem writeWords_wf (s : State) (d : Nat) (q : Nat) (hs : s.mem.wf = true) : (writeWords s d q).mem.wf = true := by
  first | simp only [writeWords] | unfold writeWords
  repeat' (first
    | with_reducible assumption
    | with_reducible refine ite_wf ?_ ?_
    | (simp +contextual (maxDischargeDepth := 40) [*]; done)
    | dsimp only
    | (split <;> try (rename_i heq; first | (with_reducible have hk := globalPut_wf heq (by simp +contextual (maxDischargeDepth := 40) [*])) | (simp only [Prod.ext_iff] at heq; first | obtain ⟨_, _, rfl⟩ := heq | obtain ⟨_, rfl⟩ := heq | obtain ⟨rfl, _⟩ := heq))))

@[simp] theorem stopQueue_wf (s : State) (d : Nat) (q : Nat) (fault : W32) (fseq : W32) (hs : s.mem.wf = true) : (stopQueue s d q fault fseq).mem.wf = true := by simp [stopQueue, *]

@[simp] theorem completeRec_wf (s : State) (d : Nat) (q : Nat) (n : W32) (status : W32) (failed : Bool) (hs : s.mem.wf = true) : (completeRec s d q n status failed).mem.wf = true := by
  unfold completeRec
  split <;> simp [*]

@[simp] theorem evwaitLeave_wf (s : State) (gid : Nat) (e : W32) (count : W32) (fail : Bool) (hs : s.mem.wf = true) : (evwaitLeave s gid e count fail).mem.wf = true := by
  first | simp only [evwaitLeave] | unfold evwaitLeave
  repeat' (first
    | with_reducible assumption
    | with_reducible refine ite_wf ?_ ?_
    | (simp +contextual (maxDischargeDepth := 40) [*]; done)
    | dsimp only
    | split)

@[simp] theorem releaseWaiters_wf (s : State) (e : W32) (count : W32) (fail : Bool) (hs : s.mem.wf = true) : (releaseWaiters s e count fail).mem.wf = true := by
  first | simp only [releaseWaiters] | unfold releaseWaiters
  repeat' (first
    | with_reducible assumption
    | with_reducible refine ite_wf ?_ ?_
    | with_reducible refine ite_wf1 ?_ ?_
    | with_reducible refine ite_wf2 ?_ ?_
    | with_reducible refine ite_wf22 ?_ ?_
    | with_reducible refine iteOut_wf ?_ ?_
    | with_reducible refine foldl_wf _ _ _ (fun _ _ _ => ?_) ?_
    | with_reducible refine foldl_wf1 _ _ _ (fun _ _ _ => ?_) ?_
    | with_reducible refine foldl_wf2 _ _ _ (fun _ _ _ => ?_) ?_
    | with_reducible refine foldl_wf22 _ _ _ (fun _ _ _ => ?_) ?_
    | (simp +contextual (maxDischargeDepth := 40) [*]; done)
    | dsimp only
    | split)

@[simp] theorem slotStep_wf (s : State) (e : W32) (op : CatOp) (n : W32) (hs : s.mem.wf = true) : (slotStep s e op n).mem.wf = true := by
  unfold slotStep
  repeat' (first | with_reducible refine ite_wf ?_ ?_ | split | (simp +contextual (maxDischargeDepth := 40) [*]; done))

@[simp] theorem catTry_wf (s : State) (e : W32) (op : CatOp) (n : W32) (hs : s.mem.wf = true) : (catTry s e op n).2.mem.wf = true := by
  unfold catTry
  split
  · exact slotStep_wf _ _ _ _ hs
  · dsimp only
    split
    · exact State.freeVal_wf _ hs
    · exact State.freeVal_wf _ hs

@[simp] theorem catStep_wf (s : State) (e : W32) (op : CatOp) (n : W32) (hs : s.mem.wf = true) : (catStep s e op n).mem.wf = true := by simp [catStep, *]

@[simp] theorem prunePins_wf (s : State) (d : Nat) (hs : s.mem.wf = true) : (prunePins s d).mem.wf = true := by simp [prunePins, *]

@[simp] theorem requestHalt_wf (s : State) (tid : Nat) (why : Nat) (hs : s.mem.wf = true) : (requestHalt s tid why).mem.wf = true := by simp +contextual (maxDischargeDepth := 40) [requestHalt, *]

@[simp] theorem withdraw_wf (s : State) (d : Nat) (q : Nat) (hs : s.mem.wf = true) : (withdraw s d q).mem.wf = true := by
  first | simp only [withdraw] | unfold withdraw
  repeat' (first
    | with_reducible assumption
    | with_reducible refine ite_wf ?_ ?_
    | with_reducible refine ite_wf1 ?_ ?_
    | with_reducible refine ite_wf2 ?_ ?_
    | with_reducible refine ite_wf22 ?_ ?_
    | with_reducible refine iteOut_wf ?_ ?_
    | with_reducible refine foldl_wf _ _ _ (fun _ _ _ => ?_) ?_
    | with_reducible refine foldl_wf1 _ _ _ (fun _ _ _ => ?_) ?_
    | with_reducible refine foldl_wf2 _ _ _ (fun _ _ _ => ?_) ?_
    | with_reducible refine foldl_wf22 _ _ _ (fun _ _ _ => ?_) ?_
    | (simp +contextual (maxDischargeDepth := 40) [*]; done)
    | dsimp only
    | split)

@[simp] theorem startDrain_wf (s : State) (d : Nat) (q : Nat) (why : DrainWhy) (budget : Nat) (hs : s.mem.wf = true) : (startDrain s d q why budget).mem.wf = true := by
  unfold startDrain
  repeat' (first | with_reducible refine ite_wf ?_ ?_ | split | (simp +contextual (maxDischargeDepth := 40) [*]; done))

@[simp] theorem escalate_wf (s : State) (d : Nat) (q : Nat) (hs : s.mem.wf = true) : (escalate s d q).mem.wf = true := by
  unfold escalate
  repeat' (first | with_reducible refine ite_wf ?_ ?_ | split | (simp +contextual (maxDischargeDepth := 40) [*]; done))

@[simp] theorem drainTurn_wf (s : State) (d : Nat) (q : Nat) (hs : s.mem.wf = true) : (drainTurn s d q).mem.wf = true := by
  unfold drainTurn
  repeat' (first | with_reducible refine ite_wf ?_ ?_ | split | (simp +contextual (maxDischargeDepth := 40) [*]; done))

@[simp] theorem installCore_wf (s : State) (cid : Nat) (w : W32) (gs : BitVec 48) (cl : W32) (hs : s.mem.wf = true) : (installCore s cid w gs cl).mem.wf = true := by simp +contextual (maxDischargeDepth := 40) [installCore, *]

@[simp] theorem partwTurn_wf (s : State) (d : Nat) (q : Nat) (hs : s.mem.wf = true) : (partwTurn s d q).mem.wf = true := by
  first | simp only [partwTurn] | unfold partwTurn
  repeat' (first
    | with_reducible assumption
    | with_reducible refine ite_wf ?_ ?_
    | (simp +contextual (maxDischargeDepth := 40) [*]; done)
    | dsimp only
    | split)

@[simp] theorem docentTurn_wf (s : State) (d : Nat) (hs : s.mem.wf = true) : (docentTurn s d).mem.wf = true := by simp +contextual (maxDischargeDepth := 40) [docentTurn, *]

end Sys2Proof.Machine
end

