-- ==== Sys2Proof/Laws/KeepRegs.lean ====
section
/-!
SUPPORT. Memory stays in its canonical form under every function of Machine/Regs.lean: one lemma each.
-/

namespace Sys2Proof.Machine

@[simp] theorem endPartition_wf (s : State) (p : Nat) (hs : s.mem.wf = true) : (endPartition s p).mem.wf = true := by simp +contextual (maxDischargeDepth := 40) [endPartition, *]

@[simp] theorem pcoreWrite_wf (s : State) (d : Nat) (p : Nat) (m : W64) (hs : s.mem.wf = true) : (pcoreWrite s d p m).mem.wf = true := by
  unfold pcoreWrite
  repeat' (first | with_reducible refine ite_wf ?_ ?_ | split | (simp +contextual (maxDischargeDepth := 40) [*]; done))

@[simp] theorem rootWrite_wf (s : State) (p : Nat) (v : W64) (hs : s.mem.wf = true) : (rootWrite s p v).mem.wf = true := by
  unfold rootWrite
  repeat' (first | with_reducible refine ite_wf ?_ ?_ | split | (simp +contextual (maxDischargeDepth := 40) [*]; done))

@[simp] theorem pubaccWrite_wf (s : State) (v : Half) (hs : s.mem.wf = true) : (pubaccWrite s v).mem.wf = true := by
  unfold pubaccWrite
  split <;> simp [*]

@[simp] theorem leadWrite_wf (s : State) (p : Nat) (b : Bool) (hs : s.mem.wf = true) : (leadWrite s p b).mem.wf = true := by
  unfold leadWrite
  split <;> simp [*]

@[simp] theorem partWrite_wf (s : State) (p : Nat) (f : Part → Part) (hs : s.mem.wf = true) : (partWrite s p f).mem.wf = true := by
  unfold partWrite
  split <;> simp [*]

@[simp] theorem vitRefuse_wf (s : State) (d : Nat) (n : Nat) (r : Nat) (hs : s.mem.wf = true) : (vitRefuse s d n r).mem.wf = true := by simp [vitRefuse, *]

@[simp] theorem vitbaseWrite_wf (s : State) (d : Nat) (n : Nat) (v : W64) (hs : s.mem.wf = true) : (vitbaseWrite s d n v).mem.wf = true := by
  unfold vitbaseWrite
  repeat' (first | with_reducible refine ite_wf ?_ ?_ | split | (simp +contextual (maxDischargeDepth := 40) [*]; done))

@[simp] theorem vitrinePin_wf (s : State) (d : Nat) (n : Nat) (hs : s.mem.wf = true) : (vitrinePin s d n).mem.wf = true := by
  unfold vitrinePin
  repeat' (first | with_reducible refine ite_wf ?_ ?_ | split | (simp +contextual (maxDischargeDepth := 40) [*]; done))

@[simp] theorem vitrineRelease_wf (s : State) (d : Nat) (n : Nat) (hs : s.mem.wf = true) : (vitrineRelease s d n).mem.wf = true := by simp [vitrineRelease, *]

@[simp] theorem xlinvWrite_wf (s : State) (d : Nat) (v : W64) (hs : s.mem.wf = true) : (xlinvWrite s d v).mem.wf = true := by
  unfold xlinvWrite
  repeat' (first | with_reducible refine ite_wf ?_ ?_ | split | (simp +contextual (maxDischargeDepth := 40) [*]; done))

@[simp] theorem queueStart_wf (s : State) (d : Nat) (q : Nat) (hs : s.mem.wf = true) : (queueStart s d q).mem.wf = true := by
  first | simp only [queueStart] | unfold queueStart
  repeat' (first
    | with_reducible assumption
    | with_reducible refine ite_wf ?_ ?_
    | (simp +contextual (maxDischargeDepth := 40) [*]; done)
    | dsimp only
    | split)

@[simp] theorem ringStart_wf (s : State) (q : Nat) (hs : s.mem.wf = true) : (ringStart s q).mem.wf = true := by
  first | simp only [ringStart] | unfold ringStart
  repeat' (first
    | with_reducible assumption
    | with_reducible refine ite_wf ?_ ?_
    | (simp +contextual (maxDischargeDepth := 40) [*]; done)
    | dsimp only
    | split)

@[simp] theorem qctlWrite_wf (s : State) (d : Nat) (q : Nat) (v : W32) (hs : s.mem.wf = true) : (qctlWrite s d q v).mem.wf = true := by
  unfold qctlWrite
  refine ite_wf ?_ ?_
  · exact queueStart_wf _ _ _ (State.modQueue_wf _ _ _ _ hs)
  · exact State.modQueue_wf _ _ _ _ hs

@[simp] theorem frctlWrite_wf (s : State) (q : Nat) (v : W32) (hs : s.mem.wf = true) : (frctlWrite s q v).mem.wf = true := by
  unfold frctlWrite
  refine ite_wf ?_ ?_
  · exact ringStart_wf _ _ hs
  · exact hs

@[simp] theorem debugDisarm_wf (s : State) (v : W64) (hs : s.mem.wf = true) : (debugDisarm s v).mem.wf = true := by simp [debugDisarm, *]

@[simp] theorem debugHold_wf (s : State) (v : W64) (hs : s.mem.wf = true) : (debugHold s v).mem.wf = true := by simp [debugHold, *]

@[simp] theorem debugStop_wf (s : State) (v : W64) (hs : s.mem.wf = true) : (debugStop s v).mem.wf = true := by simp +contextual (maxDischargeDepth := 40) [debugStop, *]

@[simp] theorem dbgWrite_wf (s : State) (v : W64) (hs : s.mem.wf = true) : (dbgWrite s v).mem.wf = true := by
  unfold dbgWrite
  repeat' (first | with_reducible refine ite_wf ?_ ?_ | split | (simp +contextual (maxDischargeDepth := 40) [*]; done))

@[simp] theorem tsctlWrite_wf (s : State) (v : W32) (hs : s.mem.wf = true) : (tsctlWrite s v).mem.wf = true := by
  unfold tsctlWrite
  repeat' (first | with_reducible refine ite_wf ?_ ?_ | split | (simp +contextual (maxDischargeDepth := 40) [*]; done))

@[simp] theorem fabcfgWrite_wf (s : State) (v : W64) (hs : s.mem.wf = true) : (fabcfgWrite s v).mem.wf = true := by
  unfold fabcfgWrite
  repeat' (first | with_reducible refine ite_wf ?_ ?_ | split | (simp +contextual (maxDischargeDepth := 40) [*]; done))

@[simp] theorem regEffect_wf (s : State) (r : DReg) (v : W64) (raw : W64) (hs : s.mem.wf = true) : (regEffect s r v raw).mem.wf = true := by
  cases r <;> dsimp only [regEffect] <;> repeat' (first
    | with_reducible assumption
    | with_reducible refine ite_wf ?_ ?_
    | with_reducible exact tsctlWrite_wf _ _ hs
    | with_reducible exact dbgWrite_wf _ _ hs
    | with_reducible exact fabcfgWrite_wf _ _ hs
    | with_reducible exact frctlWrite_wf _ _ _ hs
    | with_reducible exact pubaccWrite_wf _ _ hs
    | with_reducible exact rootWrite_wf _ _ _ hs
    | with_reducible exact partWrite_wf _ _ _ hs
    | with_reducible exact leadWrite_wf _ _ _ hs
    | with_reducible exact vitbaseWrite_wf _ _ _ _ hs
    | with_reducible exact vitrinePin_wf _ _ _ hs
    | with_reducible exact vitrineRelease_wf _ _ _ hs
    | with_reducible exact pcoreWrite_wf _ _ _ _ hs
    | with_reducible exact qctlWrite_wf _ _ _ _ hs
    | with_reducible exact xlinvWrite_wf _ _ _ hs
    | with_reducible exact State.modDie_wf _ _ _ hs
    | with_reducible exact State.modQueue_wf _ _ _ _ hs
    | with_reducible exact State.modCore_wf _ _ _ hs)

theorem regWrite_wf {s : State} {p : Priv} {r : DReg} {raw : W64} {r' : _} (hr : (regWrite s p r raw) = .ok r') (hs : s.mem.wf = true) : r'.mem.wf = true := by
  unfold regWrite at hr
  repeat' (first
    | with_reducible assumption
    | contradiction
    | (cases hr; done)
    | (injection hr with hr; subst hr)
    | with_reducible refine ite_wf ?_ ?_
    | (simp +contextual (maxDischargeDepth := 40) [*]; done)
    | split at hr
    | dsimp only at hr
    | dsimp only
    | split)

theorem devStore32_wf {s : State} {p : Priv} {o : Nat} {v : W32} {r' : _} (hr : (devStore32 s p o v) = .ok r') (hs : s.mem.wf = true) : r'.mem.wf = true := by
  unfold devStore32 at hr
  repeat' (first
    | with_reducible assumption
    | contradiction
    | (cases hr; done)
    | (injection hr with hr; subst hr)
    | with_reducible refine ite_wf ?_ ?_
    | (simp +contextual (maxDischargeDepth := 40) [*]; done)
    | (split at hr <;> try (rename_i heq; first | (with_reducible have hk := globalPut_wf heq (by simp +contextual (maxDischargeDepth := 40) [*])) | (with_reducible have hk := regWrite_wf heq (by simp +contextual (maxDischargeDepth := 40) [*])) | (with_reducible have hk := devStore32_wf heq (by simp +contextual (maxDischargeDepth := 40) [*])) | (with_reducible have hk := devStore_wf heq (by simp +contextual (maxDischargeDepth := 40) [*])) | (simp only [Prod.ext_iff] at heq; first | obtain ⟨_, _, rfl⟩ := heq | obtain ⟨_, rfl⟩ := heq | obtain ⟨rfl, _⟩ := heq)))
    | (with_reducible exact globalPut_wf hr (by simp +contextual (maxDischargeDepth := 40) [*]))
    | (with_reducible exact regWrite_wf hr (by simp +contextual (maxDischargeDepth := 40) [*]))
    | (with_reducible exact devStore32_wf hr (by simp +contextual (maxDischargeDepth := 40) [*]))
    | (with_reducible exact devStore_wf hr (by simp +contextual (maxDischargeDepth := 40) [*]))
    | dsimp only at hr
    | dsimp only
    | (split <;> try (rename_i heq; first | (with_reducible have hk := globalPut_wf heq (by simp +contextual (maxDischargeDepth := 40) [*])) | (with_reducible have hk := regWrite_wf heq (by simp +contextual (maxDischargeDepth := 40) [*])) | (with_reducible have hk := devStore32_wf heq (by simp +contextual (maxDischargeDepth := 40) [*])) | (with_reducible have hk := devStore_wf heq (by simp +contextual (maxDischargeDepth := 40) [*])) | (simp only [Prod.ext_iff] at heq; first | obtain ⟨_, _, rfl⟩ := heq | obtain ⟨_, rfl⟩ := heq | obtain ⟨rfl, _⟩ := heq))))

theorem devStore_wf {s : State} {p : Priv} {o : Nat} {n : Nat} {v : W64} {r' : _} (hr : (devStore s p o n v) = .ok r') (hs : s.mem.wf = true) : r'.mem.wf = true := by
  unfold devStore at hr
  repeat' (first
    | with_reducible assumption
    | contradiction
    | (cases hr; done)
    | (injection hr with hr; subst hr)
    | with_reducible refine ite_wf ?_ ?_
    | (simp +contextual (maxDischargeDepth := 40) [*]; done)
    | (split at hr <;> try (rename_i heq; first | (with_reducible have hk := globalPut_wf heq (by simp +contextual (maxDischargeDepth := 40) [*])) | (with_reducible have hk := regWrite_wf heq (by simp +contextual (maxDischargeDepth := 40) [*])) | (with_reducible have hk := devStore32_wf heq (by simp +contextual (maxDischargeDepth := 40) [*])) | (with_reducible have hk := devStore_wf heq (by simp +contextual (maxDischargeDepth := 40) [*])) | (simp only [Prod.ext_iff] at heq; first | obtain ⟨_, _, rfl⟩ := heq | obtain ⟨_, rfl⟩ := heq | obtain ⟨rfl, _⟩ := heq)))
    | (with_reducible exact globalPut_wf hr (by simp +contextual (maxDischargeDepth := 40) [*]))
    | (with_reducible exact regWrite_wf hr (by simp +contextual (maxDischargeDepth := 40) [*]))
    | (with_reducible exact devStore32_wf hr (by simp +contextual (maxDischargeDepth := 40) [*]))
    | (with_reducible exact devStore_wf hr (by simp +contextual (maxDischargeDepth := 40) [*]))
    | dsimp only at hr
    | dsimp only
    | (split <;> try (rename_i heq; first | (with_reducible have hk := globalPut_wf heq (by simp +contextual (maxDischargeDepth := 40) [*])) | (with_reducible have hk := regWrite_wf heq (by simp +contextual (maxDischargeDepth := 40) [*])) | (with_reducible have hk := devStore32_wf heq (by simp +contextual (maxDischargeDepth := 40) [*])) | (with_reducible have hk := devStore_wf heq (by simp +contextual (maxDischargeDepth := 40) [*])) | (simp only [Prod.ext_iff] at heq; first | obtain ⟨_, _, rfl⟩ := heq | obtain ⟨_, rfl⟩ := heq | obtain ⟨rfl, _⟩ := heq))))

end Sys2Proof.Machine
end

