-- ==== Sys2Proof/Laws/KeepLoadStore.lean ====
section
/-!
SUPPORT. Memory stays in its canonical form under every function of Machine/LoadStore.lean: one lemma each.
-/

namespace Sys2Proof.Machine

@[simp] theorem rereadAll_wf (x : At) (once : Bool) (f : Form) (addr : Nat → Addr) (s : State) (hs : s.mem.wf = true) : (rereadAll x once f addr s).mem.wf = true := by simp +contextual (maxDischargeDepth := 40) [rereadAll, *]

@[simp] theorem rereadPacked_wf (o : Ops) (fmt : Fmt) (f : Form) (x : At) (s : State) (hs : s.mem.wf = true) : (rereadPacked o fmt f x s).mem.wf = true := by
  unfold rereadPacked
  repeat' (first | with_reducible refine ite_wf ?_ ?_ | split | (simp +contextual (maxDischargeDepth := 40) [*]; done))

@[simp] theorem addLoad_wf (s : State) (gid : Nat) (r : LoadRec) (hs : s.mem.wf = true) : (addLoad s gid r).mem.wf = true := by
  unfold addLoad
  repeat' (first | with_reducible refine ite_wf ?_ ?_ | split | (simp +contextual (maxDischargeDepth := 40) [*]; done))

@[simp] theorem addStore_wf (s : State) (gid : Nat) (i : Instr) (accs : List Access) (hs : s.mem.wf = true) : (addStore s gid i accs).mem.wf = true := by
  unfold addStore
  repeat' (first | with_reducible refine ite_wf ?_ ?_ | split | (simp +contextual (maxDischargeDepth := 40) [*]; done))

@[simp] theorem devSettle_wf (s : State) (gid : Nat) (ld : Bool) (i : Instr) (a : Access) (hs : s.mem.wf = true) : (devSettle s gid ld i a).mem.wf = true := by simp [devSettle, *]

@[simp] theorem devRead_wf (x : At) (once : Bool) (i : Instr) (r : State × LoadRec × List Trap) (a : Access) (hr : r.1.mem.wf = true) :
    (devRead x once i r a).1.mem.wf = true := by
  have h : (devSettle r.1 x.gid true i a).mem.wf = true := devSettle_wf _ _ _ _ _ hr
  unfold devRead
  dsimp only
  split
  · split
    · exact ite_wf (acquireAt_wf _ _ _ h) h
    · exact h
  · exact h

@[simp] theorem loadAll_wf (x : At) (once : Bool) (i : Instr) (accs : List Access) (s : State) (hs : s.mem.wf = true) : (loadAll x once i accs s).1.mem.wf = true := by simp +contextual (maxDischargeDepth := 40) [loadAll, *]

@[simp] theorem loadBody_wf (i : Instr) (o : Ops) (x : At) (s : State) (hs : s.mem.wf = true) : (loadBody i o x s).s.mem.wf = true := by simp [loadBody, *]

theorem execLd_wf {o : Ops} {ch : Ch} {scope : Scope} {ord : MOrd} {size : Size} {s : State} {r' : _} (hr : (execLd o ch scope ord size s) = .next r') (hs : s.mem.wf = true) : r'.mem.wf = true := by cases hr; simp +contextual (maxDischargeDepth := 40) [*]

@[simp] theorem loadPacked_wf (i : Instr) (o : Ops) (fmt : Fmt) (x : At) (s : State) (hs : s.mem.wf = true) : (loadPacked i o fmt x s).s.mem.wf = true := by simp [loadPacked, *]

theorem execLdConvert_wf {o : Ops} {ch : Ch} {fmt : Fmt} {s : State} {r' : _} (hr : (execLdConvert o ch fmt s) = .next r') (hs : s.mem.wf = true) : r'.mem.wf = true := by
  unfold execLdConvert at hr
  repeat' (first
    | with_reducible assumption
    | contradiction
    | (cases hr; done)
    | (injection hr with hr; subst hr)
    | with_reducible refine ite_wf ?_ ?_
    | (simp +contextual (maxDischargeDepth := 40) [*]; done)
    | split at hr
    | dsimp only at hr
    | dsimp only
    | split)

@[simp] theorem devWrite_wf (x : At) (once : Bool) (i : Instr) (r : State × List Trap) (a : Access) (hr : r.1.mem.wf = true) :
    (devWrite x once i r a).1.mem.wf = true := by
  have h0 : (devSettle r.1 x.gid false i a).mem.wf = true := devSettle_wf _ _ _ _ _ hr
  have h : (if (isRel i && wideScope (ordOf i).2) = true then l1WriteBack (devSettle r.1 x.gid false i a) (cidOf x.gid) true false
      else devSettle r.1 x.gid false i a).mem.wf = true := ite_wf (l1WriteBack_wf _ _ _ _ h0) h0
  unfold devWrite
  dsimp only
  split
  · split
    · next hd => exact devStore_wf hd h
    · exact h
  · exact h

@[simp] theorem storeAll_wf (x : At) (i : Instr) (once : Bool) (accs : List Access) (s : State) (hs : s.mem.wf = true) : (storeAll x i once accs s).1.mem.wf = true := by
  unfold storeAll
  repeat' (first | with_reducible refine ite_wf ?_ ?_ | split | (simp +contextual (maxDischargeDepth := 40) [*]; done))

@[simp] theorem storeWith_wf (i : Instr) (o : Ops) (data : Nat → List Byte) (x : At) (s : State) (hs : s.mem.wf = true) : (storeWith i o data x s).s.mem.wf = true := by simp [storeWith, *]

@[simp] theorem storeBody_wf (i : Instr) (o : Ops) (size : Size) (x : At) (s : State) (hs : s.mem.wf = true) : (storeBody i o size x s).s.mem.wf = true := by simp [storeBody, *]

@[simp] theorem storeConv_wf (i : Instr) (o : Ops) (sat : Bool) (rm : Rm) (fmt : Fmt) (x : At) (s : State) (hs : s.mem.wf = true) : (storeConv i o sat rm fmt x s).s.mem.wf = true := by simp +contextual (maxDischargeDepth := 40) [storeConv, *]

@[simp] theorem storePacked_wf (i : Instr) (o : Ops) (sat : Bool) (rm : Rm) (fmt : Fmt) (x : At) (s : State) (hs : s.mem.wf = true) : (storePacked i o sat rm fmt x s).s.mem.wf = true := by
  unfold storePacked
  repeat' (first | with_reducible refine iteOut_wf ?_ ?_ | split | (simp +contextual (maxDischargeDepth := 40) [*]; done))

theorem execStConvert_wf {o : Ops} {ch : Ch} {sat : Bool} {rm : Rm} {fmt : Fmt} {s : State} {r' : _} (hr : (execStConvert o ch sat rm fmt s) = .next r') (hs : s.mem.wf = true) : r'.mem.wf = true := by
  unfold execStConvert at hr
  repeat' (first
    | with_reducible assumption
    | contradiction
    | (cases hr; done)
    | (injection hr with hr; subst hr)
    | with_reducible refine ite_wf ?_ ?_
    | (simp +contextual (maxDischargeDepth := 40) [*]; done)
    | split at hr
    | dsimp only at hr
    | dsimp only
    | split)

@[simp] theorem atomBody_wf (i : Instr) (o : Ops) (sz : Bool) (aop : AOp) (x : At) (s : State) (hs : s.mem.wf = true) : (atomBody i o sz aop x s).s.mem.wf = true := by
  unfold atomBody
  repeat' (first | with_reducible refine iteOut_wf ?_ ?_ | split | (simp +contextual (maxDischargeDepth := 40) [*]; done))

theorem execAtom_wf {o : Ops} {sz : Bool} {scope : Scope} {ord : MOrd} {aop : AOp} {s : State} {r' : _} (hr : (execAtom o sz scope ord aop s) = .next r') (hs : s.mem.wf = true) : r'.mem.wf = true := by cases hr; simp +contextual (maxDischargeDepth := 40) [*]

theorem execRed_wf {o : Ops} {sz : Bool} {scope : Scope} {ord : MOrd} {aop : AOp} {s : State} {r' : _} (hr : (execRed o sz scope ord aop s) = .next r') (hs : s.mem.wf = true) : r'.mem.wf = true := by cases hr; simp +contextual (maxDischargeDepth := 40) [*]

@[simp] theorem sendMarkers_wf (s : State) (gid : Nat) (m : Mask) (scope : Scope) (hs : s.mem.wf = true) : (sendMarkers s gid m scope).mem.wf = true := by
  unfold sendMarkers
  repeat' (first | with_reducible refine ite_wf ?_ ?_ | split | (simp +contextual (maxDischargeDepth := 40) [*]; done))

@[simp] theorem clearFail_wf (s : State) (gid : Nat) (m : Mask) (scope : Scope) (hs : s.mem.wf = true) : (clearFail s gid m scope).mem.wf = true := by simp [clearFail, *]

@[simp] theorem releaseFence_wf (s : State) (gid : Nat) (m : Mask) (hs : s.mem.wf = true) : (releaseFence s gid m).mem.wf = true := by
  first | simp only [releaseFence] | unfold releaseFence
  repeat' (first
    | with_reducible assumption
    | with_reducible refine ite_wf ?_ ?_
    | with_reducible refine ite_wf1 ?_ ?_
    | with_reducible refine ite_wf2 ?_ ?_
    | with_reducible refine ite_wf22 ?_ ?_
    | with_reducible refine foldl_wf _ _ _ (fun _ _ _ => ?_) ?_
    | with_reducible refine foldl_wf1 _ _ _ (fun _ _ _ => ?_) ?_
    | with_reducible refine foldl_wf2 _ _ _ (fun _ _ _ => ?_) ?_
    | with_reducible refine foldl_wf22 _ _ _ (fun _ _ _ => ?_) ?_
    | (simp +contextual (maxDischargeDepth := 40) [*]; done)
    | dsimp only
    | split)

@[simp] theorem tryFence_wf (s : State) (gid : Nat) (hs : s.mem.wf = true) : (tryFence s gid).mem.wf = true := by simp [tryFence, *]

@[simp] theorem tryFenceG_wf (s : State) (gid : Nat) (hs : s.mem.wf = true) : (tryFenceG s gid).mem.wf = true := by
  first | simp only [tryFenceG] | unfold tryFenceG
  repeat' (first
    | with_reducible assumption
    | with_reducible refine ite_wf ?_ ?_
    | (simp +contextual (maxDischargeDepth := 40) [*]; done)
    | dsimp only
    | split)

@[simp] theorem crossL1_wf (s : State) (gid : Nat) (p : BitVec 5) (hs : s.mem.wf = true) : (crossL1 s gid p).mem.wf = true := by
  unfold crossL1
  split <;> simp [*]

@[simp] theorem crossFence_wf (s : State) (gid : Nat) (prods : BitVec 5) (cons : BitVec 5) (hs : s.mem.wf = true) : (crossFence s gid prods cons).mem.wf = true := by simp +contextual (maxDischargeDepth := 40) [crossFence, *]

@[simp] theorem tryFencex_wf (s : State) (gid : Nat) (hs : s.mem.wf = true) : (tryFencex s gid).mem.wf = true := by
  first | simp only [tryFencex] | unfold tryFencex
  repeat' (first
    | with_reducible assumption
    | with_reducible refine ite_wf ?_ ?_
    | (simp +contextual (maxDischargeDepth := 40) [*]; done)
    | dsimp only
    | split)

theorem execFence_wf {o : Ops} {scope : Scope} {s : State} {r' : _} (hr : (execFence o scope s) = .next r') (hs : s.mem.wf = true) : r'.mem.wf = true := by cases hr; simp +contextual (maxDischargeDepth := 40) [*]

theorem execFenceG_wf {o : Ops} {scope : Scope} {s : State} {r' : _} (hr : (execFenceG o scope s) = .next r') (hs : s.mem.wf = true) : r'.mem.wf = true := by cases hr; simp +contextual (maxDischargeDepth := 40) [*]

theorem execFencex_wf {o : Ops} {paths : BitVec 5} {scope : Scope} {s : State} {r' : _} (hr : (execFencex o paths scope s) = .next r') (hs : s.mem.wf = true) : r'.mem.wf = true := by cases hr; simp +contextual (maxDischargeDepth := 40) [*]

theorem execFenceRelease_wf {g : Nat} {lane : BitVec 5} {s : State} {r' : _} (hr : (execFenceRelease g lane s) = .next r') (hs : s.mem.wf = true) : r'.mem.wf = true := by cases hr; simp +contextual (maxDischargeDepth := 40) [*]

theorem execPref_wf {o : Ops} {l2 : Bool} {s : State} {r' : _} (hr : (execPref o l2 s) = .next r') (hs : s.mem.wf = true) : r'.mem.wf = true := by
  cases hr
  refine issue_wf _ _ _ (fun x t ht => Out.done_wf _ (foldl_wf _ _ _ (fun u l hu => ?_) ht)) hs
  refine ite_wf hu ?_
  split
  · exact ite_wf hu (loadXl_wf _ _ _ _ _ hu)
  · exact hu

@[simp] theorem cacheBody_wf (i : Instr) (o : Ops) (x : At) (s : State) (hs : s.mem.wf = true) : (cacheBody i o x s).s.mem.wf = true := by simp [cacheBody, *]

theorem execDiscard_wf {o : Ops} {s : State} {r' : _} (hr : (execDiscard o s) = .next r') (hs : s.mem.wf = true) : r'.mem.wf = true := by cases hr; simp +contextual (maxDischargeDepth := 40) [*]

theorem execClean_wf {o : Ops} {mem : Bool} {s : State} {r' : _} (hr : (execClean o mem s) = .next r') (hs : s.mem.wf = true) : r'.mem.wf = true := by cases hr; simp +contextual (maxDischargeDepth := 40) [*]

theorem execInval_wf {o : Ops} {i : Bool} {s : State} {r' : _} (hr : (execInval o i s) = .next r') (hs : s.mem.wf = true) : r'.mem.wf = true := by cases hr; simp +contextual (maxDischargeDepth := 40) [*]

@[simp] theorem writeUnits_wf (s : State) (gid : Nat) (ix : Nat) (only : BitVec 128) (hs : s.mem.wf = true) : (writeUnits s gid ix only).mem.wf = true := by
  unfold writeUnits
  repeat' (first | with_reducible refine ite_wf ?_ ?_ | split | (simp +contextual (maxDischargeDepth := 40) [*]; done))

@[simp] theorem writeback_wf (s : State) (gid : Nat) (ix : Nat) (perf : Mask) (only : BitVec 128) (hs : s.mem.wf = true) : (writeback s gid ix perf only).mem.wf = true := by
  unfold writeback
  repeat' (first | with_reducible refine ite_wf ?_ ?_ | split | (simp +contextual (maxDischargeDepth := 40) [*]; done))

theorem execLoadWriteback_wf {g : Nat} {ix : Nat} {only : LoadPick} {s : State} {r' : _} (hr : (execLoadWriteback g ix only s) = .next r') (hs : s.mem.wf = true) : r'.mem.wf = true := by cases hr; simp [*]

@[simp] theorem storeEvent_wf (s : State) (gid : Nat) (ix : Nat) (m : Mask) (data : BitVec 128) (addr : BitVec 128) (hs : s.mem.wf = true) : (storeEvent s gid ix m data addr).mem.wf = true := by
  unfold storeEvent
  repeat' (first | with_reducible refine ite_wf ?_ ?_ | split | (simp +contextual (maxDischargeDepth := 40) [*]; done))

theorem execStorePerform_wf {g : Nat} {ix : Nat} {early : StorePick} {s : State} {r' : _} (hr : (execStorePerform g ix early s) = .next r') (hs : s.mem.wf = true) : r'.mem.wf = true := by cases hr; simp [*]

theorem execLdpois_wf {g : Nat} {lane : BitVec 5} {s : State} {r' : _} (hr : (execLdpois g lane s) = .next r') (hs : s.mem.wf = true) : r'.mem.wf = true := by
  first | (simp only [execLdpois, next, Host.Outcome.next.injEq] at hr; subst hr) | unfold execLdpois at hr
  repeat' (first
    | with_reducible assumption
    | contradiction
    | (cases hr; done)
    | (injection hr with hr; subst hr)
    | with_reducible refine ite_wf ?_ ?_
    | (simp +contextual (maxDischargeDepth := 40) [*]; done)
    | split at hr
    | dsimp only at hr
    | dsimp only
    | split)

end Sys2Proof.Machine
end

