-- ==== Sys2Proof/Laws/KeepMatrix.lean ====
section
/-!
SUPPORT. Memory stays in its canonical form under every function of Machine/Matrix.lean: one lemma each.
-/

namespace Sys2Proof.Machine

@[simp] theorem putRow_wf (s : State) (cid : Nat) (k : Nat) (r : Nat) (rs : List MRes) (hs : s.mem.wf = true) : (putRow s cid k r rs).mem.wf = true := by simp [putRow, *]

@[simp] theorem mmaRow_wf (cid : Nat) (e : SeqEnt) (o : Ops) (z : Bool) (r : Nat) (s : State) (hs : s.mem.wf = true) : (mmaRow cid e o z r s).mem.wf = true := by simp [mmaRow, *]

@[simp] theorem moPut_wf (s : State) (cid : Nat) (ofs : Nat) (bs : List MByte) (hs : s.mem.wf = true) : (moPut s cid ofs bs).mem.wf = true := by simp [moPut, *]

@[simp] theorem matSend_wf (s : State) (cid : Nat) (e : SeqEnt) (ps : List (Nat × Nat)) (bs : List MByte) (hs : s.mem.wf = true) :
    (matSend s cid e ps bs).mem.wf = true := by
  induction ps generalizing s bs with
  | nil => exact hs
  | cons p t ih =>
    refine ih _ _ (sendWrite_wf _ _ _ _ _ hs fun m hm => ?_)
    dsimp only
    split <;> simp [hm]

@[simp] theorem matWrite_wf (s : State) (cid : Nat) (e : SeqEnt) (ptr : W64) (stride : Nat) (r : Nat) (bs : List MByte) (hs : s.mem.wf = true) : (matWrite s cid e ptr stride r bs).mem.wf = true := by
  unfold matWrite
  repeat' (first | with_reducible refine ite_wf ?_ ?_ | split | (simp +contextual (maxDischargeDepth := 40) [*]; done))

@[simp] theorem matSp_wf (s : State) (cid : Nat) (e : SeqEnt) (ptr : W64) (ofs : Nat) (bs : List Byte) (hs : s.mem.wf = true) : (matSp s cid e ptr ofs bs).mem.wf = true := by simp [matSp, *]

@[simp] theorem accldRow_wf (cid : Nat) (e : SeqEnt) (o : Ops) (fmt : Fmt) (r : Nat) (s : State) (hs : s.mem.wf = true) : (accldRow cid e o fmt r s).mem.wf = true := by simp [accldRow, *]

@[simp] theorem accldMl_wf (cid : Nat) (e : SeqEnt) (o : Ops) (s : State) (hs : s.mem.wf = true) : (accldMl cid e o s).mem.wf = true := by
  first | simp only [accldMl] | unfold accldMl
  repeat' (first
    | with_reducible assumption
    | with_reducible refine ite_wf ?_ ?_
    | with_reducible refine ite_wf1 ?_ ?_
    | with_reducible refine ite_wf2 ?_ ?_
    | with_reducible refine ite_wf22 ?_ ?_
    | with_reducible refine foldl_wf _ _ _ (fun _ _ _ => ?_) ?_
    | with_reducible refine foldl_wf1 _ _ _ (fun _ _ _ => ?_) ?_
    | with_reducible refine foldl_wf2 _ _ _ (fun _ _ _ => ?_) ?_
    | with_reducible refine foldl_wf22 _ _ _ (fun _ _ _ => ?_) ?_
    | (simp +contextual (maxDischargeDepth := 40) [*]; done)
    | dsimp only
    | split)

@[simp] theorem accstRow_wf (cid : Nat) (e : SeqEnt) (o : Ops) (sat : Bool) (rm : Rm) (fmt : Fmt) (r : Nat) (s : State) (hs : s.mem.wf = true) : (accstRow cid e o sat rm fmt r s).mem.wf = true := by simp [accstRow, *]

@[simp] theorem accstMl_wf (cid : Nat) (e : SeqEnt) (o : Ops) (s : State) (hs : s.mem.wf = true) : (accstMl cid e o s).mem.wf = true := by simp +contextual (maxDischargeDepth := 40) [accstMl, *]

@[simp] theorem accstFl_wf (cid : Nat) (e : SeqEnt) (o : Ops) (s : State) (hs : s.mem.wf = true) : (accstFl cid e o s).mem.wf = true := by simp [accstFl, *]

@[simp] theorem acczTile_wf (cid : Nat) (e : SeqEnt) (o : Ops) (sel : AccSel) (s : State) (hs : s.mem.wf = true) : (acczTile cid e o sel s).mem.wf = true := by simp [acczTile, *]

@[simp] theorem accsclRow_wf (cid : Nat) (e : SeqEnt) (o : Ops) (row : Bool) (r : Nat) (s : State) (hs : s.mem.wf = true) : (accsclRow cid e o row r s).mem.wf = true := by simp [accsclRow, *]

@[simp] theorem smxStep_wf (cid : Nat) (e : SeqEnt) (o : Ops) (nv : BitVec 8) (r : Nat) (s : State) (hs : s.mem.wf = true) : (smxStep cid e o nv r s).mem.wf = true := by simp [smxStep, *]

@[simp] theorem smxfRow_wf (cid : Nat) (e : SeqEnt) (o : Ops) (r : Nat) (s : State) (hs : s.mem.wf = true) : (smxfRow cid e o r s).mem.wf = true := by simp [smxfRow, *]

@[simp] theorem mredRow_wf (cid : Nat) (e : SeqEnt) (o : Ops) (r : Nat) (s : State) (hs : s.mem.wf = true) : (mredRow cid e o r s).mem.wf = true := by simp [mredRow, *]

@[simp] theorem mredCol_wf (cid : Nat) (e : SeqEnt) (o : Ops) (s : State) (hs : s.mem.wf = true) : (mredCol cid e o s).mem.wf = true := by simp [mredCol, *]

@[simp] theorem mtrldRow_wf (cid : Nat) (e : SeqEnt) (b8 : Bool) (i : Nat) (s : State) (hs : s.mem.wf = true) : (mtrldRow cid e b8 i s).mem.wf = true := by
  unfold mtrldRow
  repeat' (first | with_reducible refine ite_wf ?_ ?_ | split | (simp +contextual (maxDischargeDepth := 40) [*]; done))

@[simp] theorem matRow_wf (cid : Nat) (e : SeqEnt) (r : Nat) (s : State) (hs : s.mem.wf = true) : (matRow cid e r s).mem.wf = true := by
  unfold matRow
  split <;> simp [*]

@[simp] theorem matWhole_wf (cid : Nat) (e : SeqEnt) (s : State) (hs : s.mem.wf = true) : (matWhole cid e s).mem.wf = true := by
  unfold matWhole
  repeat' (first | with_reducible refine ite_wf ?_ ?_ | split | (simp +contextual (maxDischargeDepth := 40) [*]; done))

@[simp] theorem matRun_wf (cid : Nat) (e : SeqEnt) (stop : Nat) (s : State) (hs : s.mem.wf = true) : (matRun cid e stop s).mem.wf = true := by
  unfold matRun
  repeat' (first | with_reducible refine ite_wf ?_ ?_ | split | (simp +contextual (maxDischargeDepth := 40) [*]; done))

@[simp] theorem putEnt_wf (s : State) (e : SeqEnt) (e' : SeqEnt) (hs : s.mem.wf = true) : (putEnt s e e').mem.wf = true := by simp +contextual (maxDischargeDepth := 40) [putEnt, *]

@[simp] theorem popEnt_wf (s : State) (e : SeqEnt) (hs : s.mem.wf = true) : (popEnt s e).mem.wf = true := by simp +contextual (maxDischargeDepth := 40) [popEnt, *]

@[simp] theorem readA_wf (s : State) (cid : Nat) (ser : Nat) (key : Nat) (hs : s.mem.wf = true) : (readA s cid ser key).mem.wf = true := by
  unfold readA
  repeat' (first | with_reducible refine ite_wf ?_ ?_ | split | (simp +contextual (maxDischargeDepth := 40) [*]; done))

@[simp] theorem matStart_wf (s : State) (cid : Nat) (hs : s.mem.wf = true) : (matStart s cid).mem.wf = true := by
  unfold matStart
  repeat' (first | with_reducible refine ite_wf ?_ ?_ | split | (simp +contextual (maxDischargeDepth := 40) [*]; done))

theorem execMatrixOpStart_wf {c : Nat} {s : State} {r' : _} (hr : (execMatrixOpStart c s) = .next r') (hs : s.mem.wf = true) : r'.mem.wf = true := by cases hr; simp [*]

@[simp] theorem matRunAll_wf (e : SeqEnt) (stop : Nat) (s : State) (hs : s.mem.wf = true) : (matRunAll e stop s).mem.wf = true := by simp +contextual (maxDischargeDepth := 40) [matRunAll, *]

@[simp] theorem releaseRestored_wf (s : State) (tid : Nat) (hs : s.mem.wf = true) : (releaseRestored s tid).mem.wf = true := by
  unfold releaseRestored
  repeat' (first | with_reducible refine ite_wf ?_ ?_ | split | (simp +contextual (maxDischargeDepth := 40) [*]; done))

@[simp] theorem matRetire_wf (s : State) (cid : Nat) (hs : s.mem.wf = true) : (matRetire s cid).mem.wf = true := by
  unfold matRetire
  repeat' (first | with_reducible refine ite_wf ?_ ?_ | split | (simp +contextual (maxDischargeDepth := 40) [*]; done))

theorem execMatrixOpRetire_wf {c : Nat} {s : State} {r' : _} (hr : (execMatrixOpRetire c s) = .next r') (hs : s.mem.wf = true) : r'.mem.wf = true := by cases hr; simp [*]

@[simp] theorem matHalt_wf (s : State) (tid : Nat) (hs : s.mem.wf = true) : (matHalt s tid).mem.wf = true := by
  unfold matHalt
  repeat' (first | with_reducible refine ite_wf ?_ ?_ | split | (simp +contextual (maxDischargeDepth := 40) [*]; done))

@[simp] theorem queueEnt_wf (s : State) (e : SeqEnt) (hs : s.mem.wf = true) : (queueEnt s e).mem.wf = true := by simp +contextual (maxDischargeDepth := 40) [queueEnt, *]

@[simp] theorem matAccept_wf (x : At) (i : Instr) (a : W64) (b : W64) (c : W64) (c1 : W64) (chk : Except (W32 × W64) (List (List Xl))) (s : State) (hs : s.mem.wf = true) : (matAccept x i a b c c1 chk s).s.mem.wf = true := by
  unfold matAccept
  repeat' (first | with_reducible refine ite_wf ?_ ?_ | split | (simp +contextual (maxDischargeDepth := 40) [*]; done))

@[simp] theorem mmaBody_wf (i : Instr) (o : Ops) (x : At) (s : State) (hs : s.mem.wf = true) : (mmaBody i o x s).s.mem.wf = true := by simp [mmaBody, *]

theorem execMma_wf {o : Ops} {ru : Bool} {z : Bool} {s : State} {r' : _} (hr : (execMma o ru z s) = .next r') (hs : s.mem.wf = true) : r'.mem.wf = true := by cases hr; simp +contextual (maxDischargeDepth := 40) [*]

theorem execMmaS_wf {o : Ops} {z : Bool} {s : State} {r' : _} (hr : (execMmaS o z s) = .next r') (hs : s.mem.wf = true) : r'.mem.wf = true := by cases hr; simp +contextual (maxDischargeDepth := 40) [*]

theorem execMmaP_wf {o : Ops} {ru : Bool} {z : Bool} {s : State} {r' : _} (hr : (execMmaP o ru z s) = .next r') (hs : s.mem.wf = true) : r'.mem.wf = true := by
  cases hr
  refine issue_wf _ _ _ (fun _ _ h => ?_) hs
  repeat' (first | split | (simp +contextual (maxDischargeDepth := 40) [*]; done))

theorem execAccz_wf {o : Ops} {sel : AccSel} {s : State} {r' : _} (hr : (execAccz o sel s) = .next r') (hs : s.mem.wf = true) : r'.mem.wf = true := by cases hr; simp +contextual (maxDischargeDepth := 40) [*]

@[simp] theorem rereadRows_wf (s : State) (x : At) (ptr : W64) (n : Nat) (stride : Nat) (len : Nat) (hs : s.mem.wf = true) : (rereadRows s x ptr n stride len).mem.wf = true := by simp +contextual (maxDischargeDepth := 40) [rereadRows, *]

@[simp] theorem accMemBody_wf (i : Instr) (o : Ops) (u : Use) (side : Side) (fmt : Fmt) (x : At) (s : State) (hs : s.mem.wf = true) : (accMemBody i o u side fmt x s).s.mem.wf = true := by
  unfold accMemBody
  repeat' (first | with_reducible refine iteOut_wf ?_ ?_ | split | (simp +contextual (maxDischargeDepth := 40) [*]; done))

theorem execAccld_wf {o : Ops} {side : Side} {fmt : Fmt} {s : State} {r' : _} (hr : (execAccld o side fmt s) = .next r') (hs : s.mem.wf = true) : r'.mem.wf = true := by cases hr; simp +contextual (maxDischargeDepth := 40) [*]

theorem execAccst_wf {o : Ops} {sat : Bool} {rm : Rm} {side : Side} {fmt : Fmt} {s : State} {r' : _} (hr : (execAccst o sat rm side fmt s) = .next r') (hs : s.mem.wf = true) : r'.mem.wf = true := by cases hr; simp +contextual (maxDischargeDepth := 40) [*]

theorem execAccscl_wf {o : Ops} {row : Bool} {s : State} {r' : _} (hr : (execAccscl o row s) = .next r') (hs : s.mem.wf = true) : r'.mem.wf = true := by cases hr; simp +contextual (maxDischargeDepth := 40) [*]

theorem execSmx_wf {o : Ops} {nv : BitVec 8} {s : State} {r' : _} (hr : (execSmx o nv s) = .next r') (hs : s.mem.wf = true) : r'.mem.wf = true := by cases hr; simp +contextual (maxDischargeDepth := 40) [*]

theorem execSmxf_wf {o : Ops} {s : State} {r' : _} (hr : (execSmxf o s) = .next r') (hs : s.mem.wf = true) : r'.mem.wf = true := by cases hr; simp +contextual (maxDischargeDepth := 40) [*]

theorem execMred_wf {o : Ops} {col : Bool} {s : State} {r' : _} (hr : (execMred o col s) = .next r') (hs : s.mem.wf = true) : r'.mem.wf = true := by cases hr; simp +contextual (maxDischargeDepth := 40) [*]

@[simp] theorem mtrldBody_wf (o : Ops) (b8 : Bool) (x : At) (s : State) (hs : s.mem.wf = true) : (mtrldBody o b8 x s).s.mem.wf = true := by
  unfold mtrldBody
  repeat' (first | with_reducible refine iteOut_wf ?_ ?_ | split | (simp +contextual (maxDischargeDepth := 40) [*]; done))

theorem execMtrld_wf {o : Ops} {b8 : Bool} {s : State} {r' : _} (hr : (execMtrld o b8 s) = .next r') (hs : s.mem.wf = true) : r'.mem.wf = true := by cases hr; simp +contextual (maxDischargeDepth := 40) [*]

end Sys2Proof.Machine
end

