-- ==== Sys2Proof/Laws/KeepCopies.lean ====
section
/-!
SUPPORT. Memory stays in its canonical form under every function of Machine/Copies.lean: one lemma each.
-/

namespace Sys2Proof.Machine

@[simp] theorem copyBody_wf (o : Ops) (x : At) (s : State) (hs : s.mem.wf = true) : (copyBody o x s).s.mem.wf = true := by
  unfold copyBody
  dsimp only
  split
  · exact hs
  · split
    · exact hs
    · exact State.modCore_wf _ _ _ (State.modGroup_wf _ _ _ hs)

@[simp] theorem copyOrStore_wf (i : Instr) (o : Ops) (x : At) (s : State) (hs : s.mem.wf = true) : (copyOrStore i o x s).s.mem.wf = true := by
  unfold copyOrStore
  repeat' (first | with_reducible refine iteOut_wf ?_ ?_ | split | (simp +contextual (maxDischargeDepth := 40) [*]; done))

theorem execCopy_wf {o : Ops} {s : State} {r' : _} (hr : (execCopy o s) = .next r') (hs : s.mem.wf = true) : r'.mem.wf = true := by
  cases hr
  refine issue_wf _ _ _ (fun _ _ h => ?_) hs
  repeat' (first | split | (simp +contextual (maxDischargeDepth := 40) [*]; done))

theorem execSt_wf {o : Ops} {ch : Ch} {scope : Scope} {ord : MOrd} {size : Size} {s : State} {r' : _} (hr : (execSt o ch scope ord size s) = .next r') (hs : s.mem.wf = true) : r'.mem.wf = true := by
  unfold execSt at hr
  repeat' (first
    | with_reducible assumption
    | contradiction
    | (cases hr; done)
    | (injection hr with hr; subst hr)
    | with_reducible refine ite_wf ?_ ?_
    | (simp +contextual (maxDischargeDepth := 40) [*]; done)
    | split at hr
    | dsimp only at hr
    | dsimp only
    | split)

@[simp] theorem dropWaiting_wf (s : State) (cid : Nat) (x : Waiting) (hs : s.mem.wf = true) : (dropWaiting s cid x).mem.wf = true := by
  unfold dropWaiting
  split <;> simp [*]

@[simp] theorem copyAccept_wf (s : State) (cid : Nat) (ch : Nat) (late : BitVec 4) (hs : s.mem.wf = true) : (copyAccept s cid ch late).mem.wf = true := by
  first | simp only [copyAccept] | unfold copyAccept
  repeat' (first
    | with_reducible assumption
    | with_reducible refine ite_wf ?_ ?_
    | (simp +contextual (maxDischargeDepth := 40) [*]; done)
    | dsimp only
    | split)

theorem execCopyAccept_wf {c : Nat} {ch : CopyPick} {s : State} {r' : _} (hr : (execCopyAccept c ch s) = .next r') (hs : s.mem.wf = true) : r'.mem.wf = true := by cases hr; simp [*]

@[simp] theorem endReceiver_wf (s : State) (cid : Nat) (team : Nat) (w : W32) (hs : s.mem.wf = true) : (endReceiver s cid team w).mem.wf = true := by
  unfold endReceiver
  split <;> simp [*]

theorem refuseShare_wf {s : State} {path : Nat} {h : Share} {expect : Nat} {extent : Nat} {r' : _} (hr : (refuseShare s path h expect extent) = some r') (hs : s.mem.wf = true) : r'.mem.wf = true := by
  unfold refuseShare at hr
  repeat' (first
    | with_reducible assumption
    | contradiction
    | (cases hr; done)
    | (injection hr with hr; subst hr)
    | with_reducible refine ite_wf ?_ ?_
    | (simp +contextual (maxDischargeDepth := 40) [*]; done)
    | split at hr
    | dsimp only at hr
    | dsimp only
    | split)

@[simp] theorem setCopy_wf (s : State) (cid : Nat) (ix : Nat) (x : Copy) (hs : s.mem.wf = true) : (setCopy s cid ix x).mem.wf = true := by simp [setCopy, *]

@[simp] theorem endCopy_wf (s : State) (cid : Nat) (ix : Nat) (x : Copy) (shares : List Share) (hs : s.mem.wf = true) : (endCopy s cid ix x shares).mem.wf = true := by
  unfold endCopy
  split <;> simp [*]

@[simp] theorem landBytes_wf (s : State) (path : Nat) (h : Share) (ofs : Nat) (bs : List MByte) (mark : Bool) (err : Nat) (hs : s.mem.wf = true) : (landBytes s path h ofs bs mark err).mem.wf = true := by simp [landBytes, *]

@[simp] theorem landPart_wf (s : State) (cid : Nat) (ix : Nat) (rx : Nat) (x : Copy) (hs : List Share) (h : Share) (p : Piece) (mark : Bool) (err : Nat) (hs' : s.mem.wf = true) : (landPart s cid ix rx x hs h p mark err).mem.wf = true := by simp [landPart, *]

@[simp] theorem beginShare_wf (s : State) (cid : Nat) (ix : Nat) (rx : Nat) (x : Copy) (hs : s.mem.wf = true) :
    (beginShare s cid ix rx x).2.mem.wf = true := by
  unfold beginShare
  split
  · exact hs
  · split
    · exact setCopy_wf _ _ _ _ hs
    · split
      · exact hs
      · dsimp only
        split
        · next h => exact endCopy_wf _ _ _ _ _ (refuseShare_wf h hs)
        · exact hs

@[simp] theorem rereadCopy_wf (s : State) (cid : Nat) (ix : Nat) (hs : s.mem.wf = true) : (rereadCopy s cid ix).mem.wf = true := by
  first | simp only [rereadCopy] | unfold rereadCopy
  repeat' (first
    | with_reducible assumption
    | with_reducible refine ite_wf ?_ ?_
    | with_reducible refine ite_wf1 ?_ ?_
    | with_reducible refine ite_wf2 ?_ ?_
    | with_reducible refine ite_wf22 ?_ ?_
    | with_reducible refine foldl_wf _ _ _ (fun _ _ _ => ?_) ?_
    | with_reducible refine foldl_wf1 _ _ _ (fun _ _ _ => ?_) ?_
    | with_reducible refine foldl_wf2 _ _ _ (fun _ _ _ => ?_) ?_
    | with_reducible refine foldl_wf22 _ _ _ (fun _ _ _ => ?_) ?_
    | (simp +contextual (maxDischargeDepth := 40) [*]; done)
    | dsimp only
    | split)

@[simp] theorem copyArrival_wf (s : State) (cid : Nat) (ix : Nat) (rx : Nat) (bytes : Nat) (hs : s.mem.wf = true) :
    (copyArrival s cid ix rx bytes).mem.wf = true := by
  have h0 : (rereadCopy s cid ix).mem.wf = true := rereadCopy_wf _ _ _ hs
  unfold copyArrival
  dsimp only
  generalize rereadCopy s cid ix = u at h0 ⊢
  split
  · exact h0
  · next x _ =>
    have h1 := beginShare_wf u cid ix rx x h0
    split
    · next hb => rw [hb] at h1; exact h1
    · next hb =>
      rw [hb] at h1
      exact ite_wf (setCopy_wf _ _ _ _ h1) (ite_wf (setCopy_wf _ _ _ _ h1)
        (ite_wf (setCopy_wf _ _ _ _ h1) (landPart_wf _ _ _ _ _ _ _ _ _ _ h1)))

theorem execCopyArrival_wf {c : Nat} {ix : Nat} {rx : Nat} {bytes : Nat} {s : State} {r' : _} (hr : (execCopyArrival c ix rx bytes s) = .next r') (hs : s.mem.wf = true) : r'.mem.wf = true := by cases hr; simp [*]

@[simp] theorem copyRead_wf (s : State) (cid : Nat) (ix : Nat) (row : Nat) (k : Nat) (hs : s.mem.wf = true) : (copyRead s cid ix row k).mem.wf = true := by
  unfold copyRead
  repeat' (first | with_reducible refine ite_wf ?_ ?_ | split | (simp +contextual (maxDischargeDepth := 40) [*]; done))

@[simp] theorem copySourceFail_wf (s : State) (cid : Nat) (ix : Nat) (hs : s.mem.wf = true) : (copySourceFail s cid ix).mem.wf = true := by
  unfold copySourceFail
  repeat' (first | with_reducible refine ite_wf ?_ ?_ | split | (simp +contextual (maxDischargeDepth := 40) [*]; done))

theorem execCopySourceFail_wf {c : Nat} {ix : Nat} {s : State} {r' : _} (hr : (execCopySourceFail c ix s) = .next r') (hs : s.mem.wf = true) : r'.mem.wf = true := by cases hr; simp [*]

@[simp] theorem curatorFinish_wf (s : State) (cid : Nat) (ix : Nat) (rx : Nat) (how : Finish) (hs : s.mem.wf = true) :
    (curatorFinish s cid ix rx how).mem.wf = true := by
  unfold curatorFinish
  split
  · exact hs
  · next x _ =>
    split
    · exact hs
    · have h1 := beginShare_wf s cid ix rx x hs
      dsimp only
      split
      · next hb => rw [hb] at h1; exact h1
      · next hb =>
        rw [hb] at h1
        split
        · exact ite_wf (landPart_wf _ _ _ _ _ _ _ _ _ _ h1) h1
        · exact ite_wf (landPart_wf _ _ _ _ _ _ _ _ _ _ h1) h1
        · exact ite_wf h1 (endReceiver_wf _ _ _ _ (endCopy_wf _ _ _ _ _ h1))

theorem execCuratorCopyFinish_wf {c : Nat} {ix : Nat} {rx : Nat} {how : Finish} {s : State} {r' : _} (hr : (execCuratorCopyFinish c ix rx how s) = .next r') (hs : s.mem.wf = true) : r'.mem.wf = true := by cases hr; simp [*]

@[simp] theorem tmplImage_wf (s : State) (gid : Nat) (o : Ops) (a : W64) (hs : s.mem.wf = true) : (tmplImage s gid o a).2.mem.wf = true := by
  unfold tmplImage
  repeat' (first | with_reducible refine ite_wf ?_ ?_ | split | (simp +contextual (maxDischargeDepth := 40) [*]; done))

@[simp] theorem tryTset_wf (s : State) (gid : Nat) (hs : s.mem.wf = true) : (tryTset s gid).mem.wf = true := by
  first | simp only [tryTset] | unfold tryTset
  repeat' (first
    | with_reducible assumption
    | with_reducible refine ite_wf ?_ ?_
    | with_reducible refine ite_wf1 ?_ ?_
    | with_reducible refine ite_wf2 ?_ ?_
    | with_reducible refine ite_wf22 ?_ ?_
    | with_reducible refine foldl_wf _ _ _ (fun _ _ _ => ?_) ?_
    | with_reducible refine foldl_wf1 _ _ _ (fun _ _ _ => ?_) ?_
    | with_reducible refine foldl_wf2 _ _ _ (fun _ _ _ => ?_) ?_
    | with_reducible refine foldl_wf22 _ _ _ (fun _ _ _ => ?_) ?_
    | (simp +contextual (maxDischargeDepth := 40) [*]; done)
    | dsimp only
    | (split <;> try (rename_i heq; first | (simp only [Prod.ext_iff] at heq; first | obtain ⟨_, _, rfl⟩ := heq | obtain ⟨_, rfl⟩ := heq | obtain ⟨rfl, _⟩ := heq))))

theorem execTset_wf {o : Ops} {s : State} {r' : _} (hr : (execTset o s) = .next r') (hs : s.mem.wf = true) : r'.mem.wf = true := by
  simp only [execTset, next, Host.Outcome.next.injEq] at hr
  subst hr
  refine tryTset_wf _ _ (issue_wf _ _ _ (fun _ _ h => ?_) hs)
  try dsimp only
  repeat' (first
    | split
    | (simp +contextual (maxDischargeDepth := 40) [*]; done))

theorem execTsetInstall_wf {g : Nat} {s : State} {r' : _} (hr : (execTsetInstall g s) = .next r') (hs : s.mem.wf = true) : r'.mem.wf = true := by cases hr; simp [*]

@[simp] theorem onWord_wf (o : Ops) (x : At) (s : State) (f : Nat → State → Out) (hf : ∀ k s, s.mem.wf = true → (f k s).s.mem.wf = true)
    (hs : s.mem.wf = true) : (onWord o x s f).s.mem.wf = true := by
  unfold onWord
  dsimp only
  split
  · exact hs
  · exact hf _ _ hs

theorem execBarinit_wf {o : Ops} {s : State} {r' : _} (hr : (execBarinit o s) = .next r') (hs : s.mem.wf = true) : r'.mem.wf = true := by cases hr; simp +contextual (maxDischargeDepth := 40) [*]

theorem execBarexp_wf {o : Ops} {s : State} {r' : _} (hr : (execBarexp o s) = .next r') (hs : s.mem.wf = true) : r'.mem.wf = true := by cases hr; simp +contextual (maxDischargeDepth := 40) [*]

theorem execBarpoll_wf {o : Ops} {s : State} {r' : _} (hr : (execBarpoll o s) = .next r') (hs : s.mem.wf = true) : r'.mem.wf = true := by cases hr; simp +contextual (maxDischargeDepth := 40) [*]

@[simp] theorem tryBarwait_wf (s : State) (gid : Nat) (hs : s.mem.wf = true) : (tryBarwait s gid).mem.wf = true := by
  first | simp only [tryBarwait] | unfold tryBarwait
  repeat' (first
    | with_reducible assumption
    | with_reducible refine ite_wf ?_ ?_
    | (simp +contextual (maxDischargeDepth := 40) [*]; done)
    | dsimp only
    | split)

theorem execBarwait_wf {o : Ops} {paths : BitVec 5} {gn : Bool} {s : State} {r' : _} (hr : (execBarwait o paths gn s) = .next r') (hs : s.mem.wf = true) : r'.mem.wf = true := by cases hr; simp +contextual (maxDischargeDepth := 40) [*]

@[simp] theorem tryBseal_wf (s : State) (gid : Nat) (hs : s.mem.wf = true) : (tryBseal s gid).mem.wf = true := by
  first | simp only [tryBseal] | unfold tryBseal
  repeat' (first
    | with_reducible assumption
    | with_reducible refine ite_wf ?_ ?_
    | (simp +contextual (maxDischargeDepth := 40) [*]; done)
    | dsimp only
    | split)

theorem execBseal_wf {o : Ops} {s : State} {r' : _} (hr : (execBseal o s) = .next r') (hs : s.mem.wf = true) : r'.mem.wf = true := by cases hr; simp +contextual (maxDischargeDepth := 40) [*]

@[simp] theorem tryBwait_wf (s : State) (gid : Nat) (hs : s.mem.wf = true) : (tryBwait s gid).mem.wf = true := by simp [tryBwait, *]

theorem execBwait_wf {o : Ops} {s : State} {r' : _} (hr : (execBwait o s) = .next r') (hs : s.mem.wf = true) : r'.mem.wf = true := by cases hr; simp +contextual (maxDischargeDepth := 40) [*]

theorem execBarwaitRelease_wf {g : Nat} {s : State} {r' : _} (hr : (execBarwaitRelease g s) = .next r') (hs : s.mem.wf = true) : r'.mem.wf = true := by cases hr; simp +contextual (maxDischargeDepth := 40) [*]

end Sys2Proof.Machine
end

