-- ==== Sys2Proof/Laws/KeepClusterOps.lean ====
section
/-!
SUPPORT. Memory stays in its canonical form under every function of Machine/ClusterOps.lean: one lemma each.
-/

namespace Sys2Proof.Machine

@[simp] theorem inCluster_wf (x : At) (s : State) (f : Nat → Cluster → Nat → State → Out) (hf : ∀ x0 x1 x2 s3, s3.mem.wf = true → (f x0 x1 x2 s3).s.mem.wf = true) (hs : s.mem.wf = true) : (inCluster x s f).s.mem.wf = true := by
  unfold inCluster
  split <;> simp [*]

@[simp] theorem setCluster_wf (s : State) (key : Nat) (c : Cluster) (hs : s.mem.wf = true) : (setCluster s key c).mem.wf = true := by simp [setCluster, *]

@[simp] theorem tryClarr_wf (s : State) (gid : Nat) (hs : s.mem.wf = true) : (tryClarr s gid).mem.wf = true := by
  first | simp only [tryClarr] | unfold tryClarr
  repeat' (first
    | with_reducible assumption
    | with_reducible refine ite_wf ?_ ?_
    | (simp +contextual (maxDischargeDepth := 40) [*]; done)
    | dsimp only
    | split)

theorem execClarr_wf {o : Ops} {paths : BitVec 5} {s : State} {r' : _} (hr : (execClarr o paths s) = .next r') (hs : s.mem.wf = true) : r'.mem.wf = true := by cases hr; simp +contextual (maxDischargeDepth := 40) [*]

@[simp] theorem tryClbar_wf (s : State) (gid : Nat) (hs : s.mem.wf = true) : (tryClbar s gid).mem.wf = true := by
  first | simp only [tryClbar] | unfold tryClbar
  repeat' (first
    | with_reducible assumption
    | with_reducible refine ite_wf ?_ ?_
    | (simp +contextual (maxDischargeDepth := 40) [*]; done)
    | dsimp only
    | split)

theorem execClbar_wf {o : Ops} {paths : BitVec 5} {s : State} {r' : _} (hr : (execClbar o paths s) = .next r') (hs : s.mem.wf = true) : r'.mem.wf = true := by cases hr; simp +contextual (maxDischargeDepth := 40) [*]

theorem execClbarRelease_wf {g : Nat} {s : State} {r' : _} (hr : (execClbarRelease g s) = .next r') (hs : s.mem.wf = true) : r'.mem.wf = true := by cases hr; simp [*]

@[simp] theorem rldBody_wf (o : Ops) (cnt : Cnt) (x : At) (s : State) (hs : s.mem.wf = true) : (rldBody o cnt x s).s.mem.wf = true := by
  unfold rldBody
  repeat' (first | with_reducible refine iteOut_wf ?_ ?_ | split | (simp +contextual (maxDischargeDepth := 40) [*]; done))

theorem execRld_wf {o : Ops} {cnt : Cnt} {s : State} {r' : _} (hr : (execRld o cnt s) = .next r') (hs : s.mem.wf = true) : r'.mem.wf = true := by cases hr; simp +contextual (maxDischargeDepth := 40) [*]

theorem execMsend_wf {o : Ops} {blk : Bool} {s : State} {r' : _} (hr : (execMsend o blk s) = .next r') (hs : s.mem.wf = true) : r'.mem.wf = true := by
  simp only [execMsend, next, Host.Outcome.next.injEq] at hr
  subst hr
  refine issue_wf _ _ _ (fun x u hu => inCluster_wf _ _ _ (fun key c ix v hv => ?_) hu) hs
  exact iteOut_wf hv (setCluster_wf _ _ _ hv)

@[simp] theorem mrecvBody_wf (o : Ops) (x : At) (s : State) (hs : s.mem.wf = true) : (mrecvBody o x s).s.mem.wf = true := by
  have hd : ∀ (v : State) (t gid n : Nat) f g, v.mem.wf = true → (Out.done (stallTurn ((v.modTeam t f).modGroup gid g) t n)).s.mem.wf = true :=
    fun v t gid n f g hv => Out.done_wf _ (stallTurn_wf _ _ _ (State.modGroup_wf _ _ _ (State.modTeam_wf _ _ _ hv)))
  refine inCluster_wf _ _ _ (fun _ _ _ u hu => ?_) hs
  dsimp only
  refine iteOut_wf hu ?_
  split
  · split
    · with_reducible refine hd _ _ _ _ _ _ (deliverMsg_wf _ _ _ _ (State.modTeam_wf _ _ _ hu))
    · exact hu
  · refine iteOut_wf hu ?_
    with_reducible exact hd _ _ _ _ _ _ (State.modTeam_wf _ _ _ hu)

theorem execMrecv_wf {o : Ops} {s : State} {r' : _} (hr : (execMrecv o s) = .next r') (hs : s.mem.wf = true) : r'.mem.wf = true := by cases hr; simp +contextual (maxDischargeDepth := 40) [*]

theorem execMprobe_wf {o : Ops} {st : Bool} {s : State} {r' : _} (hr : (execMprobe o st s) = .next r') (hs : s.mem.wf = true) : r'.mem.wf = true := by
  simp only [execMprobe, next, Host.Outcome.next.injEq] at hr
  subst hr
  refine issue_wf _ _ _ (fun x u hu => inCluster_wf _ _ _ (fun _ _ _ v hv => ?_) hu) hs
  exact iteOut_wf (State.modGroup_wf _ _ _ hv) (iteOut_wf hv (State.modGroup_wf _ _ _ hv))

theorem execMcancel_wf {o : Ops} {s : State} {r' : _} (hr : (execMcancel o s) = .next r') (hs : s.mem.wf = true) : r'.mem.wf = true := by cases hr; simp +contextual (maxDischargeDepth := 40) [*]

@[simp] theorem messageArrival_wf (s : State) (ix : Nat) (hs : s.mem.wf = true) : (messageArrival s ix).mem.wf = true := by
  first | simp only [messageArrival] | unfold messageArrival
  repeat' (first
    | with_reducible assumption
    | with_reducible refine ite_wf ?_ ?_
    | (simp +contextual (maxDischargeDepth := 40) [*]; done)
    | dsimp only
    | (split <;> try (rename_i heq; first | (with_reducible have hk := globalPut_wf heq (by simp +contextual (maxDischargeDepth := 40) [*])) | (with_reducible have hk := regWrite_wf heq (by simp +contextual (maxDischargeDepth := 40) [*])) | (with_reducible have hk := devStore32_wf heq (by simp +contextual (maxDischargeDepth := 40) [*])) | (with_reducible have hk := devStore_wf heq (by simp +contextual (maxDischargeDepth := 40) [*])) | (with_reducible have hk := refuseShare_wf heq (by simp +contextual (maxDischargeDepth := 40) [*])) | (with_reducible have hk := placeMsg_wf heq (by simp +contextual (maxDischargeDepth := 40) [*])) | (simp only [Prod.ext_iff] at heq; first | obtain ⟨_, _, rfl⟩ := heq | obtain ⟨_, rfl⟩ := heq | obtain ⟨rfl, _⟩ := heq))))

theorem execMessageArrival_wf {ix : Nat} {s : State} {r' : _} (hr : (execMessageArrival ix s) = .next r') (hs : s.mem.wf = true) : r'.mem.wf = true := by cases hr; simp [*]

@[simp] theorem stallTimeout_wf (s : State) (tid : Nat) (ix : Nat) (hs : s.mem.wf = true) : (stallTimeout s tid ix).mem.wf = true := by
  unfold stallTimeout
  repeat' (first | with_reducible refine ite_wf ?_ ?_ | split | (simp +contextual (maxDischargeDepth := 40) [*]; done))

theorem execMessageStallTimeout_wf {t : Nat} {ix : Nat} {s : State} {r' : _} (hr : (execMessageStallTimeout t ix s) = .next r') (hs : s.mem.wf = true) : r'.mem.wf = true := by cases hr; simp [*]

end Sys2Proof.Machine
end

