-- ==== Sys2Proof/Laws/KeepHamper.lean ====
section
/-!
SUPPORT. Memory stays in its canonical form under every function of Machine/Hamper.lean: one lemma each.
-/

namespace Sys2Proof.Machine

theorem placePush_wf {s : State} {cid : Nat} {team : Nat} {w : BitVec 256} {r' : _} (hr : (placePush s cid team w) = some r') (hs : s.mem.wf = true) : r'.mem.wf = true := by
  unfold placePush at hr
  repeat' (first
    | with_reducible assumption
    | contradiction
    | (cases hr; done)
    | (injection hr with hr; subst hr)
    | with_reducible refine ite_wf ?_ ?_
    | (simp +contextual (maxDischargeDepth := 40) [*]; done)
    | (split at hr <;> try (rename_i heq; first | (with_reducible have hk := globalPut_wf heq (by simp +contextual (maxDischargeDepth := 40) [*])) | (with_reducible have hk := regWrite_wf heq (by simp +contextual (maxDischargeDepth := 40) [*])) | (with_reducible have hk := devStore32_wf heq (by simp +contextual (maxDischargeDepth := 40) [*])) | (with_reducible have hk := devStore_wf heq (by simp +contextual (maxDischargeDepth := 40) [*])) | (with_reducible have hk := refuseShare_wf heq (by simp +contextual (maxDischargeDepth := 40) [*])) | (with_reducible have hk := placeMsg_wf heq (by simp +contextual (maxDischargeDepth := 40) [*])) | (with_reducible have hk := placePush_wf heq (by simp +contextual (maxDischargeDepth := 40) [*])) | (simp only [Prod.ext_iff] at heq; first | obtain ⟨_, _, rfl⟩ := heq | obtain ⟨_, rfl⟩ := heq | obtain ⟨rfl, _⟩ := heq)))
    | dsimp only at hr
    | dsimp only
    | (split <;> try (rename_i heq; first | (with_reducible have hk := globalPut_wf heq (by simp +contextual (maxDischargeDepth := 40) [*])) | (with_reducible have hk := regWrite_wf heq (by simp +contextual (maxDischargeDepth := 40) [*])) | (with_reducible have hk := devStore32_wf heq (by simp +contextual (maxDischargeDepth := 40) [*])) | (with_reducible have hk := devStore_wf heq (by simp +contextual (maxDischargeDepth := 40) [*])) | (with_reducible have hk := refuseShare_wf heq (by simp +contextual (maxDischargeDepth := 40) [*])) | (with_reducible have hk := placeMsg_wf heq (by simp +contextual (maxDischargeDepth := 40) [*])) | (with_reducible have hk := placePush_wf heq (by simp +contextual (maxDischargeDepth := 40) [*])) | (simp only [Prod.ext_iff] at heq; first | obtain ⟨_, _, rfl⟩ := heq | obtain ⟨_, rfl⟩ := heq | obtain ⟨rfl, _⟩ := heq))))

@[simp] theorem refill_wf (s : State) (cid : Nat) (hs : s.mem.wf = true) : (refill s cid).mem.wf = true := by
  first | simp only [refill] | unfold refill
  repeat' (first
    | with_reducible assumption
    | with_reducible refine ite_wf ?_ ?_
    | (simp +contextual (maxDischargeDepth := 40) [*]; done)
    | dsimp only
    | split)

theorem execHamperRefill_wf {c : Nat} {s : State} {r' : _} (hr : (execHamperRefill c s) = .next r') (hs : s.mem.wf = true) : r'.mem.wf = true := by cases hr; simp [*]

@[simp] theorem standPush_wf (s : State) (t : State) (gid : Nat) (i : Instr) (cid : Nat) (w : BitVec 256) (hs : s.mem.wf = true) (ht : t.mem.wf = true) : (standPush s t gid i cid w).mem.wf = true := by
  unfold standPush
  repeat' (first | with_reducible refine ite_wf ?_ ?_ | split | (simp +contextual (maxDischargeDepth := 40) [*]; done))

theorem execHpush_wf {o : Ops} {s : State} {r' : _} (hr : (execHpush o s) = .next r') (hs : s.mem.wf = true) : r'.mem.wf = true := by
  simp only [execHpush, next, Host.Outcome.next.injEq] at hr
  subst hr
  refine issue_wf _ _ _ (fun x u hu => ?_) hs
  have h1 : (releaseAt u x.gid .die).mem.wf = true := releaseAt_wf _ _ _ hu
  generalize releaseAt u x.gid .die = v at h1 ⊢
  split
  · exact hu
  · split
    · next h => exact standPush_wf _ _ _ _ _ _ h1 (placePush_wf h h1)
    · exact State.modCore_wf _ _ _ (waitIn_wf _ _ _ _ h1)

@[simp] theorem pushTurn_wf (s : State) (cid : Nat) (ix : Nat) (hs : s.mem.wf = true) : (pushTurn s cid ix).mem.wf = true := by
  first | simp only [pushTurn] | unfold pushTurn
  repeat' (first
    | with_reducible assumption
    | with_reducible refine ite_wf ?_ ?_
    | (simp +contextual (maxDischargeDepth := 40) [*]; done)
    | dsimp only
    | (split <;> try (rename_i heq; first | (with_reducible have hk := globalPut_wf heq (by simp +contextual (maxDischargeDepth := 40) [*])) | (with_reducible have hk := regWrite_wf heq (by simp +contextual (maxDischargeDepth := 40) [*])) | (with_reducible have hk := devStore32_wf heq (by simp +contextual (maxDischargeDepth := 40) [*])) | (with_reducible have hk := devStore_wf heq (by simp +contextual (maxDischargeDepth := 40) [*])) | (with_reducible have hk := refuseShare_wf heq (by simp +contextual (maxDischargeDepth := 40) [*])) | (with_reducible have hk := placeMsg_wf heq (by simp +contextual (maxDischargeDepth := 40) [*])) | (with_reducible have hk := placePush_wf heq (by simp +contextual (maxDischargeDepth := 40) [*])) | (simp only [Prod.ext_iff] at heq; first | obtain ⟨_, _, rfl⟩ := heq | obtain ⟨_, rfl⟩ := heq | obtain ⟨rfl, _⟩ := heq))))

theorem execHpushPlace_wf {c : Nat} {ix : Nat} {s : State} {r' : _} (hr : (execHpushPlace c ix s) = .next r') (hs : s.mem.wf = true) : r'.mem.wf = true := by cases hr; simp [*]

@[simp] theorem tryHpop_wf (s : State) (gid : Nat) (hs : s.mem.wf = true) : (tryHpop s gid).mem.wf = true := by
  unfold tryHpop
  repeat' (first | with_reducible refine ite_wf ?_ ?_ | split | (simp +contextual (maxDischargeDepth := 40) [*]; done))

theorem execHpop_wf {o : Ops} {s : State} {r' : _} (hr : (execHpop o s) = .next r') (hs : s.mem.wf = true) : r'.mem.wf = true := by cases hr; simp +contextual (maxDischargeDepth := 40) [*]

theorem execHpopTake_wf {g : Nat} {s : State} {r' : _} (hr : (execHpopTake g s) = .next r') (hs : s.mem.wf = true) : r'.mem.wf = true := by cases hr; simp [*]

theorem execHpopJ_wf {o : Ops} {s : State} {r' : _} (hr : (execHpopJ o s) = .next r') (hs : s.mem.wf = true) : r'.mem.wf = true := by
  cases hr
  refine issue_wf _ _ _ (fun _ _ h => ?_) hs
  repeat' (first | split | (simp +contextual (maxDischargeDepth := 40) [*]; done))

theorem execHstat_wf {o : Ops} {s : State} {r' : _} (hr : (execHstat o s) = .next r') (hs : s.mem.wf = true) : r'.mem.wf = true := by cases hr; simp +contextual (maxDischargeDepth := 40) [*]

@[simp] theorem joinHalt_wf (s : State) (tid : Nat) (hs : s.mem.wf = true) : (joinHalt s tid).mem.wf = true := by
  unfold joinHalt
  repeat' (first | with_reducible refine ite_wf ?_ ?_ | split | (simp +contextual (maxDischargeDepth := 40) [*]; done))

@[simp] theorem jobLaunch_wf (s : State) (tid : Nat) (hs : s.mem.wf = true) : (jobLaunch s tid).mem.wf = true := by
  first | simp only [jobLaunch] | unfold jobLaunch
  repeat' (first
    | with_reducible assumption
    | with_reducible refine ite_wf ?_ ?_
    | (simp +contextual (maxDischargeDepth := 40) [*]; done)
    | dsimp only
    | split)

theorem execJobLaunch_wf {t : Nat} {s : State} {r' : _} (hr : (execJobLaunch t s) = .next r') (hs : s.mem.wf = true) : r'.mem.wf = true := by cases hr; simp [*]

theorem execEvsig_wf {o : Ops} {op : EvOp} {s : State} {r' : _} (hr : (execEvsig o op s) = .next r') (hs : s.mem.wf = true) : r'.mem.wf = true := by
  simp only [execEvsig, next, Host.Outcome.next.injEq] at hr
  subst hr
  repeat' (first
    | with_reducible assumption
    | with_reducible refine ite_wf ?_ ?_
    | with_reducible refine iteOut_wf ?_ ?_
    | with_reducible refine issue_wf _ _ _ (fun _ _ _ => ?_) ?_
    | with_reducible refine onWord_wf _ _ _ _ (fun _ _ _ => ?_) ?_
    | (simp +contextual (maxDischargeDepth := 40) [*]; done)
    | dsimp only
    | split)

@[simp] theorem tryEvwait_wf (s : State) (gid : Nat) (hs : s.mem.wf = true) : (tryEvwait s gid).mem.wf = true := by
  first | simp only [tryEvwait] | unfold tryEvwait
  repeat' (first
    | with_reducible assumption
    | with_reducible refine ite_wf ?_ ?_
    | (simp +contextual (maxDischargeDepth := 40) [*]; done)
    | dsimp only
    | split)

@[simp] theorem sendWatch_wf (s : State) (e : W32) (hs : s.mem.wf = true) : (sendWatch s e).mem.wf = true := by
  unfold sendWatch
  split <;> simp [*]

theorem execEvwait_wf {o : Ops} {s : State} {r' : _} (hr : (execEvwait o s) = .next r') (hs : s.mem.wf = true) : r'.mem.wf = true := by
  first | (simp only [execEvwait, next, Host.Outcome.next.injEq] at hr; subst hr) | unfold execEvwait at hr
  repeat' (first
    | with_reducible assumption
    | contradiction
    | (cases hr; done)
    | (injection hr with hr; subst hr)
    | with_reducible refine ite_wf ?_ ?_
    | with_reducible refine ite_wf1 ?_ ?_
    | with_reducible refine ite_wf2 ?_ ?_
    | with_reducible refine ite_wf22 ?_ ?_
    | with_reducible refine iteOut_wf ?_ ?_
    | with_reducible refine foldl_wf _ _ _ (fun _ _ _ => ?_) ?_
    | with_reducible refine foldl_wf1 _ _ _ (fun _ _ _ => ?_) ?_
    | with_reducible refine foldl_wf2 _ _ _ (fun _ _ _ => ?_) ?_
    | with_reducible refine foldl_wf22 _ _ _ (fun _ _ _ => ?_) ?_
    | (simp +contextual (maxDischargeDepth := 40) [apply_ite Prod.fst, apply_ite Prod.snd, apply_ite State.mem, apply_ite Memory.wf, apply_ite Out.s, *]; done)
    | (split at hr <;> try (rename_i heq; first | (with_reducible have hk := globalPut_wf heq (by simp +contextual (maxDischargeDepth := 40) [*])) | (with_reducible have hk := regWrite_wf heq (by simp +contextual (maxDischargeDepth := 40) [*])) | (with_reducible have hk := devStore32_wf heq (by simp +contextual (maxDischargeDepth := 40) [*])) | (with_reducible have hk := devStore_wf heq (by simp +contextual (maxDischargeDepth := 40) [*])) | (with_reducible have hk := refuseShare_wf heq (by simp +contextual (maxDischargeDepth := 40) [*])) | (with_reducible have hk := placeMsg_wf heq (by simp +contextual (maxDischargeDepth := 40) [*])) | (with_reducible have hk := placePush_wf heq (by simp +contextual (maxDischargeDepth := 40) [*])) | (simp only [Prod.ext_iff] at heq; first | obtain ⟨_, _, rfl⟩ := heq | obtain ⟨_, rfl⟩ := heq | obtain ⟨rfl, _⟩ := heq)))
    | (with_reducible exact globalPut_wf hr (by simp +contextual (maxDischargeDepth := 40) [*]))
    | (with_reducible exact regWrite_wf hr (by simp +contextual (maxDischargeDepth := 40) [*]))
    | (with_reducible exact devStore32_wf hr (by simp +contextual (maxDischargeDepth := 40) [*]))
    | (with_reducible exact devStore_wf hr (by simp +contextual (maxDischargeDepth := 40) [*]))
    | (with_reducible exact refuseShare_wf hr (by simp +contextual (maxDischargeDepth := 40) [*]))
    | (with_reducible exact placeMsg_wf hr (by simp +contextual (maxDischargeDepth := 40) [*]))
    | (with_reducible exact placePush_wf hr (by simp +contextual (maxDischargeDepth := 40) [*]))
    | dsimp only at hr
    | with_reducible refine Out.done_wf _ ?_
    | with_reducible refine Out.fail_wf _ _ _ _ ?_
    | with_reducible refine Out.hold_wf _ _ ?_
    | with_reducible refine Out.over_wf _ ?_
    | with_reducible refine issue_wf _ _ _ (fun _ _ _ => ?_) ?_
    | with_reducible refine transfer_wf _ _ _ _ _ _ _ (fun _ _ _ => ?_) ?_
    | with_reducible refine waitThen_wf _ _ _ (fun _ _ _ => ?_) ?_
    | with_reducible refine onWord_wf _ _ _ _ (fun _ _ _ => ?_) ?_
    | with_reducible refine inCluster_wf _ _ _ (fun _ _ _ _ _ => ?_) ?_
    | dsimp only
    | (split <;> try (rename_i heq; first | (with_reducible have hk := globalPut_wf heq (by simp +contextual (maxDischargeDepth := 40) [*])) | (with_reducible have hk := regWrite_wf heq (by simp +contextual (maxDischargeDepth := 40) [*])) | (with_reducible have hk := devStore32_wf heq (by simp +contextual (maxDischargeDepth := 40) [*])) | (with_reducible have hk := devStore_wf heq (by simp +contextual (maxDischargeDepth := 40) [*])) | (with_reducible have hk := refuseShare_wf heq (by simp +contextual (maxDischargeDepth := 40) [*])) | (with_reducible have hk := placeMsg_wf heq (by simp +contextual (maxDischargeDepth := 40) [*])) | (with_reducible have hk := placePush_wf heq (by simp +contextual (maxDischargeDepth := 40) [*])) | (simp only [Prod.ext_iff] at heq; first | obtain ⟨_, _, rfl⟩ := heq | obtain ⟨_, rfl⟩ := heq | obtain ⟨rfl, _⟩ := heq)))
    | (simp +contextual (maxDischargeDepth := 40) [apply_ite Prod.fst, apply_ite Prod.snd, apply_ite State.mem, apply_ite Memory.wf, apply_ite Out.s, *]))

theorem execEvwaitRelease_wf {g : Nat} {s : State} {r' : _} (hr : (execEvwaitRelease g s) = .next r') (hs : s.mem.wf = true) : r'.mem.wf = true := by cases hr; simp [*]

@[simp] theorem tryJdone_wf (s : State) (gid : Nat) (hs : s.mem.wf = true) : (tryJdone s gid).mem.wf = true := by
  unfold tryJdone
  repeat' (first | with_reducible refine ite_wf ?_ ?_ | split | (simp +contextual (maxDischargeDepth := 40) [*]; done))

theorem execJdone_wf {o : Ops} {s : State} {r' : _} (hr : (execJdone o s) = .next r') (hs : s.mem.wf = true) : r'.mem.wf = true := by cases hr; simp +contextual (maxDischargeDepth := 40) [*]

theorem execJdoneRelease_wf {g : Nat} {s : State} {r' : _} (hr : (execJdoneRelease g s) = .next r') (hs : s.mem.wf = true) : r'.mem.wf = true := by cases hr; simp [*]

@[simp] theorem publishStep_wf (s : State) (v : W64) (hs : s.mem.wf = true) : (publishStep s v).2.mem.wf = true := by
  first | simp only [publishStep] | unfold publishStep
  repeat' (first
    | with_reducible assumption
    | with_reducible refine ite_wf ?_ ?_
    | (simp +contextual (maxDischargeDepth := 40) [*]; done)
    | dsimp only
    | split)

theorem execPublish_wf {o : Ops} {s : State} {r' : _} (hr : (execPublish o s) = .next r') (hs : s.mem.wf = true) : r'.mem.wf = true := by cases hr; simp +contextual (maxDischargeDepth := 40) [*]

@[simp] theorem adoptStep_wf (s : State) (p : Nat) (hs : s.mem.wf = true) : (adoptStep s p).mem.wf = true := by
  unfold adoptStep
  repeat' (first | with_reducible refine ite_wf ?_ ?_ | split | (simp +contextual (maxDischargeDepth := 40) [*]; done))

theorem execAdopt_wf {o : Ops} {s : State} {r' : _} (hr : (execAdopt o s) = .next r') (hs : s.mem.wf = true) : r'.mem.wf = true := by cases hr; simp +contextual (maxDischargeDepth := 40) [*]

@[simp] theorem tokrecBody_wf (i : Instr) (o : Ops) (x : At) (s : State) (hs : s.mem.wf = true) : (tokrecBody i o x s).s.mem.wf = true := by
  first | simp only [tokrecBody] | unfold tokrecBody
  repeat' (first
    | with_reducible assumption
    | with_reducible refine ite_wf ?_ ?_
    | (simp +contextual (maxDischargeDepth := 40) [*]; done)
    | dsimp only
    | split)

theorem execTokrec_wf {o : Ops} {s : State} {r' : _} (hr : (execTokrec o s) = .next r') (hs : s.mem.wf = true) : r'.mem.wf = true := by cases hr; simp +contextual (maxDischargeDepth := 40) [*]

@[simp] theorem snapTrigger_wf (s : State) (tag : Byte) (hs : s.mem.wf = true) : (snapTrigger s tag).2.2.mem.wf = true := by
  unfold snapTrigger
  split <;> simp [*]

theorem execSnap_wf {o : Ops} {s : State} {r' : _} (hr : (execSnap o s) = .next r') (hs : s.mem.wf = true) : r'.mem.wf = true := by cases hr; simp +contextual (maxDischargeDepth := 40) [*]

end Sys2Proof.Machine
end

