-- ==== Sys2Proof/Laws/KeepCheckpoint.lean ====
section
/-!
SUPPORT. Memory stays in its canonical form under every function of Machine/Checkpoint.lean: one lemma each.
-/

namespace Sys2Proof.Machine

@[simp] theorem tileDone_wf (s : State) (d : Nat) (q : Nat) (n : W32) (status : W32) (failed : Bool) (hs : s.mem.wf = true) : (tileDone s d q n status failed).mem.wf = true := by
  unfold tileDone
  repeat' (first | with_reducible refine ite_wf ?_ ?_ | split | (simp +contextual (maxDischargeDepth := 40) [*]; done))

@[simp] theorem settleJob_wf (s : State) (r : JobRec) (status : W32) (failed : Bool) (hs : s.mem.wf = true) : (settleJob s r status failed).mem.wf = true := by
  first | simp only [settleJob] | unfold settleJob
  repeat' (first
    | with_reducible assumption
    | with_reducible refine ite_wf ?_ ?_
    | (simp +contextual (maxDischargeDepth := 40) [*]; done)
    | dsimp only
    | split)

@[simp] theorem dbgTurn_wf (s : State) (hs : s.mem.wf = true) : (dbgTurn s).mem.wf = true := by
  unfold dbgTurn
  repeat' (first | with_reducible refine ite_wf ?_ ?_ | split | (simp +contextual (maxDischargeDepth := 40) [*]; done))

@[simp] theorem finishStores_wf (s : State) (r : Report) (hs : s.mem.wf = true) : (finishStores s r).mem.wf = true := by simp +contextual (maxDischargeDepth := 40) [finishStores, *]

@[simp] theorem completionReport_wf (s : State) (ix : Nat) (hs : s.mem.wf = true) : (completionReport s ix).mem.wf = true := by
  first | simp only [completionReport] | unfold completionReport
  repeat' (first
    | with_reducible assumption
    | with_reducible refine ite_wf ?_ ?_
    | (simp +contextual (maxDischargeDepth := 40) [*]; done)
    | dsimp only
    | split)

theorem execJobCompletionReport_wf {ix : Nat} {s : State} {r' : _} (hr : (execJobCompletionReport ix s) = .next r') (hs : s.mem.wf = true) : r'.mem.wf = true := by cases hr; simp [*]

@[simp] theorem dropInstance_wf (s : State) (key : Nat) (hs : s.mem.wf = true) : (dropInstance s key).mem.wf = true := by simp [dropInstance, *]

@[simp] theorem withdrawCore_wf (s : State) (cid : Nat) (hs : s.mem.wf = true) : (withdrawCore s cid).mem.wf = true := by
  first | simp only [withdrawCore] | unfold withdrawCore
  repeat' (first
    | with_reducible assumption
    | with_reducible refine ite_wf ?_ ?_
    | with_reducible refine ite_wf1 ?_ ?_
    | with_reducible refine ite_wf2 ?_ ?_
    | with_reducible refine ite_wf22 ?_ ?_
    | with_reducible refine iteOut_wf ?_ ?_
    | with_reducible refine foldl_wf _ _ _ (fun _ _ _ => ?_) ?_
    | with_reducible refine foldl_wf1 _ _ _ (fun _ _ _ => ?_) ?_
    | with_reducible refine foldl_wf2 _ _ _ (fun _ _ _ => ?_) ?_
    | with_reducible refine foldl_wf22 _ _ _ (fun _ _ _ => ?_) ?_
    | (simp +contextual (maxDischargeDepth := 40) [*]; done)
    | dsimp only
    | split)

@[simp] theorem coreWake_wf (s : State) (cid : Nat) (errors : List (BitVec 2 × BitVec 12)) (hs : s.mem.wf = true) : (coreWake s cid errors).mem.wf = true := by
  first | simp only [coreWake] | unfold coreWake
  repeat' (first
    | with_reducible assumption
    | with_reducible refine ite_wf ?_ ?_
    | with_reducible refine ite_wf1 ?_ ?_
    | with_reducible refine ite_wf2 ?_ ?_
    | with_reducible refine ite_wf22 ?_ ?_
    | with_reducible refine iteOut_wf ?_ ?_
    | with_reducible refine foldl_wf _ _ _ (fun _ _ _ => ?_) ?_
    | with_reducible refine foldl_wf1 _ _ _ (fun _ _ _ => ?_) ?_
    | with_reducible refine foldl_wf2 _ _ _ (fun _ _ _ => ?_) ?_
    | with_reducible refine foldl_wf22 _ _ _ (fun _ _ _ => ?_) ?_
    | (simp +contextual (maxDischargeDepth := 40) [apply_ite Prod.fst, apply_ite Prod.snd, apply_ite State.mem, apply_ite Memory.wf, apply_ite Out.s, *]; done)
    | with_reducible refine Out.done_wf _ ?_
    | with_reducible refine Out.fail_wf _ _ _ _ ?_
    | with_reducible refine Out.hold_wf _ _ ?_
    | with_reducible refine Out.over_wf _ ?_
    | with_reducible refine issue_wf _ _ _ (fun _ _ _ => ?_) ?_
    | with_reducible refine transfer_wf _ _ _ _ _ _ _ (fun _ _ _ => ?_) ?_
    | with_reducible refine waitThen_wf _ _ _ (fun _ _ _ => ?_) ?_
    | with_reducible refine onWord_wf _ _ _ _ (fun _ _ _ => ?_) ?_
    | with_reducible refine inCluster_wf _ _ _ (fun _ _ _ _ _ => ?_) ?_
    | dsimp only
    | (split <;> try (rename_i heq; first | (with_reducible have hk := globalPut_wf heq (by simp +contextual (maxDischargeDepth := 40) [*])) | (with_reducible have hk := regWrite_wf heq (by simp +contextual (maxDischargeDepth := 40) [*])) | (with_reducible have hk := devStore32_wf heq (by simp +contextual (maxDischargeDepth := 40) [*])) | (with_reducible have hk := devStore_wf heq (by simp +contextual (maxDischargeDepth := 40) [*])) | (with_reducible have hk := refuseShare_wf heq (by simp +contextual (maxDischargeDepth := 40) [*])) | (with_reducible have hk := placeMsg_wf heq (by simp +contextual (maxDischargeDepth := 40) [*])) | (with_reducible have hk := placePush_wf heq (by simp +contextual (maxDischargeDepth := 40) [*])) | (with_reducible have hk := writeImages_wf heq (by simp +contextual (maxDischargeDepth := 40) [*])) | (with_reducible have hk := restoreOne_wf heq (by simp +contextual (maxDischargeDepth := 40) [*])) | (with_reducible have hk := restoreAll_wf heq (by simp +contextual (maxDischargeDepth := 40) [*])) | (with_reducible have hk := restoreHeld_wf heq (by simp +contextual (maxDischargeDepth := 40) [*])) | (simp only [Prod.ext_iff] at heq; first | obtain ⟨_, _, rfl⟩ := heq | obtain ⟨_, rfl⟩ := heq | obtain ⟨rfl, _⟩ := heq)))
    | (simp +contextual (maxDischargeDepth := 40) [apply_ite Prod.fst, apply_ite Prod.snd, apply_ite State.mem, apply_ite Memory.wf, apply_ite Out.s, *]))

theorem execCoreWake_wf {c : Nat} {errors : List (BitVec 2 × BitVec 12)} {s : State} {r' : _} (hr : (execCoreWake c errors s) = .next r') (hs : s.mem.wf = true) : r'.mem.wf = true := by cases hr; simp [*]

@[simp] theorem haltTeam_wf (s : State) (tid : Nat) (hs : s.mem.wf = true) : (haltTeam s tid).mem.wf = true := by
  unfold haltTeam
  repeat' (first | with_reducible refine ite_wf ?_ ?_ | split | (simp +contextual (maxDischargeDepth := 40) [*]; done))

theorem execHaltRequest_wf {t : Nat} {s : State} {r' : _} (hr : (execHaltRequest t s) = .next r') (hs : s.mem.wf = true) : r'.mem.wf = true := by cases hr; simp [*]

@[simp] theorem budgetExpire_wf (s : State) (gid : Nat) (hs : s.mem.wf = true) : (budgetExpire s gid).mem.wf = true := by
  first | simp only [budgetExpire] | unfold budgetExpire
  repeat' (first
    | with_reducible assumption
    | with_reducible refine ite_wf ?_ ?_
    | (simp +contextual (maxDischargeDepth := 40) [*]; done)
    | dsimp only
    | split)

theorem execEvwaitBudgetExpire_wf {g : Nat} {s : State} {r' : _} (hr : (execEvwaitBudgetExpire g s) = .next r') (hs : s.mem.wf = true) : r'.mem.wf = true := by cases hr; simp [*]

@[simp] theorem leaveSaved_wf (s : State) (tid : Nat) (hs : s.mem.wf = true) : (leaveSaved s tid).mem.wf = true := by simp +contextual (maxDischargeDepth := 40) [leaveSaved, *]

theorem writeImages_wf {s : State} {p : Nat} {flags : Nat} {l : List (Nat × W64)} {extra : List Byte} {r' : _} (hr : (writeImages s p flags l extra) = some r') (hs : s.mem.wf = true) : r'.mem.wf = true := by
  refine foldl_keeps (p := fun a : Option State × List Byte => ∀ r, a.1 = some r → r.mem.wf = true) _ ?_ _ _ ?_ _ hr
  · intro a e ha r hr
    split at hr
    · next s1 j h1 _ =>
      split at hr
      · next s2 h2 =>
        simp only [Option.some.injEq] at hr
        subst hr
        exact globalPut_wf h2 (ha _ h1)
      · simp at hr
    · simp at hr
  · intro r hr
    simp only [Option.some.injEq] at hr
    subst hr
    exact hs

@[simp] theorem holdImage_wf (s : State) (h : Held) (r : JobRec) (hs : s.mem.wf = true) : (holdImage s h r).mem.wf = true := by
  unfold holdImage
  split <;> simp [*]

@[simp] theorem save_wf (s : State) (tid : Nat) (lost : Bool) (hs : s.mem.wf = true) : (save s tid lost).mem.wf = true := by
  first | simp only [save] | unfold save
  repeat' (first
    | with_reducible assumption
    | with_reducible refine ite_wf ?_ ?_
    | (simp +contextual (maxDischargeDepth := 40) [*]; done)
    | dsimp only
    | (split <;> try (rename_i heq; first | (with_reducible have hk := globalPut_wf heq (by simp +contextual (maxDischargeDepth := 40) [*])) | (with_reducible have hk := regWrite_wf heq (by simp +contextual (maxDischargeDepth := 40) [*])) | (with_reducible have hk := devStore32_wf heq (by simp +contextual (maxDischargeDepth := 40) [*])) | (with_reducible have hk := devStore_wf heq (by simp +contextual (maxDischargeDepth := 40) [*])) | (with_reducible have hk := refuseShare_wf heq (by simp +contextual (maxDischargeDepth := 40) [*])) | (with_reducible have hk := placeMsg_wf heq (by simp +contextual (maxDischargeDepth := 40) [*])) | (with_reducible have hk := placePush_wf heq (by simp +contextual (maxDischargeDepth := 40) [*])) | (with_reducible have hk := writeImages_wf heq (by simp +contextual (maxDischargeDepth := 40) [*])) | (with_reducible have hk := restoreOne_wf heq (by simp +contextual (maxDischargeDepth := 40) [*])) | (with_reducible have hk := restoreAll_wf heq (by simp +contextual (maxDischargeDepth := 40) [*])) | (with_reducible have hk := restoreHeld_wf heq (by simp +contextual (maxDischargeDepth := 40) [*])) | (simp only [Prod.ext_iff] at heq; first | obtain ⟨_, _, rfl⟩ := heq | obtain ⟨_, rfl⟩ := heq | obtain ⟨rfl, _⟩ := heq))))

theorem execCheckpointSave_wf {t : Nat} {lost : Bool} {s : State} {r' : _} (hr : (execCheckpointSave t lost s) = .next r') (hs : s.mem.wf = true) : r'.mem.wf = true := by cases hr; simp [*]

@[simp] theorem queueSaved_wf (s : State) (gid : Nat) (m : Img) (k : Nat) (hs : s.mem.wf = true) : (queueSaved s gid m k).mem.wf = true := by
  unfold queueSaved
  repeat' (first | with_reducible refine ite_wf ?_ ?_ | split | (simp +contextual (maxDischargeDepth := 40) [*]; done))

@[simp] theorem loadImg_wf (s : State) (m : Img) (tid : Nat) (j : Job) (hs : s.mem.wf = true) : (loadImg s m tid j).mem.wf = true := by
  first | simp only [loadImg] | unfold loadImg
  repeat' (first
    | with_reducible assumption
    | with_reducible refine ite_wf ?_ ?_
    | (simp +contextual (maxDischargeDepth := 40) [*]; done)
    | dsimp only
    | split)

theorem restoreOne_wf {s : State} {c : Ctx} {a : W64} {tid : Nat} {held : Option Job} {mk : Img → KHdr → Job} {leases : List Lease} {r' : _} (hr : (restoreOne s c a tid held mk leases) = .ok r') (hs : s.mem.wf = true) : r'.2.mem.wf = true := by
  unfold restoreOne at hr
  repeat' (first
    | with_reducible assumption
    | contradiction
    | (cases hr; done)
    | (injection hr with hr; subst hr)
    | with_reducible refine ite_wf ?_ ?_
    | (simp +contextual (maxDischargeDepth := 40) [*]; done)
    | split at hr
    | dsimp only at hr
    | dsimp only
    | split)

@[simp] theorem queueAll_wf (s : State) (tid : Nat) (m : Img) (hs : s.mem.wf = true) : (queueAll s tid m).mem.wf = true := by simp +contextual (maxDischargeDepth := 40) [queueAll, *]

theorem restoreAll_wf {s : State} {c : Ctx} {l : List (Nat × W64 × Option Job)} {mk : Nat → Option Job → Img → KHdr → Job} {leases : List Lease} {r' : _} (hr : (restoreAll s c l mk leases) = .ok r') (hs : s.mem.wf = true) : r'.mem.wf = true := by
  unfold restoreAll at hr
  have hk : ∀ s1 ms1, l.foldl (fun (a : Except W32 (State × List (Nat × Img))) e =>
      match a with
      | .error f => .error f
      | .ok (s, ms) => match restoreOne s c e.2.1 e.1 e.2.2 (mk e.1 e.2.2) leases with
        | .error f => .error f
        | .ok (m, s) => .ok (s, ms ++ [(e.1, m)])) (.ok (s, [])) = .ok (s1, ms1) → s1.mem.wf = true := by
    refine foldl_keeps (p := fun a : Except W32 (State × List (Nat × Img)) => ∀ s1 ms1, a = .ok (s1, ms1) → s1.mem.wf = true) _ ?_ _ _ ?_
    · intro a e ha s1 ms1 h1
      split at h1
      · cases h1
      · next s2 ms2 =>
        split at h1
        · cases h1
        · next m s3 h3 =>
          cases h1
          exact restoreOne_wf h3 (ha _ _ rfl)
    · intro s1 ms1 h1
      cases h1
      exact hs
  dsimp only at hr
  split at hr
  · cases hr
  · next s1 ms1 h1 =>
    cases hr
    exact foldl_wf _ _ _ (fun _ _ h => queueAll_wf _ _ _ h) (hk _ _ h1)

@[simp] theorem joinCluster_wf (s : State) (o : Nat) (ms : List Nat) (team : Nat) (cw : Nat) (ch : Nat) (bs : List Byte) (hs : s.mem.wf = true) : (joinCluster s o ms team cw ch bs).mem.wf = true := by simp +contextual (maxDischargeDepth := 40) [joinCluster, *]

@[simp] theorem dropHeld_wf (s : State) (d : Nat) (q : Nat) (h : Held) (hs : s.mem.wf = true) : (dropHeld s d q h).mem.wf = true := by simp +contextual (maxDischargeDepth := 40) [dropHeld, *]

theorem restoreHeld_wf {s : State} {c : Ctx} {h : Held} {o : Nat} {ts : List Nat} {re : Option (Nat × Nat × W32)} {r' : _} (hr : (restoreHeld s c h o ts re) = .ok r') (hs : s.mem.wf = true) : r'.mem.wf = true := by
  unfold restoreHeld at hr
  dsimp only at hr
  split at hr
  · split at hr
    · split at hr
      · cases hr
      · split at hr
        · cases hr
        · next h2 =>
          cases hr
          exact joinCluster_wf _ _ _ _ _ _ _ (restoreAll_wf h2 hs)
    · generalize hx : restoreAll s c _ _ _ = x at hr
      cases x with
      | error e => cases hr
      | ok t =>
        cases hr
        exact foldl_wf _ _ _ (fun _ _ h => releaseRestored_wf _ _ h) (restoreAll_wf hx hs)
  · cases hr

@[simp] theorem failHeld_wf (s : State) (h : Held) (f : W32) (hs : s.mem.wf = true) : (failHeld s h f).mem.wf = true := by
  unfold failHeld
  repeat' (first | with_reducible refine ite_wf ?_ ?_ | split | (simp +contextual (maxDischargeDepth := 40) [*]; done))

@[simp] theorem resumeNext_wf (s : State) (d : Nat) (q : Nat) (hs : s.mem.wf = true) : (resumeNext s d q).mem.wf = true := by
  first | simp only [resumeNext] | unfold resumeNext
  repeat' (first
    | with_reducible assumption
    | with_reducible refine ite_wf ?_ ?_
    | (simp +contextual (maxDischargeDepth := 40) [*]; done)
    | dsimp only
    | (split <;> try (rename_i heq; first | (with_reducible have hk := globalPut_wf heq (by simp +contextual (maxDischargeDepth := 40) [*])) | (with_reducible have hk := regWrite_wf heq (by simp +contextual (maxDischargeDepth := 40) [*])) | (with_reducible have hk := devStore32_wf heq (by simp +contextual (maxDischargeDepth := 40) [*])) | (with_reducible have hk := devStore_wf heq (by simp +contextual (maxDischargeDepth := 40) [*])) | (with_reducible have hk := refuseShare_wf heq (by simp +contextual (maxDischargeDepth := 40) [*])) | (with_reducible have hk := placeMsg_wf heq (by simp +contextual (maxDischargeDepth := 40) [*])) | (with_reducible have hk := placePush_wf heq (by simp +contextual (maxDischargeDepth := 40) [*])) | (with_reducible have hk := writeImages_wf heq (by simp +contextual (maxDischargeDepth := 40) [*])) | (with_reducible have hk := restoreOne_wf heq (by simp +contextual (maxDischargeDepth := 40) [*])) | (with_reducible have hk := restoreAll_wf heq (by simp +contextual (maxDischargeDepth := 40) [*])) | (with_reducible have hk := restoreHeld_wf heq (by simp +contextual (maxDischargeDepth := 40) [*])) | (simp only [Prod.ext_iff] at heq; first | obtain ⟨_, _, rfl⟩ := heq | obtain ⟨_, rfl⟩ := heq | obtain ⟨rfl, _⟩ := heq))))

theorem execResumeListResume_wf {d : Nat} {q : Nat} {s : State} {r' : _} (hr : (execResumeListResume d q s) = .next r') (hs : s.mem.wf = true) : r'.mem.wf = true := by cases hr; simp [*]

@[simp] theorem linkdown_wf (s : State) (d : Nat) (site : Nat) (dir : Nat) (hs : s.mem.wf = true) : (linkdown s d site dir).mem.wf = true := by
  unfold linkdown
  split <;> simp [*]

theorem execLinkdown_wf {d : Nat} {site : Nat} {dir : Nat} {s : State} {r' : _} (hr : (execLinkdown d site dir s) = .next r') (hs : s.mem.wf = true) : r'.mem.wf = true := by cases hr; simp [*]

@[simp] theorem settlePair_wf (s : State) (e : SeqEnt) (hs : s.mem.wf = true) : (settlePair s e).mem.wf = true := by
  unfold settlePair
  refine popEnt_wf _ _ (foldl_wf _ _ _ (fun t h ht => ?_) hs)
  exact ite_wf ht (ite_wf (matRun_wf _ _ _ _ (State.freeVal_wf _ ht)) (State.freeVal_wf _ ht))

@[simp] theorem coreLost_wf (s : State) (cid : Nat) (hs : s.mem.wf = true) : (coreLost s cid).mem.wf = true := by
  first | simp only [coreLost] | unfold coreLost
  repeat' (first
    | with_reducible assumption
    | with_reducible refine ite_wf ?_ ?_
    | with_reducible refine ite_wf1 ?_ ?_
    | with_reducible refine ite_wf2 ?_ ?_
    | with_reducible refine ite_wf22 ?_ ?_
    | with_reducible refine iteOut_wf ?_ ?_
    | with_reducible refine foldl_wf _ _ _ (fun _ _ _ => ?_) ?_
    | with_reducible refine foldl_wf1 _ _ _ (fun _ _ _ => ?_) ?_
    | with_reducible refine foldl_wf2 _ _ _ (fun _ _ _ => ?_) ?_
    | with_reducible refine foldl_wf22 _ _ _ (fun _ _ _ => ?_) ?_
    | (simp +contextual (maxDischargeDepth := 40) [apply_ite Prod.fst, apply_ite Prod.snd, apply_ite State.mem, apply_ite Memory.wf, apply_ite Out.s, *]; done)
    | with_reducible refine Out.done_wf _ ?_
    | with_reducible refine Out.fail_wf _ _ _ _ ?_
    | with_reducible refine Out.hold_wf _ _ ?_
    | with_reducible refine Out.over_wf _ ?_
    | with_reducible refine issue_wf _ _ _ (fun _ _ _ => ?_) ?_
    | with_reducible refine transfer_wf _ _ _ _ _ _ _ (fun _ _ _ => ?_) ?_
    | with_reducible refine waitThen_wf _ _ _ (fun _ _ _ => ?_) ?_
    | with_reducible refine onWord_wf _ _ _ _ (fun _ _ _ => ?_) ?_
    | with_reducible refine inCluster_wf _ _ _ (fun _ _ _ _ _ => ?_) ?_
    | dsimp only
    | (split <;> try (rename_i heq; first | (with_reducible have hk := globalPut_wf heq (by simp +contextual (maxDischargeDepth := 40) [*])) | (with_reducible have hk := regWrite_wf heq (by simp +contextual (maxDischargeDepth := 40) [*])) | (with_reducible have hk := devStore32_wf heq (by simp +contextual (maxDischargeDepth := 40) [*])) | (with_reducible have hk := devStore_wf heq (by simp +contextual (maxDischargeDepth := 40) [*])) | (with_reducible have hk := refuseShare_wf heq (by simp +contextual (maxDischargeDepth := 40) [*])) | (with_reducible have hk := placeMsg_wf heq (by simp +contextual (maxDischargeDepth := 40) [*])) | (with_reducible have hk := placePush_wf heq (by simp +contextual (maxDischargeDepth := 40) [*])) | (with_reducible have hk := writeImages_wf heq (by simp +contextual (maxDischargeDepth := 40) [*])) | (with_reducible have hk := restoreOne_wf heq (by simp +contextual (maxDischargeDepth := 40) [*])) | (with_reducible have hk := restoreAll_wf heq (by simp +contextual (maxDischargeDepth := 40) [*])) | (with_reducible have hk := restoreHeld_wf heq (by simp +contextual (maxDischargeDepth := 40) [*])) | (simp only [Prod.ext_iff] at heq; first | obtain ⟨_, _, rfl⟩ := heq | obtain ⟨_, rfl⟩ := heq | obtain ⟨rfl, _⟩ := heq)))
    | (simp +contextual (maxDischargeDepth := 40) [apply_ite Prod.fst, apply_ite Prod.snd, apply_ite State.mem, apply_ite Memory.wf, apply_ite Out.s, *]))

theorem execCoreLost_wf {c : Nat} {s : State} {r' : _} (hr : (execCoreLost c s) = .next r') (hs : s.mem.wf = true) : r'.mem.wf = true := by cases hr; simp [*]

end Sys2Proof.Machine
end

