-- ==== Sys2Proof/Laws/KeepRecords.lean ====
section
/-!
SUPPORT. Memory stays in its canonical form under every function of Machine/Records.lean: one lemma each.
-/

namespace Sys2Proof.Machine

theorem docPut_wf {s : State} {d : Nat} {p : Nat} {a : W64} {bs : List Byte} {r' : _} (hr : (docPut s d p a bs) = .ok r') (hs : s.mem.wf = true) : r'.mem.wf = true := by
  unfold docPut at hr
  repeat' (first
    | with_reducible assumption
    | contradiction
    | (cases hr; done)
    | (injection hr with hr; subst hr)
    | with_reducible refine ite_wf ?_ ?_
    | (simp +contextual (maxDischargeDepth := 40) [*]; done)
    | (split at hr <;> try (rename_i heq; first | (with_reducible have hk := globalPut_wf heq (by simp +contextual (maxDischargeDepth := 40) [*])) | (with_reducible have hk := regWrite_wf heq (by simp +contextual (maxDischargeDepth := 40) [*])) | (with_reducible have hk := devStore32_wf heq (by simp +contextual (maxDischargeDepth := 40) [*])) | (with_reducible have hk := devStore_wf heq (by simp +contextual (maxDischargeDepth := 40) [*])) | (with_reducible have hk := refuseShare_wf heq (by simp +contextual (maxDischargeDepth := 40) [*])) | (with_reducible have hk := placeMsg_wf heq (by simp +contextual (maxDischargeDepth := 40) [*])) | (with_reducible have hk := placePush_wf heq (by simp +contextual (maxDischargeDepth := 40) [*])) | (with_reducible have hk := writeImages_wf heq (by simp +contextual (maxDischargeDepth := 40) [*])) | (with_reducible have hk := restoreOne_wf heq (by simp +contextual (maxDischargeDepth := 40) [*])) | (with_reducible have hk := restoreAll_wf heq (by simp +contextual (maxDischargeDepth := 40) [*])) | (with_reducible have hk := restoreHeld_wf heq (by simp +contextual (maxDischargeDepth := 40) [*])) | (with_reducible have hk := docPut_wf heq (by simp +contextual (maxDischargeDepth := 40) [*])) | (simp only [Prod.ext_iff] at heq; first | obtain ⟨_, _, rfl⟩ := heq | obtain ⟨_, rfl⟩ := heq | obtain ⟨rfl, _⟩ := heq)))
    | (with_reducible exact globalPut_wf hr (by simp +contextual (maxDischargeDepth := 40) [*]))
    | (with_reducible exact regWrite_wf hr (by simp +contextual (maxDischargeDepth := 40) [*]))
    | (with_reducible exact devStore32_wf hr (by simp +contextual (maxDischargeDepth := 40) [*]))
    | (with_reducible exact devStore_wf hr (by simp +contextual (maxDischargeDepth := 40) [*]))
    | (with_reducible exact refuseShare_wf hr (by simp +contextual (maxDischargeDepth := 40) [*]))
    | (with_reducible exact placeMsg_wf hr (by simp +contextual (maxDischargeDepth := 40) [*]))
    | (with_reducible exact placePush_wf hr (by simp +contextual (maxDischargeDepth := 40) [*]))
    | (with_reducible exact writeImages_wf hr (by simp +contextual (maxDischargeDepth := 40) [*]))
    | (with_reducible exact restoreOne_wf hr (by simp +contextual (maxDischargeDepth := 40) [*]))
    | (with_reducible exact restoreAll_wf hr (by simp +contextual (maxDischargeDepth := 40) [*]))
    | (with_reducible exact restoreHeld_wf hr (by simp +contextual (maxDischargeDepth := 40) [*]))
    | (with_reducible exact docPut_wf hr (by simp +contextual (maxDischargeDepth := 40) [*]))
    | dsimp only at hr
    | dsimp only
    | (split <;> try (rename_i heq; first | (with_reducible have hk := globalPut_wf heq (by simp +contextual (maxDischargeDepth := 40) [*])) | (with_reducible have hk := regWrite_wf heq (by simp +contextual (maxDischargeDepth := 40) [*])) | (with_reducible have hk := devStore32_wf heq (by simp +contextual (maxDischargeDepth := 40) [*])) | (with_reducible have hk := devStore_wf heq (by simp +contextual (maxDischargeDepth := 40) [*])) | (with_reducible have hk := refuseShare_wf heq (by simp +contextual (maxDischargeDepth := 40) [*])) | (with_reducible have hk := placeMsg_wf heq (by simp +contextual (maxDischargeDepth := 40) [*])) | (with_reducible have hk := placePush_wf heq (by simp +contextual (maxDischargeDepth := 40) [*])) | (with_reducible have hk := writeImages_wf heq (by simp +contextual (maxDischargeDepth := 40) [*])) | (with_reducible have hk := restoreOne_wf heq (by simp +contextual (maxDischargeDepth := 40) [*])) | (with_reducible have hk := restoreAll_wf heq (by simp +contextual (maxDischargeDepth := 40) [*])) | (with_reducible have hk := restoreHeld_wf heq (by simp +contextual (maxDischargeDepth := 40) [*])) | (with_reducible have hk := docPut_wf heq (by simp +contextual (maxDischargeDepth := 40) [*])) | (simp only [Prod.ext_iff] at heq; first | obtain ⟨_, _, rfl⟩ := heq | obtain ⟨_, rfl⟩ := heq | obtain ⟨rfl, _⟩ := heq))))

@[simp] theorem tailWake_wf (s : State) (d : Nat) (q : Nat) (hs : s.mem.wf = true) : (tailWake s d q).mem.wf = true := by
  unfold tailWake
  repeat' (first | with_reducible refine ite_wf ?_ ?_ | split | (simp +contextual (maxDischargeDepth := 40) [*]; done))

theorem execQueueTailWake_wf {d : Nat} {q : Nat} {s : State} {r' : _} (hr : (execQueueTailWake d q s) = .next r') (hs : s.mem.wf = true) : r'.mem.wf = true := by cases hr; simp [*]

@[simp] theorem launch_wf (i : Instr) (h : RecHdr) (s : State) (body : Nat → Nat → W32 → State → State) (hbody : ∀ x0 x1 x2 s3, s3.mem.wf = true → (body x0 x1 x2 s3).mem.wf = true) (hs : s.mem.wf = true) : (launch i h s body).mem.wf = true := by
  unfold launch
  repeat' (first | with_reducible refine ite_wf ?_ ?_ | split | (simp +contextual (maxDischargeDepth := 40) [*]; done))

@[simp] theorem standRec_wf (s : State) (d : Nat) (q : Nat) (n : W32) (i : Instr) (hs : s.mem.wf = true) : (standRec s d q n i).mem.wf = true := by simp [standRec, *]

@[simp] theorem doneRec_wf (s : State) (d : Nat) (q : Nat) (n : W32) (i : Instr) (status : W32) (failed : Bool) (hs : s.mem.wf = true) : (doneRec s d q n i status failed).mem.wf = true := by simp [doneRec, *]

@[simp] theorem doneWith_wf (d : Nat) (q : Nat) (n : W32) (i : Instr) (s : State) (r : Except W32 State)
    (hr : ∀ t, r = .ok t → t.mem.wf = true) (hs : s.mem.wf = true) : (doneWith d q n i s r).mem.wf = true := by
  unfold doneWith
  split
  · exact doneRec_wf _ _ _ _ _ _ _ (hr _ rfl)
  · exact doneRec_wf _ _ _ _ _ _ _ hs

@[simp] theorem whenDone_wf (body : Nat → Nat → W32 → State → State) (d : Nat) (q : Nat) (n : W32) (s : State) (hbody : ∀ x0 x1 x2 s3, s3.mem.wf = true → (body x0 x1 x2 s3).mem.wf = true) (hs : s.mem.wf = true) : (whenDone body d q n s).mem.wf = true := by
  unfold whenDone
  split <;> simp [*]

theorem execNopRecord_wf {h : RecHdr} {s : State} {r' : _} (hr : (execNopRecord h s) = .next r') (hs : s.mem.wf = true) : r'.mem.wf = true := by cases hr; simp +contextual (maxDischargeDepth := 40) [*]

theorem execSigev_wf {h : RecHdr} {op : EvOp} {event : W32} {n : W32} {s : State} {r' : _} (hr : (execSigev h op event n s) = .next r') (hs : s.mem.wf = true) : r'.mem.wf = true := by cases hr; simp +contextual (maxDischargeDepth := 40) [*]

theorem execMark_wf {h : RecHdr} {addr : W64} {value : W64} {s : State} {r' : _} (hr : (execMark h addr value s) = .next r') (hs : s.mem.wf = true) : r'.mem.wf = true := by
  first | (simp only [execMark, next, Host.Outcome.next.injEq] at hr; subst hr) | unfold execMark at hr
  repeat' (first
    | with_reducible assumption
    | contradiction
    | (cases hr; done)
    | (injection hr with hr; subst hr)
    | with_reducible refine ite_wf ?_ ?_
    | (simp +contextual (maxDischargeDepth := 40) [*]; done)
    | split at hr
    | dsimp only at hr
    | with_reducible refine Out.done_wf _ ?_
    | with_reducible refine Out.fail_wf _ _ _ _ ?_
    | with_reducible refine Out.hold_wf _ _ ?_
    | with_reducible refine Out.over_wf _ ?_
    | with_reducible refine issue_wf _ _ _ (fun _ _ _ => ?_) ?_
    | with_reducible refine transfer_wf _ _ _ _ _ _ _ (fun _ _ _ => ?_) ?_
    | with_reducible refine waitThen_wf _ _ _ (fun _ _ _ => ?_) ?_
    | with_reducible refine onWord_wf _ _ _ _ (fun _ _ _ => ?_) ?_
    | with_reducible refine inCluster_wf _ _ _ (fun _ _ _ _ _ => ?_) ?_
    | with_reducible refine launch_wf _ _ _ _ (fun _ _ _ _ _ => ?_) ?_
    | with_reducible refine whenDone_wf _ (fun _ _ _ _ _ => ?_) ?_
    | with_reducible refine doneWith_wf _ _ _ _ _ _ (fun _ hr => docPut_wf hr ?_) ?_
    | with_reducible refine resumed_wf _ _ _ _ _ _ _ (fun _ hr => restoreHeld_wf hr ?_) ?_
    | with_reducible refine resumed_wf _ _ _ _ _ _ _ (fun _ hr => restoreAll_wf hr ?_) ?_
    | dsimp only
    | split)

@[simp] theorem waitevBody_wf (h : RecHdr) (e : W32) (d : Nat) (q : Nat) (n : W32) (s : State) (hs : s.mem.wf = true) : (waitevBody h e d q n s).mem.wf = true := by
  unfold waitevBody
  repeat' (first | with_reducible refine ite_wf ?_ ?_ | split | (simp +contextual (maxDischargeDepth := 40) [*]; done))

theorem execWaitev_wf {h : RecHdr} {event : W32} {s : State} {r' : _} (hr : (execWaitev h event s) = .next r') (hs : s.mem.wf = true) : r'.mem.wf = true := by cases hr; simp +contextual (maxDischargeDepth := 40) [*]

theorem execAdoptRecord_wf {h : RecHdr} {s : State} {r' : _} (hr : (execAdoptRecord h s) = .next r') (hs : s.mem.wf = true) : r'.mem.wf = true := by cases hr; simp +contextual (maxDischargeDepth := 40) [*]

theorem execLease_wf {h : RecHdr} {r : Bool} {w : Bool} {part : Bool} {base : W64} {len : W64} {s : State} {r' : _} (hr : (execLease h r w part base len s) = .next r') (hs : s.mem.wf = true) : r'.mem.wf = true := by
  first | (simp only [execLease, next, Host.Outcome.next.injEq] at hr; subst hr) | unfold execLease at hr
  repeat' (first
    | with_reducible assumption
    | contradiction
    | (cases hr; done)
    | (injection hr with hr; subst hr)
    | with_reducible refine ite_wf ?_ ?_
    | (simp +contextual (maxDischargeDepth := 40) [*]; done)
    | split at hr
    | dsimp only at hr
    | with_reducible refine Out.done_wf _ ?_
    | with_reducible refine Out.fail_wf _ _ _ _ ?_
    | with_reducible refine Out.hold_wf _ _ ?_
    | with_reducible refine Out.over_wf _ ?_
    | with_reducible refine issue_wf _ _ _ (fun _ _ _ => ?_) ?_
    | with_reducible refine transfer_wf _ _ _ _ _ _ _ (fun _ _ _ => ?_) ?_
    | with_reducible refine waitThen_wf _ _ _ (fun _ _ _ => ?_) ?_
    | with_reducible refine onWord_wf _ _ _ _ (fun _ _ _ => ?_) ?_
    | with_reducible refine inCluster_wf _ _ _ (fun _ _ _ _ _ => ?_) ?_
    | with_reducible refine launch_wf _ _ _ _ (fun _ _ _ _ _ => ?_) ?_
    | with_reducible refine whenDone_wf _ (fun _ _ _ _ _ => ?_) ?_
    | with_reducible refine doneWith_wf _ _ _ _ _ _ (fun _ hr => docPut_wf hr ?_) ?_
    | with_reducible refine resumed_wf _ _ _ _ _ _ _ (fun _ hr => restoreHeld_wf hr ?_) ?_
    | with_reducible refine resumed_wf _ _ _ _ _ _ _ (fun _ hr => restoreAll_wf hr ?_) ?_
    | dsimp only
    | split)

@[simp] theorem leasePin_wf (s : State) (d : Nat) (q : Nat) (n : Nat) (hs : s.mem.wf = true) : (leasePin s d q n).mem.wf = true := by
  unfold leasePin
  split
  · dsimp only
    split
    · next s1 _ h1 =>
      refine docentTurn_wf _ _ (completeRec_wf _ _ _ _ _ _ ?_)
      split at h1
      · cases h1
      · split at h1
        · cases h1
        · cases h1
          exact State.modDie_wf _ _ _ hs
    · refine completeRec_wf _ _ _ _ _ _ (ite_wf ?_ ?_)
      · exact State.modDie_wf _ _ _ hs
      · exact State.modQueue_wf _ _ _ _ hs
  · exact hs

theorem execLeasePinComplete_wf {d : Nat} {q : Nat} {n : Nat} {s : State} {r' : _} (hr : (execLeasePinComplete d q n s) = .next r') (hs : s.mem.wf = true) : r'.mem.wf = true := by cases hr; simp [*]

theorem execUnlease_wf {h : RecHdr} {base : W64} {len : W64} {s : State} {r' : _} (hr : (execUnlease h base len s) = .next r') (hs : s.mem.wf = true) : r'.mem.wf = true := by
  first | (simp only [execUnlease, next, Host.Outcome.next.injEq] at hr; subst hr) | unfold execUnlease at hr
  repeat' (first
    | with_reducible assumption
    | contradiction
    | (cases hr; done)
    | (injection hr with hr; subst hr)
    | with_reducible refine ite_wf ?_ ?_
    | (simp +contextual (maxDischargeDepth := 40) [*]; done)
    | split at hr
    | dsimp only at hr
    | with_reducible refine Out.done_wf _ ?_
    | with_reducible refine Out.fail_wf _ _ _ _ ?_
    | with_reducible refine Out.hold_wf _ _ ?_
    | with_reducible refine Out.over_wf _ ?_
    | with_reducible refine issue_wf _ _ _ (fun _ _ _ => ?_) ?_
    | with_reducible refine transfer_wf _ _ _ _ _ _ _ (fun _ _ _ => ?_) ?_
    | with_reducible refine waitThen_wf _ _ _ (fun _ _ _ => ?_) ?_
    | with_reducible refine onWord_wf _ _ _ _ (fun _ _ _ => ?_) ?_
    | with_reducible refine inCluster_wf _ _ _ (fun _ _ _ _ _ => ?_) ?_
    | with_reducible refine launch_wf _ _ _ _ (fun _ _ _ _ _ => ?_) ?_
    | with_reducible refine whenDone_wf _ (fun _ _ _ _ _ => ?_) ?_
    | with_reducible refine doneWith_wf _ _ _ _ _ _ (fun _ hr => docPut_wf hr ?_) ?_
    | with_reducible refine resumed_wf _ _ _ _ _ _ _ (fun _ hr => restoreHeld_wf hr ?_) ?_
    | with_reducible refine resumed_wf _ _ _ _ _ _ _ (fun _ hr => restoreAll_wf hr ?_) ?_
    | dsimp only
    | split)

@[simp] theorem armEvent_wf (s : State) (p : JobP3) (tiles : Nat) (hs : s.mem.wf = true) : (armEvent s p tiles).mem.wf = true := by
  unfold armEvent
  repeat' (first | with_reducible refine ite_wf ?_ ?_ | split | (simp +contextual (maxDischargeDepth := 40) [*]; done))

@[simp] theorem failEvent_wf (p : JobP3) (a1 : Nat) (a2 : Nat) (a3 : State) (ha3 : a3.mem.wf = true) : (failEvent p a1 a2 a3).mem.wf = true := by
  revert ha3
  fun_induction failEvent p a1 a2 a3 <;> intro ha3
  all_goals
    repeat' (first
    | with_reducible assumption
    | (simp +contextual +zetaDelta (maxDischargeDepth := 40) [*]; done)
    | split)

@[simp] theorem jobBody_wf (i : Instr) (cl : Bool) (tiles : Nat) (entry : W64) (p3 : JobP3) (d : Nat) (q : Nat) (n : W32) (s : State) (hs : s.mem.wf = true) : (jobBody i cl tiles entry p3 d q n s).mem.wf = true := by
  unfold jobBody
  repeat' (first | with_reducible refine ite_wf ?_ ?_ | split | (simp +contextual (maxDischargeDepth := 40) [*]; done))

theorem execJob_wf {h : RecHdr} {tiles : BitVec 24} {entry : W64} {arg : W64} {p : JobP3} {s : State} {r' : _} (hr : (execJob h tiles entry arg p s) = .next r') (hs : s.mem.wf = true) : r'.mem.wf = true := by cases hr; simp +contextual (maxDischargeDepth := 40) [*]

theorem execCjob_wf {h : RecHdr} {clusters : BitVec 24} {entry : W64} {arg : W64} {p : JobP3} {s : State} {r' : _} (hr : (execCjob h clusters entry arg p s) = .next r') (hs : s.mem.wf = true) : r'.mem.wf = true := by cases hr; simp +contextual (maxDischargeDepth := 40) [*]

@[simp] theorem waitTurn_wf (s : State) (d : Nat) (q : Nat) (hs : s.mem.wf = true) : (waitTurn s d q).mem.wf = true := by
  unfold waitTurn
  repeat' (first | with_reducible refine ite_wf ?_ ?_ | split | (simp +contextual (maxDischargeDepth := 40) [*]; done))

@[simp] theorem waitTurns_wf (s : State) (hs : s.mem.wf = true) : (waitTurns s).mem.wf = true := by
  first | simp only [waitTurns] | unfold waitTurns
  repeat' (first
    | with_reducible assumption
    | with_reducible refine ite_wf ?_ ?_
    | with_reducible refine ite_wf1 ?_ ?_
    | with_reducible refine ite_wf2 ?_ ?_
    | with_reducible refine ite_wf22 ?_ ?_
    | with_reducible refine foldl_wf _ _ _ (fun _ _ _ => ?_) ?_
    | with_reducible refine foldl_wf1 _ _ _ (fun _ _ _ => ?_) ?_
    | with_reducible refine foldl_wf2 _ _ _ (fun _ _ _ => ?_) ?_
    | with_reducible refine foldl_wf22 _ _ _ (fun _ _ _ => ?_) ?_
    | (simp +contextual (maxDischargeDepth := 40) [*]; done)
    | dsimp only
    | split)

@[simp] theorem placeTile_wf (s : State) (d : Nat) (q : Nat) (r : OpRec) (tile : Nat) (ms : List Nat) (hs : s.mem.wf = true) : (placeTile s d q r tile ms).mem.wf = true := by
  unfold placeTile
  repeat' (first | with_reducible refine ite_wf ?_ ?_ | split | (simp +contextual (maxDischargeDepth := 40) [*]; done))

@[simp] theorem tilePlace_wf (s : State) (d : Nat) (hs : s.mem.wf = true) : (tilePlace s d).mem.wf = true := by
  first | simp only [tilePlace] | unfold tilePlace
  repeat' (first
    | with_reducible assumption
    | with_reducible refine ite_wf ?_ ?_
    | (simp +contextual (maxDischargeDepth := 40) [*]; done)
    | dsimp only
    | split)

theorem execTilePlace_wf {d : Nat} {s : State} {r' : _} (hr : (execTilePlace d s) = .next r') (hs : s.mem.wf = true) : r'.mem.wf = true := by cases hr; simp [*]

theorem execLoopRecord_wf {h : RecHdr} {nbody : Half} {cond : W64} {maxiter : W32} {dmin : Byte} {dmax : Byte} {d0 : Byte} {mon : Bool} {s : State} {r' : _} (hr : (execLoopRecord h nbody cond maxiter dmin dmax d0 mon s) = .next r') (hs : s.mem.wf = true) : r'.mem.wf = true := by
  first | (simp only [execLoopRecord, next, Host.Outcome.next.injEq] at hr; subst hr) | unfold execLoopRecord at hr
  repeat' (first
    | with_reducible assumption
    | contradiction
    | (cases hr; done)
    | (injection hr with hr; subst hr)
    | with_reducible refine ite_wf ?_ ?_
    | (simp +contextual (maxDischargeDepth := 40) [*]; done)
    | split at hr
    | dsimp only at hr
    | with_reducible refine Out.done_wf _ ?_
    | with_reducible refine Out.fail_wf _ _ _ _ ?_
    | with_reducible refine Out.hold_wf _ _ ?_
    | with_reducible refine Out.over_wf _ ?_
    | with_reducible refine issue_wf _ _ _ (fun _ _ _ => ?_) ?_
    | with_reducible refine transfer_wf _ _ _ _ _ _ _ (fun _ _ _ => ?_) ?_
    | with_reducible refine waitThen_wf _ _ _ (fun _ _ _ => ?_) ?_
    | with_reducible refine onWord_wf _ _ _ _ (fun _ _ _ => ?_) ?_
    | with_reducible refine inCluster_wf _ _ _ (fun _ _ _ _ _ => ?_) ?_
    | with_reducible refine launch_wf _ _ _ _ (fun _ _ _ _ _ => ?_) ?_
    | with_reducible refine whenDone_wf _ (fun _ _ _ _ _ => ?_) ?_
    | with_reducible refine doneWith_wf _ _ _ _ _ _ (fun _ hr => docPut_wf hr ?_) ?_
    | with_reducible refine resumed_wf _ _ _ _ _ _ _ (fun _ hr => restoreHeld_wf hr ?_) ?_
    | with_reducible refine resumed_wf _ _ _ _ _ _ _ (fun _ hr => restoreAll_wf hr ?_) ?_
    | dsimp only
    | split)

@[simp] theorem loopendBody_wf (h : RecHdr) (d : Nat) (q : Nat) (n : W32) (s : State) (hs : s.mem.wf = true) : (loopendBody h d q n s).mem.wf = true := by
  first | simp only [loopendBody] | unfold loopendBody
  repeat' (first
    | with_reducible assumption
    | with_reducible refine ite_wf ?_ ?_
    | (simp +contextual (maxDischargeDepth := 40) [*]; done)
    | dsimp only
    | split)

theorem execLoopend_wf {h : RecHdr} {s : State} {r' : _} (hr : (execLoopend h s) = .next r') (hs : s.mem.wf = true) : r'.mem.wf = true := by cases hr; simp +contextual (maxDischargeDepth := 40) [*]

@[simp] theorem endreqBody_wf (i : Instr) (nreq : Nat) (sa : W64) (bm : W64) (d : Nat) (q : Nat) (n : W32) (s : State) (hs : s.mem.wf = true) : (endreqBody i nreq sa bm d q n s).mem.wf = true := by
  first | simp only [endreqBody] | unfold endreqBody
  repeat' (first
    | with_reducible assumption
    | with_reducible refine ite_wf ?_ ?_
    | (simp +contextual (maxDischargeDepth := 40) [*]; done)
    | dsimp only
    | (split <;> try (rename_i heq; first | (with_reducible have hk := globalPut_wf heq (by simp +contextual (maxDischargeDepth := 40) [*])) | (with_reducible have hk := regWrite_wf heq (by simp +contextual (maxDischargeDepth := 40) [*])) | (with_reducible have hk := devStore32_wf heq (by simp +contextual (maxDischargeDepth := 40) [*])) | (with_reducible have hk := devStore_wf heq (by simp +contextual (maxDischargeDepth := 40) [*])) | (with_reducible have hk := refuseShare_wf heq (by simp +contextual (maxDischargeDepth := 40) [*])) | (with_reducible have hk := placeMsg_wf heq (by simp +contextual (maxDischargeDepth := 40) [*])) | (with_reducible have hk := placePush_wf heq (by simp +contextual (maxDischargeDepth := 40) [*])) | (with_reducible have hk := writeImages_wf heq (by simp +contextual (maxDischargeDepth := 40) [*])) | (with_reducible have hk := restoreOne_wf heq (by simp +contextual (maxDischargeDepth := 40) [*])) | (with_reducible have hk := restoreAll_wf heq (by simp +contextual (maxDischargeDepth := 40) [*])) | (with_reducible have hk := restoreHeld_wf heq (by simp +contextual (maxDischargeDepth := 40) [*])) | (with_reducible have hk := docPut_wf heq (by simp +contextual (maxDischargeDepth := 40) [*])) | (simp only [Prod.ext_iff] at heq; first | obtain ⟨_, _, rfl⟩ := heq | obtain ⟨_, rfl⟩ := heq | obtain ⟨rfl, _⟩ := heq))))

theorem execEndreq_wf {h : RecHdr} {nreq : Half} {state : W64} {bitmap : W64} {s : State} {r' : _} (hr : (execEndreq h nreq state bitmap s) = .next r') (hs : s.mem.wf = true) : r'.mem.wf = true := by cases hr; simp +contextual (maxDischargeDepth := 40) [*]

theorem execPartw_wf {h : RecHdr} {pword : BitVec 24} {mask : W64} {clcfg : BitVec 18} {gslots : BitVec 48} {s : State} {r' : _} (hr : (execPartw h pword mask clcfg gslots s) = .next r') (hs : s.mem.wf = true) : r'.mem.wf = true := by
  first | (simp only [execPartw, next, Host.Outcome.next.injEq] at hr; subst hr) | unfold execPartw at hr
  repeat' (first
    | with_reducible assumption
    | contradiction
    | (cases hr; done)
    | (injection hr with hr; subst hr)
    | with_reducible refine ite_wf ?_ ?_
    | with_reducible refine ite_wf1 ?_ ?_
    | with_reducible refine ite_wf2 ?_ ?_
    | with_reducible refine ite_wf22 ?_ ?_
    | with_reducible refine iteOut_wf ?_ ?_
    | with_reducible refine foldl_wf _ _ _ (fun _ _ _ => ?_) ?_
    | with_reducible refine foldl_wf1 _ _ _ (fun _ _ _ => ?_) ?_
    | with_reducible refine foldl_wf2 _ _ _ (fun _ _ _ => ?_) ?_
    | with_reducible refine foldl_wf22 _ _ _ (fun _ _ _ => ?_) ?_
    | (simp +contextual (maxDischargeDepth := 40) [apply_ite Prod.fst, apply_ite Prod.snd, apply_ite State.mem, apply_ite Memory.wf, apply_ite Out.s, *]; done)
    | (split at hr <;> try (rename_i heq; first | (with_reducible have hk := globalPut_wf heq (by simp +contextual (maxDischargeDepth := 40) [*])) | (with_reducible have hk := regWrite_wf heq (by simp +contextual (maxDischargeDepth := 40) [*])) | (with_reducible have hk := devStore32_wf heq (by simp +contextual (maxDischargeDepth := 40) [*])) | (with_reducible have hk := devStore_wf heq (by simp +contextual (maxDischargeDepth := 40) [*])) | (with_reducible have hk := refuseShare_wf heq (by simp +contextual (maxDischargeDepth := 40) [*])) | (with_reducible have hk := placeMsg_wf heq (by simp +contextual (maxDischargeDepth := 40) [*])) | (with_reducible have hk := placePush_wf heq (by simp +contextual (maxDischargeDepth := 40) [*])) | (with_reducible have hk := writeImages_wf heq (by simp +contextual (maxDischargeDepth := 40) [*])) | (with_reducible have hk := restoreOne_wf heq (by simp +contextual (maxDischargeDepth := 40) [*])) | (with_reducible have hk := restoreAll_wf heq (by simp +contextual (maxDischargeDepth := 40) [*])) | (with_reducible have hk := restoreHeld_wf heq (by simp +contextual (maxDischargeDepth := 40) [*])) | (with_reducible have hk := docPut_wf heq (by simp +contextual (maxDischargeDepth := 40) [*])) | (simp only [Prod.ext_iff] at heq; first | obtain ⟨_, _, rfl⟩ := heq | obtain ⟨_, rfl⟩ := heq | obtain ⟨rfl, _⟩ := heq)))
    | (with_reducible exact globalPut_wf hr (by simp +contextual (maxDischargeDepth := 40) [*]))
    | (with_reducible exact regWrite_wf hr (by simp +contextual (maxDischargeDepth := 40) [*]))
    | (with_reducible exact devStore32_wf hr (by simp +contextual (maxDischargeDepth := 40) [*]))
    | (with_reducible exact devStore_wf hr (by simp +contextual (maxDischargeDepth := 40) [*]))
    | (with_reducible exact refuseShare_wf hr (by simp +contextual (maxDischargeDepth := 40) [*]))
    | (with_reducible exact placeMsg_wf hr (by simp +contextual (maxDischargeDepth := 40) [*]))
    | (with_reducible exact placePush_wf hr (by simp +contextual (maxDischargeDepth := 40) [*]))
    | (with_reducible exact writeImages_wf hr (by simp +contextual (maxDischargeDepth := 40) [*]))
    | (with_reducible exact restoreOne_wf hr (by simp +contextual (maxDischargeDepth := 40) [*]))
    | (with_reducible exact restoreAll_wf hr (by simp +contextual (maxDischargeDepth := 40) [*]))
    | (with_reducible exact restoreHeld_wf hr (by simp +contextual (maxDischargeDepth := 40) [*]))
    | (with_reducible exact docPut_wf hr (by simp +contextual (maxDischargeDepth := 40) [*]))
    | dsimp only at hr
    | with_reducible refine Out.done_wf _ ?_
    | with_reducible refine Out.fail_wf _ _ _ _ ?_
    | with_reducible refine Out.hold_wf _ _ ?_
    | with_reducible refine Out.over_wf _ ?_
    | with_reducible refine issue_wf _ _ _ (fun _ _ _ => ?_) ?_
    | with_reducible refine transfer_wf _ _ _ _ _ _ _ (fun _ _ _ => ?_) ?_
    | with_reducible refine waitThen_wf _ _ _ (fun _ _ _ => ?_) ?_
    | with_reducible refine onWord_wf _ _ _ _ (fun _ _ _ => ?_) ?_
    | with_reducible refine inCluster_wf _ _ _ (fun _ _ _ _ _ => ?_) ?_
    | with_reducible refine launch_wf _ _ _ _ (fun _ _ _ _ _ => ?_) ?_
    | with_reducible refine whenDone_wf _ (fun _ _ _ _ _ => ?_) ?_
    | with_reducible refine doneWith_wf _ _ _ _ _ _ (fun _ hr => docPut_wf hr ?_) ?_
    | with_reducible refine resumed_wf _ _ _ _ _ _ _ (fun _ hr => restoreHeld_wf hr ?_) ?_
    | with_reducible refine resumed_wf _ _ _ _ _ _ _ (fun _ hr => restoreAll_wf hr ?_) ?_
    | dsimp only
    | (split <;> try (rename_i heq; first | (with_reducible have hk := globalPut_wf heq (by simp +contextual (maxDischargeDepth := 40) [*])) | (with_reducible have hk := regWrite_wf heq (by simp +contextual (maxDischargeDepth := 40) [*])) | (with_reducible have hk := devStore32_wf heq (by simp +contextual (maxDischargeDepth := 40) [*])) | (with_reducible have hk := devStore_wf heq (by simp +contextual (maxDischargeDepth := 40) [*])) | (with_reducible have hk := refuseShare_wf heq (by simp +contextual (maxDischargeDepth := 40) [*])) | (with_reducible have hk := placeMsg_wf heq (by simp +contextual (maxDischargeDepth := 40) [*])) | (with_reducible have hk := placePush_wf heq (by simp +contextual (maxDischargeDepth := 40) [*])) | (with_reducible have hk := writeImages_wf heq (by simp +contextual (maxDischargeDepth := 40) [*])) | (with_reducible have hk := restoreOne_wf heq (by simp +contextual (maxDischargeDepth := 40) [*])) | (with_reducible have hk := restoreAll_wf heq (by simp +contextual (maxDischargeDepth := 40) [*])) | (with_reducible have hk := restoreHeld_wf heq (by simp +contextual (maxDischargeDepth := 40) [*])) | (with_reducible have hk := docPut_wf heq (by simp +contextual (maxDischargeDepth := 40) [*])) | (simp only [Prod.ext_iff] at heq; first | obtain ⟨_, _, rfl⟩ := heq | obtain ⟨_, rfl⟩ := heq | obtain ⟨rfl, _⟩ := heq)))
    | (simp +contextual (maxDischargeDepth := 40) [apply_ite Prod.fst, apply_ite Prod.snd, apply_ite State.mem, apply_ite Memory.wf, apply_ite Out.s, *]))

theorem execHaltq_wf {h : RecHdr} {queue : BitVec 6} {halt : Bool} {budget : W32} {s : State} {r' : _} (hr : (execHaltq h queue halt budget s) = .next r') (hs : s.mem.wf = true) : r'.mem.wf = true := by cases hr; simp +contextual (maxDischargeDepth := 40) [*]

theorem execDrainEscalate_wf {d : Nat} {q : Nat} {s : State} {r' : _} (hr : (execDrainEscalate d q s) = .next r') (hs : s.mem.wf = true) : r'.mem.wf = true := by
  cases hr
  repeat' (first | with_reducible refine ite_wf ?_ ?_ | split | (simp +contextual (maxDischargeDepth := 40) [*]; done))

@[simp] theorem resumed_wf (i : Instr) (d : Nat) (q : Nat) (n : W32) (s : State) (h : Option (Nat × Held)) (r : Except W32 State)
    (hr : ∀ t, r = .ok t → t.mem.wf = true) (hs : s.mem.wf = true) : (resumed i d q n s h r).mem.wf = true := by
  unfold resumed
  split
  · exact doneRec_wf _ _ _ _ _ _ _ hs
  · next t =>
    have ht := hr t rfl
    dsimp only
    split
    · exact standRec_wf _ _ _ _ _ (dropHeld_wf _ _ _ _ ht)
    · exact standRec_wf _ _ _ _ _ ht

@[simp] theorem resumeTeam_wf (i : Instr) (core : Option Nat) (a : W64) (d : Nat) (q : Nat) (n : W32) (s : State) (hs : s.mem.wf = true) : (resumeTeam i core a d q n s).mem.wf = true := by
  unfold resumeTeam
  dsimp only
  split
  · exact doneRec_wf _ _ _ _ _ _ _ hs
  · refine ite_wf (doneRec_wf _ _ _ _ _ _ _ hs) (ite_wf (stopQueue_wf _ _ _ _ _ hs) (ite_wf (doneRec_wf _ _ _ _ _ _ _ hs) ?_))
    split
    · exact hs
    · split
      · exact resumed_wf _ _ _ _ _ _ _ (fun t ht => restoreHeld_wf ht hs) hs
      · refine resumed_wf _ _ _ _ _ _ _ (fun t ht => ?_) hs
        generalize hx : restoreAll s _ _ _ _ = x at ht
        cases x with
        | error e => cases ht
        | ok u => cases ht; exact releaseRestored_wf _ _ (restoreAll_wf hx hs)

@[simp] theorem resumeCluster_wf (i : Instr) (core : Option Nat) (a : W64) (table : W64) (d : Nat) (q : Nat) (n : W32) (s : State) (hs : s.mem.wf = true) : (resumeCluster i core a table d q n s).mem.wf = true := by
  have hd (w : W32) : (doneRec s d q n i w true).mem.wf = true := doneRec_wf _ _ _ _ _ _ _ hs
  unfold resumeCluster
  dsimp only
  repeat' (first
    | with_reducible exact hd _
    | with_reducible exact hs
    | with_reducible refine resumed_wf _ _ _ _ _ _ _ (fun t ht => ?_) hs
    | with_reducible refine ite_wf ?_ ?_
    | split)
  split at ht
  · cases ht
  · next hr => cases ht; exact joinCluster_wf _ _ _ _ _ _ _ (restoreAll_wf hr hs)

theorem execResume_wf {h : RecHdr} {core : BitVec 6} {cv : Bool} {image : W64} {table : W64} {event : W32} {evon : Bool} {s : State} {r' : _} (hr : (execResume h core cv image table event evon s) = .next r') (hs : s.mem.wf = true) : r'.mem.wf = true := by
  cases hr
  repeat' (first | with_reducible refine ite_wf ?_ ?_ | split | (simp +contextual (maxDischargeDepth := 40) [*]; done))

theorem execCoreSleep_wf {c : Nat} {s : State} {r' : _} (hr : (execCoreSleep c s) = .next r') (hs : s.mem.wf = true) : r'.mem.wf = true := by
  cases hr
  repeat' (first | with_reducible refine ite_wf ?_ ?_ | split | (simp +contextual (maxDischargeDepth := 40) [*]; done))

theorem execSlice_wf {h : RecHdr} {set : Byte} {t : W64} {s : State} {r' : _} (hr : (execSlice h set t s) = .next r') (hs : s.mem.wf = true) : r'.mem.wf = true := by
  first | (simp only [execSlice, next, Host.Outcome.next.injEq] at hr; subst hr) | unfold execSlice at hr
  repeat' (first
    | with_reducible assumption
    | contradiction
    | (cases hr; done)
    | (injection hr with hr; subst hr)
    | with_reducible refine ite_wf ?_ ?_
    | (simp +contextual (maxDischargeDepth := 40) [*]; done)
    | split at hr
    | dsimp only at hr
    | with_reducible refine Out.done_wf _ ?_
    | with_reducible refine Out.fail_wf _ _ _ _ ?_
    | with_reducible refine Out.hold_wf _ _ ?_
    | with_reducible refine Out.over_wf _ ?_
    | with_reducible refine issue_wf _ _ _ (fun _ _ _ => ?_) ?_
    | with_reducible refine transfer_wf _ _ _ _ _ _ _ (fun _ _ _ => ?_) ?_
    | with_reducible refine waitThen_wf _ _ _ (fun _ _ _ => ?_) ?_
    | with_reducible refine onWord_wf _ _ _ _ (fun _ _ _ => ?_) ?_
    | with_reducible refine inCluster_wf _ _ _ (fun _ _ _ _ _ => ?_) ?_
    | with_reducible refine launch_wf _ _ _ _ (fun _ _ _ _ _ => ?_) ?_
    | with_reducible refine whenDone_wf _ (fun _ _ _ _ _ => ?_) ?_
    | with_reducible refine doneWith_wf _ _ _ _ _ _ (fun _ hr => docPut_wf hr ?_) ?_
    | with_reducible refine resumed_wf _ _ _ _ _ _ _ (fun _ hr => restoreHeld_wf hr ?_) ?_
    | with_reducible refine resumed_wf _ _ _ _ _ _ _ (fun _ hr => restoreAll_wf hr ?_) ?_
    | dsimp only
    | split)

@[simp] theorem watchdog_wf (s : State) (d : Nat) (hs : s.mem.wf = true) : (watchdog s d).mem.wf = true := by
  first | simp only [watchdog] | unfold watchdog
  repeat' (first
    | with_reducible assumption
    | with_reducible refine ite_wf ?_ ?_
    | with_reducible refine ite_wf1 ?_ ?_
    | with_reducible refine ite_wf2 ?_ ?_
    | with_reducible refine ite_wf22 ?_ ?_
    | with_reducible refine iteOut_wf ?_ ?_
    | with_reducible refine foldl_wf _ _ _ (fun _ _ _ => ?_) ?_
    | with_reducible refine foldl_wf1 _ _ _ (fun _ _ _ => ?_) ?_
    | with_reducible refine foldl_wf2 _ _ _ (fun _ _ _ => ?_) ?_
    | with_reducible refine foldl_wf22 _ _ _ (fun _ _ _ => ?_) ?_
    | (simp +contextual (maxDischargeDepth := 40) [*]; done)
    | dsimp only
    | split)

theorem execWatchdogTick_wf {d : Nat} {s : State} {r' : _} (hr : (execWatchdogTick d s) = .next r') (hs : s.mem.wf = true) : r'.mem.wf = true := by cases hr; simp [*]

theorem execCatalogueStep_wf {d : Nat} {slot : Nat} {op : CatOp} {n : W32} {s : State} {r' : _} (hr : (execCatalogueStep d slot op n s) = .next r') (hs : s.mem.wf = true) : r'.mem.wf = true := by cases hr; simp [*]

end Sys2Proof.Machine
end

