-- ==== Sys2Proof/Laws/KeepFabric.lean ====
section
/-!
SUPPORT. Memory stays in its canonical form under every function of Machine/Fabric.lean: one lemma each.
-/

namespace Sys2Proof.Machine

@[simp] theorem State.modRing_wf (s : State) (q : Nat) (f : Ring → Ring) (hs : s.mem.wf = true) : (State.modRing s q f).mem.wf = true := by simp [State.modRing, *]

theorem ringPut_wf {s : State} {q : Nat} {a : W64} {bs : List Byte} {r' : _} (hr : (ringPut s q a bs) = .ok r') (hs : s.mem.wf = true) : r'.mem.wf = true := by
  unfold ringPut at hr
  repeat' (first
    | with_reducible assumption
    | contradiction
    | (cases hr; done)
    | (injection hr with hr; subst hr)
    | with_reducible refine ite_wf ?_ ?_
    | (simp +contextual (maxDischargeDepth := 40) [*]; done)
    | (split at hr <;> try (rename_i heq; first | (with_reducible have hk := globalPut_wf heq (by simp +contextual (maxDischargeDepth := 40) [*])) | (with_reducible have hk := regWrite_wf heq (by simp +contextual (maxDischargeDepth := 40) [*])) | (with_reducible have hk := devStore32_wf heq (by simp +contextual (maxDischargeDepth := 40) [*])) | (with_reducible have hk := devStore_wf heq (by simp +contextual (maxDischargeDepth := 40) [*])) | (with_reducible have hk := refuseShare_wf heq (by simp +contextual (maxDischargeDepth := 40) [*])) | (with_reducible have hk := placeMsg_wf heq (by simp +contextual (maxDischargeDepth := 40) [*])) | (with_reducible have hk := placePush_wf heq (by simp +contextual (maxDischargeDepth := 40) [*])) | (with_reducible have hk := writeImages_wf heq (by simp +contextual (maxDischargeDepth := 40) [*])) | (with_reducible have hk := restoreOne_wf heq (by simp +contextual (maxDischargeDepth := 40) [*])) | (with_reducible have hk := restoreAll_wf heq (by simp +contextual (maxDischargeDepth := 40) [*])) | (with_reducible have hk := restoreHeld_wf heq (by simp +contextual (maxDischargeDepth := 40) [*])) | (with_reducible have hk := docPut_wf heq (by simp +contextual (maxDischargeDepth := 40) [*])) | (with_reducible have hk := ringPut_wf heq (by simp +contextual (maxDischargeDepth := 40) [*])) | (simp only [Prod.ext_iff] at heq; first | obtain ⟨_, _, rfl⟩ := heq | obtain ⟨_, rfl⟩ := heq | obtain ⟨rfl, _⟩ := heq)))
    | (with_reducible exact globalPut_wf hr (by simp +contextual (maxDischargeDepth := 40) [*]))
    | (with_reducible exact regWrite_wf hr (by simp +contextual (maxDischargeDepth := 40) [*]))
    | (with_reducible exact devStore32_wf hr (by simp +contextual (maxDischargeDepth := 40) [*]))
    | (with_reducible exact devStore_wf hr (by simp +contextual (maxDischargeDepth := 40) [*]))
    | (with_reducible exact refuseShare_wf hr (by simp +contextual (maxDischargeDepth := 40) [*]))
    | (with_reducible exact placeMsg_wf hr (by simp +contextual (maxDischargeDepth := 40) [*]))
    | (with_reducible exact placePush_wf hr (by simp +contextual (maxDischargeDepth := 40) [*]))
    | (with_reducible exact writeImages_wf hr (by simp +contextual (maxDischargeDepth := 40) [*]))
    | (with_reducible exact restoreOne_wf hr (by simp +contextual (maxDischargeDepth := 40) [*]))
    | (with_reducible exact restoreAll_wf hr (by simp +contextual (maxDischargeDepth := 40) [*]))
    | (with_reducible exact restoreHeld_wf hr (by simp +contextual (maxDischargeDepth := 40) [*]))
    | (with_reducible exact docPut_wf hr (by simp +contextual (maxDischargeDepth := 40) [*]))
    | (with_reducible exact ringPut_wf hr (by simp +contextual (maxDischargeDepth := 40) [*]))
    | dsimp only at hr
    | dsimp only
    | (split <;> try (rename_i heq; first | (with_reducible have hk := globalPut_wf heq (by simp +contextual (maxDischargeDepth := 40) [*])) | (with_reducible have hk := regWrite_wf heq (by simp +contextual (maxDischargeDepth := 40) [*])) | (with_reducible have hk := devStore32_wf heq (by simp +contextual (maxDischargeDepth := 40) [*])) | (with_reducible have hk := devStore_wf heq (by simp +contextual (maxDischargeDepth := 40) [*])) | (with_reducible have hk := refuseShare_wf heq (by simp +contextual (maxDischargeDepth := 40) [*])) | (with_reducible have hk := placeMsg_wf heq (by simp +contextual (maxDischargeDepth := 40) [*])) | (with_reducible have hk := placePush_wf heq (by simp +contextual (maxDischargeDepth := 40) [*])) | (with_reducible have hk := writeImages_wf heq (by simp +contextual (maxDischargeDepth := 40) [*])) | (with_reducible have hk := restoreOne_wf heq (by simp +contextual (maxDischargeDepth := 40) [*])) | (with_reducible have hk := restoreAll_wf heq (by simp +contextual (maxDischargeDepth := 40) [*])) | (with_reducible have hk := restoreHeld_wf heq (by simp +contextual (maxDischargeDepth := 40) [*])) | (with_reducible have hk := docPut_wf heq (by simp +contextual (maxDischargeDepth := 40) [*])) | (with_reducible have hk := ringPut_wf heq (by simp +contextual (maxDischargeDepth := 40) [*])) | (simp only [Prod.ext_iff] at heq; first | obtain ⟨_, _, rfl⟩ := heq | obtain ⟨_, rfl⟩ := heq | obtain ⟨rfl, _⟩ := heq))))

@[simp] theorem ringWords_wf (s : State) (q : Nat) (hs : s.mem.wf = true) : (ringWords s q).mem.wf = true := by
  first | simp only [ringWords] | unfold ringWords
  repeat' (first
    | with_reducible assumption
    | with_reducible refine ite_wf ?_ ?_
    | (simp +contextual (maxDischargeDepth := 40) [*]; done)
    | dsimp only
    | (split <;> try (rename_i heq; first | (with_reducible have hk := globalPut_wf heq (by simp +contextual (maxDischargeDepth := 40) [*])) | (with_reducible have hk := regWrite_wf heq (by simp +contextual (maxDischargeDepth := 40) [*])) | (with_reducible have hk := devStore32_wf heq (by simp +contextual (maxDischargeDepth := 40) [*])) | (with_reducible have hk := devStore_wf heq (by simp +contextual (maxDischargeDepth := 40) [*])) | (with_reducible have hk := refuseShare_wf heq (by simp +contextual (maxDischargeDepth := 40) [*])) | (with_reducible have hk := placeMsg_wf heq (by simp +contextual (maxDischargeDepth := 40) [*])) | (with_reducible have hk := placePush_wf heq (by simp +contextual (maxDischargeDepth := 40) [*])) | (with_reducible have hk := writeImages_wf heq (by simp +contextual (maxDischargeDepth := 40) [*])) | (with_reducible have hk := restoreOne_wf heq (by simp +contextual (maxDischargeDepth := 40) [*])) | (with_reducible have hk := restoreAll_wf heq (by simp +contextual (maxDischargeDepth := 40) [*])) | (with_reducible have hk := restoreHeld_wf heq (by simp +contextual (maxDischargeDepth := 40) [*])) | (with_reducible have hk := docPut_wf heq (by simp +contextual (maxDischargeDepth := 40) [*])) | (with_reducible have hk := ringPut_wf heq (by simp +contextual (maxDischargeDepth := 40) [*])) | (simp only [Prod.ext_iff] at heq; first | obtain ⟨_, _, rfl⟩ := heq | obtain ⟨_, rfl⟩ := heq | obtain ⟨rfl, _⟩ := heq))))

@[simp] theorem stopRing_wf (s : State) (q : Nat) (fault : W32) (fseq : W32) (hs : s.mem.wf = true) : (stopRing s q fault fseq).mem.wf = true := by simp [stopRing, *]

@[simp] theorem completeCmd_wf (s : State) (q : Nat) (n : W32) (status : W32) (failed : Bool) (hs : s.mem.wf = true) : (completeCmd s q n status failed).mem.wf = true := by
  unfold completeCmd
  split <;> simp [*]

theorem execFabricRingStart_wf {q : Nat} {s : State} {r' : _} (hr : (execFabricRingStart q s) = .next r') (hs : s.mem.wf = true) : r'.mem.wf = true := by
  cases hr
  repeat' (first | with_reducible refine ite_wf ?_ ?_ | split | (simp +contextual (maxDischargeDepth := 40) [*]; done))

@[simp] theorem ringWake_wf (s : State) (q : Nat) (hs : s.mem.wf = true) : (ringWake s q).mem.wf = true := by
  unfold ringWake
  repeat' (first | with_reducible refine ite_wf ?_ ?_ | split | (simp +contextual (maxDischargeDepth := 40) [*]; done))

theorem execFabricTailWake_wf {q : Nat} {s : State} {r' : _} (hr : (execFabricTailWake q s) = .next r') (hs : s.mem.wf = true) : r'.mem.wf = true := by cases hr; simp [*]

@[simp] theorem standCmd_wf (s : State) (q : Nat) (n : W32) (i : Instr) (hs : s.mem.wf = true) : (standCmd s q n i).mem.wf = true := by simp [standCmd, *]

@[simp] theorem badCmd_wf (s : State) (q : Nat) (n : W32) (i : Instr) (hs : s.mem.wf = true) : (badCmd s q n i).mem.wf = true := by simp [badCmd, *]

@[simp] theorem startCmd_wf (i : Instr) (h : FabHdr) (s : State) (body : Nat → W32 → State → State) (hbody : ∀ x0 x1 s2, s2.mem.wf = true → (body x0 x1 s2).mem.wf = true) (hs : s.mem.wf = true) : (startCmd i h s body).mem.wf = true := by
  unfold startCmd
  repeat' (first | with_reducible refine ite_wf ?_ ?_ | split | (simp +contextual (maxDischargeDepth := 40) [*]; done))

@[simp] theorem State.send_wf (s : State) (x : Sent) (hs : s.mem.wf = true) : (State.send s x).mem.wf = true := by simp [State.send, *]

@[simp] theorem cmdDone_wf (s : State) (q : Nat) (n : W32) (h : FabHdr) (hs : s.mem.wf = true) : (cmdDone s q n h).mem.wf = true := by
  first | simp only [cmdDone] | unfold cmdDone
  repeat' (first
    | with_reducible assumption
    | with_reducible refine ite_wf ?_ ?_
    | (simp +contextual (maxDischargeDepth := 40) [*]; done)
    | dsimp only
    | split)

@[simp] theorem cmdFail_wf (s : State) (q : Nat) (n : W32) (h : FabHdr) (fault : W32) (hs : s.mem.wf = true) : (cmdFail s q n h fault).mem.wf = true := by
  unfold cmdFail
  split <;> simp [*]

theorem execRead_wf {h : FabHdr} {peer : BitVec 10} {laddr : W64} {raddr : W64} {len : W32} {s : State} {r' : _} (hr : (execRead h peer laddr raddr len s) = .next r') (hs : s.mem.wf = true) : r'.mem.wf = true := by cases hr; simp +contextual (maxDischargeDepth := 40) [*]

theorem execWrite_wf {h : FabHdr} {peer : BitVec 10} {laddr : W64} {raddr : W64} {len : W32} {s : State} {r' : _} (hr : (execWrite h peer laddr raddr len s) = .next r') (hs : s.mem.wf = true) : r'.mem.wf = true := by
  first | (simp only [execWrite, next, Host.Outcome.next.injEq] at hr; subst hr) | unfold execWrite at hr
  repeat' (first
    | with_reducible assumption
    | contradiction
    | (cases hr; done)
    | (injection hr with hr; subst hr)
    | with_reducible refine ite_wf ?_ ?_
    | (simp +contextual (maxDischargeDepth := 40) [*]; done)
    | split at hr
    | dsimp only at hr
    | with_reducible refine Out.done_wf _ ?_
    | with_reducible refine Out.fail_wf _ _ _ _ ?_
    | with_reducible refine Out.hold_wf _ _ ?_
    | with_reducible refine Out.over_wf _ ?_
    | with_reducible refine issue_wf _ _ _ (fun _ _ _ => ?_) ?_
    | with_reducible refine transfer_wf _ _ _ _ _ _ _ (fun _ _ _ => ?_) ?_
    | with_reducible refine waitThen_wf _ _ _ (fun _ _ _ => ?_) ?_
    | with_reducible refine onWord_wf _ _ _ _ (fun _ _ _ => ?_) ?_
    | with_reducible refine inCluster_wf _ _ _ (fun _ _ _ _ _ => ?_) ?_
    | with_reducible refine launch_wf _ _ _ _ (fun _ _ _ _ _ => ?_) ?_
    | with_reducible refine whenDone_wf _ (fun _ _ _ _ _ => ?_) ?_
    | with_reducible refine doneWith_wf _ _ _ _ _ _ (fun _ hr => docPut_wf hr ?_) ?_
    | with_reducible refine resumed_wf _ _ _ _ _ _ _ (fun _ hr => restoreHeld_wf hr ?_) ?_
    | with_reducible refine resumed_wf _ _ _ _ _ _ _ (fun _ hr => restoreAll_wf hr ?_) ?_
    | with_reducible refine startCmd_wf _ _ _ _ (fun _ _ _ _ => ?_) ?_
    | dsimp only
    | split)

theorem execAtomic_wf {h : FabHdr} {peer : BitVec 10} {laddr : W64} {raddr : W64} {aop : AOp} {sz : Bool} {s : State} {r' : _} (hr : (execAtomic h peer laddr raddr aop sz s) = .next r') (hs : s.mem.wf = true) : r'.mem.wf = true := by
  first | (simp only [execAtomic, next, Host.Outcome.next.injEq] at hr; subst hr) | unfold execAtomic at hr
  repeat' (first
    | with_reducible assumption
    | contradiction
    | (cases hr; done)
    | (injection hr with hr; subst hr)
    | with_reducible refine ite_wf ?_ ?_
    | (simp +contextual (maxDischargeDepth := 40) [*]; done)
    | split at hr
    | dsimp only at hr
    | with_reducible refine Out.done_wf _ ?_
    | with_reducible refine Out.fail_wf _ _ _ _ ?_
    | with_reducible refine Out.hold_wf _ _ ?_
    | with_reducible refine Out.over_wf _ ?_
    | with_reducible refine issue_wf _ _ _ (fun _ _ _ => ?_) ?_
    | with_reducible refine transfer_wf _ _ _ _ _ _ _ (fun _ _ _ => ?_) ?_
    | with_reducible refine waitThen_wf _ _ _ (fun _ _ _ => ?_) ?_
    | with_reducible refine onWord_wf _ _ _ _ (fun _ _ _ => ?_) ?_
    | with_reducible refine inCluster_wf _ _ _ (fun _ _ _ _ _ => ?_) ?_
    | with_reducible refine launch_wf _ _ _ _ (fun _ _ _ _ _ => ?_) ?_
    | with_reducible refine whenDone_wf _ (fun _ _ _ _ _ => ?_) ?_
    | with_reducible refine doneWith_wf _ _ _ _ _ _ (fun _ hr => docPut_wf hr ?_) ?_
    | with_reducible refine resumed_wf _ _ _ _ _ _ _ (fun _ hr => restoreHeld_wf hr ?_) ?_
    | with_reducible refine resumed_wf _ _ _ _ _ _ _ (fun _ hr => restoreAll_wf hr ?_) ?_
    | with_reducible refine startCmd_wf _ _ _ _ (fun _ _ _ _ => ?_) ?_
    | dsimp only
    | split)

@[simp] theorem freeBytes_wf (a0 : Nat) (a1 : State) (ha1 : a1.mem.wf = true) : (freeBytes a0 a1).2.mem.wf = true := by
  induction a0 generalizing a1 with
  | zero => exact ha1
  | succ n ih => exact ih _ (State.freeVal_wf _ ha1)

@[simp] theorem poisonRange_wf (s : State) (q : Nat) (a : W64) (n : Nat) (hs : s.mem.wf = true) : (poisonRange s q a n).mem.wf = true := by
  unfold poisonRange
  split
  · exact hs
  · refine foldl_keeps (fun m : Memory => m.wf = true) _ (fun m x h => ?_) _ _ hs
    exact foldl_keeps (fun m : Memory => m.wf = true) _ (fun m x h => Memory.markPois_wf h _) _ _ h

@[simp] theorem landLines_wf (q : Nat) (la : W64) (data : Option (List Byte)) (a3 : Nat) (a4 : Nat) (a5 : State) (ha5 : a5.mem.wf = true) : (landLines q la data a3 a4 a5).mem.wf = true := by
  induction a4 generalizing a3 a5 with
  | zero => exact ha5
  | succ n ih =>
    unfold landLines
    have h1 := State.freeVal_wf a5 ha5
    generalize a5.freeVal = p at h1 ⊢
    obtain ⟨v, s⟩ := p
    refine ih _ _ (ite_wf (poisonRange_wf _ _ _ _ h1) ?_)
    split
    · next s1 hd =>
      split at hd
      · cases hd
        split
        · next h2 => exact ringPut_wf h2 h1
        · exact h1
      · have h3 := freeBytes_wf 16 s h1
        rw [hd] at h3
        split
        · next h2 => exact ringPut_wf h2 h3
        · exact h3

@[simp] theorem failPoint_wf (s : State) (q : Nat) (r : CmdRec) (fault : W32) (data : Option (List Byte)) (hs : s.mem.wf = true) : (failPoint s q r fault data).mem.wf = true := by
  unfold failPoint
  split <;> simp [*]

@[simp] theorem cmdComplete_wf (s : State) (q : Nat) (ix : Nat) (ok : Bool) (data : List Byte) (hs : s.mem.wf = true) : (cmdComplete s q ix ok data).mem.wf = true := by
  first | simp only [cmdComplete] | unfold cmdComplete
  repeat' (first
    | with_reducible assumption
    | with_reducible refine ite_wf ?_ ?_
    | (simp +contextual (maxDischargeDepth := 40) [*]; done)
    | dsimp only
    | (split <;> try (rename_i heq; first | (with_reducible have hk := globalPut_wf heq (by simp +contextual (maxDischargeDepth := 40) [*])) | (with_reducible have hk := regWrite_wf heq (by simp +contextual (maxDischargeDepth := 40) [*])) | (with_reducible have hk := devStore32_wf heq (by simp +contextual (maxDischargeDepth := 40) [*])) | (with_reducible have hk := devStore_wf heq (by simp +contextual (maxDischargeDepth := 40) [*])) | (with_reducible have hk := refuseShare_wf heq (by simp +contextual (maxDischargeDepth := 40) [*])) | (with_reducible have hk := placeMsg_wf heq (by simp +contextual (maxDischargeDepth := 40) [*])) | (with_reducible have hk := placePush_wf heq (by simp +contextual (maxDischargeDepth := 40) [*])) | (with_reducible have hk := writeImages_wf heq (by simp +contextual (maxDischargeDepth := 40) [*])) | (with_reducible have hk := restoreOne_wf heq (by simp +contextual (maxDischargeDepth := 40) [*])) | (with_reducible have hk := restoreAll_wf heq (by simp +contextual (maxDischargeDepth := 40) [*])) | (with_reducible have hk := restoreHeld_wf heq (by simp +contextual (maxDischargeDepth := 40) [*])) | (with_reducible have hk := docPut_wf heq (by simp +contextual (maxDischargeDepth := 40) [*])) | (with_reducible have hk := ringPut_wf heq (by simp +contextual (maxDischargeDepth := 40) [*])) | (simp only [Prod.ext_iff] at heq; first | obtain ⟨_, _, rfl⟩ := heq | obtain ⟨_, rfl⟩ := heq | obtain ⟨rfl, _⟩ := heq))))

theorem execFabricCmdComplete_wf {q : Nat} {ix : Nat} {ok : Bool} {data : List Byte} {s : State} {r' : _} (hr : (execFabricCmdComplete q ix ok data s) = .next r') (hs : s.mem.wf = true) : r'.mem.wf = true := by cases hr; simp [*]

@[simp] theorem putParts_wf (s : State) (xs : List Xl) (bs : List Byte) (hs : s.mem.wf = true) : (putParts s xs bs).mem.wf = true := by simp +contextual (maxDischargeDepth := 40) [putParts, *]

@[simp] theorem requestArrival_wf (s : State) (peer : Nat) (addr : W64) (op : PeerOp) (hs : s.mem.wf = true) : (requestArrival s peer addr op).mem.wf = true := by
  unfold requestArrival
  repeat' (first | with_reducible refine ite_wf ?_ ?_ | split | (simp +contextual (maxDischargeDepth := 40) [*]; done))

theorem execFabricRequestArrival_wf {peer : Nat} {addr : W64} {op : PeerOp} {s : State} {r' : _} (hr : (execFabricRequestArrival peer addr op s) = .next r') (hs : s.mem.wf = true) : r'.mem.wf = true := by cases hr; simp [*]

theorem execRemoteEventAnswer_wf {event : W32} {count : W32} {fail : Bool} {s : State} {r' : _} (hr : (execRemoteEventAnswer event count fail s) = .next r') (hs : s.mem.wf = true) : r'.mem.wf = true := by
  cases hr
  repeat' (first | with_reducible refine ite_wf ?_ ?_ | split | (simp +contextual (maxDischargeDepth := 40) [*]; done))

theorem execEventWatchRegister_wf {peer : Nat} {event : W32} {s : State} {r' : _} (hr : (execEventWatchRegister peer event s) = .next r') (hs : s.mem.wf = true) : r'.mem.wf = true := by
  cases hr
  repeat' (first | with_reducible refine ite_wf ?_ ?_ | split | (simp +contextual (maxDischargeDepth := 40) [*]; done))

@[simp] theorem waitevDown_wf (s : State) (d : Nat) (q : Nat) (peer : Nat) (hs : s.mem.wf = true) : (waitevDown s d q peer).mem.wf = true := by
  first | simp only [waitevDown] | unfold waitevDown
  repeat' (first
    | with_reducible assumption
    | with_reducible refine ite_wf ?_ ?_
    | (simp +contextual (maxDischargeDepth := 40) [*]; done)
    | dsimp only
    | split)

@[simp] theorem evwaitDown_wf (s : State) (gid : Nat) (peer : Nat) (hs : s.mem.wf = true) : (evwaitDown s gid peer).mem.wf = true := by
  unfold evwaitDown
  repeat' (first | with_reducible refine ite_wf ?_ ?_ | split | (simp +contextual (maxDischargeDepth := 40) [*]; done))

@[simp] theorem peerTimeout_wf (s : State) (peer : Nat) (hs : s.mem.wf = true) : (peerTimeout s peer).mem.wf = true := by
  unfold peerTimeout
  repeat' (first | with_reducible refine ite_wf ?_ ?_ | split | (simp +contextual (maxDischargeDepth := 40) [*]; done))

theorem execFabricPeerTimeout_wf {peer : Nat} {s : State} {r' : _} (hr : (execFabricPeerTimeout peer s) = .next r') (hs : s.mem.wf = true) : r'.mem.wf = true := by cases hr; simp [*]

theorem execPeerDebugState_wf {peer : Nat} {on : Bool} {s : State} {r' : _} (hr : (execPeerDebugState peer on s) = .next r') (hs : s.mem.wf = true) : r'.mem.wf = true := by
  cases hr
  repeat' (first | with_reducible refine ite_wf ?_ ?_ | split | (simp +contextual (maxDischargeDepth := 40) [*]; done))

theorem execTlockChange_wf {locked : Bool} {s : State} {r' : _} (hr : (execTlockChange locked s) = .next r') (hs : s.mem.wf = true) : r'.mem.wf = true := by cases hr; simp [*]

theorem execUalinkPortDown_wf {port : BitVec 4} {s : State} {r' : _} (hr : (execUalinkPortDown port s) = .next r') (hs : s.mem.wf = true) : r'.mem.wf = true := by cases hr; simp [*]

@[simp] theorem State.modColl_wf (s : State) (cgid : Nat) (f : Coll → Coll) (hs : s.mem.wf = true) : (State.modColl s cgid f).mem.wf = true := by simp [State.modColl, *]

@[simp] theorem freeColls_wf (s : State) (hs : s.mem.wf = true) : (freeColls s).mem.wf = true := by simp [freeColls, *]

@[simp] theorem collEnd_wf (s : State) (c : Coll) (hs : s.mem.wf = true) : (collEnd s c).mem.wf = true := by simp +contextual (maxDischargeDepth := 40) [collEnd, *]

@[simp] theorem collLand_wf (s : State) (c : Coll) (h : FabHdr) (la : W64) (bs : List Byte) (hs : s.mem.wf = true) : (collLand s c h la bs).mem.wf = true := by
  first | simp only [collLand] | unfold collLand
  repeat' (first
    | with_reducible assumption
    | with_reducible refine ite_wf ?_ ?_
    | (simp +contextual (maxDischargeDepth := 40) [*]; done)
    | dsimp only
    | (split <;> try (rename_i heq; first | (with_reducible have hk := globalPut_wf heq (by simp +contextual (maxDischargeDepth := 40) [*])) | (with_reducible have hk := regWrite_wf heq (by simp +contextual (maxDischargeDepth := 40) [*])) | (with_reducible have hk := devStore32_wf heq (by simp +contextual (maxDischargeDepth := 40) [*])) | (with_reducible have hk := devStore_wf heq (by simp +contextual (maxDischargeDepth := 40) [*])) | (with_reducible have hk := refuseShare_wf heq (by simp +contextual (maxDischargeDepth := 40) [*])) | (with_reducible have hk := placeMsg_wf heq (by simp +contextual (maxDischargeDepth := 40) [*])) | (with_reducible have hk := placePush_wf heq (by simp +contextual (maxDischargeDepth := 40) [*])) | (with_reducible have hk := writeImages_wf heq (by simp +contextual (maxDischargeDepth := 40) [*])) | (with_reducible have hk := restoreOne_wf heq (by simp +contextual (maxDischargeDepth := 40) [*])) | (with_reducible have hk := restoreAll_wf heq (by simp +contextual (maxDischargeDepth := 40) [*])) | (with_reducible have hk := restoreHeld_wf heq (by simp +contextual (maxDischargeDepth := 40) [*])) | (with_reducible have hk := docPut_wf heq (by simp +contextual (maxDischargeDepth := 40) [*])) | (with_reducible have hk := ringPut_wf heq (by simp +contextual (maxDischargeDepth := 40) [*])) | (simp only [Prod.ext_iff] at heq; first | obtain ⟨_, _, rfl⟩ := heq | obtain ⟨_, rfl⟩ := heq | obtain ⟨rfl, _⟩ := heq))))

@[simp] theorem collTurn_wf (s : State) (cgid : Nat) (hs : s.mem.wf = true) : (collTurn s cgid).mem.wf = true := by
  unfold collTurn
  repeat' (first | with_reducible refine ite_wf ?_ ?_ | split | (simp +contextual (maxDischargeDepth := 40) [*]; done))

@[simp] theorem startColl_wf (i : Instr) (h : FabHdr) (cgid : Nat) (la : W64) (list : W64) (len : Nat) (nmem : Nat) (sends : State → Bool) (q : Nat) (n : W32) (s : State) (hs : s.mem.wf = true) : (startColl i h cgid la list len nmem sends q n s).mem.wf = true := by
  unfold startColl
  repeat' (first | with_reducible refine ite_wf ?_ ?_ | split | (simp +contextual (maxDischargeDepth := 40) [*]; done))

theorem execAllreduce_wf {h : FabHdr} {rop : ROp} {cgid : BitVec 12} {laddr : W64} {list : W64} {len : W32} {nmem : W32} {s : State} {r' : _} (hr : (execAllreduce h rop cgid laddr list len nmem s) = .next r') (hs : s.mem.wf = true) : r'.mem.wf = true := by cases hr; simp +contextual (maxDischargeDepth := 40) [*]

theorem execBroadcast_wf {h : FabHdr} {cgid : BitVec 12} {root : BitVec 10} {laddr : W64} {list : W64} {len : W32} {nmem : W32} {s : State} {r' : _} (hr : (execBroadcast h cgid root laddr list len nmem s) = .next r') (hs : s.mem.wf = true) : r'.mem.wf = true := by cases hr; simp +contextual (maxDischargeDepth := 40) [*]

@[simp] theorem memberData_wf (s : State) (cgid : Nat) (member : Nat) (same : Bool) (data : List Byte) (hs : s.mem.wf = true) : (memberData s cgid member same data).mem.wf = true := by
  unfold memberData
  repeat' (first | with_reducible refine ite_wf ?_ ?_ | split | (simp +contextual (maxDischargeDepth := 40) [*]; done))

theorem execCollectiveMemberData_wf {cgid : Nat} {member : Nat} {same : Bool} {data : List Byte} {s : State} {r' : _} (hr : (execCollectiveMemberData cgid member same data s) = .next r') (hs : s.mem.wf = true) : r'.mem.wf = true := by cases hr; simp [*]

theorem execCgidFinishReport_wf {cgid : Nat} {member : Nat} {s : State} {r' : _} (hr : (execCgidFinishReport cgid member s) = .next r') (hs : s.mem.wf = true) : r'.mem.wf = true := by cases hr; simp +contextual (maxDischargeDepth := 40) [*]

@[simp] theorem mixElems_wf (a0 : Nat) (a1 : List Byte) (a2 : State) (ha2 : a2.mem.wf = true) : (mixElems a0 a1 a2).2.mem.wf = true := by
  induction a0 generalizing a1 a2 with
  | zero => exact ha2
  | succ n ih => exact ih _ _ (State.freeVal_wf _ ha2)

@[simp] theorem collTimeout_wf (s : State) (cgid : Nat) (reuse : Bool) (hs : s.mem.wf = true) : (collTimeout s cgid reuse).mem.wf = true := by
  first | simp only [collTimeout] | unfold collTimeout
  repeat' (first
    | with_reducible assumption
    | with_reducible refine ite_wf ?_ ?_
    | with_reducible refine ite_wf1 ?_ ?_
    | with_reducible refine ite_wf2 ?_ ?_
    | with_reducible refine ite_wf22 ?_ ?_
    | with_reducible refine iteOut_wf ?_ ?_
    | with_reducible refine foldl_wf _ _ _ (fun _ _ _ => ?_) ?_
    | with_reducible refine foldl_wf1 _ _ _ (fun _ _ _ => ?_) ?_
    | with_reducible refine foldl_wf2 _ _ _ (fun _ _ _ => ?_) ?_
    | with_reducible refine foldl_wf22 _ _ _ (fun _ _ _ => ?_) ?_
    | (simp +contextual (maxDischargeDepth := 40) [*]; done)
    | dsimp only
    | (split <;> try (rename_i heq; first | (with_reducible have hk := globalPut_wf heq (by simp +contextual (maxDischargeDepth := 40) [*])) | (with_reducible have hk := regWrite_wf heq (by simp +contextual (maxDischargeDepth := 40) [*])) | (with_reducible have hk := devStore32_wf heq (by simp +contextual (maxDischargeDepth := 40) [*])) | (with_reducible have hk := devStore_wf heq (by simp +contextual (maxDischargeDepth := 40) [*])) | (with_reducible have hk := refuseShare_wf heq (by simp +contextual (maxDischargeDepth := 40) [*])) | (with_reducible have hk := placeMsg_wf heq (by simp +contextual (maxDischargeDepth := 40) [*])) | (with_reducible have hk := placePush_wf heq (by simp +contextual (maxDischargeDepth := 40) [*])) | (with_reducible have hk := writeImages_wf heq (by simp +contextual (maxDischargeDepth := 40) [*])) | (with_reducible have hk := restoreOne_wf heq (by simp +contextual (maxDischargeDepth := 40) [*])) | (with_reducible have hk := restoreAll_wf heq (by simp +contextual (maxDischargeDepth := 40) [*])) | (with_reducible have hk := restoreHeld_wf heq (by simp +contextual (maxDischargeDepth := 40) [*])) | (with_reducible have hk := docPut_wf heq (by simp +contextual (maxDischargeDepth := 40) [*])) | (with_reducible have hk := ringPut_wf heq (by simp +contextual (maxDischargeDepth := 40) [*])) | (simp only [Prod.ext_iff] at heq; first | obtain ⟨_, _, rfl⟩ := heq | obtain ⟨_, rfl⟩ := heq | obtain ⟨rfl, _⟩ := heq))))

theorem execCollectiveTimeout_wf {cgid : Nat} {reuse : Bool} {s : State} {r' : _} (hr : (execCollectiveTimeout cgid reuse s) = .next r') (hs : s.mem.wf = true) : r'.mem.wf = true := by cases hr; simp [*]

@[simp] theorem sliceDrain_wf (s : State) (hs : s.mem.wf = true) : (sliceDrain s).mem.wf = true := by
  unfold sliceDrain
  repeat' (first | with_reducible refine ite_wf ?_ ?_ | split | (simp +contextual (maxDischargeDepth := 40) [*]; done))

theorem execSliceDrainStart_wf {s : State} {r' : _} (hr : (execSliceDrainStart s) = .next r') (hs : s.mem.wf = true) : r'.mem.wf = true := by cases hr; simp [*]

@[simp] theorem sliceEsc_wf (s : State) (hs : s.mem.wf = true) : (sliceEsc s).mem.wf = true := by
  first | simp only [sliceEsc] | unfold sliceEsc
  repeat' (first
    | with_reducible assumption
    | with_reducible refine ite_wf ?_ ?_
    | with_reducible refine ite_wf1 ?_ ?_
    | with_reducible refine ite_wf2 ?_ ?_
    | with_reducible refine ite_wf22 ?_ ?_
    | with_reducible refine iteOut_wf ?_ ?_
    | with_reducible refine foldl_wf _ _ _ (fun _ _ _ => ?_) ?_
    | with_reducible refine foldl_wf1 _ _ _ (fun _ _ _ => ?_) ?_
    | with_reducible refine foldl_wf2 _ _ _ (fun _ _ _ => ?_) ?_
    | with_reducible refine foldl_wf22 _ _ _ (fun _ _ _ => ?_) ?_
    | (simp +contextual (maxDischargeDepth := 40) [*]; done)
    | dsimp only
    | split)

theorem execSliceEscalate_wf {s : State} {r' : _} (hr : (execSliceEscalate s) = .next r') (hs : s.mem.wf = true) : r'.mem.wf = true := by cases hr; simp [*]

@[simp] theorem sliceSwap_wf (s : State) (hs : s.mem.wf = true) : (sliceSwap s).mem.wf = true := by
  first | simp only [sliceSwap] | unfold sliceSwap
  repeat' (first
    | with_reducible assumption
    | with_reducible refine ite_wf ?_ ?_
    | with_reducible refine ite_wf1 ?_ ?_
    | with_reducible refine ite_wf2 ?_ ?_
    | with_reducible refine ite_wf22 ?_ ?_
    | with_reducible refine iteOut_wf ?_ ?_
    | with_reducible refine foldl_wf _ _ _ (fun _ _ _ => ?_) ?_
    | with_reducible refine foldl_wf1 _ _ _ (fun _ _ _ => ?_) ?_
    | with_reducible refine foldl_wf2 _ _ _ (fun _ _ _ => ?_) ?_
    | with_reducible refine foldl_wf22 _ _ _ (fun _ _ _ => ?_) ?_
    | (simp +contextual (maxDischargeDepth := 40) [apply_ite Prod.fst, apply_ite Prod.snd, apply_ite State.mem, apply_ite Memory.wf, apply_ite Out.s, *]; done)
    | with_reducible refine Out.done_wf _ ?_
    | with_reducible refine Out.fail_wf _ _ _ _ ?_
    | with_reducible refine Out.hold_wf _ _ ?_
    | with_reducible refine Out.over_wf _ ?_
    | with_reducible refine issue_wf _ _ _ (fun _ _ _ => ?_) ?_
    | with_reducible refine transfer_wf _ _ _ _ _ _ _ (fun _ _ _ => ?_) ?_
    | with_reducible refine waitThen_wf _ _ _ (fun _ _ _ => ?_) ?_
    | with_reducible refine onWord_wf _ _ _ _ (fun _ _ _ => ?_) ?_
    | with_reducible refine inCluster_wf _ _ _ (fun _ _ _ _ _ => ?_) ?_
    | with_reducible refine launch_wf _ _ _ _ (fun _ _ _ _ _ => ?_) ?_
    | with_reducible refine whenDone_wf _ (fun _ _ _ _ _ => ?_) ?_
    | with_reducible refine doneWith_wf _ _ _ _ _ _ (fun _ hr => docPut_wf hr ?_) ?_
    | with_reducible refine resumed_wf _ _ _ _ _ _ _ (fun _ hr => restoreHeld_wf hr ?_) ?_
    | with_reducible refine resumed_wf _ _ _ _ _ _ _ (fun _ hr => restoreAll_wf hr ?_) ?_
    | with_reducible refine startCmd_wf _ _ _ _ (fun _ _ _ _ => ?_) ?_
    | dsimp only
    | (split <;> try (rename_i heq; first | (with_reducible have hk := globalPut_wf heq (by simp +contextual (maxDischargeDepth := 40) [*])) | (with_reducible have hk := regWrite_wf heq (by simp +contextual (maxDischargeDepth := 40) [*])) | (with_reducible have hk := devStore32_wf heq (by simp +contextual (maxDischargeDepth := 40) [*])) | (with_reducible have hk := devStore_wf heq (by simp +contextual (maxDischargeDepth := 40) [*])) | (with_reducible have hk := refuseShare_wf heq (by simp +contextual (maxDischargeDepth := 40) [*])) | (with_reducible have hk := placeMsg_wf heq (by simp +contextual (maxDischargeDepth := 40) [*])) | (with_reducible have hk := placePush_wf heq (by simp +contextual (maxDischargeDepth := 40) [*])) | (with_reducible have hk := writeImages_wf heq (by simp +contextual (maxDischargeDepth := 40) [*])) | (with_reducible have hk := restoreOne_wf heq (by simp +contextual (maxDischargeDepth := 40) [*])) | (with_reducible have hk := restoreAll_wf heq (by simp +contextual (maxDischargeDepth := 40) [*])) | (with_reducible have hk := restoreHeld_wf heq (by simp +contextual (maxDischargeDepth := 40) [*])) | (with_reducible have hk := docPut_wf heq (by simp +contextual (maxDischargeDepth := 40) [*])) | (with_reducible have hk := ringPut_wf heq (by simp +contextual (maxDischargeDepth := 40) [*])) | (simp only [Prod.ext_iff] at heq; first | obtain ⟨_, _, rfl⟩ := heq | obtain ⟨_, rfl⟩ := heq | obtain ⟨rfl, _⟩ := heq)))
    | (simp +contextual (maxDischargeDepth := 40) [apply_ite Prod.fst, apply_ite Prod.snd, apply_ite State.mem, apply_ite Memory.wf, apply_ite Out.s, *]))

theorem execSliceSwitch_wf {s : State} {r' : _} (hr : (execSliceSwitch s) = .next r') (hs : s.mem.wf = true) : r'.mem.wf = true := by cases hr; simp [*]

end Sys2Proof.Machine
end

