-- ==== Sys2Proof/Laws/KeepHub.lean ====
section
/-!
SUPPORT. Memory stays in its canonical form under every function of Machine/Hub.lean: one lemma each.
-/

namespace Sys2Proof.Machine

theorem execQueueStart_wf {d : Nat} {q : Nat} {s : State} {r' : _} (hr : (execQueueStart d q s) = .next r') (hs : s.mem.wf = true) : r'.mem.wf = true := by
  cases hr
  repeat' (first | with_reducible refine ite_wf ?_ ?_ | split | (simp +contextual (maxDischargeDepth := 40) [*]; done))

theorem execPcoreWrite_wf {d : Nat} {p : Nat} {mask : W64} {s : State} {r' : _} (hr : (execPcoreWrite d p mask s) = .next r') (hs : s.mem.wf = true) : r'.mem.wf = true := by cases hr; simp [*]

theorem execVitbaseWrite_wf {d : Nat} {n : Nat} {value : W64} {s : State} {r' : _} (hr : (execVitbaseWrite d n value s) = .next r') (hs : s.mem.wf = true) : r'.mem.wf = true := by cases hr; simp [*]

theorem execVitrinePin_wf {d : Nat} {n : Nat} {s : State} {r' : _} (hr : (execVitrinePin d n s) = .next r') (hs : s.mem.wf = true) : r'.mem.wf = true := by cases hr; simp [*]

theorem execVitrineRelease_wf {d : Nat} {n : Nat} {s : State} {r' : _} (hr : (execVitrineRelease d n s) = .next r') (hs : s.mem.wf = true) : r'.mem.wf = true := by cases hr; simp [*]

theorem execVitrinePinDone_wf {d : Nat} {n : Nat} {s : State} {r' : _} (hr : (execVitrinePinDone d n s) = .next r') (hs : s.mem.wf = true) : r'.mem.wf = true := by
  cases hr
  repeat' (first | with_reducible refine ite_wf ?_ ?_ | split | (simp +contextual (maxDischargeDepth := 40) [*]; done))

@[simp] theorem cleanRange_wf {m : Memory} (h : m.wf = true) (lo hi : Nat) : (cleanRange m lo hi).wf = true := by
  unfold cleanRange
  refine foldl_keeps (fun m : Memory => m.wf = true) _ (fun m x h => ?_) _ _ h
  split
  · exact Memory.cleanByte_wf h _
  · exact h

theorem execVitrineReleaseDone_wf {d : Nat} {n : Nat} {s : State} {r' : _} (hr : (execVitrineReleaseDone d n s) = .next r') (hs : s.mem.wf = true) : r'.mem.wf = true := by
  cases hr
  repeat' (first | with_reducible refine ite_wf ?_ ?_ | split | (simp +contextual (maxDischargeDepth := 40) [*]; done))

theorem execXlinvPage_wf {d : Nat} {p : Nat} {va : W64} {s : State} {r' : _} (hr : (execXlinvPage d p va s) = .next r') (hs : s.mem.wf = true) : r'.mem.wf = true := by cases hr; simp [*]

theorem execXlinvPartition_wf {d : Nat} {p : Nat} {s : State} {r' : _} (hr : (execXlinvPartition d p s) = .next r') (hs : s.mem.wf = true) : r'.mem.wf = true := by cases hr; simp [*]

theorem execXlinvAll_wf {d : Nat} {s : State} {r' : _} (hr : (execXlinvAll d s) = .next r') (hs : s.mem.wf = true) : r'.mem.wf = true := by cases hr; simp [*]

theorem execXlinvDone_wf {d : Nat} {s : State} {r' : _} (hr : (execXlinvDone d s) = .next r') (hs : s.mem.wf = true) : r'.mem.wf = true := by cases hr; simp [*]

theorem execRootWrite_wf {p : Nat} {value : W64} {s : State} {r' : _} (hr : (execRootWrite p value s) = .next r') (hs : s.mem.wf = true) : r'.mem.wf = true := by cases hr; simp [*]

theorem execPubaccWrite_wf {value : W32} {s : State} {r' : _} (hr : (execPubaccWrite value s) = .next r') (hs : s.mem.wf = true) : r'.mem.wf = true := by cases hr; simp [*]

@[simp] theorem dbgRow_wf (mode : Nat) (value : W64) (s : State) (hs : s.mem.wf = true) : (dbgRow mode value s).mem.wf = true := by
  unfold dbgRow
  split <;> simp [*]

theorem execDebugDisarm_wf {value : W64} {s : State} {r' : _} (hr : (execDebugDisarm value s) = .next r') (hs : s.mem.wf = true) : r'.mem.wf = true := by cases hr; simp [*]

theorem execDebugHoldQueue_wf {value : W64} {s : State} {r' : _} (hr : (execDebugHoldQueue value s) = .next r') (hs : s.mem.wf = true) : r'.mem.wf = true := by cases hr; simp [*]

theorem execDebugStopJob_wf {value : W64} {s : State} {r' : _} (hr : (execDebugStopJob value s) = .next r') (hs : s.mem.wf = true) : r'.mem.wf = true := by cases hr; simp [*]

theorem execDebugStopPartition_wf {value : W64} {s : State} {r' : _} (hr : (execDebugStopPartition value s) = .next r') (hs : s.mem.wf = true) : r'.mem.wf = true := by cases hr; simp [*]

theorem execRegisterWrite_wf {priv : Priv} {off : Nat} {size : Nat} {value : W64} {s : State} {r' : _} (hr : (execRegisterWrite priv off size value s) = .next r') (hs : s.mem.wf = true) : r'.mem.wf = true := by
  first | (simp only [execRegisterWrite, next, Host.Outcome.next.injEq] at hr; subst hr) | unfold execRegisterWrite at hr
  repeat' (first
    | with_reducible assumption
    | contradiction
    | (cases hr; done)
    | (injection hr with hr; subst hr)
    | with_reducible refine ite_wf ?_ ?_
    | (simp +contextual (maxDischargeDepth := 40) [*]; done)
    | (split at hr <;> try (rename_i heq; first | (with_reducible have hk := globalPut_wf heq (by simp +contextual (maxDischargeDepth := 40) [*])) | (with_reducible have hk := regWrite_wf heq (by simp +contextual (maxDischargeDepth := 40) [*])) | (with_reducible have hk := devStore32_wf heq (by simp +contextual (maxDischargeDepth := 40) [*])) | (with_reducible have hk := devStore_wf heq (by simp +contextual (maxDischargeDepth := 40) [*])) | (with_reducible have hk := refuseShare_wf heq (by simp +contextual (maxDischargeDepth := 40) [*])) | (with_reducible have hk := placeMsg_wf heq (by simp +contextual (maxDischargeDepth := 40) [*])) | (with_reducible have hk := placePush_wf heq (by simp +contextual (maxDischargeDepth := 40) [*])) | (with_reducible have hk := writeImages_wf heq (by simp +contextual (maxDischargeDepth := 40) [*])) | (with_reducible have hk := restoreOne_wf heq (by simp +contextual (maxDischargeDepth := 40) [*])) | (with_reducible have hk := restoreAll_wf heq (by simp +contextual (maxDischargeDepth := 40) [*])) | (with_reducible have hk := restoreHeld_wf heq (by simp +contextual (maxDischargeDepth := 40) [*])) | (with_reducible have hk := docPut_wf heq (by simp +contextual (maxDischargeDepth := 40) [*])) | (with_reducible have hk := ringPut_wf heq (by simp +contextual (maxDischargeDepth := 40) [*])) | (simp only [Prod.ext_iff] at heq; first | obtain ⟨_, _, rfl⟩ := heq | obtain ⟨_, rfl⟩ := heq | obtain ⟨rfl, _⟩ := heq)))
    | dsimp only at hr
    | dsimp only
    | (split <;> try (rename_i heq; first | (with_reducible have hk := globalPut_wf heq (by simp +contextual (maxDischargeDepth := 40) [*])) | (with_reducible have hk := regWrite_wf heq (by simp +contextual (maxDischargeDepth := 40) [*])) | (with_reducible have hk := devStore32_wf heq (by simp +contextual (maxDischargeDepth := 40) [*])) | (with_reducible have hk := devStore_wf heq (by simp +contextual (maxDischargeDepth := 40) [*])) | (with_reducible have hk := refuseShare_wf heq (by simp +contextual (maxDischargeDepth := 40) [*])) | (with_reducible have hk := placeMsg_wf heq (by simp +contextual (maxDischargeDepth := 40) [*])) | (with_reducible have hk := placePush_wf heq (by simp +contextual (maxDischargeDepth := 40) [*])) | (with_reducible have hk := writeImages_wf heq (by simp +contextual (maxDischargeDepth := 40) [*])) | (with_reducible have hk := restoreOne_wf heq (by simp +contextual (maxDischargeDepth := 40) [*])) | (with_reducible have hk := restoreAll_wf heq (by simp +contextual (maxDischargeDepth := 40) [*])) | (with_reducible have hk := restoreHeld_wf heq (by simp +contextual (maxDischargeDepth := 40) [*])) | (with_reducible have hk := docPut_wf heq (by simp +contextual (maxDischargeDepth := 40) [*])) | (with_reducible have hk := ringPut_wf heq (by simp +contextual (maxDischargeDepth := 40) [*])) | (simp only [Prod.ext_iff] at heq; first | obtain ⟨_, _, rfl⟩ := heq | obtain ⟨_, rfl⟩ := heq | obtain ⟨rfl, _⟩ := heq))))

theorem execSnapinTrigger_wf {s : State} {r' : _} (hr : (execSnapinTrigger s) = .next r') (hs : s.mem.wf = true) : r'.mem.wf = true := by
  cases hr
  repeat' (first | with_reducible refine ite_wf ?_ ?_ | split | (simp +contextual (maxDischargeDepth := 40) [*]; done))

@[simp] theorem coreCounts_wf (s : State) (cid : Nat) (hs : s.mem.wf = true) : (coreCounts s cid).2.mem.wf = true := by
  first | simp only [coreCounts] | unfold coreCounts
  repeat' (first
    | with_reducible assumption
    | with_reducible refine ite_wf ?_ ?_
    | with_reducible refine ite_wf1 ?_ ?_
    | with_reducible refine ite_wf2 ?_ ?_
    | with_reducible refine ite_wf22 ?_ ?_
    | with_reducible refine iteOut_wf ?_ ?_
    | with_reducible refine foldl_wf _ _ _ (fun _ _ _ => ?_) ?_
    | with_reducible refine foldl_wf1 _ _ _ (fun _ _ _ => ?_) ?_
    | with_reducible refine foldl_wf2 _ _ _ (fun _ _ _ => ?_) ?_
    | with_reducible refine foldl_wf22 _ _ _ (fun _ _ _ => ?_) ?_
    | (simp +contextual (maxDischargeDepth := 40) [*]; done)
    | dsimp only
    | split)

@[simp] theorem dieCounts_wf (s : State) (d : Nat) (hs : s.mem.wf = true) : (dieCounts s d).2.mem.wf = true := by
  first | simp only [dieCounts] | unfold dieCounts
  repeat' (first
    | with_reducible assumption
    | with_reducible refine ite_wf ?_ ?_
    | with_reducible refine ite_wf1 ?_ ?_
    | with_reducible refine ite_wf2 ?_ ?_
    | with_reducible refine ite_wf22 ?_ ?_
    | with_reducible refine iteOut_wf ?_ ?_
    | with_reducible refine foldl_wf _ _ _ (fun _ _ _ => ?_) ?_
    | with_reducible refine foldl_wf1 _ _ _ (fun _ _ _ => ?_) ?_
    | with_reducible refine foldl_wf2 _ _ _ (fun _ _ _ => ?_) ?_
    | with_reducible refine foldl_wf22 _ _ _ (fun _ _ _ => ?_) ?_
    | (simp +contextual (maxDischargeDepth := 40) [*]; done)
    | dsimp only
    | split)

@[simp] theorem counterRecord_wf (s : State) (time : Nat) (seq : W32) (kind : Nat) (tag : Nat) (hs : s.mem.wf = true) : (counterRecord s time seq kind tag).2.mem.wf = true := by simp +contextual (maxDischargeDepth := 40) [counterRecord, *]

@[simp] theorem snapshotLatch_wf (s : State) (hs : s.mem.wf = true) : (snapshotLatch s).mem.wf = true := by
  first | simp only [snapshotLatch] | unfold snapshotLatch
  repeat' (first
    | with_reducible assumption
    | with_reducible refine ite_wf ?_ ?_
    | (simp +contextual (maxDischargeDepth := 40) [*]; done)
    | dsimp only
    | split)

theorem execSnapshotLatch_wf {s : State} {r' : _} (hr : (execSnapshotLatch s) = .next r') (hs : s.mem.wf = true) : r'.mem.wf = true := by cases hr; simp [*]

@[simp] theorem tsTick_wf (s : State) (hs : s.mem.wf = true) : (tsTick s).mem.wf = true := by
  unfold tsTick
  repeat' (first | with_reducible refine ite_wf ?_ ?_ | split | (simp +contextual (maxDischargeDepth := 40) [*]; done))

theorem execTsTick_wf {s : State} {r' : _} (hr : (execTsTick s) = .next r') (hs : s.mem.wf = true) : r'.mem.wf = true := by cases hr; simp [*]

@[simp] theorem powerGood_wf (s : State) (recover : Bool) (hs : s.mem.wf = true) : (powerGood s recover).mem.wf = true := by simp [powerGood, *]

theorem execPowerGood_wf {recover : Bool} {s : State} {r' : _} (hr : (execPowerGood recover s) = .next r') (hs : s.mem.wf = true) : r'.mem.wf = true := by cases hr; simp [*]

@[simp] theorem testDie_wf (s : State) (d : Nat) (t : DieTest) (sites : List Half) (hs : s.mem.wf = true) : (testDie s d t sites).1.mem.wf = true := by simp [testDie, *]

@[simp] theorem bistLog_wf (s : State) (us : List (Half × Nat)) (hs : s.mem.wf = true) : (bistLog s us).mem.wf = true := by simp +contextual (maxDischargeDepth := 40) [bistLog, *]

@[simp] theorem stopBoot_wf (s : State) (owner : Bool) (bfail : Nat) (f : W32) (hs : s.mem.wf = true) : (stopBoot s owner bfail f).mem.wf = true := by simp [stopBoot, *]

@[simp] theorem testAll_wf (s : State) (fw : Image) (cfg : Image) (ts : List DieTest) (hs : s.mem.wf = true) : (testAll s fw cfg ts).mem.wf = true := by
  first | simp only [testAll] | unfold testAll
  repeat' (first
    | with_reducible assumption
    | with_reducible refine ite_wf ?_ ?_
    | (simp +contextual (maxDischargeDepth := 40) [*]; done)
    | dsimp only
    | split)

@[simp] theorem stageB_wf (s : State) (ts : List DieTest) (hs : s.mem.wf = true) : (stageB s ts).mem.wf = true := by
  unfold stageB
  repeat' (first | with_reducible refine ite_wf ?_ ?_ | split | (simp +contextual (maxDischargeDepth := 40) [*]; done))

theorem execStageB_wf {dies : List DieTest} {s : State} {r' : _} (hr : (execStageB dies s) = .next r') (hs : s.mem.wf = true) : r'.mem.wf = true := by cases hr; simp [*]

@[simp] theorem stageC_wf (s : State) (hs : s.mem.wf = true) : (stageC s).mem.wf = true := by
  first | simp only [stageC] | unfold stageC
  repeat' (first
    | with_reducible assumption
    | with_reducible refine ite_wf ?_ ?_
    | with_reducible refine ite_wf1 ?_ ?_
    | with_reducible refine ite_wf2 ?_ ?_
    | with_reducible refine ite_wf22 ?_ ?_
    | with_reducible refine iteOut_wf ?_ ?_
    | with_reducible refine foldl_wf _ _ _ (fun _ _ _ => ?_) ?_
    | with_reducible refine foldl_wf1 _ _ _ (fun _ _ _ => ?_) ?_
    | with_reducible refine foldl_wf2 _ _ _ (fun _ _ _ => ?_) ?_
    | with_reducible refine foldl_wf22 _ _ _ (fun _ _ _ => ?_) ?_
    | (simp +contextual (maxDischargeDepth := 40) [*]; done)
    | dsimp only
    | split)

theorem execStageC_wf {s : State} {r' : _} (hr : (execStageC s) = .next r') (hs : s.mem.wf = true) : r'.mem.wf = true := by cases hr; simp [*]

theorem execAttestationRequest_wf {nonce : BitVec 256} {s : State} {r' : _} (hr : (execAttestationRequest nonce s) = .next r') (hs : s.mem.wf = true) : r'.mem.wf = true := by
  cases hr
  repeat' (first | with_reducible refine ite_wf ?_ ?_ | split | (simp +contextual (maxDischargeDepth := 40) [*]; done))

@[simp] theorem ownerEnrol_wf (s : State) (i : Image) (copy : Option Bool) (writable : Bool) (hs : s.mem.wf = true) : (ownerEnrol s i copy writable).mem.wf = true := by
  unfold ownerEnrol
  repeat' (first | with_reducible refine ite_wf ?_ ?_ | split | (simp +contextual (maxDischargeDepth := 40) [*]; done))

theorem execOwnerEnrol_wf {image : Image} {copy : Option Bool} {writable : Bool} {s : State} {r' : _} (hr : (execOwnerEnrol image copy writable s) = .next r') (hs : s.mem.wf = true) : r'.mem.wf = true := by cases hr; simp [*]

theorem execWatisPortDown_wf {port : Bool} {s : State} {r' : _} (hr : (execWatisPortDown port s) = .next r') (hs : s.mem.wf = true) : r'.mem.wf = true := by
  first | (simp only [execWatisPortDown, next, Host.Outcome.next.injEq] at hr; subst hr) | unfold execWatisPortDown at hr
  repeat' (first
    | with_reducible assumption
    | contradiction
    | (cases hr; done)
    | (injection hr with hr; subst hr)
    | with_reducible refine ite_wf ?_ ?_
    | with_reducible refine ite_wf1 ?_ ?_
    | with_reducible refine ite_wf2 ?_ ?_
    | with_reducible refine ite_wf22 ?_ ?_
    | with_reducible refine iteOut_wf ?_ ?_
    | with_reducible refine foldl_wf _ _ _ (fun _ _ _ => ?_) ?_
    | with_reducible refine foldl_wf1 _ _ _ (fun _ _ _ => ?_) ?_
    | with_reducible refine foldl_wf2 _ _ _ (fun _ _ _ => ?_) ?_
    | with_reducible refine foldl_wf22 _ _ _ (fun _ _ _ => ?_) ?_
    | (simp +contextual (maxDischargeDepth := 40) [*]; done)
    | split at hr
    | dsimp only at hr
    | dsimp only
    | split)

theorem execHostAccess_wf {op : HostOp} {s : State} {r' : _} (hr : (execHostAccess op s) = .next r') (hs : s.mem.wf = true) : r'.mem.wf = true := by
  first | (simp only [execHostAccess, next, Host.Outcome.next.injEq] at hr; subst hr) | unfold execHostAccess at hr
  repeat' (first
    | with_reducible assumption
    | contradiction
    | (cases hr; done)
    | (injection hr with hr; subst hr)
    | with_reducible refine ite_wf ?_ ?_
    | (simp +contextual (maxDischargeDepth := 40) [*]; done)
    | (split at hr <;> try (rename_i heq; first | (with_reducible have hk := globalPut_wf heq (by simp +contextual (maxDischargeDepth := 40) [*])) | (with_reducible have hk := regWrite_wf heq (by simp +contextual (maxDischargeDepth := 40) [*])) | (with_reducible have hk := devStore32_wf heq (by simp +contextual (maxDischargeDepth := 40) [*])) | (with_reducible have hk := devStore_wf heq (by simp +contextual (maxDischargeDepth := 40) [*])) | (with_reducible have hk := refuseShare_wf heq (by simp +contextual (maxDischargeDepth := 40) [*])) | (with_reducible have hk := placeMsg_wf heq (by simp +contextual (maxDischargeDepth := 40) [*])) | (with_reducible have hk := placePush_wf heq (by simp +contextual (maxDischargeDepth := 40) [*])) | (with_reducible have hk := writeImages_wf heq (by simp +contextual (maxDischargeDepth := 40) [*])) | (with_reducible have hk := restoreOne_wf heq (by simp +contextual (maxDischargeDepth := 40) [*])) | (with_reducible have hk := restoreAll_wf heq (by simp +contextual (maxDischargeDepth := 40) [*])) | (with_reducible have hk := restoreHeld_wf heq (by simp +contextual (maxDischargeDepth := 40) [*])) | (with_reducible have hk := docPut_wf heq (by simp +contextual (maxDischargeDepth := 40) [*])) | (with_reducible have hk := ringPut_wf heq (by simp +contextual (maxDischargeDepth := 40) [*])) | (simp only [Prod.ext_iff] at heq; first | obtain ⟨_, _, rfl⟩ := heq | obtain ⟨_, rfl⟩ := heq | obtain ⟨rfl, _⟩ := heq)))
    | dsimp only at hr
    | dsimp only
    | (split <;> try (rename_i heq; first | (with_reducible have hk := globalPut_wf heq (by simp +contextual (maxDischargeDepth := 40) [*])) | (with_reducible have hk := regWrite_wf heq (by simp +contextual (maxDischargeDepth := 40) [*])) | (with_reducible have hk := devStore32_wf heq (by simp +contextual (maxDischargeDepth := 40) [*])) | (with_reducible have hk := devStore_wf heq (by simp +contextual (maxDischargeDepth := 40) [*])) | (with_reducible have hk := refuseShare_wf heq (by simp +contextual (maxDischargeDepth := 40) [*])) | (with_reducible have hk := placeMsg_wf heq (by simp +contextual (maxDischargeDepth := 40) [*])) | (with_reducible have hk := placePush_wf heq (by simp +contextual (maxDischargeDepth := 40) [*])) | (with_reducible have hk := writeImages_wf heq (by simp +contextual (maxDischargeDepth := 40) [*])) | (with_reducible have hk := restoreOne_wf heq (by simp +contextual (maxDischargeDepth := 40) [*])) | (with_reducible have hk := restoreAll_wf heq (by simp +contextual (maxDischargeDepth := 40) [*])) | (with_reducible have hk := restoreHeld_wf heq (by simp +contextual (maxDischargeDepth := 40) [*])) | (with_reducible have hk := docPut_wf heq (by simp +contextual (maxDischargeDepth := 40) [*])) | (with_reducible have hk := ringPut_wf heq (by simp +contextual (maxDischargeDepth := 40) [*])) | (simp only [Prod.ext_iff] at heq; first | obtain ⟨_, _, rfl⟩ := heq | obtain ⟨_, rfl⟩ := heq | obtain ⟨rfl, _⟩ := heq))))

end Sys2Proof.Machine
end

