-- ==== Sys2Proof/Laws/KeepLoader.lean ====
section
/-!
SUPPORT. Memory stays in its canonical form under every function of Machine/Loader.lean: one lemma each.
-/

namespace Sys2Proof.Machine

@[simp] theorem writeSect_wf (s : State) (part : Nat) (c : CodeSect) (hs : s.mem.wf = true) : (writeSect s part c).mem.wf = true := by
  unfold writeSect
  repeat' (first | with_reducible refine ite_wf ?_ ?_ | split | (simp +contextual (maxDischargeDepth := 40) [*]; done))

@[simp] theorem loadObjs_wf (s : State) (part : Nat) (objs : List CodeObj) (hs : s.mem.wf = true) : (loadObjs s part objs).mem.wf = true := by
  first | simp only [loadObjs] | unfold loadObjs
  repeat' (first
    | with_reducible assumption
    | with_reducible refine ite_wf ?_ ?_
    | with_reducible refine ite_wf1 ?_ ?_
    | with_reducible refine ite_wf2 ?_ ?_
    | with_reducible refine ite_wf22 ?_ ?_
    | with_reducible refine iteOut_wf ?_ ?_
    | with_reducible refine foldl_wf _ _ _ (fun _ _ _ => ?_) ?_
    | with_reducible refine foldl_wf1 _ _ _ (fun _ _ _ => ?_) ?_
    | with_reducible refine foldl_wf2 _ _ _ (fun _ _ _ => ?_) ?_
    | with_reducible refine foldl_wf22 _ _ _ (fun _ _ _ => ?_) ?_
    | (simp +contextual (maxDischargeDepth := 40) [*]; done)
    | dsimp only
    | split)

theorem execLoaderLoad_wf {part : Nat} {objs : List CodeObj} {s : State} {r' : _} (hr : (execLoaderLoad part objs s) = .next r') (hs : s.mem.wf = true) : r'.mem.wf = true := by cases hr; simp [*]

end Sys2Proof.Machine
end

