-- ==== Sys2Proof/Laws/KeepDispatch.lean ====
section
/-!
SUPPORT. Memory stays in its canonical form under every function of Machine/Dispatch.lean: one lemma each.
-/

namespace Sys2Proof.Machine

theorem exec_wf {i : Instr} {s : State} {r' : _} (hr : (exec i s) = .next r') (hs : s.mem.wf = true) : r'.mem.wf = true := by
  cases i with
  | iadd o w sat => exact execIadd_wf hr hs
  | isub o w sat => exact execIsub_wf hr hs
  | imul o w sat => exact execImul_wf hr hs
  | imulh o w u => exact execImulh_wf hr hs
  | imad o w => exact execImad_wf hr hs
  | iaddc o w sub co => exact execIaddc_wf hr hs
  | imin o w u => exact execImin_wf hr hs
  | imax o w u => exact execImax_wf hr hs
  | iabs o w sat => exact execIabs_wf hr hs
  | ineg o w sat => exact execIneg_wf hr hs
  | and o w => exact execAnd_wf hr hs
  | or o w => exact execOr_wf hr hs
  | xor o w => exact execXor_wf hr hs
  | not o w => exact execNot_wf hr hs
  | andn o w => exact execAndn_wf hr hs
  | shl o w => exact execShl_wf hr hs
  | shr o w => exact execShr_wf hr hs
  | sar o w => exact execSar_wf hr hs
  | rot o w => exact execRot_wf hr hs
  | popc o w => exact execPopc_wf hr hs
  | clz o w => exact execClz_wf hr hs
  | ctz o w => exact execCtz_wf hr hs
  | brev o w => exact execBrev_wf hr hs
  | bfe o w sx => exact execBfe_wf hr hs
  | bfi o w => exact execBfi_wf hr hs
  | prmt o => exact execPrmt_wf hr hs
  | icmp o w cond u comb => exact execIcmp_wf hr hs
  | isel o w => exact execIsel_wf hr hs
  | mov o w => exact execMov_wf hr hs
  | movi o w z => exact execMovi_wf hr hs
  | movh o => exact execMovh_wf hr hs
  | lea o scale idx => exact execLea_wf hr hs
  | promv o form => exact execPromv_wf hr hs
  | proma o => exact execProma_wf hr hs
  | astr o => exact execAstr_wf hr hs
  | abase o => exact execAbase_wf hr hs
  | fadd o rm => exact execFadd_wf hr hs
  | fsub o rm => exact execFsub_wf hr hs
  | fmul o rm => exact execFmul_wf hr hs
  | ffma o rm np nc => exact execFfma_wf hr hs
  | fmin o => exact execFmin_wf hr hs
  | fmax o => exact execFmax_wf hr hs
  | fminn o => exact execFminn_wf hr hs
  | fmaxn o => exact execFmaxn_wf hr hs
  | fcmp o cond comb => exact execFcmp_wf hr hs
  | fclass o => exact execFclass_wf hr hs
  | frnd o rm => exact execFrnd_wf hr hs
  | fcvt o rm kind => exact execFcvt_wf hr hs
  | bfcvt o rm sat => exact execBfcvt_wf hr hs
  | bfext o hi => exact execBfext_wf hr hs
  | badd2 o rm s_ => exact execBadd2_wf hr hs
  | bmul2 o rm s_ => exact execBmul2_wf hr hs
  | bfma2 o rm s_ => exact execBfma2_wf hr hs
  | fdot2 o rm => exact execFdot2_wf hr hs
  | fexp2 o => exact execFexp2_wf hr hs
  | flog2 o => exact execFlog2_wf hr hs
  | frcp o => exact execFrcp_wf hr hs
  | frsq o => exact execFrsq_wf hr hs
  | fsqrt o => exact execFsqrt_wf hr hs
  | fsin o => exact execFsin_wf hr hs
  | fcos o => exact execFcos_wf hr hs
  | ftanh o => exact execFtanh_wf hr hs
  | fscl o rm => exact execFscl_wf hr hs
  | rng o f => exact execRng_wf hr hs
  | bra o nq pop => exact execBra_wf hr hs
  | brx o pop => exact execBrx_wf hr hs
  | call o => exact execCall_wf hr hs
  | callx o => exact execCallx_wf hr hs
  | ret o => exact execRet_wf hr hs
  | loop o len => exact execLoop_wf hr hs
  | conv o => exact execConv_wf hr hs
  | exit o => exact execExit_wf hr hs
  | wait o => exact execWait_wf hr hs
  | yield o => exact execYield_wf hr hs
  | nop o => exact execNop_wf hr hs
  | trap o => exact execTrap_wf hr hs
  | trapEnd o => exact execTrapEnd_wf hr hs
  | tret o next => exact execTret_wf hr hs
  | brk o => exact execBrk_wf hr hs
  | vote o mode => exact execVote_wf hr hs
  | elect o => exact execElect_wf hr hs
  | shfl o mode seg => exact execShfl_wf hr hs
  | rdlane o => exact execRdlane_wf hr hs
  | wrlane o => exact execWrlane_wf hr hs
  | redi o op u => exact execRedi_wf hr hs
  | redf o op => exact execRedf_wf hr hs
  | redmaxi o i_ => exact execRedmaxi_wf hr hs
  | matchLanes o => exact execMatchLanes_wf hr hs
  | isect o => exact execIsect_wf hr hs
  | scnt o inc => exact execScnt_wf hr hs
  | getsr o => exact execGetsr_wf hr hs
  | setsr o op => exact execSetsr_wf hr hs
  | regacq o => exact execRegacq_wf hr hs
  | regrel o => exact execRegrel_wf hr hs
  | ld o ch scope ord size => exact execLd_wf hr hs
  | ldConvert o ch fmt => exact execLdConvert_wf hr hs
  | st o ch scope ord size => exact execSt_wf hr hs
  | stConvert o ch sat rm fmt => exact execStConvert_wf hr hs
  | atom o sz scope ord aop => exact execAtom_wf hr hs
  | red o sz scope ord aop => exact execRed_wf hr hs
  | fence o scope => exact execFence_wf hr hs
  | fenceG o scope => exact execFenceG_wf hr hs
  | fencex o paths scope => exact execFencex_wf hr hs
  | pref o l2 => exact execPref_wf hr hs
  | discard o => exact execDiscard_wf hr hs
  | clean o mem => exact execClean_wf hr hs
  | inval o i_ => exact execInval_wf hr hs
  | copy o => exact execCopy_wf hr hs
  | mma o ru z => exact execMma_wf hr hs
  | mmaS o z => exact execMmaS_wf hr hs
  | mmaP o ru z => exact execMmaP_wf hr hs
  | accz o sel => exact execAccz_wf hr hs
  | accld o side fmt => exact execAccld_wf hr hs
  | accst o sat rm side fmt => exact execAccst_wf hr hs
  | accscl o row => exact execAccscl_wf hr hs
  | smx o nv => exact execSmx_wf hr hs
  | smxf o => exact execSmxf_wf hr hs
  | mred o col => exact execMred_wf hr hs
  | mtrld o b8 => exact execMtrld_wf hr hs
  | tset o => exact execTset_wf hr hs
  | bseal o => exact execBseal_wf hr hs
  | bwait o => exact execBwait_wf hr hs
  | barinit o => exact execBarinit_wf hr hs
  | barexp o => exact execBarexp_wf hr hs
  | barwait o paths gn => exact execBarwait_wf hr hs
  | barpoll o => exact execBarpoll_wf hr hs
  | clbar o paths => exact execClbar_wf hr hs
  | clarr o paths => exact execClarr_wf hr hs
  | rld o cnt => exact execRld_wf hr hs
  | msend o blk => exact execMsend_wf hr hs
  | mrecv o => exact execMrecv_wf hr hs
  | mprobe o st => exact execMprobe_wf hr hs
  | mcancel o => exact execMcancel_wf hr hs
  | hpop o => exact execHpop_wf hr hs
  | hpopJ o => exact execHpopJ_wf hr hs
  | hpush o => exact execHpush_wf hr hs
  | hstat o => exact execHstat_wf hr hs
  | evsig o op => exact execEvsig_wf hr hs
  | evwait o => exact execEvwait_wf hr hs
  | jdone o => exact execJdone_wf hr hs
  | publish o => exact execPublish_wf hr hs
  | adopt o => exact execAdopt_wf hr hs
  | tokrec o => exact execTokrec_wf hr hs
  | snap o => exact execSnap_wf hr hs
  | waitRelease g => exact execWaitRelease_wf hr hs
  | convRelease g => exact execConvRelease_wf hr hs
  | regacqGrant c => exact execRegacqGrant_wf hr hs
  | exitComplete g lane => exact execExitComplete_wf hr hs
  | loadWriteback g ix only => exact execLoadWriteback_wf hr hs
  | storePerform g ix early => exact execStorePerform_wf hr hs
  | ldpois g lane => exact execLdpois_wf hr hs
  | fenceRelease g lane => exact execFenceRelease_wf hr hs
  | matrixOpStart c => exact execMatrixOpStart_wf hr hs
  | matrixOpRetire c => exact execMatrixOpRetire_wf hr hs
  | tsetInstall g => exact execTsetInstall_wf hr hs
  | copyAccept c ch => exact execCopyAccept_wf hr hs
  | copyArrival c ix rx bytes => exact execCopyArrival_wf hr hs
  | copySourceFail c ix => exact execCopySourceFail_wf hr hs
  | curatorCopyFinish c ix rx how => exact execCuratorCopyFinish_wf hr hs
  | barwaitRelease g => exact execBarwaitRelease_wf hr hs
  | clbarRelease g => exact execClbarRelease_wf hr hs
  | messageArrival ix => exact execMessageArrival_wf hr hs
  | messageStallTimeout t ix => exact execMessageStallTimeout_wf hr hs
  | hpushPlace c ix => exact execHpushPlace_wf hr hs
  | hamperRefill c => exact execHamperRefill_wf hr hs
  | hpopTake g => exact execHpopTake_wf hr hs
  | evwaitRelease g => exact execEvwaitRelease_wf hr hs
  | jdoneRelease g => exact execJdoneRelease_wf hr hs
  | jobLaunch t => exact execJobLaunch_wf hr hs
  | jobCompletionReport ix => exact execJobCompletionReport_wf hr hs
  | coreSleep c => exact execCoreSleep_wf hr hs
  | coreWake c errors => exact execCoreWake_wf hr hs
  | haltRequest t => exact execHaltRequest_wf hr hs
  | checkpointSave t lost => exact execCheckpointSave_wf hr hs
  | queueTailWake d q => exact execQueueTailWake_wf hr hs
  | nopRecord h => exact execNopRecord_wf hr hs
  | job h tiles entry arg p => exact execJob_wf hr hs
  | cjob h clusters entry arg p => exact execCjob_wf hr hs
  | waitev h event => exact execWaitev_wf hr hs
  | sigev h op event n => exact execSigev_wf hr hs
  | loopRecord h nbody cond maxiter dmin dmax d0 mon => exact execLoopRecord_wf hr hs
  | loopend h => exact execLoopend_wf hr hs
  | adoptRecord h => exact execAdoptRecord_wf hr hs
  | lease h r w part base len => exact execLease_wf hr hs
  | unlease h base len => exact execUnlease_wf hr hs
  | resume h core cv image table event evon => exact execResume_wf hr hs
  | partw h pword mask clcfg gslots => exact execPartw_wf hr hs
  | mark h addr value => exact execMark_wf hr hs
  | slice h set t => exact execSlice_wf hr hs
  | endreq h nreq state bitmap => exact execEndreq_wf hr hs
  | haltq h queue halt budget => exact execHaltq_wf hr hs
  | leasePinComplete d q n => exact execLeasePinComplete_wf hr hs
  | tilePlace d => exact execTilePlace_wf hr hs
  | drainEscalate d q => exact execDrainEscalate_wf hr hs
  | resumeListResume d q => exact execResumeListResume_wf hr hs
  | evwaitBudgetExpire g => exact execEvwaitBudgetExpire_wf hr hs
  | watchdogTick d => exact execWatchdogTick_wf hr hs
  | catalogueStep d slot op n => exact execCatalogueStep_wf hr hs
  | coreLost c => exact execCoreLost_wf hr hs
  | linkdown d site dir => exact execLinkdown_wf hr hs
  | queueStart d q => exact execQueueStart_wf hr hs
  | pcoreWrite d p mask => exact execPcoreWrite_wf hr hs
  | vitbaseWrite d n value => exact execVitbaseWrite_wf hr hs
  | vitrinePin d n => exact execVitrinePin_wf hr hs
  | vitrineRelease d n => exact execVitrineRelease_wf hr hs
  | vitrinePinDone d n => exact execVitrinePinDone_wf hr hs
  | vitrineReleaseDone d n => exact execVitrineReleaseDone_wf hr hs
  | xlinvPage d p va => exact execXlinvPage_wf hr hs
  | xlinvPartition d p => exact execXlinvPartition_wf hr hs
  | xlinvAll d => exact execXlinvAll_wf hr hs
  | xlinvDone d => exact execXlinvDone_wf hr hs
  | rootWrite p value => exact execRootWrite_wf hr hs
  | pubaccWrite value => exact execPubaccWrite_wf hr hs
  | debugDisarm value => exact execDebugDisarm_wf hr hs
  | debugHoldQueue value => exact execDebugHoldQueue_wf hr hs
  | debugStopJob value => exact execDebugStopJob_wf hr hs
  | debugStopPartition value => exact execDebugStopPartition_wf hr hs
  | snapinTrigger => exact execSnapinTrigger_wf hr hs
  | snapshotLatch => exact execSnapshotLatch_wf hr hs
  | tsTick => exact execTsTick_wf hr hs
  | registerWrite priv off size value => exact execRegisterWrite_wf hr hs
  | powerGood recover => exact execPowerGood_wf hr hs
  | stageB dies => exact execStageB_wf hr hs
  | stageC => exact execStageC_wf hr hs
  | attestationRequest nonce => exact execAttestationRequest_wf hr hs
  | ownerEnrol image copy writable => exact execOwnerEnrol_wf hr hs
  | watisPortDown port => exact execWatisPortDown_wf hr hs
  | ualinkPortDown port => exact execUalinkPortDown_wf hr hs
  | fabricRingStart q => exact execFabricRingStart_wf hr hs
  | fabricTailWake q => exact execFabricTailWake_wf hr hs
  | read h peer laddr raddr len => exact execRead_wf hr hs
  | write h peer laddr raddr len => exact execWrite_wf hr hs
  | atomic h peer laddr raddr aop sz => exact execAtomic_wf hr hs
  | allreduce h rop cgid laddr list len nmem => exact execAllreduce_wf hr hs
  | broadcast h cgid root laddr list len nmem => exact execBroadcast_wf hr hs
  | fabricCmdComplete q ix ok data => exact execFabricCmdComplete_wf hr hs
  | fabricRequestArrival peer addr op => exact execFabricRequestArrival_wf hr hs
  | remoteEventAnswer event count fail => exact execRemoteEventAnswer_wf hr hs
  | fabricPeerTimeout peer => exact execFabricPeerTimeout_wf hr hs
  | collectiveTimeout cgid reuse => exact execCollectiveTimeout_wf hr hs
  | peerDebugState peer on => exact execPeerDebugState_wf hr hs
  | sliceDrainStart => exact execSliceDrainStart_wf hr hs
  | sliceEscalate => exact execSliceEscalate_wf hr hs
  | sliceSwitch => exact execSliceSwitch_wf hr hs
  | loaderLoad part objs => exact execLoaderLoad_wf hr hs
  | tlockChange locked => exact execTlockChange_wf hr hs
  | eventWatchRegister peer event => exact execEventWatchRegister_wf hr hs
  | collectiveMemberData cgid member same data => exact execCollectiveMemberData_wf hr hs
  | cgidFinishReport cgid member => exact execCgidFinishReport_wf hr hs
  | hostAccess op => exact execHostAccess_wf hr hs

end Sys2Proof.Machine
end

