-- ==== Sys2Proof/Laws/KeepFetch.lean ====
section
/-!
SUPPORT. Memory stays in its canonical form under every function of Machine/Fetch.lean: one lemma each.
-/

namespace Sys2Proof.Machine

@[simp] theorem passOpportunity_wf (s : State) (gid : Nat) (m : Mask) (hs : s.mem.wf = true) : (passOpportunity s gid m).mem.wf = true := by simp +contextual (maxDischargeDepth := 40) [passOpportunity, *]

@[simp] theorem asGroup_wf (s : State) (gid : Nat) (m : Mask) (hs : s.mem.wf = true) : (asGroup s gid m).mem.wf = true := by simp [asGroup, *]

@[simp] theorem joinHalves_wf (gid : Nat) (m : Mask) (d n : Nat) (x y : State) (hx : x.mem.wf = true) :
    (joinHalves gid m d n x y).mem.wf = true := State.modGroup_wf _ _ _ hx

theorem runPair_wf {s : State} {gid : Nat} {m : Mask} {pc : W64} {i : Instr} {j : Instr} {r' : _} (hr : (runPair s gid m pc i j) = .next r') (hs : s.mem.wf = true) : r'.mem.wf = true := by
  unfold runPair at hr
  dsimp only at hr
  split at hr
  · cases hr
    exact deliver_wf _ _ _ hs
  · split at hr
    · cases hr
      exact deliver_wf _ _ _ hs
    · split at hr
      · next x y hx hy =>
        cases hr
        exact joinHalves_wf _ _ _ _ _ _ (exec_wf hx (asGroup_wf _ _ _ hs))
      all_goals cases hr

theorem runSlot_wf {s : State} {gid : Nat} {m : Mask} {pc : W64} {pa : Nat} {r' : _} (hr : (runSlot s gid m pc pa) = .next r') (hs : s.mem.wf = true) : r'.mem.wf = true := by
  unfold runSlot at hr
  repeat' (first
    | with_reducible assumption
    | contradiction
    | (cases hr; done)
    | (injection hr with hr; subst hr)
    | with_reducible refine ite_wf ?_ ?_
    | (simp +contextual (maxDischargeDepth := 40) [*]; done)
    | (split at hr <;> try (rename_i heq; first | (with_reducible have hk := globalPut_wf heq (by simp +contextual (maxDischargeDepth := 40) [*])) | (with_reducible have hk := regWrite_wf heq (by simp +contextual (maxDischargeDepth := 40) [*])) | (with_reducible have hk := devStore32_wf heq (by simp +contextual (maxDischargeDepth := 40) [*])) | (with_reducible have hk := devStore_wf heq (by simp +contextual (maxDischargeDepth := 40) [*])) | (with_reducible have hk := refuseShare_wf heq (by simp +contextual (maxDischargeDepth := 40) [*])) | (with_reducible have hk := placeMsg_wf heq (by simp +contextual (maxDischargeDepth := 40) [*])) | (with_reducible have hk := placePush_wf heq (by simp +contextual (maxDischargeDepth := 40) [*])) | (with_reducible have hk := writeImages_wf heq (by simp +contextual (maxDischargeDepth := 40) [*])) | (with_reducible have hk := restoreOne_wf heq (by simp +contextual (maxDischargeDepth := 40) [*])) | (with_reducible have hk := restoreAll_wf heq (by simp +contextual (maxDischargeDepth := 40) [*])) | (with_reducible have hk := restoreHeld_wf heq (by simp +contextual (maxDischargeDepth := 40) [*])) | (with_reducible have hk := docPut_wf heq (by simp +contextual (maxDischargeDepth := 40) [*])) | (with_reducible have hk := ringPut_wf heq (by simp +contextual (maxDischargeDepth := 40) [*])) | (with_reducible have hk := exec_wf heq (by simp +contextual (maxDischargeDepth := 40) [*])) | (with_reducible have hk := runPair_wf heq (by simp +contextual (maxDischargeDepth := 40) [*])) | (with_reducible have hk := runSlot_wf heq (by simp +contextual (maxDischargeDepth := 40) [*])) | (with_reducible have hk := fetchAndRun_wf heq (by simp +contextual (maxDischargeDepth := 40) [*])) | (with_reducible have hk := issueGroup_wf heq (by simp +contextual (maxDischargeDepth := 40) [*])) | (with_reducible have hk := docentTake_wf heq (by simp +contextual (maxDischargeDepth := 40) [*])) | (with_reducible have hk := fabricTake_wf heq (by simp +contextual (maxDischargeDepth := 40) [*])) | (simp only [Prod.ext_iff] at heq; first | obtain ⟨_, _, rfl⟩ := heq | obtain ⟨_, rfl⟩ := heq | obtain ⟨rfl, _⟩ := heq)))
    | (with_reducible exact globalPut_wf hr (by simp +contextual (maxDischargeDepth := 40) [*]))
    | (with_reducible exact regWrite_wf hr (by simp +contextual (maxDischargeDepth := 40) [*]))
    | (with_reducible exact devStore32_wf hr (by simp +contextual (maxDischargeDepth := 40) [*]))
    | (with_reducible exact devStore_wf hr (by simp +contextual (maxDischargeDepth := 40) [*]))
    | (with_reducible exact refuseShare_wf hr (by simp +contextual (maxDischargeDepth := 40) [*]))
    | (with_reducible exact placeMsg_wf hr (by simp +contextual (maxDischargeDepth := 40) [*]))
    | (with_reducible exact placePush_wf hr (by simp +contextual (maxDischargeDepth := 40) [*]))
    | (with_reducible exact writeImages_wf hr (by simp +contextual (maxDischargeDepth := 40) [*]))
    | (with_reducible exact restoreOne_wf hr (by simp +contextual (maxDischargeDepth := 40) [*]))
    | (with_reducible exact restoreAll_wf hr (by simp +contextual (maxDischargeDepth := 40) [*]))
    | (with_reducible exact restoreHeld_wf hr (by simp +contextual (maxDischargeDepth := 40) [*]))
    | (with_reducible exact docPut_wf hr (by simp +contextual (maxDischargeDepth := 40) [*]))
    | (with_reducible exact ringPut_wf hr (by simp +contextual (maxDischargeDepth := 40) [*]))
    | (with_reducible exact exec_wf hr (by simp +contextual (maxDischargeDepth := 40) [*]))
    | (with_reducible exact runPair_wf hr (by simp +contextual (maxDischargeDepth := 40) [*]))
    | (with_reducible exact runSlot_wf hr (by simp +contextual (maxDischargeDepth := 40) [*]))
    | (with_reducible exact fetchAndRun_wf hr (by simp +contextual (maxDischargeDepth := 40) [*]))
    | (with_reducible exact issueGroup_wf hr (by simp +contextual (maxDischargeDepth := 40) [*]))
    | (with_reducible exact docentTake_wf hr (by simp +contextual (maxDischargeDepth := 40) [*]))
    | (with_reducible exact fabricTake_wf hr (by simp +contextual (maxDischargeDepth := 40) [*]))
    | dsimp only at hr
    | dsimp only
    | (split <;> try (rename_i heq; first | (with_reducible have hk := globalPut_wf heq (by simp +contextual (maxDischargeDepth := 40) [*])) | (with_reducible have hk := regWrite_wf heq (by simp +contextual (maxDischargeDepth := 40) [*])) | (with_reducible have hk := devStore32_wf heq (by simp +contextual (maxDischargeDepth := 40) [*])) | (with_reducible have hk := devStore_wf heq (by simp +contextual (maxDischargeDepth := 40) [*])) | (with_reducible have hk := refuseShare_wf heq (by simp +contextual (maxDischargeDepth := 40) [*])) | (with_reducible have hk := placeMsg_wf heq (by simp +contextual (maxDischargeDepth := 40) [*])) | (with_reducible have hk := placePush_wf heq (by simp +contextual (maxDischargeDepth := 40) [*])) | (with_reducible have hk := writeImages_wf heq (by simp +contextual (maxDischargeDepth := 40) [*])) | (with_reducible have hk := restoreOne_wf heq (by simp +contextual (maxDischargeDepth := 40) [*])) | (with_reducible have hk := restoreAll_wf heq (by simp +contextual (maxDischargeDepth := 40) [*])) | (with_reducible have hk := restoreHeld_wf heq (by simp +contextual (maxDischargeDepth := 40) [*])) | (with_reducible have hk := docPut_wf heq (by simp +contextual (maxDischargeDepth := 40) [*])) | (with_reducible have hk := ringPut_wf heq (by simp +contextual (maxDischargeDepth := 40) [*])) | (with_reducible have hk := exec_wf heq (by simp +contextual (maxDischargeDepth := 40) [*])) | (with_reducible have hk := runPair_wf heq (by simp +contextual (maxDischargeDepth := 40) [*])) | (with_reducible have hk := runSlot_wf heq (by simp +contextual (maxDischargeDepth := 40) [*])) | (with_reducible have hk := fetchAndRun_wf heq (by simp +contextual (maxDischargeDepth := 40) [*])) | (with_reducible have hk := issueGroup_wf heq (by simp +contextual (maxDischargeDepth := 40) [*])) | (with_reducible have hk := docentTake_wf heq (by simp +contextual (maxDischargeDepth := 40) [*])) | (with_reducible have hk := fabricTake_wf heq (by simp +contextual (maxDischargeDepth := 40) [*])) | (simp only [Prod.ext_iff] at heq; first | obtain ⟨_, _, rfl⟩ := heq | obtain ⟨_, rfl⟩ := heq | obtain ⟨rfl, _⟩ := heq))))

theorem fetchAndRun_wf {s : State} {gid : Nat} {m : Mask} {pc : W64} {r' : _} (hr : (fetchAndRun s gid m pc) = .next r') (hs : s.mem.wf = true) : r'.mem.wf = true := by
  unfold fetchAndRun at hr
  split at hr
  · cases hr
    exact deliver_wf _ _ _ hs
  · dsimp only at hr
    split at hr
    · exact runSlot_wf hr hs
    · split at hr
      · cases hr
        exact deliver_wf _ _ _ hs
      · exact runSlot_wf hr (deliver_wf _ _ _ hs)

theorem issueGroup_wf {s : State} {gid : Nat} {r' : _} (hr : (issueGroup s gid) = .next r') (hs : s.mem.wf = true) : r'.mem.wf = true := by
  unfold issueGroup at hr
  repeat' (first
    | with_reducible assumption
    | contradiction
    | (cases hr; done)
    | (injection hr with hr; subst hr)
    | with_reducible refine ite_wf ?_ ?_
    | (simp +contextual (maxDischargeDepth := 40) [*]; done)
    | (split at hr <;> try (rename_i heq; first | (with_reducible have hk := globalPut_wf heq (by simp +contextual (maxDischargeDepth := 40) [*])) | (with_reducible have hk := regWrite_wf heq (by simp +contextual (maxDischargeDepth := 40) [*])) | (with_reducible have hk := devStore32_wf heq (by simp +contextual (maxDischargeDepth := 40) [*])) | (with_reducible have hk := devStore_wf heq (by simp +contextual (maxDischargeDepth := 40) [*])) | (with_reducible have hk := refuseShare_wf heq (by simp +contextual (maxDischargeDepth := 40) [*])) | (with_reducible have hk := placeMsg_wf heq (by simp +contextual (maxDischargeDepth := 40) [*])) | (with_reducible have hk := placePush_wf heq (by simp +contextual (maxDischargeDepth := 40) [*])) | (with_reducible have hk := writeImages_wf heq (by simp +contextual (maxDischargeDepth := 40) [*])) | (with_reducible have hk := restoreOne_wf heq (by simp +contextual (maxDischargeDepth := 40) [*])) | (with_reducible have hk := restoreAll_wf heq (by simp +contextual (maxDischargeDepth := 40) [*])) | (with_reducible have hk := restoreHeld_wf heq (by simp +contextual (maxDischargeDepth := 40) [*])) | (with_reducible have hk := docPut_wf heq (by simp +contextual (maxDischargeDepth := 40) [*])) | (with_reducible have hk := ringPut_wf heq (by simp +contextual (maxDischargeDepth := 40) [*])) | (with_reducible have hk := exec_wf heq (by simp +contextual (maxDischargeDepth := 40) [*])) | (with_reducible have hk := runPair_wf heq (by simp +contextual (maxDischargeDepth := 40) [*])) | (with_reducible have hk := runSlot_wf heq (by simp +contextual (maxDischargeDepth := 40) [*])) | (with_reducible have hk := fetchAndRun_wf heq (by simp +contextual (maxDischargeDepth := 40) [*])) | (with_reducible have hk := issueGroup_wf heq (by simp +contextual (maxDischargeDepth := 40) [*])) | (with_reducible have hk := docentTake_wf heq (by simp +contextual (maxDischargeDepth := 40) [*])) | (with_reducible have hk := fabricTake_wf heq (by simp +contextual (maxDischargeDepth := 40) [*])) | (simp only [Prod.ext_iff] at heq; first | obtain ⟨_, _, rfl⟩ := heq | obtain ⟨_, rfl⟩ := heq | obtain ⟨rfl, _⟩ := heq)))
    | (with_reducible exact globalPut_wf hr (by simp +contextual (maxDischargeDepth := 40) [*]))
    | (with_reducible exact regWrite_wf hr (by simp +contextual (maxDischargeDepth := 40) [*]))
    | (with_reducible exact devStore32_wf hr (by simp +contextual (maxDischargeDepth := 40) [*]))
    | (with_reducible exact devStore_wf hr (by simp +contextual (maxDischargeDepth := 40) [*]))
    | (with_reducible exact refuseShare_wf hr (by simp +contextual (maxDischargeDepth := 40) [*]))
    | (with_reducible exact placeMsg_wf hr (by simp +contextual (maxDischargeDepth := 40) [*]))
    | (with_reducible exact placePush_wf hr (by simp +contextual (maxDischargeDepth := 40) [*]))
    | (with_reducible exact writeImages_wf hr (by simp +contextual (maxDischargeDepth := 40) [*]))
    | (with_reducible exact restoreOne_wf hr (by simp +contextual (maxDischargeDepth := 40) [*]))
    | (with_reducible exact restoreAll_wf hr (by simp +contextual (maxDischargeDepth := 40) [*]))
    | (with_reducible exact restoreHeld_wf hr (by simp +contextual (maxDischargeDepth := 40) [*]))
    | (with_reducible exact docPut_wf hr (by simp +contextual (maxDischargeDepth := 40) [*]))
    | (with_reducible exact ringPut_wf hr (by simp +contextual (maxDischargeDepth := 40) [*]))
    | (with_reducible exact exec_wf hr (by simp +contextual (maxDischargeDepth := 40) [*]))
    | (with_reducible exact runPair_wf hr (by simp +contextual (maxDischargeDepth := 40) [*]))
    | (with_reducible exact runSlot_wf hr (by simp +contextual (maxDischargeDepth := 40) [*]))
    | (with_reducible exact fetchAndRun_wf hr (by simp +contextual (maxDischargeDepth := 40) [*]))
    | (with_reducible exact issueGroup_wf hr (by simp +contextual (maxDischargeDepth := 40) [*]))
    | (with_reducible exact docentTake_wf hr (by simp +contextual (maxDischargeDepth := 40) [*]))
    | (with_reducible exact fabricTake_wf hr (by simp +contextual (maxDischargeDepth := 40) [*]))
    | dsimp only at hr
    | dsimp only
    | (split <;> try (rename_i heq; first | (with_reducible have hk := globalPut_wf heq (by simp +contextual (maxDischargeDepth := 40) [*])) | (with_reducible have hk := regWrite_wf heq (by simp +contextual (maxDischargeDepth := 40) [*])) | (with_reducible have hk := devStore32_wf heq (by simp +contextual (maxDischargeDepth := 40) [*])) | (with_reducible have hk := devStore_wf heq (by simp +contextual (maxDischargeDepth := 40) [*])) | (with_reducible have hk := refuseShare_wf heq (by simp +contextual (maxDischargeDepth := 40) [*])) | (with_reducible have hk := placeMsg_wf heq (by simp +contextual (maxDischargeDepth := 40) [*])) | (with_reducible have hk := placePush_wf heq (by simp +contextual (maxDischargeDepth := 40) [*])) | (with_reducible have hk := writeImages_wf heq (by simp +contextual (maxDischargeDepth := 40) [*])) | (with_reducible have hk := restoreOne_wf heq (by simp +contextual (maxDischargeDepth := 40) [*])) | (with_reducible have hk := restoreAll_wf heq (by simp +contextual (maxDischargeDepth := 40) [*])) | (with_reducible have hk := restoreHeld_wf heq (by simp +contextual (maxDischargeDepth := 40) [*])) | (with_reducible have hk := docPut_wf heq (by simp +contextual (maxDischargeDepth := 40) [*])) | (with_reducible have hk := ringPut_wf heq (by simp +contextual (maxDischargeDepth := 40) [*])) | (with_reducible have hk := exec_wf heq (by simp +contextual (maxDischargeDepth := 40) [*])) | (with_reducible have hk := runPair_wf heq (by simp +contextual (maxDischargeDepth := 40) [*])) | (with_reducible have hk := runSlot_wf heq (by simp +contextual (maxDischargeDepth := 40) [*])) | (with_reducible have hk := fetchAndRun_wf heq (by simp +contextual (maxDischargeDepth := 40) [*])) | (with_reducible have hk := issueGroup_wf heq (by simp +contextual (maxDischargeDepth := 40) [*])) | (with_reducible have hk := docentTake_wf heq (by simp +contextual (maxDischargeDepth := 40) [*])) | (with_reducible have hk := fabricTake_wf heq (by simp +contextual (maxDischargeDepth := 40) [*])) | (simp only [Prod.ext_iff] at heq; first | obtain ⟨_, _, rfl⟩ := heq | obtain ⟨_, rfl⟩ := heq | obtain ⟨rfl, _⟩ := heq))))

@[simp] theorem asDocent_wf (s : State) (d : Nat) (q : Nat) (n : W32) (hs : s.mem.wf = true) : (asDocent s d q n).mem.wf = true := by simp [asDocent, *]

theorem docentTake_wf {s : State} {d : Nat} {q : Nat} {r' : _} (hr : (docentTake s d q) = .next r') (hs : s.mem.wf = true) : r'.mem.wf = true := by
  unfold docentTake at hr
  repeat' (first
    | with_reducible assumption
    | contradiction
    | (cases hr; done)
    | (injection hr with hr; subst hr)
    | with_reducible refine ite_wf ?_ ?_
    | (simp +contextual (maxDischargeDepth := 40) [*]; done)
    | (split at hr <;> try (rename_i heq; first | (with_reducible have hk := globalPut_wf heq (by simp +contextual (maxDischargeDepth := 40) [*])) | (with_reducible have hk := regWrite_wf heq (by simp +contextual (maxDischargeDepth := 40) [*])) | (with_reducible have hk := devStore32_wf heq (by simp +contextual (maxDischargeDepth := 40) [*])) | (with_reducible have hk := devStore_wf heq (by simp +contextual (maxDischargeDepth := 40) [*])) | (with_reducible have hk := refuseShare_wf heq (by simp +contextual (maxDischargeDepth := 40) [*])) | (with_reducible have hk := placeMsg_wf heq (by simp +contextual (maxDischargeDepth := 40) [*])) | (with_reducible have hk := placePush_wf heq (by simp +contextual (maxDischargeDepth := 40) [*])) | (with_reducible have hk := writeImages_wf heq (by simp +contextual (maxDischargeDepth := 40) [*])) | (with_reducible have hk := restoreOne_wf heq (by simp +contextual (maxDischargeDepth := 40) [*])) | (with_reducible have hk := restoreAll_wf heq (by simp +contextual (maxDischargeDepth := 40) [*])) | (with_reducible have hk := restoreHeld_wf heq (by simp +contextual (maxDischargeDepth := 40) [*])) | (with_reducible have hk := docPut_wf heq (by simp +contextual (maxDischargeDepth := 40) [*])) | (with_reducible have hk := ringPut_wf heq (by simp +contextual (maxDischargeDepth := 40) [*])) | (with_reducible have hk := exec_wf heq (by simp +contextual (maxDischargeDepth := 40) [*])) | (with_reducible have hk := runPair_wf heq (by simp +contextual (maxDischargeDepth := 40) [*])) | (with_reducible have hk := runSlot_wf heq (by simp +contextual (maxDischargeDepth := 40) [*])) | (with_reducible have hk := fetchAndRun_wf heq (by simp +contextual (maxDischargeDepth := 40) [*])) | (with_reducible have hk := issueGroup_wf heq (by simp +contextual (maxDischargeDepth := 40) [*])) | (with_reducible have hk := docentTake_wf heq (by simp +contextual (maxDischargeDepth := 40) [*])) | (with_reducible have hk := fabricTake_wf heq (by simp +contextual (maxDischargeDepth := 40) [*])) | (simp only [Prod.ext_iff] at heq; first | obtain ⟨_, _, rfl⟩ := heq | obtain ⟨_, rfl⟩ := heq | obtain ⟨rfl, _⟩ := heq)))
    | (with_reducible exact globalPut_wf hr (by simp +contextual (maxDischargeDepth := 40) [*]))
    | (with_reducible exact regWrite_wf hr (by simp +contextual (maxDischargeDepth := 40) [*]))
    | (with_reducible exact devStore32_wf hr (by simp +contextual (maxDischargeDepth := 40) [*]))
    | (with_reducible exact devStore_wf hr (by simp +contextual (maxDischargeDepth := 40) [*]))
    | (with_reducible exact refuseShare_wf hr (by simp +contextual (maxDischargeDepth := 40) [*]))
    | (with_reducible exact placeMsg_wf hr (by simp +contextual (maxDischargeDepth := 40) [*]))
    | (with_reducible exact placePush_wf hr (by simp +contextual (maxDischargeDepth := 40) [*]))
    | (with_reducible exact writeImages_wf hr (by simp +contextual (maxDischargeDepth := 40) [*]))
    | (with_reducible exact restoreOne_wf hr (by simp +contextual (maxDischargeDepth := 40) [*]))
    | (with_reducible exact restoreAll_wf hr (by simp +contextual (maxDischargeDepth := 40) [*]))
    | (with_reducible exact restoreHeld_wf hr (by simp +contextual (maxDischargeDepth := 40) [*]))
    | (with_reducible exact docPut_wf hr (by simp +contextual (maxDischargeDepth := 40) [*]))
    | (with_reducible exact ringPut_wf hr (by simp +contextual (maxDischargeDepth := 40) [*]))
    | (with_reducible exact exec_wf hr (by simp +contextual (maxDischargeDepth := 40) [*]))
    | (with_reducible exact runPair_wf hr (by simp +contextual (maxDischargeDepth := 40) [*]))
    | (with_reducible exact runSlot_wf hr (by simp +contextual (maxDischargeDepth := 40) [*]))
    | (with_reducible exact fetchAndRun_wf hr (by simp +contextual (maxDischargeDepth := 40) [*]))
    | (with_reducible exact issueGroup_wf hr (by simp +contextual (maxDischargeDepth := 40) [*]))
    | (with_reducible exact docentTake_wf hr (by simp +contextual (maxDischargeDepth := 40) [*]))
    | (with_reducible exact fabricTake_wf hr (by simp +contextual (maxDischargeDepth := 40) [*]))
    | dsimp only at hr
    | dsimp only
    | (split <;> try (rename_i heq; first | (with_reducible have hk := globalPut_wf heq (by simp +contextual (maxDischargeDepth := 40) [*])) | (with_reducible have hk := regWrite_wf heq (by simp +contextual (maxDischargeDepth := 40) [*])) | (with_reducible have hk := devStore32_wf heq (by simp +contextual (maxDischargeDepth := 40) [*])) | (with_reducible have hk := devStore_wf heq (by simp +contextual (maxDischargeDepth := 40) [*])) | (with_reducible have hk := refuseShare_wf heq (by simp +contextual (maxDischargeDepth := 40) [*])) | (with_reducible have hk := placeMsg_wf heq (by simp +contextual (maxDischargeDepth := 40) [*])) | (with_reducible have hk := placePush_wf heq (by simp +contextual (maxDischargeDepth := 40) [*])) | (with_reducible have hk := writeImages_wf heq (by simp +contextual (maxDischargeDepth := 40) [*])) | (with_reducible have hk := restoreOne_wf heq (by simp +contextual (maxDischargeDepth := 40) [*])) | (with_reducible have hk := restoreAll_wf heq (by simp +contextual (maxDischargeDepth := 40) [*])) | (with_reducible have hk := restoreHeld_wf heq (by simp +contextual (maxDischargeDepth := 40) [*])) | (with_reducible have hk := docPut_wf heq (by simp +contextual (maxDischargeDepth := 40) [*])) | (with_reducible have hk := ringPut_wf heq (by simp +contextual (maxDischargeDepth := 40) [*])) | (with_reducible have hk := exec_wf heq (by simp +contextual (maxDischargeDepth := 40) [*])) | (with_reducible have hk := runPair_wf heq (by simp +contextual (maxDischargeDepth := 40) [*])) | (with_reducible have hk := runSlot_wf heq (by simp +contextual (maxDischargeDepth := 40) [*])) | (with_reducible have hk := fetchAndRun_wf heq (by simp +contextual (maxDischargeDepth := 40) [*])) | (with_reducible have hk := issueGroup_wf heq (by simp +contextual (maxDischargeDepth := 40) [*])) | (with_reducible have hk := docentTake_wf heq (by simp +contextual (maxDischargeDepth := 40) [*])) | (with_reducible have hk := fabricTake_wf heq (by simp +contextual (maxDischargeDepth := 40) [*])) | (simp only [Prod.ext_iff] at heq; first | obtain ⟨_, _, rfl⟩ := heq | obtain ⟨_, rfl⟩ := heq | obtain ⟨rfl, _⟩ := heq))))

theorem fabricTake_wf {s : State} {q : Nat} {r' : _} (hr : (fabricTake s q) = .next r') (hs : s.mem.wf = true) : r'.mem.wf = true := by
  unfold fabricTake at hr
  repeat' (first
    | with_reducible assumption
    | contradiction
    | (cases hr; done)
    | (injection hr with hr; subst hr)
    | with_reducible refine ite_wf ?_ ?_
    | (simp +contextual (maxDischargeDepth := 40) [*]; done)
    | (split at hr <;> try (rename_i heq; first | (with_reducible have hk := globalPut_wf heq (by simp +contextual (maxDischargeDepth := 40) [*])) | (with_reducible have hk := regWrite_wf heq (by simp +contextual (maxDischargeDepth := 40) [*])) | (with_reducible have hk := devStore32_wf heq (by simp +contextual (maxDischargeDepth := 40) [*])) | (with_reducible have hk := devStore_wf heq (by simp +contextual (maxDischargeDepth := 40) [*])) | (with_reducible have hk := refuseShare_wf heq (by simp +contextual (maxDischargeDepth := 40) [*])) | (with_reducible have hk := placeMsg_wf heq (by simp +contextual (maxDischargeDepth := 40) [*])) | (with_reducible have hk := placePush_wf heq (by simp +contextual (maxDischargeDepth := 40) [*])) | (with_reducible have hk := writeImages_wf heq (by simp +contextual (maxDischargeDepth := 40) [*])) | (with_reducible have hk := restoreOne_wf heq (by simp +contextual (maxDischargeDepth := 40) [*])) | (with_reducible have hk := restoreAll_wf heq (by simp +contextual (maxDischargeDepth := 40) [*])) | (with_reducible have hk := restoreHeld_wf heq (by simp +contextual (maxDischargeDepth := 40) [*])) | (with_reducible have hk := docPut_wf heq (by simp +contextual (maxDischargeDepth := 40) [*])) | (with_reducible have hk := ringPut_wf heq (by simp +contextual (maxDischargeDepth := 40) [*])) | (with_reducible have hk := exec_wf heq (by simp +contextual (maxDischargeDepth := 40) [*])) | (with_reducible have hk := runPair_wf heq (by simp +contextual (maxDischargeDepth := 40) [*])) | (with_reducible have hk := runSlot_wf heq (by simp +contextual (maxDischargeDepth := 40) [*])) | (with_reducible have hk := fetchAndRun_wf heq (by simp +contextual (maxDischargeDepth := 40) [*])) | (with_reducible have hk := issueGroup_wf heq (by simp +contextual (maxDischargeDepth := 40) [*])) | (with_reducible have hk := docentTake_wf heq (by simp +contextual (maxDischargeDepth := 40) [*])) | (with_reducible have hk := fabricTake_wf heq (by simp +contextual (maxDischargeDepth := 40) [*])) | (simp only [Prod.ext_iff] at heq; first | obtain ⟨_, _, rfl⟩ := heq | obtain ⟨_, rfl⟩ := heq | obtain ⟨rfl, _⟩ := heq)))
    | (with_reducible exact globalPut_wf hr (by simp +contextual (maxDischargeDepth := 40) [*]))
    | (with_reducible exact regWrite_wf hr (by simp +contextual (maxDischargeDepth := 40) [*]))
    | (with_reducible exact devStore32_wf hr (by simp +contextual (maxDischargeDepth := 40) [*]))
    | (with_reducible exact devStore_wf hr (by simp +contextual (maxDischargeDepth := 40) [*]))
    | (with_reducible exact refuseShare_wf hr (by simp +contextual (maxDischargeDepth := 40) [*]))
    | (with_reducible exact placeMsg_wf hr (by simp +contextual (maxDischargeDepth := 40) [*]))
    | (with_reducible exact placePush_wf hr (by simp +contextual (maxDischargeDepth := 40) [*]))
    | (with_reducible exact writeImages_wf hr (by simp +contextual (maxDischargeDepth := 40) [*]))
    | (with_reducible exact restoreOne_wf hr (by simp +contextual (maxDischargeDepth := 40) [*]))
    | (with_reducible exact restoreAll_wf hr (by simp +contextual (maxDischargeDepth := 40) [*]))
    | (with_reducible exact restoreHeld_wf hr (by simp +contextual (maxDischargeDepth := 40) [*]))
    | (with_reducible exact docPut_wf hr (by simp +contextual (maxDischargeDepth := 40) [*]))
    | (with_reducible exact ringPut_wf hr (by simp +contextual (maxDischargeDepth := 40) [*]))
    | (with_reducible exact exec_wf hr (by simp +contextual (maxDischargeDepth := 40) [*]))
    | (with_reducible exact runPair_wf hr (by simp +contextual (maxDischargeDepth := 40) [*]))
    | (with_reducible exact runSlot_wf hr (by simp +contextual (maxDischargeDepth := 40) [*]))
    | (with_reducible exact fetchAndRun_wf hr (by simp +contextual (maxDischargeDepth := 40) [*]))
    | (with_reducible exact issueGroup_wf hr (by simp +contextual (maxDischargeDepth := 40) [*]))
    | (with_reducible exact docentTake_wf hr (by simp +contextual (maxDischargeDepth := 40) [*]))
    | (with_reducible exact fabricTake_wf hr (by simp +contextual (maxDischargeDepth := 40) [*]))
    | dsimp only at hr
    | dsimp only
    | (split <;> try (rename_i heq; first | (with_reducible have hk := globalPut_wf heq (by simp +contextual (maxDischargeDepth := 40) [*])) | (with_reducible have hk := regWrite_wf heq (by simp +contextual (maxDischargeDepth := 40) [*])) | (with_reducible have hk := devStore32_wf heq (by simp +contextual (maxDischargeDepth := 40) [*])) | (with_reducible have hk := devStore_wf heq (by simp +contextual (maxDischargeDepth := 40) [*])) | (with_reducible have hk := refuseShare_wf heq (by simp +contextual (maxDischargeDepth := 40) [*])) | (with_reducible have hk := placeMsg_wf heq (by simp +contextual (maxDischargeDepth := 40) [*])) | (with_reducible have hk := placePush_wf heq (by simp +contextual (maxDischargeDepth := 40) [*])) | (with_reducible have hk := writeImages_wf heq (by simp +contextual (maxDischargeDepth := 40) [*])) | (with_reducible have hk := restoreOne_wf heq (by simp +contextual (maxDischargeDepth := 40) [*])) | (with_reducible have hk := restoreAll_wf heq (by simp +contextual (maxDischargeDepth := 40) [*])) | (with_reducible have hk := restoreHeld_wf heq (by simp +contextual (maxDischargeDepth := 40) [*])) | (with_reducible have hk := docPut_wf heq (by simp +contextual (maxDischargeDepth := 40) [*])) | (with_reducible have hk := ringPut_wf heq (by simp +contextual (maxDischargeDepth := 40) [*])) | (with_reducible have hk := exec_wf heq (by simp +contextual (maxDischargeDepth := 40) [*])) | (with_reducible have hk := runPair_wf heq (by simp +contextual (maxDischargeDepth := 40) [*])) | (with_reducible have hk := runSlot_wf heq (by simp +contextual (maxDischargeDepth := 40) [*])) | (with_reducible have hk := fetchAndRun_wf heq (by simp +contextual (maxDischargeDepth := 40) [*])) | (with_reducible have hk := issueGroup_wf heq (by simp +contextual (maxDischargeDepth := 40) [*])) | (with_reducible have hk := docentTake_wf heq (by simp +contextual (maxDischargeDepth := 40) [*])) | (with_reducible have hk := fabricTake_wf heq (by simp +contextual (maxDischargeDepth := 40) [*])) | (simp only [Prod.ext_iff] at heq; first | obtain ⟨_, _, rfl⟩ := heq | obtain ⟨_, rfl⟩ := heq | obtain ⟨rfl, _⟩ := heq))))

end Sys2Proof.Machine
end

