-- ==== Sys2Proof/Laws/KeepIntegrity.lean ====
section
/-!
SUPPORT. Memory stays in its canonical form under every function of Machine/Integrity.lean: one lemma each.
-/

namespace Sys2Proof.Machine

@[simp] theorem logInteg_wf (s : State) (seg : Nat) (site : Half) (pa : Nat) (hs : s.mem.wf = true) : (logInteg s seg site pa).mem.wf = true := by simp [logInteg, *]

@[simp] theorem flawMem_wf (s : State) (seg : Nat) (line : Nat) (hs : s.mem.wf = true) : (flawMem s seg line).mem.wf = true := by
  unfold flawMem
  repeat' (first | with_reducible refine ite_wf ?_ ?_ | split | (simp +contextual (maxDischargeDepth := 40) [*]; done))

@[simp] theorem flawL1_wf (s : State) (cid : Nat) (key : Nat) (seg : Nat) (hs : s.mem.wf = true) : (flawL1 s cid key seg).mem.wf = true := by
  unfold flawL1
  repeat' (first | with_reducible refine ite_wf ?_ ?_ | split | (simp +contextual (maxDischargeDepth := 40) [*]; done))

@[simp] theorem flawLoad_wf (s : State) (gid : Nat) (ix : Nat) (k : Nat) (seg : Nat) (hs : s.mem.wf = true) : (flawLoad s gid ix k seg).mem.wf = true := by
  first | simp only [flawLoad] | unfold flawLoad
  repeat' (first
    | with_reducible assumption
    | with_reducible refine ite_wf ?_ ?_
    | (simp +contextual (maxDischargeDepth := 40) [*]; done)
    | dsimp only
    | split)

@[simp] theorem flawCopy_wf (s : State) (cid : Nat) (ix : Nat) (key : Nat) (seg : Nat) (hs : s.mem.wf = true) : (flawCopy s cid ix key seg).mem.wf = true := by
  unfold flawCopy
  repeat' (first | with_reducible refine ite_wf ?_ ?_ | split | (simp +contextual (maxDischargeDepth := 40) [*]; done))

@[simp] theorem flaw_wf (s : State) (a1 : Flaw) (hs : s.mem.wf = true) : (flaw s a1).mem.wf = true := by
  unfold flaw
  repeat' (first | with_reducible refine ite_wf ?_ ?_ | split | (simp +contextual (maxDischargeDepth := 40) [*]; done))

end Sys2Proof.Machine
end

