-- ==== Sys2Proof/Laws/KeepPolicy.lean ====
section
/-!
SUPPORT. Memory stays in its canonical form under every function of Machine/Policy.lean: one lemma each.
-/

namespace Sys2Proof.Machine

@[simp] theorem advance_wf (n : Nat) (s : State) (hs : s.mem.wf = true) : (advance n s).mem.wf = true := by simp [advance, *]

theorem runAct_wf {a : Act} {s : State} {r' : _} (hr : (runAct a s) = .next r') (hs : s.mem.wf = true) : r'.mem.wf = true := by
  unfold runAct at hr
  repeat' (first
    | with_reducible assumption
    | contradiction
    | (cases hr; done)
    | (injection hr with hr; subst hr)
    | with_reducible refine ite_wf ?_ ?_
    | (simp +contextual (maxDischargeDepth := 40) [*]; done)
    | (split at hr <;> try (rename_i heq; first | (with_reducible have hk := globalPut_wf heq (by simp +contextual (maxDischargeDepth := 40) [*])) | (with_reducible have hk := regWrite_wf heq (by simp +contextual (maxDischargeDepth := 40) [*])) | (with_reducible have hk := devStore32_wf heq (by simp +contextual (maxDischargeDepth := 40) [*])) | (with_reducible have hk := devStore_wf heq (by simp +contextual (maxDischargeDepth := 40) [*])) | (with_reducible have hk := refuseShare_wf heq (by simp +contextual (maxDischargeDepth := 40) [*])) | (with_reducible have hk := placeMsg_wf heq (by simp +contextual (maxDischargeDepth := 40) [*])) | (with_reducible have hk := placePush_wf heq (by simp +contextual (maxDischargeDepth := 40) [*])) | (with_reducible have hk := writeImages_wf heq (by simp +contextual (maxDischargeDepth := 40) [*])) | (with_reducible have hk := restoreOne_wf heq (by simp +contextual (maxDischargeDepth := 40) [*])) | (with_reducible have hk := restoreAll_wf heq (by simp +contextual (maxDischargeDepth := 40) [*])) | (with_reducible have hk := restoreHeld_wf heq (by simp +contextual (maxDischargeDepth := 40) [*])) | (with_reducible have hk := docPut_wf heq (by simp +contextual (maxDischargeDepth := 40) [*])) | (with_reducible have hk := ringPut_wf heq (by simp +contextual (maxDischargeDepth := 40) [*])) | (with_reducible have hk := exec_wf heq (by simp +contextual (maxDischargeDepth := 40) [*])) | (with_reducible have hk := runAct_wf heq (by simp +contextual (maxDischargeDepth := 40) [*])) | (with_reducible have hk := stepOnce_wf heq (by simp +contextual (maxDischargeDepth := 40) [*])) | (with_reducible have hk := runPair_wf heq (by simp +contextual (maxDischargeDepth := 40) [*])) | (with_reducible have hk := runSlot_wf heq (by simp +contextual (maxDischargeDepth := 40) [*])) | (with_reducible have hk := fetchAndRun_wf heq (by simp +contextual (maxDischargeDepth := 40) [*])) | (with_reducible have hk := issueGroup_wf heq (by simp +contextual (maxDischargeDepth := 40) [*])) | (with_reducible have hk := docentTake_wf heq (by simp +contextual (maxDischargeDepth := 40) [*])) | (with_reducible have hk := fabricTake_wf heq (by simp +contextual (maxDischargeDepth := 40) [*])) | (simp only [Prod.ext_iff] at heq; first | obtain ⟨_, _, rfl⟩ := heq | obtain ⟨_, rfl⟩ := heq | obtain ⟨rfl, _⟩ := heq)))
    | (with_reducible exact globalPut_wf hr (by simp +contextual (maxDischargeDepth := 40) [*]))
    | (with_reducible exact regWrite_wf hr (by simp +contextual (maxDischargeDepth := 40) [*]))
    | (with_reducible exact devStore32_wf hr (by simp +contextual (maxDischargeDepth := 40) [*]))
    | (with_reducible exact devStore_wf hr (by simp +contextual (maxDischargeDepth := 40) [*]))
    | (with_reducible exact refuseShare_wf hr (by simp +contextual (maxDischargeDepth := 40) [*]))
    | (with_reducible exact placeMsg_wf hr (by simp +contextual (maxDischargeDepth := 40) [*]))
    | (with_reducible exact placePush_wf hr (by simp +contextual (maxDischargeDepth := 40) [*]))
    | (with_reducible exact writeImages_wf hr (by simp +contextual (maxDischargeDepth := 40) [*]))
    | (with_reducible exact restoreOne_wf hr (by simp +contextual (maxDischargeDepth := 40) [*]))
    | (with_reducible exact restoreAll_wf hr (by simp +contextual (maxDischargeDepth := 40) [*]))
    | (with_reducible exact restoreHeld_wf hr (by simp +contextual (maxDischargeDepth := 40) [*]))
    | (with_reducible exact docPut_wf hr (by simp +contextual (maxDischargeDepth := 40) [*]))
    | (with_reducible exact ringPut_wf hr (by simp +contextual (maxDischargeDepth := 40) [*]))
    | (with_reducible exact exec_wf hr (by simp +contextual (maxDischargeDepth := 40) [*]))
    | (with_reducible exact runAct_wf hr (by simp +contextual (maxDischargeDepth := 40) [*]))
    | (with_reducible exact stepOnce_wf hr (by simp +contextual (maxDischargeDepth := 40) [*]))
    | (with_reducible exact runPair_wf hr (by simp +contextual (maxDischargeDepth := 40) [*]))
    | (with_reducible exact runSlot_wf hr (by simp +contextual (maxDischargeDepth := 40) [*]))
    | (with_reducible exact fetchAndRun_wf hr (by simp +contextual (maxDischargeDepth := 40) [*]))
    | (with_reducible exact issueGroup_wf hr (by simp +contextual (maxDischargeDepth := 40) [*]))
    | (with_reducible exact docentTake_wf hr (by simp +contextual (maxDischargeDepth := 40) [*]))
    | (with_reducible exact fabricTake_wf hr (by simp +contextual (maxDischargeDepth := 40) [*]))
    | dsimp only at hr
    | dsimp only
    | (split <;> try (rename_i heq; first | (with_reducible have hk := globalPut_wf heq (by simp +contextual (maxDischargeDepth := 40) [*])) | (with_reducible have hk := regWrite_wf heq (by simp +contextual (maxDischargeDepth := 40) [*])) | (with_reducible have hk := devStore32_wf heq (by simp +contextual (maxDischargeDepth := 40) [*])) | (with_reducible have hk := devStore_wf heq (by simp +contextual (maxDischargeDepth := 40) [*])) | (with_reducible have hk := refuseShare_wf heq (by simp +contextual (maxDischargeDepth := 40) [*])) | (with_reducible have hk := placeMsg_wf heq (by simp +contextual (maxDischargeDepth := 40) [*])) | (with_reducible have hk := placePush_wf heq (by simp +contextual (maxDischargeDepth := 40) [*])) | (with_reducible have hk := writeImages_wf heq (by simp +contextual (maxDischargeDepth := 40) [*])) | (with_reducible have hk := restoreOne_wf heq (by simp +contextual (maxDischargeDepth := 40) [*])) | (with_reducible have hk := restoreAll_wf heq (by simp +contextual (maxDischargeDepth := 40) [*])) | (with_reducible have hk := restoreHeld_wf heq (by simp +contextual (maxDischargeDepth := 40) [*])) | (with_reducible have hk := docPut_wf heq (by simp +contextual (maxDischargeDepth := 40) [*])) | (with_reducible have hk := ringPut_wf heq (by simp +contextual (maxDischargeDepth := 40) [*])) | (with_reducible have hk := exec_wf heq (by simp +contextual (maxDischargeDepth := 40) [*])) | (with_reducible have hk := runAct_wf heq (by simp +contextual (maxDischargeDepth := 40) [*])) | (with_reducible have hk := stepOnce_wf heq (by simp +contextual (maxDischargeDepth := 40) [*])) | (with_reducible have hk := runPair_wf heq (by simp +contextual (maxDischargeDepth := 40) [*])) | (with_reducible have hk := runSlot_wf heq (by simp +contextual (maxDischargeDepth := 40) [*])) | (with_reducible have hk := fetchAndRun_wf heq (by simp +contextual (maxDischargeDepth := 40) [*])) | (with_reducible have hk := issueGroup_wf heq (by simp +contextual (maxDischargeDepth := 40) [*])) | (with_reducible have hk := docentTake_wf heq (by simp +contextual (maxDischargeDepth := 40) [*])) | (with_reducible have hk := fabricTake_wf heq (by simp +contextual (maxDischargeDepth := 40) [*])) | (simp only [Prod.ext_iff] at heq; first | obtain ⟨_, _, rfl⟩ := heq | obtain ⟨_, rfl⟩ := heq | obtain ⟨rfl, _⟩ := heq))))

theorem stepOnce_wf {s : State} {r' : _} (hr : (stepOnce s) = .next r') (hs : s.mem.wf = true) : r'.mem.wf = true := by
  unfold stepOnce at hr
  have h1 : (waitTurns (advance 1 s)).mem.wf = true := waitTurns_wf _ (advance_wf _ _ hs)
  dsimp only at hr
  split at hr
  · exact runAct_wf hr h1
  · exact runAct_wf hr h1

@[simp] theorem placeWord_wf (s : State) (w : Nat) (hs : s.mem.wf = true) : (placeWord s w).mem.wf = true := by simp +contextual (maxDischargeDepth := 40) [placeWord, *]

@[simp] theorem placeTables_wf (s : State) (at_ : Nat) (bs : List Byte) (hs : s.mem.wf = true) : (placeTables s at_ bs).mem.wf = true := by simp +contextual (maxDischargeDepth := 40) [placeTables, *]

@[simp] theorem placeRecord_wf (s : State) (w : Nat) (hs : s.mem.wf = true) : (placeRecord s w).mem.wf = true := by simp +contextual (maxDischargeDepth := 40) [placeRecord, *]

@[simp] theorem placeCommand_wf (s : State) (w : Nat) (hs : s.mem.wf = true) : (placeCommand s w).mem.wf = true := by simp [placeCommand, *]

end Sys2Proof.Machine
end

