-- ==== Sys2Proof/Laws/Result.lean ====
section
/-!
SUPPORT. What the shared result operations write, said once in the words of Safety.lean: a varying result, a result at group scope,
and the instruction whose body is one of them.
-/

namespace Sys2Proof.Machine

/-- Registers written as an effect says, and nothing else; no slot passed. -/
structure Wrote (g : Group) (e : RegEffect) (h : Group) : Prop where
  vreg : ∀ l n, l < 32 → h.vreg l n = (e.v l n).getD (g.vreg l n)
  ureg : ∀ n, h.ureg n = (e.u n).getD (g.ureg n)
  abase : ∀ n, h.abase n = ((e.a n).map Prod.fst).getD (g.abase n)
  astride : ∀ n, h.astride n = ((e.a n).map Prod.snd).getD (g.astride n)
  preds : ∀ l k, k < 7 → (h.thread l).preds.getLsbD k = (e.p l k).getD ((g.thread l).preds.getLsbD k)
  qs : ∀ k, k < 4 → h.q.getLsbD k = (e.q k).getD (g.q.getLsbD k)
  flags : ∀ l, (h.thread l).flags = (g.thread l).flags ||| e.fl l
  threads : ∀ l, { (h.thread l) with preds := (g.thread l).preds, flags := (g.thread l).flags } = g.thread l
  rest : { h with v := g.v, u := g.u, ab := g.ab, as := g.as, q := g.q, threads := g.threads } =
    { g with aov := g.aov || e.aov }

theorem Group.bare_eq {g h : Group} (hb : h.bare = g.bare) : h = { g with threads := h.threads } := by
  have := congrArg (fun x : Group => ({ x with threads := h.threads } : Group)) hb
  exact this

/-- Passing the slot after the writes. -/
theorem Wrote.past {g h : Group} {e : RegEffect} (w : Wrote g e h) (m : Mask) :
    RegsAfter m g e (h.modThreads m Thread.past) := by
  have hb := Group.bare_eq (Group.bare_modThreads h m Thread.past)
  have ht := fun l => Group.thread_modThreads h m Thread.past l
  have hl : ∀ l, ((h.modThreads m Thread.past).thread l).preds = (h.thread l).preds
      ∧ ((h.modThreads m Thread.past).thread l).flags = (h.thread l).flags := fun l => by
    rw [ht l]; split <;> exact ⟨rfl, rfl⟩
  have eb : (h.modThreads m Thread.past).bare = h.bare := Group.bare_modThreads h m Thread.past
  have ev : (h.modThreads m Thread.past).v = h.v := by have := congrArg Group.v eb; exact this
  have eu : (h.modThreads m Thread.past).u = h.u := by have := congrArg Group.u eb; exact this
  have ea : (h.modThreads m Thread.past).ab = h.ab := by have := congrArg Group.ab eb; exact this
  have es : (h.modThreads m Thread.past).as = h.as := by have := congrArg Group.as eb; exact this
  have eq : (h.modThreads m Thread.past).q = h.q := by have := congrArg Group.q eb; exact this
  refine ⟨fun l n hl => ?_, fun n => ?_, fun n => ?_, fun n => ?_, fun l k hk => ?_, fun k hk => ?_, fun l => ?_, fun l => ?_, ?_⟩
  · rw [← w.vreg l n hl]; simp only [Group.vreg, ev]
  · rw [← w.ureg n]; simp only [Group.ureg, eu]
  · rw [← w.abase n]; simp only [Group.abase, ea]
  · rw [← w.astride n]; simp only [Group.astride, es]
  · rw [(hl l).1, w.preds l k hk]
  · rw [eq, w.qs k hk]
  · rw [(hl l).2, w.flags l]
  · have wt := w.threads l
    rw [ht l]
    split
    · rw [← wt]; rfl
    · exact wt
  · have := congrArg (fun x : Group => ({ x with v := g.v, u := g.u, ab := g.ab, as := g.as, q := g.q, threads := g.threads } : Group)) eb
    exact this.trans w.rest

/-- A body that writes registers and is done: the instruction completes with that effect. -/
theorem completes_of_done {i : Instr} {s : State} {e : RegEffect} {body : At → State → Out} {h : Group}
    (hx : exec i s = .next (issue i s body)) (hi : Issues i s) (hst : Straight s)
    (hb : body ⟨s.cur.gid, s.cur.mask, contributing i s, s.env s.cur.gid⟩ s = .done (s.setGroup s.cur.gid h))
    (hw : Wrote s.here e h) : Completes i s e := by
  refine ⟨h.modThreads s.cur.mask Thread.past, ?_, hw.past _⟩
  have hs : ∀ l, s.cur.mask.getLsbD l = true → ∀ e ∈ (((s.setGroup s.cur.gid h).group s.cur.gid).thread l).loops.head?,
      e.stop ≠ (((s.setGroup s.cur.gid h).group s.cur.gid).thread l).pc := by
    intro l hl
    rw [State.setGroup_group_same]
    have ht := hw.threads l
    have h1 : (h.thread l).loops = (s.here.thread l).loops := by have := congrArg Thread.loops ht; exact this
    have h2 : (h.thread l).pc = (s.here.thread l).pc := by have := congrArg Thread.pc ht; exact this
    rw [h1, h2]
    exact hst l hl
  rw [hx, issue_eq hi, hb, finish_done _ _ _ hi.1 hs]
  simp

/-! ### One lane -/

theorem Wrote.refl (g : Group) : Wrote g {} g := by
  constructor <;> intros <;> simp

/-- Flags joined to a lane: only that lane's flags change. -/
theorem orFlags_spec (g : Group) (l : Nat) (f : BitVec 5) : (g.orFlags l f).bare = g.bare
    ∧ ∀ l', (g.orFlags l f).thread l' = if l' = l then { (g.thread l) with flags := (g.thread l).flags ||| f } else g.thread l' := by
  unfold Group.orFlags
  split
  · next h =>
    subst h
    refine ⟨rfl, fun l' => ?_⟩
    split
    · next h => subst h; simp
    · rfl
  · exact ⟨rfl, fun l' => Group.thread_modThread g l l' _⟩

/-- What a lane's predicates become. -/
def predsTo (d : Opd) (x : Nat) (t : Thread) : Thread :=
  match d with
  | .p n => if n = 7#3 then t else { t with preds := setBit t.preds n.toNat (x % 2 == 1) }
  | _ => t

theorem extract_ofNat (x : Nat) : (BitVec.ofNat 64 x).extractLsb' 0 32 = BitVec.ofNat 32 x := by
  apply BitVec.eq_of_toNat_eq
  simp [BitVec.extractLsb'_toNat]

/-- A lane's varying registers after its result. -/
theorem wrLane_vreg (w : Bool) (g : Group) {l l' : Nat} (d : Opd) (x n : Nat) (hl : l < 32) (hl' : l' < 32) :
    (wrLane w g l d x).vreg l' n = match d with
      | .v k => if l' = l ∧ n = k.toNat then (BitVec.ofNat 64 x).extractLsb' 0 32
          else if w = true ∧ l' = l ∧ n = k.toNat + 1 then (BitVec.ofNat 64 x).extractLsb' 32 32 else g.vreg l' n
      | _ => g.vreg l' n := by
  cases d with
  | v k =>
    cases w with
    | false =>
      simp only [wrLane, Bool.false_eq_true, if_false, false_and, extract_ofNat]
      rw [Group.vreg_setV _ _ _ _ hl hl']
    | true =>
      simp only [wrLane, if_true, Group.setV2, true_and]
      rw [Group.vreg_setV _ _ _ _ hl hl', Group.vreg_setV _ _ _ _ hl hl']
      by_cases h1 : l' = l ∧ n = k.toNat
      · have h2 : ¬(l' = l ∧ n = k.toNat + 1) := by omega
        rw [if_pos h1, if_neg h2, if_pos h1]
      · rw [if_neg h1, if_neg h1]
  | p k =>
    simp only [wrLane, Group.setP]
    split <;> rfl
  | _ => rfl
/-- A lane's thread after its result. -/
theorem wrLane_thread (w : Bool) (g : Group) (l : Nat) (d : Opd) (x l' : Nat) :
    (wrLane w g l d x).thread l' = if l' = l then predsTo d x (g.thread l) else g.thread l' := by
  cases d with
  | v k =>
    have e : (wrLane w g l (.v k) x).thread l' = g.thread l' := by cases w <;> rfl
    rw [e]
    simp only [predsTo]
    split
    · next h => rw [h]
    · rfl
  | p k =>
    simp only [wrLane, Group.setP, predsTo]
    split
    · split <;> simp_all
    · rw [Group.thread_modThread]
  | _ => simp only [wrLane, predsTo]; split <;> simp_all
/-- Nothing else of the group changes. -/
theorem wrLane_rest (w : Bool) (g : Group) (l : Nat) (d : Opd) (x : Nat) :
    { wrLane w g l d x with v := g.v, threads := g.threads } = g := by
  cases d with
  | v k => cases w <;> rfl
  | p k => simp only [wrLane, Group.setP]; split <;> rfl
  | _ => rfl

/-- One lane's result and flags. -/
def laneDone (w : Bool) (d : Opd) (f : Nat → Val) (h : Group) (l : Nat) : Group := (wrLane w h l d (f l).1).orFlags l (f l).2

theorem laneDone_vreg (w : Bool) (d : Opd) (f : Nat → Val) (g : Group) (l : Nat) {l' : Nat} (n : Nat) (hl : l < 32) (hl' : l' < 32) :
    (laneDone w d f g l).vreg l' n = (wrLane w g l d (f l).1).vreg l' n := by
  have hb := (orFlags_spec (wrLane w g l d (f l).1) l (f l).2).1
  have hv : (laneDone w d f g l).v = (wrLane w g l d (f l).1).v := by have := congrArg Group.v hb; exact this
  simp only [Group.vreg, hv]
theorem laneDone_thread (w : Bool) (d : Opd) (f : Nat → Val) (g : Group) (l l' : Nat) :
    (laneDone w d f g l).thread l' = if l' = l then
      { (predsTo d (f l).1 (g.thread l)) with flags := (g.thread l).flags ||| (f l).2 } else g.thread l' := by
  have ht := (orFlags_spec (wrLane w g l d (f l).1) l (f l).2).2 l'
  have hf : (predsTo d (f l).1 (g.thread l)).flags = (g.thread l).flags := by
    unfold predsTo; split <;> (try split) <;> rfl
  rw [laneDone, ht]
  split
  · rw [wrLane_thread, if_pos rfl, hf]
  · next h => rw [wrLane_thread, if_neg h]
theorem laneDone_rest (w : Bool) (d : Opd) (f : Nat → Val) (g : Group) (l : Nat) :
    { laneDone w d f g l with v := g.v, threads := g.threads } = g := by
  have hb := (orFlags_spec (wrLane w g l d (f l).1) l (f l).2).1
  have := congrArg (fun y : Group => ({ y with v := g.v, threads := g.threads } : Group)) hb
  exact this.trans (wrLane_rest w g l d (f l).1)

/-- Every lane of a list without repetition. -/
theorem fold_laneDone (w : Bool) (d : Opd) (f : Nat → Val) (ls : List Nat) (hn : ls.Nodup) (h32 : ∀ l ∈ ls, l < 32) (g : Group) :
    (∀ l n, l < 32 → (ls.foldl (laneDone w d f) g).vreg l n = if l ∈ ls then (laneDone w d f g l).vreg l n else g.vreg l n)
    ∧ (∀ l, (ls.foldl (laneDone w d f) g).thread l = if l ∈ ls then (laneDone w d f g l).thread l else g.thread l)
    ∧ { ls.foldl (laneDone w d f) g with v := g.v, threads := g.threads } = g := by
  induction ls generalizing g with
  | nil => exact ⟨fun l n _ => by simp, fun l => by simp, rfl⟩
  | cons a t ih =>
    obtain ⟨ha, ht⟩ := List.nodup_cons.mp hn
    have ha32 := h32 a (List.mem_cons_self ..)
    obtain ⟨h1, h2, h3⟩ := ih ht (fun l hl => h32 l (List.mem_cons_of_mem _ hl)) (laneDone w d f g a)
    refine ⟨fun l n hl => ?_, fun l => ?_, ?_⟩
    · rw [List.foldl_cons, h1 l n hl]
      by_cases hla : l = a
      · subst hla
        simp [ha]
      · simp only [List.mem_cons, hla, false_or]
        have e0 : ∀ g' : Group, (laneDone w d f g a).vreg l n = g.vreg l n := fun _ => by
          rw [laneDone_vreg _ _ _ _ _ _ ha32 hl, wrLane_vreg _ _ _ _ _ ha32 hl]
          cases d <;> simp [hla]
        split
        · rw [laneDone_vreg _ _ _ _ _ _ hl hl, laneDone_vreg _ _ _ _ _ _ hl hl, wrLane_vreg _ _ _ _ _ hl hl, wrLane_vreg _ _ _ _ _ hl hl]
          cases d <;> simp [e0 g]
        · exact e0 g
    · rw [List.foldl_cons, h2 l]
      by_cases hla : l = a
      · subst hla
        simp [ha]
      · simp only [List.mem_cons, hla, false_or]
        have e0 : (laneDone w d f g a).thread l = g.thread l := by rw [laneDone_thread, if_neg hla]
        split
        · rw [laneDone_thread w d f (laneDone w d f g a) l l, if_pos rfl, laneDone_thread w d f g l l, if_pos rfl, e0]
        · exact e0
    · have e := congrArg (fun y : Group => ({ y with v := g.v, threads := g.threads } : Group)) h3
      exact e.trans (laneDone_rest w d f g a)

theorem varyRes_eq (w : Bool) (g : Group) (m : Mask) (d : Opd) (f : Nat → Val) :
    varyRes w g m d f = (lanesOf m).foldl (laneDone w d f) g := rfl

/-- A 64-bit value and flags of a result. -/
def valOf (r : Val) : W64 × BitVec 5 := (BitVec.ofNat 64 r.1, r.2)

theorem getLsbD_ofNat_zero (x : Nat) : (BitVec.ofNat 64 x).getLsbD 0 = (x % 2 == 1) := by
  rw [BitVec.getLsbD_ofNat, Nat.testBit_zero]
  by_cases h : x % 2 = 1 <;> simp [h]

/-- A varying result writes what `resultIn` says. -/
theorem varyRes_wrote (w : Bool) (g : Group) (act eff : Mask) (d : Opd) (f : Nat → Val) (hd : (d.isS || d.isQ) = false)
    (u : W64 × BitVec 5) : Wrote g (resultIn w d act eff (fun l => valOf (f l)) u) (varyRes w g eff d f) := by
  obtain ⟨hv, ht, hr⟩ := fold_laneDone w d f (lanesOf eff) (nodup_lanesOf eff) (fun l hl => mem_lanes.mp (List.mem_filter.mp hl).1) g
  rw [varyRes_eq]
  generalize (lanesOf eff).foldl (laneDone w d f) g = h at hv ht hr
  have fields : h.u = g.u ∧ h.ab = g.ab ∧ h.as = g.as ∧ h.q = g.q := by
    refine ⟨?_, ?_, ?_, ?_⟩
    · have := congrArg Group.u hr; exact this
    · have := congrArg Group.ab hr; exact this
    · have := congrArg Group.as hr; exact this
    · have := congrArg Group.q hr; exact this
  obtain ⟨hu, hab, has, hq⟩ := fields
  have rest : { h with v := g.v, u := g.u, ab := g.ab, as := g.as, q := g.q, threads := g.threads } = g := by
    have := congrArg (fun y : Group => ({ y with u := g.u, ab := g.ab, as := g.as, q := g.q } : Group)) hr
    exact this
  have lt : ∀ l, eff.getLsbD l = true → l < 32 := fun l hl => BitVec.lt_of_getLsbD hl
  have hflp : ∀ l, (predsTo d (f l).1 (g.thread l)).flags = (g.thread l).flags := fun l => by
    unfold predsTo; split <;> (try split) <;> rfl
  have thr : ∀ l, (h.thread l).flags = (g.thread l).flags ||| (if eff.getLsbD l then (f l).2 else 0#5) := fun l => by
    rw [ht l]
    simp only [mem_lanesOf]
    split
    · rw [laneDone_thread, if_pos rfl]
    · simp
  have thr2 : ∀ l, { (h.thread l) with preds := (g.thread l).preds, flags := (g.thread l).flags } = g.thread l := fun l => by
    rw [ht l]
    split
    · rw [laneDone_thread, if_pos rfl]
      unfold predsTo
      split <;> (try split) <;> rfl
    · rfl
  have prd : ∀ l k, k < 7 → (h.thread l).preds.getLsbD k = if eff.getLsbD l = true then
      (match d with
        | .p n => (if k = n.toNat then (f l).1 % 2 == 1 else (g.thread l).preds.getLsbD k)
        | _ => (g.thread l).preds.getLsbD k) else (g.thread l).preds.getLsbD k := fun l k hk => by
    rw [ht l]
    simp only [mem_lanesOf]
    split
    · rw [laneDone_thread, if_pos rfl]
      unfold predsTo
      cases d with
      | p n =>
        by_cases hn : n = 7#3
        · have : k ≠ n.toNat := by subst hn; simp; omega
          simp [hn]
          intro h7; omega
        · simp [hn, getLsbD_setBit _ _ _ _ hk]
      | _ => rfl
    · rfl
  have vr : ∀ l n, l < 32 → h.vreg l n = if eff.getLsbD l = true then (wrLane w g l d (f l).1).vreg l n else g.vreg l n := fun l n hl => by
    rw [hv l n hl]
    simp only [mem_lanesOf]
    split
    · rw [laneDone_vreg _ _ _ _ _ _ hl hl]
    · rfl
  cases d with
  | v k =>
    refine ⟨fun l n hl => ?_, fun n => ?_, fun n => ?_, fun n => ?_, fun l j hj => ?_, fun j hj => ?_, fun l => ?_, thr2, ?_⟩
    · rw [vr l n hl, wrLane_vreg _ _ _ _ _ hl hl]
      simp only [resultIn, valOf]
      by_cases he : eff.getLsbD l = true <;> by_cases h1 : n = k.toNat <;> by_cases h2 : n = k.toNat + 1 <;> cases w <;> simp [he, h1, h2]
    · simp only [resultIn, Group.ureg, hu]; rfl
    · simp only [resultIn, Group.abase, hab]; rfl
    · simp only [resultIn, Group.astride, has]; rfl
    · rw [prd l j hj]; simp [resultIn]
    · simp only [resultIn, hq]; rfl
    · rw [thr l]; simp [resultIn, valOf]
    · rw [rest]; simp [resultIn]
  | p k =>
    refine ⟨fun l n hl => ?_, fun n => ?_, fun n => ?_, fun n => ?_, fun l j hj => ?_, fun j hj => ?_, fun l => ?_, thr2, ?_⟩
    · rw [vr l n hl, wrLane_vreg _ _ _ _ _ hl hl]; simp [resultIn]
    · simp only [resultIn, Group.ureg, hu]; rfl
    · simp only [resultIn, Group.abase, hab]; rfl
    · simp only [resultIn, Group.astride, has]; rfl
    · rw [prd l j hj]
      simp only [resultIn, valOf, getLsbD_ofNat_zero]
      by_cases he : eff.getLsbD l = true <;> by_cases h1 : j = k.toNat <;> simp [he, h1]
    · simp only [resultIn, hq]; rfl
    · rw [thr l]; simp [resultIn, valOf]
    · rw [rest]; simp [resultIn]
  | s k => cases hd
  | q k => cases hd
  | _ =>
    refine ⟨fun l n hl => ?_, fun n => ?_, fun n => ?_, fun n => ?_, fun l j hj => ?_, fun j hj => ?_, fun l => ?_, thr2, ?_⟩
    · rw [vr l n hl, wrLane_vreg _ _ _ _ _ hl hl]; simp [resultIn]
    · simp only [resultIn, Group.ureg, hu]; rfl
    · simp only [resultIn, Group.abase, hab]; rfl
    · simp only [resultIn, Group.astride, has]; rfl
    · rw [prd l j hj]; simp [resultIn]
    · simp only [resultIn, hq]; rfl
    · rw [thr l]; simp [resultIn, valOf]
    · rw [rest]; simp [resultIn]

/-- Flags joined to every lane of a set. -/
theorem fold_orFlags (m : Mask) (f : BitVec 5) (g : Group) :
    ((lanesOf m).foldl (fun h l => h.orFlags l f) g).bare = g.bare
    ∧ ∀ l, ((lanesOf m).foldl (fun h l => h.orFlags l f) g).thread l =
      if m.getLsbD l then { (g.thread l) with flags := (g.thread l).flags ||| f } else g.thread l := by
  have key : ∀ (ls : List Nat), ls.Nodup → ∀ g : Group, (ls.foldl (fun h l => h.orFlags l f) g).bare = g.bare
      ∧ ∀ l, (ls.foldl (fun h l => h.orFlags l f) g).thread l =
        if l ∈ ls then { (g.thread l) with flags := (g.thread l).flags ||| f } else g.thread l := by
    intro ls
    induction ls with
    | nil => exact fun _ g => ⟨rfl, fun l => by simp⟩
    | cons a t ih =>
      intro hn g
      obtain ⟨ha, ht⟩ := List.nodup_cons.mp hn
      obtain ⟨h1, h2⟩ := ih ht (g.orFlags a f)
      obtain ⟨b1, b2⟩ := orFlags_spec g a f
      refine ⟨h1.trans b1, fun l => ?_⟩
      rw [List.foldl_cons, h2 l, b2 l]
      by_cases hla : l = a
      · subst hla
        simp [ha]
      · simp [hla]
  obtain ⟨h1, h2⟩ := key _ (nodup_lanesOf m) g
  exact ⟨h1, fun l => by rw [h2 l]; simp only [mem_lanesOf]⟩

/-- A group with its uniform registers, q registers and flags changed. -/
theorem wrote_uni {g h : Group} {act : Mask} {f : BitVec 5} (e : RegEffect) (hv : e.v = fun _ _ => none) (ha : e.a = fun _ => none)
    (hp : e.p = fun _ _ => none) (hf : e.fl = fun l => if act.getLsbD l then f else 0#5) (haov : e.aov = false)
    (hb : { h with u := g.u, q := g.q, threads := g.threads } = g) (hu : ∀ n, h.ureg n = (e.u n).getD (g.ureg n))
    (hq : ∀ k, k < 4 → h.q.getLsbD k = (e.q k).getD (g.q.getLsbD k))
    (ht : ∀ l, h.thread l = if act.getLsbD l then { (g.thread l) with flags := (g.thread l).flags ||| f } else g.thread l) :
    Wrote g e h := by
  have e1 : h.v = g.v := by have := congrArg Group.v hb; exact this
  have e2 : h.ab = g.ab := by have := congrArg Group.ab hb; exact this
  have e3 : h.as = g.as := by have := congrArg Group.as hb; exact this
  refine ⟨fun l n hl => ?_, hu, fun n => ?_, fun n => ?_, fun l j hj => ?_, hq, fun l => ?_, fun l => ?_, ?_⟩
  · simp only [hv, Group.vreg, e1]; rfl
  · simp only [ha, Group.abase, e2]; rfl
  · simp only [ha, Group.astride, e3]; rfl
  · rw [ht l, hp]; split <;> rfl
  · rw [ht l, hf]; split <;> simp_all
  · rw [ht l]; split <;> rfl
  · have := congrArg (fun y : Group => ({ y with v := g.v, ab := g.ab, as := g.as } : Group)) hb
    refine Eq.trans this ?_
    simp [haov]

/-- A result at group scope writes what `resultIn` says. -/
theorem uniRes_wrote (w : Bool) (g : Group) (act eff : Mask) (d : Opd) (r : Val) (hd : (d.isS || d.isQ) = true)
    (v : Nat → W64 × BitVec 5) : Wrote g (resultIn w d act eff v (valOf r)) (uniRes g act d r) := by
  have key : ∀ h : Group, (if r.2 = 0#5 then h else (lanesOf act).foldl (fun h l => h.orFlags l r.2) h).bare = h.bare
      ∧ ∀ l, (if r.2 = 0#5 then h else (lanesOf act).foldl (fun h l => h.orFlags l r.2) h).thread l =
        if act.getLsbD l then { (h.thread l) with flags := (h.thread l).flags ||| r.2 } else h.thread l := fun h => by
    split
    · next h0 =>
      refine ⟨rfl, fun l => ?_⟩
      rw [h0]
      split <;> simp
    · exact fold_orFlags act r.2 h
  unfold uniRes
  obtain ⟨k1, k2⟩ := key (wrUni g d r.1)
  dsimp only
  generalize (if r.2 = 0#5 then wrUni g d r.1 else (lanesOf act).foldl (fun h l => h.orFlags l r.2) (wrUni g d r.1)) = h at k1 k2
  have ku : h.u = (wrUni g d r.1).u := by have := congrArg Group.u k1; exact this
  have kq : h.q = (wrUni g d r.1).q := by have := congrArg Group.q k1; exact this
  have kb : { h with u := g.u, q := g.q, threads := g.threads } = { (wrUni g d r.1) with u := g.u, q := g.q, threads := g.threads } := by
    have := congrArg (fun y : Group => ({ y with u := g.u, q := g.q, threads := g.threads } : Group)) k1
    exact this
  cases d with
  | s k =>
    refine wrote_uni (act := act) (f := r.2) _ rfl rfl rfl rfl rfl (kb.trans rfl) (fun n => ?_) (fun j hj => ?_) (fun l => ?_)
    · have : h.ureg n = (g.setU k.toNat (BitVec.ofNat 64 r.1)).ureg n := by simp only [Group.ureg, ku]; rfl
      rw [this, Group.ureg_setU]
      simp only [resultIn, valOf]
      split <;> rfl
    · rw [kq]; simp only [resultIn]; rfl
    · rw [k2 l]; rfl
  | q k =>
    refine wrote_uni (act := act) (f := r.2) _ rfl rfl rfl rfl rfl (kb.trans rfl) (fun n => ?_) (fun j hj => ?_) (fun l => ?_)
    · have : h.ureg n = g.ureg n := by simp only [Group.ureg, ku]; rfl
      rw [this]; rfl
    · rw [kq]
      simp only [wrUni, Group.setQ, resultIn, valOf, getLsbD_ofNat_zero]
      rw [getLsbD_setBit _ _ _ _ hj]
      split <;> rfl
    · rw [k2 l]; rfl
  | _ => cases hd

/-- A register result writes what `resultIn` says. -/
theorem regRes_spec (w : Bool) (x : At) (s : State) (d : Opd) (f : Bool → Nat → Val) :
    ∃ h, regRes w x s d f = .done (s.setGroup x.gid h)
      ∧ Wrote (s.group x.gid) (resultIn w d x.act x.eff (fun l => valOf (f false l)) (valOf (f true 0))) h := by
  refine ⟨_, rfl, ?_⟩
  dsimp only
  split
  · next hd => exact uniRes_wrote w _ _ _ _ _ hd _
  · next hd => exact varyRes_wrote w _ _ _ _ _ (by simpa using hd) _

/-- An instruction whose body is one register result completes with it. -/
theorem completes_of_regRes {i : Instr} {s : State} {w : Bool} {d : Opd} {f : Bool → Nat → Val} {body : At → State → Out}
    (hx : exec i s = .next (issue i s body)) (hi : Issues i s) (hst : Straight s)
    (hb : body ⟨s.cur.gid, s.cur.mask, contributing i s, s.env s.cur.gid⟩ s
      = regRes w ⟨s.cur.gid, s.cur.mask, contributing i s, s.env s.cur.gid⟩ s d f) :
    Completes i s (resultIn w d s.cur.mask (contributing i s) (fun l => valOf (f false l)) (valOf (f true 0))) := by
  obtain ⟨h, h1, h2⟩ := regRes_spec w ⟨s.cur.gid, s.cur.mask, contributing i s, s.env s.cur.gid⟩ s d f
  exact completes_of_done hx hi hst (hb.trans h1) h2

end Sys2Proof.Machine
end

