-- ==== Sys2Proof/Tests/Slice0.lean ====
section
/-!
SUPPORT. Tests: words and records that decode as the spec writes them, well-formedness, worked examples, and a state for every
statement that meets its hypotheses. Expected results come from the spec's tables and examples, or are worked out by hand.
-/

namespace Sys2Proof.Tests

open Sys2Proof Sys2Proof.Machine

set_option maxRecDepth 100000
set_option exponentiation.threshold 600

/-- Operand fields under the guard that is always true. -/
def tOps (d a b c : Opd) (imm : W32) : Ops := ⟨Guard.always, d, a, b, c, imm⟩

/-- The word of R69 from its fields, [95:86] OP down to [31:0] IMM, decodes to a term. -/
def tReads (op d a b c m imm : Nat) (i : Instr) : Bool :=
  decodeTableWord 96 (((((((op * 16 + 7) * 1024 + d) * 1024 + a) * 1024 + b) * 1024 + c) * 1024 + m) * 2 ^ 32 + imm) == some i

theorem test_decode_integer1 : ([
  tReads 0x000 0x001 0x002 0x003 0x3FF 0x001 0x0 (.iadd (tOps (.v 1) (.v 2) (.v 3) (.none) 0x0#32) false .ss),
  tReads 0x001 0x002 0x004 0x006 0x3FF 0x202 0x0 (.isub (tOps (.v 2) (.v 4) (.v 6) (.none) 0x0#32) true .us),
  tReads 0x002 0x107 0x105 0x3FE 0x3FF 0x000 0x800 (.imul (tOps (.s 7) (.s 5) (.imm) (.none) 0x800#32) false .wrap),
  tReads 0x003 0x001 0x002 0x103 0x3FF 0x001 0x0 (.imulh (tOps (.v 1) (.v 2) (.s 3) (.none) 0x0#32) false true),
  tReads 0x004 0x002 0x004 0x006 0x008 0x200 0x0 (.imad (tOps (.v 2) (.v 4) (.v 6) (.v 8) 0x0#32) true),
  tReads 0x005 0x001 0x002 0x003 0x311 0x01A 0x0 (.iaddc (tOps (.v 1) (.v 2) (.v 3) (.p 1) 0x0#32) false true (some 2#3)),
  tReads 0x006 0x101 0x102 0x3FE 0x3FF 0x001 0x5 (.imin (tOps (.s 1) (.s 2) (.imm) (.none) 0x5#32) false true),
  tReads 0x007 0x001 0x002 0x300 0x3FF 0x000 0x0 (.imax (tOps (.v 1) (.v 2) (.zero) (.none) 0x0#32) false false)].all id) = true := by decide

theorem test_decode_integer2 : ([
  tReads 0x008 0x001 0x002 0x3FF 0x3FF 0x001 0x0 (.iabs (tOps (.v 1) (.v 2) (.none) (.none) 0x0#32) false true),
  tReads 0x009 0x002 0x004 0x3FF 0x3FF 0x200 0x0 (.ineg (tOps (.v 2) (.v 4) (.none) (.none) 0x0#32) true false),
  tReads 0x010 0x001 0x002 0x3FE 0x3FF 0x000 0xFF (.and (tOps (.v 1) (.v 2) (.imm) (.none) 0xFF#32) false),
  tReads 0x011 0x311 0x312 0x313 0x3FF 0x000 0x0 (.or (tOps (.p 1) (.p 2) (.p 3) (.none) 0x0#32) false),
  tReads 0x012 0x318 0x319 0x31A 0x3FF 0x000 0x0 (.xor (tOps (.q 0) (.q 1) (.q 2) (.none) 0x0#32) false),
  tReads 0x013 0x001 0x002 0x3FF 0x3FF 0x000 0x0 (.not (tOps (.v 1) (.v 2) (.none) (.none) 0x0#32) false),
  tReads 0x014 0x002 0x004 0x006 0x3FF 0x200 0x0 (.andn (tOps (.v 2) (.v 4) (.v 6) (.none) 0x0#32) true),
  tReads 0x018 0x101 0x102 0x3FE 0x3FF 0x000 0x7 (.shl (tOps (.s 1) (.s 2) (.imm) (.none) 0x7#32) false)].all id) = true := by decide

theorem test_decode_integer3 : ([
  tReads 0x019 0x001 0x002 0x003 0x3FF 0x000 0x0 (.shr (tOps (.v 1) (.v 2) (.v 3) (.none) 0x0#32) false),
  tReads 0x01A 0x002 0x004 0x006 0x3FF 0x200 0x0 (.sar (tOps (.v 2) (.v 4) (.v 6) (.none) 0x0#32) true),
  tReads 0x01B 0x001 0x002 0x3FE 0x3FF 0x000 0x4 (.rot (tOps (.v 1) (.v 2) (.imm) (.none) 0x4#32) false),
  tReads 0x020 0x001 0x002 0x3FF 0x3FF 0x000 0x0 (.popc (tOps (.v 1) (.v 2) (.none) (.none) 0x0#32) false),
  tReads 0x021 0x101 0x102 0x3FF 0x3FF 0x000 0x0 (.clz (tOps (.s 1) (.s 2) (.none) (.none) 0x0#32) false),
  tReads 0x022 0x002 0x004 0x3FF 0x3FF 0x200 0x0 (.ctz (tOps (.v 2) (.v 4) (.none) (.none) 0x0#32) true),
  tReads 0x023 0x001 0x002 0x3FF 0x3FF 0x000 0x0 (.brev (tOps (.v 1) (.v 2) (.none) (.none) 0x0#32) false),
  tReads 0x024 0x001 0x002 0x3FE 0x3FF 0x001 0x408 (.bfe (tOps (.v 1) (.v 2) (.imm) (.none) 0x408#32) false true)].all id) = true := by decide

theorem test_decode_integer4 : ([
  tReads 0x025 0x001 0x002 0x103 0x004 0x000 0x0 (.bfi (tOps (.v 1) (.v 2) (.s 3) (.v 4) 0x0#32) false),
  tReads 0x026 0x001 0x002 0x003 0x004 0x000 0x0 (.prmt (tOps (.v 1) (.v 2) (.v 3) (.v 4) 0x0#32)),
  tReads 0x030 0x311 0x002 0x003 0x312 0x01A 0x0 (.icmp (tOps (.p 1) (.v 2) (.v 3) (.p 2) 0x0#32) false .lt true .and),
  tReads 0x031 0x001 0x002 0x003 0x311 0x000 0x0 (.isel (tOps (.v 1) (.v 2) (.v 3) (.p 1) 0x0#32) false),
  tReads 0x038 0x002 0x004 0x3FF 0x3FF 0x200 0x0 (.mov (tOps (.v 2) (.v 4) (.none) (.none) 0x0#32) true),
  tReads 0x039 0x002 0x3FF 0x3FF 0x3FF 0x201 0x80000000 (.movi (tOps (.v 2) (.none) (.none) (.none) 0x80000000#32) true true),
  tReads 0x03A 0x103 0x3FF 0x3FF 0x3FF 0x000 0x40 (.movh (tOps (.s 3) (.none) (.none) (.none) 0x40#32)),
  tReads 0x040 0x002 0x104 0x006 0x3FF 0x00B 0x40 (.lea (tOps (.v 2) (.s 4) (.v 6) (.none) 0x40#32) 3#3 .i32)].all id) = true := by decide

theorem test_decode_integer5 : ([
  tReads 0x041 0x00A 0x206 0x3FF 0x3FF 0x200 0x0 (.promv (tOps (.v 10) (.a 6) (.none) (.none) 0x0#32) .w),
  tReads 0x042 0x201 0x102 0x104 0x3FF 0x000 0x0 (.proma (tOps (.a 1) (.s 2) (.s 4) (.none) 0x0#32)),
  tReads 0x043 0x101 0x202 0x3FF 0x3FF 0x000 0x0 (.astr (tOps (.s 1) (.a 2) (.none) (.none) 0x0#32)),
  tReads 0x044 0x201 0x202 0x104 0x3FF 0x000 0x0 (.abase (tOps (.a 1) (.a 2) (.s 4) (.none) 0x0#32))].all id) = true := by decide

theorem test_decode_float1 : ([
  tReads 0x080 0x001 0x002 0x003 0x3FF 0x001 0x0 (.fadd (tOps (.v 1) (.v 2) (.v 3) (.none) 0x0#32) .rz),
  tReads 0x081 0x001 0x002 0x003 0x3FF 0x003 0x0 (.fsub (tOps (.v 1) (.v 2) (.v 3) (.none) 0x0#32) .rd),
  tReads 0x082 0x101 0x102 0x103 0x3FF 0x002 0x0 (.fmul (tOps (.s 1) (.s 2) (.s 3) (.none) 0x0#32) .ru),
  tReads 0x083 0x004 0x005 0x006 0x007 0x018 0x0 (.ffma (tOps (.v 4) (.v 5) (.v 6) (.v 7) 0x0#32) .rne true true),
  tReads 0x084 0x001 0x002 0x003 0x3FF 0x000 0x0 (.fmin (tOps (.v 1) (.v 2) (.v 3) (.none) 0x0#32)),
  tReads 0x085 0x001 0x002 0x003 0x3FF 0x000 0x0 (.fmax (tOps (.v 1) (.v 2) (.v 3) (.none) 0x0#32)),
  tReads 0x086 0x001 0x002 0x003 0x3FF 0x000 0x0 (.fminn (tOps (.v 1) (.v 2) (.v 3) (.none) 0x0#32)),
  tReads 0x087 0x001 0x002 0x003 0x3FF 0x000 0x0 (.fmaxn (tOps (.v 1) (.v 2) (.v 3) (.none) 0x0#32))].all id) = true := by decide

theorem test_decode_float2 : ([
  tReads 0x088 0x318 0x101 0x102 0x319 0x036 0x0 (.fcmp (tOps (.q 0) (.s 1) (.s 2) (.q 1) 0x0#32) .un .xor),
  tReads 0x089 0x001 0x002 0x3FF 0x3FF 0x000 0x0 (.fclass (tOps (.v 1) (.v 2) (.none) (.none) 0x0#32)),
  tReads 0x08A 0x101 0x102 0x3FF 0x3FF 0x001 0x0 (.frnd (tOps (.s 1) (.s 2) (.none) (.none) 0x0#32) .rz),
  tReads 0x08B 0x001 0x002 0x3FF 0x3FF 0x011 0x0 (.fcvt (tOps (.v 1) (.v 2) (.none) (.none) 0x0#32) .rz .fui),
  tReads 0x090 0x001 0x002 0x003 0x104 0x00C 0x0 (.bfcvt (tOps (.v 1) (.v 2) (.v 3) (.s 4) 0x0#32) .sr true),
  tReads 0x091 0x001 0x002 0x3FF 0x3FF 0x001 0x0 (.bfext (tOps (.v 1) (.v 2) (.none) (.none) 0x0#32) true),
  tReads 0x092 0x001 0x002 0x003 0x3FF 0x008 0x0 (.badd2 (tOps (.v 1) (.v 2) (.v 3) (.none) 0x0#32) .rne true),
  tReads 0x093 0x001 0x002 0x003 0x3FF 0x001 0x0 (.bmul2 (tOps (.v 1) (.v 2) (.v 3) (.none) 0x0#32) .rz false)].all id) = true := by decide

theorem test_decode_float3 : ([
  tReads 0x094 0x001 0x002 0x003 0x004 0x000 0x0 (.bfma2 (tOps (.v 1) (.v 2) (.v 3) (.v 4) 0x0#32) .rne false),
  tReads 0x095 0x001 0x002 0x003 0x004 0x000 0x0 (.fdot2 (tOps (.v 1) (.v 2) (.v 3) (.v 4) 0x0#32) .rne),
  tReads 0x0A0 0x001 0x002 0x3FF 0x3FF 0x000 0x0 (.fexp2 (tOps (.v 1) (.v 2) (.none) (.none) 0x0#32)),
  tReads 0x0A1 0x001 0x002 0x3FF 0x3FF 0x000 0x0 (.flog2 (tOps (.v 1) (.v 2) (.none) (.none) 0x0#32)),
  tReads 0x0A2 0x001 0x002 0x3FF 0x3FF 0x000 0x0 (.frcp (tOps (.v 1) (.v 2) (.none) (.none) 0x0#32)),
  tReads 0x0A3 0x001 0x002 0x3FF 0x3FF 0x000 0x0 (.frsq (tOps (.v 1) (.v 2) (.none) (.none) 0x0#32)),
  tReads 0x0A4 0x001 0x002 0x3FF 0x3FF 0x000 0x0 (.fsqrt (tOps (.v 1) (.v 2) (.none) (.none) 0x0#32)),
  tReads 0x0A5 0x001 0x002 0x3FF 0x3FF 0x000 0x0 (.fsin (tOps (.v 1) (.v 2) (.none) (.none) 0x0#32))].all id) = true := by decide

theorem test_decode_float4 : ([
  tReads 0x0A6 0x001 0x002 0x3FF 0x3FF 0x000 0x0 (.fcos (tOps (.v 1) (.v 2) (.none) (.none) 0x0#32)),
  tReads 0x0A7 0x001 0x002 0x3FF 0x3FF 0x000 0x0 (.ftanh (tOps (.v 1) (.v 2) (.none) (.none) 0x0#32)),
  tReads 0x0A8 0x001 0x002 0x003 0x3FF 0x002 0x0 (.fscl (tOps (.v 1) (.v 2) (.v 3) (.none) 0x0#32) .ru),
  tReads 0x0B0 0x004 0x102 0x301 0x106 0x001 0x0 (.rng (tOps (.v 4) (.s 2) (.laneid) (.s 6) 0x0#32) true)].all id) = true := by decide

theorem test_decode_control1 : ([
  tReads 0x100 0x3FF 0x319 0x3FF 0x3FF 0x003 0xC (.bra (tOps (.none) (.q 1) (.none) (.none) 0xC#32) true true),
  tReads 0x101 0x3FF 0x102 0x3FF 0x3FF 0x002 0x0 (.brx (tOps (.none) (.s 2) (.none) (.none) 0x0#32) true),
  tReads 0x102 0x3FF 0x3FF 0x3FF 0x3FF 0x000 0xC (.call (tOps (.none) (.none) (.none) (.none) 0xC#32)),
  tReads 0x103 0x3FF 0x002 0x3FF 0x3FF 0x000 0x0 (.callx (tOps (.none) (.v 2) (.none) (.none) 0x0#32)),
  tReads 0x104 0x3FF 0x3FF 0x3FF 0x3FF 0x000 0x0 (.ret (tOps (.none) (.none) (.none) (.none) 0x0#32)),
  tReads 0x105 0x3FF 0x3FE 0x3FF 0x3FF 0x001 0x2 (.loop (tOps (.none) (.imm) (.none) (.none) 0x2#32) 1#10),
  tReads 0x108 0x3FF 0x3FF 0x3FF 0x3FF 0x000 0x0 (.conv (tOps (.none) (.none) (.none) (.none) 0x0#32)),
  tReads 0x109 0x3FF 0x3FF 0x3FF 0x3FF 0x000 0x0 (.exit (tOps (.none) (.none) (.none) (.none) 0x0#32))].all id) = true := by decide

theorem test_decode_control2 : ([
  tReads 0x10A 0x3FF 0x3FF 0x3FF 0x3FF 0x000 0x3FFFC0 (.wait (tOps (.none) (.none) (.none) (.none) 0x3FFFC0#32)),
  tReads 0x10B 0x3FF 0x3FF 0x3FF 0x3FF 0x000 0x0 (.yield (tOps (.none) (.none) (.none) (.none) 0x0#32)),
  tReads 0x10C 0x3FF 0x3FF 0x3FF 0x3FF 0x000 0x0 (.nop (tOps (.none) (.none) (.none) (.none) 0x0#32)),
  tReads 0x110 0x3FF 0x3FF 0x3FF 0x3FF 0x000 0x5 (.trap (tOps (.none) (.none) (.none) (.none) 0x5#32)),
  tReads 0x110 0x3FF 0x3FE 0x3FF 0x3FF 0x001 0x12345678 (.trapEnd (tOps (.none) (.imm) (.none) (.none) 0x12345678#32)),
  tReads 0x111 0x3FF 0x3FF 0x3FF 0x3FF 0x001 0x0 (.tret (tOps (.none) (.none) (.none) (.none) 0x0#32) true),
  tReads 0x112 0x3FF 0x3FF 0x3FF 0x3FF 0x000 0x7 (.brk (tOps (.none) (.none) (.none) (.none) 0x7#32)),
  tReads 0x120 0x101 0x317 0x3FF 0x3FF 0x004 0x0 (.vote (tOps (.s 1) (.p 7) (.none) (.none) 0x0#32) .cnt)].all id) = true := by decide

theorem test_decode_control3 : ([
  tReads 0x121 0x311 0x3FF 0x3FF 0x3FF 0x000 0x0 (.elect (tOps (.p 1) (.none) (.none) (.none) 0x0#32)),
  tReads 0x122 0x001 0x002 0x003 0x3FF 0x01A 0x0 (.shfl (tOps (.v 1) (.v 2) (.v 3) (.none) 0x0#32) .spin .w8),
  tReads 0x123 0x101 0x002 0x103 0x3FF 0x000 0x0 (.rdlane (tOps (.s 1) (.v 2) (.s 3) (.none) 0x0#32)),
  tReads 0x124 0x001 0x102 0x3FE 0x3FF 0x000 0x9 (.wrlane (tOps (.v 1) (.s 2) (.imm) (.none) 0x9#32)),
  tReads 0x128 0x101 0x002 0x3FF 0x3FF 0x00A 0x0 (.redi (tOps (.s 1) (.v 2) (.none) (.none) 0x0#32) .max true),
  tReads 0x129 0x001 0x002 0x3FF 0x3FF 0x004 0x0 (.redf (tOps (.v 1) (.v 2) (.none) (.none) 0x0#32) .maxn),
  tReads 0x12A 0x102 0x008 0x301 0x3FF 0x000 0x0 (.redmaxi (tOps (.s 2) (.v 8) (.laneid) (.none) 0x0#32) false),
  tReads 0x130 0x001 0x002 0x3FF 0x3FF 0x000 0x0 (.matchLanes (tOps (.v 1) (.v 2) (.none) (.none) 0x0#32))].all id) = true := by decide

theorem test_decode_control4 : ([
  tReads 0x131 0x311 0x002 0x003 0x3FF 0x000 0x0 (.isect (tOps (.p 1) (.v 2) (.v 3) (.none) 0x0#32)),
  tReads 0x132 0x001 0x312 0x3FF 0x3FF 0x001 0x0 (.scnt (tOps (.v 1) (.p 2) (.none) (.none) 0x0#32) true),
  tReads 0x178 0x101 0x3FF 0x3FF 0x3FF 0x000 0x18 (.getsr (tOps (.s 1) (.none) (.none) (.none) 0x18#32)),
  tReads 0x179 0x3FF 0x102 0x3FF 0x3FF 0x001 0x8 (.setsr (tOps (.none) (.s 2) (.none) (.none) 0x8#32) .or),
  tReads 0x17C 0x3FF 0x3FF 0x3FF 0x3FF 0x000 0x2 (.regacq (tOps (.none) (.none) (.none) (.none) 0x2#32)),
  tReads 0x17D 0x3FF 0x3FF 0x3FF 0x3FF 0x000 0x0 (.regrel (tOps (.none) (.none) (.none) (.none) 0x0#32))].all id) = true := by decide

theorem test_decode_memory1 : ([
  tReads 0x180 0x002 0x004 0x3FF 0x3FF 0x069 0x8 (.ld (tOps (.v 2) (.v 4) (.none) (.none) 0x8#32) .normal .clu .acq .b64),
  tReads 0x181 0x001 0x002 0x3FF 0x3FF 0x101 0x0 (.ldConvert (tOps (.v 1) (.v 2) (.none) (.none) 0x0#32) .nt .bf16),
  tReads 0x182 0x3FF 0x10A 0x3FF 0x10B 0x0B1 0x40 (.st (tOps (.none) (.s 10) (.none) (.s 11) 0x40#32) .normal .pkg .rel .b64),
  tReads 0x183 0x3FF 0x102 0x3FF 0x004 0x093 0x0 (.stConvert (tOps (.none) (.s 2) (.none) (.v 4) 0x0#32) .normal true .rz .e4m3),
  tReads 0x188 0x001 0x002 0x3FF 0x004 0x1B7 0x0 (.atom (tOps (.v 1) (.v 2) (.none) (.v 4) 0x0#32) false .sys .ar .xor),
  tReads 0x189 0x3FF 0x002 0x3FF 0x004 0x300 0x0 (.red (tOps (.none) (.v 2) (.none) (.v 4) 0x0#32) true .die .plain .add),
  tReads 0x190 0x001 0x3FF 0x3FF 0x3FF 0x006 0x0 (.fence (tOps (.v 1) (.none) (.none) (.none) 0x0#32) .sys),
  tReads 0x190 0x300 0x3FF 0x3FF 0x3FF 0x00E 0x0 (.fenceG (tOps (.zero) (.none) (.none) (.none) 0x0#32) .sys)].all id) = true := by decide

theorem test_decode_memory2 : ([
  tReads 0x191 0x101 0x3FF 0x3FF 0x3FF 0x01B 0x0 (.fencex (tOps (.s 1) (.none) (.none) (.none) 0x0#32) 3#5 .clu),
  tReads 0x198 0x3FF 0x002 0x3FF 0x3FF 0x001 0x0 (.pref (tOps (.none) (.v 2) (.none) (.none) 0x0#32) true),
  tReads 0x199 0x3FF 0x002 0x3FF 0x3FF 0x000 0x0 (.discard (tOps (.none) (.v 2) (.none) (.none) 0x0#32)),
  tReads 0x19A 0x3FF 0x002 0x3FF 0x3FF 0x001 0x0 (.clean (tOps (.none) (.v 2) (.none) (.none) 0x0#32) true),
  tReads 0x19B 0x3FF 0x102 0x3FF 0x3FF 0x001 0x0 (.inval (tOps (.none) (.s 2) (.none) (.none) 0x0#32) true),
  tReads 0x182 0x3FF 0x109 0x3FF 0x10C 0x002 0x100 (.copy (tOps (.none) (.s 9) (.none) (.s 12) 0x100#32))].all id) = true := by decide

theorem test_decode_matrix1 : ([
  tReads 0x200 0x321 0x020 0x102 0x3FF 0x300 0x11 (.mma (tOps (.acc 1) (.v 32) (.s 2) (.none) 0x11#32) true true),
  tReads 0x201 0x320 0x102 0x103 0x3FF 0x100 0x11 (.mmaS (tOps (.acc 0) (.s 2) (.s 3) (.none) 0x11#32) true),
  tReads 0x202 0x322 0x102 0x104 0x3FF 0x100 0x11 (.mmaP (tOps (.acc 2) (.s 2) (.s 4) (.none) 0x11#32) false true),
  tReads 0x208 0x321 0x3FF 0x3FF 0x3FF 0x002 0x0 (.accz (tOps (.acc 1) (.none) (.none) (.none) 0x0#32) .ml),
  tReads 0x209 0x321 0x102 0x300 0x3FF 0x002 0x0 (.accld (tOps (.acc 1) (.s 2) (.zero) (.none) 0x0#32) .data .fp16),
  tReads 0x20A 0x3FF 0x102 0x3FE 0x321 0x2C2 0x200 (.accst (tOps (.none) (.s 2) (.imm) (.acc 1) 0x200#32) true .rd .data .fp16),
  tReads 0x20B 0x321 0x102 0x3FF 0x3FF 0x001 0x0 (.accscl (tOps (.acc 1) (.s 2) (.none) (.none) 0x0#32) true),
  tReads 0x210 0x323 0x322 0x3FE 0x106 0x040 0x3F000000 (.smx (tOps (.acc 3) (.acc 2) (.imm) (.s 6) 0x3F000000#32) 64#8)].all id) = true := by decide

theorem test_decode_matrix2 : ([
  tReads 0x211 0x321 0x3FF 0x3FF 0x3FF 0x000 0x0 (.smxf (tOps (.acc 1) (.none) (.none) (.none) 0x0#32)),
  tReads 0x218 0x3FF 0x321 0x3FF 0x102 0x001 0x0 (.mred (tOps (.none) (.acc 1) (.none) (.s 2) 0x0#32) true),
  tReads 0x220 0x3FF 0x102 0x300 0x104 0x001 0x0 (.mtrld (tOps (.none) (.s 2) (.zero) (.s 4) 0x0#32) true)].all id) = true := by decide

theorem test_decode_copy1 : ([
  tReads 0x240 0x3FF 0x104 0x3FE 0x3FF 0x000 0x3 (.tset (tOps (.none) (.s 4) (.imm) (.none) 0x3#32)),
  tReads 0x248 0x101 0x3FF 0x3FF 0x3FF 0x000 0x0 (.bseal (tOps (.s 1) (.none) (.none) (.none) 0x0#32)),
  tReads 0x249 0x3FF 0x3FF 0x3FF 0x3FF 0x000 0x2 (.bwait (tOps (.none) (.none) (.none) (.none) 0x2#32)),
  tReads 0x250 0x3FF 0x105 0x3FE 0x3FF 0x000 0x1000 (.barinit (tOps (.none) (.s 5) (.imm) (.none) 0x1000#32)),
  tReads 0x251 0x3FF 0x105 0x106 0x3FF 0x000 0x0 (.barexp (tOps (.none) (.s 5) (.s 6) (.none) 0x0#32)),
  tReads 0x252 0x101 0x105 0x106 0x3FF 0x021 0x0 (.barwait (tOps (.s 1) (.s 5) (.s 6) (.none) 0x0#32) 4#5 true),
  tReads 0x253 0x101 0x102 0x3FF 0x3FF 0x000 0x0 (.barpoll (tOps (.s 1) (.s 2) (.none) (.none) 0x0#32))].all id) = true := by decide

theorem test_decode_cluster1 : ([
  tReads 0x280 0x3FF 0x109 0x3FF 0x3FF 0x010 0x0 (.clbar (tOps (.none) (.s 9) (.none) (.none) 0x0#32) 2#5),
  tReads 0x281 0x105 0x3FF 0x3FF 0x3FF 0x018 0x1 (.clarr (tOps (.s 5) (.none) (.none) (.none) 0x1#32) 3#5),
  tReads 0x288 0x004 0x102 0x3FF 0x3FF 0x002 0x0 (.rld (tOps (.v 4) (.s 2) (.none) (.none) 0x0#32) .x4),
  tReads 0x290 0x3FF 0x101 0x102 0x104 0x001 0x0 (.msend (tOps (.none) (.s 1) (.s 2) (.s 4) 0x0#32) true),
  tReads 0x291 0x101 0x102 0x104 0x106 0x000 0x0 (.mrecv (tOps (.s 1) (.s 2) (.s 4) (.s 6) 0x0#32)),
  tReads 0x292 0x101 0x3FF 0x3FF 0x3FF 0x001 0x0 (.mprobe (tOps (.s 1) (.none) (.none) (.none) 0x0#32) true),
  tReads 0x293 0x300 0x102 0x3FF 0x3FF 0x000 0x0 (.mcancel (tOps (.zero) (.s 2) (.none) (.none) 0x0#32))].all id) = true := by decide

theorem test_decode_system1 : ([
  tReads 0x2C0 0x108 0x3FF 0x3FF 0x3FF 0x000 0x0 (.hpop (tOps (.s 8) (.none) (.none) (.none) 0x0#32)),
  tReads 0x2C0 0x3FF 0x3FF 0x3FF 0x3FF 0x001 0x0 (.hpopJ (tOps (.none) (.none) (.none) (.none) 0x0#32)),
  tReads 0x2C1 0x3FF 0x104 0x108 0x3FF 0x000 0x0 (.hpush (tOps (.none) (.s 4) (.s 8) (.none) 0x0#32)),
  tReads 0x2C2 0x102 0x3FF 0x3FF 0x3FF 0x000 0x0 (.hstat (tOps (.s 2) (.none) (.none) (.none) 0x0#32)),
  tReads 0x2C8 0x3FF 0x106 0x3FE 0x3FF 0x002 0x1 (.evsig (tOps (.none) (.s 6) (.imm) (.none) 0x1#32) .set),
  tReads 0x2C9 0x102 0x106 0x3FF 0x3FF 0x000 0x0 (.evwait (tOps (.s 2) (.s 6) (.none) (.none) 0x0#32)),
  tReads 0x2CA 0x3FF 0x3FF 0x3FF 0x3FF 0x000 0x0 (.jdone (tOps (.none) (.none) (.none) (.none) 0x0#32)),
  tReads 0x2D0 0x102 0x105 0x3FF 0x3FF 0x000 0x0 (.publish (tOps (.s 2) (.s 5) (.none) (.none) 0x0#32))].all id) = true := by decide

theorem test_decode_system2 : ([
  tReads 0x2D1 0x103 0x3FF 0x3FF 0x3FF 0x000 0x0 (.adopt (tOps (.s 3) (.none) (.none) (.none) 0x0#32)),
  tReads 0x2D8 0x3FF 0x104 0x3FF 0x106 0x000 0x40 (.tokrec (tOps (.none) (.s 4) (.none) (.s 6) 0x40#32)),
  tReads 0x2F0 0x103 0x3FF 0x3FF 0x3FF 0x000 0x5 (.snap (tOps (.s 3) (.none) (.none) (.none) 0x5#32))].all id) = true := by decide
/-- The 32 bytes of a record from its header and its three words decode to a term (R375). -/
def tRec (h p1 p2 p3 : Nat) (i : Instr) : Bool := decodeTableWord 256 (h + 2 ^ 64 * p1 + 2 ^ 128 * p2 + 2 ^ 192 * p3) == some i

theorem test_decode_records1 : ([
  tRec 0x0000000000050B70 0 0 0 (.nopRecord ⟨5#16, 0x2D#6, true, true⟩),
  tRec 0x0000000300060001 0x4001000040 0x4000250000 0xBE00100040 (.job ⟨6#16, 0#6, false, false⟩ 3#24 0x4001000040#64 0x4000250000#64
    ⟨0x100040#32, false, true, true, true, 3#3, true⟩),
  tRec 0x0000000200060002 0x4001000040 0x4000250000 0x1100100040 (.cjob ⟨6#16, 0#6, false, false⟩ 2#24 0x4001000040#64 0x4000250000#64
    ⟨0x100040#32, true, false, false, false, 1#3, false⟩),
  tRec 0x0000000000070003 0x00300041 0 0 (.waitev ⟨7#16, 0#6, false, false⟩ 0x300041#32),
  tRec 0x0000000200070014 0x00300041 9 0 (.sigev ⟨7#16, 0#6, false, true⟩ .set 0x300041#32 9#32),
  tRec 0x0000000200080005 0x4000260010 100 0x1030802 (.loopRecord ⟨8#16, 0#6, false, false⟩ 2#16 0x4000260010#64 100#32 2#8 8#8 3#8 true),
  tRec 0x0000000000090006 0 0 0 (.loopend ⟨9#16, 0#6, false, false⟩),
  tRec 0x00000000000A0017 0 0 0 (.adoptRecord ⟨10#16, 0#6, false, true⟩)].all id) = true := by decide

theorem test_decode_records2 : ([
  tRec 0x0000000500110008 0x4000200000 0x60000 0 (.lease ⟨0x11#16, 0#6, false, false⟩ true false true 0x4000200000#64 0x60000#64),
  tRec 0x0000000000120009 0x4000200000 0x60000 0 (.unlease ⟨0x12#16, 0#6, false, false⟩ 0x4000200000#64 0x60000#64),
  tRec 0x000000450013000A 0x4000300000 0x4000400000 0x100100040 (.resume ⟨0x13#16, 0#6, false, false⟩ 5#6 true 0x4000300000#64 0x4000400000#64
    0x100040#32 true),
  tRec 0x000123450014000B 0xFF00FF00 0x2A 0x041041041041 (.partw ⟨0x14#16, 0#6, false, false⟩ 0x12345#24 0xFF00FF00#64 0x2A#18 0x41041041041#48),
  tRec 0x000000000015000C 0x4000300010 77 0 (.mark ⟨0x15#16, 0#6, false, false⟩ 0x4000300010#64 77#64),
  tRec 0x000000050016000D 0x123456789A 0 0 (.slice ⟨0x16#16, 0#6, false, false⟩ 5#8 0x123456789A#64),
  tRec 0x000001000017000E 0x4000300008 0x4000300800 0 (.endreq ⟨0x17#16, 0#6, false, false⟩ 256#16 0x4000300008#64 0x4000300800#64),
  tRec 0x000000430018000F 0 0 0 (.haltq ⟨0x18#16, 0#6, false, false⟩ 3#6 true 0#32)].all id) = true := by decide

/-- A broken record: a nonzero zero-field, a reserved code, a value outside its limits. -/
theorem test_records_refused : ([(0x0000000000051000, 0, 0, 0), (0x0000000000050000, 0, 0, 1), (0x0000000000060001, 0x4001000040, 0, 0),
    (0x0000000300070014, 0x00300041, 9, 0), (0x0000000200080005, 0x4000260010, 100, 0x1090802), (0x0000000100080005, 0x4000260010, 100, 0x1030802),
    (0x0000000500110008, 0x4000200040, 0x60000, 0), (0x0000000500110008, 0x4000200000, 0, 0), (0x000000000015000C, 0x4000300008, 77, 0),
    (0x000010010017000E, 0x4000300008, 0x4000300800, 0), (0x000000830018000F, 0, 0, 0), (0x0000000200060002, 0, 0, 0x0800000000)].all
    fun (h, a, b, c) => decodeTableWord 256 (h + 2 ^ 64 * a + 2 ^ 128 * b + 2 ^ 192 * c) == none) = true := by decide

/-- A command from CTRL, SEQ, PEER, EVENT, LADDR, RADDR, LEN, NMEM and AOP (R473). -/
def tCmd (ctrl seq peer event la ra len nmem aop : Nat) (i : Option Instr) : Bool :=
  decodeTableWord 512 (ctrl + 2 ^ 32 * seq + 2 ^ 64 * peer + 2 ^ 96 * event + 2 ^ 128 * la + 2 ^ 192 * ra + 2 ^ 256 * len + 2 ^ 288 * nmem
    + 2 ^ 320 * aop) == i

theorem test_decode_commands : ([
  tCmd 0x801 4 7 0x41 0x4000500000 0x0100000000000080 256 0 0 (some (.read ⟨4#16, true, false, 0x41#32⟩ 7#10 0x4000500000#64 0x100000000000080#64 256#32)),
  tCmd 0x1002 5 7 0 0x4000500000 0x3F00000000000080 128 0 0 (some (.write ⟨5#16, false, true, 0#32⟩ 7#10 0x4000500000#64 0x3F00000000000080#64 128#32)),
  tCmd 0x3 6 8 0 0x4000500000 0x0200000000000008 0 0 0x10 (some (.atomic ⟨6#16, false, false, 0#32⟩ 8#10 0x4000500000#64 0x200000000000008#64 .add true)),
  tCmd 0x0123204 6 0 0 0x4000500000 0x4000600000 512 4 0 none,
  tCmd 0x1230204 6 0 0 0x4000500000 0x4000600000 512 4 0 (some (.allreduce ⟨6#16, false, false, 0#32⟩ .min 0x123#12 0x4000500000#64 0x4000600000#64 512#32 4#32)),
  tCmd 0xABC0005 6 9 0 0x4000500000 0x4000600000 16777216 1024 0 (some (.broadcast ⟨6#16, false, false, 0#32⟩ 0xABC#12 9#10 0x4000500000#64 0x4000600000#64 0x1000000#32 1024#32)),
  tCmd 0x6 6 9 0 0x4000500000 0x4000600000 128 2 0 none,
  tCmd 0x1 6 9 0 0x4000500000 0x4000600000 64 0 0 none,
  tCmd 0x1 6 9 0 0x4000500000 0x4000600000 128 2 0 none,
  tCmd 0x3 6 8 0 0x4000500000 0x0200000000000008 0 0 0x1A none,
  tCmd 0x304 6 0 0 0x4000500000 0x4000600000 512 4 0 none].all id) = true := by decide

/-- Words that the chapters write out in full (R73, R75, R141, R262, R295, R340, R409, R437, R445). -/
def tWord (w : Nat) (i : Instr) : Bool := decodeTableWord 96 w == some i

theorem test_decode_spec_words : ([
  tWord 0x20DC040140601C0100000000 (.ffma (tOps (.v 4) (.v 5) (.v 6) (.v 7) 0#32) .rz false false),
  tWord 0x4A9D0202301FFC0000000000 (.redmaxi (tOps (.s 2) (.v 8) .laneid .none 0#32) false),
  tWord 0x429FFFFFFFFFFC0000100FFF (.wait (tOps .none .none .none .none 0x100FFF#32)),
  tWord 0x601C1080509FFC0200004000 (.ld (tOps (.v 16) (.a 1) (.s 9) .none 0x4000#32) .normal .thr .plain .b128),
  tWord 0x901FFF413FEFFC0000000003 (.tset (tOps .none (.s 4) .imm .none 3#32)),
  tWord 0xA05D05FFFFFFFC1800000000 (.clarr (tOps (.s 5) .none .none .none 0#32) 3#5),
  tWord 0xB01D08FFFFFFFC0000000000 (.hpop (tOps (.s 8) .none .none .none 0#32)),
  tWord 0xB05FFF41108FFC0000000000 (.hpush (tOps .none (.s 4) (.s 8) .none 0#32)),
  tWord 0xB25D0241BFFFFC0000000000 (.evwait (tOps (.s 2) (.s 6) .none .none 0#32)),
  tWord 0xB41D02417FFFFC0000000000 (.publish (tOps (.s 2) (.s 5) .none .none 0#32)),
  tWord 0x805F2142106FFC0000000011 (.mmaS (tOps (.acc 1) (.s 8) (.s 6) .none 0x11#32) false),
  tWord 0xBC1D03FFFFFFFC0000000005 (.snap (tOps (.s 3) .none .none .none 5#32))].all id) = true := by decide

/-- R72, R73, R79: a reserved operand code, a guard code above 3 bits of its kind, a reserved opcode, and a set bit that the instruction does not
read are refused. -/
theorem test_words_refused : ([0x009D074130EFFC0000000000, 0xFFDD07417FEFFC0000000800, 0x009D07417FEFFC8000000800,
    0x009F32417FEFFC0000000800].all fun w => decodeTableWord 96 w == none) = true := by decide

/-! ### Worked examples -/

/-- Group 0 with the threads `m` at supervisor level. -/
def tGroup (m : Mask) : Group :=
  { Group.zero with live := true, fmask := m, xblk := 6, threads := (lanesIn m).map fun l => (l, { Thread.zero with priv := .sup }) }
/-- The machine after reset with that group, issuing for all of them. -/
def tOn (g : Group) : State := { State.reset with groups := [(0, g)], cur := ⟨0, g.fmask, 0, 0, 0#32⟩ }
/-- What one instruction leaves of the group. -/
def tRun (i : Instr) (g : Group) : Group := match exec i (tOn g) with | .next t => t.group 0 | _ => Group.zero
/-- One thread, with values in v1, v2, ... -/
def tOne (xs : List W32) : Group := (xs.foldl (fun (a : Group × Nat) x => (a.1.setV 0 a.2 x, a.2 + 1)) (tGroup 1#32, 1)).1
/-- v0 of lane 0, and its flags. -/
def tV (i : Instr) (xs : List W32) : W32 × BitVec 5 := let g := tRun i (tOne xs); (g.vreg 0 0, (g.thread 0).flags)
/-- `v0, v1, v2, v3` with an immediate. -/
def tVvv (imm : W32) : Ops := tOps (.v 0) (.v 1) (.v 2) (.v 3) imm
/-- `v0, v1`. -/
def tVv : Ops := tOps (.v 0) (.v 1) .none .none 0#32

/-- R106, R108, R109: the examples of bit fields and permutation; R102: a sum that is its own source. -/
theorem test_integer_examples :
    (tV (.bfe (tOps (.v 0) (.v 1) .imm .none 0x408#32) false true) [0xABCD#32]).1 = 0xFFFFFFFB#32
    ∧ (tV (.bfi (tOps (.v 0) (.v 1) .imm (.v 2) 0x408#32) false) [7#32, 0xFFFFFFFF#32]).1 = 0xFFFFF7FF#32
    ∧ (tV (.prmt (tVvv 0#32)) [0x44332211#32, 0x88776655#32, 0x17050421#32]).1 = 0xFF665544#32
    ∧ (tV (.iadd (tOps (.v 0) (.v 1) (.v 1) .none 0#32) false .wrap) [0x80000001#32]).1 = 2#32
    ∧ (tV (.iadd (tOps (.v 0) (.v 1) (.v 1) .none 0#32) false .ss) [0x80000001#32]).1 = 0x80000000#32 := by decide

/-- R103: the 128-bit addition of two pairs. -/
theorem test_iaddc_example :
    let g := (tOne []).setV2 0 0 0xFFFFFFFFFFFFFFFF#64
    let g := ((g.setV2 0 2 5#64).setV2 0 4 1#64).setV2 0 6 7#64
    let g := tRun (.iaddc (tOps (.v 0) (.v 0) (.v 4) .zero 0#32) true false (some 1#3)) g
    let h := tRun (.iaddc (tOps (.v 2) (.v 2) (.v 6) (.p 1) 0#32) true false none) g
    (h.vpair 0 0, h.preg 0 1, h.vpair 0 2) = (0#64, true, 13#64) := by decide

/-- R47: the affine product whose stride does not fit, without and with AFT. -/
theorem test_affine_example :
    let g := ((tOne []).setA 2 0x1000#64 4#32).setU 6 0x20000000#64
    let i : Instr := .imul (tOps (.a 4) (.a 2) (.s 6) .none 0#32) true .wrap
    let h := tRun i g
    let k := tRun i { g with aft := true }
    (h.abase 4, h.astride 4, h.aov) = (0x20000000000#64, 0x80000000#32, true)
    ∧ (k.abase 4, k.astride 4, k.aov, (k.thread 0).tcause) = (0#64, 0#32, false, fwAFOV) := by decide

/-- R126, R127: fused and separate rounding; two BF16 sums. -/
theorem test_float_examples :
    tV (.ffma (tVvv 0#32) .rne false false) [0x3F800800#32, 0x3F800800#32, 0xBF800000#32] = (0x3A000400#32, 0#5)
    ∧ tV (.fmul (tOps (.v 0) (.v 1) (.v 2) .none 0#32) .rne) [0x3F800800#32, 0x3F800800#32] = (0x3F801000#32, flNX)
    ∧ tV (.badd2 (tOps (.v 0) (.v 1) (.v 2) .none 0#32) .rne false) [0x3F804000#32, 0x3B803B80#32] = (0x3F804000#32, flNX)
    ∧ (tV (.badd2 (tOps (.v 0) (.v 1) (.v 2) .none 0#32) .ru false) [0x3F804000#32, 0x3B803B80#32]).1 = 0x3F814001#32
    ∧ (tV (.badd2 (tOps (.v 0) (.v 1) (.v 2) .none 0#32) .rne true) [0x3F804000#32, 0x3B803B80#32]).1 = 0x4000#32 := by decide

/-- R134: the table of conversions. -/
theorem test_fcvt_examples : ([(0xC0200000#32, Cvt.fsi, Rm.rne, 0xFFFFFFFE#32, flNX), (0xC0200000#32, .fsi, .rd, 0xFFFFFFFD#32, flNX),
    (0x4F32D05E#32, .fsi, .rne, 0x7FFFFFFF#32, flIV), (0x7FC00000#32, .fsi, .rne, 0#32, flIV), (0xBF400000#32, .fui, .rz, 0#32, flNX),
    (0xBF800000#32, .fui, .rne, 0#32, flIV), (16777217#32, .sif, .rne, 0x4B800000#32, flNX)].all
    fun (x, k, rm, r, f) => tV (.fcvt tVv rm k) [x] == (r, f)) = true := by decide

/-- R136: the noise of a uniform value; the third row rounds. -/
theorem test_log_examples : tV (.flog2 tVv) [0x3D800000#32] = (0xC0800000#32, 0#5)
    ∧ tV (.flog2 tVv) [0x41C00000#32] = (0x4092B803#32, flNX)
    ∧ tV (.fsub (tOps (.v 0) .zero (.v 1) .none 0#32) .rne) [0#32] = (0#32, 0#5) := by decide

/-- R138, R139: Philox of the zero key and counter; the ends of `.f`. -/
theorem test_rng_example :
    let g := tRun (.rng (tOps (.v 0) .zero .zero .zero 0#32) false) (tOne [])
    let h := tRun (.rng (tOps (.v 0) .zero .zero .zero 0#32) true) (tOne [])
    [g.vreg 0 0, g.vreg 0 1, g.vreg 0 2, g.vreg 0 3] = [0x6627E8D5#32, 0xE169C58D#32, 0xBC57AC4C#32, 0x9B00DBD8#32]
    ∧ h.vreg 0 0 = 0x3ECC4FD2#32 := by decide

/-- R152: the examples of `shfl`, with 10 times its number in each lane's v1. -/
theorem test_shfl_examples :
    let g := (List.range 32).foldl (fun g l => g.setV l 1 (BitVec.ofNat 32 (10 * l))) (tGroup 0xFFFFFFFF#32)
    let run (m : SMode) (b : Opd) : Group := tRun (.shfl (tOps (.v 2) (.v 1) b .none 3#32) m .w8) g
    [5, 0, 1, 2].map (fun l => (run .slide .imm).vreg l 2) = [20#32, 0#32, 10#32, 20#32]
    ∧ [5, 0].map (fun l => (run .spin .imm).vreg l 2) = [0#32, 30#32]
    ∧ [0, 8].map (fun l => (run .rev .zero).vreg l 2) = [70#32, 150#32] := by decide

/-- A mapped core: group 0 at 0x2000 in a line of five transfer targets, issuing for the threads `m`. -/
def tMap (m : Mask) : State :=
  let s := placeWord State.reset 0
  { s with mem := s.mem.pokes 0x2000 (sealLine (List.replicate 60 0#8 ++ bytesOf 4 31)), agenda := [], cur := ⟨0, m, 0, 0, 0#32⟩ }

/-- R145: the nested loops of the table, from slot 3 with counts 3 and 2, and the last step. -/
theorem test_loop_example :
    let step (x : Thread) : Thread :=
      match exec (.nop (tOps .none .none .none .none 0#32)) ((tMap 1#32).modGroup 0 fun g => { g with threads := [(0, x)] }) with
      | .next t => (t.group 0).thread 0
      | _ => .zero
    let x : Thread := { Thread.zero with priv := .sup, pc := 0x2024#64, loops := [⟨0x2024#64, 0x2024#64, 3#32⟩, ⟨0x2018#64, 0x2024#64, 2#32⟩] }
    let show_ (x : Thread) := (x.pc, x.loops.map fun e => e.count)
    show_ (step x) = (0x2024#64, [2#32, 2#32]) ∧ show_ (step (step x)) = (0x2024#64, [1#32, 2#32])
    ∧ show_ (step (step (step x))) = (0x2018#64, [1#32])
    ∧ show_ (step { x with loops := [⟨0x2024#64, 0x2024#64, 1#32⟩, ⟨0x2018#64, 0x2024#64, 1#32⟩] }) = (0x2030#64, []) := by decide

/-- R160, R162: `trap` saves and raises, `tret.next` restores. -/
theorem test_trap_and_return :
    let g := { tGroup 1#32 with threads := [(0, { Thread.zero with pc := 12#64 })] }
    let h := tRun (.trap (tOps .none .none .none .none 5#32)) g
    let k := tRun (.tret (tOps .none .none .none .none 0#32) true) h
    ((h.thread 0).tpc, (h.thread 0).tcause, (h.thread 0).priv, (h.thread 0).ppriv, h.tlanes) = (12#64, 0x01631005#32, .sup, .user, 1#32)
    ∧ ((k.thread 0).pc, (k.thread 0).priv, k.tlanes) = (24#64, .user, 0#32) := by decide

/-- A record of queue 0 of die 0, a plain worker header, and a job of them. -/
def tJobRec : JobRec := ⟨0#64, 0#64, 0#32, 0#32, false, false, 7#16, 0#8, 0, false, 0, 0#16, 0, 0#32, [], none, none⟩
def tHdr : KHdr := ⟨0, 6, 64, 32, 32, 0, 0x1000, false, 0#24, 0#64, false, false⟩
def tJob : Job := ⟨tJobRec, tHdr, 0#64⟩

/-- R322: `coreid` of the core at column 3, row 5 of die 1, member 3 of the 2 × 2 cluster whose origin is column 2, row 4. -/
theorem test_coreid :
    let s : State := { State.reset with
      teams := [(8 * 107, { Team.zero with st := .run, job := some { tJob with r := { tJobRec with member := some (784, 3) } } })]
      clusters := [(784, ⟨[98, 99, 106, 107], 0, 2, 2, true, [], []⟩)] }
    coreWord s 107 (8 * 107) = 0x222236B#64 := by decide

/-- R409: `hstat` with 32 records of its team in the hamper and 68 in the ring. -/
theorem test_hstat_example :
    let s := (tOn (tGroup 1#32)).modCore 0 fun c =>
      { c with task := List.replicate 32 ⟨0, 0, none⟩, hrput := 0x194#32, hrtake := 0x150#32 }
    (match exec (.hstat (tOps (.s 2) .none .none .none 0#32)) s with | .next t => (t.group 0).ureg 2 | _ => 0) = 0x10001120#64 := by decide

/-- R311, R353: CRC-32C; the row with a failed core at physical column 5. -/
theorem test_crc_and_repair : crc32c [0x31, 0x32, 0x33, 0x34, 0x35, 0x36, 0x37, 0x38, 0x39] = 0xE3069283#32
    ∧ (rowMapOf [32] 0 3).map packCols = some 0x76483210#32 ∧ rowInfoOf [32] 0 3 = 0x15#32 := by decide

/-- R367: 224 chunks from BASE are accepted; then one chunk more of the first colour is VITFULL. -/
theorem test_vitrine_example :
    let go (s : State) (i : Instr) : State := match exec i s with | .next t => t | _ => s
    let s := go (go State.reset (.vitbaseWrite 1 0 0x20000000E0#64)) (.vitrinePin 1 0)
    let s := go (go s (.vitbaseWrite 1 1 0x201C000001#64)) (.vitrinePin 1 1)
    ((s.vit 1 0).st, (s.vit 1 1).st, (s.vit 1 1).res) = (1, 0, 1) := by decide

/-- R382: add and arm in either order, on (COUNT 3, TARGET 4). -/
theorem test_catalogue_example :
    let s := State.reset.modDie 2 fun x => { x with cat := [(5, ⟨3#32, 4#32, false⟩)] }
    let go (i : Instr) (s : State) : State := match exec i s with | .next t => t | _ => s
    let add := go (.catalogueStep 2 5 .add 1#32)
    let arm := go (.catalogueStep 2 5 .arm 2#32)
    let show_ (s : State) := ((s.slot 2 5).count, (s.slot 2 5).target, (s.slot 2 5).reached)
    show_ (add s) = (4#32, 4#32, true) ∧ show_ (arm (add s)) = (0#32, 2#32, false) ∧ show_ (add (arm s)) = (1#32, 2#32, false) := by decide

/-- R437: the record of the example, at 0x40 of the team's scratchpad. -/
theorem test_tokrec_example :
    let g := (((tGroup 1#32).setU 4 0xFF00000000000000#64).setU 6 0x4080000000000203#64).setU 7 0x1100000002#64
    let s := { (tOn g) with teams := [(0, { Team.zero with st := .run, job := some tJob })] }
    let s := s.modCore 0 fun c => { c with pword := 0x80804#32 }
    (match exec (.tokrec (tOps .none (.s 4) .none (.s 6) 0x40#32)) s with
      | .next t => (match exec (.storePerform 0 0 ⟨0xFFFFFFFF#32, 0#128, 0#128⟩) t with
        | .next t => (List.range 8).map fun k => natOf (t.spBytes 0 (0x40 + 4 * k) 4)
        | _ => [])
      | _ => []) = [0x203, 0x40800000, 2, 17, 7, 0, 0, 0] := by decide

/-- The line that R78 assembles. -/
def tLine : List Byte := [0x10, 0xBFEFFC00, 0x001C0100, 0x21416000, 0xC00000E1, 0x20E080A0, 0, 0x40402400, 0x01280C00, 0, 0xFFFFFC00, 0x431FFFFF,
  0, 0xFFFFFC00, 0x431FFFFF, 0x00270041].flatMap (bytesOf 4)

/-- R65, R78: the line's parities, marks and slots; and the pair with its two destinations in one bank. -/
theorem test_line_example : tLine.length = 64 ∧ lparBad tLine = false ∧ (List.range 5).all (fun i => !sparBad tLine i) = true
    ∧ lineTgt tLine 0 = true ∧ lineTgt tLine 1 = false ∧ sealLine (tLine.take 60 ++ bytesOf 4 0x41) = tLine
    ∧ decodeSlot false (slotWord tLine 0) = .ok (.full (.iadd (tOps (.v 1) (.v 2) .imm .none 16#32) false .wrap))
    ∧ decodeSlot true (slotWord tLine 1) = .ok (.pair (.fadd (tOps (.v 4) (.v 5) (.v 6) .none 0#32) .rne)
        (.iadd (tOps (.v 9) (.v 10) (.v 11) .none 0#32) false .wrap))
    ∧ decodeSlot false (slotWord tLine 2) = .ok (.full (.imad ⟨⟨true, 2⟩, .v 12, .v 1, .v 4, .v 9, 0#32⟩ false))
    ∧ decodeSlot false (slotWord tLine 3) = .ok (.full (.nop (tOps .none .none .none .none 0#32)))
    ∧ decodeSlot true (slotWord tLine 1 ^^^ 0x20000000#96) = .error ⟨.badpair, 0⟩ := by decide

/-! ### Well-formedness: a term that each check refuses, beside a like term that passes -/

/-- The first is well formed and the second is not. -/
def tWf (good bad : Instr) : Bool := good.wellFormed && !bad.wellFormed
/-- Every instruction of `v1, v2, v3` and its like has the two forms of a check. -/
def tWfs (l : List (Instr × Instr)) : Bool := l.all fun e => tWf e.1 e.2
/-- No operand at all, with an immediate. -/
def tNo (imm : W32) : Ops := tOps .none .none .none .none imm

/-- IMM and absent fields, wide registers, carry-out, guards, the type rule (R46, R49, R70–R74, R95, R103). -/
theorem test_wf_integer : tWfs [
    (.iadd (tOps (.v 1) (.v 2) .imm .none 9) false .wrap, .iadd (tOps (.v 1) (.v 2) (.v 3) .none 9) false .wrap),
    (.iadd (tOps (.v 2) (.v 4) (.v 6) .none 0) true .wrap, .iadd (tOps (.v 2) (.v 5) (.v 6) .none 0) true .wrap),
    (.iadd (tOps (.s 1) (.s 2) .imm .none 9) false .wrap, .iadd (tOps (.v 1) (.s 2) .imm .none 9) false .wrap),
    (.iadd (tOps (.a 1) (.a 2) .imm .none 9) false .wrap, .iadd (tOps (.a 1) (.a 2) .imm .none 9) false .ss),
    (.imul (tOps (.a 1) (.a 2) .imm .none 9) false .wrap, .imul (tOps (.a 1) (.a 2) (.a 3) .none 0) false .wrap),
    (.iadd (tOps (.s 1) (.s 2) .imm .none 9) false .wrap, .iadd ⟨⟨false, 1⟩, .s 1, .s 2, .imm, .none, 9⟩ false .wrap),
    (.iadd ⟨⟨true, 1⟩, .v 1, .s 2, .v 3, .none, 0⟩ false .wrap, .iadd ⟨⟨true, 7⟩, .v 1, .s 2, .v 3, .none, 0⟩ false .wrap),
    (.not (tOps (.v 1) (.v 2) .none .none 0) false, .not (tOps (.v 1) (.v 2) (.v 3) .none 0) false),
    (.and (tOps (.p 1) (.p 2) (.q 3) .none 0) false, .and (tOps (.q 1) (.p 2) (.q 3) .none 0) false),
    (.iaddc (tOps (.s 1) (.s 2) (.s 3) (.q 1) 0) false false (some 3), .iaddc (tOps (.s 1) (.s 2) (.s 3) (.q 1) 0) false false (some 4)),
    (.iaddc (tOps .zero (.v 2) (.v 3) .zero 0) false false none, .iaddc (tOps .zero (.v 2) (.v 3) .none 0) false false none),
    (.icmp (tOps (.p 1) (.v 2) (.v 3) (.q 1) 0) false .lt true .and, .icmp (tOps (.p 1) (.v 2) (.v 3) .none 0) false .lt true .and),
    (.icmp (tOps (.q 1) (.s 2) (.s 3) .none 0) false .lt true .none, .icmp (tOps (.p 1) (.s 2) (.s 3) .none 0) false .lt true .none),
    (.isel (tOps (.v 1) (.v 2) (.v 3) (.p 1) 0) false, .isel (tOps (.v 1) (.v 2) (.v 3) (.v 1) 0) false),
    (.mov (tOps (.v 1) (.v 2) .none .none 0) false, .mov (tOps (.v 1) (.a 2) .none .none 0) false),
    (.movi (tOps (.v 2) .none .none .none 9) true true, .movi (tOps (.v 2) .none .none .none 9) false true),
    (.movh (tOps (.s 2) .none .none .none 9), .movh (tOps (.v 2) .none .none .none 9)),
    (.lea (tOps (.a 3) (.s 2) .laneid .none 64) 2 .full, .lea (tOps (.a 3) (.s 2) .laneid .none 64) 2 .i32),
    (.promv (tOps (.v 3) (.a 2) .none .none 0) .hi, .promv (tOps (.v 3) (.a 2) .none .none 0) .w),
    (.proma (tOps (.a 3) (.s 2) .imm .none 4), .proma (tOps (.a 3) (.s 2) (.a 1) .none 0)),
    (.astr (tOps (.a 3) (.a 2) .imm .none 4), .astr (tOps (.s 3) (.a 2) .imm .none 4))] = true := by decide

/-- Rounding, pairs, counters and conversions (R122, R124, R129, R134, R137). -/
theorem test_wf_float : tWfs [
    (.fadd (tOps (.v 1) (.v 2) .imm .none 9) .rz, .fadd (tOps (.v 1) (.v 2) .imm .none 9) .sr),
    (.fexp2 (tOps (.v 1) (.s 2) .none .none 0), .fexp2 (tOps (.s 1) (.s 2) .none .none 0)),
    (.fcvt (tOps (.v 2) (.v 1) .none .none 0) .rne .fsl, .fcvt (tOps (.v 1) (.v 1) .none .none 0) .rne .fsl),
    (.fcvt (tOps (.v 1) (.v 2) .none .none 0) .rne .slf, .fcvt (tOps (.v 1) (.v 1) .none .none 0) .rne .slf),
    (.bfcvt (tOps (.v 1) (.v 2) (.v 3) (.s 2) 7) .sr true, .bfcvt (tOps (.v 1) (.v 2) (.v 3) (.s 3) 7) .sr true),
    (.bfcvt (tOps (.v 1) (.v 2) (.v 3) .none 0) .rne true, .bfcvt (tOps (.v 1) (.v 2) (.v 3) (.s 2) 0) .rne true),
    (.badd2 (tOps (.v 1) (.v 2) (.v 3) .none 0) .rd true, .badd2 (tOps (.v 1) (.v 2) (.v 3) (.v 4) 0) .rd true),
    (.fdot2 (tOps (.v 1) (.v 2) (.v 3) (.v 4) 0) .rd, .fdot2 (tOps (.v 1) (.v 2) (.v 3) .none 0) .rd),
    (.rng (tOps (.v 4) (.s 2) (.v 2) .laneid 0) true, .rng (tOps (.v 6) (.s 2) (.v 2) .laneid 0) true),
    (.rng (tOps (.v 4) (.s 2) .imm .zero 3) true, .rng (tOps (.v 4) .imm .imm .zero 3) true)] = true := by decide

/-- Control flow, lanes, special registers and blocks (R52, R141–R162). -/
theorem test_wf_control : tWfs [
    (.bra (tOps .none (.q 1) .none .none 24) true false, .bra (tOps .none .none .none .none 24) true false),
    (.brx (tOps .none (.v 2) .none .none 0) true, .brx (tOps .none (.v 3) .none .none 0) true),
    (.ret (tNo 0), .ret (tNo 1)),
    (.loop (tOps .none .imm .none .none 2) 1, .loop ⟨⟨false, 1⟩, .none, .imm, .none, .none, 2⟩ 1),
    (.wait (tNo 0x3FFFFF), .wait (tNo 0x400000)), (.trap (tNo 0xFFF), .trap (tNo 0x1000)),
    (.trapEnd (tOps .none .imm .none .none 5), .trapEnd (tOps .none .zero .none .none 0)),
    (.vote (tOps (.p 1) (.p 2) .none .none 0) .same, .vote (tOps (.v 1) (.p 2) .none .none 0) .same),
    (.elect (tOps (.s 1) .none .none .none 0), .elect (tOps (.v 1) .none .none .none 0)),
    (.shfl (tOps (.v 1) (.v 2) .zero .none 0) .rev .w8, .shfl (tOps (.v 1) (.v 2) .imm .none 0) .rev .w8),
    (.rdlane (tOps (.s 1) (.v 2) .imm .none 3), .rdlane (tOps (.v 1) (.v 2) .imm .none 3)),
    (.wrlane (tOps (.v 1) (.s 2) .imm .none 3), .wrlane (tOps (.v 1) (.v 2) .imm .none 3)),
    (.redi (tOps (.s 1) (.v 2) .none .none 0) .add true, .redi (tOps (.s 1) (.s 2) .none .none 0) .add true),
    (.redmaxi (tOps (.v 2) (.v 2) .laneid .none 0) true, .redmaxi (tOps (.v 3) (.v 2) .laneid .none 0) true),
    (.isect (tOps (.p 2) (.v 2) (.v 3) .none 0), .isect (tOps (.p 2) (.v 2) (.s 3) .none 0)),
    (.scnt (tOps (.v 2) (.p 2) .none .none 0) true, .scnt (tOps (.v 2) (.q 2) .none .none 0) true),
    (.getsr (tOps (.v 2) .none .none .none 3), .getsr (tOps (.v 3) .none .none .none 3)),
    (.getsr (tOps (.s 2) .none .none .none 1), .getsr (tOps (.s 2) .none .none .none 3)),
    (.setsr (tOps .none (.s 2) .none .none 1) .or, .setsr (tOps .none (.s 2) .none .none 6) .or),
    (.setsr (tOps .none (.v 2) .none .none 0) .or, .setsr (tOps .none (.v 2) .none .none 1) .or),
    (.regacq (tNo 6), .regacq (tNo 0)), (.regrel (tNo 6), .regrel (tNo 7))] = true := by decide

/-- Addresses, sizes, formats, orders and fences (R164, R171–R190). -/
theorem test_wf_memory : tWfs [
    (.ld (tOps (.v 1) (.a 6) (.v 3) .none 0xC000010) .normal .thr .plain .b32, .ld (tOps (.v 1) (.a 6) (.s 3) .none 0xC000010) .normal .thr .plain .b32),
    (.ld (tOps (.v 1) (.a 6) (.v 3) .none 0x4000000) .normal .thr .plain .b32, .ld (tOps (.v 1) (.a 6) (.v 3) .none 0x5000000) .normal .thr .plain .b32),
    (.ld (tOps (.v 1) (.v 6) .none .none 4) .normal .thr .plain .b32, .ld (tOps (.v 1) (.v 7) .none .none 4) .normal .thr .plain .b32),
    (.ld (tOps (.v 1) (.v 6) .none .none 4) .normal .thr .plain .b32, .ld (tOps (.v 1) (.v 6) .none .none 0x10000004) .normal .thr .plain .b32),
    (.ld (tOps (.v 2) (.v 6) .none .none 4) .normal .thr .plain .b64, .ld (tOps (.v 3) (.v 6) .none .none 4) .normal .thr .plain .b64),
    (.ld (tOps (.v 4) (.v 6) .none .none 4) .normal .pkg .acq .b128, .ld (tOps (.v 4) (.v 6) .none .none 4) .normal .pkg .rel .b128),
    (.ld (tOps (.s 4) (.s 6) .none .none 4) .normal .thr .plain .b32, .ld (tOps (.s 4) (.s 6) .none .none 4) .normal .pkg .plain .b32),
    (.ld (tOps (.s 4) (.s 6) .none .none 4) .normal .thr .plain .b32, .ld (tOps (.v 4) (.s 6) .none .none 4) .normal .thr .plain .b32),
    (.st (tOps .none (.v 6) .none (.v 2) 4) .nt .thr .plain .b16, .st (tOps .none (.v 6) .none (.v 2) 4) .nt .thr .plain .s16),
    (.st (tOps .none (.s 6) .none (.s 2) 4) .nt .thr .plain .b128, .st (tOps .none (.s 6) .none (.s 2) 4) .normal .thr .plain .b128),
    (.ldConvert (tOps (.v 4) (.s 6) (.s 7) .none 4) .normal .mxe4m3, .ldConvert (tOps (.v 4) (.s 6) .none .none 4) .normal .mxe4m3),
    (.ldConvert (tOps (.v 4) (.s 6) .none .none 4) .normal .e2m1, .ldConvert (tOps (.v 4) (.s 6) .none .none 4) .normal .fp32),
    (.stConvert (tOps .none (.s 6) .none (.v 4) 4) .normal true .rne .int8, .stConvert (tOps .none (.s 6) .none (.v 4) 4) .normal true .sr .int8),
    (.atom (tOps (.v 1) (.v 6) .none (.v 2) 4) false .die .ar .cas, .atom (tOps (.v 1) (.v 6) .none (.v 3) 4) false .die .ar .cas),
    (.atom (tOps (.v 1) (.v 6) .none (.v 2) 4) false .die .ar .fadd, .atom (tOps (.v 2) (.v 6) .none (.v 2) 4) true .die .ar .fadd),
    (.red (tOps .none (.v 6) .none (.v 2) 4) false .die .plain .add, .red (tOps .zero (.v 6) .none (.v 2) 4) false .die .plain .add),
    (.fence (tOps (.v 1) .none .none .none 0) .pkg, .fence (tOps (.s 1) .none .none .none 0) .pkg),
    (.fenceG (tOps (.s 1) .none .none .none 0) .pkg, .fenceG (tOps (.v 1) .none .none .none 0) .pkg),
    (.fencex (tOps (.s 1) .none .none .none 0) 1 .pkg, .fencex (tOps (.s 1) .none .none .none 0) 0 .pkg),
    (.pref (tOps .none (.v 6) .none .none 4) true, .pref (tOps .none (.v 6) .none (.v 2) 4) true),
    (.copy (tOps .none (.s 6) .none (.s 2) 4), .copy (tOps .none (.s 6) .none (.s 3) 4)),
    (.tokrec (tOps .none (.s 6) .none (.s 2) 4), .tokrec (tOps .none (.v 6) .none (.s 2) 4))] = true := by decide

/-- Tiles, formats and scales of the matrix engine (R236, R237). -/
theorem test_wf_matrix : tWfs [
    (.mma (tOps (.acc 1) (.v 192) (.s 2) .none 0x8011) true true, .mma (tOps (.acc 1) (.v 193) (.s 2) .none 0x8011) true true),
    (.mma (tOps (.acc 1) (.v 192) (.s 2) .none 0x8011) true true, .mma (tOps (.acc 1) (.v 224) (.s 2) .none 0x8011) true true),
    (.mma (tOps (.acc 1) (.v 32) (.s 2) .none 0x12) true true, .mma (tOps (.acc 1) (.v 32) (.s 2) .none 0x21) true true),
    (.mmaS (tOps (.acc 1) (.s 3) (.s 2) .none 0x34) true, .mmaS (tOps (.acc 1) (.s 3) (.s 2) .none 0x31) true),
    (.mmaS (tOps (.acc 1) (.s 3) (.s 2) .none 0x10034) true, .mmaS (tOps (.acc 1) (.s 3) (.s 2) .none 0x10134) true),
    (.mmaS (tOps (.acc 1) (.s 3) (.s 2) .none 0x34) true, .mmaS (tOps (.acc 1) (.s 3) (.s 2) .none 0x40034) true),
    (.mmaS (tOps (.acc 1) (.s 3) (.s 2) (.s 4) 0xA3) true, .mmaS (tOps (.acc 1) (.s 3) (.s 2) .none 0xA3) true),
    (.mmaS (tOps (.acc 1) (.s 3) (.s 2) (.s 4) 0xA3) true, .mmaS (tOps (.acc 1) (.s 3) (.s 2) (.s 5) 0xA3) true),
    (.mmaP (tOps (.acc 1) (.s 3) (.s 2) .none 0x34) false true, .mmaP (tOps (.acc 1) (.s 3) (.s 2) .none 0x34) true true),
    (.accz (tOps (.acc 1) .none .none .none 0) .ml, .accz (tOps (.v 1) .none .none .none 0) .ml),
    (.accld (tOps (.acc 1) (.s 1) .zero .none 0) .ml .fp32, .accld (tOps (.acc 1) (.s 1) .zero .none 0) .ml .bf16),
    (.accld (tOps (.acc 1) (.s 1) .zero .none 0) .data .fp16, .accld (tOps (.acc 1) (.s 1) .zero .none 0) .data .e4m3),
    (.accst (tOps .none (.s 1) .zero (.acc 1) 0) true .rz .data .e5m2, .accst (tOps .none (.s 1) .zero (.acc 1) 0) true .rz .data .fp32),
    (.accst (tOps .none (.s 1) .zero (.acc 1) 0) false .rne .fl .fp32, .accst (tOps .none (.s 1) (.s 2) (.acc 1) 0) false .rne .fl .fp32),
    (.accscl (tOps (.acc 1) (.s 1) .none .none 0) true, .accscl (tOps (.acc 1) .imm .none .none 0) true),
    (.smx (tOps (.acc 1) (.acc 2) .imm (.s 1) 3) 0, .smx (tOps (.acc 1) (.acc 1) .imm (.s 1) 3) 0),
    (.mred (tOps .none (.acc 1) .none (.s 1) 0) true, .mred (tOps .none (.acc 1) .none .none 0) true),
    (.mtrld (tOps .none (.s 1) .imm (.s 1) 512) true, .mtrld (tOps .none (.s 1) (.a 1) (.s 1) 0) true)] = true := by decide

/-- The instructions of the copies, the clusters and the hampers (R262, R331–R335, R391, R430, R462). -/
theorem test_wf_system : tWfs [
    (.tset (tOps .none (.s 1) .imm .none 31), .tset (tOps .none (.s 1) .imm .none 32)),
    (.bseal (tOps (.s 1) .none .none .none 0), .bseal (tOps (.v 1) .none .none .none 0)), (.bwait (tNo 7), .bwait (tNo 8)),
    (.barinit (tOps .none (.s 1) .imm .none 7), .barinit (tOps .none .imm .imm .none 7)),
    (.barwait (tOps .zero (.s 1) .imm .none 1) 1 false, .barwait (tOps .zero (.s 1) .imm .none 2) 1 false),
    (.barpoll (tOps (.s 2) (.s 1) .none .none 0), .barpoll (tOps .zero (.s 1) .none .none 0)),
    (.clarr (tOps (.s 2) .none .none .none 3) 1, .clarr (tOps (.s 2) .none .none .none 4) 1),
    (.clbar (tOps .none (.s 2) .none .none 3) 1, .clbar (tOps .none .zero .none .none 3) 1),
    (.rld (tOps (.v 4) (.s 2) .none .none 0) .x4, .rld (tOps (.v 2) (.s 2) .none .none 0) .x4),
    (.msend (tOps .none .imm (.s 1) (.s 2) 3) true, .msend (tOps .none .imm (.s 1) (.s 3) 3) true),
    (.msend (tOps .none .imm (.s 1) (.v 3) 3) false, .msend (tOps .none .imm (.s 1) (.s 2) 3) false),
    (.mrecv (tOps .zero (.s 2) (.s 1) (.s 3) 0), .mrecv (tOps .zero (.s 3) (.s 1) (.s 3) 0)),
    (.mprobe (tOps (.s 2) .none .none .none 0) true, .mprobe (tOps (.s 2) .none (.s 1) .none 0) true),
    (.mcancel (tOps (.s 2) (.s 1) .none .none 0), .mcancel (tOps (.s 2) .imm .none .none 0)),
    (.hpop (tOps (.s 4) .none .none .none 0), .hpop (tOps (.s 6) .none .none .none 0)),
    (.hpopJ (tNo 0), .hpopJ (tNo 1)), (.hpush (tOps .none .imm (.s 4) .none 3), .hpush (tOps .none .imm (.s 5) .none 3)),
    (.hstat (tOps (.s 4) .none .none .none 0), .hstat (tOps .zero .none .none .none 0)),
    (.evsig (tOps .none .imm (.s 4) .none 3) .set, .evsig (tOps .none .imm .imm (.s 4) 3) .set),
    (.evwait (tOps .zero .imm .none .none 3), .evwait (tOps .zero .zero .none .none 0)),
    (.publish (tOps .zero .imm .none .none 3), .publish (tOps .zero (.v 1) .none .none 0)),
    (.adopt (tOps .zero .none .none .none 0), .adopt (tOps .zero .none .none .none 1)),
    (.snap (tOps (.s 1) .none .none .none 255), .snap (tOps (.s 1) .none .none .none 256))] = true := by decide

/-! ### States that meet the hypotheses of the statements -/

/-- What holds of a thread that nothing has touched, and of every thread listed, holds of every thread. -/
theorem tAll {P : Thread → Prop} (g : Group) (h0 : P .zero) (h : ∀ e ∈ g.threads, P e.2) (l : Nat) : P (g.thread l) := by
  show P (Tbl.get Thread.zero l g.threads)
  unfold Tbl.get
  cases e : Tbl.find l g.threads with
  | none => exact h0
  | some x => exact h _ (Tbl.mem_of_find e)

/-- No thread of a group that tests build stands in a loop. -/
theorem tStraight (s : State) (h : (s.here.threads.all fun e => e.2.loops.isEmpty) = true) : Straight s := by
  intro l _ e he
  have := tAll (P := fun x => x.loops = []) s.here rfl (fun e he => by simpa using List.all_eq_true.mp h e he) l
  simp [this] at he

/-- Four threads, v1 = 5 and v2 = 0x80000000 in lane 0, s2 = 7, a2 = (16, 4). -/
def tG : Group := (((((tGroup 0xF#32).setV 0 1 5#32).setV 0 2 0x80000000#32).setU 2 7#64).setA 2 16#64 4#32).setV 0 3 0x7FC00001#32
def tS : State := tOn tG

theorem tS_straight : Straight tS := tStraight tS (by decide)

theorem meets_PlainIntegerResults : ∃ (i : Instr) (o : Ops) (w : Bool) (s : State) (r32 : Nat → W32) (r64 : Nat → W64),
    wordForm i = some (o, w) ∧ o.d.isA = false ∧ o.d.isPq = false
    ∧ (∀ l, plainSpec 32 (rd32 s.here (s.env s.cur.gid) o.imm l o.a) (rd32 s.here (s.env s.cur.gid) o.imm l o.b)
      (rd32 s.here (s.env s.cur.gid) o.imm l o.c) i = some (r32 l))
    ∧ (∀ l, plainSpec 64 (rd64 s.here (s.env s.cur.gid) o.imm l o.a) (rd64 s.here (s.env s.cur.gid) o.imm l o.b)
      (rd64 s.here (s.env s.cur.gid) o.imm l o.c) i = some (r64 l))
    ∧ Issues i s ∧ Straight s :=
  ⟨.iadd (tOps (.v 4) (.v 1) .imm .none 9#32) false .wrap, _, _, tS, _, _, rfl, rfl, rfl, fun _ => rfl, fun _ => rfl,
    by unfold Issues; decide, tS_straight⟩

theorem meets_SaturatingIntegerResults : ∃ (i : Instr) (o : Ops) (w : Bool) (s : State) (r32 r64 : Nat → Int × Int × Int),
    wordForm i = some (o, w) ∧ o.d.isA = false
    ∧ (∀ l, satSpec 32 (rd32 s.here (s.env s.cur.gid) o.imm l o.a) (rd32 s.here (s.env s.cur.gid) o.imm l o.b) i = some (r32 l))
    ∧ (∀ l, satSpec 64 (rd64 s.here (s.env s.cur.gid) o.imm l o.a) (rd64 s.here (s.env s.cur.gid) o.imm l o.b) i = some (r64 l))
    ∧ Issues i s ∧ Straight s :=
  ⟨.isub (tOps (.s 4) (.s 2) .imm .none 9#32) false .us, _, _, tS, _, _, rfl, rfl, fun _ => rfl, fun _ => rfl,
    by unfold Issues; decide, tS_straight⟩

theorem meets_ShiftFieldAndPermuteResults :
    (∃ (i : Instr) (o : Ops) (w : Bool) (s : State) (r32 : Nat → W32) (r64 : Nat → W64), wordForm i = some (o, w)
      ∧ (∀ l, narrowSpec 32 (rd32 s.here (s.env s.cur.gid) o.imm l o.a) (rd32 s.here (s.env s.cur.gid) o.imm l o.b)
        (rd32 s.here (s.env s.cur.gid) o.imm l o.c) i = some (r32 l))
      ∧ (∀ l, narrowSpec 64 (rd64 s.here (s.env s.cur.gid) o.imm l o.a) (rd32 s.here (s.env s.cur.gid) o.imm l o.b)
        (rd64 s.here (s.env s.cur.gid) o.imm l o.c) i = some (r64 l))
      ∧ Issues i s ∧ Straight s)
    ∧ ∃ o s, Issues (.prmt o) s ∧ Straight s :=
  ⟨⟨.shl (tOps (.v 4) (.v 2) .imm .none 32#32) true, _, _, tS, _, _, rfl, fun _ => rfl, fun _ => rfl, by unfold Issues; decide, tS_straight⟩,
    tOps (.v 4) (.v 1) (.v 2) (.s 2) 0#32, tS, by unfold Issues; decide, tS_straight⟩

theorem meets_AddWithCarry : ∃ (o : Ops) (w sub : Bool) (co : Option (BitVec 3)) (s : State),
    (Instr.iaddc o w sub co).wellFormed = true ∧ Issues (.iaddc o w sub co) s ∧ Straight s :=
  ⟨tOps .zero (.s 2) .imm (.q 3) 7#32, false, true, some 3#3, tS, by decide, by unfold Issues; decide, tS_straight⟩

theorem meets_PredicatesAndSelection :
    (∃ o w c u cb s, Issues (.icmp o w c u cb) s ∧ Straight s) ∧ (∃ o w s, Issues (.isel o w) s ∧ Straight s)
    ∧ ∃ (i : Instr) (o : Ops) (s : State) (r : Nat → Bool), o.d.isPq = true ∧ (∀ l, predSpec (rdP s.here l o.a) (rdP s.here l o.b) i = some (o, r l))
      ∧ Issues i s ∧ Straight s :=
  ⟨⟨tOps (.p 1) (.v 1) (.v 2) (.p 7) 0#32, false, .lt, false, .xor, tS, by unfold Issues; decide, tS_straight⟩,
    ⟨tOps (.v 4) (.v 1) (.v 2) (.q 1) 0#32, true, tS, by unfold Issues; decide, tS_straight⟩,
    .andn (tOps (.p 1) (.p 7) (.q 2) .none 0#32) false, _, tS, _, rfl, fun _ => rfl, by unfold Issues; decide, tS_straight⟩

theorem meets_MovesAndAddresses :
    (∃ o w z s, Issues (.movi o w z) s ∧ Straight s ∧ (o.d.isS || o.d.isQ) = false)
    ∧ (∃ (o : Ops) (n : BitVec 6) (s : State), o.d = .s n ∧ Issues (.movh o) s ∧ Straight s)
    ∧ (∃ (o : Ops) (scale : BitVec 3) (idx : Idx) (s : State), o.d.isA = false ∧ o.b ≠ .imm ∧ Issues (.lea o scale idx) s ∧ Straight s)
    ∧ ∃ (o : Ops) (f : Prom) (s : State), (o.d.isS || o.d.isQ) = false ∧ Issues (.promv o f) s ∧ Straight s :=
  ⟨⟨tOps (.v 4) .none .none .none 0x80000000#32, true, false, tS, by unfold Issues; decide, tS_straight, rfl⟩,
    ⟨tOps (.s 63) .none .none .none 9#32, _, tS, rfl, by unfold Issues; decide, tS_straight⟩,
    ⟨tOps (.v 4) (.s 2) (.v 2) .none 64#32, 4#3, .i32, tS, rfl, by decide, by unfold Issues; decide, tS_straight⟩,
    tOps (.v 4) (.a 2) .none .none 0#32, .w, tS, rfl, by unfold Issues; decide, tS_straight⟩

/-- The strides 2^31 − 1 and 2^31, the second without and with AFT. -/
def tStride (k : W32) (aft : Bool) : State := tOn { (((tG.setA 2 16#64 0x7FFFFFFE#32).setA 3 0#64 k)) with aft := aft }
def tSum : Ops := tOps (.a 4) (.a 2) (.a 3) .none 0#32
def tAffine (k : W32) (aft : Bool) : Prop :=
  let s := tStride k aft
  tSum.d = .a 4 ∧ affineSpec (affOf s.here (s.env s.cur.gid) 0#32 tSum.a) (affOf s.here (s.env s.cur.gid) 0#32 tSum.b) (.iadd tSum false .wrap)
      = some (tSum, 16#64, 2 ^ 31 - 2 + (k.toNat : Int))
    ∧ (Instr.iadd tSum false .wrap).wellFormed = true ∧ Issues (.iadd tSum false .wrap) s ∧ Straight s
theorem meets_AffineResults : tAffine 1#32 false ∧ tAffine 2#32 false ∧ tAffine 2#32 true
    ∧ ∃ (o : Ops) (n : BitVec 6) (s : State), o.d = .s n ∧ Straight s ∧ Issues (.abase o) s ∧ Issues (.astr o) s :=
  ⟨⟨rfl, by decide, by decide, by unfold Issues; decide, tStraight _ (by decide)⟩,
    ⟨rfl, by decide, by decide, by unfold Issues; decide, tStraight _ (by decide)⟩,
    ⟨rfl, by decide, by decide, by unfold Issues; decide, tStraight _ (by decide)⟩,
    tOps (.s 4) (.a 2) .none .none 0#32, _, tS, rfl, tS_straight, by unfold Issues; decide, by unfold Issues; decide⟩

theorem meets_FloatResults : ∃ (i : Instr) (o : Ops) (f : W32 → W32 → W32 → FR) (s : State), fpSpec i = some (o, f) ∧ Issues i s ∧ Straight s :=
  ⟨.fadd (tOps (.v 4) (.v 1) (.v 3) .none 0#32) .rd, _, _, tS, rfl, by unfold Issues; decide, tS_straight⟩

theorem meets_FloatConversionsAndComparison :
    (∃ o rm k s, Issues (.fcvt o rm k) s ∧ Straight s) ∧ (∃ o c cb s, Issues (.fcmp o c cb) s ∧ Straight s)
    ∧ ∃ (o : Ops) (rm : Rm) (sat : Bool) (s : State), (rm = .sr → o.c.isS = true) ∧ (o.d.isS || o.d.isQ) = false
      ∧ Issues (.bfcvt o rm sat) s ∧ Straight s :=
  ⟨⟨tOps (.s 4) (.s 2) .none .none 0#32, .rz, .ful, tS, by unfold Issues; decide, tS_straight⟩,
    ⟨tOps (.p 1) (.v 1) (.v 3) (.q 1) 0#32, .un, .or, tS, by unfold Issues; decide, tS_straight⟩,
    tOps (.v 4) (.v 1) (.v 3) (.s 2) 5#32, .sr, true, tS, fun _ => rfl, rfl, by unfold Issues; decide, tS_straight⟩

theorem meets_RandomWords : ∃ (o : Ops) (f : Bool) (n : BitVec 8) (s : State), o.d = .v n ∧ Issues (.rng o f) s ∧ Straight s :=
  ⟨tOps (.v 252) (.s 2) .laneid .imm 1#32, true, _, tS, rfl, by unfold Issues; decide, tS_straight⟩

theorem meets_HeldValuesConvertExactly : ∃ (f : FFmt) (rb : Nat) (x : Nat) (n : Bool) (m : Nat) (e : Int),
    f ∈ [fmt32, fmtBf, fmt16, fmtE4M3, fmtE5M2, fmtE3M2, fmtE2M3, fmtE2M1] ∧ x < 2 ^ f.w ∧ rb < 2 ^ 16 ∧ f.decode x = .fin n m e :=
  ⟨fmtE4M3, 65535, 0x7E, false, 14, 5, by and_intros <;> decide⟩

theorem meets_NanResultsAreDefault : ∃ (i : Instr) (o : Ops) (f : W32 → W32 → W32 → FR) (x y z : W32), fpSpec i = some (o, f)
    ∧ (∀ o rm h, i ≠ .badd2 o rm h ∧ i ≠ .bmul2 o rm h ∧ i ≠ .bfma2 o rm h) ∧ (fmt32.decode (f x y z).bits).isNan = true :=
  ⟨.fsub (tOps (.v 4) (.v 1) (.v 3) .none 0#32) .rne, _, _, 0x7F800000#32, 0x7F800000#32, 0#32, rfl, by intros; simp, by decide⟩

theorem meets_CrossLaneResults : ∃ (i : Instr) (o : Ops) (w : Bool) (s : State) (r : Nat → W64 × BitVec 5),
    crossSpec (lanesIn (contributing i s)) (rd32 s.here (s.env s.cur.gid) 0#32) (rdP s.here) i = some (o, w, r)
    ∧ o.imm = 0#32 ∧ Issues i s ∧ Straight s :=
  ⟨.redi (tOps (.s 4) (.v 3) .none .none 0#32) .add false, _, _, tS, _, rfl, rfl, by unfold Issues; decide, tS_straight⟩

theorem meets_LaneMoves :
    (∃ o mode seg s, Issues (.shfl o mode seg) s ∧ Straight s) ∧ (∃ (o : Ops) (s : State), o.d.isS = true ∧ Issues (.rdlane o) s ∧ Straight s)
    ∧ ∃ (o : Ops) (n : BitVec 8) (s : State), o.d = .v n ∧ Issues (.wrlane o) s ∧ Straight s :=
  ⟨⟨tOps (.v 4) (.v 1) (.v 2) .none 0#32, .slide, .w16, tS, by unfold Issues; decide, tS_straight⟩,
    ⟨tOps (.s 4) (.v 1) .imm .none 31#32, tS, rfl, by unfold Issues; decide, tS_straight⟩,
    tOps (.v 4) (.s 2) .imm .none 31#32, _, tS, rfl, by unfold Issues; decide, tS_straight⟩

theorem meets_FloatSumIgnoresOrderAndZeros : ∃ (xs ys : List Nat), (∀ x ∈ xs ++ ys, x < 2 ^ 32)
    ∧ (xs.filter fun x => x % 2 ^ 31 != 0).Perm (ys.filter fun x => x % 2 ^ 31 != 0) ∧ xs.filter (fun x => x % 2 ^ 31 != 0) ≠ [] :=
  ⟨[0x3F800000, 0, 0xFFFFFFFF], [0xFFFFFFFF, 0x80000000, 0x3F800000], by and_intros <;> decide⟩

/-- No candidate, and equal candidates of which a NaN is none. -/
theorem meets_GreatestWithLeastIndex : ∀ vs ∈ [[(0x7FC00000, 1)], [(0x7F800001, 3), (0x3F800000, 5), (0x3F800000, 4)]],
    ∀ e ∈ vs, e.1 < 2 ^ 32 ∧ e.2 < 2 ^ 32 := by decide

theorem tLane0 {m : Mask} {l : Nat} (h : m.getLsbD l = true) (hm : m = 1#32) : l = 0 := by
  subst hm
  rw [BitVec.getLsbD_one] at h
  simpa using h

/-- A line that can be fetched and is not cached. -/
theorem tTarget {s : State} {lv : Priv} {pc : W64} (pa : Nat) (h : fetchAddr s (s.ctx s.cur.gid lv) pc = .ok pa)
    (hb : (lparBad (s.mem.peeks pa 64), lineRes (s.mem.peeks pa 64), lineTgt (s.mem.peeks pa 64) (slotIx pc)) = (false, false, true))
    (hc : (s.core (cidOf s.cur.gid)).ic = []) : TargetReads s lv pc := by
  simp only [Prod.mk.injEq] at hb
  exact ⟨pa, h, by simp [hb], fun l hl => by simp [hc, Tbl.find] at hl⟩
theorem tEndReads {s : State} {lv : Priv} {pc : W64} (pa : Nat) (h : fetchAddr s (s.ctx s.cur.gid lv) pc = .ok pa)
    (hb : (lparBad (s.mem.peeks pa 64), sparBad (s.mem.peeks pa 64) (slotIx pc), lineRes (s.mem.peeks pa 64), linePair (s.mem.peeks pa 64) (slotIx pc))
      = (false, false, false, true))
    (hc : (s.core (cidOf s.cur.gid)).ic = []) : EndReads s lv pc := by
  simp only [Prod.mk.injEq] at hb
  exact ⟨pa, h, by simp [hb], fun l hl => by simp [hc, Tbl.find] at hl⟩

/-- The mapped core, with five pairs in its line, where thread 0 issues as `f` makes it. -/
def tThr (f : Thread → Thread) : State :=
  let s := (tMap 1#32).modGroup 0 fun g => g.modThread 0 f
  { s with mem := s.mem.pokes 0x2000 (sealLine (List.replicate 60 0#8 ++ bytesOf 4 0x3FF)) }
def tAt (pc : W64) : State := tThr fun x => { x with pc := pc }
theorem tAt_reads : TargetReads (tAt 0x2000#64) .sup 0x200C#64 := tTarget 0x2000 (by decide) (by decide) (by decide)

theorem tStraightIn (g : Group) (m : Mask) (h : (g.threads.all fun e => e.2.loops.isEmpty) = true) : StraightIn g m := by
  intro l _ e he
  have := tAll (P := fun x => x.loops = []) g rfl (fun e he => by simpa using List.all_eq_true.mp h e he) l
  simp [this] at he

theorem meets_BranchesTransfer : ∃ (i : Instr) (s : State) (p : W64) (o : Ops) (pop : Bool) (take : Nat → Bool) (goes_ : Nat → W64),
    (∀ l, branchSpec s.here (s.env s.cur.gid) p l i = some (o, pop, take l, goes_ l)) ∧ Issues i s ∧ Straight s ∧ AtPc s p
    ∧ ∀ l, (contributing i s).getLsbD l = true → take l = true → TargetReads s (s.here.thread l).priv (goes_ l) :=
  ⟨.bra (tOps .none (.q 1) .none .none 12#32) true false, tAt 0x2000#64, 0x2000#64, _, _, _, fun _ => 0x200C#64, fun _ => rfl,
    by unfold Issues; decide, tStraight _ (by decide), fun l h => by cases tLane0 h (by decide); decide,
    fun l h _ => by cases tLane0 h (by decide); exact tAt_reads⟩

/-- At the greatest depth that a call still enters, and a return to the one entry. -/
def tDeep : State := tThr fun x => { x with cdepth := 527, rstack := List.replicate 16 0x200C#64 }
def tShallow : State := tThr fun x => { x with cdepth := 1, rstack := [0x200C#64] }
theorem meets_CallsAndReturns :
    (∃ (i : Instr) (s : State) (p : W64) (o : Ops) (goes_ : Nat → W64), (∀ l, callSpec s.here (s.env s.cur.gid) p l i = some (o, goes_ l))
      ∧ Issues i s ∧ Straight s ∧ AtPc s p
      ∧ ∀ l, (contributing i s).getLsbD l = true → TargetReads s (s.here.thread l).priv (goes_ l) ∧ (s.here.thread l).cdepth < 528
        ∧ (s.here.thread l).rstack.length = min 16 (s.here.thread l).cdepth)
    ∧ ∃ (o : Ops) (s : State) (p : W64), Issues (.ret o) s ∧ Straight s ∧ AtPc s p
      ∧ ∀ l, (contributing (.ret o) s).getLsbD l = true → (s.here.thread l).cdepth ≠ 0
        ∧ (s.here.thread l).rstack.length = min 16 (s.here.thread l).cdepth
        ∧ TargetReads s (s.here.thread l).priv ((retStack s s.cur.gid l).headD 0#64) :=
  ⟨⟨.call (tOps .none .none .none .none 12#32), tDeep, 0x2000#64, _, fun _ => 0x200C#64, fun _ => rfl, by unfold Issues; decide,
      tStraight _ (by decide), fun l h => by cases tLane0 h (by decide); decide,
      fun l h => by cases tLane0 h (by decide); exact ⟨tTarget 0x2000 (by decide) (by decide) (by decide), by decide, by decide⟩⟩,
    tNo 0#32, tShallow, 0x2000#64, by unfold Issues; decide, tStraight _ (by decide), fun l h => by cases tLane0 h (by decide); decide,
    fun l h => by cases tLane0 h (by decide); exact ⟨by decide, by decide, tTarget 0x2000 (by decide) (by decide) (by decide)⟩⟩

/-- A count of zero with two entries, and of three with one. -/
def tLoops (k : Nat) : State := tThr fun x => { x with loops := List.replicate k ⟨0x2000#64, 0x2018#64, 1#32⟩ }
theorem meets_LoopEnters : ∀ c ∈ [(0#32, 2), (3#32, 1)], ∃ (o : Ops) (len : BitVec 10), o.imm = c.1 ∧ o.a = .imm ∧ o.g = Guard.always
    ∧ Issues (.loop o len) (tLoops c.2) ∧ AtPc (tLoops c.2) 0x2000#64
    ∧ ∀ l, (tLoops c.2).cur.mask.getLsbD l = true →
      let s := tLoops c.2
      let x := s.here.thread l
      EndReads s x.priv (fallThrough (len.toNat + 1) 0x2000#64)
      ∧ (c.1 ≠ 0#32 → TargetReads s x.priv (nextPc 0x2000#64) ∧ x.loops.length < 2)
      ∧ (c.1 = 0#32 → x.loops.length ≤ 2 ∧ ∀ e ∈ x.loops, TargetReads s x.priv e.start) := by
  intro c hc
  refine ⟨tOps .none .imm .none .none c.1, 1#10, rfl, rfl, rfl, ?_, fun l h => ?_, fun l h => ?_⟩
  · revert c; unfold Issues; decide
  · cases tLane0 h rfl; revert c; decide
  · cases tLane0 h rfl
    simp only [List.mem_cons, List.not_mem_nil, or_false] at hc
    rcases hc with rfl | rfl
    · exact ⟨tEndReads 0x2000 (by decide) (by decide) (by decide), fun h => absurd rfl h, fun _ => ⟨by decide, fun e he => by
        have : e = ⟨0x2000#64, 0x2018#64, 1#32⟩ := List.eq_of_mem_replicate he
        subst this
        exact tTarget 0x2000 (by decide) (by decide) (by decide)⟩⟩
    · exact ⟨tEndReads 0x2000 (by decide) (by decide) (by decide), fun _ => ⟨tTarget 0x2000 (by decide) (by decide) (by decide), by decide⟩,
        fun h => absurd h (by decide)⟩

theorem meets_PassingStepsLoops : ∃ (o : Ops) (s : State), Issues (.nop o) s
    ∧ ∀ l, s.cur.mask.getLsbD l = true → (s.here.thread l).loops.length ≤ 2
      ∧ ∀ e ∈ (s.here.thread l).loops, TargetReads s (s.here.thread l).priv e.start :=
  ⟨tNo 0#32, tLoops 2, by unfold Issues; decide, fun l h => by
    cases tLane0 h (by decide)
    exact ⟨by decide, fun e he => by
      have : e = ⟨0x2000#64, 0x2018#64, 1#32⟩ := List.eq_of_mem_replicate he
      subst this
      exact tTarget 0x2000 (by decide) (by decide) (by decide)⟩⟩

/-- A thread at supervisor level at a PC, and what it waits in. -/
def tTh (pc : W64) (i : Option Instr) : Thread := { Thread.zero with priv := .sup, pc := pc, wait := i }
/-- Two threads, of which the lanes `m` issue; thread 1 stands at `pc` and waits in `i` unless it issues. -/
def tTwo (m : Mask) (i : Instr) (pc : W64) : State :=
  let g : Group := { tGroup 3#32 with threads := [(0, tTh 0#64 none), (1, tTh pc (if m.getLsbD 1 then none else some i))] }
  { tOn g with cur := ⟨0, m, 0, 0, 0#32⟩ }
theorem tTwo_in {l : Nat} (h : (3#32 : Mask).getLsbD l = true) : l = 0 ∨ l = 1 := by
  have : l < 32 := BitVec.lt_of_getLsbD h
  interval_cases l <;> simp_all

theorem meets_WaitingInstructions :
    (∃ o s, Issues (.yield o) s ∧ Straight s)
    ∧ (∃ o s, Issues (.wait o) s ∧ StraightIn s.here (s.cur.mask ||| s.here.fmask) ∧ s.cur.mask &&& ~~~s.here.fmask = 0#32)
    ∧ (∃ o s p, o.g = Guard.always ∧ Issues (.conv o) s ∧ AtPc s p ∧ s.cur.mask &&& ~~~s.here.fmask = 0#32
      ∧ ∃ l, s.here.fmask.getLsbD l = true ∧ (s.cur.mask.getLsbD l || inConv (s.here.thread l)) = false)
    ∧ (∃ o s p, o.g = Guard.always ∧ Issues (.conv o) s ∧ AtPc s p ∧ s.cur.mask &&& ~~~s.here.fmask = 0#32
      ∧ (∀ l, s.here.fmask.getLsbD l = true → (s.cur.mask.getLsbD l || inConv (s.here.thread l)) = true)
      ∧ (∀ l, s.here.fmask.getLsbD l = true → (s.here.thread l).pc = p) ∧ StraightIn s.here s.here.fmask)
    ∧ ∃ o s p, o.g = Guard.always ∧ Issues (.conv o) s ∧ AtPc s p ∧ s.cur.mask &&& ~~~s.here.fmask = 0#32
      ∧ (∀ l, s.here.fmask.getLsbD l = true → (s.cur.mask.getLsbD l || inConv (s.here.thread l)) = true)
      ∧ ∃ l, s.here.fmask.getLsbD l = true ∧ (s.here.thread l).pc ≠ p :=
  ⟨⟨tNo 0#32, tS, by unfold Issues; decide, tS_straight⟩, ⟨tNo 0#32, tS, by unfold Issues; decide, tS_straight, by decide⟩,
    ⟨tNo 0#32, tTwo 1#32 (.wait (tNo 0#32)) 0#64, 0#64, rfl, by unfold Issues; decide, fun l h => by cases tLane0 h rfl; decide, by decide, 1, by decide,
      by decide⟩,
    ⟨tNo 0#32, tTwo 1#32 (.conv (tNo 0#32)) 0#64, 0#64, rfl, by unfold Issues; decide, fun l h => by cases tLane0 h rfl; decide, by decide,
      fun l h => by rcases tTwo_in h with rfl | rfl <;> decide, fun l h => by rcases tTwo_in h with rfl | rfl <;> decide,
      tStraightIn _ _ (by decide)⟩,
    tNo 0#32, tTwo 1#32 (.conv (tNo 0#32)) 12#64, 0#64, rfl, by unfold Issues; decide, fun l h => by cases tLane0 h rfl; decide, by decide,
    fun l h => by rcases tTwo_in h with rfl | rfl <;> decide, 1, by decide, by decide⟩

theorem meets_ExitLeaves : ∀ m ∈ [1#32, 3#32], ∃ (o : Ops) (s : State), s.cur.mask = m ∧ Issues (.exit o) s ∧ Straight s ∧ s.cur.mask &&& ~~~s.here.fmask = 0#32 := by
  intro m hm
  simp only [List.mem_cons, List.not_mem_nil, or_false] at hm
  rcases hm with rfl | rfl
  · exact ⟨tNo 0#32, tTwo 1#32 (.exit (tNo 0#32)) 0#64, rfl, by unfold Issues; decide, tStraight _ (by decide), by decide⟩
  · exact ⟨tNo 0#32, tTwo 3#32 (.exit (tNo 0#32)) 0#64, rfl, by unfold Issues; decide, tStraight _ (by decide), by decide⟩

theorem meets_ControlReleases :
    (∃ (g : Nat) (s : State), StraightIn (s.group g) (s.group g).fmask ∧ ∃ l, (s.group g).fmask.getLsbD l = true ∧ waitDone s g ((s.group g).thread l) = true)
    ∧ (∃ (g : Nat) (s : State) (p : W64), StraightIn (s.group g) (s.group g).fmask ∧ (s.group g).fmask ≠ 0#32
      ∧ ∀ l, (s.group g).fmask.getLsbD l = true → inConv ((s.group g).thread l) = true ∧ ((s.group g).thread l).pc = p)
    ∧ ∃ (g : Nat) (lane : BitVec 5) (s : State), (s.group g).fmask.getLsbD lane.toNat = true ∧ canLeave s g lane.toNat ((s.group g).thread lane.toNat) = true :=
  let two (i : Instr) : State := tOn { tGroup 3#32 with threads := [(0, tTh 0#64 (some i)), (1, tTh 0#64 (some i))] }
  ⟨⟨0, two (.wait (tNo 0#32)), tStraightIn _ _ (by decide), 1, by decide, by decide⟩,
    ⟨0, two (.conv (tNo 0#32)), 0#64, tStraightIn _ _ (by decide), by decide, fun l h => by rcases tTwo_in h with rfl | rfl <;> decide⟩,
    0, 1#5, two (.exit (tNo 0#32)), by decide, by decide⟩

theorem meets_TrapInstructions :
    (∀ i ∈ [Instr.trap (tNo 0xFFF#32), .brk (tNo 0#32)], Issues i tS ∧ Straight tS ∧ contributing i tS ≠ 0#32 ∧ contributing i tS &&& tS.here.tlanes = 0#32)
    ∧ ∃ (o : Ops) (s : State) (l : Nat), Issues (.trapEnd o) s ∧ (lanesIn (contributing (.trapEnd o) s)).head? = some l := by
  refine ⟨fun i hi => ?_, tOps .none (.v 1) .none .none 0#32, tS, 0, by unfold Issues; decide, by decide⟩
  simp only [List.mem_cons, List.not_mem_nil, or_false] at hi
  rcases hi with rfl | rfl <;> exact ⟨by unfold Issues; decide, tS_straight, by decide, by decide⟩

/-- Thread 0 of four is in a handler. -/
def tIn : State := tOn { tG with tlanes := 1#32 }
theorem meets_FaultDelivery :
    (∃ (s : State) (gid : Nat) (m : Mask) (word : W32), m ≠ 0#32 ∧ endsJob s gid word = false ∧ m &&& (s.group gid).tlanes = 0#32)
    ∧ ∃ (s : State) (gid : Nat) (m : Mask) (word : W32), endsJob s gid word = false ∧ m &&& (s.group gid).tlanes ≠ 0#32 :=
  ⟨⟨tIn, 0, 2#32, 0x01631000#32, by and_intros <;> decide⟩, tIn, 0, 3#32, 0x01631000#32, by decide, by decide⟩

theorem meets_TrapReturnRestores :
    (∃ (o : Ops) (nx : Bool) (s : State), Issues (.tret o nx) s ∧ contributing (.tret o nx) s &&& ~~~s.here.tlanes = 0#32 ∧ Straight s
      ∧ ∀ l, (contributing (.tret o nx) s).getLsbD l = true → let x := s.here.thread l
        pcLegal (if nx then nextPc x.tpc else x.tpc) = true ∧ (nx = true → ∀ e ∈ x.loops.head?, e.stop ≠ x.tpc))
    ∧ ∃ (o : Ops) (nx : Bool) (s : State), Issues (.tret o nx) s ∧ contributing (.tret o nx) s = s.cur.mask
      ∧ contributing (.tret o nx) s &&& s.here.tlanes = 0#32 :=
  ⟨⟨tNo 0#32, true, { tIn with cur := ⟨0, 1#32, 0, 0, 0#32⟩ }, by unfold Issues; decide, by decide, tStraight _ (by decide),
      fun l h => by cases tLane0 h (by decide); exact ⟨by decide, fun _ e he => by revert e; decide⟩⟩,
    tNo 0#32, false, { tIn with cur := ⟨0, 0xE#32, 0, 0, 0#32⟩ }, by and_intros <;> decide⟩

/-- The level, a register past the held blocks, a tile past the share, and part of the full mask. -/
theorem meets_IssueChecks :
    let low (i : Instr) (s : State) : Bool := needsSup i && decide (s.cur.mask &&& ~~~userMask s.here s.cur.mask ≠ s.cur.mask)
    let held (i : Instr) (s : State) : Bool := regsOk i s.here.xblk (s.counts s.cur.gid).2.1 (s.counts s.cur.gid).2.2
    (∃ i s, s.cur.mask ≠ 0#32 ∧ low i s = true ∧ i.groupScope = true)
    ∧ (∃ i s, s.cur.mask ≠ 0#32 ∧ low i s = false ∧ held i s = false)
    ∧ (∃ i s, s.cur.mask ≠ 0#32 ∧ low i s = false ∧ held i s = true ∧ tilesOk s s.cur.gid i = false)
    ∧ (∃ i s, s.cur.mask ≠ 0#32 ∧ low i s = false ∧ held i s = true ∧ tilesOk s s.cur.gid i = true ∧ i.groupScope = true ∧ s.cur.mask ≠ s.here.fmask)
    ∧ ∃ i s, s.cur.mask = s.here.fmask ∧ low i s = false ∧ held i s = true ∧ tilesOk s s.cur.gid i = true ∧ i.groupScope = true
      ∧ s.here.tlanes &&& s.cur.mask ≠ 0#32 ∧ s.here.tlanes ≠ s.here.fmask :=
  ⟨⟨.adopt (tOps (.s 1) .none .none .none 0#32), tOn { tG with threads := [] }, by and_intros <;> decide⟩,
    ⟨.iadd (tOps (.v 64) (.v 1) (.v 2) .none 0#32) false .wrap, tOn { tG with xblk := 0 }, by and_intros <;> decide⟩,
    ⟨.accz (tOps (.acc 0) .none .none .none 0#32) .all, tS, by and_intros <;> decide⟩,
    ⟨.iadd (tOps (.s 4) (.s 1) (.s 2) .none 0#32) false .wrap, { tS with cur := ⟨0, 7#32, 0, 0, 0#32⟩ }, by and_intros <;> decide⟩,
    .iadd (tOps (.s 4) (.s 1) (.s 2) .none 0#32) false .wrap, tOn { tG with tlanes := 1#32 }, by and_intros <;> decide⟩

theorem tBounds (s : State) (h : (s.here.threads.all fun e => decide (e.2.cdepth ≤ 528) && decide (e.2.loops.length ≤ 2)) = true)
    (h' : s.here.lds.length ≤ 63 ∧ s.here.stc ≤ 63 ∧ s.here.cps.length ≤ 63 ∧ s.tlc s.cur.gid ≤ 15 ∧ s.here.xblk ≤ 6) : SrBounds s s.cur.gid :=
  ⟨tAll (P := fun x => x.cdepth ≤ 528 ∧ x.loops.length ≤ 2) s.here (by decide) fun e he => by simpa using List.all_eq_true.mp h e he, h'⟩

/-- Thread 0 of one, at the greatest depths. -/
def tFull : State := tOn { tGroup 1#32 with threads := [(0, { tTh 12#64 none with cdepth := 528, loops := List.replicate 2 ⟨0#64, 0#64, 1#32⟩ })] }
theorem tFull_straight : Straight tFull := fun l h e he => by
  cases tLane0 h rfl
  have : e = ⟨0#64, 0#64, 1#32⟩ := by simpa [tFull, tOn, State.here, State.group, Group.thread, Tbl.get, Tbl.find, Tbl.get, List.replicate] using he.symm
  subst this; decide
theorem meets_SpecialRegisterReads : ∃ (o : Ops) (s : State), Issues (.getsr o) s ∧ Straight s ∧ SrBounds s s.cur.gid :=
  ⟨tOps (.v 4) .none .none .none 5#32, tFull, by unfold Issues; decide, tFull_straight, tBounds _ (by decide) (by decide)⟩

theorem meets_SpecialRegisterWrites :
    (∃ (o : Ops) (op : SrOp) (s : State), (Instr.setsr o op).wellFormed = true ∧ Issues (.setsr o op) s ∧ Straight s ∧ SrBounds s s.cur.gid
      ∧ ([2, 3, 4, 8].contains o.srnum = true → ∀ l, s.cur.mask.getLsbD l = true → (s.here.thread l).priv ≠ .user))
    ∧ ∃ (o : Ops) (op : SrOp) (s : State), [2, 3, 4, 8].contains o.srnum = true ∧ o.g = Guard.always ∧ Issues (.setsr o op) s
      ∧ ∀ l, s.cur.mask.getLsbD l = true → (s.here.thread l).priv = .user
        ∧ setsrSpec op (srSpec s s.cur.gid l o.srnum)
            (if srWidth o.srnum = some 64 then rd64 s.here (s.env s.cur.gid) o.imm l o.a
              else (rd32 s.here (s.env s.cur.gid) o.imm l o.a).setWidth 64) ≠ srSpec s s.cur.gid l o.srnum :=
  ⟨⟨tOps .none (.s 2) .none .none 3#32, .or, tFull, by decide, by unfold Issues; decide, tFull_straight, tBounds _ (by decide) (by decide),
      fun _ l h => by cases tLane0 h rfl; decide⟩,
    tOps .none (.s 2) .none .none 8#32, .write, tOn ({ tGroup 1#32 with threads := [] }.setU 2 7#64), by decide, by decide, by unfold Issues; decide,
    fun l h => by cases tLane0 h rfl; decide⟩

/-- Group 0 of the mapped core with `x` extra blocks, and one more group for each of `more`; the core has `rfu` register units. -/
def tBlk (x : Nat) (rfu : Nat) (more : List Nat) (lds : List LoadRec) : State :=
  let s := tMap 1#32
  { s with groups := (0, { tGroup 1#32 with xblk := x, lds := lds }) :: more.map fun k => (k, { Group.zero with live := true, fmask := 1#32, xblk := 6 }),
           cores := s.cores.map fun c => (c.1, { c.2 with pword := 0x80400#32 + BitVec.ofNat 32 rfu }) }
def tMax (n : Nat) (s : State) : State := { s with teams := [(0, { Team.zero with st := .run, job := some { tJob with hdr := { tHdr with xmax := n } } })] }
/-- What every clause about `regacq` and `regrel` asks. -/
def tBlocks (i : Instr) (s : State) : Prop :=
  Issues i s ∧ Straight s ∧ (s.core (cidOf s.cur.gid)).blockq = [] ∧ s.cur.mask = s.here.fmask ∧ ∀ l, (s.here.thread l).wait = none
theorem tBlocks_of (i : Instr) (s : State) (h : Issues i s) (h1 : (s.here.threads.all fun e => e.2.loops.isEmpty && e.2.wait.isNone) = true)
    (h2 : (s.core (cidOf s.cur.gid)).blockq = []) (h3 : s.cur.mask = s.here.fmask) : tBlocks i s := by
  have h4 : ∀ e ∈ s.here.threads, e.2.loops.isEmpty = true ∧ e.2.wait.isNone = true := fun e he => by
    simpa using List.all_eq_true.mp h1 e he
  exact ⟨h, tStraight s (List.all_eq_true.mpr fun e he => (h4 e he).1), h2, h3,
    tAll (P := fun x => x.wait = none) s.here rfl fun e he => by simpa using (h4 e he).2⟩
def tAcq (n : Nat) : Instr := .regacq (tNo (BitVec.ofNat 32 n))
def tRel (n : Nat) : Instr := .regrel (tNo (BitVec.ofNat 32 n))

theorem meets_RegisterBlocks_issue :
    (∃ s, tBlocks (tAcq 5) s ∧ 5 > (s.counts s.cur.gid).1 ∧ s.cur.mask &&& s.here.tlanes = 0#32)
    ∧ (∃ s, tBlocks (tAcq 3) s ∧ 3 ≤ (s.counts s.cur.gid).1 ∧ 3 > s.capacity 0 ∧ s.cur.mask &&& s.here.tlanes = 0#32)
    ∧ (∃ s, tBlocks (tAcq 2) s ∧ 2 ≤ (s.counts s.cur.gid).1 ∧ 2 ≤ s.capacity 0 ∧ 2 ≤ s.here.xblk)
    ∧ (∃ s, tBlocks (tAcq 2) s ∧ 2 ≤ (s.counts s.cur.gid).1 ∧ 2 ≤ s.capacity 0 ∧ s.here.xblk < 2 ∧ (2 : Int) - s.here.xblk ≤ s.freeBlocks 0
      ∧ (s.team (s.tidOf s.cur.gid)).launching = none)
    ∧ (∃ s, tBlocks (tAcq 6) s ∧ 6 ≤ (s.counts s.cur.gid).1 ∧ 6 ≤ s.capacity 0 ∧ s.here.xblk < 6 ∧ s.freeBlocks 0 < (6 : Int) - s.here.xblk
      ∧ ∃ k, k / 32 = 0 ∧ k ≠ s.cur.gid ∧ (s.group k).live = true ∧ (s.group k).xblk ≠ 0)
    ∧ (∃ s, tBlocks (tRel 2) s ∧ s.here.xblk ≤ 2) ∧ (∃ s, tBlocks (tRel 0) s ∧ 0 < s.here.xblk ∧ s.here.lds ≠ [])
    ∧ ∃ s, tBlocks (tRel 0) s ∧ 0 < s.here.xblk ∧ s.here.lds = [] :=
  ⟨⟨tMax 4 (tBlk 4 4 [] []), tBlocks_of _ _ (by unfold Issues; decide) (by decide) (by decide) (by decide), by decide, by decide⟩,
    ⟨tBlk 0 1 [] [], tBlocks_of _ _ (by unfold Issues; decide) (by decide) (by decide) (by decide), by and_intros <;> decide⟩,
    ⟨tBlk 2 1 [] [], tBlocks_of _ _ (by unfold Issues; decide) (by decide) (by decide) (by decide), by and_intros <;> decide⟩,
    ⟨tBlk 1 1 [] [], tBlocks_of _ _ (by unfold Issues; decide) (by decide) (by decide) (by decide), by and_intros <;> decide⟩,
    ⟨tBlk 2 4 [1, 2] [], tBlocks_of _ _ (by unfold Issues; decide) (by decide) (by decide) (by decide), by decide, by decide, by decide, by decide,
      1, by and_intros <;> decide⟩,
    ⟨tBlk 2 4 [] [], tBlocks_of _ _ (by unfold Issues; decide) (by decide) (by decide) (by decide), by decide⟩,
    ⟨tBlk 1 4 [] [⟨1, .nop (tNo 0#32), [], [], [], [], [], []⟩], tBlocks_of _ _ (by unfold Issues; decide) (by decide) (by decide) (by decide), by decide, by decide⟩,
    tBlk 1 4 [] [], tBlocks_of _ _ (by unfold Issues; decide) (by decide) (by decide) (by decide), by decide, by decide⟩

/-- Group 0 waits for `n` blocks at the head of the queue. -/
def tQue (n : Nat) : State :=
  let s := tBlk 2 4 [] []
  { s with groups := [(0, { tGroup 1#32 with xblk := 2, threads := [(0, tTh 12#64 (some (tAcq 6)))] })],
           cores := s.cores.map fun c => (c.1, { c.2 with blockq := [(0, n)] }) }
theorem meets_RegisterBlocks_grant : ∀ n ∈ [12, 13],
    let s := tQue n
    (s.core 0).blockq = [(0, n)] ∧ cidOf 0 = 0 ∧ (s.team (s.tidOf 0)).launching = none ∧ StraightIn (s.group 0) (s.group 0).fmask ∧ (s.group 0).fmask ≠ 0#32
    ∧ (∀ l, (s.group 0).fmask.getLsbD l = true → ∃ o, ((s.group 0).thread l).wait = some (.regacq o))
    ∧ (n = 12 → (n : Int) ≤ s.freeBlocks 0)
    ∧ (n = 13 → s.freeBlocks 0 < n ∧ ∀ k, k / 32 = 0 → k ≠ 0 → (s.group k).live = false ∨ (s.group k).xblk = 0) := by
  intro n hn
  simp only [List.mem_cons, List.not_mem_nil, or_false] at hn
  rcases hn with rfl | rfl
  · exact ⟨by decide, by decide, by decide, tStraightIn _ _ (by decide), by decide, fun l h => by cases tLane0 h (by decide); exact ⟨_, rfl⟩,
      fun _ => by decide, fun h => absurd h (by decide)⟩
  · exact ⟨by decide, by decide, by decide, tStraightIn _ _ (by decide), by decide, fun l h => by cases tLane0 h (by decide); exact ⟨_, rfl⟩,
      fun h => absurd h (by decide), fun _ => ⟨by decide, fun k _ hk => by
        left; show (Tbl.get Group.zero k [(0, _)]).live = false
        simp [Tbl.get, Tbl.find, Ne.symm hk, Group.zero]⟩⟩

/-- R164–R168: an access of each kind at the boundary of each clause: its region, level, low bits, length and answer. -/
def tAcc (p : Priv) (f : Form) (a : Nat) (s : State) : Except W32 Target := checkAccess s 0 0 p f (BitVec.ofNat 64 a)
def tForm (n : Nat) : Form := ⟨.load, n, n, true, false, false⟩
theorem meets_AccessChecks :
    let s := tMap 1#32
    tAcc .sup (tForm 4) 0xFC00000000000000 s = .error fwAPERR ∧ tAcc .user (tForm 4) 0xFB00000000000000 s = .error fwPRIV
    ∧ tAcc .sup (tForm 4) 0xFB00000000000002 s = .error fwMISALIGN ∧ tAcc .sup (tForm 4) 0xFB00000000000004 s = .ok (.dev 4)
    ∧ tAcc .user (tForm 4) 0xFF0000000001FFFC s = .ok (.sp 0 0x1FFFC) ∧ tAcc .user (tForm 4) 0xFF00000000020000 s = .error fwSPBND
    ∧ tAcc .user (tForm 4) 0xFD0000000000FFFC s = .ok (stackTgt s 0 0 .load 0xFFFC 4) ∧ tAcc .user (tForm 4) 0xFD00000000010000 s = .error fwSTKBND
    ∧ s.clusterOf (s.tidOf 0) = none ∧ tAcc .user (tForm 4) 0xFE00000000000000 s = .error fwSPBND
    ∧ (boundsFault s (s.ctx 0 .user) .load 0x0100000000000000#64 4).isSome = true
    ∧ boundsFault s (s.ctx 0 .user) .load 0x8000#64 4 = none ∧ (s.ctx 0 .user).leases = none
    ∧ (match translate s (s.ctx 0 .user) .load 0x8000 4 with | .ok xs => decide (xs ≠ []) | .error _ => false) = true := by decide

/-! Memory -/

theorem tNoFault {α β : Type} {x : List α × List β} (h : x.2 = []) : x = (x.1, []) := by cases x; cases h; rfl
/-- The mapped core with one thread, addresses in registers, data at 0x8000, and one page more, of kind SO, at 0x2000_0000. -/
def tMem : State :=
  let s := (tMap 1#32).modGroup 0 fun g => ((((({ g with fmask := 1#32 }.setU 2 0x8000#64).setU 3 0x9000#64).setU 4 0xFF00000000000100#64).setU 6 0x20008000#64).setV 0 1 0x3F800000#32).setU 8 0x3F800000#64
  { s with mem := (s.mem.pokes 0x8000 ((List.range 64).map fun k => BitVec.ofNat 8 (7 * k))).pokes 0x40008 (bytesOf 8 0x7A1 ++ bytesOf 8 0x709) }
theorem tMem_straight : Straight tMem := tStraight _ (by decide)

/-- What an instruction of thread 0 is checked for, and the state in which its accesses are. -/
def tFound (i : Instr) (o : Ops) (once : Bool) (f : Form) : List Access × List Trap :=
  let x := here_ i tMem
  checkAll x once f (laneAddr tMem.here x.env o) (rereadAll x once f (laneAddr tMem.here x.env o) tMem)
/-- The parts of a packed form likewise. -/
def tPacked (i : Instr) (o : Ops) (u : Use) (fmt : Fmt) : List Access × List Trap :=
  let x := here_ i tMem
  let f : Form := ⟨u, 4 * elemBits fmt, if elemBits fmt = 4 then 16 else 32, false, false, true⟩
  packedAccs u o fmt f x (rereadPacked o fmt f x tMem)
/-- Some accesses were found, none of a device, and no fault. -/
def tGoes (r : List Access × List Trap) : Bool := !r.1.isEmpty && r.2.isEmpty && r.1.all fun a => !isDev a.tgt
def tLd : Ops := tOps (.s 5) (.s 2) .none .none 4#32
def tLdV : Ops := tOps (.v 5) (.s 2) .laneid .none 4#32
def tLdP : Ops := tOps (.v 5) (.s 2) .none .none 0#32
def tLdM : Ops := tOps (.v 5) (.s 2) (.s 3) .none 0#32

/-- An acquire; a converting load; a packed run and one with a scale; a prefetch of no global address. -/
theorem meets_LoadsIssue :
    (Issues (.ld tLd .nt .pkg .acq .b64) tMem ∧ tGoes (tFound (.ld tLd .nt .pkg .acq .b64) tLd true ⟨.load, 8, 1, true, false, true⟩) = true)
    ∧ (Issues (.ldConvert tLdV .normal .e4m3) tMem
      ∧ tGoes (tFound (.ldConvert tLdV .normal .e4m3) tLdV false ⟨.load, 1, 1, false, false, false⟩) = true)
    ∧ (∀ e ∈ [(Fmt.int4, tLdP, 1), (Fmt.mxe2m1, tLdM, 2)], Issues (.ldConvert e.2.1 .normal e.1) tMem ∧ e.1.packed = true
      ∧ tGoes (tPacked (.ldConvert e.2.1 .normal e.1) e.2.1 .load e.1) = true
      ∧ (tPacked (.ldConvert e.2.1 .normal e.1) e.2.1 .load e.1).1.length = e.2.2)
    ∧ ∃ (o : Ops) (l2 : Bool) (s : State), Issues (.pref o l2) s
      ∧ ∀ l, (here_ (.pref o l2) s).eff.getLsbD l = true → region (addrOf s.here (here_ (.pref o l2) s).env o l) ≥ 0xFB := by
  refine ⟨⟨by unfold Issues; decide, by decide⟩, ⟨by unfold Issues; decide, by decide⟩, fun e he => ?_,
    tOps .none (.s 4) .none .none 0#32, false, tMem, by unfold Issues; decide, fun l h => by cases tLane0 h (by decide); decide⟩
  simp only [List.mem_cons, List.not_mem_nil, or_false] at he
  rcases he with rfl | rfl <;> exact (by and_intros <;> decide)
/-- A register of the die, read into a pair. -/
theorem meets_LoadsIssue_device :
    let s := tMem.modGroup 0 fun g => g.setU 10 0xFB00000000000300#64
    let o : Ops := tOps (.v 2) (.s 10) .laneid .none 0#32
    let i : Instr := .ld o .normal .thr .plain .b64
    let x := here_ i s
    let f : Form := ⟨.load, 8, 1, true, false, false⟩
    let s1 := rereadAll x false f (laneAddr s.here x.env o) s
    Issues i s ∧ (∃ a, checkAll x false f (laneAddr s.here x.env o) s1 = ([a], []) ∧ a.tgt = .dev 0x300 ∧ s1.here.before ⟨true, s1.here.nextSeq, i, a⟩ = [])
    ∧ (match devLoad s1 0x300 8 with | .ok _ => true | .error _ => false) = true :=
  ⟨by unfold Issues; decide, ⟨⟨0, 0xFB00000000000300#64, 0xFB00000000000300#64, 0#64, .dev 0x300, [], 0, 8, 1#32⟩, by decide, rfl, by decide⟩, by decide⟩
/-- Data of each length, of a lane and for the group, and a packed run with its scale byte. -/
theorem meets_LoadsIssue_data : (∃ (a : Access) (bs : List MByte) (o : Ops) (d : BitVec 8), bs.length = bytesIn .b128 ∧ o.d = .v d ∧ a.lane < 32)
    ∧ ∃ (o : Ops) (run sc : List Byte) (d : BitVec 8), Fmt.packed .mxe3m2 = true ∧ o.d = .v d ∧ run.length = 4 * elemBits .mxe3m2 ∧ sc.length = 1 :=
  ⟨⟨⟨31, 0#64, 0#64, 0#64, .dev 0, [], 0, 16, 1#32⟩, List.replicate 16 (0#8, true), tLdV, 5#8, rfl, rfl, by decide⟩,
    tLdM, List.replicate 24 0#8, [0xFF#8], 5#8, by decide, rfl, by decide, rfl⟩

def tSt : Ops := tOps .none (.s 2) .none (.s 8) 0#32
def tStV : Ops := tOps .none (.s 2) .laneid (.v 1) 4#32
def tStM : Ops := tOps .none (.s 2) (.s 3) (.v 1) 0#32
def tLine0 : Ops := tOps .none (.s 2) .none .none 0#32
theorem meets_StoresIssue :
    (∀ ord ∈ [MOrd.plain, .rel], Issues (.st tSt .normal .pkg ord .b64) tMem
      ∧ tGoes (tFound (.st tSt .normal .pkg ord .b64) tSt true ⟨.store, 8, 1, true, false, true⟩) = true)
    ∧ (Issues (.stConvert tStV .normal true .rz .e5m2) tMem ∧ Fmt.packed .e5m2 = false
      ∧ tGoes (tFound (.stConvert tStV .normal true .rz .e5m2) tStV false ⟨.store, 1, 1, false, false, false⟩) = true)
    ∧ (Issues (.stConvert tStM .normal true .rne .mxe3m2) tMem ∧ Fmt.packed .mxe3m2 = true
      ∧ tGoes (tPacked (.stConvert tStM .normal true .rne .mxe3m2) tStM .store .mxe3m2) = true)
    ∧ ∀ e ∈ [(Instr.discard tLine0, Use.store), (.clean tLine0 true, .clean), (.inval tLine0 false, .clean)],
      Issues e.1 tMem ∧ tGoes (tFound e.1 tLine0 false ⟨e.2, 1, 1, false, true, false⟩) = true := by
  refine ⟨fun ord ho => ?_, (by and_intros <;> decide), (by and_intros <;> decide), fun e he => ?_⟩
  · simp only [List.mem_cons, List.not_mem_nil, or_false] at ho
    rcases ho with rfl | rfl <;> exact ⟨by unfold Issues; decide, by decide⟩
  · simp only [List.mem_cons, List.not_mem_nil, or_false] at he
    rcases he with rfl | rfl | rfl <;> exact ⟨by unfold Issues; decide, by decide⟩

/-- With a destination and without one; and a location of the core's own scratchpad that nothing has marked. -/
theorem meets_AtomicsIssue :
    (∀ d ∈ [Opd.s 5, Opd.zero], let o : Ops := tOps d (.s 2) .none (.s 8) 0#32
      Issues (.atom o false .die .ar .add) tMem ∧ tGoes (tFound (.atom o false .die .ar .add) o true ⟨.atomic, 4, 4, false, false, true⟩) = true)
    ∧ (let o : Ops := tOps .zero (.s 2) .none (.s 8) 0#32
      Issues (.red o true .die .plain .umax) tMem ∧ tGoes (tFound (.red o true .die .plain .umax) o true ⟨.atomic, 8, 8, false, false, true⟩) = true)
    ∧ (AOp.add ≠ .fadd ∧ AOp.add ≠ .fminn ∧ AOp.add ≠ .fmaxn)
    ∧ ((tMem.core 0).stale = [] ∧ (tMem.core 0).spPois = [] ∧ (tMem.core 0).lost = false)
    ∧ ∃ (o : Ops) (bs : List Byte) (d : BitVec 8), bs.length = 8 ∧ o.d = .v d := by
  refine ⟨fun d hd => ?_, ⟨by unfold Issues; decide, by decide⟩, by decide, by decide, tLdV, List.replicate 8 0#8, 5#8, rfl, rfl⟩
  simp only [List.mem_cons, List.not_mem_nil, or_false] at hd
  rcases hd with rfl | rfl <;> exact ⟨by unfold Issues; decide, by decide⟩

/-- Group 0 of one thread that waits in `i`. -/
def tWait (i : Instr) : State := { tOn { tGroup 1#32 with threads := [(0, tTh 12#64 (some i))] } with cur := ⟨0, 0#32, 0, 0, 0#32⟩ }
theorem tWait_all (i : Instr) : ∀ l, ((tWait i).group 0).fmask.getLsbD l = true → (((tWait i).group 0).thread l).wait = some i :=
  fun l h => by cases tLane0 h rfl; rfl

theorem meets_FencesReturn :
    (∃ o scope s, Issues (.fence o scope) s ∧ Straight s) ∧ (∃ o scope s, Issues (.fenceG o scope) s ∧ o.g = Guard.always)
    ∧ (∃ o p scope s, Issues (.fencex o p scope) s ∧ o.g = Guard.always)
    ∧ (∃ (g : Nat) (lane : BitVec 5) (o : Ops) (scope : Scope) (s : State), (s.group g).fmask.getLsbD lane.toNat = true
      ∧ ((s.group g).thread lane.toNat).wait = some (.fence o scope)
      ∧ (∀ l, (s.group g).fmask.getLsbD l = true → ∀ o' p' sc', ((s.group g).thread l).wait ≠ some (.fenceG o' sc')
        ∧ ((s.group g).thread l).wait ≠ some (.fencex o' p' sc'))
      ∧ loadsStand (s.group g) lane.toNat = false ∧ msgsStand s g scope = false
      ∧ (∀ e ∈ ((s.group g).thread lane.toNat).loops.head?, e.stop ≠ ((s.group g).thread lane.toNat).pc)
      ∧ (o.d.isV || o.d.isZero) = true
      ∧ (((sendMarkers (fenceAt s g (1#32 <<< lane.toNat) scope) g (1#32 <<< lane.toNat) scope).group g).thread lane.toNat).fail.sound)
    ∧ (∃ (o : Ops) (scope : Scope) (s : State) (gid : Nat), (o.d.isS || o.d.isZero) = true ∧ (s.group gid).lds = [] ∧ msgsStand s gid scope = false
      ∧ (s.group gid).fmask ≠ 0#32 ∧ (∀ l, (s.group gid).fmask.getLsbD l = true → ((s.group gid).thread l).wait = some (.fenceG o scope))
      ∧ ∀ f ∈ (lanesIn (s.group gid).fmask).map (fun l => (((sendMarkers (fenceAt s gid 0xFFFFFFFF#32 scope) gid 0xFFFFFFFF#32 scope).group gid).thread l).fail),
        f.sound)
    ∧ ∃ (o : Ops) (p : BitVec 5) (scope : Scope) (s : State) (gid : Nat), (o.d.isS || o.d.isZero) = true ∧ pathsDone s gid p scope = true
      ∧ (s.group gid).fmask ≠ 0#32 ∧ (∀ l, (s.group gid).fmask.getLsbD l = true → ((s.group gid).thread l).wait = some (.fencex o p scope))
      ∧ ∀ f ∈ (lanesIn (s.group gid).fmask).map (fun l => (((crossFence (if p.getLsbD 0 then sendMarkers (fenceAt s gid 0xFFFFFFFF#32 scope) gid 0xFFFFFFFF#32 scope
          else s) gid p p).group gid).thread l).fail), f.sound :=
  ⟨⟨tOps (.v 5) .none .none .none 0#32, .pkg, tS, by unfold Issues; decide, tS_straight⟩,
    ⟨tOps (.s 5) .none .none .none 0#32, .die, tS, by unfold Issues; decide, rfl⟩,
    ⟨tOps (.s 5) .none .none .none 0#32, 31#5, .sys, tS, by unfold Issues; decide, rfl⟩,
    ⟨0, 0#5, tOps (.v 5) .none .none .none 0#32, .die, tWait (.fence (tOps (.v 5) .none .none .none 0#32) .die), by decide, by decide,
      fun l h => by rw [tWait_all _ l h]; simp, by decide, by decide, by decide, by decide, by unfold FailRec.sound; decide⟩,
    ⟨tOps (.s 5) .none .none .none 0#32, .die, tWait (.fenceG (tOps (.s 5) .none .none .none 0#32) .die), 0, by decide, by decide, by decide, by decide,
      tWait_all _, by unfold FailRec.sound; decide⟩,
    tOps (.s 5) .none .none .none 0#32, 3#5, .die, tWait (.fencex (tOps (.s 5) .none .none .none 0#32) 3#5 .die), 0, by decide, by decide, by decide,
    tWait_all _, by unfold FailRec.sound; decide⟩

/-- A load with two words left to write; an access of lane 0 to the scratchpad. -/
def tLdRec : LoadRec := ⟨1, .ld tLdV .normal .thr .plain .b32, [], [], [⟨0, 5, 5#32⟩, ⟨1, 5, 6#32⟩], [(3, 9#64)], [(0, 1#5)], [(1, 0x40#64)]⟩
def tAcS (n : Nat) (data : List Byte) : Access := ⟨0, 0xFF00000000000040#64, 0xFF00000000000040#64, 0#64, .sp 0 0x40, data, 0, n, 1#32⟩
def tStO : Ops := tOps .none (.v 2) .none (.v 4) 0#32
def tStI : Instr := .st tStO .normal .thr .plain .b64
def tSts : State := tOn { tG with sts := [⟨1, tStI, [tAcS 8 (List.replicate 8 7#8)], false⟩] }
theorem meets_LoadStoreEvents :
    (∃ (g ix : Nat) (s : State) (r : LoadRec), (s.group g).lds[ix]? = some r ∧ r.todo = [] ∧ (r.vw.map fun w => (w.lane, w.reg)).Nodup
      ∧ (∀ w ∈ r.vw, w.lane < 32) ∧ (r.sw.map Prod.fst).Nodup ∧ r.vw.length = 2)
    ∧ (let i : Instr := .ld tLdV .normal .thr .plain .b32
      let r : LoadRec := ⟨1, i, [tAcS 4 []], [], [], [], [], []⟩
      let s := tOn { tG with lds := [r] }
      (s.group 0).lds[0]? = some r ∧ ((s.group 0).lds.map LoadRec.seq).Nodup ∧ pickParts 1#32 r.todo = [tAcS 4 []]
        ∧ (s.group 0).before ⟨true, 1, i, tAcS 4 []⟩ = []
        ∧ (let q := r.arrive (tAcS 4 []) (access s 0 i (tAcS 4 [])).1; q.spent = false ∧ q.fl = [] ∧ q.pois = []))
    ∧ ((tSts.group 0).sts[0]? = some ⟨1, tStI, [tAcS 8 (List.replicate 8 7#8)], false⟩ ∧ ((tSts.group 0).sts.map StoreRec.seq).Nodup
      ∧ (∀ q ∈ (tSts.group 0).sts, q.accs ≠ []) ∧ tStO.c = .v (BitVec.ofNat 8 4) ∧ (tAcS 8 (List.replicate 8 7#8)).formed tStO
      ∧ ∀ data ∈ [List.replicate 8 7#8, List.replicate 4 0#8 ++ List.replicate 4 7#8],
        ((tSts.modGroup 0 fun h => { h with sts := [⟨1, tStI, [tAcS 8 data], false⟩] }).group 0).before ⟨false, 1, tStI, tAcS 8 data⟩ = [])
    ∧ ∃ (g : Nat) (lane : BitVec 5) (s : State) (a : W64), ((s.group g).thread lane.toNat).pend = some a ∧ ((s.group g).thread lane.toNat).wait = none
      ∧ (s.group g).fmask.getLsbD lane.toNat = true :=
  ⟨⟨0, 0, tOn { tG with lds := [tLdRec] }, tLdRec, by and_intros <;> decide⟩, by decide,
    ⟨by decide, by decide, by decide, by decide, by unfold Access.formed; decide, by decide⟩,
    0, 0#5, tOn { tG with threads := [(0, { tTh 0#64 none with pend := some 0x40#64 })] }, 0x40#64, by and_intros <;> decide⟩
/-- A core with no mark on its scratchpad, every link up, and a line of its L1 held. -/
def tUp : State := { (tMem.modCore 0 fun c => { c with l1 := [(0x200, ⟨List.replicate 128 3#8, 0#128, false, false, false, 0#32, false⟩)] }) with
  hub := { tMem.hub with watis := 3#2 } }
theorem meets_LoadStoreEvents_places : linksUp tUp ∧ (tUp.core 0).stale = [] ∧ (tUp.core 0).spPois = [] ∧ (tUp.core 0).lost = false
    ∧ tUp.mem.isPois (0x8000 / 128) = false ∧ 0x8000 % 128 + 8 ≤ 128
    ∧ ∀ e ∈ (tUp.core 0).l1, e.2.gone = false ∧ e.2.pois = false ∧ e.2.data.length = 128 :=
  ⟨by unfold linksUp; decide, by and_intros <;> decide⟩

/-- Two paths that have not seen a word yet; a page of kind SO; a line of the L1, and a byte of another. -/
theorem meets_StoredBytesReadBack :
    (∃ (s : State) (c : Nat), (∀ e ∈ (s.core c).stale, e.prod < 5 ∧ e.view < 5) ∧ (s.core c).stale.length = 2)
    ∧ (∃ (s : State) (x : Xl) (bs : List Byte), s.mem.wf = true ∧ x.kind = 0 ∧ bs.length = x.len ∧ linksUp s)
    ∧ (tUp.mem.wf = true ∧ linksUp tUp ∧ Tbl.sorted (tUp.core 0).l1 = true ∧ 0x8010 % 128 + 2 ≤ 128
      ∧ (∀ e ∈ (tUp.core 0).l1, e.2.data.length = 128 ∧ e.2.gone = false) ∧ Tbl.find (2 * (0x8000 / 128) + 1 - false.toNat) (tUp.core 0).l1 = none
      ∧ Tbl.find (2 * (0x8012 / 128) + 1) (tUp.core 0).l1 = none) :=
  ⟨⟨tMem.modCore 0 fun c => { c with stale := [⟨1, 0, 0, 0, [(0#8, false)], false⟩, ⟨2, 0, 0, 0, [(0#8, false)], false⟩] }, 0, by decide, by decide⟩,
    ⟨tUp, ⟨0x8000, 2, 0, 5⟩, [1#8, 2#8], by decide, rfl, rfl, by unfold linksUp; decide⟩,
    by decide, by unfold linksUp; decide, by and_intros <;> decide⟩


/-! The matrix engine -/

/-- The mapped core with one thread: s2 and s4 at 0xFF:0, s6 at 0xFF:0x10000, s8 global, s10 a stride of 512. -/
def tMat : State := tMem.modGroup 0 fun g => (((((g.setU 2 0xFF00000000000000#64).setU 5 0xFF00000000000000#64).setU 4 0xFF00000000000000#64).setU 6 0xFF00000000010000#64).setU 8 0x8000#64).setU 10 512#64
def tAcc0 : Opd := .acc 0#5
def tVal (o : Ops) (d : Opd) : W64 := rd64 tMat.here (tMat.env 0) o.imm 0 d
def tSnd (d : Opd) : W64 := match d with | .s n => tMat.here.ureg (n.toNat + 1) | _ => 0#64
theorem meets_MatrixOperationsQueue_products :
    (∃ (o : Ops) (z : Bool), Issues (.mmaS o z) tMat ∧ spHolds tMat 0 (tVal o o.a) 128 (32 * (o.fmta.k * elemBits o.fmta / 8))
      ∧ spHolds tMat 0 (tVal o o.b) 128 (128 * (o.fmtb.k * elemBits o.fmtb / 8))
      ∧ (o.fmta.isMx = true → spHolds tMat 0 (tVal o o.c) 16 (32 * (o.fmta.k / 32)))
      ∧ (o.fmtb.isMx = true → spHolds tMat 0 (tSnd o.c) 16 (128 * (o.fmtb.k / 32))) ∧ o.fmta.isMx = true)
    ∧ (∃ o ru z, Issues (.mmaP o ru z) tMat ∧ pairOkAt tMat tMat.cur.gid = false)
    ∧ (∃ o sel, Issues (.accz o sel) tMat) ∧ ∃ o, Issues (.smxf o) tMat :=
  ⟨⟨tOps tAcc0 (.s 2) (.s 6) (.s 4) 0xAA#32, false, by unfold Issues; decide, by unfold spHolds; decide, by unfold spHolds; decide,
      fun _ => by unfold spHolds; decide, fun _ => by unfold spHolds; decide, by decide⟩,
    ⟨tOps tAcc0 (.v 0) (.s 2) .none 0x11#32, false, false, by unfold Issues; decide, by decide⟩,
    ⟨tOps tAcc0 .none .none .none 0#32, .ml, by unfold Issues; decide⟩, tOps tAcc0 .none .none .none 0#32, by unfold Issues; decide⟩
theorem meets_MatrixOperationsQueue_tiles :
    (∃ (o : Ops) (fmt : Fmt), Issues (.accld o .data fmt) tMat ∧ 128 * (elemBits fmt / 8) = 512 ∧ tVal o o.b = 512#64
      ∧ rowsHold (rereadRows tMat (here_ (.accld o .data fmt) tMat) (tVal o o.a) 32 512 512) 0 .load (tVal o o.a) 32 512 512 [])
    ∧ ∃ (o : Ops) (xl : List (List Xl)), Issues (.accst o false .rne .fl .fp32) tMat ∧ rowsHold tMat 0 .store (tVal o o.a) 1 4 4 xl ∧ xl ≠ [] :=
  ⟨⟨tOps tAcc0 (.s 2) (.s 10) .none 0#32, .fp32, by unfold Issues; decide, by decide, by decide, .inl ⟨by unfold spHolds; decide, rfl⟩⟩,
    tOps .none (.s 8) .zero tAcc0 0#32, [[⟨0x8000, 4, 2, 0⟩]], by unfold Issues; decide,
      .inr ⟨by decide, by decide, by decide, fun r x h => by
        match r with
        | 0 =>
          cases h
          exact ⟨by decide, by decide, fun ls hl => absurd hl (by rw [show (tMat.ctx 0 _).leases = none from rfl]; simp), by decide⟩
        | n + 1 => simp at h⟩, by decide⟩
theorem meets_MatrixOperationsQueue_rows :
    (∃ o, Issues (.accscl o true) tMat ∧ spHolds tMat 0 (tVal o o.a) 128 128) ∧ (∃ o nv, Issues (.smx o nv) tMat ∧ spHolds tMat 0 (tVal o o.c) 128 8192)
    ∧ (∃ o, Issues (.mred o true) tMat ∧ spHolds tMat 0 (tVal o o.c) 128 512)
    ∧ (∃ (o : Ops), Issues (.mtrld o false) tMat
      ∧ rowsHold (rereadRows tMat (here_ (.mtrld o false) tMat) (tVal o o.a) 128 512 256) 0 .load (tVal o o.a) 128 512 256 []
      ∧ spHolds tMat 0 (tVal o o.c) 128 32768
      ∧ region (tVal o o.a) = 0xFF ∧ ((tVal o o.a).extractLsb' 0 56).toNat = 0 ∧ ((tVal o o.c).extractLsb' 0 56).toNat = 0x10000
      ∧ ∀ r, r < 128 → 0 + r * 512 + 256 ≤ 0x10000)
    ∧ ∃ (o : Ops) (nv : BitVec 8), Issues (.smx o nv) tMat ∧ region (tVal o o.c) ≠ 0xFF :=
  ⟨⟨tOps tAcc0 (.s 2) .none .none 0#32, by unfold Issues; decide, by unfold spHolds; decide⟩,
    ⟨tOps tAcc0 (.acc 1) .imm (.s 6) 0x3F800000#32, 128#8, by unfold Issues; decide, by unfold spHolds; decide⟩,
    ⟨tOps .none tAcc0 .none (.s 6) 0#32, by unfold Issues; decide, by unfold spHolds; decide⟩,
    ⟨tOps .none (.s 2) (.s 10) (.s 6) 0#32, by unfold Issues; decide, .inl ⟨by unfold spHolds; decide, rfl⟩, by unfold spHolds; decide, by decide, by decide,
      by decide, by omega⟩,
    tOps tAcc0 (.acc 1) .imm (.s 8) 0x3F800000#32, 0#8, by unfold Issues; decide, by decide⟩
/-- A stride below the row of 512, above 2^24, or not a multiple of 16. -/
theorem meets_MatrixOperationsQueue_strides : ∀ st : W32, st = 511#32 ∨ st = 0x1000010#32 ∨ st = 520#32 →
    Issues (.accld (tOps tAcc0 (.s 2) .imm .none st) .data .fp32) tMat ∧ Issues (.mtrld (tOps .none (.s 2) .imm (.s 6) st) false) tMat :=
  fun _ _ => ⟨⟨by decide, nofun, rfl, rfl, fun _ => ⟨rfl, .inl (by decide)⟩⟩, by decide, nofun, rfl, rfl, fun _ => ⟨rfl, .inl (by decide)⟩⟩

/-- An entry of the sequencer of group 0. -/
def tEnt (i : Instr) : SeqEnt := ⟨1, [], i, 0, 0, false, 0, [], 0xFF00000000000000#64, 0#64, 0xFF00000000010000#64, 0#64⟩
theorem meets_MatrixProducts : ∃ (o : Ops) (ru z : Bool) (e : SeqEnt) (r : Nat), (e.ins = .mma o ru z ∨ e.ins = .mmaS o z ∨ e.ins = .mmaP o ru z)
    ∧ r < 32 ∧ o.kn ≤ o.fmta.k ∧ (o.a.isV = true → o.fmta = .bf16) :=
  ⟨tOps tAcc0 (.v 192) (.s 2) .none 0x8011#32, true, true, tEnt (.mma (tOps tAcc0 (.v 192) (.s 2) .none 0x8011#32) true true), 31, .inl rfl, by and_intros <;> decide⟩

theorem meets_MatrixRowOperations :
    (∀ fmt ∈ [Fmt.fp32, .bf16, .fp16], ∃ (o : Ops) (e : SeqEnt), e.ins = .accld o .data fmt
      ∧ (matRead tMat 0 e e.a (if e.b = 0#64 then 128 * (elemBits fmt / 8) else e.b.toNat) 31 (128 * (elemBits fmt / 8))).length = 128 * (elemBits fmt / 8))
    ∧ (∃ (o : Ops) (e : SeqEnt), e.ins = .accst o true .rz .data .e5m2) ∧ (∃ (o : Ops) (e : SeqEnt), e.ins = .accscl o true)
    ∧ (∃ (o : Ops) (e : SeqEnt), e.ins = .smxf o) ∧ (∃ (o : Ops) (e : SeqEnt), e.ins = .mred o false) ∧ (∃ (o : Ops) (e : SeqEnt), e.ins = .mred o true)
    ∧ (∃ xs : List (Nat × Bool), (∃ x ∈ xs, x.2 = true) ∧ xs.length = 128)
    ∧ (∃ (o : Ops) (e : SeqEnt), e.ins = .mtrld o true
      ∧ (matRead tMat 0 e e.a (if e.b = 0#64 then 128 * 1 else e.b.toNat) 255 (128 * 1)).length = 128 * 1)
    ∧ ∃ (o : Ops) (e : SeqEnt), e.ins = .accz o .fl :=
  ⟨fun fmt hf => ⟨_, tEnt (.accld (tOps tAcc0 (.s 2) .zero .none 0#32) .data fmt), rfl, by revert fmt; decide⟩,
    ⟨_, tEnt (.accst (tOps .none (.s 2) .zero tAcc0 0#32) true .rz .data .e5m2), rfl⟩, ⟨_, tEnt (.accscl (tOps tAcc0 (.s 2) .none .none 0#32) true), rfl⟩,
    ⟨_, tEnt (.smxf (tOps tAcc0 .none .none .none 0#32)), rfl⟩, ⟨_, tEnt (.mred (tOps .none tAcc0 .none (.s 2) 0#32) false), rfl⟩,
    ⟨_, tEnt (.mred (tOps .none tAcc0 .none (.s 2) 0#32) true), rfl⟩, ⟨List.replicate 128 (0x3F800000, true), by decide, by decide⟩,
    ⟨_, tEnt (.mtrld (tOps .none (.s 2) .zero (.s 6) 0#32) true), rfl, by decide⟩, _, tEnt (.accz (tOps tAcc0 .none .none .none 0#32) .fl), rfl⟩

/-- Scores of −∞ under a maximum of −∞, and finite scores; a tile with no mark, and one with its last valid column marked. -/
theorem meets_OnlineSoftmaxRow :
    ((tMat.core 0).tileP = [] ∧ ∃ (o : Ops) (e : SeqEnt), e.ins = .smx o 0#8)
    ∧ (let s := tMat.modCore 0 fun c => { c with tileP := [(4096 + 127, ())] }
      let e := tEnt (.smx (tOps tAcc0 (.acc 1) .imm (.s 6) 0#32) 128#8)
      tileMark (s.core 0) (entTile s 0 e (.acc 1)) 0 127 = true)
    ∧ ∀ x ∈ [0xFF800000, 0x3F800000], ∃ (scale m : Nat) (sc o : List Nat), sc.length = 128 ∧ o.length = 128 ∧ (∀ y ∈ sc, y < 2 ^ 32) ∧ m < 2 ^ 32
      ∧ (∀ j, j < 128 → (fmulAs fmt32 .rne (fmt32.decode scale) (fmt32.decode (nth 0 j sc))).bits = x)
      ∧ (x = 0xFF800000 → m = 0xFF800000) ∧ (x = 0x3F800000 → (fmt32.decode m).isNan = false ∧ (fmt32.decode x).isNan = false) :=
  ⟨⟨by decide, _, tEnt (.smx (tOps tAcc0 (.acc 1) .imm (.s 6) 0#32) 0#8), rfl⟩, by decide,
    fun x hx => ⟨0x3F800000, 0xFF800000, List.replicate 128 x, List.replicate 128 0,
    by simp, by simp, by revert x; decide, by decide, by revert x; decide, fun _ => rfl, fun _ => by revert x; decide⟩⟩

/-- An operation at the head of the queues it needs, begun or not, and one whose varying A the latch holds; one whose pair is not yet at its head, one
of an ended job, and one of a halted team. -/
def tEng (e : SeqEnt) (latch : Option (Nat × List W32)) (pair : Bool) : State :=
  (tMat.modCore 0 fun c => { c with mseq := [e], latch := latch }).modCore 1 fun c => { c with mseq := if pair then [e] else [] }
def tMmaP : Instr := .mmaP (tOps tAcc0 (.v 0) (.s 2) .none 0x11#32) false false
theorem meets_MatrixEngineSteps :
    (∀ i ∈ [Instr.mma (tOps tAcc0 (.v 192) (.s 2) .none 0x11#32) true true, tMmaP,
        .accz (tOps tAcc0 .none .none .none 0#32) .all], ∀ b ∈ [false, true], ∀ la ∈ [none, some (192, List.replicate 2048 0#32), some (256, [])],
      let e := { tEnt i with started := b }
      ((tEng e la true).core 0).mseq = [e] ∧ matHead (tEng e la true) e = true ∧ 0 ∈ matCores e ∧ e.old ≠ 2 ∧ entHalted (tEng e la true) e = false)
    ∧ (let e := { tEnt tMmaP with old := 2 }; ((tEng e none true).core 0).mseq = [e] ∧ matHead (tEng e none true) e = true ∧ e.started = false)
    ∧ matHead (tEng (tEnt tMmaP) none false) (tEnt tMmaP) = false
    ∧ entHalted ((tEng (tEnt tMmaP) none true).modTeam 0 fun t => { t with st := .halted }) (tEnt tMmaP) = true
    ∧ (∃ s k, (State.team s k).st ≠ .restoring) ∧ ∃ s, (State.core s 0).mseq = [] := by
  refine ⟨?_, by decide, by decide, by decide, ⟨tMat, 0, by decide⟩, tMat, by decide⟩
  intro i hi b _ la hl
  simp only [List.mem_cons, List.not_mem_nil, or_false] at hi hl
  rcases hi with rfl | rfl | rfl <;> rcases hl with rfl | rfl | rfl <;>
    exact ⟨rfl, by revert b; decide, by revert b; decide, by revert b; decide, by revert b; decide⟩

/-! Copies -/

/-- A template: control and offset words, source 0x8000, a tile of 64 by `th` BF16 elements of a matrix of 64 by 4, and the bytes it lands. -/
def tTmpl (ctrl bofs th : Nat) : BitVec 512 :=
  BitVec.ofNat 512 (natOf (bytesOf 4 ctrl ++ bytesOf 4 bofs ++ bytesOf 8 0x8000 ++ bytesOf 2 64 ++ bytesOf 2 th ++ bytesOf 2 1 ++ bytesOf 2 0 ++ bytesOf 4 64 ++ bytesOf 4 4
    ++ bytesOf 4 1 ++ bytesOf 4 (128 * th) ++ bytesOf 8 128))
def tImg : BitVec 512 := tTmpl 0x110 0x1000 4

/-- A copy word: slot, landing offset and word offset in units of 16 bytes. -/
def tCw (slot lofs bdel : Nat) : BitVec 128 := BitVec.ofNat 128 (slot + 2 ^ 88 * lofs + 2 ^ 105 * bdel)
/-- Slot 0 holds `tImg`, slot 1 a multicast of it; s12 points to channel 1 and s14 holds the word. -/
def tCpy (w : BitVec 128) : State :=
  (tMat.modGroup 0 fun g => ((g.setU 12 0xFC00000000000080#64).setU 14 (w.extractLsb' 0 64)).setU 15 (w.extractLsb' 64 64)).modCore 0
    fun c => { c with tmpl := [(0, tImg), (1, tTmpl 0x10110 0x1000 4)] }
def tCopy : Ops := tOps .none (.s 12) .none (.s 14) 0#32

theorem tCpy_issues : ∀ i ∈ [Instr.copy tCopy, .st tCopy .nt .thr .plain .b128], ∀ n ∈ [0, 8160, 8161, 0x1000], Issues i (tCpy (tCw 0 n 0)) := by
  intro i hi n h; simp only [List.mem_cons, List.not_mem_nil, or_false] at h hi
  rcases hi with rfl | rfl <;> rcases h with rfl | rfl | rfl | rfl <;> exact ⟨by decide, nofun, rfl, rfl, fun _ => ⟨rfl, .inl (by decide)⟩⟩
/-- The word is good, and past the last byte; the landing meets the word; the slot is empty; a zero field is not zero; a multicast has no cluster. -/
theorem meets_CopyUnitInstructions_copy :
    (∀ i ∈ [Instr.copy tCopy, .st tCopy .nt .thr .plain .b128], ∀ n ∈ [0, 8160, 8161, 0x1000], Issues i (tCpy (tCw 0 n 0)))
    ∧ tCopy.copyShape = true ∧ tCopy.c = .s 14
    ∧ (let a := addrOf (tCpy (tCw 0 0 0)).here ((tCpy (tCw 0 0 0)).env 0) tCopy 0; region a = 0xFC ∧ a.extractLsb' 10 46 = 0#46 ∧ a.extractLsb' 0 7 = 0#7)
    ∧ ([(tCw 0 0 0, true, true), (tCw 0 8160 0, true, true), (tCw 0 8161 0, false, true), (tCw 0 0x1000 0, true, false)].all fun (w, fits, apart) =>
        let s := tCpy w
        let t := parseTmpl tImg
        s.tmplOf 0 0 == some tImg && (receivers t (memberCores s 0) 0).contains 0
        && decide (landAt s 0 w + t.extent ≤ s.spLimit 0 ∧ wordAt s 0 t w + 16 ≤ s.spLimit 0) == fits
        && decide (landAt s 0 w + t.extent ≤ wordAt s 0 t w ∨ wordAt s 0 t w + 16 ≤ landAt s 0 w) == apart) = true
    ∧ (tCpy 0).tmplOf 0 2 = none ∧ (parseTmpl (tTmpl 0x10110 0x1000 4)).mcast = 1#12 ∧ memberCores (tCpy 0) 0 = []
    ∧ (let o : Ops := tOps .none (.s 8) .none (.s 14) 0#32
      let s := tCpy 0
      let x := here_ (.copy o) s
      let f : Form := ⟨.store, 16, 1, false, false, true⟩
      Issues (.copy o) s ∧ region (addrOf s.here (s.env 0) o 0) ≠ 0xFC
        ∧ tGoes (checkAll x true f (laneAddr s.here x.env o) (rereadAll x true f (laneAddr s.here x.env o) s)) = true) :=
  ⟨tCpy_issues, by decide, rfl, by decide, by decide, by decide, by decide, by decide,
    ⟨by decide, nofun, rfl, rfl, fun _ => ⟨rfl, .inl (by decide)⟩⟩, by decide, by decide⟩

/-- A word that is right, in the wrong region, misaligned, and past the last byte. -/
theorem meets_CopyUnitInstructions_words : ∀ p ∈ [0xFF0000000001FFF0#64, 0x8000#64, 0xFF00000000000008#64, 0xFF00000000020000#64],
    let s := tMat.modGroup 0 fun g => g.setU 2 p
    (∀ i ∈ [Instr.barinit (tOps .none (.s 2) .imm .none 0#32), .barexp (tOps .none (.s 2) .imm .none 7#32), .barpoll (tOps (.s 3) (.s 2) .none .none 0#32)],
      Issues i s)
    ∧ (Issues (.barwait (tOps .zero (.s 2) .imm .none 1#32) 1#5 false) s)
    ∧ (p = 0xFF0000000001FFF0#64 → wordPtr s 0 p = .ok 0x1FFF0) := by
  intro p hp
  simp only [List.mem_cons, List.not_mem_nil, or_false] at hp
  refine ⟨fun i hi => ?_, ?_, fun h => by subst h; decide⟩
  · simp only [List.mem_cons, List.not_mem_nil, or_false] at hi
    rcases hp with rfl | rfl | rfl | rfl <;> rcases hi with rfl | rfl | rfl <;> exact ⟨by decide, nofun, rfl, rfl, fun _ => ⟨rfl, .inl (by decide)⟩⟩
  · rcases hp with rfl | rfl | rfl | rfl <;> exact ⟨by decide, nofun, rfl, rfl, fun _ => ⟨rfl, .inl (by decide)⟩⟩

/-- A command of basket `b`, the `n`-th of the core. -/
def tCmd1 (b n : Nat) : CopyCmd := ⟨1, tCw 0 0 0, b, n, [], tCopy, 0xFC00000000000080#64, 0#64⟩
/-- Group 0 waits in `i`, with the synchronisation word `word` at 0xFF:0 and commands of these baskets outstanding; its open basket is 9. -/
def tBar (i : Instr) (word : List Byte) (bs : List Nat) : State :=
  let s := tMat.modGroup 0 fun g => { g with threads := [(0, tTh 12#64 (some i))], bcount := 9#32, cps := (bs.zip (List.range 16)).map fun e => tCmd1 e.1 e.2 }
  { (s.setSp 0 0 word) with cur := ⟨0, 0#32, 0, 0, 0#32⟩ }
theorem tBar_all (i : Instr) (w : List Byte) (bs : List Nat) : ∀ l, ((tBar i w bs).group 0).fmask.getLsbD l = true →
    (((tBar i w bs).group 0).thread l).wait = some i := fun l h => by cases tLane0 h rfl; rfl
def tBarw (gn : Bool) : Instr := .barwait (tOps (.s 3) (.s 2) .imm .none 1#32) 1#5 gn
theorem meets_CopyUnitInstructions_waits :
    (∃ o s, Issues (.bwait o) s ∧ o.g = Guard.always) ∧ (∃ o s, Issues (.bseal o) s ∧ o.g = Guard.always)
    ∧ (∀ gn, let s := tBar (tBarw gn) (bytesOf 16 (2 ^ 64 * 2)) []
      (s.group 0).fmask ≠ 0#32 ∧ (∀ l, (s.group 0).fmask.getLsbD l = true → ((s.group 0).thread l).wait = some (tBarw gn))
      ∧ wordPtr s 0 (rd64 (s.group 0) (s.env 0) 1#32 0 (.s 2)) = .ok 0)
    ∧ (∀ bs ∈ [[0, 1], [0, 1, 2]], let s := tBar (.bwait (tNo 2#32)) [] bs
      (s.group 0).fmask ≠ 0#32 ∧ (∀ l, (s.group 0).fmask.getLsbD l = true → ((s.group 0).thread l).wait = some (.bwait (tNo 2#32)))
      ∧ unfinished s 0 = bs.length)
    ∧ ∀ e ∈ [([0, 1, 2, 3, 4, 5, 6, 7], false, 8), ([0, 1, 2, 3, 4, 5, 6, 9], true, 7), ([0, 1, 2, 3, 4, 5, 6, 7, 9], true, 8)],
      let s := tBar (.bseal (tOps (.s 3) .none .none .none 0#32)) [] e.1
      (s.group 0).fmask ≠ 0#32 ∧ openBusy s 0 = e.2.1 ∧ unfinished s 0 = e.2.2 := by
  refine ⟨⟨tNo 2#32, tMat, ⟨by decide, nofun, rfl, rfl, fun _ => ⟨rfl, .inl (by decide)⟩⟩, rfl⟩,
    ⟨tOps (.s 3) .none .none .none 0#32, tMat, ⟨by decide, nofun, rfl, rfl, fun _ => ⟨rfl, .inl (by decide)⟩⟩, rfl⟩,
    fun gn => ⟨by cases gn <;> decide, tBar_all _ _ _, by cases gn <;> decide⟩,
    fun bs hb => ⟨?_, tBar_all _ _ _, ?_⟩, by decide⟩
  · revert bs; decide
  · revert bs; decide

/-- `tset` of the image at 0x8000, good or not as `bad` says. -/
def tTset : Ops := tOps .none (.s 8) .imm .none 31#32
def tSet (w : Option Instr) (slot : W32) (bad : Bool) : State :=
  let s := tMat.modGroup 0 fun g => { g with threads := [(0, tTh 12#64 (w.map fun _ => .tset { tTset with imm := slot }))], cps := [tCmd1 0 4] }
  let s := s.modCore 0 fun c => { c with cseq := 5, tsq := if w.isSome then [(0, 4)] else [] }
  { s with mem := s.mem.pokes 0x8000 (bytesOf 64 (if bad then (tTmpl 0x115 0 4).toNat else tImg.toNat)) }
def tAccess (s : State) (p : W64) : Bool := match tmplAccess s 0 p with | .ok _ => true | .error f => f != fwAPERR
/-- `tset` waits with sequence 4, nothing before it is left, and the image is good or not as `bad` says. -/
def tSeen (slot : W32) (bad : Bool) : Bool :=
  let s := tSet (some (.nop (tNo 0#32))) slot bad
  ((s.group 0).fmask != 0#32) && ((s.core 0).tsq.find? (fun e => e.1 = 0) == some (0, 4)) && ((waitingCmds s 0).all fun x => decide (4 ≤ x.cmd.seq))
    && (match (tmplImage (s.modCore 0 fun c => { c with tsq := [] }) 0 { tTset with imm := slot } 0x8000#64).1 with
      | .ok b => (parseTmpl b).ok == !bad | .error _ => false)
theorem meets_TemplatesInstall :
    (∃ (o : Ops) (s : State), Issues (.tset o) s ∧ o.g = Guard.always ∧ (s.core (cidOf s.cur.gid)).tsq.find? (fun e => e.1 = s.cur.gid) = none
      ∧ tAccess s (captured s o o.a) = true)
    ∧ (∃ (o : Ops) (s : State), Issues (.tset o) s ∧ o.g = Guard.always ∧ (s.core (cidOf s.cur.gid)).tsq.find? (fun e => e.1 = s.cur.gid) = none
      ∧ tmplAccess s s.cur.gid (captured s o o.a) = .error fwAPERR ∧ s.cur.mask &&& s.here.tlanes = 0#32 ∧ endsJob s s.cur.gid fwAPERR = false)
    ∧ tSeen 31#32 false = true ∧ tSeen 32#32 false = true ∧ tSeen 31#32 true = true
    ∧ (tmplImage (tSet (some (.nop (tNo 0#32))) 0#32 false) 0 tTset 0xFD00000000000000#64).1 = .error fwAPERR
    ∧ (∃ x ∈ waitingCmds (tSet (some (.nop (tNo 0#32))) 0#32 false) 0, x.cmd.seq < 5) ∧ (parseTmpl tImg).ok = true := by
  refine ⟨⟨tTset, tSet none 31#32 false, ⟨by decide, nofun, rfl, rfl, fun _ => ⟨rfl, .inl (by decide)⟩⟩, rfl, by decide, by decide⟩,
    ⟨{ tTset with a := .s 2 }, (tSet none 31#32 false).modGroup 0 fun g => g.setU 2 0xFD00000000000000#64,
      ⟨by decide, nofun, rfl, rfl, fun _ => ⟨rfl, .inl (by decide)⟩⟩, rfl, by decide, by rfl, by decide, by decide⟩,
    by decide, by decide, by decide, by rfl, by decide, by decide⟩

/-- Two commands of group 0 wait for channel 1; `n` others are in it, a `tset` of sequence 2 waits or does not, the team runs a job of these leases. -/
def tTake (n : Nat) (held : Bool) (ls : Option (List Lease)) (now : BitVec 128) : State :=
  let s := (tCpy now).modGroup 0 fun g => { g with cps := [tCmd1 0 4, tCmd1 0 3] }
  let s := s.modCore 0 fun c => { c with tsq := if held then [(0, 2)] else []
                                         copies := List.replicate n ⟨0, true, 0, 0, 1, tImg, tCw 0 0 0, none, 0#16, [], none, [], [], none, false⟩ }
  s.modTeam 0 fun t => { t with job := ls.map fun l => { tJob with r := { tJobRec with leases := l } } }
/-- The older command is the oldest that waits, with its template; the channel's room, the earlier `tset` and the footprint are as said, and the word that
its registers now hold could be taken or not. -/
def tTakes (s : State) (full held : Bool) (out : Option Bool) (good : Bool) : Bool :=
  let k : CopyCmd := tCmd1 0 3
  let x : Waiting := ⟨0, true, (s.jobOf 0).map fun j => j.r, k⟩
  let now : BitVec 128 := (s.group 0).ureg 15 ++ (s.group 0).ureg 14
  (waitingCmds s 0).contains x && (waitingCmds s 0).all (fun y => y.cmd.chan != 1 || y == x || decide (3 < y.cmd.seq)) && k.ops.c == .s 14
    && s.tmplOf (s.tidOf 0) 0 == some tImg && decide (16 ≤ ((s.core 0).copies.filter fun y => y.chan = 1).length) == full
    && (s.core 0).tsq.any (fun e => s.tidOf e.1 == s.tidOf 0 && decide (e.2 < 3)) == held
    && (s.jobOf 0).map (fun j => !footprintLeased j.r.leases (parseTmpl tImg) k.word) == out && (copyFault s 0 now).isNone == good
def tRow : List MByte := List.replicate 128 (3#8, true)
theorem meets_CopiesAcceptAndRead :
    tTakes (tTake 0 false none 0) false false none true = true ∧ tTakes (tTake 16 false none 2) true false none false = true
    ∧ tTakes (tTake 0 true none 0) false true none true = true ∧ tTakes (tTake 0 false (some []) 0) false false (some true) true = true
    ∧ tTakes (tTake 0 false (some [⟨0x8000#64, 0x1000#64, true, true⟩]) 0) false false (some false) true = true
    ∧ (let t := parseTmpl tImg
      t.tw * elemBits t.dfmt % 8 = 0 ∧ min t.tw (t.dim0 - t.col0 (tCw 0 0 0)) * elemBits t.sfmt ≤ 8 * tRow.length)
    ∧ ∃ (t : Tmpl) (n : Nat), t.kind ≠ 3 ∧ n < t.td * t.th ∧ (t.kind = 1 ∨ t.td = 1) ∧ n = 3 ∧ t.td * t.th = 4 :=
  ⟨by decide, by decide, by decide, by decide, by decide, by decide, parseTmpl tImg, 3, by decide⟩

/-- A command whose one share of four rows of 128 bytes lands at 0x1000 and is counted at 0, its first row at 0x8000 or in host memory. -/
def tShare : Share := ⟨0, 0, true, 0x1000, 0, 0⟩
def tCp (pa : Nat) (cur : Bool) : Copy :=
  ⟨0, true, 0, 0, 1, tImg, tCw 0 0 0, none, 0#16, [], some [tShare], List.replicate 4 (some [⟨pa, 128, 2, 0⟩]), [], none, cur⟩
/-- Its core with a dead link on the way of the first row, or a poisoned line there, or lost. -/
def tLand (pa : Nat) (cur dead pois lost : Bool) : State :=
  let s := (tCpy 0).modCore 0 fun c => { c with copies := [tCp pa cur], lost := lost }
  let s := s.modDie 0 fun d => { d with links := if dead then [(4, 0)] else [] }
  { s with mem := if pois then s.mem.markPois (0x8000 / 128) else s.mem }
/-- The first part of the share meets a dead path, a poisoned line, a way around, and its curator reaches it, or not. -/
def tMeets (s : State) (x : Copy) (n : Nat) (dead pois around reach : Bool) : Bool :=
  let t := parseTmpl x.tmpl
  let p := nextPart x t tShare (partLen t.dfmt n)
  (s.core 0).copies[0]? == some x && partDead s 0 0 p == dead && (partBytes (readPart s x p) t p).any (fun b => b.2) == pois
    && partReroutes s 0 0 p == around && curatorReaches s 0 0 == reach
/-- Nothing has begun to land, and the source lies in a region that no copy reads. -/
def tBadCp : Copy := ⟨0, true, 0, 0, 1, tImg ||| (0xFE#512 <<< 120), tCw 0 0 0, none, 0#16, [], none, [], [], none, false⟩
def tRead : State := (tCpy 0).modCore 0 fun c => { c with copies := [tBadCp, { tBadCp with bad := some fwRGNPERM }] }
theorem meets_CopiesLand :
    (∃ (s : State) (n m e f : Nat), natOf (s.spBytes 0 4 4) + n + m < 2 ^ 32 ∧ e = 31 ∧ f < 32)
    ∧ tShare.begun = true ∧ tMeets (tLand 0x8000 false false false false) (tCp 0x8000 false) 1 false false true true = true
    ∧ tMeets (tLand 0x8000 false true false false) (tCp 0x8000 false) 128 true false true true = true
    ∧ tMeets (tLand 0x8000 false false true false) (tCp 0x8000 false) 128 false true true true = true
    ∧ tMeets (tLand 0x8000 true true false false) (tCp 0x8000 true) 128 true false true true = true
    ∧ tMeets (tLand 0x8000 true true true false) (tCp 0x8000 true) 128 true true true true = true
    ∧ tMeets (tLand 0x8000 true false false false) (tCp 0x8000 true) 128 false false true true = true
    ∧ tMeets (tLand (2 ^ 51 + 0x8000) true false false false) (tCp (2 ^ 51 + 0x8000) true) 128 true false false true = true
    ∧ tMeets (tLand 0x8000 true false false true) (tCp 0x8000 true) 128 false false true false = true
    ∧ (tShare.word + 16 ≤ tShare.base)
    ∧ ((tRead.core 0).copies[0]? = some tBadCp ∧ tBadCp.shares = none ∧ sourceRows tRead 0 tBadCp (parseTmpl tBadCp.tmpl) = ([], some fwRGNBND)
      ∧ (tRead.core 0).copies[1]? = some { tBadCp with bad := some fwRGNPERM } ∧ (tRead.die 0).pins = [] ∧ (tRead.die 0).tlb = []) :=
  ⟨⟨tMat, 128, 128, 31, 0, by decide⟩, by and_intros <;> decide⟩

/-! Clusters -/

/-- Group 0 runs member 0 of a cluster of cores 0 and 1 that both arrive at barrier 1, bit 0 of it as said; it waits in `w`, an access of it stands or not. -/
def tCl (came : Bool) (w : Option Instr) (busy : Bool) : State :=
  let s := (tCpy 0).modGroup 0 fun g => { g with threads := [(0, tTh 12#64 w)], lds := if busy then [⟨1, .nop (tNo 0#32), [], [], [], [(3, 0#64)], [], []⟩] else [] }
  let s := s.modTeam 0 fun t => { t with job := some { tJob with r := { tJobRec with member := some (0, 0) } }, ovf := [⟨7#32, 1, 0, true, List.replicate 32 5#8⟩] }
  let s : State := { s with clusters := [(0, ⟨[0, 1], 0, 2, 1, true, [.zero, ⟨9#32, if came then 1 else 0, 2, if came then 1 else 0⟩, .zero, .zero], []⟩)] }
  if w.isSome then { s with cur := ⟨0, 0#32, 0, 0, 0#32⟩ } else s
def tC0 : State := tCl false none false
/-- `mrecv` of at most 32 bytes at 0xFF:0x100 into the word at 0xFF:0, of tag `s20` from anyone. -/
def tRecv (tag : W64) (s : State) : State := s.modGroup 0 fun g => (((((g.setU 16 0xFF00000000000100#64).setU 17 32#64).setU 18 0xFF00000000000000#64).setU 20 tag))
def tMrecv : Ops := tOps (.s 3) (.s 16) (.s 20) (.s 18) 0#32
def tMsend (imm : W32) : Ops := tOps .none .imm .zero (.s 16) imm
def tPollO : Ops := tOps (.s 3) (.s 2) (.s 20) .none 0#32
def tClarr : Instr := .clarr (tOps (.s 3) .none .none .none 1#32) 1#5
def tClbar : Instr := .clbar (tOps .none (.s 2) .none .none 1#32) 1#5

theorem meets_ClusterInstructions_out : tMat.clusterOf (tMat.tidOf tMat.cur.gid) = none ∧ Issues tClarr tMat ∧ Issues tClbar tMat
    ∧ Issues (.msend (tMsend 0#32) true) tMat ∧ Issues (.mrecv tMrecv) tMat ∧ Issues (.mprobe tPollO true) tMat ∧ Issues (.mcancel tPollO) tMat :=
  (by and_intros <;> decide)
theorem meets_ClusterInstructions_in : tC0.clusterOf (tC0.tidOf tC0.cur.gid) ≠ none ∧ Issues tClarr tC0 ∧ Issues tClbar tC0
    ∧ Issues (.msend (tMsend 1#32) true) (tRecv 7#64 tC0) ∧ Issues (.msend (tMsend 2#32) true) (tRecv 7#64 tC0) ∧ Issues (.msend (tMsend 1#32) false) (tRecv 7#64 tC0)
    ∧ Issues (.mprobe tPollO true) tC0 ∧ Issues (.mprobe tPollO false) tC0 ∧ Issues (.mcancel tPollO) tC0 ∧ Issues (.mprobe tPollO false) (tRecv (1#64 <<< 40) tC0) :=
  (by and_intros <;> decide)
/-- A waiting `clarr` or `clbar` of group 0 and its barrier, accesses standing and arrived as said. -/
def tArr (i : Instr) (came busy : Bool) : Bool :=
  let s := tCl came (some i) busy
  ((s.group 0).fmask != 0#32) && ((s.group 0).thread 0).wait == some i && pathsDone s 0 1#5 .clu == !busy
    && (match s.clusterOf (s.tidOf 0) with
      | some (_, c, ix) => ix == 0 && (match c.bars[1]? with | some b => b.arrived.getLsbD (32 * ix + (s.posOf 0).2) == came | none => false)
      | none => false)
theorem meets_ClusterInstructions_barriers : tArr tClarr false false = true ∧ tArr tClarr true false = true ∧ tArr tClarr false true = true
    ∧ tArr tClbar false false = true
    ∧ (∀ l, ((tCl false (some tClarr) false).group 0).fmask.getLsbD l = true → (((tCl false (some tClarr) false).group 0).thread l).wait = some tClarr) :=
  ⟨by decide, by decide, by decide, by decide, fun l h => by cases tLane0 h rfl; rfl⟩
/-- A remote load of core 0's own scratchpad, a send in the cluster and past it, and the three ends of a receive. -/
theorem meets_ClusterInstructions_data :
    (∃ (o : Ops) (cnt : Cnt) (d : BitVec 8) (s : State) (t : Target), Issues (.rld o cnt) s ∧ o.d = .v d
      ∧ region (addrOf s.here (s.env s.cur.gid) o 0) = 0xFF
      ∧ checkAccess s s.cur.gid 0 .sup ⟨.load, 256, 256, false, false, true⟩ (addrOf s.here (s.env s.cur.gid) o 0) = .ok t ∧ cnt = .x2)
    ∧ (let a (k : Nat) : Access := ⟨32, 0#64, 0#64, 0#64, .sp 0 (4 * k), [], 4 * k, 4, 3#32⟩
      let r : LoadRec := ⟨1, .rld (tOps (.v 2) (.s 4) .none .none 0#32) .x1, [a 0, a 1], [], [], [], [], []⟩
      (∀ b ∈ r.todo.erase (a 1), b.ofs ≠ (a 1).ofs) ∧ (∀ e ∈ r.got, e.1.ofs ≠ (a 1).ofs) ∧ (a 1).mask.getLsbD ((a 1).ofs / 4 % 32) = true)
    ∧ (let s := tRecv 7#64 tC0
      (s.clusterOf (s.tidOf 0)).isSome = true ∧ (rd64 s.here (s.env 0) 1#32 0 .imm).toNat = 1 ∧ (rd64 s.here (s.env 0) 2#32 0 .imm).toNat = 2
      ∧ region (s.here.ureg 16) = 0xFF ∧ (s.here.ureg 17).toNat = 32)
    ∧ (Issues (.mrecv tMrecv) (tRecv 7#64 tC0) ∧ recvBad (tRecv 7#64 tC0) (here_ (.mrecv tMrecv) (tRecv 7#64 tC0)) tMrecv = false
      ∧ recvBad (tRecv (7#64 + (1#64 <<< 36)) tC0) (here_ (.mrecv tMrecv) (tRecv (7#64 + (1#64 <<< 36)) tC0)) tMrecv = false)
    ∧ (tC0.team 0).ovf.length = 1 ∧ postShare tC0 0 ≠ 0 ∧ (tC0.team 0).posted.length = 0 :=
  ⟨⟨tOps (.v 2) (.s 4) .none .none 0#32, .x2, 2, tMat, .sp 0 0, by unfold Issues; decide, rfl, by decide, by rfl, rfl⟩, by decide, by decide,
    (by and_intros <;> decide), by decide⟩

/-- A posted receive of tag 7 from member 1, and messages that fit it or not. -/
def tPost : Posted := ⟨0xFF00000000000100#64, 32, 0, 7#64 + (1#64 <<< 32), 0#32⟩
def tMsg (tag : W32) : Msg := ⟨tag, 1, 0, true, List.replicate 32 5#8⟩
def tMsgS (posted : List Posted) (held : Nat) (transit : List (Nat × Nat × Msg)) (stalled : List (Nat × Nat × Msg)) : State :=
  let s := tC0.modTeam 0 fun t => { t with posted := posted, ovf := List.replicate held (tMsg 8#32), stalled := stalled }
  { s with clusters := s.clusters.map fun e => (e.1, { e.2 with transit := transit }), cycle := 5000#64 }
def tFits (r : Posted) (m : Msg) : Bool := (r.spec.getLsbD 36 || (r.spec.extractLsb' 32 4).toNat == m.src) && (r.spec.getLsbD 37 || r.spec.extractLsb' 0 32 == m.tag)
  && decide (m.data.length ≤ r.cap)
theorem meets_MessagesArrive :
    (tFits tPost (tMsg 7#32) = true ∧ tFits tPost (tMsg 8#32) = false ∧ ((tMsgS [tPost] 0 [] []).team 0).posted = [tPost])
    ∧ (∃ n, (((tMsgS [] n [] []).team 0).ovf.map fun m => (m.data.length + 127) / 128).sum + 1 ≤ 256 / (pwTeams ((tMsgS [] n [] []).core 0).pword + 1))
    ∧ (256 / (pwTeams ((tMsgS [] 256 [] []).core 0).pword + 1) < (((tMsgS [] 256 [] []).team 0).ovf.map fun m => (m.data.length + 127) / 128).sum + 1)
    ∧ (let s := tMsgS [] 0 [(32, 0, tMsg 7#32), (32, 0, tMsg 8#32)] []
      Tbl.sorted s.clusters = true ∧ (∀ e ∈ s.clusters, e.1 ≠ 0 → e.1 % 2048 ≠ 0 % 2048) ∧ (Tbl.find 0 s.clusters).isSome = true ∧ (s.clusters.all fun e => e.2.launched) = true
      ∧ ((Tbl.find 0 s.clusters).map fun c => (c.transit[0]? == some (32, 0, tMsg 7#32), c.transit[1]? == some (32, 0, tMsg 8#32))) = some (true, true))
    ∧ (let s := tMsgS [] 0 [] [(32, 5000, tMsg 7#32), (32, 4744, tMsg 7#32)]
      (s.team 0).stalled.map (fun e => decide (e.2.1 + 256 * 2 ^ clMsgto (s.core 0).clcfg ≤ s.cycle.toNat)) = [false, true])
    ∧ ∃ b : ClBar, b.arrived.getLsbD 0 = true ∧ 1 ≤ b.count - 1 ∧ b.count - 1 = b.target - 1 :=
  ⟨by decide, ⟨0, by decide⟩, by decide, by decide, by decide, ⟨0, 2, 2, 1⟩, by decide⟩

/-! Hampers, events, accessions and snapshots -/

theorem tOk {ε α : Type} {x : Except ε α} (h : (match x with | .ok _ => true | .error _ => false) = true) : ∃ a, x = .ok a := by
  cases x with
  | ok a => exact ⟨a, rfl⟩
  | error e => cases h

/-- The mapped core with `n` records of team `team` in its hamper, a ring of `2 ^ log` at 0x10000 that holds `used`, and a waiting push; group 0 waits in `w`. -/
def tHam (n team log used : Nat) (w : Option Instr) : State :=
  let s := tMat.modGroup 0 fun g => { g with threads := [(0, tTh 12#64 w)] }
  let s := s.modCore 0 fun c => { c with task := List.replicate n ⟨team, 9#256, none⟩, hrlog := log, hrbase := 0x10000#64, hrput := BitVec.ofNat 32 used,
                                          pushq := [(0, 0, 9#256)] }
  if w.isSome then { s with cur := ⟨0, 0#32, 0, 0, 0#32⟩ } else s
def tPush (imm : W32) : Ops := tOps .none .imm (.s 8) .none imm
def tPop : Ops := tOps (.s 8) .none .none .none 0#32
/-- Both stores of a record into the ring can be made. -/
def tPuts (s : State) : Bool :=
  let c := s.core 0
  let x := partCtx s 0 (s.pnum 0)
  let k := c.hrput.toNat % 2 ^ c.hrlog
  match globalPut s x (c.hrbase + BitVec.ofNat 64 (32 * k)) (bytesOf 32 9) with
  | .ok t => (match globalPut t x (c.hrbase + BitVec.ofNat 64 (32 * 2 ^ c.hrlog + k)) [0#8] with | .ok _ => true | .error _ => false)
  | .error _ => false
/-- Both reads of a record of the ring can be made. -/
def tGets (s : State) : Bool :=
  let c := s.core 0
  let x := partCtx s 0 (s.pnum 0)
  let k := c.hrtake.toNat % 2 ^ c.hrlog
  (match globalBytes s x .load (c.hrbase + BitVec.ofNat 64 (32 * k)) 32 with | .ok _ => true | .error _ => false)
    && (match globalBytes s x .load (c.hrbase + BitVec.ofNat 64 (32 * 2 ^ c.hrlog + k)) 1 with | .ok _ => true | .error _ => false)
theorem meets_HamperAndEventInstructions_push :
    (∀ e ∈ [0x200#32, 0x2#32, 0x0#32], Issues (.hpush (tPush e)) (tHam 0 0 7 0 none))
    ∧ ((0x200#32).setWidth 64).extractLsb' 9 55 ≠ 0#55 ∧ (tHam 0 0 7 0 none).partOf 2 ≠ (tHam 0 0 7 0 none).partOf 0
    ∧ (placePush (tHam 0 0 7 0 none) 0 0 9#256).isSome = true ∧ (placePush (tHam 32 0 0 0 none) 0 0 9#256).isSome = false
    ∧ (placePush (releaseAt (tHam 32 0 0 0 none) 0 .die) 0 0 9#256).isSome = false
    ∧ ((tHam 0 0 7 0 none).core 0).hrput = ((tHam 0 0 7 0 none).core 0).hrtake
    ∧ ((tHam 0 0 7 128 none).core 0).hrput ≠ ((tHam 0 0 7 128 none).core 0).hrtake ∧ 2 ^ 7 ≤ (((tHam 0 0 7 128 none).core 0).hrput - ((tHam 0 0 7 128 none).core 0).hrtake).toNat
    ∧ ¬2 ^ 7 ≤ (((tHam 0 0 7 127 none).core 0).hrput - ((tHam 0 0 7 127 none).core 0).hrtake).toNat ∧ tPuts (tHam 0 0 7 127 none) = true
    ∧ tGets (tHam 31 0 7 127 none) = true := by
  refine ⟨fun e he => ?_, by and_intros <;> decide⟩
  simp only [List.mem_cons, List.not_mem_nil, or_false] at he
  rcases he with rfl | rfl | rfl <;> exact ⟨by decide, nofun, rfl, rfl, fun _ => ⟨rfl, .inl (by decide)⟩⟩
theorem meets_HamperAndEventInstructions_waiting :
    (let s := tHam 0 0 7 0 (some (.hpush (tPush 0#32)));
      (s.core 0).pushq[0]? = some (0, 0, 9#256) ∧ ∃ t, placePush s 0 0 9#256 = some t
        ∧ ∀ l, (t.group 0).fmask.getLsbD l = true → ((t.group 0).thread l).wait = some (.hpush (tPush 0#32)))
    ∧ (∃ (o : Ops) (s : State), Issues (.hpop o) s ∧ o.g = Guard.always)
    ∧ ∀ team ∈ [0, 1], let s := tHam 2 team 0 0 (some (.hpop tPop))
      (s.group 0).fmask ≠ 0#32 ∧ (∀ l, (s.group 0).fmask.getLsbD l = true → ((s.group 0).thread l).wait = some (.hpop tPop))
      ∧ (s.core (cidOf 0)).asleep = false ∧ (s.core (cidOf 0)).task.map (fun r => r.team) = [team, team] ∧ (s.posOf 0).1 = 0 := by
  refine ⟨⟨by decide, _, rfl, fun l h => by cases tLane0 h rfl; rfl⟩, ⟨tPop, tMat, ⟨by decide, nofun, rfl, rfl, fun _ => ⟨rfl, .inl (by decide)⟩⟩, rfl⟩, fun team ht => ?_⟩
  simp only [List.mem_cons, List.not_mem_nil, or_false] at ht
  rcases ht with rfl | rfl <;> exact ⟨by decide, fun l h => by cases tLane0 h rfl; rfl, by and_intros <;> decide⟩

theorem meets_HamperAndEventInstructions_job :
    (Issues (.hpopJ (tNo 0#32)) tMat ∧ userMask tMat.here tMat.cur.mask = 0#32 ∧ (tMat.team (tMat.tidOf tMat.cur.gid)).st = .idle)
    ∧ (Issues (.hpopJ (tNo 0#32)) tC0 ∧ ∃ s, Issues (.hpopJ (tNo 0#32)) s ∧ (s.team (s.tidOf s.cur.gid)).st = .run)
    ∧ (∃ o s, Issues (.hstat o) s ∧ o.d = .s 3) ∧ (∃ o s, Issues (.jdone o) s ∧ o.g = Guard.always)
    ∧ (∃ o s, Issues (.publish o) s ∧ o.d = .s 3) ∧ (∃ o s, Issues (.adopt o) s ∧ o.d = .s 3) ∧ ∃ o s, Issues (.snap o) s ∧ o.d = .s 3 :=
  ⟨⟨⟨by decide, nofun, rfl, rfl, fun _ => ⟨rfl, .inl (by decide)⟩⟩, by decide, by decide⟩, ⟨⟨by decide, nofun, rfl, rfl, fun _ => ⟨rfl, .inl (by decide)⟩⟩,
      tMat.modTeam 0 fun t => { t with st := .run }, ⟨by decide, nofun, rfl, rfl, fun _ => ⟨rfl, .inl (by decide)⟩⟩, by decide⟩,
    ⟨tOps (.s 3) .none .none .none 0#32, tMat, ⟨by decide, nofun, rfl, rfl, fun _ => ⟨rfl, .inl (by decide)⟩⟩, rfl⟩, ⟨tNo 0#32, tMat, ⟨by decide, nofun, rfl, rfl, fun _ => ⟨rfl, .inl (by decide)⟩⟩, rfl⟩,
    ⟨tOps (.s 3) .imm .none .none 1#32, tMat, ⟨by decide, fun _ => by decide, rfl, rfl, fun _ => ⟨rfl, .inl (by decide)⟩⟩, rfl⟩,
    ⟨tOps (.s 3) .none .none .none 0#32, tMat, ⟨by decide, fun _ => by decide, rfl, rfl, fun _ => ⟨rfl, .inl (by decide)⟩⟩, rfl⟩,
    tOps (.s 3) .none .none .none 5#32, tMat, ⟨by decide, fun _ => by decide, rfl, rfl, fun _ => ⟨rfl, .inl (by decide)⟩⟩, rfl⟩

/-- Accelerator 0 in a group of two; `evwait` of slot 5 of die 0 here, or of accelerator 1, whose answer has come or not. -/
def tEv (e : W32) (ans : Bool) : State :=
  let s := tMat.modGroup 0 fun g => { g with threads := [(0, tTh 12#64 (some (.evwait (tOps (.s 3) .imm .none .none e))))] }
  { s with fab := { s.fab with fabcfg := 0x80000800#64, answers := if ans then [(e.toNat, 4#32, false)] else [] }, cur := ⟨0, 0#32, 0, 0, 0#32⟩ }
theorem meets_HamperAndEventInstructions_events :
    (∀ e : W32, Issues (.evsig (tOps .none .imm .zero .none e) .add) tMat ∧ Issues (.evwait (tOps (.s 3) .imm .none .none e)) tMat)
    ∧ (0x10005#32).extractLsb' 16 4 ≠ 0#4 ∧ tMat.inGroup (evAcc 0x400005#32) = false ∧ tMat.inGroup (evAcc 5#32) = true ∧ evAcc 5#32 = tMat.ownAcc
    ∧ (tEv 5#32 false).inGroup (evAcc 0x400005#32) = true ∧ evAcc 0x400005#32 ≠ (tEv 5#32 false).ownAcc
    ∧ (∀ e ans, ((tEv e ans).group 0).fmask ≠ 0#32 ∧ ∀ l, ((tEv e ans).group 0).fmask.getLsbD l = true →
      (((tEv e ans).group 0).thread l).wait = some (.evwait (tOps (.s 3) .imm .none .none e)))
    ∧ (Tbl.find (0x400005#32).toNat (tEv 0x400005#32 true).fab.answers).isSome = true ∧ (Tbl.find (0x400005#32).toNat (tEv 0x400005#32 false).fab.answers).isSome = false
    ∧ ((tEv 5#32 false).slot 0 5).target ≤ ((tEv 5#32 false).slot 0 5).count
    ∧ (let s := (tEv 5#32 false).modDie 0 fun d => { d with cat := [(5, ⟨0#32, 1#32, false⟩)] }
      ¬(s.slot 0 5).target ≤ (s.slot 0 5).count) :=
  ⟨fun _ => ⟨⟨by decide, nofun, rfl, rfl, fun _ => ⟨rfl, .inl (by decide)⟩⟩, by decide, nofun, rfl, rfl, fun _ => ⟨rfl, .inl (by decide)⟩⟩, by decide, by decide, by decide, by decide, by decide, by decide,
    fun e ans => ⟨by show (1#32 : BitVec 32) ≠ 0#32; decide, fun l h => by cases tLane0 h rfl; rfl⟩, by and_intros <;> decide⟩

/-- A finished group, publication with another partition behind, and a record stored or refused. -/
theorem meets_HamperAndEventInstructions_rest :
    (let s := tWait (.jdone (tNo 0#32)); (s.group 0).fmask ≠ 0#32 ∧ pathsDone s 0 0x1F#5 (jobEvScope s 0) = true
      ∧ ∀ l, (s.group 0).fmask.getLsbD l = true → ((s.group 0).thread l).wait = some (.jdone (tNo 0#32)))
    ∧ (∃ p : Part, p.root.getLsbD 0 = true ∧ p.lead = false ∧ accGe p.aacc 2#16 = false)
    ∧ (let o : Ops := tOps .none (.s 8) .none (.s 2) 0#32
      let x := here_ (.tokrec o) tMat
      let w := laneAddr tMat.here x.env o 0
      let f : Form := ⟨.store, 32, 32, false, false, true⟩
      Issues (.tokrec o) tMat ∧ region w.addr = 0 ∧ tGoes (checkAll x true f (fun _ => w) (rereadAll x true f (fun _ => w) tMat)) = true)
    ∧ ∃ (o : Ops) (s : State), Issues (.tokrec o) s ∧ region (addrOf s.here (s.env s.cur.gid) o 0) = 0xFB :=
  ⟨⟨by decide, by decide, tWait_all _⟩, ⟨{ tMat.part 0 with root := 0x20001#64, aacc := 1#16 }, by decide⟩,
    ⟨⟨by decide, nofun, rfl, rfl, fun _ => ⟨rfl, .inl (by decide)⟩⟩, by decide, by decide⟩,
    tOps .none (.s 14) .none (.s 2) 0#32, tMat.modGroup 0 fun g => g.setU 14 0xFB00000000000000#64, ⟨by decide, nofun, rfl, rfl, fun _ => ⟨rfl, .inl (by decide)⟩⟩, by decide⟩

/-! Jobs -/

def tJobR (f : JobRec → JobRec) : Job := { tJob with r := f tJobRec }
/-- Group 0 waits in `hpop.j` or not, a record of team `team` is in the job hamper, and record 5 of its queue holds a header or none. -/
def tLaunch (waits : Bool) (team : Nat) (hdr : Bool) : State :=
  let s := tMat.modGroup 0 fun g => { g with threads := [(0, tTh 12#64 (if waits then some (.hpopJ (tNo 0#32)) else none))] }
  let s := s.modCore 0 fun c => { c with jobs := [{ tJobRec with team := team, recn := 5#32, queue := 1 }] }
  s.modQueue 0 1 fun q => { q with recs := [⟨5#32, .nopRecord ⟨5#16, 0#6, false, false⟩, false, 0#32, false, 0, [], 1, 0#16, [], 0#8, if hdr then some tHdr else none⟩] }
theorem meets_JobLife_takes :
    takesRec (tLaunch true 0 true) 0 = some 0 ∧ takesRec (tLaunch false 0 true) 0 = none ∧ takesRec (tLaunch true 1 true) 0 = none
    ∧ (∃ r h, ((tLaunch true 0 true).core 0).jobs[0]? = some r ∧ jobHeader ((tLaunch true 0 true).modCore 0 fun c => { c with jobs := delNth 0 c.jobs }) 0 r = some h
      ∧ dbgNames (launchJob ((tLaunch true 0 true).modCore 0 fun c => { c with jobs := delNth 0 c.jobs }) 0 ⟨r, h, 0#64⟩) 0 r = false)
    ∧ ∃ r, ((tLaunch true 0 false).core 0).jobs[0]? = some r
      ∧ jobHeader ((tLaunch true 0 false).modCore 0 fun c => { c with jobs := delNth 0 c.jobs }) 0 r = none :=
  ⟨by decide, by decide, by decide, ⟨_, _, rfl, rfl, by decide⟩, _, rfl, by decide⟩
theorem meets_JobLife_launch :
    (let j : Job := { tJob with hdr := { tHdr with xbase := 100 } };
      j.r.member = none ∧ (tMat.capacity 0 : Int) < j.hdr.xbase * (tMat.groupsOf 0).length)
    ∧ (let j : Job := { tJob with hdr := { tHdr with xbase := 0 } }; j.r.member = none ∧ j.hdr.xbase = 0 ∧ 0 ≤ tMat.capacity 0 ∧ 2 ≤ j.hdr.ucount ∧ tMat.groupsOf 0 = [0])
    ∧ ((tMat.modTeam 0 fun t => { t with job := some tJob }).team 0).job = some tJob ∧ tJob.r.member = none :=
  ⟨by decide, by decide, by decide, rfl⟩
/-- A report of a job, while one of its copies is under way or not. -/
def tRep (busy : Bool) : State :=
  let s := tMat.modDie 0 fun d => { d with reports := [⟨0, 0, tJobRec, 0#32, false, [], []⟩] }
  s.modCore 0 fun c => { c with copies := if busy then [⟨0, false, 0, 0, 1, tImg, 0#128, some tJobRec, 0#16, [], none, [], [], none, false⟩] else [] }
theorem meets_JobLife_reports :
    (∀ b ∈ [true, false], ((tRep b).die 0).reports = [⟨0, 0, tJobRec, 0#32, false, [], []⟩]
      ∧ ((tRep b).cores.all fun c => c.2.copies.all fun x => x.job != some tJobRec) = !b ∧ (tRep b).cores.all (fun c => c.2.mseq.isEmpty) = true)
    ∧ tJobRec.member = none ∧ tJobRec.resumed = none ∧ tMat.recOf tJobRec.die tJobRec.queue tJobRec.recn = none
    ∧ (∀ t ∈ [false, true], evAcc (if t then (5#32).extractLsb' 16 16 ++ ((5#32).extractLsb' 0 16 + (9#32).extractLsb' 0 16) else 5#32) = tMat.ownAcc) := by
  decide
/-- A core of which nothing is outstanding, asleep or awake. -/
def tDoze (asleep : Bool) : State := (tLaunch true 0 true).modCore 0 fun c => { c with jobs := [], asleep := asleep }
/-- The team runs or is halted for the cause `why`, with a job that has no scratchpad or tiles to save, and a save area of two images at 0x400000. -/
def tStop (st : TeamSt) (why : Nat) (slots : BitVec 48) (saven : Half) : State :=
  let s := tMat.modTeam 0 fun t => { t with st := st, stopWhy := why, job := some { tJob with hdr := { tHdr with acct := 0, scratch := 0 } } }
  let s := s.modCore 0 fun c => { c with gslots := slots }
  s.setPart 0 { s.part 0 with savebase := 0x400000#64, savesz := 65536#32, saven := saven }
theorem meets_JobLife_halts :
    mayDoze (tDoze false) 0 = true ∧ ((tDoze true).core 0).asleep = true ∧ ((tDoze true).core 0).jobs = [] ∧ ((tDoze false).core 0).asleep = false
    ∧ ((tStop .run 1 1#48 2#16).team 0).st = .run ∧ ((tStop .run 1 1#48 2#16).team 0).stopWhy ≠ 0 ∧ ((tStop .run 1 1#48 2#16).team 0).job.isSome = true
    ∧ (tStop .run 1 1#48 2#16).groupsOf 0 = [0]
    ∧ saveReady (tStop .run 1 1#48 2#16) 0 = false ∧ saveReady (tStop .saving 1 1#48 2#16) 0 = true
    ∧ ((List.range 2).filter fun k => !((tStop .halted 1 1#48 2#16).part 0).saves.contains k) = 0 :: [1] ∧ ((tStop .halted 1 1#48 2#16).part 0).saven = 2#16
    ∧ ((tStop .halted 1 1#48 0#16).part 0).saven = 0#16
    ∧ ((∃ t ∈ jobTeams (tStop .run 1 1#48 2#16) 0, ((tStop .run 1 1#48 2#16).team t).stopWhy ≠ 0) ∧ ∀ t ∈ jobTeams tMat 0, (tMat.team t).stopWhy = 0) :=
  (by and_intros <;> decide)
/-- A job that has ended: its group stopped, its team without another. -/
theorem meets_JobLife_restart : let s := tMat.modGroup 0 fun g => { g with fmask := 0#32 }
    (s.team 0).job = none ∧ (s.team 0).launching = none ∧ s.groupsOf 0 = [0] ∧ (s.group 0).live = true ∧ (s.group 0).fmask = 0#32
    ∧ fitsPool (s.core 0).pword 0 = true := by decide
theorem meets_JobLife_order : [Held.mk [] [] [] [] 0 0 1 0 false 0 0 3, ⟨[], [], [], [], 0, 0, 1, 0, false, 0, 0, 3⟩].Pairwise fun a b => a.ord ≤ b.ord := by decide

/-- A put of some bytes succeeds where a store of their number does. -/
theorem tPut {s : State} {c : Ctx} {a : W64} {bs : List Byte} (n : Nat) (hn : bs.length = n)
    (h : (match globalAccess s c .store a n with | .ok _ => true | .error _ => false) = true) : ∃ v, globalPut s c a bs = .ok v := by
  subst hn
  unfold globalPut
  revert h
  cases globalAccess s c .store a bs.length with
  | ok xs => exact fun _ => ⟨_, rfl⟩
  | error e => intro h; cases h
/-- The image of a team that has no group. -/
theorem meets_JobLife_save :
    let s := tStop .saving 1 0#48 2#16
    let j : Job := { tJob with hdr := { tHdr with acct := 0, scratch := 0 } }
    (s.team 0).job = some j ∧ j.r.member = none ∧ saveReady s 0 = true ∧ imagePois s 0 j.hdr = false
    ∧ (∃ v, globalPut (l1WriteBack s 0 true true) (partCtx (l1WriteBack s 0 true true) 0 (s.pnum 0)) 0x400000#64 (imageBytes (l1WriteBack s 0 true true) 0 j 0) = .ok v)
    ∧ ∃ v, globalPut (l1WriteBack s 0 true true) (partCtx (l1WriteBack s 0 true true) 0 (s.pnum 0)) 0x400000#64 (imageBytes (l1WriteBack s 0 true true) 0 j 4) = .ok v :=
  ⟨rfl, rfl, by decide, by decide, tPut 2304 (by rfl) (by decide), tPut 2304 (by rfl) (by decide)⟩
theorem meets_JobLife_image : (tMat.groupsOf 0).length < 256 ∧ tJob.hdr.acct ≤ 32 ∧ tJob.hdr.scratch ≤ 2 ^ 21 ∧ (teamEntries tMat 0).length ≤ 16
    ∧ (∀ g ∈ tMat.groupsOf 0, (tMat.group g).xblk ≤ 6) ∧ ∀ g ∈ tMat.groupsOf 0, ∀ l, ((tMat.group g).thread l).loops.length ≤ 2 :=
  ⟨by decide, by decide, by decide, by decide, by decide, fun g hg l => by
    have : g = 0 := by simpa [show tMat.groupsOf 0 = [0] from by decide] using hg
    subst this
    exact tAll (P := fun x => x.loops.length ≤ 2) _ (by decide) (by decide) l⟩

/-! Operator records -/

/-- Queue 0 of die 0 runs with PRIVQ at record 5, changed by `f`, its ring at 0x10000; accelerator 0 of a group of two that has no port. -/
def tQ (f : Queue → Queue) : State :=
  let s := (tMat.modDie 0 fun d => { d with dctl := setBit d.dctl 15 true }).modQueue 0 0 fun _ =>
    f { Queue.zero with base := 0x10000#64, ctl := 0xC0000000#32, head := 5#32, done := 5#32, next := 5#32, tail := 12#32 }
  { s with cur := ⟨0, 0#32, 0, 0, 5#32⟩, fab := { s.fab with fabcfg := 0x80000800#64 } }
def tQ0 : State := tQ id
def tRh : RecHdr := ⟨5#16, 0#6, false, false⟩
/-- The checks of a record that launches, as a Bool. -/
def tLau (i : Instr) (s : State) : Bool :=
  launchable s && (match recHeader i with | some h => h.seq == s.cur.recn.setWidth 16 && (!h.b || allDone (s.queue s.cur.die s.cur.queue)) | none => true)
    && (!privKind i || qPriv (s.queue s.cur.die s.cur.queue)) && !recordFault s i
theorem tLaunches {i : Instr} {s : State} (h : tLau i s = true) : Launches i s := by
  simp only [tLau, Bool.and_eq_true, Bool.or_eq_true, Bool.not_eq_true'] at h
  obtain ⟨⟨⟨h1, h2⟩, h3⟩, h4⟩ := h
  refine ⟨h1, fun g hg => ?_, fun hp => ?_, h4, fun g hg hb => ?_⟩
  · rw [hg] at h2; exact (by simpa using h2 : _ ∧ _).1
  · rcases h3 with h3 | h3
    · rw [h3] at hp; cases hp
    · exact h3
  · rw [hg] at h2
    rcases (by simpa using h2 : _ ∧ _).2 with h | h
    · rw [hb] at h; cases h
    · simpa using h
/-- An older record of the queue that has not completed. -/
def tOld (n : W32) (i : Instr) : OpRec := ⟨n, i, false, 0#32, false, 0, [], 1, 0#16, [], 0#8, none⟩
def tWaitOld (q : Queue) : Queue := { q with done := 4#32, head := 4#32, recs := [tOld 4#32 (.nopRecord tRh)] }
theorem meets_RecordsLaunch_order :
    launchable (tQ fun q => { q with tail := 5#32 }) = false
    ∧ (launchable tQ0 = true ∧ (6#16 : Half) ≠ tQ0.cur.recn.setWidth 16)
    ∧ (let s := tQ fun q => { q with ctl := 0x80000000#32 }; launchable s = true ∧ privKind (.adoptRecord tRh) = true ∧ qPriv (s.queue 0 0) = false)
    ∧ recordFault tQ0 (.waitev tRh 0x10005#32) = true ∧ qPriv (tQ0.queue 0 0) = true
    ∧ (let s := tQ tWaitOld; launchable s = true ∧ recordFault s (.nopRecord { tRh with b := true }) = false ∧ allDone (s.queue 0 0) = false)
    ∧ (let x := (tQ tWaitOld).queue 0 0; x.next = 5#32 ∧ x.recs = [tOld 4#32 (.nopRecord tRh)] ∧ x.done = 4#32 ∧ (4#32 : W32) + 1#32 = 5#32) := by decide

def tP3 (arm tile : Bool) : JobP3 := ⟨5#32, true, arm, tile, false, 0#3, false⟩
/-- A worker's header at 0x8000 for an entry at 0x8040, and a save area for its largest image. -/
def tHead (s : State) : State :=
  let s := { s with mem := s.mem.pokes 0x8000 (bytesOf 4 0x484B5848 ++ bytesOf 2 1 ++ [0#8, 6#8, 64#8, 32#8, 0#8, 0#8] ++ bytesOf 4 0 ++ bytesOf 4 0 ++ List.replicate 44 0#8) }
  s.setPart 0 { s.part 0 with savesz := 0x100000#32 }
theorem meets_RecordsLaunch_plain :
    tLau (.nopRecord tRh) tQ0 = true ∧ tLau (.sigev tRh .add 5#32 1#32) tQ0 = true ∧ tLau (.sigev tRh .add 0x400005#32 1#32) tQ0 = true
    ∧ evAcc 5#32 = tQ0.ownAcc ∧ evAcc 0x400005#32 ≠ tQ0.ownAcc
    ∧ tLau (.mark tRh 0x9000#64 7#64) tQ0 = true ∧ globalRegion 0x9000#64 = true ∧ tLau (.mark tRh 0xFF00000000000000#64 7#64) tQ0 = true ∧ globalRegion 0xFF00000000000000#64 = false
    ∧ tLau (.waitev tRh 5#32) tQ0 = true ∧ tLau (.waitev tRh 0x400005#32) tQ0 = true
    ∧ tLau (.waitev tRh 5#32) (tQ fun q => { q with await := some (5#32, some true) }) = true
    ∧ tLau (.waitev tRh 0x400005#32) (tQ fun q => { q with await := some (0x400005#32, none) }) = true
    ∧ tLau (.adoptRecord tRh) tQ0 = true ∧ tLau (.adoptRecord tRh) (tQ tWaitOld) = true ∧ allDone ((tQ tWaitOld).queue 0 0) = false := by decide
theorem meets_RecordsLaunch_leases :
    tLau (.lease tRh true true false 0x8000#64 0x1000#64) tQ0 = true ∧ tLau (.lease tRh true true true 0x8000#64 0x1000#64) tQ0 = true
    ∧ tLau (.lease tRh true true false 0x8000#64 0x1000#64) (tQ fun q => { q with leases := List.replicate 32 ⟨0#64, 128#64, true, true⟩ }) = true
    ∧ tLau (.unlease tRh 0x8000#64 0x1000#64) (tQ fun q => { q with leases := [⟨0#64, 128#64, true, true⟩] }) = true
    ∧ tLau (.unlease tRh 0x8000#64 0x1000#64) (tQ fun q => { q with leases := [⟨0#64, 128#64, true, true⟩, ⟨0x8000#64, 0x1000#64, true, false⟩] }) = true := by decide
theorem meets_RecordsLaunch_jobs :
    tLau (.job tRh 3#24 0x8040#64 9#64 (tP3 true true)) (tHead tQ0) = true
    ∧ headerBad (armEvent (tHead tQ0) (tP3 true true) 3) 0 (qPart ((tHead tQ0).queue 0 0)) false (tP3 true true) (readHeader (tHead tQ0) 0 (qPart ((tHead tQ0).queue 0 0)) 0x8040#64) = false
    ∧ tLau (.job tRh 3#24 0x4040#64 9#64 (tP3 true false)) (tHead tQ0) = true
    ∧ headerBad (armEvent (tHead tQ0) (tP3 true false) 3) 0 (qPart ((tHead tQ0).queue 0 0)) false (tP3 true false) (readHeader (tHead tQ0) 0 (qPart ((tHead tQ0).queue 0 0)) 0x4040#64) = true
    ∧ tLau (.cjob tRh 1#24 0x8040#64 9#64 { tP3 false false with team := 0#3 }) (tHead tQ0) = true :=
  (by and_intros <;> decide)

/-- A LOOP of two records whose body ends in a LOOPEND or not; the LOOPEND of another at record 5, under a condition word. -/
def tLoop (kind : Nat) (tail : W32) (cond : Nat) (l : Option LoopSt) : State :=
  let s := tQ fun q => { q with tail := tail, loop := l }
  { s with mem := ((s.mem.pokes (0x10100 + 32 * 6) (bytesOf 32 (2 ^ 16 * 6))).pokes (0x10100 + 32 * 7) (bytesOf 32 (kind + 2 ^ 16 * 7))).pokes 0x9000 (bytesOf 4 cond) }
def tLoopRec : Instr := .loopRecord tRh 2#16 0x9000#64 0#32 2#8 8#8 3#8 true
theorem meets_RecordsLaunch_loops :
    tLau tLoopRec (tLoop 6 12#32 0 none) = true ∧ bodyBad (tLoop 6 12#32 0 none) 0 0 5#32 2 = false
    ∧ tLau tLoopRec (tLoop 0 12#32 0 none) = true ∧ bodyBad (tLoop 0 12#32 0 none) 0 0 5#32 2 = true
    ∧ tLau tLoopRec (tLoop 6 7#32 0 none) = true ∧ (((tLoop 6 7#32 0 none).queue 0 0).tail - 5#32).toNat ≤ 2
    ∧ (∀ c ∈ [0, 7], tLau (.loopend tRh) (tLoop 6 12#32 c (some ⟨3#32, 2, 0x9000#64, 2#32, 2#8, 8#8, true, 1#32, 3#8⟩)) = true
      ∧ allDone ((tLoop 6 12#32 c (some ⟨3#32, 2, 0x9000#64, 2#32, 2#8, 8#8, true, 1#32, 3#8⟩)).queue 0 0) = true
      ∧ (match docGet (tLoop 6 12#32 c (some ⟨3#32, 2, 0x9000#64, 2#32, 2#8, 8#8, true, 1#32, 3#8⟩)) 0 0 0x9000#64 4 with
        | .ok bs => natOf bs == c | .error _ => false) = true) := by
  refine ⟨by decide, by decide, by decide, by decide, by decide, by decide, fun c hc => ?_⟩
  simp only [List.mem_cons, List.not_mem_nil, or_false] at hc
  rcases hc with rfl | rfl <;> exact (by and_intros <;> decide)
/-- Two requests, of which the second is marked and ends. -/
def tReqs : State := let s := tQ0; { s with mem := (s.mem.pokes 0x9008 (bytesOf 8 0x100000000)).pokes 0xA000 (bytesOf 8 2) }
theorem meets_RecordsLaunch_requests :
    tLau (.endreq tRh 2#16 0x9000#64 0xA000#64) tReqs = true
    ∧ (match docGet tReqs 0 0 0x9000#64 16, docGet tReqs 0 0 0xA000#64 8 with
      | .ok st, .ok ms => natOf ms == 2 && natOf st == 0x100000000 * 2 ^ 64
        && (match docPut tReqs 0 0 0x9000#64 st with
          | .ok t => (match docPut t 0 0 0xA000#64 ms with | .ok _ => true | .error _ => false)
          | .error _ => false)
      | _, _ => false) = true := ⟨by decide, by decide⟩

/-- A partition word of one team for core 0, standing or launching, with a good pool or one of too many teams for its slots. -/
def tPw (w : BitVec 24) : Instr := .partw tRh w 1#64 0#18 1#48
theorem meets_RecordsLaunch_partitions :
    tLau (tPw 0x80404#24) tQ0 = true ∧ (∀ k ∈ [0, 63], occupies (standRec tQ0 0 0 5#32 (tPw 0x80404#24)) 0 k (partwCores 0 1#64) = false)
    ∧ tLau (tPw 0x80404#24) (tQ tWaitOld) = true
    ∧ (∀ w ∈ [0x80404#24, 0x180404#24], (((standRec tQ0 0 0 5#32 (tPw w)).queue 0 0).recs.map fun r => (r.done, r.ins == tPw w)) = [(false, true)]
      ∧ coreIdle (standRec tQ0 0 0 5#32 (tPw w)) 0 = true)
    ∧ poolOk ((0x80404#24).setWidth 32) 1#48 = true ∧ clusterOk ((0#18).setWidth 32) 0 = true ∧ poolOk ((0xFFFFFF#24).setWidth 32) 1#48 = false
    ∧ coreIdle (tQ0.modTeam 0 fun t => { t with job := some tJob }) 0 = false
    ∧ tLau (.haltq tRh 3#6 true 0#32) tQ0 = true ∧ tLau (.haltq tRh 3#6 false 100#32) (tQ tWaitOld) = true ∧ (tQ0.queue 0 3).drain = none := by
  refine ⟨by decide, fun k hk => ?_, by decide, fun w hw => ?_, by and_intros <;> decide⟩
  · simp only [List.mem_cons, List.not_mem_nil, or_false] at hk; rcases hk with rfl | rfl <;> decide
  · simp only [List.mem_cons, List.not_mem_nil, or_false] at hw; rcases hw with rfl | rfl <;> exact ⟨by decide, by decide⟩

/-- RESUME of a foreign image at `a` onto core 0 or any. -/
def tRes (a : W64) (cv : Bool) (core : BitVec 6) (table : W64) : Instr := .resume tRh core cv a table 0#32 false
def tGetOk (s : State) (a : W64) (n : Nat) : Bool := match docGet s 0 (qPart (s.queue 0 0)) a n with | .ok _ => true | .error _ => false
def tCl1 : State :=
  let s := tQ0.modCore 0 fun c => { c with clcfg := 0x440#32 }
  { s with mem := (s.mem.pokes 0x9006 [1#8, 1#8]).pokes 0xB000 (bytesOf 8 0xA000) }
theorem meets_RecordsLaunch_resume :
    tLau (tRes 0x9000#64 true 0#6 0#64) tQ0 = true ∧ tGetOk tQ0 0x9000#64 256 = true ∧ tGetOk tQ0 0xFF00000000000000#64 256 = false
    ∧ tLau (tRes 0xFF00000000000000#64 false 0#6 0#64) tQ0 = true ∧ (tQ0.core 0).dead = false ∧ 0 ∈ partCores tQ0 0 0 ∧ 1 ∉ partCores tQ0 0 0
    ∧ ((tQ0.modCore 0 fun c => { c with dead := true }).core 0).dead = true
    ∧ resumeTeams tQ0 0 0 none 0 none = [0] ∧ tQ0.groupsOf 0 ≠ [] ∧ tQ0.groupsOf 1 = []
    ∧ canTake tQ0 0 = true ∧ blocksFree tQ0 (partCtx tQ0 0 0) 0x9000#64 0 = true ∧ canTake (tQ0.modTeam 0 fun t => { t with job := some tJob }) 0 = false :=
  (by and_intros <;> decide)
/-- The first byte of the flags of the image at 0x9000 and of the one at 0xA000: of a member of a cluster or not. -/
def tMember (s : State) (b : Byte) : State := { s with mem := (s.mem.poke 0x901F b).poke 0xA01F b }
/-- The image's header as read, where it is one of a member. -/
def tFlag (s : State) (a : W64) : Nat := match docGet s 0 0 a 256 with | .ok hd => field hd 0x1F 1 % 2 | .error _ => 2
theorem meets_RecordsLaunch_lone :
    tLau (tRes 0x9000#64 false 0#6 0#64) (tMember tQ0 1#8) = true ∧ tFlag (tMember tQ0 1#8) 0x9000#64 = 1 ∧ tFlag tQ0 0x9000#64 = 0
    ∧ tLau (tRes 0x9000#64 true 0#6 0#64) (tQ0.modCore 0 fun c => { c with dead := true }) = true ∧ tLau (tRes 0x9000#64 true 1#6 0#64) tQ0 = true
    ∧ (tQ0.core 1).dead = false
    ∧ (match readImg tQ0 (partCtx tQ0 0 0) 0x9000#64 with | .ok _ => false | .error f => f == 0x40505002#32) = true :=
  (by and_intros <;> decide)
/-- Whether one of the fitting clusters has the team of the image in each member. -/
def tWhole (s : State) : Bool :=
  tFlag s 0xA000#64 == 1 && (gridsFit s 0 0 1 1 0#32).any fun g => g.2.all fun m => s.groupsOf (8 * m) != []
theorem meets_RecordsLaunch_resumeCluster :
    tLau (tRes 0x9000#64 false 0#6 0xB000#64) tCl1 = true ∧ tGetOk tCl1 0x9000#64 0x120 = true ∧ tGetOk tCl1 0xFF00000000000000#64 0x120 = false
    ∧ shapeOk 0 0 = false ∧ shapeOk 1 1 = true ∧ gridsOf tCl1 0 0 = [(0, [0])] ∧ clCw (tCl1.core 0).clcfg = 1 ∧ clCh (tCl1.core 0).clcfg = 1
    ∧ (match docGet tCl1 0 0 0xB000#64 8 with | .ok tb => natOf tb == 0xA000 | .error _ => false) = true ∧ tGetOk tCl1 0xA000#64 256 = true
    ∧ blocksFree tCl1 (partCtx tCl1 0 0) 0xA000#64 0 = true
    ∧ (match readCluster tCl1 (partCtx tCl1 0 0) 0x9000#64 1 1 with | .ok _ => false | .error f => f == 0x60101003#32) = true
    ∧ tLau (tRes 0x9000#64 false 0#6 0xB000#64) (tMember tCl1 1#8) = true ∧ tWhole (tMember tCl1 1#8) = true ∧ tWhole tCl1 = false
    ∧ gridsFit tCl1 0 0 1 1 0#32 = [(0, [0])] ∧ gridsFit tCl1 0 0 2 1 0#32 = [] ∧ canTake tCl1 0 = true
    ∧ tLau (tRes 0x9000#64 true 0#6 0xB000#64) (tCl1.modCore 0 fun c => { c with dead := true }) = true :=
  (by and_intros <;> decide)
/-- A set of slice masks at 0xC000 that names queue 0 or not. -/
def tSl (named lock : Bool) (time : W64) : State :=
  let s := tQ0
  { s with mem := s.mem.pokes 0xC000 (bytesOf 64 (if named then 1 else 2)), fab := { s.fab with sltbase := 0xC000#64, tlock := lock }, time := time }
theorem meets_RecordsLaunch_slice :
    tLau (.slice tRh 0#8 10000#64) (tSl false true 0#64) = true
    ∧ (sliceMasks (tSl true true 0#64) 0).getLsbD 0 = true ∧ (sliceMasks (tSl false true 0#64) 0).getLsbD 0 = false ∧ (sliceMasks (tSl false true 0#64) 0).getLsbD 256 = false
    ∧ (tSl false true 0#64).slice = none ∧ (tSl false false 0#64).fab.tlock = false ∧ (tSl false true 0#64).time.toNat + 10000 ≤ (10000#64 : W64).toNat
    ∧ (10000#64 : W64).toNat < (tSl false true 1#64).time.toNat + 10000
    ∧ tLau (.slice tRh 0#8 10000#64) { tSl false true 0#64 with slice := some ⟨0, 0, 0, 1, 0#32, [], false⟩ } = true :=
  (by and_intros <;> decide)

/-! The Docent between its records -/

def tPut4 (s : State) (a v : Nat) : State := { s with mem := s.mem.pokes a (bytesOf 4 v) }
def tFar (f : Queue → Queue) : State := tQ fun q => f { q with base := 0xFF00000000000000#64 }
def tReadOk (s : State) (a : W64) : Bool := match globalBytes s (partCtx s 0 0) .load a 4 with | .ok _ => true | .error _ => false
/-- A queue that is not running. -/
def tOff (f : State → State) : State := f ((tQ fun q => { q with ctl := 0x40000000#32, stopped := true }))
theorem meets_DocentEvents_queues :
    (qRun ((tOff id).queue 0 0) && dctlEn ((tOff id).die 0)) = false ∧ (qRun (tQ0.queue 0 0) && dctlEn (tQ0.die 0)) = true
    ∧ tGetOk tQ0 0x10000#64 4 = true ∧ (match docGet (tFar id) 0 0 0xFF00000000000000#64 4 with | .ok _ => false | .error _ => true) = true
    ∧ (match docGet (tPut4 tQ0 0x10000 21) 0 0 0x10000#64 4 with | .ok bs => natOf bs == 21 | .error _ => false) = true ∧ qSize (tQ0.queue 0 0) = 16
    ∧ qRun ((tOff id).queue 0 0) = false ∧ tReadOk (tOff id) 0x10084#64 = true ∧ ((tOff id).queue 0 0).loop = none ∧ qRun (tQ0.queue 0 0) = true
    ∧ tReadOk (tFar fun q => { q with ctl := 0x40000000#32 }) 0xFF00000000000084#64 = false :=
  (by and_intros <;> decide)

/-- A LEASE that stands, of a mapped range or of one no page maps. -/
def tLs (base : W64) : State := tQ fun q => { q with next := 6#32, recs := [tOld 5#32 (.lease tRh true true false base 0x1000#64)], leases := [⟨base, 0x1000#64, true, true⟩] }
theorem meets_DocentEvents_leases :
    (∀ b ∈ [0x8000#64, 0x80000000#64], ((tLs b).recOf 0 0 5#32).map (fun k => k.ins == .lease tRh true true false b 0x1000#64) = some true)
    ∧ (match pinPages (tLs 0x8000#64) 0 true true 0x9000 8192 0x8000 with | .ok ps => ps.length == 1 | .error _ => false) = true
    ∧ (match pinPages (tLs 0x80000000#64) 0 true true 0x80001000 8192 0x80000000 with | .ok _ => false | .error _ => true) = true
    ∧ (match walk tQ0.mem (tQ0.part 0).root 0x8000 with | .ok (.plain _ _ bits) => bits == 29 | _ => false) = true ∧ 0x8000 % 2 ^ 29 + 0x1000 ≤ 2 ^ 29 := by
  refine ⟨fun b hb => ?_, by and_intros <;> decide⟩
  simp only [List.mem_cons, List.not_mem_nil, or_false] at hb
  rcases hb with rfl | rfl <;> decide

/-- Queue 0 holds a JOB of two tiles, of which none is placed. -/
def tPl : State := tQ fun q => { q with next := 6#32, recs := [{ tOld 5#32 (.job tRh 2#24 0x8040#64 9#64 (tP3 false false)) with left := 2 }] }
theorem meets_DocentEvents_places :
    ((List.range 64).all fun q => (queuePlaces tQ0 0 q).isNone) = true
    ∧ (queuePlaces tPl 0 0).map (fun e => (e.1.ins == .job tRh 2#24 0x8040#64 9#64 (tP3 false false), e.2)) = some (true, 0, [0])
    ∧ ((List.range 64).all fun q => q == 0 || (queuePlaces tPl 0 q).isNone) = true ∧ Tbl.get 63 (effPrio tPl 0 0 (tOld 5#32 (.job tRh 2#24 0x8040#64 9#64 (tP3 false false)))) (tPl.die 0).lastq = 63 :=
  (by and_intros <;> decide)

def tDrain (esc : Bool) : State := tQ fun q => { q with drain := some ⟨.halt 0 1, 0, esc⟩ }
/-- A held image of queue 0 for core 0, whose team is free or not, or whose image needs more blocks than are free. -/
def tHeldS (job : Bool) (xblk : Nat) : State :=
  let s := tQ fun q => { q with resume := [⟨[0], [0x400000#64], [tJob], [0], 1, 0, 1, 0#32, false, 0, 0#32, 0⟩] }
  let s : State := { s with mem := (s.mem.pokes 0x40001D [1#8]).pokes 0x400100 (bytesOf 8 (128 * xblk)) }
  let s := (s.modGroup 0 fun g => { g with xblk := 0 }).modGroup 1 fun g => { g with live := true, xblk := 12 }
  if job then s.modTeam 0 fun t => { t with job := some tJob } else s
theorem meets_DocentEvents_held :
    (tQ0.queue 0 0).drain = none ∧ ((tDrain false).queue 0 0).drain = some ⟨.halt 0 1, 0, false⟩ ∧ nextHeld tQ0 0 0 = none
    ∧ (nextHeld (tHeldS true 0) 0 0).isSome = true ∧ (nextHeld (tHeldS true 0) 0 0).bind (heldTarget (tHeldS true 0) 0) = none
    ∧ (nextHeld (tHeldS false 0) 0 0).bind (heldTarget (tHeldS false 0) 0) = some (0, [0])
    ∧ blocksFree (tHeldS false 0) (partCtx (tHeldS false 0) 0 0) 0x400000#64 0 = true
    ∧ blocksFree (tHeldS false 6) (partCtx (tHeldS false 6) 0 0) 0x400000#64 0 = false :=
  (by and_intros <;> decide)

/-- A job whose group began to wait in `evwait` at cycle 0; the budget ends at cycle 2048. -/
def tBud (cycle : W64) : State :=
  let s := tStop .run 0 1#48 8#16
  let s := s.modGroup 0 fun g => { g with threads := [(0, tTh 12#64 (some (.evwait (tOps (.s 3) .imm .none .none 5#32))))], since := 0#64 }
  { (s.modDie 0 fun d => { d with dctl := 0x8020#32 }) with cycle := cycle }
theorem meets_DocentEvents_budget : ∀ c ∈ [2047#64, 2048#64],
    ((tBud c).group 0).fmask ≠ 0#32 ∧ ((tBud c).jobOf 0).map (fun j => j.r.member) = some none
    ∧ (∀ l, ((tBud c).group 0).fmask.getLsbD l = true → (((tBud c).group 0).thread l).wait = some (.evwait (tOps (.s 3) .imm .none .none 5#32)))
    ∧ (((tBud c).team 0).stopWhy = 0 ∧ dctlEvb ((tBud c).die 0) ≠ 31 ∧ partTeams (tBud c) 0 < (freeSlots (tBud c) 0).length)
    ∧ (((tBud c).group 0).since.toNat + 2 ^ (dctlEvb ((tBud c).die 0) + 10) ≤ (tBud c).cycle.toNat ↔ c = 2048#64) ∧ ((tBud c).team 0).st = .run := by
  intro c hc
  simp only [List.mem_cons, List.not_mem_nil, or_false] at hc
  rcases hc with rfl | rfl <;> exact ⟨by decide, by decide, fun l h => by cases tLane0 h rfl; rfl, by and_intros <;> decide⟩

/-- Queue 0 waits for event 5, which only a record behind its WAITEV could signal. -/
def tDead (stuck : List W32) : State :=
  let s := tQ fun q => { q with await := some (5#32, none), tail := 7#32 }
  let s : State := { s with mem := (s.mem.pokes (0x10100 + 32 * 5) (bytesOf 32 (3 + 2 ^ 16 * 5 + 2 ^ 64 * 5))).pokes (0x10100 + 32 * 6) (bytesOf 32 (4 + 2 ^ 16 * 6 + 2 ^ 64 * 5 + 2 ^ 128)) }
  s.modDie 0 fun d => { d with cat := [(5, ⟨0#32, 1#32, false⟩)], stuck := stuck }
def tCycle (s : State) : List W32 :=
  let all := watchWaiters s 0
  let ws := stuckSet s 0 all all.length all
  (ws.head?.map fun w => stuckChain s 0 ws (ws.length + 1) w []).getD []
theorem meets_DocentEvents_watchdog :
    tCycle tQ0 = [] ∧ tCycle (tDead []) = [5#32] ∧ tCycle (tDead [5#32]) = [5#32] ∧ ((tDead [5#32]).die 0).stuck = [5#32]
    ∧ (let s := tDead [5#32]
      let ws := stuckSet s 0 (watchWaiters s 0) (watchWaiters s 0).length (watchWaiters s 0)
      (ws.map fun w => (w.queue, w.event)) = [(0, 5#32)] ∧ (∀ w ∈ ws, w ∈ signallers s 0 ws 5#32) ∧ (s.queue 0 0).stopped = false) :=
  (by and_intros <;> decide)
/-- A core whose links are all dead runs a job, and a member of a cluster of which core 1 follows an `mma.p` or not. -/
def tCut : State := (tStop .run 0 1#48 2#16).modDie 0 fun d => { d with links := (List.range 72).flatMap fun n => [(n, 0), (n, 1)] }
def tFollow (lead : Bool) : State := if lead then tC0.modCore 1 fun c => { c with mseq := [tEnt tMmaP] } else tC0
theorem meets_DocentEvents_lost :
    ((tMat.modCore 0 fun c => { c with lost := true }).core 0).lost = true ∧ ctlReaches tMat 0 = true
    ∧ (tCut.core 0).lost = false ∧ ctlReaches tCut 0 = false ∧ followed tCut 0 = [] ∧ (tCut.core 0).jobs = [] ∧ (∀ t < 8, (tCut.team t).launching = none)
    ∧ (tCut.team 0).job.isSome = true ∧ ((List.range 8).all fun k => (tCut.team k).job.all fun j => j.r.member.isNone) = true :=
  (by and_intros <;> decide)
theorem meets_DocentEvents_status :
    ((tStop .run 1 1#48 2#16).team 0).stopWhy ≠ 0 ∧ (tMat.team 0).stopWhy = 0 ∧ tMat.clusterOf 0 = none
    ∧ (∀ b ∈ [true, false], ((tFollow b).team 0).stopWhy = 0 ∧ (tFollow b).clusterOf 0 ≠ none)
    ∧ (followed (tFollow true) 1).any (fun e => e.old = 0 && (jobTeams (tFollow true) 0).contains ((tFollow true).tidOf e.gid)) = true
    ∧ (followed (tFollow false) 1) = [] :=
  (by and_intros <;> decide)

/-! Registers, bring-up and the host -/

/-- The register at an offset is as said. -/
def tReg (off : Nat) (wide : Bool) : Bool := match regAt off with | some r => r.wide == wide | none => false
/-- Page 1 of the vitrines of die 0 is claimed and held in this state. -/
def tVit (st : Nat) : State := tMat.modDie 0 fun d => { d with vit := [(1, ⟨0x100#64, true, st, 0⟩)] }
def tDbg (st : W32) : State := { tMat with hub := { tMat.hub with dbgstat := st } }
theorem meets_RegistersAndHub_registers :
    regAt 4 ≠ none ∧ (4 : Nat) % 8 ≠ 0 ∧ regAt 0xFFF8 = none ∧ tReg 0x300 true = true ∧ tReg 0x1002200 false = true ∧ tReg 0x1002204 false = true
    ∧ (DReg.qctl 0 0).wide = false ∧ partInUse tMat 0 = true ∧ partInUse State.reset 0 = false
    ∧ (∃ p' m, (p', m) ∈ (tMat.die 0).pcore ∧ p' ≠ 1 ∧ m &&& 1#64 ≠ 0#64) ∧ (State.reset.die 0).pcore = []
    ∧ ((8#64).extractLsb' 0 3 = 0#3 ∧ (1#64).extractLsb' 0 3 = 1#3 ∧ (2#64).extractLsb' 0 3 = 2#3 ∧ (3#64).extractLsb' 0 3 = 3#3)
    ∧ ((tDbg 1#32).hub.dbgstat = 1#32 ∧ ¬((tDbg 0#32).hub.dbgstat = 1#32 ∨ (tDbg 0#32).hub.dbgstat = 2#32))
    ∧ ((tVit 3).vit 0 1).st = 3 ∧ (tVit 3).mem.wf = true ∧ ((tVit 1).vit 0 1).st ≠ 3 := by
  refine ⟨by decide, by decide, by decide, by decide, by decide, by decide, by decide, by decide, by decide, ⟨0, 1#64, by and_intros <;> decide⟩, by and_intros <;> decide⟩
/-- A snapshot awaits its instant 2048, and the series ticks each 2^10 ns into a ring of two. -/
def tSnap (time : W64) (put : W32) : State :=
  { tMat with time := time, cycle := 4#64, hub := { tMat.hub with snap := some (2048#64, 9#8), tsctl := 0x8000010A#32, tsput := put } }
theorem meets_RegistersAndHub_records :
    tMat.hub.snap = none ∧ (tSnap 2047#64 0#32).hub.snap = some (2048#64, 9#8) ∧ (tSnap 2047#64 0#32).time < 2048#64 ∧ ¬(tSnap 2048#64 0#32).time < 2048#64
    ∧ (tSnap 2049#64 0#32).time.toNat % 2 ^ 10 < timeStep (tSnap 2049#64 0#32) ∧ ¬(tSnap 2050#64 0#32).time.toNat % 2 ^ 10 < timeStep (tSnap 2050#64 0#32)
    ∧ (tSnap 2048#64 0#32).hub.tsctl.getLsbD 31 = true ∧ 2 ^ ((tSnap 2048#64 2#32).hub.tsctl.extractLsb' 8 5).toNat ≤ ((tSnap 2048#64 2#32).hub.tsput - (tSnap 2048#64 2#32).hub.tstake).toNat := by
  decide

def tImage0 (kind : Byte) : Image := ⟨0x4D495848#32, 1#16, kind, 0#8, 0#512, [], [], []⟩
def tBoot (stage : W32) (recover : Bool) (flash : Tbl Image) : State := { tMat with hub := { tMat.hub with pkgstat := stage, recover := recover, flash := flash } }
/-- An image is taken from copy A where it is accepted; whether one is rests on the signature of log 11, which the model leaves open. -/
theorem meets_RegistersAndHub_images (i : Image) (kind : Byte) (h : accepted (tBoot 1#32 false [(2 * kind.toNat, i)]) kind i = true) :
    pickImage (tBoot 1#32 false [(2 * kind.toNat, i)]) kind = some i := by
  have h1 : Tbl.find (2 * kind.toNat) (tBoot 1#32 false [(2 * kind.toNat, i)]).hub.flash = some i := by simp [tBoot, Tbl.find]
  unfold pickImage
  rw [h1]
  simp [h]
/-- Before Stage B, in it by recovery or without firmware, and past it. -/
theorem meets_RegistersAndHub_boot :
    (tBoot 0#32 false []).hub.pkgstat.extractLsb' 0 4 ≠ 1#4 ∧ (tBoot 1#32 true []).hub.recover = true ∧ pickImage (tBoot 1#32 false []) 1#8 = none
    ∧ (tBoot 1#32 false []).hub.pkgstat.extractLsb' 0 4 = 1#4
    ∧ ((tBoot 2#32 false []).hub.pkgstat.extractLsb' 0 4 = 2#4 ∧ (tBoot 2#32 false []).hub.pkgstat.getLsbD 19 = false) ∧ (tBoot 0x80002#32 true []).hub.pkgstat.getLsbD 19 = true
    ∧ (tImage0 4#8).kind = 4#8 ∧ accepted (tBoot 3#32 false []) 4#8 (tImage0 4#8) = false
    ∧ (tBoot 3#32 false []).hub.pkgstat.extractLsb' 0 4 = 3#4 ∧ ({ tBoot 3#32 false [] with hub := { (tBoot 3#32 false []).hub with watis := 3#2 } } : State).hub.watis ≠ 0#2 :=
  (by and_intros <;> decide)

/-! The fabric station, time slices and the loader -/

/-- Ring 0 runs at command 5, changed by `f`, at 0x10000; accelerator 0 of a group of two with one port, which exports 0x8000 for all uses. -/
def tF (f : Ring → Ring) : State :=
  let s := tMat.modRing 0 fun _ => f { Ring.zero with base := 0x10000#64, ctl := 0x80000000#32, head := 5#32, next := 5#32, tail := 6#32 }
  { s with cur := ⟨0, 0#32, 0, 0, 5#32⟩, fab := { s.fab with fabcfg := 0x80000800#64, ports := 1#16, exps := [(0, 0xF000000000008000#64), (1, 0x1000#64)] } }
def tF0 : State := tF id
def tFh : FabHdr := ⟨5#16, false, false, 0#32⟩
def tStart (i : Instr) (s : State) : Bool :=
  startable s && (cmdHdr i).seq == s.cur.recn.setWidth 16 && (!(cmdHdr i).b || (s.ring s.cur.queue).cmds.all fun r => r.done)
    && !cmdRefused s s.cur.queue (cmdHdr i) i
theorem tStarts {i : Instr} {s : State} (h : tStart i s = true) : Starts i s := by
  simp only [tStart, Bool.and_eq_true, Bool.or_eq_true, Bool.not_eq_true', beq_iff_eq, List.all_eq_true] at h
  obtain ⟨⟨⟨h1, h2⟩, h3⟩, h4⟩ := h
  exact ⟨h1, h2, fun hb => by rcases h3 with h | h; · { rw [hb] at h; cases h }; · exact h, h4⟩
def tRd : Instr := .read tFh 1#10 0x8000#64 0x100000000000080#64 128#32
def tWr : Instr := .write tFh 1#10 0x8000#64 0x100000000000080#64 128#32
def tAt8 : Instr := .atomic tFh 1#10 0x8000#64 0x100000000000080#64 .add true
def tAllr : Instr := .allreduce tFh .sum 0x123#12 0x8000#64 0x9000#64 128#32 2#32
def tBc (root : BitVec 10) : Instr := .broadcast tFh 0x123#12 root 0x8000#64 0x9000#64 128#32 2#32
theorem meets_FabricStation_rings :
    rRun (tF0.ring 0) = true ∧ rRun ((tF fun x => { x with ctl := 0#32 }).ring 0) = false
    ∧ (match globalBytes (tF fun x => { x with ctl := 0#32 }) (partCtx tF0 0 0) .load 0x10084#64 4 with | .ok _ => true | .error _ => false) = true
    ∧ (match globalBytes (tF fun x => { x with ctl := 0#32, base := 0xFF00000000000000#64 }) (partCtx tF0 0 0) .load 0xFF00000000000084#64 4 with
      | .ok _ => false | .error _ => true) = true
    ∧ (match docGet tF0 0 (rPart (tF0.ring 0)) 0x10000#64 4 with | .ok _ => true | .error _ => false) = true
    ∧ (let x := (tF fun x => { x with next := 6#32, cmds := [⟨5#32, tRd, false⟩] }).ring 0; x.head = 5#32 ∧ x.cmds = [⟨5#32, tRd, false⟩]) :=
  (by and_intros <;> decide)
theorem meets_FabricStation_starts :
    ([tRd, tWr, tAt8, tAllr, tBc 0#10, tBc 1#10].all fun i => tStart i tF0) = true
    ∧ startable (tF fun x => { x with tail := 5#32 }) = false ∧ cmdRefused tF0 0 tFh (.read tFh 2#10 0x8000#64 0x100000000000080#64 128#32) = true
    ∧ (let s := tF fun x => { x with head := 4#32, cmds := [⟨4#32, tWr, false⟩] }; startable s = true ∧ ¬∀ r ∈ (s.ring 0).cmds, r.done = true)
    ∧ (match docGet tF0 0 0 0x8000#64 128, docGet tF0 0 0 0x8000#64 16 with | .ok _, .ok _ => true | _, _ => false) = true :=
  (by and_intros <;> decide)
theorem meets_FabricStation_completes :
    (∀ i ∈ [tRd, tWr, tAt8], ((tF fun x => { x with next := 6#32, cmds := [⟨5#32, i, false⟩] }).ring 0).cmds[0]?.map (fun r => (r.ins == i, r.done)) = some (true, false))
    ∧ (match docPut tF0 0 0 0x8000#64 (List.replicate 128 1#8), docPut tF0 0 0 (0x8000#64 + 16#64) (List.replicate 8 1#8) with | .ok _, .ok _ => true | _, _ => false) = true
    ∧ evAcc 5#32 = tF0.ownAcc ∧ evAcc 0x400005#32 ≠ tF0.ownAcc := by
  refine ⟨fun i hi => ?_, by and_intros <;> decide⟩
  simp only [List.mem_cons, List.not_mem_nil, or_false] at hi
  rcases hi with rfl | rfl | rfl <;> decide
theorem meets_FabricStation_peers :
    tF0.inGroup 1 = true ∧ tF0.inGroup 2 = false ∧ (exportParts tF0 0xFF8#64 .atomic 8).isSome = true ∧ (exportParts tF0 0xFF9#64 .load 8).isSome = false
    ∧ (exportParts tF0 0xFF8#64 .load 8).isSome = true ∧ (exportParts tF0 0xFF8#64 .store 8).isSome = true ∧ (0xFF8#64).toNat % 8 = 0 ∧ (0xFF4#64).toNat % 8 ≠ 0
    ∧ (∀ x ∈ tF0.fab.sent, x ≠ .watch 5#32) ∧ (.watch 0x400005#32 ∈ (sendWatch tF0 0x400005#32).fab.sent)
    ∧ evBad tF0 5#32 = false ∧ evAcc 5#32 = tF0.ownAcc ∧ evBad tF0 0x800005#32 = true ∧ (1 : Nat) ≠ tF0.ownAcc
    ∧ dbgStopped tF0 = false ∧ tF0.fab.peers = [] :=
  (by and_intros <;> decide)
/-- One command to peer 1 stands alone, and no group or queue waits. -/
def tLone : State := { tF (fun x => { x with next := 6#32, cmds := [⟨5#32, tRd, false⟩] }) with groups := [] }
theorem meets_FabricStation_timeout :
    (∀ q, (tLone.queue (q / 64) (q % 64)).await = none) ∧ (∀ g ∈ tLone.groups, ∀ l, (g.2.thread l).wait = none)
    ∧ (tLone.ring 0).cmds = [⟨5#32, tRd, false⟩] ∧ (tLone.ring 0).head = 5#32 ∧ cmdPeer tRd = some 1 ∧ (∀ q' < 16, q' ≠ 0 → (tLone.ring q').cmds = [])
    ∧ (cmdHdr tRd).evon = false := by
  refine ⟨fun q => ?_, fun g hg => absurd hg List.not_mem_nil, by and_intros <;> decide⟩
  have h : ((Tbl.get Die.zero (q / 64) tLone.dies).queues) = [] := by
    unfold Tbl.get
    cases e : Tbl.find (q / 64) tLone.dies with
    | none => rfl
    | some d =>
      have hm := Tbl.mem_of_find e
      have ha : tLone.dies.all (fun x => x.2.queues.isEmpty) = true := by decide
      exact List.isEmpty_iff.mp (List.all_eq_true.mp ha _ hm)
  show (Tbl.get Queue.zero (q % 64) (Tbl.get Die.zero (q / 64) tLone.dies).queues).await = none
  rw [h]; rfl

/-- A member list at 0x9000, and a collective of members 0 and 1 that the command 5 began, with some of its data. -/
def tColl (list : Nat) (i : Instr) (got : Tbl (List Byte)) : State :=
  let s := tF fun x => { x with next := 6#32, cmds := [⟨5#32, i, false⟩] }
  { s with mem := s.mem.pokes 0x9000 (bytesOf 8 list), fab := { s.fab with colls := [⟨0x123, 0, 5#32, [0, 1], got, []⟩] } }
/-- `m` zero words in order. -/
def tData : List Byte := List.replicate 128 0#8
def tHas (i : Instr) (got : Tbl (List Byte)) : Bool :=
  match (tColl (2 ^ 32) i got).coll 0x123 with | some c => c.members == [0, 1] && c.got == got && collCmd (tColl (2 ^ 32) i got) c == some i && !collHeld (tColl (2 ^ 32) i got) c.ring | none => false
theorem meets_FabricStation_collectives :
    collHeld tF0 0 = false ∧ (tF0.coll 0x123).isSome = false ∧ ((tColl 0 tAllr []).coll 0x123).isSome = true
    ∧ (match memberList (tColl (2 ^ 32) tAllr []) 0 0x9000#64 2 with | .ok ms => ms == [0, 1] && ascending ms | .error _ => false) = true
    ∧ (match memberList (tColl 0 tAllr []) 0 0x9000#64 2 with | .ok ms => !ascending ms | .error _ => false) = true
    ∧ (match memberList tF0 0 0xFF00000000000000#64 2 with | .ok _ => false | .error _ => true) = true
    ∧ tHas tAllr [] = true ∧ tHas tAllr [(0, tData)] = true ∧ tHas tAllr [(0, tData), (1, tData)] = true ∧ tHas (tBc 0#10) [(0, tData)] = true
    ∧ 128 = collLen tAllr ∧ (match docPut tF0 0 0 0x8000#64 tData with | .ok _ => true | .error _ => false) = true
    ∧ 0x123 ∈ (tColl 0 tAllr []).fab.colls.map (fun x => x.cgid) :=
  (by and_intros <;> decide)
/-- The command that waits at the ring's head is the collective 0x123 that the others have. -/
def tLate : State := let s := tF0; { s with mem := s.mem.pokes (0x10100 + 64 * 5) (bytesOf 64 (encodeCommand tAllr).toNat) }
theorem meets_FabricStation_late :
    rRun (tLate.ring 0) = true ∧ (tLate.ring 0).next ≠ (tLate.ring 0).tail ∧ (∀ q' < 16, q' ≠ 0 → rRun (tLate.ring q') = false)
    ∧ (match readCmd tLate 0 5#32 with | .ok w => decodeCommand w == some tAllr | .error _ => false) = true ∧ cgidOf tAllr = some 0x123 :=
  (by and_intros <;> decide)

/-- A slice at 10000 whose STOP set holds queue 0 of die 0, its budget zero. -/
def tSlice (time : W64) (esc : Bool) (started : List (Nat × Nat)) : State :=
  let s := tQ0
  { s with mem := s.mem.pokes 0xC000 (bytesOf 64 1), fab := { s.fab with sltbase := 0xC000#64 }, time := time, slice := some ⟨0, 10000, 0, 1, 5#32, started, esc⟩ }
theorem meets_FabricStation_slices :
    tQ0.slice = none ∧ (tSlice 8000#64 false []).slice.isSome = true ∧ (sliceMasks (tSlice 8000#64 false []) 0).getLsbD 0 = true
    ∧ (sliceMasks (tSlice 8000#64 false []) 0).getLsbD 256 = false ∧ qBud ((tSlice 8000#64 false []).queue 0 0) = 0 ∧ 10000 ≤ (tSlice 8000#64 false []).time.toNat + 2000
    ∧ (tSlice 7999#64 false []).time.toNat + 2000 < 10000 ∧ (tSlice 9999#64 true [(0, 0)]).time.toNat < 10000 ∧ 10000 ≤ (tSlice 10000#64 true [(0, 0)]).time.toNat :=
  (by and_intros <;> decide)

def tElf : ElfHdr := ⟨2#8, 1#8, 0#8, 1#16, 0x4846#16, 1#32⟩
/-- An object of one code section with a weak symbol and a relocation, and one that defines a name of the first again. -/
def tSect (va : W64) (k : SectKind) (n : Nat) : CodeSect := ⟨va, k, 64, List.replicate n 0#8⟩
def tObj (kind : Nat) (va : W64) : CodeObj :=
  ⟨1, tElf, [tSect 0x8000#64 .text 128, tSect 0x40008000#64 .linkage 64], [⟨7, 2, true, false, true, 0x8000#64, false⟩, ⟨9, 2, true, true, false, 0#64, false⟩], [⟨va, kind, 0, 3#64⟩]⟩
theorem meets_FabricStation_loader :
    (tObj 1 0x8000#64).sects.all (sectMapped tF0 0) = true ∧ sectMapped tF0 0 (tSect 0x80000000#64 .text 64) = false
    ∧ (match judge [tObj 1 0x8000#64] [] (handlers [tObj 1 0x8000#64]) (tObj 1 0x8000#64) with | .ok _ => true | .error _ => false) = true
    ∧ (match judge [tObj 7 0x8000#64] [] (handlers [tObj 7 0x8000#64]) (tObj 7 0x8000#64) with | .ok _ => false | .error _ => true) = true ∧ tF0.objs = []
    ∧ symValue [tObj 1 0x8000#64] ⟨7, 2, true, false, true, 0x8000#64, false⟩ = some 0x8000#64
    ∧ (sectAt (tObj 5 0x40008000#64) 0x40008000#64 8).map (fun c => c.kind) = some .linkage ∧ (sectAt (tObj 5 0x8000#64) 0x8000#64 8).map (fun c => c.kind) = some .text
    ∧ isHeader (tObj 1 0x8000#64) 0x8000#64 = false ∧ (List.replicate 64 0#8).length = 64 :=
  (by and_intros <;> decide)

/-! Encodings and the step -/

theorem meets_WordsRoundTrip :
    (let i : Instr := .iadd (tOps (.v 1) (.v 2) .imm .none 16#32) false .wrap; i.isWord = true ∧ i.wellFormed = true)
    ∧ decodeSlot false (slotWord tLine 0) = .ok (.full (.iadd (tOps (.v 1) (.v 2) .imm .none 16#32) false .wrap)) := ⟨by decide, by decide⟩
theorem meets_RecordsAndCommandsRoundTrip :
    (∃ i h, recHeader i = some h ∧ i.wellFormed = true) ∧ tRd.wellFormed = true ∧ tAt8.wellFormed = true ∧ tAllr.wellFormed = true ∧ (tBc 1#10).wellFormed = true :=
  ⟨⟨.nopRecord tRh, tRh, rfl, by decide⟩, by and_intros <;> decide⟩

/-- Group 0 stands at `pc` of the line of R78 at 0x2000, and is the next to issue. -/
def tIss (pc : W64) : State :=
  let s := placeWord State.reset 0
  let s := s.modGroup 0 fun g => { g with fmask := 1#32, xblk := 6, threads := [(0, tTh pc none)] }
  { s with mem := s.mem.pokes 0x2000 tLine }
/-- What the issue of a group holds: it runs, picks its one thread at `pc`, and its line is good, with a pair or not. -/
def tIssues (pc : W64) (pair : Bool) : Bool :=
  let u : State := { waitTurns (advance 1 (tIss pc)) with agenda := [] }
  schedChoice u 0 0 == some 0 && picked u 0 == some (pc, 1#32) && ((u.group 0).thread 0).pend.isNone && ((u.group 0).thread 0).priv == .sup
    && (let v := passOpportunity u 0 1#32
      (match fetchAddr v (v.ctx 0 .sup) pc with
        | .ok pa => pa == 0x2000 && (match (checkedLine v 0 pa (some (slotIx pc))).1 with | .ok l => l == tLine && linePair l (slotIx pc) == pair | .error _ => false)
        | .error _ => false))
theorem meets_StepRunsDecoded_issue : (tIss 0x2000#64).agenda = [.issue 0] ∧ tIssues 0x2000#64 false = true ∧ tIssues 0x200C#64 true = true :=
  (by and_intros <;> decide)
/-- The group of `tIss` as `f` changes it, at its issue. -/
def tSlot (f : Thread → Thread) : State :=
  { waitTurns (advance 1 ((tIss 0x2000#64).modGroup 0 fun g => { g with threads := [(0, f (tTh 0x2000#64 none))] })) with agenda := [] }
/-- A group whose thread waits, one whose thread has yielded, and one that the report of a poisoned datum awaits. -/
theorem meets_StepRunsDecoded_slots :
    schedChoice (tSlot fun t => { t with wait := some (.yield (tNo 0#32)) }) 0 0 ≠ some 0
    ∧ schedChoice (tSlot fun t => { t with yielded := true }) 0 0 = some 0 ∧ picked (tSlot fun t => { t with yielded := true }) 0 = none
    ∧ schedChoice (tSlot fun t => { t with pend := some 0x40#64 }) 0 0 = some 0
    ∧ picked (tSlot fun t => { t with pend := some 0x40#64 }) 0 = some (0x2000#64, 1#32) :=
  (by and_intros <;> decide)
def tPairI : Instr := .fadd (tOps (.v 4) (.v 5) (.v 6) .none 0#32) .rne
theorem meets_StepRunsDecoded_pair :
    (match decodePair (slotWord tLine 1) with
      | .ok (.pair i j) => i == tPairI && regsOk i 6 64 32 && regsOk j 6 64 32
        && (match exec i (tOn (tGroup 1#32)), exec j (tOn (tGroup 1#32)) with | .next _, .next _ => true | _, _ => false)
      | _ => false) = true := by decide
/-- Records and commands at the head of their queue and ring, events and time. -/
theorem meets_StepRunsDecoded_rest :
    (placeRecord State.reset (2 ^ 16 * 5)).agenda = [.docent 0 0]
    ∧ (let s := placeRecord State.reset (2 ^ 16 * 5)
      let u : State := { waitTurns (advance 1 s) with agenda := [] }
      launchable { u with cur := ⟨0, 0#32, 0, 0, 5#32⟩ } = true ∧ (u.queue 0 0).next = 5#32
      ∧ (match readRec u 0 0 5#32 with | .ok w => decodeRecord w == some (.nopRecord tRh) | .error _ => false) = true)
    ∧ (placeCommand State.reset (encodeCommand tRd).toNat).agenda = [.fabric 0]
    ∧ (let s := placeCommand State.reset (encodeCommand tRd).toNat
      let u : State := { waitTurns (advance 1 s) with agenda := [] }
      startable { u with cur := ⟨0, 0#32, 0, 0, 5#32⟩ } = true ∧ (u.ring 0).next = 5#32
      ∧ (match readCmd u 0 5#32 with | .ok w => decodeCommand w == some tRd | .error _ => false) = true)
    ∧ isEvent (.tilePlace 0) = true ∧ State.reset.agenda = [] := (by and_intros <;> decide)
theorem meets_StepKeepsMemoryCanonical : ∃ s t : State, s.mem.wf = true ∧ step s = .next t :=
  ⟨{ State.reset with agenda := [.tick 3] }, _, by decide, rfl⟩
end Sys2Proof.Tests
end

section
/-!
The lane moves of R152 and R153: `shfl`, `rdlane` and `wrlane` complete with the register effect that the statement gives.
-/

namespace Sys2Proof.LaneMoveProofs

open Sys2Proof Sys2Proof.Machine

theorem exec_shfl (o : Ops) (mode : SMode) (seg : Seg) (s : State) : exec (.shfl o mode seg) s = execShfl o mode seg s := rfl
theorem exec_rdlane (o : Ops) (s : State) : exec (.rdlane o) s = execRdlane o s := rfl
theorem exec_wrlane (o : Ops) (s : State) : exec (.wrlane o) s = execWrlane o s := rfl

/-! ### The source lane of `shfl` -/

theorem width_eq_segWidth (seg : Seg) : Seg.width seg = segWidth seg := by cases seg <;> rfl

/-- The model counts a segment's first lane by division, the rule by the remainder. -/
theorem shflSrc_eq_shuffleSpec (mode : SMode) (w i : Nat) (b : W32) : shflSrc mode w i b = shuffleSpec mode w i b := by
  cases mode <;> simp only [shflSrc, shuffleSpec, Nat.div_mul_self_eq_mod_sub_self, Nat.sub_sub_self (Nat.mod_le i w)]

/-- A 32-bit value written as a result without flags. -/
theorem valOf_word (x : W32) : valOf (x.toNat, 0#5) = (x.setWidth 64, 0#5) := by
  simp only [valOf, BitVec.ofNat_toNat]

/-- The lane whose A `shfl` reads for lane `l` (R152): the source lane where it is valid and active, else `l` itself. -/
def shflFrom (o : Ops) (mode : SMode) (seg : Seg) (s : State) (l : Nat) : Nat :=
  match shuffleSpec mode (segWidth seg) l (rd32 s.here (s.env s.cur.gid) o.imm l o.b) with
  | some j => if s.cur.mask.getLsbD j then j else l
  | none => l

/-! ### The three instructions -/

theorem shfl_completes (o : Ops) (mode : SMode) (seg : Seg) (s : State) (hi : Issues (.shfl o mode seg) s) (hst : Straight s) :
    let r (l : Nat) : W64 × BitVec 5 := ((rd32 s.here (s.env s.cur.gid) o.imm (shflFrom o mode seg s l) o.a).setWidth 64, 0#5)
    Completes (.shfl o mode seg) s (resultIn false o.d s.cur.mask (contributing (.shfl o mode seg) s) r (r 0)) := by
  have h := completes_of_regRes (w := false) (d := o.d) (exec_shfl o mode seg s) hi hst rfl
  simp only [valOf_word, shflSrc_eq_shuffleSpec, width_eq_segWidth] at h
  exact h

/-- `rdlane` has one value, A of one lane, whichever lane would compute it. -/
theorem rdlane_completes (o : Ops) (s : State) (hi : Issues (.rdlane o) s) (hst : Straight s) :
    let x (l : Nat) (a : Opd) : W32 := rd32 s.here (s.env s.cur.gid) o.imm l a
    let r : W64 × BitVec 5 := ((x ((x 0 o.b).toNat % 32) o.a).setWidth 64, 0#5)
    Completes (.rdlane o) s (resultIn false o.d s.cur.mask (contributing (.rdlane o) s) (fun _ => r) r) := by
  have h := completes_of_regRes (w := false) (d := o.d) (exec_rdlane o s) hi hst rfl
  simp only [valOf_word] at h
  exact h

/-- One varying register written in lane `j`, if `m` holds that lane. -/
theorem setV_if_wrote (g : Group) (m : Mask) {j : Nat} (n : Nat) (x : W32) (hj : j < 32) :
    Wrote g { v := fun l k => if l = j && m.getLsbD l && k = n then some x else none } (if m.getLsbD j then g.setV j n x else g) := by
  by_cases hm : m.getLsbD j = true
  · rw [if_pos hm]
    refine ⟨fun l k hl => ?_, fun _ => rfl, fun _ => rfl, fun _ => rfl, fun _ _ _ => rfl, fun _ _ => rfl, fun _ => BitVec.or_zero.symm,
      fun _ => rfl, ?_⟩
    · rw [Group.vreg_setV g n k x hj hl]
      by_cases hl : l = j
      · by_cases hk : k = n <;> simp [hl, hk, hm]
      · simp [hl]
    · simp [Group.setV]
  · rw [if_neg hm]
    have hnone : (fun l k => if l = j && m.getLsbD l && k = n then some x else none : Nat → Nat → Option W32) = fun _ _ => none := by
      funext l k
      refine if_neg fun h => hm ?_
      simp only [Bool.and_eq_true, decide_eq_true_eq] at h
      obtain ⟨⟨rfl, hlane⟩, -⟩ := h
      exact hlane
    rw [hnone]
    exact Wrote.refl g

theorem wrlane_completes (o : Ops) (n : BitVec 8) (s : State) (hd : o.d = .v n) (hi : Issues (.wrlane o) s) (hst : Straight s) :
    let x (l : Nat) (a : Opd) : W32 := rd32 s.here (s.env s.cur.gid) o.imm l a
    Completes (.wrlane o) s { v := fun l k =>
      if l = (x 0 o.b).toNat % 32 && (contributing (.wrlane o) s).getLsbD l && k = n.toNat then some (x 0 o.a) else none } := by
  intro x
  refine completes_of_done (exec_wrlane o s) hi hst rfl ?_
  simp only [hd, wrLane, Bool.false_eq_true, if_false, BitVec.ofNat_toNat, BitVec.setWidth_eq]
  exact setV_if_wrote s.here _ n.toNat _ (Nat.mod_lt _ (by decide))

/-- Settles O14: `shfl` and `rdlane` have the model's register result as their body, and `wrlane` writes one varying register. -/
theorem laneMoves : Obligations.LaneMoves :=
  ⟨shfl_completes, fun o s _ hi hst => rdlane_completes o s hi hst, wrlane_completes⟩

end Sys2Proof.LaneMoveProofs
end

section
/-!
What a fetch of a line leaves and finds (R66 to R68): only instruction caches and the number of free values change, a cache comes to hold
what memory holds, and a target that can be read raises no fault.
-/

namespace Sys2Proof.FetchFacts

open Sys2Proof Sys2Proof.Machine

/-! ### What a fetch leaves -/

theorem fetchOnly_refl (s : State) : FetchOnly s s := ⟨fun _ => rfl, rfl⟩

theorem fetchOnly_trans {s t u : State} (h : FetchOnly s t) (k : FetchOnly t u) : FetchOnly s u := by
  refine ⟨fun c => ?_, ?_⟩
  · exact (congrArg (fun x : Machine.Core => { x with ic := (s.core c).ic }) (k.cores c)).trans (h.cores c)
  · exact (congrArg (fun x : State => { x with cores := s.cores, fresh := s.fresh }) k.rest).trans h.rest

theorem fetchOnly_setGroup {s t : State} (h : FetchOnly s t) (gid : Nat) (g : Group) :
    FetchOnly (s.setGroup gid g) (t.setGroup gid g) :=
  ⟨h.cores, congrArg (fun x : State => x.setGroup gid g) h.rest⟩

/-- A core with another instruction cache, and another number of free values. -/
theorem fetchOnly_setIc (s : State) (cid : Nat) (x : Tbl (List Byte)) (n : Nat) :
    FetchOnly s { s.setCore cid { s.core cid with ic := x } with fresh := n } := by
  refine ⟨fun c => ?_, rfl⟩
  by_cases hc : c = cid
  · subst hc
    exact congrArg (fun y : Machine.Core => { y with ic := (s.core c).ic }) (State.setCore_core_same s c _)
  · exact congrArg (fun y : Machine.Core => { y with ic := (s.core c).ic }) (State.setCore_core_other s cid _ hc)

theorem fetchOnly_fresh (s : State) (n : Nat) : FetchOnly s { s with fresh := n } := ⟨fun _ => rfl, rfl⟩

theorem fetchOnly_icPut (s : State) (cid k : Nat) (l : List Byte) : FetchOnly s (icPut s cid k l) := by
  unfold icPut
  dsimp only
  split
  · exact fetchOnly_setIc s cid _ s.fresh
  · exact fetchOnly_setIc s cid _ (s.fresh + 1)

theorem fetchOnly_fetchLine (s : State) (cid pa : Nat) : FetchOnly s (fetchLine s cid pa).2 := by
  unfold fetchLine
  dsimp only
  split
  · exact fetchOnly_icPut ..
  · split
    · exact fetchOnly_refl s
    · split
      · exact fetchOnly_trans (fetchOnly_icPut ..) (fetchOnly_fresh ..)
      · exact fetchOnly_fresh ..

/-- The line that the check of a transfer's target reads: refetched where the parity of its line word fails (R66, R67). -/
def targetLine (s : State) (cid pa : Nat) : List Byte × State :=
  let r := fetchLine s cid pa
  if lparBad r.1 then refetch r.2 cid pa else r

theorem fetchOnly_targetLine (s : State) (cid pa : Nat) : FetchOnly s (targetLine s cid pa).2 := by
  unfold targetLine
  dsimp only
  split
  · exact fetchOnly_trans (fetchOnly_fetchLine s cid pa) (fetchOnly_icPut ..)
  · exact fetchOnly_fetchLine s cid pa

theorem checkedLine_none (s : State) (cid pa : Nat) :
    checkedLine s cid pa none = (let r := targetLine s cid pa
      (if lparBad r.1 then .error (fwIFPAR, 60) else if lineRes r.1 then .error (fwBADLINE, 60) else .ok r.1, r.2)) := by
  unfold checkedLine targetLine
  dsimp only
  split_ifs <;> simp_all

/-- The check of a target whose address translates: its state, and no fault where the line it reads is sound and names the slot. -/
theorem targetFault_of_ok {s : State} {c : Ctx} {cid pa : Nat} {pc : W64} (h : fetchAddr s c pc = .ok pa) :
    (targetFault s c cid pc).2 = (targetLine s cid pa).2
    ∧ (lparBad (targetLine s cid pa).1 = false → lineRes (targetLine s cid pa).1 = false →
      (targetFault s c cid pc).1 = if lineTgt (targetLine s cid pa).1 (slotIx pc) then none else some (fwBADTGT, pc)) := by
  unfold targetFault
  rw [h]
  dsimp only
  rw [checkedLine_none]
  dsimp only
  refine ⟨?_, fun h1 h2 => ?_⟩
  · by_cases h1 : lparBad (targetLine s cid pa).1 = true
    · simp only [h1, if_true]
    · by_cases h2 : lineRes (targetLine s cid pa).1 = true
      · simp only [h1, h2, if_true, if_false, Bool.false_eq_true]
      · simp only [h1, h2, if_false, Bool.false_eq_true]
  · simp only [h1, h2, Bool.false_eq_true, if_false]

/-! ### What a core's instruction cache holds afterwards -/

/-- The line that a core's instruction cache holds under a key (R68). -/
def held (s : State) (cid k : Nat) : Option (List Byte) := Tbl.find k (s.core cid).ic

theorem find_of_find_del {α : Type} {i k : Nat} {v : α} {t : Tbl α} (h : Tbl.find i (Tbl.del k t) = some v) : Tbl.find i t = some v := by
  by_cases hik : i = k
  · subst hik
    simp at h
  · rwa [Tbl.find_del_other t hik] at h

theorem held_icPut {s : State} {cid k i : Nat} {l x : List Byte} (h : held (icPut s cid k l) cid i = some x) :
    held s cid i = some x ∨ (i = k ∧ x = l) := by
  have key : ∀ {c : Machine.Core} {t : Tbl (List Byte)}, c.ic = Tbl.put k l t → Tbl.find i c.ic = some x →
      Tbl.find i t = some x ∨ (i = k ∧ x = l) := fun hc hf => by
    rw [hc] at hf
    by_cases hik : i = k
    · subst hik
      rw [Tbl.find_put_same] at hf
      exact .inr ⟨rfl, (Option.some.inj hf).symm⟩
    · exact .inl (by rwa [Tbl.find_put_other _ _ hik] at hf)
  unfold held icPut at *
  dsimp only at h
  split at h
  · rw [State.setCore_core_same] at h
    exact key rfl h
  · exact (key (congrArg Core.ic (State.setCore_core_same s cid _)) h).imp_left find_of_find_del

theorem fetchOnly_mem {s t : State} (h : FetchOnly s t) : t.mem = s.mem := by
  have hmem := congrArg State.mem h.rest
  exact hmem

theorem held_fetchLine {s : State} {cid pa i : Nat} {x : List Byte} (h : held (fetchLine s cid pa).2 cid i = some x) :
    held s cid i = some x ∨ (i = pa / 64 ∧ x = s.mem.peeks pa 64) := by
  unfold fetchLine at h
  dsimp only at h
  split at h
  · exact held_icPut h
  · split at h
    · exact .inl h
    · split at h
      · exact held_icPut h
      · exact .inl h

theorem held_targetLine {s : State} {cid pa i : Nat} {x : List Byte} (h : held (targetLine s cid pa).2 cid i = some x) :
    held s cid i = some x ∨ (i = pa / 64 ∧ x = s.mem.peeks pa 64) := by
  unfold targetLine at h
  dsimp only at h
  split at h
  · rcases held_icPut h with h | ⟨hi, hx⟩
    · exact held_fetchLine h
    · exact .inr ⟨hi, hx.trans (by rw [fetchOnly_mem (fetchOnly_fetchLine s cid pa)])⟩
  · exact held_fetchLine h

/-! ### Which line is read -/

/-- R68: what is fetched is what memory holds, or a held line that a free value chooses. -/
theorem fetchLine_reads (s : State) (cid pa : Nat) :
    (fetchLine s cid pa).1 = s.mem.peeks pa 64
    ∨ (held s cid (pa / 64) = some (fetchLine s cid pa).1 ∧ (Config.free s.fresh).getLsbD 0 = false) := by
  unfold fetchLine held
  dsimp only
  split
  · exact .inl rfl
  · next old ho =>
    split
    · exact .inl rfl
    · split
      · exact .inl rfl
      · next hf => exact .inr ⟨ho, by simpa using hf⟩

/-- A sound line that names the slot of a PC as a target (R64 to R66). -/
def NamesTarget (pc : W64) (l : List Byte) : Prop := lparBad l = false ∧ lineRes l = false ∧ lineTgt l (slotIx pc) = true

theorem targetReads_iff (s : State) (lv : Priv) (pc : W64) :
    TargetReads s lv pc ↔ ∃ pa, fetchAddr s (s.ctx s.cur.gid lv) pc = .ok pa ∧ NamesTarget pc (s.mem.peeks pa 64)
      ∧ ∀ l, held s (cidOf s.cur.gid) (pa / 64) = some l → lparBad l = true ∨ NamesTarget pc l := by
  simp only [TargetReads, LineReads, NamesTarget, held, Bool.false_and, Bool.or_false]

/-- Every choice that R68 leaves between a held line and memory's is memory's. -/
def AlwaysMemory : Prop := ∀ n, (Config.free n).getLsbD 0 = true

/-- A target that memory's line names, while the held line does too, or would be fetched again, or is never chosen. -/
theorem targetFault_none {s : State} {c : Ctx} {cid pa : Nat} {pc : W64} (ha : fetchAddr s c pc = .ok pa)
    (hm : NamesTarget pc (s.mem.peeks pa 64))
    (hh : AlwaysMemory ∨ ∀ l, held s cid (pa / 64) = some l → lparBad l = true ∨ NamesTarget pc l) :
    (targetFault s c cid pc).1 = none := by
  have hfirst : lparBad (fetchLine s cid pa).1 = true ∨ NamesTarget pc (fetchLine s cid pa).1 := by
    rcases fetchLine_reads s cid pa with h | ⟨h, hf⟩
    · exact .inr (h ▸ hm)
    · rcases hh with hall | hh
      · exact absurd (hall s.fresh) (Bool.eq_false_iff.mp hf)
      · exact hh _ h
  have hline : NamesTarget pc (targetLine s cid pa).1 := by
    unfold targetLine
    dsimp only
    split
    · rw [show (refetch (fetchLine s cid pa).2 cid pa).1 = s.mem.peeks pa 64 by
        rw [← fetchOnly_mem (fetchOnly_fetchLine s cid pa)]; rfl]
      exact hm
    · next hp => exact hfirst.resolve_left hp
  obtain ⟨hpar, hres, htgt⟩ := hline
  rw [(targetFault_of_ok ha).2 hpar hres, if_pos htgt]

theorem fetchLine_held {s : State} {cid pa : Nat} {old : List Byte} (ho : held s cid (pa / 64) = some old)
    (hne : old ≠ s.mem.peeks pa 64) (hf : (Config.free s.fresh).getLsbD 0 = false) :
    fetchLine s cid pa = (old, { s with fresh := s.fresh + 1 }) := by
  unfold held at ho
  unfold fetchLine
  simp only [ho, hne, hf, if_false, Bool.false_eq_true]

/-- A held line that a free value prefers to memory's, and that does not name the target's slot. -/
theorem targetFault_held {s : State} {c : Ctx} {cid pa : Nat} {pc : W64} {old : List Byte} (ha : fetchAddr s c pc = .ok pa)
    (ho : held s cid (pa / 64) = some old) (hne : old ≠ s.mem.peeks pa 64) (hf : (Config.free s.fresh).getLsbD 0 = false)
    (hpar : lparBad old = false) (hres : lineRes old = false) (htgt : lineTgt old (slotIx pc) = false) :
    targetFault s c cid pc = (some (fwBADTGT, pc), { s with fresh := s.fresh + 1 }) := by
  have hl : targetLine s cid pa = (old, { s with fresh := s.fresh + 1 }) := by
    simp only [targetLine, fetchLine_held ho hne hf, hpar, Bool.false_eq_true, if_false]
  obtain ⟨h2, h1⟩ := targetFault_of_ok (cid := cid) ha
  rw [hl] at h1 h2
  refine Prod.ext ((h1 hpar hres).trans ?_) h2
  rw [htgt]
  rfl

theorem targetFault_unheld {s : State} {c : Ctx} {cid pa : Nat} {pc : W64} (ha : fetchAddr s c pc = .ok pa)
    (ho : held s cid (pa / 64) = none) (hm : NamesTarget pc (s.mem.peeks pa 64)) :
    targetFault s c cid pc = (none, icPut s cid (pa / 64) (s.mem.peeks pa 64)) := by
  have hf : fetchLine s cid pa = (s.mem.peeks pa 64, icPut s cid (pa / 64) (s.mem.peeks pa 64)) := by
    unfold held at ho
    unfold fetchLine
    simp only [ho]
  have hl : targetLine s cid pa = fetchLine s cid pa := by
    unfold targetLine
    simp only [hf, hm.1, Bool.false_eq_true, if_false]
  have hnone := targetFault_none (cid := cid) ha hm (.inr fun l h => by rw [ho] at h; cases h)
  exact Prod.ext hnone ((targetFault_of_ok ha).1.trans (by rw [hl, hf]))

/-! ### What a fetch does not change -/

/-- A translation reads no group, core or free value. -/
theorem fetchAddr_congr (s : State) (gs : Tbl Group) (cs : Tbl Machine.Core) (n : Nat) (c : Ctx) (pc : W64) :
    fetchAddr { s with groups := gs, cores := cs, fresh := n } c pc = fetchAddr s c pc := rfl

theorem fetchOnly_eq {s t : State} (h : FetchOnly s t) : t = { s with cores := t.cores, fresh := t.fresh } :=
  congrArg (fun x : State => { x with cores := t.cores, fresh := t.fresh }) h.rest

theorem fetchOnly_fetchAddr {s t : State} (h : FetchOnly s t) (c : Ctx) (pc : W64) : fetchAddr t c pc = fetchAddr s c pc := by
  rw [fetchOnly_eq h]
  exact fetchAddr_congr s s.groups _ _ c pc

theorem fetchOnly_ctx {s t : State} (h : FetchOnly s t) (gid : Nat) (lv : Priv) : t.ctx gid lv = s.ctx gid lv := by
  have hslots : ∀ c, (t.core c).gslots = (s.core c).gslots := fun c => by
    have hc := congrArg Core.gslots (h.cores c)
    exact hc
  obtain ⟨hteams, hdies, hacc⟩ : t.teams = s.teams ∧ t.dies = s.dies ∧ t.acc = s.acc := by
    rw [fetchOnly_eq h]
    exact ⟨rfl, rfl, rfl⟩
  simp only [State.ctx, State.accOf, State.jobOf, State.tidOf, State.posOf, State.pnum, State.partOf, State.team, State.die, State.part,
    hslots, hteams, hdies, hacc]

/-! ### Lines at aligned addresses -/

/-- A leaf whose frame and page are whole lines, as every leaf of the page tables is. -/
def LeafAligned : Leaf → Prop
  | .plain _ frame bits => 64 ∣ frame ∧ 64 ∣ 2 ^ bits
  | .paired .. => True

/-- The dies cache aligned leaves. -/
def CachedLeavesAligned (s : State) : Prop := ∀ d, ∀ e ∈ (s.die d).tlb, ∀ b p l, e.what = .leaf b p l → LeafAligned l

theorem eAddr_aligned (e : W64) : 64 ∣ eAddr e := Dvd.dvd.mul_left (by decide) _

theorem leafAligned_of_walk {held : Nat → Option W64} {m : Memory} {root : W64} {va : Nat} {l : Leaf}
    (h : walkPast held m root va = .ok l) : LeafAligned l := by
  unfold walkPast at h
  dsimp only at h
  iterate 4 (split at h; · cases h)
  split at h
  · split at h
    · cases h
    · obtain rfl := Except.ok.inj h
      exact ⟨eAddr_aligned _, by decide⟩
  · split at h
    · cases h
    · split at h
      · obtain rfl := Except.ok.inj h
        trivial
      · iterate 2 (split at h; · cases h)
        obtain rfl := Except.ok.inj h
        exact ⟨eAddr_aligned _, by decide⟩

/-- What a die comes to cache is aligned (R423), and after reset it caches nothing. -/
theorem leafAligned_of_tlbFind {s : State} {part level va b p : Nat} {l : Leaf} (h : tlbFind s part level va = some (.leaf b p l)) :
    LeafAligned l := by
  unfold tlbFind at h
  dsimp only at h
  split at h
  · cases h
  · split at h
    · cases h
    · next l' hl =>
      have hkept : l' = l := by
        split_ifs at h
        · cases h
        · cases h
        · split at h <;> exact (Cached.leaf.inj (Option.some.inj h)).2.2
      exact hkept ▸ leafAligned_of_walk hl
theorem cachedLeavesAligned_reset : CachedLeavesAligned State.reset := fun _ _ he => absurd he List.not_mem_nil

theorem leafAligned_of_pin {d : Die} {part va : Nat} {l : Leaf} (h : pinOf d part va = some l) : LeafAligned l := by
  unfold pinOf at h
  split at h
  · next p _ =>
    obtain rfl := Option.some.inj h
    by_cases hp : p.paired = true
    · rw [if_pos hp]
      trivial
    · rw [if_neg hp]
      refine ⟨eAddr_aligned _, ?_⟩
      split <;> decide
  · cases h

theorem leafAligned_of_held {s : State} (hs : CachedLeavesAligned s) {d part va : Nat} {l : Leaf} (h : (s.die d).leaf part va = some l) :
    LeafAligned l := by
  unfold Die.leaf at h
  split at h
  · next l' hpin =>
    obtain rfl := Option.some.inj h
    exact leafAligned_of_pin hpin
  · obtain ⟨e, he, hl⟩ := List.exists_of_findSome?_eq_some h
    dsimp only at hl
    split at hl
    · next b p l' hw =>
      split at hl
      · obtain rfl := Option.some.inj hl
        exact hs d e (List.mem_filter.mp he).1 b p _ hw
      · cases hl
    · cases hl

/-- R417: a paired leaf gives no right to execute. -/
theorem halfOf_fetch (pub n : Half) (lo hi : W64) (f : Nat) : halfOf pub n .fetch lo hi ≠ .ok f := by
  unfold halfOf
  simp only [Use.x, Bool.or_true, if_true]
  split_ifs <;> nofun

theorem leafUse_fetch_aligned {pub : Half} {c : Ctx} {va len : Nat} {l : Leaf} {x : Xl} (hl : LeafAligned l) (hva : 64 ∣ va)
    (h : leafUse pub c .fetch va len l = .ok x) : 64 ∣ x.pa := by
  cases l with
  | plain e frame bits =>
    obtain ⟨hf, hb⟩ := hl
    simp only [leafUse] at h
    split at h
    · cases h
    · obtain rfl := Except.ok.inj h
      exact Nat.dvd_add hf ((Nat.dvd_mod_iff hb).mpr hva)
  | paired lo hi =>
    simp only [leafUse] at h
    split at h
    · next f hf => exact (halfOf_fetch _ _ _ _ f hf).elim
    · cases h

theorem translatePart_fetch_aligned {s : State} (hs : CachedLeavesAligned s) {c : Ctx} {va len : Nat} {x : Xl} (hva : 64 ∣ va)
    (h : translatePart s c .fetch va len = .ok x) : 64 ∣ x.pa := by
  unfold translatePart at h
  dsimp only at h
  split at h
  · next l hl =>
    refine leafUse_fetch_aligned ?_ hva h
    split at hl
    · next l' hh =>
      split at hl
      · exact leafAligned_of_walk hl
      · obtain rfl := Except.ok.inj hl
        exact leafAligned_of_held hs hh
    · exact leafAligned_of_walk hl
  · cases h

theorem lineAddr_aligned (pc : W64) : 64 ∣ ((lineAddr pc).extractLsb' 0 56).toNat := by
  have h : (lineAddr pc).toNat % 64 = 0 := by
    simp only [lineAddr, BitVec.toNat_sub, BitVec.toNat_setWidth, BitVec.extractLsb'_toNat]
    omega
  rw [BitVec.extractLsb'_toNat]
  omega

theorem translate_fetch_aligned {s : State} (hs : CachedLeavesAligned s) {c : Ctx} {va len : Nat} {x : Xl} {xs : List Xl} (hva : 64 ∣ va)
    (h : Machine.translate s c .fetch va len = .ok (x :: xs)) : 64 ∣ x.pa := by
  unfold Machine.translate translateFrom at h
  dsimp only at h
  split at h
  · cases h
  · next y hy =>
    have hyx : y = x := by
      split at h
      · exact (List.cons.inj (Except.ok.inj h)).1
      · split at h
        · cases h
        · exact (List.cons.inj (Except.ok.inj h)).1
    exact hyx ▸ translatePart_fetch_aligned hs hva hy

theorem fetchAddr_aligned {s : State} (hs : CachedLeavesAligned s) {c : Ctx} {pc : W64} {pa : Nat} (h : fetchAddr s c pc = .ok pa) :
    64 ∣ pa := by
  unfold fetchAddr at h
  split at h
  · cases h
  · split at h
    · next x xs hx =>
      obtain rfl := Except.ok.inj h
      unfold globalAccess at hx
      split at hx
      · cases hx
      · split_ifs at hx
        exact translate_fetch_aligned hs (lineAddr_aligned pc) hx
    · cases h
    · cases h

end Sys2Proof.FetchFacts
end

section
/-!
Branches (R142, R143): what the transfer of a set of threads leaves, when every target can be read.
-/

namespace Sys2Proof.BranchProofs

open Sys2Proof Sys2Proof.Machine Sys2Proof.FetchFacts

/-! ### The state between two lanes' transfers -/

/-- `t` is `s` with group `gid` at `g`, up to what fetches leave. -/
structure FetchedWith (s : State) (gid : Nat) (g : Group) (t : State) : Prop where
  group : t.group gid = g
  fetch : ∀ h, FetchOnly (s.setGroup gid h) (t.setGroup gid h)

theorem FetchedWith.start (s : State) (gid : Nat) : FetchedWith s gid (s.group gid) s := ⟨rfl, fun _ => fetchOnly_refl _⟩

theorem FetchedWith.afterFetch {s t u : State} {gid : Nat} {g : Group} (h : FetchedWith s gid g t) (k : FetchOnly t u) :
    FetchedWith s gid g u := by
  refine ⟨?_, fun x => fetchOnly_trans (h.fetch x) (fetchOnly_setGroup k gid x)⟩
  rw [fetchOnly_eq k]
  exact h.group

theorem FetchedWith.setGroup {s t : State} {gid : Nat} {g : Group} (h : FetchedWith s gid g t) (g' : Group) :
    FetchedWith s gid g' (t.setGroup gid g') :=
  ⟨State.setGroup_group_same t gid g', fun x => by rw [State.setGroup_twice]; exact h.fetch x⟩

theorem FetchedWith.fetchAddr {s t : State} {gid : Nat} {g : Group} (h : FetchedWith s gid g t) (c : Ctx) (pc : W64) :
    fetchAddr t c pc = fetchAddr s c pc := fetchOnly_fetchAddr (h.fetch g) c pc
theorem FetchedWith.ctx {s t : State} {gid : Nat} {g : Group} (h : FetchedWith s gid g t) (i : Nat) (lv : Priv) :
    t.ctx i lv = s.ctx i lv := fetchOnly_ctx (h.fetch g) i lv
theorem FetchedWith.mem {s t : State} {gid : Nat} {g : Group} (h : FetchedWith s gid g t) : t.mem = s.mem := by
  simpa using fetchOnly_mem (h.fetch g)

/-- The state lists the group, so that writing its own value changes nothing. -/
def Listed (gid : Nat) (s : State) : Prop := s.setGroup gid (s.group gid) = s

theorem listed_setGroup (s : State) (gid : Nat) (g : Group) : Listed gid (s.setGroup gid g) := by
  rw [Listed, State.setGroup_group_same, State.setGroup_twice]

/-! ### One lane -/

/-- A thread that has taken a branch to `pc`. -/
def landed (pop : Bool) (pc : W64) (x : Thread) : Thread := { x with pc := pc, loops := if pop then x.loops.drop 1 else x.loops }

/-- A lane's transfer, after the lanes before it. -/
def jump (gid : Nat) (tgt : Nat → W64) (pop : Bool) (a : State × List Trap) (l : Nat) : State × List Trap :=
  match targetFault a.1 (a.1.ctx gid ((a.1.group gid).thread l).priv) (cidOf gid) (tgt l) with
  | (some (w, ad), s) => (s, a.2 ++ [⟨l, w, ad⟩])
  | (none, s) => (s.setGroup gid ((s.group gid).modThread l (landed pop (tgt l))), a.2)

theorem modThread_twice (g : Group) (l : Nat) (f k : Thread → Thread) :
    (g.modThread l f).modThread l k = g.modThread l fun x => k (f x) := by
  simp [Group.modThread, Group.setThread, Group.thread]

theorem popLoop_then_pc (s : State) (gid l : Nat) (pop : Bool) (pc : W64) :
    (popLoop gid pop s l).modGroup gid (fun g => g.modThread l fun t => { t with pc := pc })
      = s.setGroup gid ((s.group gid).modThread l (landed pop pc)) := by
  cases pop with
  | false => rfl
  | true =>
    simp only [popLoop, if_true, State.modGroup, State.setGroup_group_same, State.setGroup_twice, modThread_twice]
    rfl

theorem transfer_eq_jumps (x : At) (take : Mask) (tgt : Nat → W64) (pop : Bool) (s : State) :
    transfer x take tgt noCheck noCheck (popLoop x.gid pop) s
      = (let r := (lanesOf take).foldl (jump x.gid tgt pop) (s, []); ⟨r.1, r.2, take, false⟩) := by
  unfold transfer
  simp only [noCheck, popLoop_then_pc]
  rfl

/-! ### Every lane that branches -/

section Lanes

variable (s : State) (take : Mask) (tgt : Nat → W64)

/-- The address of the line of a lane's target. -/
def targetAddr (l : Nat) : Except W32 Nat := fetchAddr s (s.ctx s.cur.gid (s.here.thread l).priv) (tgt l)

/-- Targets whose lines a cache holds under one key lie at one address. -/
def LinesApart : Prop :=
  ∀ l l' pa pa', take.getLsbD l = true → take.getLsbD l' = true → targetAddr s tgt l = .ok pa → targetAddr s tgt l' = .ok pa' →
    pa / 64 = pa' / 64 → pa = pa'

/-- No line that the core holds in state `t` fails a lane's target, unless its parity is wrong, so that it is fetched again. -/
def HeldNameTargets (t : State) : Prop :=
  ∀ l pa x, take.getLsbD l = true → targetAddr s tgt l = .ok pa → held t (cidOf s.cur.gid) (pa / 64) = some x →
    lparBad x = true ∨ NamesTarget (tgt l) x

/-- What makes the line that is read a good one: memory's is always chosen, or the held ones are good and stay so. -/
def GoodLines (t : State) : Prop := AlwaysMemory ∨ (LinesApart s take tgt ∧ HeldNameTargets s take tgt t)

variable {s take tgt}

theorem goodLines_setGroup {t : State} {g : Group} (h : GoodLines s take tgt t) : GoodLines s take tgt (t.setGroup s.cur.gid g) := h

/-- The check of one lane's target: no fault, and what later lanes rely on is kept. -/
theorem target_passes {g : Group} {t : State} {l : Nat} (hf : FetchedWith s s.cur.gid g t) (hg : GoodLines s take tgt t)
    (htake : ∀ l, take.getLsbD l = true → TargetReads s (s.here.thread l).priv (tgt l)) (hl : take.getLsbD l = true)
    (hlv : (g.thread l).priv = (s.here.thread l).priv) :
    ∃ u, targetFault t (t.ctx s.cur.gid ((t.group s.cur.gid).thread l).priv) (cidOf s.cur.gid) (tgt l) = (none, u)
      ∧ FetchedWith s s.cur.gid g u ∧ GoodLines s take tgt u := by
  obtain ⟨pa, ha, hm, -⟩ := (targetReads_iff ..).mp (htake l hl)
  have ha' : fetchAddr t (t.ctx s.cur.gid ((t.group s.cur.gid).thread l).priv) (tgt l) = .ok pa := by
    rw [hf.group, hlv, hf.ctx, hf.fetchAddr]
    exact ha
  obtain ⟨hu, -⟩ := targetFault_of_ok (cid := cidOf s.cur.gid) ha'
  refine ⟨(targetLine t (cidOf s.cur.gid) pa).2, Prod.ext (targetFault_none ha' (hf.mem ▸ hm) ?_) hu,
    hf.afterFetch (fetchOnly_targetLine ..), ?_⟩
  · exact hg.imp_right fun ⟨_, hh⟩ x hx => hh l pa x hl ha hx
  · refine hg.imp_right fun ⟨hap, hh⟩ => ⟨hap, fun l' pa' x hl' ha2 hx => ?_⟩
    rcases held_targetLine hx with hx | ⟨hk, rfl⟩
    · exact hh l' pa' x hl' ha2 hx
    · obtain ⟨pa2, ha3, hm', -⟩ := (targetReads_iff ..).mp (htake l' hl')
      have e2 : pa2 = pa' := Except.ok.inj (ha3.symm.trans ha2)
      have e1 : pa' = pa := hap l' l pa' pa hl' hl ha2 ha hk
      subst e2 e1
      exact .inr (hf.mem ▸ hm')

/-- The lanes of a list branch, each on its own. -/
theorem jumps_land (pop : Bool) (htake : ∀ l, take.getLsbD l = true → TargetReads s (s.here.thread l).priv (tgt l))
    (ls : List Nat) (hn : ls.Nodup) (hls : ∀ l ∈ ls, take.getLsbD l = true) (g : Group) (t : State) (hf : FetchedWith s s.cur.gid g t)
    (hg : GoodLines s take tgt t) (hlv : ∀ l ∈ ls, (g.thread l).priv = (s.here.thread l).priv) :
    ∃ u, ls.foldl (jump s.cur.gid tgt pop) (t, []) = (u, [])
      ∧ FetchedWith s s.cur.gid (ls.foldl (fun g l => g.modThread l (landed pop (tgt l))) g) u
      ∧ (Listed s.cur.gid t ∨ ls ≠ [] → Listed s.cur.gid u) := by
  induction ls generalizing g t with
  | nil => exact ⟨t, rfl, hf, fun h => h.resolve_right (absurd rfl)⟩
  | cons a ls ih =>
    obtain ⟨ha, hn'⟩ := List.nodup_cons.mp hn
    obtain ⟨u, hu, hfu, hgu⟩ := target_passes hf hg htake (hls a (List.mem_cons_self ..)) (hlv a (List.mem_cons_self ..))
    have hjump : jump s.cur.gid tgt pop (t, []) a = (u.setGroup s.cur.gid (g.modThread a (landed pop (tgt a))), []) := by
      simp only [jump, hu, hfu.group]
    have hlv' : ∀ l ∈ ls, ((g.modThread a (landed pop (tgt a))).thread l).priv = (s.here.thread l).priv := fun l hl => by
      have hla : l ≠ a := fun h => ha (h ▸ hl)
      rw [Group.thread_modThread, if_neg hla]
      exact hlv l (List.mem_cons_of_mem _ hl)
    obtain ⟨v, hv, hfv, hsv⟩ := ih hn' (fun l hl => hls l (List.mem_cons_of_mem _ hl)) _ _ (hfu.setGroup _) (goodLines_setGroup hgu) hlv'
    exact ⟨v, by rw [List.foldl_cons, hjump, hv], hfv, fun _ => hsv (.inl (listed_setGroup ..))⟩

/-- The transfer of a set whose targets can be read: no fault, and every thread of the set lands. -/
theorem transfer_lands (x : At) (hx : x.gid = s.cur.gid) (pop : Bool)
    (htake : ∀ l, take.getLsbD l = true → TargetReads s (s.here.thread l).priv (tgt l)) (hg : AlwaysMemory ∨ LinesApart s take tgt) :
    ∃ u, transfer x take tgt noCheck noCheck (popLoop x.gid pop) s = ⟨u, [], take, false⟩
      ∧ FetchedWith s s.cur.gid ((lanesOf take).foldl (fun g l => g.modThread l (landed pop (tgt l))) s.here) u
      ∧ (take ≠ 0#32 → Listed s.cur.gid u) := by
  have hheld : HeldNameTargets s take tgt s := fun l pa x hl ha hx => by
    obtain ⟨pa', ha', -, hh⟩ := (targetReads_iff ..).mp (htake l hl)
    obtain rfl : pa' = pa := Except.ok.inj (ha'.symm.trans ha)
    exact hh x hx
  obtain ⟨u, hu, hfu, hlist⟩ := jumps_land pop htake (lanesOf take) (nodup_lanesOf take) (fun l => mem_lanesOf.mp) s.here s
    (FetchedWith.start s s.cur.gid) (hg.imp_right fun h => ⟨h, hheld⟩) (fun _ _ => rfl)
  refine ⟨u, ?_, hfu, fun h => hlist (.inr (lanesOf_ne_nil h))⟩
  rw [transfer_eq_jumps, hx, hu]

end Lanes

/-! ### The other threads pass the slot -/

theorem modThreads_zero (g : Group) (f : Thread → Thread) : g.modThreads 0#32 f = g := by
  have : lanesOf 0#32 = [] := by decide
  rw [modThreads_eq, this, List.foldl_nil]

/-- An effect without faults that some threads do not pass: the others fall through, where none stands at an END. -/
theorem finish_stay (gid : Nat) (act stay : Mask) (s : State) (hlist : act &&& ~~~stay = 0#32 → Listed gid s)
    (h : ∀ l, (act &&& ~~~stay).getLsbD l = true →
      ∀ e ∈ ((s.group gid).thread l).loops.head?, e.stop ≠ ((s.group gid).thread l).pc) :
    finish gid act ⟨s, [], stay, false⟩ = s.setGroup gid ((s.group gid).modThreads (act &&& ~~~stay) Thread.past) := by
  have ht : trapsMask [] = 0#32 := rfl
  have hpass : passSet s gid (act &&& ~~~stay) = (s.setGroup gid ((s.group gid).modThreads (act &&& ~~~stay) Thread.past), []) := by
    by_cases hz : act &&& ~~~stay = 0#32
    · have hnil : lanesOf 0#32 = [] := by decide
      rw [hz, modThreads_zero, hlist hz, passSet, hnil, List.foldl_nil]
    · exact passSet_straight s gid _ hz h
  simp only [finish, Bool.false_eq_true, if_false, ht, BitVec.zero_or, hpass, List.append_nil]
  rfl

/-- What a branch leaves of each thread. -/
def afterBranch (s : State) (take : Mask) (tgt : Nat → W64) (pop : Bool) (l : Nat) : Thread :=
  if take.getLsbD l then landed pop (tgt l) (s.here.thread l)
  else if s.cur.mask.getLsbD l then (s.here.thread l).past else s.here.thread l

/-- A branch of the threads `take`, every target of which can be read: the words of `BranchesTransfer`, for states in which a fetch finds
memory's line or one as good. -/
theorem branch_completes {i : Instr} {s : State} {take : Mask} {tgt : Nat → W64} {pop : Bool} {body : At → State → Out}
    (hx : exec i s = .next (issue i s body)) (hi : Issues i s) (hst : Straight s)
    (hb : body ⟨s.cur.gid, s.cur.mask, contributing i s, s.env s.cur.gid⟩ s
      = transfer ⟨s.cur.gid, s.cur.mask, contributing i s, s.env s.cur.gid⟩ take tgt noCheck noCheck (popLoop s.cur.gid pop) s)
    (htake : ∀ l, take.getLsbD l = true → TargetReads s (s.here.thread l).priv (tgt l)) (hg : AlwaysMemory ∨ LinesApart s take tgt) :
    ∃ h t, exec i s = .next t ∧ FetchOnly (s.setGroup s.cur.gid h) t ∧ ThreadsAfter s.here (afterBranch s take tgt pop) h := by
  obtain ⟨u, hu, hfu, hlist⟩ := transfer_lands ⟨s.cur.gid, s.cur.mask, contributing i s, s.env s.cur.gid⟩ rfl pop htake hg
  obtain ⟨hbare, hthr⟩ := fold_modThread (fun l => landed pop (tgt l)) (lanesOf take) (nodup_lanesOf take) s.here
  generalize (lanesOf take).foldl (fun g l => g.modThread l (landed pop (tgt l))) s.here = g at hfu hbare hthr
  simp only [mem_lanesOf] at hthr
  have hrest : ∀ l, (s.cur.mask &&& ~~~take).getLsbD l = true ↔ s.cur.mask.getLsbD l = true ∧ take.getLsbD l ≠ true := fun l => by
    by_cases h32 : l < 32
    · simp [h32]
    · simp [BitVec.getLsbD_of_ge _ l (Nat.le_of_not_lt h32)]
  have hlisted : s.cur.mask &&& ~~~take = 0#32 → Listed s.cur.gid u := fun hz =>
    hlist fun h0 => hi.1 (by rwa [h0, BitVec.not_zero, BitVec.and_allOnes] at hz)
  have hends : ∀ l, (s.cur.mask &&& ~~~take).getLsbD l = true →
      ∀ e ∈ ((u.group s.cur.gid).thread l).loops.head?, e.stop ≠ ((u.group s.cur.gid).thread l).pc := fun l hl => by
    obtain ⟨hm, hnt⟩ := (hrest l).mp hl
    rw [hfu.group, hthr l, if_neg hnt]
    exact hst l hm
  refine ⟨g.modThreads (s.cur.mask &&& ~~~take) Thread.past, u.setGroup s.cur.gid (g.modThreads (s.cur.mask &&& ~~~take) Thread.past),
    ?_, hfu.fetch _, fun l => ?_, ?_⟩
  · rw [hx, issue_eq hi, hb, hu, finish_stay _ _ _ _ hlisted hends, hfu.group]
  · rw [Group.thread_modThreads, hthr l, afterBranch]
    simp only [hrest]
    by_cases ht : take.getLsbD l = true
    · simp [ht]
    · simp [ht]
  · have hb2 := (Group.bare_modThreads g (s.cur.mask &&& ~~~take) Thread.past).trans hbare
    exact congrArg (fun x : Group => { x with threads := s.here.threads }) hb2

/-! ### `bra` and `brx` -/

theorem exec_bra (o : Ops) (nq pop : Bool) (s : State) : exec (.bra o nq pop) s = execBra o nq pop s := rfl
theorem exec_brx (o : Ops) (pop : Bool) (s : State) : exec (.brx o pop) s = execBrx o pop s := rfl

theorem isBranch_of_branchSpec {g : Group} {e : Env} {p : W64} {l : Nat} {i : Instr} {r : Ops × Bool × Bool × W64}
    (h : branchSpec g e p l i = some r) : (∃ o nq pop, i = .bra o nq pop) ∨ ∃ o pop, i = .brx o pop := by
  unfold branchSpec at h
  split at h
  · exact .inl ⟨_, _, _, rfl⟩
  · exact .inr ⟨_, _, rfl⟩
  · cases h

theorem curPc_of_atPc {s : State} {p : W64} (hp : AtPc s p) (hm : s.cur.mask ≠ 0#32) (eff : Mask) (e : Env) :
    curPc s ⟨s.cur.gid, s.cur.mask, eff, e⟩ = p := by
  unfold curPc
  dsimp only
  cases hl : lanesOf s.cur.mask with
  | nil => exact absurd hl (lanesOf_ne_nil hm)
  | cons l ls => exact hp l (mem_lanesOf.mp (hl ▸ List.mem_cons_self ..))

/-- A `bra` under a q register is taken by all its contributing threads or by none, as `rdP` reads a q register alike in every lane. -/
theorem bra_takes (g : Group) (eff : Mask) (a : Opd) (nq : Bool) :
    (if a.isQ then (if rdP g 0 a != nq then eff else 0#32) else eff) = maskWhere eff fun l => !a.isQ || rdP g l a != nq := by
  apply BitVec.eq_of_getLsbD_eq
  intro l _
  rw [getLsbD_maskWhere]
  cases a with
  | q n => by_cases h : rdP g l (.q n) = nq <;> simp_all [Opd.isQ, rdP]
  | _ => simp [Opd.isQ]

/-- What `BranchesTransfer` concludes of one branch. -/
def Transfers (i : Instr) (s : State) (p : W64) (pop : Bool) (take : Nat → Bool) (goes_ : Nat → W64) : Prop :=
  ∃ h t, exec i s = .next t ∧ FetchOnly (s.setGroup s.cur.gid h) t ∧ ThreadsAfter s.here (fun l =>
    let x := s.here.thread l
    if (contributing i s).getLsbD l && take l then { x with pc := goes_ l, loops := if pop then x.loops.drop 1 else x.loops }
    else if s.cur.mask.getLsbD l then { x with pc := nextPc p, wait := none } else x) h

theorem branch_transfers {i : Instr} {s : State} {p : W64} {o : Ops} {pop : Bool} {take : Nat → Bool} {goes_ : Nat → W64}
    (hspec : ∀ l, branchSpec s.here (s.env s.cur.gid) p l i = some (o, pop, take l, goes_ l)) (hi : Issues i s) (hst : Straight s)
    (hp : AtPc s p) (hgood : ∀ l, (contributing i s).getLsbD l = true → take l = true → TargetReads s (s.here.thread l).priv (goes_ l))
    (hg : AlwaysMemory ∨ LinesApart s (maskWhere (contributing i s) take) goes_) : Transfers i s p pop take goes_ := by
  have hmem : ∀ l, (maskWhere (contributing i s) take).getLsbD l = true → (contributing i s).getLsbD l = true ∧ take l = true := fun l h => by
    rwa [getLsbD_maskWhere, Bool.and_eq_true] at h
  have hbody : ∃ body, exec i s = .next (issue i s body)
      ∧ body ⟨s.cur.gid, s.cur.mask, contributing i s, s.env s.cur.gid⟩ s
        = transfer ⟨s.cur.gid, s.cur.mask, contributing i s, s.env s.cur.gid⟩ (maskWhere (contributing i s) take) goes_ noCheck noCheck
          (popLoop s.cur.gid pop) s := by
    rcases isBranch_of_branchSpec (hspec 0) with ⟨o', nq, pop', rfl⟩ | ⟨o', pop', rfl⟩
    · refine ⟨_, exec_bra o' nq pop' s, ?_⟩
      simp only [branchSpec, Option.some.injEq, Prod.mk.injEq, forall_and] at hspec
      obtain ⟨-, hpop, htake, hgoes⟩ := hspec
      obtain rfl : take = fun l => !o'.a.isQ || rdP s.here l o'.a != nq := funext fun l => (htake l).symm
      obtain rfl : goes_ = fun _ => p + o'.imm.signExtend 64 := funext fun l => (hgoes l).symm
      dsimp only
      rw [relTarget, curPc_of_atPc hp hi.1, ← hpop 0, ← bra_takes]
      rfl
    · refine ⟨_, exec_brx o' pop' s, ?_⟩
      simp only [branchSpec, Option.some.injEq, Prod.mk.injEq, forall_and] at hspec
      obtain ⟨-, hpop, htake, hgoes⟩ := hspec
      obtain rfl : goes_ = fun l => rd64 s.here (s.env s.cur.gid) 0#32 l o'.a := funext fun l => (hgoes l).symm
      have hall : maskWhere (contributing (.brx o' pop') s) take = contributing (.brx o' pop') s :=
        BitVec.eq_of_getLsbD_eq fun l _ => by rw [getLsbD_maskWhere, ← htake l, Bool.and_true]
      dsimp only
      rw [hall, ← hpop 0]
      rfl
  obtain ⟨body, hx, hb⟩ := hbody
  obtain ⟨h, t, ht, hf, ha⟩ := branch_completes hx hi hst hb
    (fun l hl => hgood l (hmem l hl).1 (hmem l hl).2) hg
  refine ⟨h, t, ht, hf, fun l => (ha.threads l).trans ?_, ha.rest⟩
  rw [afterBranch, getLsbD_maskWhere]
  by_cases hm : s.cur.mask.getLsbD l = true
  · rw [← hp l hm]
    rfl
  · simp only [hm]
    rfl

/-! ### In a machine that caches whole lines -/

/-- Lines at aligned addresses that share a key are one line. -/
theorem linesApart_of_aligned {s : State} (hs : CachedLeavesAligned s) (take : Mask) (tgt : Nat → W64) : LinesApart s take tgt := by
  intro l l' pa pa' _ _ ha ha' hk
  have h := fetchAddr_aligned hs ha
  have h' := fetchAddr_aligned hs ha'
  omega

/-- The branches transfer as R142 and R143 say in every state whose dies cache leaves of whole lines. -/
theorem branches_transfer_of_aligned {i : Instr} {s : State} {p : W64} {o : Ops} {pop : Bool} {take : Nat → Bool} {goes_ : Nat → W64}
    (hleaf : CachedLeavesAligned s) (hspec : ∀ l, branchSpec s.here (s.env s.cur.gid) p l i = some (o, pop, take l, goes_ l))
    (hi : Issues i s) (hst : Straight s) (hp : AtPc s p)
    (hgood : ∀ l, (contributing i s).getLsbD l = true → take l = true → TargetReads s (s.here.thread l).priv (goes_ l)) :
    Transfers i s p pop take goes_ :=
  branch_transfers hspec hi hst hp hgood (.inr (linesApart_of_aligned hleaf _ _))

end Sys2Proof.BranchProofs
end

section
/-!
Why O17 (`BranchesTransfer`) is left unsettled. The statement asks nothing of the leaves that a die caches. Two of them whose frames are no whole
lines put two lines under one key of an instruction cache; then the line that the second thread of a `brx` finds is the first thread's, where
the free value of R68 prefers the held line to memory's. So the statement is equivalent to a fact about the free values alone.
-/

namespace Sys2Proof.SkewedLines

open Sys2Proof Sys2Proof.Machine Sys2Proof.FetchFacts Sys2Proof.BranchProofs

/-- A fault of a target is no end of a job: a thread outside handlers takes it (R160). -/
theorem tcause_of_badTarget (s : State) {gid lane : Nat} (a : W64) (h : (s.group gid).tlanes.getLsbD lane = false) :
    (((deliver s gid [⟨lane, fwBADTGT, a⟩]).group gid).thread lane).tcause = fwBADTGT := by
  have hend : endsJob s gid fwBADTGT = false := by
    have hne : fwBADTGT ≠ fwLEASEOUT ∧ fwBADTGT ≠ fwACCSTALE := by decide
    simp [endsJob, hne]
  have hentry : deliver s gid [⟨lane, fwBADTGT, a⟩] = trapEntry s gid [⟨lane, fwBADTGT, a⟩] := by
    simp [deliver, hend, h]
  have hgroup : (trapEntry s gid [⟨lane, fwBADTGT, a⟩]).group gid
      = { (s.group gid).modThread lane (trapThread (handlerPc s gid) ⟨lane, fwBADTGT, a⟩) with tlanes := setBit (s.group gid).tlanes lane true } :=
    State.setGroup_group_same s gid _
  rw [hentry, hgroup]
  exact congrArg Thread.tcause ((Group.thread_modThread (s.group gid) lane lane _).trans (if_pos rfl))

/-! ### Two lines under one key -/

/-- A die whose caches give the whole of region 0 for fetches, and two leaves: page 0 at 0x2000 and page 1 at 0x2004, four bytes on. -/
def skewDie : Die :=
  { Die.zero with tlb := [⟨0, .bounds 0 0x0B00000000000000#64 0x00FFFFFFFFFFFFFF#64, true⟩, ⟨0, .leaf 16 0 (.plain 0x400#64 0x2000 16), true⟩,
      ⟨0, .leaf 16 1 (.plain 0x400#64 0x2004 16), true⟩] }
/-- Two threads, for which the affine register a0 reads 0 and 0x1000C. -/
def skewGroup : Group :=
  { Group.zero with live := true, fmask := 3#32, threads := [(0, .zero), (1, .zero)], ab := [(0, 0#64)], as := [(0, 0x1000C#32)] }
/-- The line word of page 0's line names the slots 0 and 2 as targets, that of page 1's the slots 1 and 2. -/
def skewMemory : Memory := ⟨[(0x203C, 5#8), (0x2040, 6#8)], [], []⟩
/-- The machine with them after reset, at free value `n`. -/
def skewState (n : Nat) : State :=
  { State.reset with groups := [(0, skewGroup)], dies := [(0, skewDie)], mem := skewMemory, cur := ⟨0, 3#32, 0, 0, 0#32⟩, fresh := n }
/-- `brx a0`. -/
def skewBranch : Instr := .brx ⟨Guard.always, .none, .a 0, .none, .none, 0#32⟩ false
def skewTarget (l : Nat) : W64 := laneVal 0#64 0x1000C#32 l

theorem skew_fetchAddr0 (n : Nat) : fetchAddr (skewState n) ((skewState n).ctx 0 .user) 0#64 = .ok 0x2000 := rfl
theorem skew_fetchAddr1 (n : Nat) : fetchAddr (skewState n) ((skewState n).ctx 0 .user) 0x1000C#64 = .ok 0x2004 := rfl
theorem skew_line0 : NamesTarget 0#64 (skewMemory.peeks 0x2000 64) := by unfold NamesTarget; decide
theorem skew_line1 : NamesTarget 0x1000C#64 (skewMemory.peeks 0x2004 64) := by unfold NamesTarget; decide
theorem skew_target0 : skewTarget 0 = 0#64 := by decide
theorem skew_target1 : skewTarget 1 = 0x1000C#64 := by decide

/-- The state after lane 0. -/
def skewNext (n : Nat) : State :=
  { skewState n with groups := [(0, skewGroup.modThread 0 (landed false 0#64))]
                     cores := [(0, { Machine.Core.zero with ic := [(0x80, skewMemory.peeks 0x2000 64)] })] }

theorem skew_jump0 (n : Nat) : jump 0 skewTarget false (skewState n, []) 0 = (skewNext n, []) := by
  have h : targetFault (skewState n) ((skewState n).ctx 0 .user) 0 0#64 = (none, icPut (skewState n) 0 0x80 (skewMemory.peeks 0x2000 64)) :=
    targetFault_unheld (skew_fetchAddr0 n) rfl skew_line0
  have hlv : (((skewState n).group 0).thread 0).priv = .user := rfl
  unfold jump
  rw [skew_target0]
  dsimp only
  rw [hlv, show cidOf 0 = 0 from rfl, h]
  rfl

theorem skew_jump1 {n : Nat} (hf : (Config.free n).getLsbD 0 = false) :
    jump 0 skewTarget false (skewNext n, []) 1 = ({ skewNext n with fresh := n + 1 }, [⟨1, fwBADTGT, 0x1000C#64⟩]) := by
  have h : targetFault (skewNext n) ((skewNext n).ctx 0 .user) 0 0x1000C#64 = (some (fwBADTGT, 0x1000C#64), { skewNext n with fresh := n + 1 }) :=
    targetFault_held (pa := 0x2004) (old := skewMemory.peeks 0x2000 64) rfl rfl
      (show skewMemory.peeks 0x2000 64 ≠ skewMemory.peeks 0x2004 64 by decide) hf (by decide) (by decide) (by decide)
  have hlv : (((skewNext n).group 0).thread 1).priv = .user := rfl
  unfold jump
  rw [skew_target1]
  dsimp only
  rw [hlv, show cidOf 0 = 0 from rfl, h]
  rfl

theorem skew_issues (n : Nat) : Issues skewBranch (skewState n) :=
  ⟨show (3#32 : Mask) ≠ 0#32 by decide, nofun, rfl, rfl, nofun⟩

theorem skew_straight (n : Nat) : Straight (skewState n) := by
  intro l _ e he
  have hl : ∀ l, (skewGroup.thread l).loops = [] := fun l => by
    simp only [skewGroup, Group.thread, Tbl.get, Tbl.find]
    split_ifs <;> rfl
  have hnil : ((skewState n).here.thread l).loops = [] := hl l
  rw [hnil] at he
  cases he

theorem lane_of_three {l : Nat} (h : (3#32 : Mask).getLsbD l = true) : l = 0 ∨ l = 1 := by
  have hl : l < 32 := BitVec.lt_of_getLsbD h
  interval_cases l <;> simp_all

theorem skew_atPc (n : Nat) : AtPc (skewState n) 0#64 := by
  intro l hl
  rcases lane_of_three hl with rfl | rfl <;> rfl

theorem skew_targetReads (n : Nat) (l : Nat) (hl : (skewState n).cur.mask.getLsbD l = true) :
    TargetReads (skewState n) ((skewState n).here.thread l).priv (skewTarget l) := by
  refine (targetReads_iff ..).mpr ?_
  rcases lane_of_three hl with rfl | rfl
  · rw [skew_target0]
    exact ⟨0x2000, skew_fetchAddr0 n, skew_line0, nofun⟩
  · rw [skew_target1]
    exact ⟨0x2004, skew_fetchAddr1 n, skew_line1, nofun⟩

theorem skew_contributing (n : Nat) : contributing skewBranch (skewState n) = 3#32 :=
  (show _ = contributing skewBranch (skewState 0) from rfl).trans (by decide)

theorem skew_exec {n : Nat} (hf : (Config.free n).getLsbD 0 = false) :
    exec skewBranch (skewState n)
      = .next (finish 0 3#32 ⟨{ skewNext n with fresh := n + 1 }, [⟨1, fwBADTGT, 0x1000C#64⟩], 3#32, false⟩) := by
  have hl : lanesOf 3#32 = [0, 1] := by decide
  refine (exec_brx _ false (skewState n)).trans (congrArg Host.Outcome.next ?_)
  refine (issue_eq (skew_issues n) _).trans (congrArg (finish 0 3#32) ?_)
  refine (transfer_eq_jumps _ _ skewTarget false (skewState n)).trans ?_
  simp only [skew_contributing, hl, List.foldl_cons, List.foldl_nil]
  rw [show jump (skewState n).cur.gid = jump 0 from rfl, skew_jump0, skew_jump1 hf]

theorem skew_traps (n : Nat) :
    (((finish 0 3#32 ⟨{ skewNext n with fresh := n + 1 }, [⟨1, fwBADTGT, 0x1000C#64⟩], 3#32, false⟩).group 0).thread 1).tcause
      = fwBADTGT := by
  have hm : (3#32 : Mask) &&& ~~~(trapsMask [⟨1, fwBADTGT, 0x1000C#64⟩] ||| 3#32) = 0#32 := by decide
  have hnil : lanesOf 0#32 = [] := by decide
  simp only [finish, Bool.false_eq_true, if_false, hm, passSet, hnil, List.foldl_nil, List.append_nil]
  exact tcause_of_badTarget _ _ (show (0#32 : Mask).getLsbD 1 = false by decide)

/-- Where a free value prefers the held line, the second thread of `brx` traps, though its target can be read. -/
theorem skew_not_transfers {n : Nat} (hf : (Config.free n).getLsbD 0 = false) :
    ¬ Transfers skewBranch (skewState n) 0#64 false (fun _ => true) skewTarget := by
  rintro ⟨h, t, ht, hfetch, hafter⟩
  have hgroup : t.group 0 = h := by
    rw [fetchOnly_eq hfetch]
    exact State.setGroup_group_same (skewState n) 0 h
  rw [skew_exec hf] at ht
  have hcause := skew_traps n
  rw [Host.Outcome.next.inj ht, hgroup, hafter.threads 1] at hcause
  simp only [skew_contributing] at hcause
  have hzero : (0#32 : W32) = fwBADTGT := hcause
  exact absurd hzero (by decide)

/-- O17 says the same as a fact about the free values alone, which are constants without a body: so neither it nor its negation has a proof.
It asks nothing of what the dies cache, and two leaves whose frames are no whole lines can put two lines under one key. -/
theorem branchesTransfer_iff_alwaysMemory : Obligations.BranchesTransfer ↔ AlwaysMemory := by
  constructor
  · intro h n
    by_contra hf
    exact skew_not_transfers (Bool.eq_false_iff.mpr hf) (h skewBranch (skewState n) 0#64 _ false (fun _ => true) skewTarget
      (fun _ => rfl) (skew_issues n) (skew_straight n) (skew_atPc n) fun l hl _ => skew_targetReads n l (by rwa [skew_contributing] at hl))
  · intro hall i s p o pop take goes_ hspec hi hst hp hgood
    exact branch_transfers hspec hi hst hp hgood (.inl hall)

end Sys2Proof.SkewedLines
end
